-- ==== Sys2Proof/Word.lean ====
section
/-! DEFINITION. The byte of both serial lines and the index types of the part's fixed arrays. -/

namespace Sys2Proof

/-- One byte on a serial line (R169, R182). -/
abbrev Byte := BitVec 8

/-- A byte from an unsigned number (R199: 1-byte unsigned fields). -/
def byte (n : Nat) : Byte := BitVec.ofNat 8 n

/-- A junction index, 0 to 11 (00_scope.md, "Junctions and direction"). -/
abbrev JIdx := Fin 12

/-- A stage. The manual numbers stages 1 to 8 (00_scope.md, "Stages and detectors"): stage n is held as n - 1,
and "no stage" is `none` of `Option Stage`. -/
abbrev Stage := Fin 8

/-- The manual's number of a stage. -/
def Stage.num (s : Stage) : Nat := s.val + 1

/-- The stage with the manual's number n, if n is 1 to 8. -/
def Stage.ofNum? (n : Nat) : Option Stage :=
  if h : 1 ≤ n ∧ n ≤ 8 then some ⟨n - 1, by omega⟩ else none

/-- A detector, 0 to 23. -/
abbrev DetIdx := Fin 24

/-- An entry number of the pool, 0 to 127 (R22). -/
abbrev EntryNo := Fin 128

/-- A slot of the request table, 0 to 23 (R91). -/
abbrev SlotNo := Fin 24

/-- A script queue: 0 to 11 the junction queues, 12 the master queue (R199). -/
abbrev QueueNo := Fin 13

/-- A tag of a corridor line, 0 to 15 (R176). -/
abbrev Tag := Fin 16

/-- An index carried in a byte, if it lies within its field. -/
def idx? (n k : Nat) : Option (Fin n) := if h : k < n then some ⟨k, h⟩ else none

end Sys2Proof
end

