-- ==== Sys2Proof/Syntax.lean ====
section
/-! DEFINITION. The commands: one constructor for each row of spec/opcode_table.json. A command is one step of the part,
whole and indivisible (95_what_each_step_holds.md). Times come from the state, so a timed event carries only the index of
what falls due; a directive's tag and body are those of the frame at the head of the intake (R185). -/

namespace Sys2Proof

/-- Which of two blocks takes a report first (R82, R173: "may take the report in either order"). -/
inductive TakeOrder where
  | detectorFirst
  | sequencerFirst
  deriving DecidableEq, Repr

/-- The commands of the part. -/
inductive Instr where
  /-- Power-up or RESET asserted (R20). -/
  | coldStart
  /-- The warm start after a RESTART answer has left (R21, R188). -/
  | warmStart
  /-- Bytes received on HRX that end a good directive frame (R183, R184). -/
  | directiveArrival (bytes : List Byte)
  /-- Bytes received on HRX that end a frame to be dropped (R183). -/
  | hostFrameDiscard (bytes : List Byte)
  /-- More than 50 ms between two bytes of a host frame (R183). -/
  | hostByteGapExpiry
  /-- The intake's head is a BUSY mark and is answered (R185). -/
  | busyAnswer
  /-- The intake's head is a directive with an undefined code (R185). -/
  | unknownDirective
  /-- The leaving frame's last byte has left HTX (R187). -/
  | hostFrameSent
  /-- CONFIGURE CORRIDOR taken (R6). -/
  | configureCorridor
  /-- CONFIGURE JUNCTION taken (R17). -/
  | configureJunction
  /-- RUN taken (R4). -/
  | run
  /-- STOP taken (R5). -/
  | stop
  /-- RESTART taken (R21). -/
  | restart
  /-- SET CLOCK taken (R19). -/
  | setClock
  /-- The time of day advances by one second (R19). -/
  | clockAdvance
  /-- The tenth in which m wraps to 0 (R2). -/
  | masterZero
  /-- p has reached the span of junction j (R66). -/
  | localCycleStart (j : JIdx)
  /-- The band end point of junction j is reached (R60). -/
  | bandEndPoint (j : JIdx)
  /-- The band call point of junction j is reached (R64). -/
  | bandCallPoint (j : JIdx)
  /-- The minimum of junction j's top expires (R57 to R65). -/
  | minimumExpiry (j : JIdx)
  /-- The elapsed of junction j's top reaches its split (R58). -/
  | splitExpiry (j : JIdx)
  /-- The elapsed of a resumed top reaches its resume allowance (R128). -/
  | allowanceExpiry (j : JIdx)
  /-- A minimum wait of junction j ends (R123). -/
  | minimumWaitEnd (j : JIdx)
  /-- The deadline of junction j's order passes (R53). -/
  | confirmTimeout (j : JIdx)
  /-- Bytes received on LRXj that end a good REPORT (R173). -/
  | reportReceived (j : JIdx) (first : TakeOrder) (bytes : List Byte)
  /-- The wait limit of the PENDING record in a slot passes (R108). -/
  | waitExpiry (slot : SlotNo)
  /-- The service end of the ACTIVE request in a slot is reached (R109, R110). -/
  | serviceEnd (slot : SlotNo)
  /-- The hold end of the ACTIVE request in a slot is reached (R111). -/
  | holdEnd (slot : SlotNo)
  /-- The RUNNING gap timer of a stage (by its number, 1 to 8) reaches its due time (R85). -/
  | gapExpiry (j : JIdx) (stage : Nat)
  /-- A detector's occupancy reaches the stuck limit (R86). -/
  | stuckDetected (j : JIdx) (det : DetIdx)
  /-- A MEASURING probe reaches its spill due (R142). -/
  | spillDue (j : JIdx)
  /-- Bytes received on LRXj that end a bad frame (R170). -/
  | corridorFrameDiscard (j : JIdx) (first : TakeOrder) (bytes : List Byte)
  /-- More than 5 ms between two bytes of a frame on LRXj (R169). -/
  | corridorByteGapExpiry (j : JIdx) (first : TakeOrder)
  /-- The silence timer of line j reaches its due time (R172). -/
  | lineSilence (j : JIdx)
  /-- The leaving frame's last byte has left LTXj (R175). -/
  | corridorFrameSent (j : JIdx)
  /-- 500 ms without a frame to a coordinated junction (R177). -/
  | keepDue (j : JIdx)
  /-- 500 ms without a frame to a LOCAL or SOLO junction (R178). -/
  | releaseDue (j : JIdx)
  /-- APPEND ENTRY taken (R34). -/
  | appendEntry
  /-- INSERT ENTRY taken (R35). -/
  | insertEntry
  /-- AMEND ENTRY taken (R37). -/
  | amendEntry
  /-- REMOVE ENTRY taken (R36). -/
  | removeEntry
  /-- READ CHAIN taken (R40). -/
  | readChain
  /-- REPAIR JUNCTION taken (R72). -/
  | repairJunction
  /-- REJOIN JUNCTION taken (R73). -/
  | rejoinJunction
  /-- READ JUNCTION taken (R198). -/
  | readJunction
  /-- MAP DETECTORS taken (R77). -/
  | mapDetectors
  /-- READ DETECTORS taken (R89). -/
  | readDetectors
  /-- RAISE REQUEST taken (R102). -/
  | raiseRequest
  /-- CANCEL REQUEST taken (R113). -/
  | cancelRequest
  /-- READ REQUESTS taken (R117). -/
  | readRequests
  /-- SET GUARD taken (R138). -/
  | setGuard
  /-- LOAD STEP taken (R150). -/
  | loadStep
  /-- CLOSE GROUP taken (R151). -/
  | closeGroup
  /-- DROP SCRIPTS taken (R152). -/
  | dropScripts
  /-- SCRIPT SPACE taken (R153). -/
  | scriptSpace
  /-- ARM NOTICES taken (R192). -/
  | armNotices
  /-- PAUSE NOTICES taken (R193). -/
  | pauseNotices
  /-- RESUME NOTICES taken (R193). -/
  | resumeNotices
  /-- FETCH RECORDS taken (R196). -/
  | fetchRecords
  /-- READ STATUS taken (R197). -/
  | readStatus
  /-- One tenth of a second passes (R1). -/
  | masterPositionAdvance
  deriving DecidableEq, Repr

end Sys2Proof
end

