-- ==== Sys2Proof/Config.lean ====
section
/-! DEFINITION. What the manual fixes for the part: its capacities and limits (00_scope.md, "Principal figures").
The manual leaves no value open, so there is no free value here (assumption log 45). -/

namespace Sys2Proof.Config

/-- Directive frames the intake holds (R184). -/
def intakeDirectives : Nat := 4

/-- BUSY marks the intake holds (R184). -/
def intakeBusy : Nat := 8

/-- Frames the outgoing queue holds, the one leaving among them (R187). -/
def outgoing : Nat := 16

/-- Host entries in one chain (R25). -/
def hostPerChain : Nat := 14

/-- Host entries in all (R25). -/
def hostInAll : Nat := 104

/-- Items of a completion list (R32). -/
def completions : Nat := 16

/-- Items of a cycle record's served list (R68). -/
def servedItems : Nat := 14

/-- Slots of the script store (R148). -/
def scriptSlots : Nat := 256

/-- Closed groups that wait at most (R151). -/
def waitingGroups : Nat := 4

/-- Records the cycle record queue holds at most (R195). -/
def recordsHeld : Nat := 47

/-- Greatest elapsed time in tenths (R22: "it does not pass 150.0 s"). -/
def elapsedMax : Nat := 1500

/-- Line silence limit in tenths, 2.0 s (R171). -/
def silence : Nat := 20

/-- Interval of KEEP and RELEASE frames in tenths, 500 ms (R177, R178). -/
def keepInterval : Nat := 5

/-- Seconds in a day (R19). -/
def day : Nat := 86400

/-- Window after a not-before time in which its group may start, in seconds (R154). -/
def startWindow : Nat := 43200

end Sys2Proof.Config
end

