-- ==== Sys2Proof/Machine/State.lean ====
section
/-! DEFINITION. The state of the part, as plain data: every item of state the manual names, block by block, its value after
a cold start, and the reasons a step could stop (the manual gives none). -/

namespace Sys2Proof.Machine

open Sys2Proof

/-! ## Corridor timebase (section 1.1) -/

/-- The corridor states (R3). -/
inductive CorridorState where
  | dark | ready | coordinating
  deriving DecidableEq, Repr

/-- The band directions (R9). -/
inductive Direction where
  | inbound | outbound
  deriving DecidableEq, Repr

/-- Why the part last started (R20, R21). -/
inductive StartCause where
  | cold | warm
  deriving DecidableEq, Repr

/-- The three values CONFIGURE CORRIDOR carries (R6), in seconds where they are times. -/
structure CorridorSet where
  c : Nat
  dir : Direction
  wait : Nat
  deriving DecidableEq, Repr

/-- The corridor timebase (section 1.1). Lengths in seconds, m in tenths. -/
structure Timebase where
  corridor : CorridorState
  /-- Master cycle length C, 40 to 200 s. -/
  c : Nat
  /-- Master position, 0 to 10C-1 tenths. -/
  m : Nat
  dir : Direction
  /-- Time of day in seconds, `none` while UNSET. -/
  tod : Option Nat
  /-- Part time of the next advance of the time of day (R19); not read while UNSET. -/
  todDue : Nat
  staged : Option CorridorSet
  cause : StartCause
  deriving DecidableEq, Repr

/-! ## Entries (section 2.1) -/

/-- R22: BAND carries the arterial green, SIDE is any other stage. -/
inductive Role where
  | band | side
  deriving DecidableEq, Repr

/-- R22: whether an entry returns to the tail after service. -/
inductive EntryKind where
  | recurring | once
  deriving DecidableEq, Repr

/-- R22: who placed an entry. -/
inductive Origin where
  | host | service
  deriving DecidableEq, Repr

/-- R22: RECALL is always servable, CALL only with a call pending. -/
inductive Demand where
  | recall | call
  deriving DecidableEq, Repr

/-- R22. -/
inductive EntryStatus where
  | waiting | serving | stalled
  deriving DecidableEq, Repr

/-- R22: how an entry's most recent service or pass ended. -/
inductive EntryOutcome where
  | none | served | gapped | forced | passed | cut
  deriving DecidableEq, Repr

/-- R22: the most recent confirmation error charged to an entry. -/
inductive EntryError where
  | none | confirmTimeout | wrongStage | lampFault
  deriving DecidableEq, Repr

/-- A pending AMEND ENTRY: a value for each field it carries (R37, R39). -/
structure Amendment where
  split : Option Nat
  minimum : Option Nat
  passage : Option Nat
  demand : Option Demand
  notify : Option Bool
  allowance : Option Nat
  deriving DecidableEq, Repr

/-- An entry record (R22). Minimum and split in seconds, passage and elapsed in tenths. -/
structure Entry where
  stage : Stage
  role : Role
  kind : EntryKind
  origin : Origin
  demand : Demand
  minimum : Nat
  split : Nat
  passage : Nat
  allowance : Nat
  retries : Nat
  notify : Bool
  status : EntryStatus
  outcome : EntryOutcome
  error : EntryError
  elapsed : Option Nat
  slot : Option SlotNo
  staged : Option Amendment
  deriving DecidableEq, Repr

/-- A record on the free list, "all its fields are cleared" (R24); no rule reads these values. -/
def Entry.clear : Entry :=
  { stage := 0, role := .side, kind := .once, origin := .host, demand := .recall, minimum := 0, split := 0, passage := 0,
    allowance := 0, retries := 0, notify := false, status := .waiting, outcome := .none, error := .none, elapsed := none,
    slot := none, staged := none }

/-- An item of a completion list (R32). -/
structure Completion where
  entry : EntryNo
  stage : Stage
  outcome : EntryOutcome
  deriving DecidableEq, Repr

/-! ## Guard results, used by the tally too (R137, R143 to R145) -/

/-- Gate outcomes (R143). -/
inductive GateOutcome where
  | gated | idle | suppressed
  deriving DecidableEq, Repr

/-- Flush dispositions (R144); POSTED with the downstream junction and the slot. -/
inductive FlushDisposition where
  | posted (j : JIdx) (slot : SlotNo)
  | dropped
  | flushNone
  deriving DecidableEq, Repr

/-- The outcome of a concluded measurement (R137, R145); absent is also the record's OFF. -/
inductive ProbeResult where
  | absent
  | done (occupancy : Nat)
  | spilled (gate : GateOutcome) (flush : FlushDisposition)
  deriving DecidableEq, Repr

/-! ## Junction sequencer (section 3.1, 6.1) -/

/-- The causes of LOCAL (R43). -/
inductive LocalCause where
  | notRunning | manual | noBand
  deriving DecidableEq, Repr

/-- The causes of SOLO (R43). -/
inductive SoloCause where
  | link | unit | stall | plan
  deriving DecidableEq, Repr

/-- Junction state with its cause (R43); `loc` is LOCAL. -/
inductive JState where
  | absent
  | loc (cause : LocalCause)
  | joining
  | inStep
  | solo (cause : SoloCause)
  deriving DecidableEq, Repr

/-- The order sent and not yet resolved (R43, R51). `live`: the named entry still stands in the chain (R131).
`deadline` is absent until the frame has been sent (R51, R175). -/
structure OrderInFlight where
  entry : EntryNo
  live : Bool
  stage : Stage
  tag : Tag
  deadline : Option Nat
  deriving DecidableEq, Repr

/-- A context record (R119). -/
structure Context where
  slot : SlotNo
  entry : EntryNo
  saved : Nat
  minReached : Bool
  prior : Nat
  deriving DecidableEq, Repr

/-- What a popped record hands to the entry being resumed until its confirmation (R128, R130). -/
structure Resume where
  saved : Nat
  minReached : Bool
  deriving DecidableEq, Repr

/-- An item of a cycle record's served list (R68); duration in tenths. -/
structure ServedItem where
  stage : Stage
  outcome : EntryOutcome
  duration : Nat
  deriving DecidableEq, Repr

/-- The cycle tally (R68). -/
structure Tally where
  bandError : Option Int
  bandGreen : Nat
  served : List ServedItem
  accepts : Nat
  scriptStep : Bool
  probe : ProbeResult
  deriving DecidableEq, Repr

/-- The cleared tally. -/
def Tally.clear : Tally :=
  { bandError := none, bandGreen := 0, served := [], accepts := 0, scriptStep := false, probe := .absent }

/-- The plan values of a junction (R17), in seconds. -/
structure Plan where
  mult : Nat
  offset : Nat
  a : Nat
  ext : Nat
  hold : Nat
  wait : Nat
  stuck : Nat
  deriving DecidableEq, Repr

/-- The cold values of R17. -/
def Plan.cold : Plan := { mult := 1, offset := 0, a := 5, ext := 10, hold := 120, wait := 60, stuck := 0 }

/-! ## Detector unit (section 4.1) -/

/-- Detector functions (R76). -/
inductive DetFn where
  | none
  | call (stage : Stage)
  | extend (stage : Stage)
  | callExtend (stage : Stage)
  | exitIn
  | exitOut
  deriving DecidableEq, Repr

/-- A gap timer (R85); due times are part times in tenths. -/
inductive GapTimer where
  | stopped
  | running (due : Nat)
  | expired
  deriving DecidableEq, Repr

/-- The detector state of a junction (section 4.1). `timers` holds the onset of a RUNNING stuck timer. -/
structure Detectors where
  map : Vector DetFn 24
  stagedMap : Option (Vector DetFn 24)
  rows : Vector Bool 24
  rowsValid : Bool
  flags : Vector Bool 8
  gap : Vector GapTimer 8
  timers : Vector (Option Nat) 24
  stuck : Vector Bool 24
  deriving DecidableEq, Repr

/-- The cold values of R75 with a given map in force. -/
def Detectors.coldWith (map : Vector DetFn 24) : Detectors :=
  { map := map, stagedMap := none, rows := Vector.replicate 24 false, rowsValid := false,
    flags := Vector.replicate 8 false, gap := Vector.replicate 8 .stopped, timers := Vector.replicate 24 none,
    stuck := Vector.replicate 24 false }

/-- The cold values of R75. -/
def Detectors.cold : Detectors := Detectors.coldWith (Vector.replicate 24 .none)

/-! ## Spillback guard (section 7.1) -/

/-- The four settings SET GUARD carries (R138); threshold and flush time in seconds. -/
structure GuardSettings where
  enable : Bool
  threshold : Nat
  flushLevel : Nat
  flushTime : Nat
  deriving DecidableEq, Repr

/-- Probe states with the items each one holds (R137, R140 to R142). -/
inductive Probe where
  | off
  | armed (watched : DetIdx)
  | measuring (watched : DetIdx) (start due : Nat)
  | done
  | spilled
  deriving DecidableEq, Repr

/-- The guard of a junction (R137). -/
structure Guard where
  settings : GuardSettings
  staged : Option GuardSettings
  probe : Probe
  result : ProbeResult
  deriving DecidableEq, Repr

/-- The cold values of R137. -/
def Guard.cold : Guard :=
  { settings := { enable := false, threshold := 20, flushLevel := 6, flushTime := 10 }, staged := none, probe := .off,
    result := .absent }

/-! ## Corridor line controller (section 9.1) -/

/-- Unit modes (R170). -/
inductive UnitMode where
  | coordReady | localManual | fault
  deriving DecidableEq, Repr

/-- A frame from the part to a unit (R169, R203). -/
inductive LineFrame where
  | order (stage : Stage) (tag : Tag)
  | keep (stage : Option Stage) (tag : Tag)
  | release
  deriving DecidableEq, Repr

/-- The last good report, stored whole (R173): its REPORT body, its arrival and the time of day then (R180). -/
structure LastReport where
  body : List Byte
  arrived : Nat
  tod : Option Nat
  deriving DecidableEq, Repr

/-- A byte received on LRX, with the moment and the time of day of its arrival: a good report arrives with its last byte (R170, R180). -/
structure Received where
  byte : Byte
  time : Nat
  tod : Option Nat
  deriving DecidableEq, Repr

/-- A corridor line controller (R168). `rx` holds the bytes of a frame being assembled (R170). -/
structure Line where
  up : Bool
  upAt : Option Nat
  lastTag : Tag
  mode : Option UnitMode
  last : Option LastReport
  silence : Option Nat
  leaving : Option LineFrame
  waiting : Option LineFrame
  lastSent : Option Nat
  rx : List Received
  deriving DecidableEq, Repr

/-- R168, after a cold start. The rule does not name the bytes of a frame being assembled on LRX: none is the model's choice (assumption
log 86). -/
def Line.cold : Line :=
  { up := false, upAt := none, lastTag := 0, mode := none, last := none, silence := none, leaving := none, waiting := none,
    lastSent := none, rx := [] }

/-! ## A junction -/

/-- Everything the part holds for one junction: chain and completion list (02), sequencer (03, 06), plan (01), detectors (04),
guard (07) and line (09). -/
structure Junction where
  chain : List EntryNo
  completions : List Completion
  overflow : Bool
  state : JState
  dwell : Bool
  order : Option OrderInFlight
  green : Option Stage
  level : Nat
  /-- The force mark: true is PENDING (R65). -/
  force : Bool
  endPassed : Bool
  callReached : Bool
  /-- The band end point of this cycle has been reached (R12). -/
  endDone : Bool
  /-- The band call point of this cycle has been reached (R12). -/
  callDone : Bool
  /-- The band end point moved by the guard (R143), a position of p. -/
  moved : Option Nat
  /-- The context stack, top record first (R119). -/
  stack : List Context
  /-- A minimum wait in progress, with the host entry whose stage is green (R123). -/
  minWait : Option EntryNo
  allowance : Option Nat
  resuming : Option Resume
  tally : Tally
  carried : Option Int
  /-- Local position in tenths (R11); 0 for an ABSENT junction, which holds none. -/
  p : Nat
  span : Nat
  cycleCount : Nat
  plan : Plan
  stagedPlan : Option Plan
  det : Detectors
  guard : Guard
  line : Line
  deriving DecidableEq, Repr

/-- A junction after a cold start (R24, R45, R75, R119, R137, R168, R194). -/
def Junction.cold : Junction :=
  { chain := [], completions := [], overflow := false, state := .absent, dwell := false, order := none, green := none,
    level := 0, force := false, endPassed := false, callReached := false, endDone := false, callDone := false, moved := none,
    stack := [], minWait := none, allowance := none, resuming := none, tally := .clear, carried := none, p := 0, span := 0,
    cycleCount := 0, plan := .cold, stagedPlan := none, det := .cold, guard := .cold, line := .cold }

/-! ## Priority arbiter (section 5.1) -/

/-- Source kinds (R90). -/
inductive SourceKind where
  | unit | central | guard
  deriving DecidableEq, Repr

/-- Actions (R90). -/
inductive Action where
  | extend | insert
  deriving DecidableEq, Repr

/-- When the service time expires (R90). -/
inductive ServiceEnd where
  | notStarted
  | untilCancelled
  | due (t : Nat)
  deriving DecidableEq, Repr

/-- The fields an ACTIVE record has (R90); part times. `started`: its service has started (R109). `cap` for EXTEND only. -/
structure Active where
  accepted : Nat
  svcEnd : ServiceEnd
  started : Bool
  cap : Option Nat
  holdEnd : Nat
  deriving DecidableEq, Repr

/-- The state of a record (R90). -/
inductive ReqState where
  | pending
  | active (a : Active)
  deriving DecidableEq, Repr

/-- A request record (R90); service time and wait limit in seconds, arrival in part time. -/
structure Request where
  junction : JIdx
  source : SourceKind
  id : Nat
  level : Nat
  action : Action
  stage : Stage
  time : Nat
  wait : Nat
  arrived : Nat
  state : ReqState
  deriving DecidableEq, Repr

/-- How a request ends (section 5.5). -/
inductive ReqOutcome where
  | served | cancelled | expired | displaced | abandoned
  deriving DecidableEq, Repr

/-- A request's key (R92). -/
structure Key where
  junction : JIdx
  source : SourceKind
  id : Nat
  deriving DecidableEq, Repr

/-! ## Script unit (section 8.1) -/

/-- Block kinds (R149); seconds. -/
inductive Block where
  | cycle (c : Nat)
  | direction (d : Direction)
  | offset (shift : Int)
  | split (stage : Stage) (split : Nat)
  | guard (threshold flushTime : Nat)
  deriving DecidableEq, Repr

/-- A script item: a step, or an end mark (hold 0, no blocks) (R149). -/
inductive Item where
  | step (hold : Nat) (blocks : List Block)
  | endMark
  deriving DecidableEq, Repr

/-- The script unit (R148). The waiting count is the length of `notBefore`. `place` counts the steps of the running group a
queue has read (R163). -/
structure ScriptUnit where
  queues : Vector (List Item) 13
  notBefore : List (Option Nat)
  running : Vector Bool 13
  hold : Vector Nat 13
  place : Vector Nat 13
  deriving DecidableEq, Repr

/-- R166: the script unit after either start. -/
def ScriptUnit.empty : ScriptUnit :=
  { queues := Vector.replicate 13 [], notBefore := [], running := Vector.replicate 13 false, hold := Vector.replicate 13 0,
    place := Vector.replicate 13 0 }

/-! ## Notices (R202) -/

/-- Reasons a directive is refused (R186). -/
inductive Reason where
  | form | range | state | noSuch | noRoom | inUse | band | infeasible | unknown
  deriving DecidableEq, Repr

/-- Reasons of a DETECTOR CLEARED notice (R87). -/
inductive ClearReason where
  | unoccupied | map | limit
  deriving DecidableEq, Repr

/-- Notice classes in the order of the class table (section 10.4). -/
inductive NoticeClass where
  | corridor | junction | entry | detector | priority | spill | script | records
  deriving DecidableEq, Repr

/-- A notice with the data its raising rule gives (R202). -/
inductive Notice where
  | corridorState (c : CorridorState)
  | stagedApplied (v : CorridorSet)
  | stagedDiscarded (r : Reason) (j : JIdx)
  | junctionState (j : JIdx) (st : JState) (stalled : Option (EntryNo × EntryError))
  | junctionStagedDiscarded (j : JIdx) (r : Reason)
  | linkUp (j : JIdx) (mode : UnitMode)
  | linkDown (j : JIdx) (tod : Option Nat)
  | completions (j : JIdx) (overflow : Bool) (items : List Completion)
  | stuck (j : JIdx) (d : DetIdx) (fn : DetFn)
  | cleared (j : JIdx) (d : DetIdx) (r : ClearReason)
  | accepted (slot : SlotNo) (key : Key) (level : Nat) (action : Action) (stage : Stage) (displaced : Option Key)
  | ended (slot : SlotNo) (key : Key) (level : Nat) (action : Action) (wasActive : Bool) (outcome : ReqOutcome)
  | tableFull (key : Key) (level : Nat)
  | badRecord (j : JIdx) (id : Nat)
  | spill (j : JIdx) (d : DetIdx) (threshold : Nat) (gate : GateOutcome) (flush : FlushDisposition)
  | started (notBefore : Option Nat) (tod : Option Nat) (waiting : Nat)
  | finished (tod : Option Nat)
  | scriptFault (q : QueueNo) (place : Nat) (r : Reason) (j : Option JIdx)
  | scriptAbandoned (mask : Vector Bool 13)
  | recordCount (n : Nat)
  deriving DecidableEq, Repr

/-! ## The part of the state the corridor blocks work on -/

/-- Entry pool, chains, junctions and request table. `raised` collects, in order, the notices the command in progress has
formed; they are offered to the notice table before the command ends (R190), so it is empty between commands. -/
structure Plant where
  pool : Vector Entry 128
  free : List EntryNo
  jn : Vector Junction 12
  req : Vector (Option Request) 24
  /-- The arrival order, oldest first (R91). -/
  arrivals : List SlotNo
  raised : List Notice
  deriving DecidableEq, Repr

/-- R24, R45, R91: the plant after a cold start. -/
def Plant.cold : Plant :=
  { pool := Vector.replicate 128 .clear, free := List.finRange 128, jn := Vector.replicate 12 .cold,
    req := Vector.replicate 24 none, arrivals := [], raised := [] }

/-! ## Host port (section 10.2, 10.3) -/

/-- An item of the intake (R184). -/
inductive IntakeItem where
  | directive (tag code : Byte) (body : List Byte)
  | busy (tag code : Byte)
  deriving DecidableEq, Repr

/-- Frame kinds the part sends on the host line (R182). -/
inductive OutKind where
  | answer | notice
  deriving DecidableEq, Repr

/-- A frame of the outgoing queue (R182, R187). -/
structure OutFrame where
  kind : OutKind
  tag : Byte
  code : Byte
  body : List Byte
  deriving DecidableEq, Repr

/-- RESTART in progress (R188): its answer is not yet sent, or has left and the warm start is due. -/
inductive RestartPhase where
  | none | answering | answerLeft
  deriving DecidableEq, Repr

/-- The host port. `queue` holds the waiting frames in the order queued, `leaving` the one on HTX. -/
structure HostPort where
  rx : List Byte
  intake : List IntakeItem
  queue : List OutFrame
  leaving : Option OutFrame
  restart : RestartPhase
  deriving DecidableEq, Repr

/-- R188: the host port after either start. -/
def HostPort.empty : HostPort := { rx := [], intake := [], queue := [], leaving := none, restart := .none }

/-! ## Report block (sections 10.4, 10.5) -/

/-- A cycle record (R194). -/
structure CycleRecord where
  junction : JIdx
  count : Nat
  tod : Option Nat
  tally : Tally
  gap : Bool
  deriving DecidableEq, Repr

/-- The notice table, one bit a class in the order of a class set (R189, R200), and the cycle record queue (R195). -/
structure ReportBlock where
  armed : BitVec 8
  paused : BitVec 8
  pend : BitVec 8
  slots : Vector (Option CycleRecord) 48
  wr : Fin 48
  rd : Fin 48
  gap : Bool
  deriving DecidableEq, Repr

/-- R189, R195: the report block after a cold start. -/
def ReportBlock.cold : ReportBlock :=
  { armed := 0, paused := 0, pend := 0, slots := Vector.replicate 48 none, wr := 0, rd := 0, gap := false }

/-! ## The state -/

/-- R20: the timebase after a cold start. -/
def Timebase.cold : Timebase :=
  { corridor := .dark, c := 90, m := 0, dir := .inbound, tod := none, todDue := 0, staged := none, cause := .cold }

end Sys2Proof.Machine

namespace Sys2Proof.Machine

/-- The state of the part. `now` is the part time in tenths (R90: "tenths, part time"). -/
structure State where
  now : Nat
  tb : Timebase
  plant : Plant
  script : ScriptUnit
  host : HostPort
  report : ReportBlock
  /-- The commands that wait, first in, first out. -/
  pending : List Instr
  deriving DecidableEq, Repr

/-- The part right after a cold start (R20, R24, R45, R75, R91, R119, R137, R166, R168, R188, R189, R195). -/
def State.reset : State :=
  { now := 0, tb := .cold, plant := .cold, script := .empty, host := .empty, report := .cold, pending := [] }

/-- Why the part could stop. The manual names no machine fault: no command raises one, and the type has no constructor. -/
inductive Fault where
  deriving DecidableEq, Repr

/-- Why a command could be refused. -/
inductive Refusal where
  /-- Raised by an arm of `exec` for a command without a meaning yet; safe, since nothing follows. No arm raises it now. -/
  | notModelled (mnemonic : String)
  deriving DecidableEq, Repr

end Sys2Proof.Machine
end

