-- ==== Sys2Proof/Machine/Frames.lean ====
section
/-! DEFINITION. Frames on both kinds of line: the check (R199), the receivers (R170, R183, R203) and the bytes of the frames
the part sends (R182, R203). -/

namespace Sys2Proof.Machine

open Sys2Proof

/-! ## The frame check (R199) -/

/-- One data bit: the register shifts toward its high end and, if the bit that leaves differs from the data bit, is combined
with 1021h (R199). -/
def crcBit (r : BitVec 16) (d : Bool) : BitVec 16 :=
  if r.msb != d then (r <<< 1) ^^^ 0x1021#16 else r <<< 1

/-- One byte, from its most significant bit down (R199). -/
def crcByte (r : BitVec 16) (b : Byte) : BitVec 16 :=
  [7, 6, 5, 4, 3, 2, 1, 0].foldl (fun r i => crcBit r (b.getLsbD i)) r

/-- The check over the covered bytes, from FFFFh (R199). -/
def crc (bytes : List Byte) : BitVec 16 := bytes.foldl crcByte 0xFFFF#16

/-- A 16-bit value, most significant byte first (R199). -/
def be16 (v : BitVec 16) : List Byte := [(v >>> 8).setWidth 8, v.setWidth 8]

/-- A frame: start byte, length byte, payload, check over length byte and payload (R169, R182). -/
def frame (start : Byte) (payload : List Byte) : List Byte :=
  let covered := byte payload.length :: payload
  start :: covered ++ be16 (crc covered)

/-! ## Receiving -/

/-- What differs between the host receiver and a corridor receiver. -/
structure FrameForm where
  start : Byte
  minLen : Nat
  maxLen : Nat
  /-- The tests on a frame whose check is right. -/
  accept : List Byte → Bool
  /-- Whether the hunt after a frame with a right check that is not accepted goes on behind it (R183) or behind its start
  byte (R170). -/
  skipWhole : Bool

/-- What the bytes behind a start byte give. -/
inductive Assembly where
  /-- More bytes are needed. -/
  | incomplete
  /-- The frame is discarded; the hunt goes on behind its start byte. -/
  | bad
  /-- A frame with a right check: its payload and the bytes behind it. -/
  | whole (payload rest : List Byte)
  deriving DecidableEq, Repr

/-- Assembles the frame whose start byte stands in front of these bytes (R170, R183, R203). -/
def assemble (form : FrameForm) : List Byte → Assembly
  | [] => .incomplete
  | len :: rest =>
    let n := len.toNat
    if n < form.minLen ∨ form.maxLen < n then .bad
    else if rest.length < n + 2 then .incomplete
    else
      let payload := rest.take n
      if be16 (crc (len :: payload)) = (rest.drop n).take 2 then .whole payload (rest.drop (n + 2)) else .bad

/-- An accepted frame: its payload, and how many received bytes stand behind its last byte. -/
structure Found where
  payload : List Byte
  behind : Nat
  deriving DecidableEq, Repr

/-- Hunts through received bytes: the accepted frames, in order, and the bytes of a frame still being assembled, which are the
last of the received ones. The fuel is the number of bytes. -/
def hunt (form : FrameForm) : Nat → List Byte → List Found × List Byte
  | 0, buf => ([], buf)
  | _ + 1, [] => ([], [])
  | k + 1, b :: rest =>
    if b = form.start then
      match assemble form rest with
      | .incomplete => ([], b :: rest)
      | .bad => hunt form k rest
      | .whole payload behind =>
        if form.accept payload then
          let r := hunt form k behind
          ({ payload := payload, behind := behind.length } :: r.1, r.2)
        else hunt form k (if form.skipWhole then behind else rest)
    else hunt form k rest

/-- A byte gap: the frame being assembled is discarded and the bytes behind its start byte are hunted through; a frame still
incomplete among them has the gap inside it too and is discarded in its turn (R169, R183). -/
def huntGap (form : FrameForm) : Nat → List Byte → List Found
  | 0, _ => []
  | _ + 1, [] => []
  | k + 1, _ :: rest =>
    let r := hunt form rest.length rest
    r.1 ++ huntGap form k r.2

/-- The payloads that bytes received after those in the buffer give, and the new buffer. -/
def receive (form : FrameForm) (buf bytes : List Byte) : List (List Byte) × List Byte :=
  let r := hunt form (buf ++ bytes).length (buf ++ bytes)
  (r.1.map Found.payload, r.2)

/-- The payloads that a byte gap sets free in a buffer. -/
def receiveGap (form : FrameForm) (buf : List Byte) : List (List Byte) := (huntGap form (buf.length + 1) buf).map Found.payload

/-- The host line's form (R182, R183): payload is kind, tag, code and body; only DIRECTIVE frames arrive. -/
def hostForm : FrameForm :=
  { start := 0xC5, minLen := 3, maxLen := 250, accept := fun pl => pl.head? == some 1, skipWhole := true }

/-- The green stage, mode and tag tests of R170 on a REPORT body. -/
def reportBodyGood : List Byte → Bool
  | mode :: green :: tag :: _ :: _ :: _ :: _ :: count :: records =>
    decide (1 ≤ mode.toNat ∧ mode.toNat ≤ 3) && decide (green.toNat ≤ 8) && decide (tag.toNat ≤ 15) &&
      decide (count.toNat ≤ 3) && decide (records.length = 7 * count.toNat)
  | _ => false

/-- A corridor line's form (R169, R170, R203): only good REPORT frames are taken. -/
def corridorForm : FrameForm :=
  { start := 0x5A, minLen := 1, maxLen := 30
    accept := fun pl => pl.head? == some 4 && reportBodyGood pl.tail, skipWhole := false }

/-! ## Fields of a REPORT body (R203) -/

/-- The i-th byte of a body, 0 beyond its end. -/
def bodyByte (b : List Byte) (i : Nat) : Nat := (b.getD i 0).toNat

/-- Unit mode (byte 0). -/
def reportMode (b : List Byte) : UnitMode :=
  match bodyByte b 0 with
  | 2 => .localManual
  | 3 => .fault
  | _ => .coordReady

/-- Green stage (byte 1). -/
def reportGreen (b : List Byte) : Option Stage := Stage.ofNum? (bodyByte b 1)

/-- Confirmed tag (byte 2). -/
def reportTag (b : List Byte) : Nat := bodyByte b 2

/-- Lamp-fault flag (bit 0 of byte 3). -/
def reportLamp (b : List Byte) : Bool := (b.getD 3 0).getLsbD 0

/-- Detector rows (bytes 4 to 6): bit b of row byte k is detector 8k + b. -/
def reportRows (b : List Byte) : Vector Bool 24 :=
  Vector.ofFn fun d : Fin 24 => (b.getD (4 + d.val / 8) 0).getLsbD (d.val % 8)

/-- The i-th request record, 7 bytes. -/
def reportRecord (b : List Byte) (i : Nat) : List Byte := (b.drop (8 + 7 * i)).take 7

/-- The request records in report order. -/
def reportRecords (b : List Byte) : List (List Byte) :=
  (List.range (bodyByte b 7)).map (reportRecord b)

/-! ## Frames the part sends -/

/-- Payload of a frame to a unit (R203). -/
def LineFrame.payload : LineFrame → List Byte
  | .order st tag => [1, byte st.num, byte tag.val]
  | .keep st tag => [2, byte ((st.map Stage.num).getD 0), byte tag.val]
  | .release => [3]

/-- The bytes of a frame to a unit (R203). -/
def LineFrame.wire (f : LineFrame) : List Byte := frame 0x5A f.payload

/-- Payload of a frame to the host (R182): kind, tag, code, body. -/
def OutFrame.payload (f : OutFrame) : List Byte :=
  (match f.kind with | .answer => 2 | .notice => 3) :: f.tag :: f.code :: f.body

/-- The bytes of a frame to the host (R182). -/
def OutFrame.wire (f : OutFrame) : List Byte := frame 0xC5 f.payload

/-- The bytes of a directive frame, as the host sends it (R182). -/
def directiveWire (tag code : Byte) (body : List Byte) : List Byte := frame 0xC5 (1 :: tag :: code :: body)

/-- The bytes of a REPORT, as a unit sends it (R203). -/
def reportWire (body : List Byte) : List Byte := frame 0x5A (4 :: body)

end Sys2Proof.Machine
end

