-- ==== Sys2Proof/Machine/Ops.lean ====
section
/-! DEFINITION. Accessors of the plant and the chain operations of section 2.3. -/

namespace Sys2Proof.Machine

open Sys2Proof

/-- What the corridor blocks read of the rest of the part: part time, time of day, C, m, direction, and whether the corridor
is COORDINATING. While a report is being taken, `arrived` is its arrival and `tod` the time of day then; elsewhere `arrived` is the part
time (R170). -/
structure Env where
  now : Nat
  arrived : Nat
  tod : Option Nat
  c : Nat
  m : Nat
  dir : Direction
  coordinating : Bool
  deriving DecidableEq, Repr

/-- The values the corridor blocks read in a state. -/
def State.env (s : State) : Env :=
  { now := s.now, arrived := s.now, tod := s.tb.tod, c := s.tb.c, m := s.tb.m, dir := s.tb.dir,
    coordinating := s.tb.corridor == .coordinating }

/-- A change of the plant made with the values in force. -/
def State.onPlant (s : State) (f : Env → Plant → Plant) : State := { s with plant := f s.env s.plant }

/-! ## Junction views -/

/-- JOINING or IN_STEP (R71: coordination). -/
def JState.coordinated : JState → Bool
  | .joining | .inStep => true
  | .absent | .loc _ | .solo _ => false

/-- Not ABSENT. -/
def JState.present : JState → Bool
  | .absent => false
  | .joining | .inStep | .loc _ | .solo _ => true

/-- LOCAL. -/
def JState.isLocal : JState → Bool
  | .loc _ => true
  | .absent | .joining | .inStep | .solo _ => false

/-- SOLO. -/
def JState.isSolo : JState → Bool
  | .solo _ => true
  | .absent | .joining | .inStep | .loc _ => false

/-- The sequencer's substate (R43). -/
inductive Substate where
  | none | changing | serving | dwell
  deriving DecidableEq, Repr

/-- R43, R51: CHANGING exactly while an order is in flight; in IN_STEP otherwise SERVING or DWELL; none elsewhere. -/
def Junction.substate (J : Junction) : Substate :=
  if J.order.isSome then .changing
  else if J.state = .inStep then (if J.dwell then .dwell else .serving)
  else .none

namespace Plant

/-! ## Accessors -/

/-- Changes one junction. -/
def upd (p : Plant) (j : JIdx) (f : Junction → Junction) : Plant := { p with jn := p.jn.set j (f p.jn[j]) }

/-- Changes one entry record. -/
def updEnt (p : Plant) (n : EntryNo) (f : Entry → Entry) : Plant := { p with pool := p.pool.set n (f p.pool[n]) }

/-- Changes one slot of the request table. -/
def setReq (p : Plant) (k : SlotNo) (r : Option Request) : Plant := { p with req := p.req.set k r }

/-- Forms a notice (R190). -/
def raise (p : Plant) (n : Notice) : Plant := { p with raised := p.raised ++ [n] }

/-- The top of a chain (R26). -/
def top? (p : Plant) (j : JIdx) : Option EntryNo := p.jn[j].chain.head?

/-- The record of the top. -/
def topEntry? (p : Plant) (j : JIdx) : Option Entry := (p.top? j).map fun n => p.pool[n]

/-- The records of a chain, top first. -/
def chainEntries (p : Plant) (j : JIdx) : List Entry := p.jn[j].chain.map fun n => p.pool[n]

/-- The BAND entry of a chain, if it holds one. -/
def bandEntry? (p : Plant) (j : JIdx) : Option Entry := (p.chainEntries j).find? fun x => x.role == .band

/-- Host entries of one chain (R25). -/
def hostCount (p : Plant) (j : JIdx) : Nat := (p.chainEntries j).countP fun x => x.origin == .host

/-- Service entries of one chain (R25). -/
def serviceCount (p : Plant) (j : JIdx) : Nat := (p.chainEntries j).countP fun x => x.origin == .service

/-- Host entries in all (R25). -/
def hostTotal (p : Plant) : Nat := ((List.finRange 12).map p.hostCount).sum

/-! ## Completion list and served list (R32, R68) -/

end Plant

/-- R32: marks a completion, replacing an item of the same entry; a full list sets its overflow mark. -/
def Junction.markCompletion (J : Junction) (c : Completion) : Junction :=
  if J.completions.any (fun i => i.entry == c.entry) then
    { J with completions := J.completions.map fun i => if i.entry = c.entry then c else i }
  else if J.completions.length < Config.completions then { J with completions := J.completions ++ [c] }
  else { J with overflow := true }

/-- R68: an item beyond the fourteenth is not kept. -/
def Tally.addServed (t : Tally) (i : ServedItem) : Tally :=
  if t.served.length < Config.servedItems then { t with served := t.served ++ [i] } else t

namespace Plant

/-- What an end or a pass of an entry with an outcome records: a completion if its notify is on (R27, R28) and an item of the
served list, its duration the elapsed time at the end (R68), 0 for an entry whose elapsed is absent (R127, assumption log 58). -/
def noteOutcome (p : Plant) (j : JIdx) (n : EntryNo) (out : EntryOutcome) : Plant :=
  let x := p.pool[n]
  p.upd j fun J =>
    let J := { J with tally := J.tally.addServed { stage := x.stage, outcome := out, duration := x.elapsed.getD 0 } }
    if x.notify then J.markCompletion { entry := n, stage := x.stage, outcome := out } else J

/-- R85: the gap timer of an entry's stage stops when the entry stops being SERVING. -/
def stopGapOf (p : Plant) (j : JIdx) (n : EntryNo) : Plant :=
  if p.pool[n].status = .serving then
    p.upd j fun J => { J with det := { J.det with gap := J.det.gap.set p.pool[n].stage .stopped } }
  else p

/-! ## Chain operations (section 2.3) -/

/-- The fields rotate top writes (R27). -/
def rotated (x : Entry) : Option EntryOutcome → Entry
  | none => { x with status := .waiting, elapsed := none }
  | some .passed => { x with status := .waiting, elapsed := none, outcome := .passed }
  | some out => { x with status := .waiting, elapsed := none, outcome := out, retries := x.allowance, error := .none }

/-- R27: rotate top. -/
def rotateTop (p : Plant) (j : JIdx) (out : Option EntryOutcome) : Plant :=
  match p.jn[j].chain with
  | [] => p
  | n :: rest =>
    let p := p.stopGapOf j n
    let p := match out with
      | none => p
      | some o => p.noteOutcome j n o
    (p.upd j fun J => { J with chain := rest ++ [n] }).updEnt n fun x => rotated x out

/-- Takes an entry out of its chain to the tail of the free list, its fields cleared (R24, R28, R31). An order in flight that
names it goes on without it (R131). -/
def release (p : Plant) (j : JIdx) (n : EntryNo) : Plant :=
  if n ∈ p.jn[j].chain then
    let p := p.upd j fun J =>
      { J with
        chain := J.chain.erase n
        order := J.order.map fun o => if o.entry = n then { o with live := false } else o }
    { (p.updEnt n fun _ => Entry.clear) with free := p.free ++ [n] }
  else p

/-- R28: retire. -/
def retire (p : Plant) (j : JIdx) (n : EntryNo) (out : Option EntryOutcome) : Plant :=
  let p := p.stopGapOf j n
  let p := match out with
    | none => p
    | some o => p.noteOutcome j n o
  p.release j n

/-- R29, R30: draws the entry at the head of the free list and places it at a position of a chain, with the given fields. -/
def place (p : Plant) (j : JIdx) (pos : Nat) (x : Entry) : Plant × Option EntryNo :=
  match p.free with
  | [] => (p, none)
  | n :: rest =>
    (({ p with free := rest }.updEnt n fun _ => x).upd j fun J =>
      { J with chain := J.chain.take pos ++ n :: J.chain.drop pos }, some n)

/-- R58, R64: an entry at the top ends with an outcome: a RECURRING entry is rotated, a ONCE entry retired. A resume allowance
is not used again (R128). -/
def endTop (p : Plant) (j : JIdx) (out : EntryOutcome) : Plant :=
  match p.top? j with
  | none => p
  | some n =>
    let p := match p.pool[n].kind with
      | .recurring => p.rotateTop j (some out)
      | .once => p.retire j n (some out)
    p.upd j fun J => { J with allowance := none, resuming := none }

end Plant

/-! ## Requests -/

/-- The key of a record (R92). -/
def Request.key (r : Request) : Key := { junction := r.junction, source := r.source, id := r.id }

/-- Whether a record is ACTIVE. -/
def Request.isActive (r : Request) : Bool :=
  match r.state with
  | .active _ => true
  | .pending => false

end Sys2Proof.Machine
end

