-- ==== Sys2Proof/Machine/Operands.lean ====
section
/-! DEFINITION. The encodings of values in bodies (R199, R200): what the part writes, and how it reads a directive's fields. -/

namespace Sys2Proof.Machine

open Sys2Proof

/-! ## Written fields (R199) -/

/-- A 2-byte unsigned field. -/
def be2 (n : Nat) : List Byte := [byte (n / 256), byte n]

/-- A 3-byte unsigned field. -/
def be3 (n : Nat) : List Byte := [byte (n / 65536), byte (n / 256), byte n]

/-- A time in tenths; FFFFh is absent. -/
def tenths (t : Option Nat) : List Byte := be2 (t.getD 0xFFFF)

/-- A time of day; FFFFFFh is UNSET or absent. -/
def todBytes (t : Option Nat) : List Byte := be3 (t.getD 0xFFFFFF)

/-- A band start error; 8000h is absent. -/
def errorBytes : Option Int → List Byte
  | none => [0x80, 0x00]
  | some i => be16 (BitVec.ofInt 16 i)

/-- A flag or mark. -/
def flagByte (b : Bool) : Byte := if b then 1 else 0

/-- An absent 1-byte index is FFh. -/
def optByte (n : Option Nat) : Byte := byte (n.getD 0xFF)

/-- A stage, 0 for none. -/
def stageByte (s : Option Stage) : Byte := byte ((s.map Stage.num).getD 0)

/-- Bits from the least significant up. -/
def bitsNat (bs : List Bool) : Nat := bs.foldr (fun b acc => b.toNat + 2 * acc) 0

/-- The running mask in 2 bytes: bits 0 to 11 the junction queues, bit 12 the master queue. -/
def maskBytes (m : Vector Bool 13) : List Byte := be2 (bitsNat m.toList)

/-- Time left to a due time. -/
def left (now due : Nat) : Nat := due - now

/-- Corridor state code. -/
def CorridorState.code : CorridorState → Byte
  | .dark => 1
  | .ready => 2
  | .coordinating => 3

/-- Start cause code. -/
def StartCause.code : StartCause → Byte
  | .cold => 1
  | .warm => 2

/-- Direction code. -/
def Direction.code : Direction → Byte
  | .inbound => 1
  | .outbound => 2

/-- Junction state code. -/
def JState.code : JState → Byte
  | .absent => 0
  | .loc _ => 1
  | .joining => 2
  | .inStep => 3
  | .solo _ => 4

/-- Cause code. -/
def JState.causeCode : JState → Byte
  | .absent => 0
  | .joining => 0
  | .inStep => 0
  | .loc .notRunning => 1
  | .loc .manual => 2
  | .loc .noBand => 3
  | .solo .link => 4
  | .solo .unit => 5
  | .solo .stall => 6
  | .solo .plan => 7

/-- Substate code. -/
def Substate.code : Substate → Byte
  | .none => 0
  | .changing => 1
  | .serving => 2
  | .dwell => 3

/-- Role code. -/
def Role.code : Role → Byte
  | .band => 1
  | .side => 2

/-- Kind code. -/
def EntryKind.code : EntryKind → Byte
  | .recurring => 1
  | .once => 2

/-- Origin code. -/
def Origin.code : Origin → Byte
  | .host => 1
  | .service => 2

/-- Demand code. -/
def Demand.code : Demand → Byte
  | .recall => 1
  | .call => 2

/-- Entry status code. -/
def EntryStatus.code : EntryStatus → Byte
  | .waiting => 1
  | .serving => 2
  | .stalled => 3

/-- Entry outcome code. -/
def EntryOutcome.code : EntryOutcome → Byte
  | .none => 0
  | .served => 1
  | .gapped => 2
  | .forced => 3
  | .passed => 4
  | .cut => 5

/-- Entry error code. -/
def EntryError.code : EntryError → Byte
  | .none => 0
  | .confirmTimeout => 1
  | .wrongStage => 2
  | .lampFault => 3

/-- Detector function code. -/
def DetFn.code : DetFn → Byte
  | .none => 0
  | .call _ => 1
  | .extend _ => 2
  | .callExtend _ => 3
  | .exitIn => 4
  | .exitOut => 5

/-- Source kind code. -/
def SourceKind.code : SourceKind → Byte
  | .unit => 1
  | .central => 2
  | .guard => 3

/-- Action code. -/
def Action.code : Action → Byte
  | .extend => 1
  | .insert => 2

/-- Request state code: 1 PENDING, 2 ACTIVE. -/
def reqStateCode (active : Bool) : Byte := if active then 2 else 1

/-- Request outcome code. -/
def ReqOutcome.code : ReqOutcome → Byte
  | .served => 1
  | .cancelled => 2
  | .expired => 3
  | .displaced => 4
  | .abandoned => 5

/-- Probe state code. -/
def Probe.code : Probe → Byte
  | .off => 0
  | .armed _ => 1
  | .measuring _ _ _ => 2
  | .done => 3
  | .spilled => 4

/-- Unit mode code; 0 is none. -/
def modeCode : Option UnitMode → Byte
  | none => 0
  | some .coordReady => 1
  | some .localManual => 2
  | some .fault => 3

/-- Refusal reason code. -/
def Reason.code : Reason → Byte
  | .form => 1
  | .range => 2
  | .state => 3
  | .noSuch => 4
  | .noRoom => 5
  | .inUse => 6
  | .band => 7
  | .infeasible => 8
  | .unknown => 9

/-- Reason code of a DETECTOR CLEARED notice (R202). -/
def ClearReason.code : ClearReason → Byte
  | .unoccupied => 1
  | .map => 2
  | .limit => 3

/-- Gate outcome code (section 11.4). -/
def GateOutcome.code : GateOutcome → Byte
  | .gated => 1
  | .idle => 2
  | .suppressed => 3

/-- Flush disposition code (section 11.4). -/
def FlushDisposition.code : FlushDisposition → Byte
  | .posted _ _ => 1
  | .dropped => 2
  | .flushNone => 3

/-- Downstream junction and slot of a POSTED flush, each FFh otherwise. -/
def FlushDisposition.place : FlushDisposition → List Byte
  | .posted j k => [byte j.val, byte k.val]
  | .dropped => [0xFF, 0xFF]
  | .flushNone => [0xFF, 0xFF]

/-- The probe byte of the cycle record form. -/
def ProbeResult.byte : ProbeResult → Byte
  | .absent => 0
  | .done _ => 0x40
  | .spilled g f => 0x80#8 ||| (g.code <<< 4) ||| (f.code <<< 2)

/-- The occupancy of a DONE result, 0 otherwise. -/
def ProbeResult.occupancy : ProbeResult → Nat
  | .done n => n
  | .absent => 0
  | .spilled _ _ => 0

/-- A gap timer in 3 bytes: state code, then the time left, FFFFh unless RUNNING. -/
def gapBytes (now : Nat) : GapTimer → List Byte
  | .stopped => 0 :: tenths none
  | .running due => 1 :: tenths (some (left now due))
  | .expired => 2 :: tenths none

/-- A key in 3 bytes: junction, source kind, source id. -/
def Key.bytes (k : Key) : List Byte := [byte k.junction.val, k.source.code, byte k.id]

/-! ## Read fields (R199, R200) -/

/-- A flag byte; another value than 0 or 1 is a code not defined. -/
def flag? : Nat → Option Bool
  | 0 => some false
  | 1 => some true
  | _ => none

/-- A direction. -/
def direction? : Nat → Option Direction
  | 1 => some .inbound
  | 2 => some .outbound
  | _ => none

/-- A role. -/
def role? : Nat → Option Role
  | 1 => some .band
  | 2 => some .side
  | _ => none

/-- A kind. -/
def kind? : Nat → Option EntryKind
  | 1 => some .recurring
  | 2 => some .once
  | _ => none

/-- A demand. -/
def demand? : Nat → Option Demand
  | 1 => some .recall
  | 2 => some .call
  | _ => none

/-- A source kind. -/
def source? : Nat → Option SourceKind
  | 1 => some .unit
  | 2 => some .central
  | 3 => some .guard
  | _ => none

/-- A 2-byte unsigned field. -/
def nat2 (a b : Nat) : Nat := 256 * a + b

/-- A 3-byte unsigned field. -/
def nat3 (a b c : Nat) : Nat := 65536 * a + 256 * b + c

/-- A signed byte in two's complement. -/
def signedByte (n : Nat) : Int := (byte n).toInt

/-- Whether a value lies within a range. -/
def within (lo hi n : Nat) : Bool := decide (lo ≤ n) && decide (n ≤ hi)

/-- The bytes of a body as numbers. -/
def bodyNats (b : List Byte) : List Nat := b.map BitVec.toNat

end Sys2Proof.Machine
end

