-- ==== Sys2Proof/Machine/Flags.lean ====
section
/-! DEFINITION. The notice table: the marks of the eight classes and what becomes of a notice offered to it (R189 to R191), and
the notice bodies (R202). -/

namespace Sys2Proof.Machine

open Sys2Proof

/-! ## Classes and bodies (R202) -/

namespace NoticeClass

/-- The classes in the order of the class table. -/
def all : List NoticeClass := [.corridor, .junction, .entry, .detector, .priority, .spill, .script, .records]

/-- The bit of a class in a class set (R200). -/
def bit : NoticeClass → Nat
  | .corridor => 0
  | .junction => 1
  | .entry => 2
  | .detector => 3
  | .priority => 4
  | .spill => 5
  | .script => 6
  | .records => 7

/-- The set of one class. -/
def mask (c : NoticeClass) : BitVec 8 := 1#8 <<< c.bit

/-- The class number in a notice's code byte (R202). -/
def code (c : NoticeClass) : Byte := byte (c.bit + 1)

end NoticeClass

namespace Notice

/-- The class of a notice (section 10.4). -/
def cls : Notice → NoticeClass
  | .corridorState _ => .corridor
  | .stagedApplied _ => .corridor
  | .stagedDiscarded _ _ => .corridor
  | .junctionState _ _ _ => .junction
  | .junctionStagedDiscarded _ _ => .junction
  | .linkUp _ _ => .junction
  | .linkDown _ _ => .junction
  | .completions _ _ _ => .entry
  | .stuck _ _ _ => .detector
  | .cleared _ _ _ => .detector
  | .accepted _ _ _ _ _ _ => .priority
  | .ended _ _ _ _ _ _ => .priority
  | .tableFull _ _ => .priority
  | .badRecord _ _ => .priority
  | .spill _ _ _ _ _ => .spill
  | .started _ _ _ => .script
  | .finished _ => .script
  | .scriptFault _ _ _ _ => .script
  | .scriptAbandoned _ => .script
  | .recordCount _ => .records

/-- The body of a notice (R202): the kind, then its data. -/
def body : Notice → List Byte
  | .corridorState c => [1, c.code]
  | .stagedApplied v => [2, byte v.c, v.dir.code, byte v.wait]
  | .stagedDiscarded r j => [3, r.code, byte j.val]
  | .junctionState j st stalled =>
    [1, byte j.val, st.code, st.causeCode, optByte (stalled.map fun x => x.1.val),
      match stalled with
      | some x => x.2.code
      | none => 0]
  | .junctionStagedDiscarded j r => [2, byte j.val, r.code]
  | .linkUp j mode => [3, byte j.val, modeCode (some mode)]
  | .linkDown j tod => [4, byte j.val] ++ todBytes tod
  | .completions j overflow items =>
    [1, byte j.val, flagByte overflow, byte items.length] ++
      items.flatMap fun i => [byte i.entry.val, byte i.stage.num, i.outcome.code]
  | .stuck j d fn => [1, byte j.val, byte d.val, fn.code, stageByte (match fn with
      | .call s => some s
      | .extend s => some s
      | .callExtend s => some s
      | _ => none)]
  | .cleared j d r => [2, byte j.val, byte d.val, r.code]
  | .accepted slot key level action stage displaced =>
    [1, byte slot.val] ++ key.bytes ++ [byte level, action.code, byte stage.num, flagByte displaced.isSome] ++
      match displaced with
      | some k => k.bytes
      | none => [0, 0, 0]
  | .ended slot key level action wasActive outcome =>
    [2, byte slot.val] ++ key.bytes ++ [byte level, action.code, reqStateCode wasActive, outcome.code]
  | .tableFull key level => [3] ++ key.bytes ++ [byte level]
  | .badRecord j id => [4, byte j.val, byte id]
  | .spill j d threshold gate flush => [1, byte j.val, byte d.val] ++ be2 threshold ++ [gate.code, flush.code] ++ flush.place
  | .started notBefore tod waiting => [1] ++ todBytes notBefore ++ todBytes tod ++ [byte waiting]
  | .finished tod => [2] ++ todBytes tod
  | .scriptFault q place r j => [3, byte q.val, byte place, r.code, optByte (j.map fun x => x.val)]
  | .scriptAbandoned mask => [4] ++ maskBytes mask
  | .recordCount n => [1, byte n]

end Notice

/-- The frame of a notice (R202: tag 0, the class number as code). -/
def noticeFrame (n : Notice) : OutFrame := { kind := .notice, tag := 0, code := n.cls.code, body := n.body }

/-- The CATCH-UP of a class (R191, R202). -/
def catchUpFrame (c : NoticeClass) : OutFrame := { kind := .notice, tag := 0, code := c.code, body := [0] }

/-! ## The outgoing queue's room (R187, R190) -/

/-- Frames in the outgoing queue, the one leaving among them. -/
def HostPort.frames (h : HostPort) : Nat := h.queue.length + (if h.leaving.isSome then 1 else 0)

/-- Fewer than 16 frames, counting the places reserved for an answer. -/
def HostPort.room (h : HostPort) (reserved : Nat) : Bool := decide (h.frames + reserved < Config.outgoing)

/-- A frame joins the outgoing queue. -/
def HostPort.enqueue (h : HostPort) (f : OutFrame) : HostPort := { h with queue := h.queue ++ [f] }

/-! ## Marks (R189) -/

/-- Whether a class is in a set. -/
def hasClass (m : BitVec 8) (c : NoticeClass) : Bool := m &&& c.mask != 0#8

/-- The marks of every class in 3 bytes (R199). -/
def ReportBlock.marks (r : ReportBlock) : List Byte := [r.armed, r.paused, r.pend]

/-- A class whose CATCH-UP may be delivered: ARMED, not PAUSED and PENDING. -/
def ReportBlock.catchable (r : ReportBlock) (c : NoticeClass) : Bool :=
  hasClass r.armed c && !hasClass r.paused c && hasClass r.pend c

/-! ## Offering (R190) -/

/-- R190: a notice is offered to the notice table for its class. -/
def State.offer (reserved : Nat) (s : State) (n : Notice) : State :=
  if hasClass s.report.armed n.cls then
    if !hasClass s.report.paused n.cls && s.host.room reserved then { s with host := s.host.enqueue (noticeFrame n) }
    else { s with report := { s.report with pend := s.report.pend ||| n.cls.mask } }
  else s

/-- R190: the notices of the command, one by one in the order they were raised. -/
def State.offerAll (reserved : Nat) (s : State) : State :=
  s.plant.raised.foldl (State.offer reserved) { s with plant := { s.plant with raised := [] } }

/-- R191: the CATCH-UP of a class is queued and its PENDING mark clears. -/
def State.catchUp (s : State) (c : NoticeClass) : State :=
  { s with
    host := s.host.enqueue (catchUpFrame c)
    report := { s.report with pend := s.report.pend &&& ~~~c.mask } }

/-- R191: every ARMED, unpaused, PENDING class has its CATCH-UP queued, in the order of the class table. -/
def State.catchUpAll (s : State) : State :=
  NoticeClass.all.foldl (fun s c => if s.report.catchable c then s.catchUp c else s) s

/-! ## The transmit line (R187) -/

/-- R187: an idle line takes the oldest answer, else the oldest notice. None is chosen once the RESTART answer has left (R188). -/
def HostPort.pick (h : HostPort) : HostPort :=
  match h.leaving, h.restart with
  | some _, _ => h
  | none, .answerLeft => h
  | none, _ =>
    match h.queue.find? fun f => f.kind == .answer with
    | some f => { h with leaving := some f, queue := h.queue.eraseP fun g => g.kind == .answer }
    | none =>
      match h.queue with
      | [] => h
      | f :: rest => { h with leaving := some f, queue := rest }

/-- R185: one place has come free in a full queue and an item waits in the intake, so that the item is taken before the next frame
is chosen, as in the worked burst of section 10.7. -/
def HostPort.itemFirst (h : HostPort) : Bool :=
  h.restart == .none && !h.intake.isEmpty && decide (h.frames + 1 = Config.outgoing)

/-- R187: the next frame is chosen, unless an item is taken first; the item's own command then chooses (assumption log 78). -/
def HostPort.choose (h : HostPort) : HostPort := if h.itemFirst then h else h.pick

/-- The end of a command: its notices are offered, and an idle line takes its next frame. -/
def State.finish (s : State) : State :=
  let s := s.offerAll 0
  { s with host := s.host.choose }

end Sys2Proof.Machine
end

