-- ==== Sys2Proof/Machine/Detectors.lean ====
section
/-! DEFINITION. The detector unit (chapter 4): call flags, gap timers, stuck timers and maps. The edges of exit detectors are
handed to the guard by the report path. -/

namespace Sys2Proof.Machine

open Sys2Proof

/-- The stage a function carries (R76). -/
def DetFn.stage? : DetFn → Option Stage
  | .none => Option.none
  | .call s => some s
  | .extend s => some s
  | .callExtend s => some s
  | .exitIn => Option.none
  | .exitOut => Option.none

/-- A function that is stuck-timed: every function but NONE (R76, R86). -/
def DetFn.timed (f : DetFn) : Bool := f != .none

/-- The stage a function calls (R80). -/
def DetFn.calls? : DetFn → Option Stage
  | .call s => some s
  | .callExtend s => some s
  | _ => Option.none

/-- The stage a function extends (R80). -/
def DetFn.extends? : DetFn → Option Stage
  | .extend s => some s
  | .callExtend s => some s
  | _ => Option.none

/-- An exit function (R76). -/
def DetFn.isExit : DetFn → Bool
  | .exitIn => true
  | .exitOut => true
  | _ => false

namespace Detectors

/-- R87: the hold count of a stage, the number of STUCK detectors holding it. -/
def holdCount (d : Detectors) (s : Stage) : Nat :=
  (List.finRange 24).countP fun i => d.stuck[i] && d.map[i].stage? == some s

/-- Sets the call flags of a list of stages (R83). -/
def setFlags (d : Detectors) (ss : List Stage) : Detectors :=
  { d with flags := ss.foldl (fun f (s : Stage) => f.set s true) d.flags }

/-- R83, R85: all flags cleared and all gap timers stopped, on leaving coordination (R71). -/
def leave (d : Detectors) : Detectors :=
  { d with flags := Vector.replicate 8 false, gap := Vector.replicate 8 .stopped }

/-- R83: a confirmation clears the stage's flag unless its hold count is above 0. -/
def confirmStage (d : Detectors) (s : Stage) : Detectors :=
  if 0 < d.holdCount s then d else { d with flags := d.flags.set s false }

/-- The stages whose hold count is above 0. -/
def heldStages (d : Detectors) : List Stage := (List.finRange 8).filter fun s => decide (0 < d.holdCount s)

/-- R79, R172: the line goes DOWN: the rows are no longer valid and every stuck timer stops. -/
def lineDown (d : Detectors) : Detectors := { d with rowsValid := false, timers := Vector.replicate 24 none }

end Detectors

namespace Plant

/-- Changes a junction's detector state. -/
def updDet (p : Plant) (j : JIdx) (f : Detectors → Detectors) : Plant := p.upd j fun J => { J with det := f J.det }

/-- R86, R87: a detector becomes STUCK: the mark, the notice, and, in coordination, the held stage's call flag. -/
def becomeStuck (p : Plant) (j : JIdx) (d : DetIdx) : Plant :=
  let fn := p.jn[j].det.map[d]
  let p := p.updDet j fun D => { D with stuck := D.stuck.set d true }
  let p := if p.jn[j].state.coordinated then p.updDet j fun D => D.setFlags fn.stage?.toList else p
  p.raise (.stuck j d fn)

/-- The detector is to become STUCK now (R86): RUNNING, not STUCK, and its occupancy has reached a limit that is not 0. -/
def stuckDue (e : Env) (p : Plant) (j : JIdx) (d : DetIdx) : Bool :=
  let J := p.jn[j]
  J.state.present && !J.det.stuck[d] && decide (J.plan.stuck ≠ 0) &&
    match J.det.timers[d] with
    | some onset => decide (onset + 10 * J.plan.stuck ≤ e.now)
    | none => false

/-- R87: a detector ceases to be STUCK, with its CLEARED notice. A flag whose count falls to 0 keeps its value. -/
def ceaseStuck (p : Plant) (j : JIdx) (r : ClearReason) (d : DetIdx) : Plant :=
  if p.jn[j].det.stuck[d] then
    (p.updDet j fun D => { D with stuck := D.stuck.set d false }).raise (.cleared j d r)
  else p

/-- R88: a stuck limit just applied is compared with the timers; a limit of 0 ends every STUCK. The notices stand in ascending detector
number (assumption log 55). -/
def applyStuckLimit (e : Env) (p : Plant) (j : JIdx) : Plant :=
  if p.jn[j].plan.stuck = 0 then (List.finRange 24).foldl (fun p d => p.ceaseStuck j .limit d) p
  else (List.finRange 24).foldl (fun p d => if p.stuckDue e j d then p.becomeStuck j d else p) p

/-- R78 for one detector: its stuck timer and STUCK mark under its new function. The timer of a detector that becomes timed
starts only while the previous rows are valid (R79: every timer is STOPPED while the line is DOWN). -/
def remapOne (e : Env) (j : JIdx) (old : Vector DetFn 24) (p : Plant) (d : DetIdx) : Plant :=
  let D := p.jn[j].det
  match old[d].timed, D.map[d].timed with
  | false, true =>
    if D.rowsValid && D.rows[d] then p.updDet j fun D => { D with timers := D.timers.set d (some e.now) } else p
  | true, false =>
    (p.updDet j fun D => { D with timers := D.timers.set d none }).ceaseStuck j .map d
  | _, _ => p

/-- R78, R146: a map is applied. A probe that watches a detector whose function changes goes OFF; a stage whose hold count
rises from 0 is called at once in coordination (R87). The notices stand in ascending detector number (assumption log 55). -/
def applyMap (e : Env) (p : Plant) (j : JIdx) (map : Vector DetFn 24) : Plant :=
  let old := p.jn[j].det.map
  let held := p.jn[j].det.heldStages
  let p := p.updDet j fun D => { D with map := map, stagedMap := none }
  let p := (List.finRange 24).foldl (remapOne e j old) p
  let p :=
    if p.jn[j].state.coordinated then
      p.updDet j fun D => D.setFlags (D.heldStages.filter fun s => !held.contains s)
    else p
  p.upd j fun J =>
    let off := { J with guard := { J.guard with probe := .off } }
    match J.guard.probe with
    | .armed w => if old[w] = map[w] then J else off
    | .measuring w _ _ => if old[w] = map[w] then J else off
    | .off | .done | .spilled => J

/-- R52, R83, R85: a confirmation of a stage reaches the detector unit. The gap timer starts, from the arrival of the report, if the top is a CALL host entry
with status SERVING. -/
def detectorConfirm (e : Env) (p : Plant) (j : JIdx) (s : Stage) : Plant :=
  let p := p.updDet j fun D => D.confirmStage s
  match p.topEntry? j with
  | some x =>
    if x.demand = .call ∧ x.origin = .host ∧ x.status = .serving then
      p.updDet j fun D => { D with gap := D.gap.set s (.running (e.arrived + x.passage)) }
    else p
  | none => p

/-- R84: a level-0 call for a stage, treated as a rising edge on a CALL detector of it. -/
def levelZeroCall (p : Plant) (j : JIdx) (s : Stage) : Plant :=
  if p.jn[j].state.coordinated ∧ p.jn[j].green ≠ some s then p.updDet j fun D => D.setFlags [s] else p

/-- R79, rows-valid mark clear: the rows are set without edges. The notices stand in ascending detector number (assumption log 55). -/
def firstRows (e : Env) (p : Plant) (j : JIdx) (rows : Vector Bool 24) : Plant :=
  let p := (List.finRange 24).foldl (fun p d => if rows[d] then p else p.ceaseStuck j .unoccupied d) p
  p.updDet j fun D =>
    { D with
      rows := rows, rowsValid := true
      timers := Vector.ofFn fun d : Fin 24 => if rows[d] && D.map[d].timed then some e.arrived else D.timers[d] }

/-- The detectors with a rising edge (R79). -/
def risingEdges (D : Detectors) (rows : Vector Bool 24) : List DetIdx :=
  (List.finRange 24).filter fun d => !D.rows[d] && rows[d]

/-- The detectors with a falling edge (R79). -/
def fallingEdges (D : Detectors) (rows : Vector Bool 24) : List DetIdx :=
  (List.finRange 24).filter fun d => D.rows[d] && !rows[d]

/-- R80: the stages called by rising edges: those carried by CALL and CALL_EXTEND detectors, but for the green stage and for a stage
that the sequencer has confirmed from the same report before (R82). -/
def calledStages (J : Junction) (confirmed : Option Stage) (rising : List DetIdx) : List Stage :=
  (rising.filterMap fun d => J.det.map[d].calls?).filter fun s => J.green != some s && confirmed != some s

/-- R80, R85: an extension edge of the stage of a CALL host top that is SERVING restarts a timer that is not STOPPED. -/
def extendGap (e : Env) (p : Plant) (j : JIdx) (rising : List DetIdx) : Plant :=
  match p.topEntry? j with
  | some x =>
    if x.demand = .call ∧ x.origin = .host ∧ x.status = .serving ∧ p.jn[j].det.gap[x.stage] ≠ .stopped ∧
        (rising.any fun d => p.jn[j].det.map[d].extends? == some x.stage) then
      p.updDet j fun D => { D with gap := D.gap.set x.stage (.running (e.arrived + x.passage)) }
    else p
  | none => p

/-- R80, R81: the edges of a report act on calls, the gap timer and the stuck timers, and the rows become the previous rows.
`confirmed` is the stage that the sequencer has confirmed from the report before (R82). The notices stand in ascending detector number
(assumption log 55). -/
def rowEdges (e : Env) (p : Plant) (j : JIdx) (confirmed : Option Stage) (rows : Vector Bool 24) : Plant :=
  let D := p.jn[j].det
  let rising := risingEdges D rows
  let falling := fallingEdges D rows
  let p :=
    if p.jn[j].state.coordinated then
      (p.updDet j fun D => D.setFlags (calledStages p.jn[j] confirmed rising)).extendGap e j rising
    else p
  let p := falling.foldl (fun p d => p.ceaseStuck j .unoccupied d) p
  p.updDet j fun D =>
    { D with
      rows := rows
      timers := Vector.ofFn fun d : Fin 24 =>
        if falling.contains d then none
        else if rising.contains d && D.map[d].timed then some e.arrived
        else D.timers[d] }

end Plant

end Sys2Proof.Machine
end

