-- ==== Sys2Proof/Machine/Geometry.lean ====
section
/-! DEFINITION. The local cycle, its band points and the feasibility sum (sections 1.5 and 1.6). -/

namespace Sys2Proof.Machine

open Sys2Proof

/-- The nominal local cycle length L in tenths (R11): C divided by the cycle multiple. -/
def cycleTenths (c mult : Nat) : Nat := 10 * c / mult

/-- The regular local position (m - 10 × offset) mod 10L (R11). -/
def regularPos (m offset len : Nat) : Nat := (m + (len - 10 * offset % len)) % len

/-- The span a realignment sets (R15): the cycle in progress ends at the first moment from now on at which the regular
position is 0 and the cycle is at least half of L long. -/
def realignedSpan (m offset len p : Nat) : Nat :=
  let toZero := (len - regularPos m offset len) % len
  if len ≤ 2 * (p + toZero) then p + toZero else p + toZero + len

/-- The signed band start error of a confirmation at p (R13). -/
def bandStartError (p span : Nat) : Int := if 2 * p < span then (p : Int) else (p : Int) - span

/-- A junction's local cycle as it is set when made present or by a warm start (R11, R21). -/
def Junction.beginCycle (J : Junction) (c m : Nat) : Junction :=
  let len := cycleTenths c J.plan.mult
  { J with p := regularPos m J.plan.offset len, span := len }

/-- R15: the span of the cycle in progress is set anew; p is not changed. -/
def Junction.realign (J : Junction) (c m : Nat) : Junction :=
  { J with span := realignedSpan m J.plan.offset (cycleTenths c J.plan.mult) J.p }

/-- The band call point is at or behind p: p ≥ span - 10A (R12). -/
def Junction.callDue (J : Junction) : Bool := decide (J.span ≤ J.p + 10 * J.plan.a)

/-- The band split counted by R16: 0 when the chain holds no BAND entry. -/
def bandSplit (es : List Entry) : Nat :=
  match es.find? fun x => x.role == .band with
  | some x => x.split
  | none => 0

/-- An entry that counts in the feasibility sum (R16). -/
def countsInSum (x : Entry) : Bool :=
  x.origin == .host && x.kind == .recurring && x.role == .side && x.demand == .recall

/-- The feasibility sum of R16 over the entries of a chain, in seconds. -/
def feasibilitySum (es : List Entry) (a : Nat) : Nat :=
  bandSplit es + ((es.filter countsInSum).map fun x => a + x.minimum).sum + a

/-- R16: the sum does not exceed L = C / multiple. -/
def feasible (es : List Entry) (a c mult : Nat) : Bool := decide (feasibilitySum es a * mult ≤ c)

namespace Plant

/-- R16 for a junction with the values in force and a given C. -/
def planFeasible (p : Plant) (j : JIdx) (c : Nat) : Bool :=
  feasible (p.chainEntries j) p.jn[j].plan.a c p.jn[j].plan.mult

/-- The R12 position of the band end point, absent without a BAND entry. -/
def bandEndPos (p : Plant) (j : JIdx) : Option Nat := (p.bandEntry? j).map fun x => 10 * x.split

/-- The band end point of the cycle in progress is reached and has not been before: the position to which the guard has moved
it (R143), or that of R12 unless it falls after the band call point (R12, R60). A point that a change outside coordination brings at or
behind p is due too, which R12 leaves open (assumption log 52). -/
def bandEndDue (p : Plant) (j : JIdx) : Bool :=
  let J := p.jn[j]
  !J.endDone &&
    match J.moved with
    | some q => decide (q ≤ J.p)
    | none =>
      match p.bandEndPos j with
      | some q => decide (q ≤ J.p) && decide (q + 10 * J.plan.a ≤ J.span)
      | none => false

/-- The first present junction, in ascending order, that fails a test (R8, R158). -/
def firstFailing (p : Plant) (fails : JIdx → Bool) : Option JIdx :=
  (List.finRange 12).find? fun j => p.jn[j].state.present && fails j

end Plant

end Sys2Proof.Machine
end

