-- ==== Sys2Proof/Machine/Guard.lean ====
section
/-! DEFINITION. The spillback guard's own state (chapter 7): settings, arming, edges and results. The spill itself, which
reaches the sequencer and the arbiter, is in Machine/Arbiter.lean. -/

namespace Sys2Proof.Machine

open Sys2Proof

/-- The exit function the guard watches in a band direction (R9). -/
def exitFn : Direction → DetFn
  | .inbound => .exitIn
  | .outbound => .exitOut

/-- The detector mapped as the exit detector of a direction. -/
def exitDetector (D : Detectors) (d : Direction) : Option DetIdx := (List.finRange 24).find? fun i => D.map[i] == exitFn d

/-- The downstream neighbour (R9): junction 11 has none inbound and junction 0 has none outbound. -/
def downstream : Direction → JIdx → Option JIdx
  | .inbound, j => idx? 12 (j.val + 1)
  | .outbound, j => if j.val = 0 then none else idx? 12 (j.val - 1)

/-- ARMED or MEASURING. -/
def Probe.active : Probe → Bool
  | .armed _ => true
  | .measuring _ _ _ => true
  | .off => false
  | .done => false
  | .spilled => false

/-- R145: a concluded result is written into the tally; a DONE does not replace a SPILLED. -/
def Tally.noteProbe (t : Tally) (r : ProbeResult) : Tally :=
  match t.probe, r with
  | .spilled _ _, .done _ => t
  | _, r => { t with probe := r }

namespace Junction

/-- R146: a probe in ARMED or MEASURING goes to OFF. -/
def probeOff (J : Junction) : Junction :=
  if J.guard.probe.active then { J with guard := { J.guard with probe := .off } } else J

/-- R140: what a band confirmation does to the probe. -/
def armProbe (J : Junction) (dir : Direction) : Junction :=
  if J.guard.probe.active then J
  else
    let probe :=
      if J.guard.settings.enable then
        match exitDetector J.det dir with
        | some w => Probe.armed w
        | none => .off
      else .off
    { J with guard := { J.guard with probe := probe } }

/-- R138, R139: settings take effect; disabling turns an ARMED or MEASURING probe OFF. -/
def applySettings (J : Junction) (g : GuardSettings) : Junction :=
  let off := J.guard.settings.enable && !g.enable
  let J := { J with guard := { J.guard with settings := g, staged := none } }
  if off then J.probeOff else J

/-- R145: writes a concluded result to the guard and the tally. -/
def conclude (J : Junction) (probe : Probe) (r : ProbeResult) : Junction :=
  { J with guard := { J.guard with probe := probe, result := r }, tally := J.tally.noteProbe r }

/-- R141: the exit edges of a report. `mayStart` is false for the report that armed the probe, and true for every report taken after the
arming, whenever it arrived (assumption log 85). -/
def exitEdges (J : Junction) (now : Nat) (rising falling : List DetIdx) (mayStart : Bool) : Junction :=
  match J.guard.probe with
  | .armed w =>
    if mayStart && rising.contains w then
      { J with guard := { J.guard with probe := .measuring w now (now + 10 * J.guard.settings.threshold) } }
    else J
  | .measuring w start _ => if falling.contains w then J.conclude .done (.done (now - start)) else J
  | .off => J
  | .done => J
  | .spilled => J

end Junction

/-- R9: a change of direction turns every ARMED or MEASURING probe OFF. -/
def Plant.directionChanged (p : Plant) : Plant := { p with jn := p.jn.map Junction.probeOff }

end Sys2Proof.Machine
end

