-- ==== Sys2Proof/Machine/Lines.lean ====
section
/-! DEFINITION. The sending side of a corridor line controller (section 9.5). -/

namespace Sys2Proof.Machine

open Sys2Proof

/-- R175: a frame decided on an UP line leaves at once if the line is idle, else takes the waiting place; a KEEP never replaces
a waiting ORDER. Nothing is sent on a DOWN line (R172). -/
def Line.decide (l : Line) (f : LineFrame) : Line :=
  if l.up then
    match l.leaving, l.waiting, f with
    | none, _, f => { l with leaving := some f }
    | some _, some (.order _ _), .keep _ _ => l
    | some _, _, f => { l with waiting := some f }
  else l

/-- The moment from which the 500 ms of R177 and R178 count: the later of the last frame time and the line coming UP. -/
def Line.quietSince (l : Line) : Nat := max (l.lastSent.getD 0) (l.upAt.getD 0)

/-- R175: the leaving frame's last byte leaves the pin; the waiting frame begins to leave. -/
def Line.sent (l : Line) (now : Nat) : Line :=
  { l with leaving := l.waiting, waiting := none, lastSent := some now }

/-- The KEEP a coordinated junction's controller sends (R177). -/
def Junction.keepFrame (J : Junction) : LineFrame :=
  match J.order with
  | some o => .keep (some o.stage) o.tag
  | none => .keep J.green J.line.lastTag

/-- R175, R51: the confirm limit counts from the sending of the ORDER: A + 1.0 s after it. -/
def Junction.startDeadline (J : Junction) (now : Nat) : Junction :=
  match J.line.leaving, J.order with
  | some (.order _ tag), some o =>
    if o.tag = tag then { J with order := some { o with deadline := some (now + 10 * J.plan.a + 10) } } else J
  | _, _ => J

namespace Plant

/-- Decides a frame on a junction's line. -/
def decideFrame (p : Plant) (j : JIdx) (f : LineFrame) : Plant :=
  p.upd j fun J => { J with line := J.line.decide f }

/-- R175: CORRIDOR_FRAME_SENT. No frame is sent to an ABSENT junction (R174): a frame still waiting there is dropped. -/
def frameSent (e : Env) (p : Plant) (j : JIdx) : Plant :=
  if p.jn[j].line.leaving.isSome then
    p.upd j fun J => { (J.startDeadline e.now) with line := J.line.sent e.now }
  else p

/-- R177: KEEP_DUE. -/
def keepDue (e : Env) (p : Plant) (j : JIdx) : Plant :=
  let J := p.jn[j]
  if J.state.coordinated && J.line.up && decide (J.line.quietSince + Config.keepInterval ≤ e.now) then
    p.decideFrame j J.keepFrame
  else p

/-- R178: RELEASE_DUE. -/
def releaseDue (e : Env) (p : Plant) (j : JIdx) : Plant :=
  let J := p.jn[j]
  if (J.state.isLocal || J.state.isSolo) && J.line.up && decide (J.line.quietSince + Config.keepInterval ≤ e.now) then
    p.decideFrame j .release
  else p

end Plant

end Sys2Proof.Machine
end

