-- ==== Sys2Proof/Machine/Sequencer.lean ====
section
/-! DEFINITION. The junction sequencer within IN_STEP and JOINING (sections 3.3 to 3.5): orders, confirmations of the top, the
walk, the band points and force-off. -/

namespace Sys2Proof.Machine

open Sys2Proof

/-- An entry's minimum has expired: it is SERVING and its elapsed has reached its minimum (R57). -/
def Entry.minDone (x : Entry) : Bool := x.status == .serving && decide (10 * x.minimum ≤ x.elapsed.getD 0)

namespace Plant

/-! ## Confirmation of the top (R52) -/

/-- R109: the start of service of the request a service entry stands for. -/
def startService (e : Env) (p : Plant) (x : Entry) : Plant :=
  match x.slot with
  | none => p
  | some k =>
    match p.req[k] with
    | none => p
    | some r =>
      match r.state with
      | .pending => p
      | .active a =>
        if a.started then p
        else
          let due := match a.svcEnd with
            | .notStarted => ServiceEnd.due (e.now + 10 * r.time)
            | other => other
          p.setReq k (some { r with state := .active { a with started := true, svcEnd := due } })

/-- R63, R140: a band confirmation gives the band start error and reaches the guard. An early one is carried to the next cycle
(R68). An error that the cycle already has is replaced (assumption log 25), a carried or held one by a late confirmation too (assumption
log 63). -/
def bandConfirm (e : Env) (p : Plant) (j : JIdx) : Plant :=
  p.upd j fun J =>
    let err := some (bandStartError J.p J.span)
    let J := if 2 * J.p < J.span then { J with tally := { J.tally with bandError := err } } else { J with carried := err }
    J.armProbe e.dir

/-- R128: the resume allowance of a resumed host SIDE entry at level 0. -/
def resumeAllowance (J : Junction) (x : Entry) : Option Nat :=
  match J.resuming with
  | some r =>
    if x.origin = .host ∧ x.role = .side ∧ J.level = 0 then some (max (10 * x.split - r.saved) (10 * x.minimum)) else none
  | none => none

/-- R52, R51: the top is confirmed, by report or by take-over: SERVING with elapsed 0, handed to the detector unit, to the
arbiter as a start of service, and to the guard if it is the BAND entry. -/
def serveTop (e : Env) (p : Plant) (j : JIdx) : Plant :=
  match p.top? j with
  | none => p
  | some n =>
    let x := p.pool[n]
    let p := p.updEnt n fun x => { x with status := .serving, elapsed := some 0 }
    let p := p.upd j fun J => { J with allowance := resumeAllowance J x, dwell := false }
    let p := p.detectorConfirm e j x.stage
    let p := p.startService e x
    if x.role = .band then p.bandConfirm e j else p

/-! ## Orders (R51) -/

/-- R51, R176: an ORDER with the next tag is handed to the line controller and stands in flight. -/
def sendOrder (p : Plant) (j : JIdx) (n : EntryNo) : Plant :=
  p.upd j fun J =>
    let stage := p.pool[n].stage
    let tag := J.line.lastTag + 1
    { J with
      line := ({ J.line with lastTag := tag }).decide (.order stage tag)
      order := some { entry := n, live := true, stage := stage, tag := tag, deadline := none }
      green := none
      dwell := false }

/-- R51: the top's stage is made green, by take-over or by an ORDER; nothing is ordered while an order is in flight. -/
def orderTop (e : Env) (p : Plant) (j : JIdx) : Plant :=
  match p.top? j with
  | none => p
  | some n =>
    let J := p.jn[j]
    if J.order.isSome then p
    else if J.state = .inStep ∧ J.green = some p.pool[n].stage then p.serveTop e j
    else p.sendOrder j n

/-! ## The walk (R59) -/

/-- R59: RECALL, or CALL with the call flag of its stage set. -/
def servable (p : Plant) (j : JIdx) (x : Entry) : Bool := x.demand == .recall || p.jn[j].det.flags[x.stage]

/-- Some SIDE entry of the chain is servable (R60, R61). -/
def sideServable (p : Plant) (j : JIdx) : Bool :=
  (p.chainEntries j).any fun x => x.role == .side && p.servable j x

/-- R59, R64: the top is passed: rotated if RECURRING, retired if ONCE, with outcome PASSED. -/
def passTop (p : Plant) (j : JIdx) : Plant :=
  match p.top? j with
  | none => p
  | some n =>
    match p.pool[n].kind with
    | .recurring => p.rotateTop j (some .passed)
    | .once => p.retire j n (some .passed)

/-- R59: the walk from the top; the fuel exceeds the length of a chain (R26). -/
def walk (e : Env) (j : JIdx) : Nat → Plant → Plant
  | 0, p => p
  | k + 1, p =>
    match p.topEntry? j with
    | none => p
    | some x => if x.role = .band ∨ p.servable j x = true then p.orderTop e j else walk e j k (p.passTop j)

/-- R64: every entry ahead of the BAND entry is passed. -/
def passToBand (j : JIdx) : Nat → Plant → Plant
  | 0, p => p
  | k + 1, p =>
    match p.topEntry? j with
    | none => p
    | some x => if x.role = .band then p else passToBand j k (p.passTop j)

/-- Rotates entries ahead of the BAND entry without an outcome (R50). -/
def rotateToBand (j : JIdx) : Nat → Plant → Plant
  | 0, p => p
  | k + 1, p =>
    match p.topEntry? j with
    | none => p
    | some x => if x.role = .band then p else rotateToBand j k (p.rotateTop j none)

/-- Fuel for a pass over a chain of at most 16 entries (R26). -/
def chainFuel : Nat := 17

/-! ## Ends of the top -/

/-- R58, R59: the top ends with an outcome and the chain is walked. -/
def voluntaryEnd (e : Env) (p : Plant) (j : JIdx) (out : EntryOutcome) : Plant := walk e j chainFuel (p.endTop j out)

/-- R64: the top ends FORCED, the entries up to the BAND entry are passed and the BAND stage is ordered. -/
def forceOff (e : Env) (p : Plant) (j : JIdx) : Plant :=
  let p := passToBand j chainFuel (p.endTop j .forced)
  (p.orderTop e j).upd j fun J => { J with force := false }

/-- R60: the band end is taken. -/
def bandEnd (e : Env) (p : Plant) (j : JIdx) : Plant :=
  if p.sideServable j then p.voluntaryEnd e j .served else p.upd j fun J => { J with dwell := true }

/-- R61: a BAND entry in DWELL ends once a SIDE entry is servable. -/
def dwellCheck (e : Env) (p : Plant) (j : JIdx) : Plant :=
  let J := p.jn[j]
  if J.state = .inStep ∧ J.level = 0 ∧ J.dwell = true ∧ p.sideServable j = true then p.voluntaryEnd e j .served else p

/-- The junction is IN_STEP at level 0, where voluntary ends are made (R57), and its top is a host entry. -/
def plainTop? (p : Plant) (j : JIdx) : Option Entry :=
  let J := p.jn[j]
  if J.state = .inStep ∧ J.level = 0 then (p.topEntry? j).filter fun x => x.origin == .host else none

/-- R58, R65: a SIDE top ends with an outcome, or FORCED if the force mark is PENDING. -/
def sideEnd (e : Env) (p : Plant) (j : JIdx) (out : EntryOutcome) : Plant :=
  if p.jn[j].force then p.forceOff e j else p.voluntaryEnd e j out

/-- A SIDE top has been served for its split, and for its minimum, which must expire before any voluntary end and which an amendment can
have raised above the split (R57, R58, R39, assumption log 72); or, resumed, for its resume allowance (R128, assumption log 64). -/
def splitDone (J : Junction) (x : Entry) : Bool :=
  x.role == .side && x.status == .serving &&
    match J.allowance with
    | some a => decide (a ≤ x.elapsed.getD 0)
    | none => x.minDone && decide (10 * x.split ≤ x.elapsed.getD 0)

/-- A CALL SIDE top is to gap out (R58): minimum expired and gap timer EXPIRED. -/
def gapDone (J : Junction) (x : Entry) : Bool :=
  x.role == .side && x.demand == .call && x.minDone && J.det.gap[x.stage] == .expired

/-! ## Timing points of the top -/

/-- R58: the elapsed of a SIDE top that is not resumed reaches its split; before its minimum nothing ends (R57). While a resume allowance stands, the split is not compared, also
not one that a script step or an amendment has just set (R128, R161, assumption logs 60 and 64). -/
def splitExpiry (e : Env) (p : Plant) (j : JIdx) : Plant :=
  match p.plainTop? j with
  | some x => if p.jn[j].allowance.isNone && splitDone p.jn[j] x then p.sideEnd e j .served else p
  | none => p

/-- R128: the elapsed of a resumed SIDE top reaches its resume allowance. The allowance stands as computed, and a minimum raised by an
amendment since is not tested (assumption log 64). -/
def allowanceExpiry (e : Env) (p : Plant) (j : JIdx) : Plant :=
  match p.plainTop? j with
  | some x => if p.jn[j].allowance.isSome && splitDone p.jn[j] x then p.sideEnd e j .served else p
  | none => p

/-- R85, R58: a RUNNING gap timer reaches its due time; the top gaps out if its minimum has expired. -/
def gapExpiry (e : Env) (p : Plant) (j : JIdx) (s : Stage) : Plant :=
  match p.jn[j].det.gap[s] with
  | .running due =>
    if due ≤ e.now then
      let p := p.updDet j fun D => { D with gap := D.gap.set s .expired }
      match p.plainTop? j with
      | some x => if x.stage = s ∧ gapDone p.jn[j] x = true then p.sideEnd e j .gapped else p
      | none => p
    else p
  | .stopped => p
  | .expired => p

/-- R60: with the end-passed mark set, the band ends if the BAND entry is SERVING as the top past its minimum at level 0. -/
def takeBandEnd (e : Env) (p : Plant) (j : JIdx) : Plant :=
  match p.plainTop? j with
  | some x => if x.role = .band ∧ x.minDone = true ∧ p.jn[j].endPassed = true then p.bandEnd e j else p
  | none => p

/-- R60: BAND_END_POINT. -/
def bandEndPoint (e : Env) (p : Plant) (j : JIdx) : Plant :=
  if p.jn[j].state.present && p.bandEndDue j then
    (p.upd j fun J => { J with endDone := true, endPassed := true }).takeBandEnd e j
  else p

/-- R57, R58, R60, R65, R143: the minimum of the top has expired: a pending force, a waiting gap-out, a waiting split end or a waiting
band end is taken. A gap-out comes before a split end that a raised minimum has held back (assumption log 72). -/
def minimumExpiry (e : Env) (p : Plant) (j : JIdx) : Plant :=
  match p.plainTop? j with
  | none => p
  | some x =>
    if x.minDone then
      match x.role with
      | .side =>
        if p.jn[j].force then p.forceOff e j
        else if gapDone p.jn[j] x then p.voluntaryEnd e j .gapped
        else p.splitExpiry e j
      | .band =>
        let p := if p.jn[j].moved.isSome && p.bandEndDue j then p.upd j fun J => { J with endDone := true, endPassed := true } else p
        if p.jn[j].dwell then p else p.takeBandEnd e j
    else p

/-- R123: the counted saved elapsed has reached the interrupted host entry's minimum; the service stage is ordered. -/
def minimumWaitEnd (e : Env) (p : Plant) (j : JIdx) : Plant :=
  match p.jn[j].minWait with
  | none => p
  | some h =>
    if p.jn[j].stack.any fun c => c.entry == h && decide (10 * p.pool[h].minimum ≤ c.saved) then
      let p := p.upd j fun J =>
        { J with minWait := none, stack := J.stack.map fun c => if c.entry = h then { c with minReached := true } else c }
      p.orderTop e j
    else p

/-! ## Band call point -/

/-- R50: a JOINING junction takes up the band. -/
def joinTakeUp (e : Env) (p : Plant) (j : JIdx) : Plant :=
  if p.jn[j].order.isNone && (p.bandEntry? j).isSome then (rotateToBand j chainFuel p).orderTop e j else p

/-- R64: what the sequencer does when the band call point is reached. -/
def reachCall (e : Env) (p : Plant) (j : JIdx) : Plant :=
  let p := p.upd j fun J => { J with callDone := true, callReached := true }
  match p.jn[j].state with
  | .joining => p.joinTakeUp e j
  | .inStep =>
    match p.plainTop? j with
    | some x =>
      if x.role = .side then
        if x.minDone then p.forceOff e j else p.upd j fun J => { J with force := true }
      else p
    | none => p
  | .absent => p
  | .loc _ => p
  | .solo _ => p

/-- R64, R12: BAND_CALL_POINT. At the same position the band end point is taken first. -/
def bandCallPoint (e : Env) (p : Plant) (j : JIdx) : Plant :=
  if p.jn[j].state.present && !p.jn[j].callDone && p.jn[j].callDue then (p.bandEndPoint e j).reachCall e j else p

end Plant

end Sys2Proof.Machine
end

