-- ==== Sys2Proof/Machine/Contexts.lean ====
section
/-! DEFINITION. The context stack of a junction (chapter 6): push, pop, fold and resume. -/

namespace Sys2Proof.Machine

open Sys2Proof

/-- The service entry of a request (R23), as placed by R122. -/
def serviceEntry (stage : Stage) (slot : SlotNo) : Entry :=
  { stage := stage, role := .side, kind := .once, origin := .service, demand := .recall, minimum := 0, split := 0,
    passage := 0, allowance := 2, retries := 2, notify := false, status := .waiting, outcome := .none, error := .none,
    elapsed := none, slot := some slot, staged := none }

/-- How the service entry of an ended request is retired (R127). -/
def retireOutcome : ReqOutcome → EntryOutcome
  | .served => .served
  | .expired => .served
  | .cancelled => .cut
  | .displaced => .cut
  | .abandoned => .cut

/-- The request slot a record names. -/
def Junction.topSlot? (J : Junction) : Option SlotNo := J.stack.head?.map Context.slot

namespace Plant

/-- R121: the record of an accepted request over the present top. -/
def contextFor (p : Plant) (j : JIdx) (k : SlotNo) (n : EntryNo) : Context :=
  let x := p.pool[n]
  { slot := k, entry := n, saved := if x.status = .serving then x.elapsed.getD 0 else 0
    minReached := x.minDone || x.origin == .service, prior := p.jn[j].level }

/-- R121, steps 1 to 3: the record is pushed, a bottom record of the same entry takes its saved values, the level rises, and a
PENDING force clears. -/
def pushRecord (p : Plant) (j : JIdx) (c : Context) (level : Nat) : Plant :=
  p.upd j fun J =>
    { J with
      stack := c :: J.stack.map fun b => if b.entry = c.entry then { b with saved := c.saved, minReached := c.minReached } else b
      level := level
      force := false
      resuming := none }

/-- R122: the interrupted top stands WAITING behind the service entry, its gap timer stopped. -/
def interrupt (p : Plant) (j : JIdx) (n : EntryNo) : Plant :=
  let p := p.stopGapOf j n
  let p := if p.pool[n].status = .serving then p.updEnt n fun x => { x with status := .waiting, elapsed := none } else p
  p.upd j fun J => { J with allowance := none, dwell := false }

/-- R122: how the service entry's stage is made green: take-over, minimum wait (R123), or order. -/
def beginService (e : Env) (p : Plant) (j : JIdx) (r : Request) (n : EntryNo) (beforeMinimum : Bool) : Plant :=
  let J := p.jn[j]
  if J.order.isNone ∧ J.green = some r.stage then (p.upd j fun J => { J with minWait := none }).orderTop e j
  else if r.level ≤ 15 ∧ (beforeMinimum = true ∨ J.minWait.isSome = true) then
    p.upd j fun J => { J with minWait := J.minWait.or (some n) }
  else (p.upd j fun J => { J with minWait := none }).orderTop e j

/-- R121: the push for an accepted request. -/
def push (e : Env) (p : Plant) (j : JIdx) (k : SlotNo) (r : Request) : Plant :=
  match p.top? j with
  | none => p
  | some n =>
    let x := p.pool[n]
    let c := p.contextFor j k n
    let p := p.pushRecord j c r.level
    match r.action with
    | .extend => p
    | .insert =>
      let p := ((p.interrupt j n).place j 0 (serviceEntry r.stage k)).1
      p.beginService e j r n (x.origin == .host && x.status == .serving && !c.minReached)

/-- R122, R132: the service entry of a request in a chain. -/
def serviceEntryOf? (p : Plant) (j : JIdx) (k : SlotNo) : Option EntryNo :=
  p.jn[j].chain.find? fun n => p.pool[n].origin == .service && p.pool[n].slot == some k

/-- R127, R132, step 1: the service entry of an ended request is retired. -/
def retireService (p : Plant) (j : JIdx) (k : SlotNo) (out : ReqOutcome) : Plant :=
  match p.serviceEntryOf? j k with
  | some n => p.retire j n (some (retireOutcome out))
  | none => p

/-- R130: after a pop to level 0, force-off of a resumed SIDE top when the call-reached mark is set. A force that waits for a
confirmation is held as PENDING (assumption log 12). -/
def resumeForce (e : Env) (p : Plant) (j : JIdx) (minReached : Bool) : Plant :=
  match p.topEntry? j with
  | none => p
  | some x =>
    if x.role = .side ∧ x.origin = .host ∧ p.jn[j].callReached = true ∧ p.jn[j].level = 0 then
      if x.status = .serving ∧ minReached = true then p.forceOff e j else p.upd j fun J => { J with force := true }
    else p

/-- R129: the ends deferred under an EXTEND that are due when the level returns to 0. A split passed comes before an expired gap timer
(assumption log 57). -/
def deferredEnds (e : Env) (p : Plant) (j : JIdx) : Plant :=
  match p.plainTop? j with
  | none => p
  | some x =>
    match x.role with
    | .side =>
      if p.jn[j].force then p
      else if splitDone p.jn[j] x then p.voluntaryEnd e j .served
      else if gapDone p.jn[j] x then p.voluntaryEnd e j .gapped
      else p
    | .band => if p.jn[j].dwell then p.dwellCheck e j else p.takeBandEnd e j

/-- R128, R129: the resume of the interrupted entry of a popped record, which is the top. Under a reached band call point the force of
R130 comes before the deferred ends (assumption log 36). -/
def resume (e : Env) (p : Plant) (j : JIdx) (c : Context) : Plant :=
  match p.top? j with
  | none => p
  | some n =>
    let x := p.pool[n]
    let J := p.jn[j]
    if J.minWait.isSome ∧ J.minWait ≠ some n then p
    else if x.status = .serving then
      if J.level = 0 then
        if x.role = .side ∧ J.callReached = true then p.resumeForce e j x.minDone else p.deferredEnds e j
      else p
    else
      let p := p.upd j fun J =>
        { J with
          minWait := none
          resuming := if J.level = 0 ∧ x.origin = .host ∧ x.role = .side
            then some { saved := c.saved, minReached := c.minReached } else none }
      let p := (p.orderTop e j).resumeForce e j c.minReached
      match p.topEntry? j with
      | some y => if y.status = .serving then p.upd j fun J => { J with resuming := none } else p
      | none => p

/-- R127: pop. -/
def pop (e : Env) (p : Plant) (j : JIdx) (out : ReqOutcome) : Plant :=
  match p.jn[j].stack with
  | [] => p
  | c :: rest =>
    let p := p.retireService j c.slot out
    (p.upd j fun J => { J with level := c.prior, stack := rest }).resume e j c

/-- R132: fold. -/
def fold (p : Plant) (j : JIdx) (out : ReqOutcome) : Plant :=
  match p.jn[j].stack with
  | t :: b :: _ =>
    let p := p.retireService j b.slot out
    p.upd j fun J =>
      { J with stack := [{ t with entry := b.entry, saved := b.saved, minReached := b.minReached, prior := b.prior }] }
  | _ => p

/-- R112, step 2: the end of an ACTIVE request reaches its context record. -/
def unwind (e : Env) (p : Plant) (j : JIdx) (k : SlotNo) (out : ReqOutcome) : Plant :=
  match p.jn[j].stack with
  | [] => p
  | [t] => if t.slot = k then p.pop e j out else p
  | t :: b :: _ => if t.slot = k then p.pop e j out else if b.slot = k then p.fold j out else p

end Plant

end Sys2Proof.Machine
end

