-- ==== Sys2Proof/Machine/Arbiter.lean ====
section
/-! DEFINITION. The priority arbiter (chapter 5): the request table, ends, acceptance, arrivals and time limits; and the spill
of the guard (section 7.3), which posts a request. -/

namespace Sys2Proof.Machine

open Sys2Proof

/-- A record of the table with its slot (R103). -/
structure Candidate where
  slot : SlotNo
  req : Request
  deriving DecidableEq, Repr

/-- An arrival before it is settled (R93). Level 0 to 16; wait limit 0 asks for the junction default. -/
structure Arrival where
  junction : JIdx
  source : SourceKind
  id : Nat
  level : Nat
  action : Action
  stage : Stage
  time : Nat
  wait : Nat
  deriving DecidableEq, Repr

/-- How an arrival is settled (R95 to R101). -/
inductive ArrivalResult where
  /-- Level 0, handed on as a call. -/
  | call
  /-- The junction is not JOINING or IN_STEP. -/
  | noState
  | new (slot : SlotNo) (displaced : Option Key)
  | refreshed (slot : SlotNo)
  /-- A full table that does not admit it. -/
  | full
  deriving DecidableEq, Repr

/-- The key an arrival carries. -/
def Arrival.key (a : Arrival) : Key := { junction := a.junction, source := a.source, id := a.id }

namespace Plant

/-! ## The table -/

/-- The slot of the record with a key (R92). -/
def slotOf? (p : Plant) (k : Key) : Option SlotNo :=
  (List.finRange 24).find? fun s => (p.req[s]).any fun r => r.key == k

/-- The lowest-numbered free slot (R91). -/
def freeSlot? (p : Plant) : Option SlotNo := (List.finRange 24).find? fun s => (p.req[s]).isNone

/-- Records in the table. -/
def requestCount (p : Plant) : Nat := (List.finRange 24).countP fun s => (p.req[s]).isSome

/-- The context position of the request in a slot (R90, R119): 2 TOP, 1 BOTTOM, 0 absent. -/
def contextPos (p : Plant) (k : SlotNo) : Nat :=
  match p.req[k] with
  | none => 0
  | some r =>
    match p.jn[r.junction].stack with
    | [] => 0
    | c :: rest => if c.slot = k then 2 else if rest.any fun b => b.slot == k then 1 else 0

/-- A record leaves its slot and the arrival order (R112, step 1). -/
def removeRequest (p : Plant) (k : SlotNo) : Plant :=
  { p.setReq k none with arrivals := p.arrivals.filter fun i => i != k }

/-- The ENDED notice of a record (R112, step 3). -/
def raiseEnded (p : Plant) (k : SlotNo) (r : Request) (out : ReqOutcome) : Plant :=
  p.raise (.ended k r.key r.level r.action r.isActive out)

/-! ## Ends (section 5.5) -/

/-- R112, steps 1 to 3: a request ends. -/
def endRequest (e : Env) (p : Plant) (k : SlotNo) (out : ReqOutcome) : Plant :=
  match p.req[k] with
  | none => p
  | some r =>
    let p := p.removeRequest k
    let p := if r.isActive then p.unwind e r.junction k out else p
    p.raiseEnded k r out

/-- R116 for one slot: steps 1 and 3 of R112. -/
def abandonSlot (p : Plant) (k : SlotNo) : Plant :=
  match p.req[k] with
  | none => p
  | some r => (p.removeRequest k).raiseEnded k r .abandoned

/-- R116: every request of a junction ends ABANDONED, in slot order. -/
def abandonJunction (p : Plant) (j : JIdx) : Plant :=
  (List.finRange 24).foldl
    (fun p k => if (p.req[k]).any fun r => r.junction == j then p.abandonSlot k else p) p

/-! ## Acceptance (section 5.3) -/

/-- R103: the PENDING record of highest level, the oldest among equals. -/
def candidate? (p : Plant) (j : JIdx) : Option Candidate :=
  p.arrivals.foldl
    (fun best k =>
      match p.req[k] with
      | none => best
      | some r =>
        if r.junction = j ∧ r.isActive = false then
          match best with
          | some b => if b.req.level < r.level then some { slot := k, req := r } else best
          | none => some { slot := k, req := r }
        else best) none

/-- R104: the conditions of acceptance. -/
def acceptable (p : Plant) (j : JIdx) (r : Request) : Bool :=
  let J := p.jn[j]
  J.state == .inStep && decide (J.level < r.level) &&
    (decide (r.level = 16) || (J.order.isNone && decide (J.stack.length < 2))) &&
    (r.action == .insert ||
      (p.topEntry? j).any fun x => x.origin == .host && x.status == .serving && x.stage == r.stage)

/-- R107, step 2: the fields of a record that becomes ACTIVE. -/
def activated (e : Env) (J : Junction) (r : Request) : Active :=
  match r.action with
  | .extend =>
    let cap := e.now + 10 * J.plan.ext
    { accepted := e.now, svcEnd := .due (min (e.now + 10 * r.time) cap), started := true, cap := some cap
      holdEnd := e.now + 10 * J.plan.hold }
  | .insert =>
    { accepted := e.now, svcEnd := if r.time = 0 then .untilCancelled else .notStarted, started := false, cap := none
      holdEnd := e.now + 10 * J.plan.hold }

/-- R107, step 1: a level-16 acceptance on a full stack ends the BOTTOM request DISPLACED. -/
def displaceBottom (e : Env) (p : Plant) (j : JIdx) : Plant × Option Key :=
  match p.jn[j].stack with
  | _ :: b :: _ => (p.endRequest e b.slot .displaced, (p.req[b.slot]).map Request.key)
  | _ => (p, none)

/-- R107: the candidate is accepted. An EXTEND whose service end is its acceptance ends SERVED at once (R110, R125). -/
def accept (e : Env) (p : Plant) (j : JIdx) (c : Candidate) : Plant :=
  let d := p.displaceBottom e j
  let a := activated e p.jn[j] c.req
  let p := d.1.setReq c.slot (some { c.req with state := .active a })
  let p := p.push e j c.slot c.req
  let p := p.upd j fun J => { J with tally := { J.tally with accepts := min 15 (J.tally.accepts + 1) } }
  let p := p.raise (.accepted c.slot c.req.key c.req.level c.req.action c.req.stage d.2)
  if c.req.action = .extend ∧ a.svcEnd = .due e.now then p.endRequest e c.slot .served else p

/-- R105: one acceptance attempt. -/
def attempt? (e : Env) (p : Plant) (j : JIdx) : Option Plant :=
  match p.candidate? j with
  | none => none
  | some c => if p.acceptable j c.req then some (p.accept e j c) else none

/-- R106: attempts are made until one accepts nothing. -/
def attemptLoop (e : Env) (j : JIdx) : Nat → Plant → Plant
  | 0, p => p
  | k + 1, p =>
    match p.attempt? e j with
    | none => p
    | some p => attemptLoop e j k p

/-- R106: the acceptance attempts of an operation at a junction. The fuel exceeds the number of records. -/
def attempts (e : Env) (p : Plant) (j : JIdx) : Plant := attemptLoop e j 25 p

/-- R112: a request ends and the attempt at its junction follows. -/
def endAndAttempt (e : Env) (p : Plant) (k : SlotNo) (out : ReqOutcome) : Plant :=
  match p.req[k] with
  | none => p
  | some r => (p.endRequest e k out).attempts e r.junction

/-! ## Time limits (section 5.4) -/

/-- R108: WAIT_EXPIRY. -/
def waitExpiry (e : Env) (p : Plant) (k : SlotNo) : Plant :=
  match p.req[k] with
  | none => p
  | some r =>
    match r.state with
    | .pending => if r.arrived + 10 * r.wait ≤ e.now then p.endAndAttempt e k .expired else p
    | .active _ => p

/-- The service end of an ACTIVE record is reached. -/
def serviceDue (e : Env) (a : Active) : Bool :=
  match a.svcEnd with
  | .due t => decide (t ≤ e.now)
  | .notStarted => false
  | .untilCancelled => false

/-- R109, R110: SERVICE_END. -/
def serviceEnd (e : Env) (p : Plant) (k : SlotNo) : Plant :=
  match p.req[k] with
  | none => p
  | some r =>
    match r.state with
    | .pending => p
    | .active a => if serviceDue e a then p.endAndAttempt e k .served else p

/-- R111: HOLD_END. A service end that falls due no later than the hold end wins. -/
def holdEnd (e : Env) (p : Plant) (k : SlotNo) : Plant :=
  match p.req[k] with
  | none => p
  | some r =>
    match r.state with
    | .pending => p
    | .active a =>
      if a.holdEnd ≤ e.now then
        let served := match a.svcEnd with
          | .due t => decide (t ≤ a.holdEnd)
          | .notStarted => false
          | .untilCancelled => false
        p.endAndAttempt e k (if served then .served else .expired)
      else p

/-! ## Arrivals (section 5.2) -/

/-- R97: the wait limit, resolved from the junction default. -/
def resolveWait (J : Junction) (wait : Nat) : Nat := if wait = 0 then J.plan.wait else wait

/-- R93, R97: the record of a new request, arrived with its report or at this moment. -/
def newRequest (e : Env) (J : Junction) (a : Arrival) : Request :=
  { junction := a.junction, source := a.source, id := a.id, level := a.level, action := a.action, stage := a.stage
    time := a.time, wait := resolveWait J a.wait, arrived := e.arrived, state := .pending }

/-- R97: a new request is written into a slot. -/
def writeNew (e : Env) (p : Plant) (k : SlotNo) (a : Arrival) : Plant :=
  { p.setReq k (some (newRequest e p.jn[a.junction] a)) with arrivals := p.arrivals ++ [k] }

/-- R99: what a refresh makes of an ACTIVE record. The new service time counts from the arrival that refreshes it (R93, R170). -/
def refreshActive (e : Env) (r : Request) (x : Active) (time : Nat) : Request :=
  match r.action with
  | .extend =>
    if time = 0 then r
    else
      let due := e.arrived + 10 * time
      { r with time := time, state := .active { x with svcEnd := .due (min due (x.cap.getD due)) } }
  | .insert =>
    if time = 0 then
      if r.level = 16 then { r with time := 0, state := .active { x with svcEnd := .untilCancelled } } else r
    else
      { r with
        time := time
        state := .active { x with svcEnd := if x.started then .due (e.arrived + 10 * time) else .notStarted } }

/-- R98, R99: a refresh of the record in a slot. -/
def refresh (e : Env) (p : Plant) (k : SlotNo) (r : Request) (a : Arrival) : Plant :=
  match r.state with
  | .pending =>
    { p.setReq k (some (newRequest e p.jn[a.junction] a)) with arrivals := (p.arrivals.filter fun i => i != k) ++ [k] }
  | .active x => p.setReq k (some (refreshActive e r x a.time))

/-- R101: the PENDING record of lowest level in the table, the oldest among equals. -/
def lowestPending? (p : Plant) : Option Candidate :=
  p.arrivals.foldl
    (fun best k =>
      match p.req[k] with
      | none => best
      | some r =>
        if r.isActive then best
        else
          match best with
          | some b => if r.level < b.req.level then some { slot := k, req := r } else best
          | none => some { slot := k, req := r }) none

/-- R97, R100, R101: a new request. -/
def arriveNew (e : Env) (p : Plant) (a : Arrival) : Plant × ArrivalResult :=
  match p.freeSlot? with
  | some k => ((p.writeNew e k a).attempts e a.junction, .new k none)
  | none =>
    if a.level = 16 then
      match p.lowestPending? with
      | some c =>
        let p := p.endAndAttempt e c.slot .displaced
        ((p.writeNew e c.slot a).attempts e a.junction, .new c.slot (some c.req.key))
      | none => (p, .full)
    else (p, .full)

/-- R95 to R101: an arrival that has passed its validation and is no check-out. -/
def arrive (e : Env) (p : Plant) (a : Arrival) : Plant × ArrivalResult :=
  if p.jn[a.junction].state.coordinated then
    if a.level = 0 then
      (((p.levelZeroCall a.junction a.stage).dwellCheck e a.junction).attempts e a.junction, .call)
    else
      match p.slotOf? a.key with
      | some k =>
        match p.req[k] with
        | some r => ((p.refresh e k r a).attempts e a.junction, .refreshed k)
        | none => (p, .full)
      | none => p.arriveNew e a
  else (p, .noState)

/-! ## Unit request records (R94, R114) -/

/-- An action by its code (R199). -/
def actionOf? : Nat → Option Action
  | 1 => some .extend
  | 2 => some .insert
  | _ => none

/-- R94, R102: the time and wait limits of a request at level 1 to 16. -/
def limitsGood (level : Nat) (action : Action) (time wait : Nat) : Bool :=
  decide (time ≤ 120) && (decide (time ≠ 0) || (action == .insert && decide (level = 16))) &&
    decide (wait = 0 ∨ 5 ≤ wait)

/-- A record of a REPORT as an arrival, if it is not bad (R94); its bytes are source id, level, stage, action, service time,
wait limit and check-out flag (R203). -/
def unitArrival? (j : JIdx) (b : List Byte) : Option Arrival :=
  match actionOf? (bodyByte b 3), Stage.ofNum? (bodyByte b 2) with
  | some action, some stage =>
    let level := bodyByte b 1
    let time := bodyByte b 4
    let wait := bodyByte b 5
    if level = 0 ∨ (level ≤ 16 ∧ limitsGood level action time wait = true) then
      some { junction := j, source := .unit, id := bodyByte b 0, level := level, action := action, stage := stage,
             time := time, wait := wait }
    else none
  | _, _ => none

/-- One request record of a good report (R93 to R95, R100, R114). -/
def unitRecord (e : Env) (p : Plant) (j : JIdx) (b : List Byte) : Plant :=
  let id := bodyByte b 0
  let flag := bodyByte b 6
  if id = 0 ∨ 1 < flag then p.raise (.badRecord j id)
  else if flag = 1 then
    match p.slotOf? { junction := j, source := .unit, id := id } with
    | some k => p.endAndAttempt e k .cancelled
    | none => p
  else
    match unitArrival? j b with
    | none => p.raise (.badRecord j id)
    | some a =>
      let r := p.arrive e a
      if r.2 = .full then r.1.raise (.tableFull a.key a.level) else r.1

/-! ## The spill (section 7.3) -/

/-- R143: the gate outcome, and under GATED the moved band end point, reached at once if it is now. -/
def gate (e : Env) (p : Plant) (j : JIdx) : Plant × GateOutcome :=
  let J := p.jn[j]
  if J.level ≠ 0 then (p, .suppressed)
  else
    match p.topEntry? j with
    | some x =>
      if x.role = .band ∧ x.status = .serving ∧ J.dwell = false ∧ p.sideServable j = true then
        let p := p.upd j fun J =>
          { J with moved := some (max J.p (J.p + 10 * x.minimum - x.elapsed.getD 0)), endDone := false }
        ((p.bandEndPoint e j).attempts e j, .gated)
      else (p, .idle)
    | none => (p, .idle)

/-- R144: the flush post. POSTED names the slot the record was written to, also when the EXTEND is accepted and ends at once under an
extension limit of 0 (assumption log 77). -/
def flush (e : Env) (p : Plant) (j : JIdx) : Plant × FlushDisposition :=
  match downstream e.dir j with
  | none => (p, .flushNone)
  | some d =>
    match p.bandEntry? d with
    | none => (p, .flushNone)
    | some b =>
      let g := p.jn[j].guard.settings
      let a : Arrival :=
        { junction := d, source := .guard, id := j.val, level := g.flushLevel, action := .extend, stage := b.stage,
          time := g.flushTime, wait := 0 }
      let r := p.arrive e a
      match r.2 with
      | .new k _ => (r.1, .posted d k)
      | .refreshed k => (r.1, .posted d k)
      | .full => (r.1.raise (.tableFull a.key a.level), .dropped)
      | .noState => (r.1, .flushNone)
      | .call => (r.1, .flushNone)

/-- R142 to R145: SPILL_DUE. -/
def spillDue (e : Env) (p : Plant) (j : JIdx) : Plant :=
  match p.jn[j].guard.probe with
  | .measuring w start due =>
    if due ≤ e.now then
      let p := p.upd j fun J => { J with guard := { J.guard with probe := .spilled } }
      let g := p.gate e j
      let f := g.1.flush e j
      let p := f.1.upd j fun J => J.conclude .spilled (.spilled g.2 f.2)
      p.raise (.spill j w (due - start) g.2 f.2)
    else p
  | .off => p
  | .armed _ => p
  | .done => p
  | .spilled => p

end Plant

end Sys2Proof.Machine
end

