-- ==== Sys2Proof/Machine/Junctions.lean ====
section
/-! DEFINITION. Junction states and their changes (sections 3.1, 3.2 and 3.7), order resolution (R52 to R56) and the taking of
a good report (chapters 4 and 9). -/

namespace Sys2Proof.Machine

open Sys2Proof

namespace Plant

/-! ## State changes (R44) -/

/-- The stalled entry a STATE notice carries when the new state is SOLO STALL (R44). -/
def stalledInfo (p : Plant) (j : JIdx) (st : JState) : Option (EntryNo × EntryError) :=
  match st with
  | .solo .stall => (p.top? j).map fun n => (n, p.pool[n].error)
  | _ => none

/-- R44: a change of state or cause, with its notice. -/
def setState (p : Plant) (j : JIdx) (st : JState) : Plant :=
  if p.jn[j].state = st then p
  else (p.upd j fun J => { J with state := st }).raise (.junctionState j st (p.stalledInfo j st))

/-- R178: the RELEASE of an entry into LOCAL or SOLO, if the line is UP. -/
def sendRelease (p : Plant) (j : JIdx) : Plant := p.decideFrame j .release

/-- Entry into SOLO. -/
def enterSolo (p : Plant) (j : JIdx) (c : SoloCause) : Plant := (p.sendRelease j).setState j (.solo c)

/-! ## Joining (R48) -/

/-- R48: the eligibility check. -/
def eligible (e : Env) (p : Plant) (j : JIdx) : Bool :=
  (p.chainEntries j).countP (fun x => x.role == .band) == 1 && p.planFeasible j e.c && p.jn[j].line.up &&
    p.jn[j].line.mode == some .coordReady

/-- The marks of a junction that enters JOINING (R48). A call point at a position behind p does not count (R50), nor does a band end
point behind p, and a point reached in this cycle stays reached (assumption log 52). The script-step flag of a step applied at this
cycle's start is cleared with the tally (assumption log 83). -/
def joinMarks (J : Junction) (bandEnd : Option Nat) : Junction :=
  { J with
    tally := .clear
    endPassed := false
    callReached := false
    force := false
    callDone := J.callDone || decide (J.span < J.p + 10 * J.plan.a)
    endDone := J.endDone || bandEnd.any fun q => decide (q < J.p)
    order := none
    green := none
    dwell := false }

/-- R48, R83: an eligible junction enters JOINING; the flag of each held stage is set again. -/
def enterJoining (p : Plant) (j : JIdx) : Plant :=
  let p := p.upd j fun J => joinMarks J (p.bandEndPos j)
  (p.setState j .joining).updDet j fun D => D.setFlags D.heldStages

/-- R47: a LOCAL junction is settled. -/
def settle (e : Env) (p : Plant) (j : JIdx) : Plant :=
  match p.jn[j].state with
  | .loc _ =>
    if p.jn[j].line.mode = some .localManual then p.setState j (.loc .manual)
    else if p.jn[j].line.mode = some .fault then p.enterSolo j .unit
    else if e.coordinating = false then p.setState j (.loc .notRunning)
    else if p.eligible e j then p.enterJoining j
    else p.setState j (.loc .noBand)
  | .absent => p
  | .joining => p
  | .inStep => p
  | .solo _ => p

/-- The cause with which a junction enters LOCAL before it is settled (assumption log 20). -/
def localCause (e : Env) (p : Plant) (j : JIdx) : LocalCause :=
  if p.jn[j].line.mode = some .localManual then .manual
  else if e.coordinating then .noBand
  else .notRunning

/-- An entry into LOCAL: RELEASE, the STATE notice, and the settling (R47). -/
def enterLocal (e : Env) (p : Plant) (j : JIdx) : Plant :=
  (((p.sendRelease j).setState j (.loc (p.localCause e j)))).settle e j

/-! ## Leaving coordination (R71) -/

/-- R71: a SERVING entry becomes WAITING with elapsed absent. -/
def unserve (p : Plant) (n : EntryNo) : Plant :=
  if p.pool[n].status = .serving then p.updEnt n fun x => { x with status := .waiting, elapsed := none } else p

/-- R134: every service entry of a chain is retired without an outcome, the top first (assumption log 54). -/
def retireServices (p : Plant) (j : JIdx) : Plant :=
  (p.jn[j].chain.filter fun n => p.pool[n].origin == .service).foldl (fun p n => p.retire j n none) p

/-- R71: the values of the sequencer, the stack, the tally, the calls and the probe after leaving coordination. A moved band end point
no longer applies, and the point of R12 whose place it took is not reached again in the cycle (R143). -/
def leaveValues (J : Junction) : Junction :=
  { J with
    order := none
    green := none
    dwell := false
    force := false
    endPassed := false
    callReached := false
    endDone := J.endDone || J.moved.isSome
    moved := none
    level := 0
    stack := []
    minWait := none
    allowance := none
    resuming := none
    tally := .clear
    carried := none
    det := J.det.leave
    guard := { J.guard with probe := .off } }

/-- R71: the junction leaves coordination; its new state is set by the caller. -/
def leave (p : Plant) (j : JIdx) : Plant :=
  let p := p.retireServices j
  let p := p.jn[j].chain.foldl unserve p
  (p.upd j leaveValues).abandonJunction j

/-- R54: a stall. -/
def stall (p : Plant) (j : JIdx) (err : EntryError) : Plant :=
  let p := p.leave j
  let p := match p.top? j with
    | some n => p.updEnt n fun x => { x with status := .stalled, error := err }
    | none => p
  p.enterSolo j .stall

/-! ## Resolution of an order in flight -/

/-- A top left WAITING with no order in flight and no minimum wait is ordered (R55, R131). -/
def orderWaitingTop (e : Env) (p : Plant) (j : JIdx) : Plant :=
  match p.topEntry? j with
  | some x =>
    if x.status = .waiting ∧ p.jn[j].order.isNone = true ∧ p.jn[j].minWait.isNone = true then p.orderTop e j else p
  | none => p

/-- R130, R65: a resumed top whose minimum was already reached ends FORCED at its confirmation under a PENDING force.
A local cycle start that comes before the confirmation has dropped the force (assumption log 76). -/
def forceAtConfirm (e : Env) (p : Plant) (j : JIdx) : Plant :=
  match p.plainTop? j with
  | some x =>
    if x.status = .serving then
      if p.jn[j].force = true ∧ x.role = .side ∧ p.jn[j].resuming.any (fun r => r.minReached) = true then p.forceOff e j
      else p.upd j fun J => { J with resuming := none }
    else p
  | none => p

/-- R52, R55, R131: a confirmation of the order in flight. -/
def confirmOrder (e : Env) (p : Plant) (j : JIdx) (o : OrderInFlight) : Plant :=
  let joining := p.jn[j].state == .joining
  let p := p.upd j fun J => { J with order := none, green := some o.stage }
  let p :=
    if o.live ∧ p.top? j = some o.entry then
      (if joining then p.setState j .inStep else p).serveTop e j
    else p.detectorConfirm e j o.stage
  let p := p.attempts e j
  let p := p.orderWaitingTop e j
  let p := p.forceAtConfirm e j
  p.attempts e j

/-- The order in flight is given up and the top's stage ordered: a re-send, or an order in its place (R53, R55, R131). -/
def reorder (e : Env) (p : Plant) (j : JIdx) : Plant := (p.upd j fun J => { J with order := none }).orderTop e j

/-- R53: an order error. -/
def orderError (e : Env) (p : Plant) (j : JIdx) (o : OrderInFlight) (err : EntryError) : Plant :=
  if o.live then
    let x := p.pool[o.entry]
    let p := p.updEnt o.entry fun x => { x with error := err }
    if x.allowance = 0 then p.reorder e j
    else if 0 < x.retries then (p.updEnt o.entry fun x => { x with retries := x.retries - 1 }).reorder e j
    else p.stall j err
  else p.reorder e j

/-- R53: CONFIRM_TIMEOUT. -/
def confirmTimeout (e : Env) (p : Plant) (j : JIdx) : Plant :=
  match p.jn[j].order with
  | none => p
  | some o =>
    match o.deadline with
    | none => p
    | some t => if t ≤ e.now then (p.orderError e j o .confirmTimeout).attempts e j else p

/-- R52: the stage of the order in flight that a report confirms: its tag and its green stage are the order's. -/
def confirmedStage? (p : Plant) (j : JIdx) (body : List Byte) : Option Stage :=
  match p.jn[j].order with
  | none => none
  | some o => if reportTag body = o.tag.val ∧ reportGreen body = some o.stage then some o.stage else none

/-- R52: a report's tag and green stage are compared with the order in flight, also before its ORDER has been sent (R175, assumption
log 70). -/
def compareOrder (e : Env) (p : Plant) (j : JIdx) (body : List Byte) : Plant :=
  match p.jn[j].order with
  | none => p
  | some o =>
    if reportTag body = o.tag.val then
      if reportGreen body = some o.stage then p.confirmOrder e j o else (p.orderError e j o .wrongStage).attempts e j
    else p

/-! ## The line (R70, R172) -/

/-- R70: the line of a present junction has come UP. -/
def lineUp (e : Env) (p : Plant) (j : JIdx) : Plant :=
  match p.jn[j].state with
  | .solo .link => p.enterLocal e j
  | _ => p.settle e j

/-- R172: LINE_SILENCE. -/
def lineSilence (e : Env) (p : Plant) (j : JIdx) : Plant :=
  let l := p.jn[j].line
  match l.silence with
  | none => p
  | some due =>
    if l.up = true ∧ due ≤ e.now then
      let p := p.upd j fun J => { J with line := { J.line with up := false, silence := none, waiting := none } }
      if p.jn[j].state.present then
        let p := p.raise (.linkDown j (l.last.bind LastReport.tod))
        let p := p.updDet j Detectors.lineDown
        if p.jn[j].state.coordinated then (p.leave j).enterSolo j .link else p
      else p
    else p

/-! ## Taking a good report (R171, R173) -/

/-- R69: the unit mode of a report acts on the junction state; a mode equal to the earlier one changes nothing. -/
def modeChange (e : Env) (p : Plant) (j : JIdx) (earlier : Option UnitMode) (mode : UnitMode) : Plant :=
  if earlier = some mode then p
  else
    match mode, p.jn[j].state with
    | .localManual, .joining => (p.leave j).enterLocal e j
    | .localManual, .inStep => (p.leave j).enterLocal e j
    | .localManual, .loc _ => p.settle e j
    | .localManual, .solo .unit => p.enterLocal e j
    | .fault, .joining => (p.leave j).enterSolo j .unit
    | .fault, .inStep => (p.leave j).enterSolo j .unit
    | .fault, .loc _ => p.settle e j
    | .coordReady, .loc .manual => p.settle e j
    | .coordReady, .solo .unit => p.enterLocal e j
    | _, _ => p

/-- R70, R69, R48, R56, R52: the sequencer takes a report. -/
def sequencerReport (e : Env) (p : Plant) (j : JIdx) (wasUp : Bool) (earlier : Option UnitMode) (body : List Byte) : Plant :=
  let p := if wasUp then p else p.lineUp e j
  let p := p.modeChange e j earlier (reportMode body)
  let p := p.settle e j
  if p.jn[j].state.coordinated then
    if reportLamp body then p.stall j .lampFault else p.compareOrder e j body
  else p

/-- R79 to R82, R141: the detector unit takes a report and hands the exit edges to the guard. `confirmed` is the stage that the
sequencer has confirmed from the report before. -/
def detectorReport (e : Env) (p : Plant) (j : JIdx) (mayStart : Bool) (confirmed : Option Stage) (body : List Byte) : Plant :=
  let rows := reportRows body
  let D := p.jn[j].det
  if D.rowsValid then
    let p := p.rowEdges e j confirmed rows
    let p :=
      if p.jn[j].state.coordinated then p.upd j fun J => J.exitEdges e.arrived (risingEdges D rows) (fallingEdges D rows) mayStart
      else p
    (p.dwellCheck e j).attempts e j
  else p.firstRows e j rows

/-- R171, steps 1 and 2: the report is recorded with its arrival, from which the silence timer counts, and its line is UP. -/
def recordReport (e : Env) (p : Plant) (j : JIdx) (body : List Byte) : Plant :=
  p.upd j fun J =>
    { J with
      line :=
        { J.line with
          up := true
          upAt := if J.line.up then J.line.upAt else some e.now
          mode := some (reportMode body)
          last := some { body := body, arrived := e.arrived, tod := e.tod }
          silence := some (e.arrived + Config.silence) } }

/-- R171, R173: a good report is taken, by its REPORT body, by the two blocks in the order the command carries (assumption log 8). Where
their rules meet in a case that R82 does not list, the outcome may differ by that order (assumption log 68), and so may the chain order, a
STALLED entry and a kept probe result when the report takes the junction out of coordination (assumption log 74). The request records are
taken last, after both blocks (assumption log 75). A probe that is ARMED when the report is taken starts at its rising edge, also when the
report arrived before a take-over armed it (R140, assumption log 85). -/
def takeReport (e : Env) (p : Plant) (j : JIdx) (first : TakeOrder) (body : List Byte) : Plant :=
  let wasUp := p.jn[j].line.up
  let earlier := p.jn[j].line.mode
  let armedBefore := p.jn[j].guard.probe.active
  let p := p.recordReport e j body
  if p.jn[j].state.present then
    let p := if wasUp then p else p.raise (.linkUp j (reportMode body))
    let p :=
      match first with
      | .detectorFirst => (p.detectorReport e j true none body).sequencerReport e j wasUp earlier body
      | .sequencerFirst => (p.sequencerReport e j wasUp earlier body).detectorReport e j armedBefore (p.confirmedStage? j body) body
    (reportRecords body).foldl (fun p b => p.unitRecord e j b) p
  else p

/-- R170: the values under which a good report is taken: its arrival is that of its last byte, which may be earlier than the taking when
it stood in a frame discarded later. What counts from the arrival and what from the taking is assumption log 82. -/
def arrivalEnv (e : Env) (rx : List Received) (f : Found) : Env :=
  match rx.reverse[f.behind]? with
  | some b => { e with arrived := b.time, tod := b.tod }
  | none => e

/-- The good reports found among received bytes are taken in order (R170); the receiver keeps the last `kept` bytes. -/
def takeFound (e : Env) (p : Plant) (j : JIdx) (first : TakeOrder) (rx : List Received) (found : List Found) (kept : Nat) : Plant :=
  let p := p.upd j fun J => { J with line := { J.line with rx := rx.drop (rx.length - kept) } }
  found.foldl (fun p f => p.takeReport (arrivalEnv e rx f) j first f.payload.tail) p

/-- Bytes on LRXj (R169, R170): the good reports they complete are taken. -/
def corridorBytes (e : Env) (p : Plant) (j : JIdx) (first : TakeOrder) (bytes : List Byte) : Plant :=
  let rx := p.jn[j].line.rx ++ bytes.map fun b => { byte := b, time := e.now, tod := e.tod }
  let r := hunt corridorForm rx.length (rx.map Received.byte)
  p.takeFound e j first rx r.1 r.2.length

/-- A byte gap on LRXj (R169, R170). -/
def corridorGap (e : Env) (p : Plant) (j : JIdx) (first : TakeOrder) : Plant :=
  let rx := p.jn[j].line.rx
  p.takeFound e j first rx (huntGap corridorForm (rx.length + 1) (rx.map Received.byte)) 0

/-- R86: STUCK_DETECTED. -/
def stuckDetected (e : Env) (p : Plant) (j : JIdx) (d : DetIdx) : Plant :=
  if p.stuckDue e j d then ((p.becomeStuck j d).dwellCheck e j).attempts e j else p

end Plant

end Sys2Proof.Machine
end

