-- ==== Sys2Proof/Machine/Script.lean ====
section
/-! DEFINITION. The script unit (chapter 8): the store, group starts, count-downs, trials and faults. -/

namespace Sys2Proof.Machine

open Sys2Proof

/-! ## The store (R148) -/

/-- The items of a queue up to and including its first end mark. -/
def takeGroup : List Item → List Item
  | [] => []
  | .endMark :: _ => [.endMark]
  | x :: rest => x :: takeGroup rest

/-- The items behind a queue's first end mark. -/
def dropGroup : List Item → List Item
  | [] => []
  | .endMark :: rest => rest
  | _ :: rest => dropGroup rest

/-- The open steps of a queue: those behind its last end mark. -/
def openSteps (q : List Item) : Nat := (q.reverse.takeWhile fun i => i != .endMark).length

/-- The queue of a junction. -/
def junctionQueue (j : JIdx) : QueueNo := j.castSucc

/-- The master queue. -/
def masterQueue : QueueNo := 12

namespace ScriptUnit

/-- Items held by the 13 queues together. -/
def held (u : ScriptUnit) : Nat := (u.queues.toList.map List.length).sum

/-- Free slots of the store. -/
def freeSlots (u : ScriptUnit) : Nat := Config.scriptSlots - u.held

/-- Some mark of the running mask is set. -/
def isRunning (u : ScriptUnit) : Bool := u.running.toList.any id

/-- Changes one queue. -/
def updQueue (u : ScriptUnit) (q : QueueNo) (f : List Item → List Item) : ScriptUnit :=
  { u with queues := u.queues.set q (f u.queues[q]) }

/-- A queue's part of the running group has ended: its mark clears and its counter is 0. -/
def endQueue (u : ScriptUnit) (q : QueueNo) : ScriptUnit :=
  { u with running := u.running.set q false, hold := u.hold.set q 0 }

/-- R155, step 4, for one queue: an end mark at its head is read at once. -/
def skipEmpty (u : ScriptUnit) (q : QueueNo) : ScriptUnit :=
  match u.queues[q] with
  | .endMark :: rest => { u with queues := u.queues.set q rest, running := u.running.set q false }
  | _ => u

/-- R155, steps 1, 2 and 4. -/
def startGroup (u : ScriptUnit) : ScriptUnit :=
  (List.finRange 13).foldl skipEmpty
    { u with
      notBefore := u.notBefore.tail
      hold := Vector.replicate 13 1
      running := Vector.replicate 13 true
      place := Vector.replicate 13 0 }

/-- R165: the running group is abandoned. -/
def abandon (u : ScriptUnit) : ScriptUnit :=
  { u with
    queues := Vector.ofFn fun q : Fin 13 => if u.running[q] then dropGroup u.queues[q] else u.queues[q]
    running := Vector.replicate 13 false
    hold := Vector.replicate 13 0 }

/-- R152: every waiting group and all open steps are discarded. -/
def drop (u : ScriptUnit) : ScriptUnit :=
  { u with
    queues := Vector.ofFn fun q : Fin 13 => if u.running[q] then takeGroup u.queues[q] else []
    notBefore := [] }

end ScriptUnit

/-! ## Starting a group (R154) -/

/-- R154: the time of day lies in the window of a not-before time. -/
def inWindow (notBefore tod : Option Nat) : Bool :=
  match notBefore, tod with
  | none, _ => true
  | some _, none => false
  | some n, some t => decide ((t + Config.day - n) % Config.day < Config.startWindow)

namespace State

/-- Forms a notice in the command's order. -/
def raise (s : State) (n : Notice) : State := { s with plant := s.plant.raise n }

/-- R164: FINISHED once the running mask is empty. -/
def finishCheck (s : State) : State := if s.script.isRunning then s else s.raise (.finished s.tb.tod)

/-- R154, R155: the oldest waiting group starts if its conditions hold. -/
def tryStart (s : State) : State :=
  match s.script.notBefore with
  | [] => s
  | nb :: rest =>
    if s.tb.corridor = .coordinating ∧ s.script.isRunning = false ∧ inWindow nb s.tb.tod = true then
      let s := { s with script := s.script.startGroup }
      (s.raise (.started nb s.tb.tod rest.length)).finishCheck
    else s

/-! ## Master steps (R158) -/

/-- C and direction take values at a master zero or at once (R6, R8, R158): a changed direction acts on the probes (R9). The
spans of the cycles in progress are kept (R14). -/
def setCorridor (s : State) (c : Nat) (d : Direction) : State :=
  let plant := if d = s.tb.dir then s.plant else s.plant.directionChanged
  { s with tb := { s.tb with c := c, dir := d }, plant := plant }

/-- The trial C and direction of a master step. -/
def masterTrial (blocks : List Block) (v : Nat × Direction) : Nat × Direction :=
  blocks.foldl (fun v b =>
    match b with
    | .cycle c => (c, v.2)
    | .direction d => (v.1, d)
    | _ => v) v

/-- R158: the fault of one junction under a trial C. -/
def masterFault (p : Plant) (c : Nat) (j : JIdx) : Option Reason :=
  let plan := p.jn[j].plan
  if c % 2 = 1 ∧ plan.mult = 2 then some .range
  else if c ≤ plan.offset * plan.mult then some .range
  else if p.planFeasible j c then none
  else some .infeasible

/-- R158: the first junction that fails a trial C. A trial C equal to the C in force, as that of a step without a CYCLE block, passes
the checks unasked. -/
def masterFails? (s : State) (c : Nat) : Option JIdx :=
  if c = s.tb.c then none else s.plant.firstFailing fun j => (masterFault s.plant c j).isSome

/-- R158: a master step is tried, and applied whole if every check passes. -/
def tryMaster (s : State) (blocks : List Block) : State × Option (Reason × Option JIdx) :=
  let v := masterTrial blocks (s.tb.c, s.tb.dir)
  match s.masterFails? v.1 with
  | some j => (s, (masterFault s.plant v.1 j).map fun r => (r, some j))
  | none => (s.setCorridor v.1 v.2, none)

/-! ## Junction steps (R159 to R162) -/

/-- The total of a step's OFFSET shifts. -/
def offsetTotal (blocks : List Block) : Int :=
  blocks.foldl (fun t b =>
    match b with
    | .offset o => t + o
    | _ => t) 0

/-- The split an entry has after a step's SPLIT blocks, in list order (R161). -/
def stepSplit (blocks : List Block) (x : Entry) : Entry :=
  blocks.foldl (fun x b =>
    match b with
    | .split st v => if x.origin = .host ∧ x.kind = .recurring ∧ x.stage = st then { x with split := v } else x
    | _ => x) x

/-- An entry is targeted by a SPLIT block of a step (R161). -/
def splitTarget (blocks : List Block) (x : Entry) : Bool :=
  x.origin == .host && x.kind == .recurring && blocks.any fun b =>
    match b with
    | .split st _ => st == x.stage
    | _ => false

/-- The guard settings after a step's GUARD blocks (R162). -/
def stepGuard (blocks : List Block) (g : GuardSettings) : GuardSettings :=
  blocks.foldl (fun g b =>
    match b with
    | .guard t f => { g with threshold := t, flushTime := f }
    | _ => g) g

/-- The offset after a shift, reduced modulo L (R160). -/
def shiftOffset (offset : Nat) (total : Int) (len : Nat) : Nat := (((offset : Int) + total) % (len : Int)).toNat

/-- R159: the checks of a junction step. -/
def junctionFault (p : Plant) (c : Nat) (j : JIdx) (blocks : List Block) : Option Reason :=
  let plan := p.jn[j].plan
  let es := p.chainEntries j
  if c / plan.mult / 5 < (offsetTotal blocks).natAbs then some .range
  else if es.any fun x => splitTarget blocks x && decide ((stepSplit blocks x).split < x.minimum) then some .range
  else if feasible (es.map (stepSplit blocks)) plan.a c plan.mult then none
  else some .infeasible

/-- R159 to R162, R156: an applied junction step. -/
def applyJunctionStep (p : Plant) (c m : Nat) (j : JIdx) (blocks : List Block) : Plant :=
  let total := offsetTotal blocks
  let p := p.jn[j].chain.foldl (fun p n => p.updEnt n (stepSplit blocks)) p
  p.upd j fun J =>
    let J := { J with
      guard := { J.guard with settings := stepGuard blocks J.guard.settings }
      tally := { J.tally with scriptStep := true } }
    if total = 0 then J
    else Junction.realign { J with plan := { J.plan with offset := shiftOffset J.plan.offset total (c / J.plan.mult) } } c m

/-- R159: a junction step is tried, and applied whole if every check passes. -/
def tryJunction (s : State) (j : JIdx) (blocks : List Block) : State × Option (Reason × Option JIdx) :=
  match junctionFault s.plant s.tb.c j blocks with
  | some r => (s, some (r, none))
  | none => ({ s with plant := applyJunctionStep s.plant s.tb.c s.tb.m j blocks }, none)

/-! ## Counting down (R156, R163) -/

/-- A step of a queue is tried: of the master queue, or of a junction queue. -/
def tryStep (s : State) (q : QueueNo) (blocks : List Block) : State × Option (Reason × Option JIdx) :=
  match idx? 12 q.val with
  | some j => s.tryJunction j blocks
  | none => s.tryMaster blocks

/-- R163: a script fault in a queue whose faulted step stood at a place. -/
def scriptFaulted (s : State) (q : QueueNo) (place : Nat) (r : Reason) (j : Option JIdx) : State :=
  let s := { s with script := (s.script.updQueue q dropGroup).endQueue q }
  (s.raise (.scriptFault q place r j)).finishCheck

/-- R156: the next item of a queue is read. -/
def readItem (s : State) (q : QueueNo) : State :=
  match s.script.queues[q] with
  | [] => s
  | .endMark :: rest => ({ s with script := (s.script.updQueue q fun _ => rest).endQueue q }).finishCheck
  | .step hold blocks :: rest =>
    let place := s.script.place[q]
    let s := { s with
      script := { s.script.updQueue q (fun _ => rest) with place := s.script.place.set q (place + 1) } }
    let r := s.tryStep q blocks
    match r.2 with
    | none => { r.1 with script := { r.1.script with hold := r.1.script.hold.set q hold } }
    | some f => r.1.scriptFaulted q place f.1 f.2

/-- R156: a cycle start of a queue's owner. -/
def countDown (s : State) (q : QueueNo) : State :=
  if s.script.running[q] then
    let h := s.script.hold[q] - 1
    let s := { s with script := { s.script with hold := s.script.hold.set q h } }
    if h = 0 then s.readItem q else s
  else s

end State

end Sys2Proof.Machine
end

