-- ==== Sys2Proof/Machine/Cycle.lean ====
section
/-! DEFINITION. Time: the tick (R1, R11), master zero (R2), the local cycle start (R66) and the cycle records (section 10.5). -/

namespace Sys2Proof.Machine

open Sys2Proof

/-! ## The tick (R1) -/

/-- R22: the elapsed of a SERVING entry counts, not past 150.0 s. -/
def Entry.tick (x : Entry) : Entry :=
  if x.status = .serving then { x with elapsed := some (min Config.elapsedMax (x.elapsed.getD 0 + 1)) } else x

/-- R123: during a minimum wait the records that name the entry whose stage is green go on counting. -/
def Context.tick (c : Context) (h : EntryNo) (minimum : Nat) : Context :=
  if c.entry = h then
    let saved := min Config.elapsedMax (c.saved + 1)
    { c with saved := saved, minReached := c.minReached || decide (10 * minimum ≤ saved) }
  else c

/-- R11, R63, R123: a junction's tenth. -/
def Junction.tick (J : Junction) (pool : Vector Entry 128) : Junction :=
  if J.state.present then
    let green := J.chain.any fun n => pool[n].role == .band && pool[n].status == .serving
    { J with
      p := J.p + 1
      tally := if green then { J.tally with bandGreen := J.tally.bandGreen + 1 } else J.tally
      stack := match J.minWait with
        | some h => J.stack.map fun c => c.tick h pool[h].minimum
        | none => J.stack }
  else J

/-- A tenth of the plant. -/
def Plant.tick (p : Plant) : Plant :=
  { p with pool := p.pool.map Entry.tick, jn := p.jn.map fun J => J.tick p.pool }

/-! ## Cycle records (R194, R195) -/

namespace ReportBlock

/-- Records held: the write position less the read position, modulo 48. -/
def held (r : ReportBlock) : Nat := (r.wr.val + 48 - r.rd.val) % 48

/-- R195: a formed record is offered to the queue. -/
def store (r : ReportBlock) (c : CycleRecord) : ReportBlock :=
  if r.held < Config.recordsHeld then
    { r with slots := r.slots.set r.wr (some { c with gap := r.gap }), wr := r.wr + 1, gap := false }
  else { r with gap := true }

/-- R196: the record at the read position is returned and removed. -/
def fetchOne (r : ReportBlock) : ReportBlock × Option CycleRecord :=
  if r.held = 0 then (r, none)
  else ({ r with slots := r.slots.set r.rd none, rd := r.rd + 1 }, r.slots[r.rd])

/-- R196: up to n records, oldest first. -/
def fetch : Nat → ReportBlock → ReportBlock × List CycleRecord
  | 0, r => (r, [])
  | n + 1, r =>
    match r.fetchOne with
    | (r', some c) =>
      let rest := fetch n r'
      (rest.1, c :: rest.2)
    | (r', none) => (r', [])

end ReportBlock

namespace State

/-- R195: a record is offered; RECORDS is raised when the count goes from 23 to 24. -/
def storeRecord (s : State) (c : CycleRecord) : State :=
  let r := s.report.store c
  let s' := { s with report := r }
  if s.report.held = 23 ∧ r.held = 24 then s'.raise (.recordCount 24) else s'

/-! ## Local cycle start (R66) -/

/-- R66: what is cleared or set at the start before step 1: the band marks, the moved point, the force mark, DWELL, p and the
span. The part of p beyond the span stays counted (assumption log 4). A force that still waits for the confirmation of a resumed top is
dropped with the force mark (assumption log 76). The new span is 10L also where a realigned cycle ends off the zero of a new C (assumption
log 81). -/
def startCycle (J : Junction) (c : Nat) : Junction :=
  { J with
    endPassed := false, callReached := false, endDone := false, callDone := false, moved := none, force := false
    dwell := false, p := J.p - J.span, span := cycleTenths c J.plan.mult }

/-- R63, R68: the tally of the new cycle: its band start error is the carried one, or 0 if the BAND entry is green at the band
start point. -/
def newTally (J : Junction) (bandGreen : Bool) : Junction :=
  { J with
    tally := { Tally.clear with bandError := J.carried.or (if bandGreen then some 0 else none) }
    carried := none }

/-- R194: the cycle record of the cycle just ended. -/
def formRecord (s : State) (j : JIdx) : CycleRecord :=
  { junction := j, count := s.plant.jn[j].cycleCount, tod := s.tb.tod, tally := s.plant.jn[j].tally, gap := false }

/-- R66, step 1, with R32 and R194. A junction that has left coordination in the cycle just ended and is IN_STEP again gives a record of
the part since it rejoined (assumption log 73). -/
def recordStep (s : State) (j : JIdx) : State :=
  let J := s.plant.jn[j]
  let s := if J.state = .inStep then s.storeRecord (s.formRecord j) else s
  let s := if J.completions ≠ [] ∨ J.overflow = true then s.raise (.completions j J.overflow J.completions) else s
  let green := (s.plant.bandEntry? j).any fun x => x.status == .serving
  { s with
    plant := s.plant.upd j fun J =>
      newTally { J with completions := [], overflow := false, cycleCount := (J.cycleCount + 1) % 256 }
        (J.state == .inStep && green) }

/-- R18: the checks of a staged junction set when it is to apply. -/
def stagedPlanGood (c : Nat) (v : Plan) : Bool :=
  !(v.mult == 2 && decide (c % 2 = 1)) && decide (v.offset * v.mult < c)

/-- R18: a staged junction set is applied whole or discarded. An offset or multiple change realigns the cycle just begun (R15). -/
def applyStagedPlan (e : Env) (p : Plant) (j : JIdx) : Plant :=
  match p.jn[j].stagedPlan with
  | none => p
  | some v =>
    if stagedPlanGood e.c v then
      let p := p.upd j fun J =>
        let J' := { J with plan := v, stagedPlan := none }
        if v.offset = J.plan.offset ∧ v.mult = J.plan.mult then J' else J'.realign e.c e.m
      p.applyStuckLimit e j
    else (p.upd j fun J => { J with stagedPlan := none }).raise (.junctionStagedDiscarded j .range)

/-- R39: a staged amendment replaces the fields it carries; a staged retry allowance also sets retries left. -/
def amendStaged (x : Entry) : Entry :=
  match x.staged with
  | none => x
  | some a =>
    { x with
      split := a.split.getD x.split
      minimum := a.minimum.getD x.minimum
      passage := a.passage.getD x.passage
      demand := a.demand.getD x.demand
      notify := a.notify.getD x.notify
      allowance := a.allowance.getD x.allowance
      retries := a.allowance.getD x.retries
      staged := none }

/-- R66, step 2: staged junction set, staged amendments, staged guard settings, staged map. -/
def stagedStep (e : Env) (p : Plant) (j : JIdx) : Plant :=
  let p := applyStagedPlan e p j
  let p := p.jn[j].chain.foldl (fun p n => p.updEnt n amendStaged) p
  let p := match p.jn[j].guard.staged with
    | some g => p.upd j fun J => J.applySettings g
    | none => p
  match p.jn[j].det.stagedMap with
  | some map => p.applyMap e j map
  | none => p

/-- R67: the plan check. -/
def planCheck (e : Env) (p : Plant) (j : JIdx) : Plant :=
  if p.jn[j].state.coordinated then
    if p.planFeasible j e.c then p else (p.leave j).enterSolo j .plan
  else p.settle e j

/-- Between steps 3 and 4 of R66: a service past an amended or scripted split or minimum ends (R39, R161), and a band call point
placed at or behind p is reached (R12). The place is that of assumption log 43; a split end comes before a gap-out (assumption log 65). -/
def reconcile (e : Env) (p : Plant) (j : JIdx) : Plant :=
  (((p.splitExpiry e j).minimumExpiry e j)).bandCallPoint e j

/-- R66: LOCAL_CYCLE_START. -/
def localCycleStart (s : State) (j : JIdx) : State :=
  let J := s.plant.jn[j]
  if J.state.present = true ∧ J.span ≤ J.p then
    let s := { s with plant := s.plant.upd j fun J => startCycle J s.tb.c }
    let s := s.recordStep j
    let s := s.onPlant fun e p => stagedStep e p j
    let s := s.countDown (junctionQueue j)
    s.onPlant fun e p => (planCheck e (reconcile e p j) j).attempts e j
  else s

/-! ## Master zero (R2) -/

/-- R8, R6: the first junction that fails a check of a staged set against the values in force, with the reason. -/
def corridorFault (p : Plant) (c : Nat) : Option (Reason × JIdx) :=
  match p.firstFailing fun j => decide (c % 2 = 1) && decide (p.jn[j].plan.mult = 2) with
  | some j => some (.range, j)
  | none =>
    match p.firstFailing fun j => decide (c ≤ p.jn[j].plan.offset * p.jn[j].plan.mult) with
    | some j => some (.range, j)
    | none => (p.firstFailing fun j => !p.planFeasible j c).map fun j => (.infeasible, j)

/-- R10: the default wait limit of corridor values is written into every present junction. -/
def writeWait (p : Plant) (wait : Nat) : Plant :=
  { p with jn := p.jn.map fun J => if J.state.present then { J with plan := { J.plan with wait := wait } } else J }

/-- Corridor values are applied (R6, R8): C, direction (R9) and the default wait limit (R10). -/
def applyCorridor (s : State) (v : CorridorSet) : State :=
  let s := s.setCorridor v.c v.dir
  { s with plant := writeWait s.plant v.wait }

/-- R8: step 1 of the master zero work. -/
def stagedCorridorStep (s : State) : State :=
  match s.tb.staged with
  | none => s
  | some v =>
    let s := { s with tb := { s.tb with staged := none } }
    match corridorFault s.plant v.c with
    | none => (s.applyCorridor v).raise (.stagedApplied v)
    | some f => s.raise (.stagedDiscarded f.1 f.2)

/-- R2: the master zero work, with m already 0. -/
def masterZeroWork (s : State) : State := (s.stagedCorridorStep.tryStart).countDown masterQueue

/-- R1, R11, R22: one tenth passes. In the tenth in which m would pass 10C - 1 it wraps to 0, which is master zero (R2).
A clock advance due in that tenth comes after this work (assumption log 79). -/
def tenth (s : State) : State :=
  let wraps := decide (10 * s.tb.c ≤ s.tb.m + 1)
  let s := { s with now := s.now + 1, plant := s.plant.tick, tb := { s.tb with m := if wraps then 0 else s.tb.m + 1 } }
  if wraps then s.masterZeroWork else s

end State

end Sys2Proof.Machine
end

