-- ==== Sys2Proof/Machine/HostPort.lean ====
section
/-! DEFINITION. The host port (sections 10.1 to 10.3): arrivals, the taking of the intake's head, answers, and the transmit
line. -/

namespace Sys2Proof.Machine

open Sys2Proof

/-! ## Arrivals (R183, R184, R188) -/

/-- Directive frames in the intake. -/
def HostPort.directives (h : HostPort) : Nat :=
  h.intake.countP fun i =>
    match i with
    | .directive _ _ _ => true
    | .busy _ _ => false

/-- BUSY marks in the intake. -/
def HostPort.busyMarks (h : HostPort) : Nat := h.intake.length - h.directives

/-- R184, R188: a directive that arrives, by its payload, is kept, marked BUSY or discarded. -/
def HostPort.arriveDirective (h : HostPort) (payload : List Byte) : HostPort :=
  match payload with
  | _ :: tag :: code :: body =>
    if h.restart ≠ .none then h
    else if h.directives < Config.intakeDirectives then { h with intake := h.intake ++ [.directive tag code body] }
    else if h.busyMarks < Config.intakeBusy then { h with intake := h.intake ++ [.busy tag code] }
    else h
  | _ => h

/-- Bytes on HRX (R183): the directive frames they complete arrive in order. One found in the bytes of a discarded frame arrives at the
discard (assumption log 84). -/
def HostPort.hostBytes (h : HostPort) (bytes : List Byte) : HostPort :=
  let r := receive hostForm h.rx bytes
  r.1.foldl HostPort.arriveDirective { h with rx := r.2 }

/-- A byte gap on HRX (R183): the directive frames found in the discarded bytes arrive now (assumption log 84). -/
def HostPort.hostGap (h : HostPort) : HostPort :=
  (receiveGap hostForm h.rx).foldl HostPort.arriveDirective { h with rx := [] }

/-! ## Answers (R186, R201) -/

/-- The outcome of a directive: DONE with data, or REFUSED with a reason. -/
inductive Answer where
  | done (data : List Byte)
  | refused (r : Reason)
  deriving DecidableEq, Repr

/-- The body of an answer (R201). -/
def Answer.body : Answer → List Byte
  | .done data => 1 :: data
  | .refused r => [2, r.code]

/-- The frame of an answer (R201: the tag and code of its directive). -/
def answerFrame (tag code : Byte) (body : List Byte) : OutFrame := { kind := .answer, tag := tag, code := code, body := body }

/-- What a directive's owner does with its body: its effect and its answer (R185). -/
abbrev Handler := List Byte → State → State × Answer

/-- A refused directive changes no state (R185). -/
def refuse (s : State) (r : Reason) : State × Answer := (s, .refused r)

/-! ## Taking the head item (R185) -/

/-- The part may take an item: the queue has room for one more frame, and no warm start is due (R185, R188). -/
def State.canTake (s : State) : Bool := s.host.room 0 && s.host.restart == .none

/-- The head item leaves the intake. -/
def State.popIntake (s : State) : State := { s with host := { s.host with intake := s.host.intake.tail } }

/-- An answer takes its place in the outgoing queue. -/
def State.answer (s : State) (tag code : Byte) (body : List Byte) : State :=
  { s with host := s.host.enqueue (answerFrame tag code body) }

/-- R185: a directive is handled with the answer's place reserved; its notices are offered, its answer is queued, `after` is
done, and an idle line takes its next frame. -/
def State.handle (s : State) (tag code : Byte) (body : List Byte) (h : Handler) (after : State → State) : State :=
  let r := h body s.popIntake
  let s := after ((r.1.offerAll 1).answer tag code r.2.body)
  { s with host := s.host.choose }

/-- R185: the head item is taken if it is a directive with this code; otherwise nothing happens (assumption log 5). -/
def State.takeThen (s : State) (code : Byte) (h : Handler) (after : List Byte → State → State) : State :=
  match s.host.intake with
  | .directive tag c body :: _ => if c = code ∧ s.canTake = true then s.handle tag c body h (after body) else s
  | _ => s

/-- R185: the head item is taken if it is a directive with this code. -/
def State.take (s : State) (code : Byte) (h : Handler) : State := s.takeThen code h fun _ s => s

/-- The codes of the directive table (R200). -/
def directiveCodes : List Byte :=
  [0x01, 0x02, 0x03, 0x04, 0x05, 0x06, 0x10, 0x11, 0x12, 0x13, 0x14, 0x20, 0x21, 0x22, 0x30] ++
    [0x31, 0x40, 0x41, 0x42, 0x50, 0x60, 0x61, 0x62, 0x63, 0x70, 0x71, 0x72, 0x73, 0x74]

/-- R185: a BUSY mark at the head is answered BUSY. -/
def State.takeBusy (s : State) : State :=
  match s.host.intake with
  | .busy tag code :: _ =>
    if s.canTake then
      let s := s.popIntake.answer tag code []
      { s with host := s.host.choose }
    else s
  | _ => s

/-- R185: a directive with an undefined code at the head is answered REFUSED UNKNOWN. -/
def State.takeUnknown (s : State) : State :=
  match s.host.intake with
  | .directive tag code _ :: _ =>
    if directiveCodes.contains code = false ∧ s.canTake = true then
      let s := s.popIntake.answer tag code (Answer.refused .unknown).body
      { s with host := s.host.choose }
    else s
  | _ => s

/-! ## The transmit line (R187, R188, R191) -/

/-- The RESTART answer (R21, R201). -/
def isRestartAnswer (f : OutFrame) : Bool := f.kind == .answer && f.code == 0x05 && f.body == (Answer.done []).body

/-- R187: the leaving frame's last byte leaves HTX. When the queue becomes empty the pending classes have their CATCH-UP queued
(R191). When the RESTART answer has left, the warm start follows and no further frame is chosen (R188). At a full queue with an item in
the intake the next frame is chosen once the item has been taken (`HostPort.itemFirst`). -/
def State.frameLeft (s : State) : State :=
  match s.host.leaving with
  | none => s
  | some f =>
    let s := { s with host := { s.host with leaving := none } }
    if s.host.restart = .answering ∧ isRestartAnswer f = true then { s with host := { s.host with restart := .answerLeft } }
    else
      let s := if s.host.queue.isEmpty then s.catchUpAll else s
      { s with host := s.host.choose }

end Sys2Proof.Machine
end

