-- ==== Sys2Proof/Machine/Starts.lean ====
section
/-! DEFINITION. The commands of the two starts, of the host line and of the intake that reach no block (R20, R21, R183 to
R188). -/

namespace Sys2Proof.Machine

open Sys2Proof

/-! ## Warm start (R21, R42, R45, R75, R91, R119, R137, R166, R168, R188, R189, R194, R195) -/

/-- R42: a host entry over a warm start. -/
def warmEntry (x : Entry) : Entry :=
  { x with status := .waiting, retries := x.allowance, outcome := .none, error := .none, elapsed := none, staged := none }

/-- R168: a line controller over a warm start. The receiver's bytes are not named by the rule and are kept (assumption
log 29). -/
def warmLine (l : Line) : Line :=
  { l with up := false, upAt := none, mode := none, last := none, silence := none, leaving := none, waiting := none,
           lastSent := none }

/-- R45, R75, R137, R194: a junction over a warm start, m being 0. A band end or call point behind its p is still to come in that cycle
(assumption log 53). -/
def warmJunction (c : Nat) (J : Junction) : Junction :=
  let J := { (Plant.leaveValues J) with
    completions := []
    overflow := false
    endDone := false
    callDone := false
    stagedPlan := none
    det := Detectors.coldWith J.det.map
    guard := { Guard.cold with settings := J.guard.settings }
    line := warmLine J.line
    cycleCount := 0 }
  if J.state.present then { J with state := .loc .notRunning }.beginCycle c 0 else J

/-- R42: the service entries join the tail of the free list in chain order, junction 0 first. -/
def retireAllServices (p : Plant) : Plant := (List.finRange 12).foldl Plant.retireServices p

/-- The plant over a warm start; the request table is emptied without notices (R91). -/
def warmPlant (c : Nat) (p : Plant) : Plant :=
  let p := retireAllServices p
  let p := (List.finRange 12).foldl
    (fun p j => p.jn[j].chain.foldl (fun p n => p.updEnt n warmEntry) p) p
  { p with jn := p.jn.map (warmJunction c), req := Vector.replicate 24 none, arrivals := [] }

/-- Some junction is present (R3). -/
def Plant.anyPresent (p : Plant) : Bool := (List.finRange 12).any fun j => p.jn[j].state.present

/-- R21: the state after a warm start. -/
def State.warm (s : State) : State :=
  { s with
    tb := { s.tb with
      corridor := if s.plant.anyPresent then .ready else .dark
      m := 0
      staged := none
      cause := .warm }
    plant := warmPlant s.tb.c s.plant
    script := .empty
    host := .empty
    report := { ReportBlock.cold with armed := s.report.armed, paused := s.report.paused } }

/-! ## Meanings -/

/-- COLD_START (R20): the cold values of every block; the commands still waiting are kept. -/
def execColdStart (s : State) : Host.Outcome State Fault Refusal := .next { State.reset with pending := s.pending }

/-- WARM_START (R21): once the RESTART answer has left. -/
def execWarmStart (s : State) : Host.Outcome State Fault Refusal :=
  .next (if s.host.restart = .answerLeft then s.warm else s)

/-- DIRECTIVE_ARRIVAL (R184). -/
def execDirectiveArrival (bytes : List Byte) (s : State) : Host.Outcome State Fault Refusal :=
  .next { s with host := s.host.hostBytes bytes }

/-- HOST_FRAME_DISCARD (R183): the receiver takes the bytes; a frame it cannot take is dropped, and the hunt goes on. -/
def execHostFrameDiscard (bytes : List Byte) (s : State) : Host.Outcome State Fault Refusal :=
  .next { s with host := s.host.hostBytes bytes }

/-- HOST_BYTE_GAP_EXPIRY (R183). -/
def execHostByteGapExpiry (s : State) : Host.Outcome State Fault Refusal := .next { s with host := s.host.hostGap }

/-- BUSY_ANSWER (R185). -/
def execBusyAnswer (s : State) : Host.Outcome State Fault Refusal := .next s.takeBusy

/-- UNKNOWN_DIRECTIVE (R185). -/
def execUnknownDirective (s : State) : Host.Outcome State Fault Refusal := .next s.takeUnknown

/-- HOST_FRAME_SENT (R187). -/
def execHostFrameSent (s : State) : Host.Outcome State Fault Refusal := .next s.frameLeft

end Sys2Proof.Machine
end

