-- ==== Sys2Proof/Machine/Chains.lean ====
section
/-! DEFINITION. The directives of the chain store (sections 2.4 to 2.6): APPEND ENTRY, INSERT ENTRY, REMOVE ENTRY, AMEND ENTRY
and READ CHAIN. -/

namespace Sys2Proof.Machine

open Sys2Proof

/-! ## Checks of values (R22, R34) -/

/-- The ranges of R22 for a placement, the split not below the minimum. -/
def entryInRange (stage minimum split passage allowance : Nat) : Bool :=
  within 1 8 stage && within 4 60 minimum && within minimum 150 split && within 10 99 passage && decide (allowance ≤ 3)

/-- A host entry as placed (R29, R30). -/
def hostEntry (stage : Stage) (role : Role) (kind : EntryKind) (demand : Demand) (minimum split passage allowance : Nat)
    (notify : Bool) : Entry :=
  { stage := stage, role := role, kind := kind, origin := .host, demand := demand, minimum := minimum, split := split,
    passage := passage, allowance := allowance, retries := allowance, notify := notify, status := .waiting, outcome := .none,
    error := .none, elapsed := none, slot := none, staged := none }

/-- R25: no place for one more host entry. -/
def Plant.hostFull (p : Plant) (j : JIdx) : Bool :=
  decide (Config.hostPerChain ≤ p.hostCount j) || decide (Config.hostInAll ≤ p.hostTotal)

/-- R41, R61: a chain edit is handed to the sequencer: a LOCAL junction is settled, and DWELL ends if a side is servable. -/
def Plant.chainEdited (e : Env) (p : Plant) (j : JIdx) : Plant := ((p.settle e j).dwellCheck e j).attempts e j

/-- The insert point of R35: behind the top, or behind the interrupted entry of the bottom record; 0 in an empty chain. -/
def Plant.insertPos (p : Plant) (j : JIdx) : Nat :=
  match p.jn[j].chain with
  | [] => 0
  | chain =>
    match p.jn[j].stack.getLast? with
    | none => 1
    | some b => chain.idxOf b.entry + 1

namespace State

/-- A placement at a position, handed on (R41); the answer carries the entry number and the position (R34, R35). -/
def placeHost (s : State) (j : JIdx) (pos : Nat) (x : Entry) : State × Answer :=
  let r := s.plant.place j pos x
  match r.2 with
  | none => refuse s .noRoom
  | some n => ({ s with plant := r.1.chainEdited s.env j }, .done [byte n.val, byte pos])

/-- R34: the plan with one more entry, for the INFEASIBLE check. -/
def appendInfeasible (s : State) (j : JIdx) (x : Entry) : Bool :=
  let J := s.plant.jn[j]
  J.state.coordinated && countsInSum x && !feasible (s.plant.chainEntries j ++ [x]) J.plan.a s.tb.c J.plan.mult

/-- APPEND ENTRY (R34). -/
def appendEntry : Handler := fun body s =>
  match bodyNats body with
  | [jb, st, ro, ki, de, minimum, split, passage, allowance, no] =>
    match idx? 12 jb, role? ro, kind? ki, demand? de, flag? no with
    | some j, some role, some kind, some demand, some notify =>
      if !entryInRange st minimum split passage allowance then refuse s .range
      else if role = .band ∧ (kind = .once ∨ demand = .call) then refuse s .range
      else
        match Stage.ofNum? st with
        | none => refuse s .range
        | some stage =>
          let x := hostEntry stage role kind demand minimum split passage allowance notify
          if s.plant.jn[j].state = .absent then refuse s .noSuch
          else if role = .band ∧ (s.plant.bandEntry? j).isSome = true then refuse s .band
          else if s.plant.hostFull j then refuse s .noRoom
          else if s.appendInfeasible j x then refuse s .infeasible
          else s.placeHost j s.plant.jn[j].chain.length x
    | _, _, _, _, _ => refuse s .form
  | _ => refuse s .form

/-- INSERT ENTRY (R35). -/
def insertEntry : Handler := fun body s =>
  match bodyNats body with
  | [jb, st, de, minimum, split, passage, allowance, no] =>
    match idx? 12 jb, demand? de, flag? no with
    | some j, some demand, some notify =>
      if !entryInRange st minimum split passage allowance then refuse s .range
      else
        match Stage.ofNum? st with
        | none => refuse s .range
        | some stage =>
          if s.plant.jn[j].state = .absent then refuse s .noSuch
          else if s.plant.hostFull j then refuse s .noRoom
          else
            s.placeHost j (s.plant.insertPos j) (hostEntry stage .side .once demand minimum split passage allowance notify)
    | _, _, _ => refuse s .form
  | _ => refuse s .form

/-- R36, R37: an entry number that stands in a chain. -/
def entryIn? (s : State) (j : JIdx) (nb : Nat) : Option EntryNo :=
  (idx? 128 nb).filter fun n => s.plant.jn[j].chain.contains n

/-- R36: the checks of a removal after NO_SUCH. -/
def removalRefused (s : State) (j : JIdx) (n : EntryNo) : Option Reason :=
  let J := s.plant.jn[j]
  let x := s.plant.pool[n]
  if x.origin = .service then some .inUse
  else if x.status = .serving then some .inUse
  else if J.order.isSome ∧ s.plant.top? j = some n then some .inUse
  else if J.stack.any fun c => c.entry == n then some .inUse
  else if x.role = .band ∧ J.state.coordinated = true then some .band
  else none

/-- REMOVE ENTRY (R36, R31). -/
def removeEntry : Handler := fun body s =>
  match bodyNats body with
  | [jb, nb] =>
    match idx? 12 jb with
    | none => refuse s .form
    | some j =>
      match s.entryIn? j nb with
      | none => refuse s .noSuch
      | some n =>
        match s.removalRefused j n with
        | some r => refuse s r
        | none => ({ s with plant := (s.plant.release j n).chainEdited s.env j }, .done [])
  | _ => refuse s .form

/-! ## AMEND ENTRY (R37 to R39) -/

/-- The bits of a presence mark byte (R200). -/
def markBit (marks i : Nat) : Bool := (byte marks).getLsbD i

/-- A value of AMEND ENTRY if its presence mark is set. -/
def marked (marks i v : Nat) : Option Nat := if markBit marks i then some v else none

/-- The values an AMEND ENTRY carries, absent if a demand or notify code is not defined (FORM). -/
def amendment? (marks split minimum passage de no allowance : Nat) : Option Amendment :=
  match markBit marks 3, demand? de, markBit marks 4, flag? no with
  | true, none, _, _ => none
  | _, _, true, none => none
  | dm, d, nm, n =>
    some { split := marked marks 0 split, minimum := marked marks 1 minimum, passage := marked marks 2 passage,
           demand := if dm then d else none, notify := if nm then n else none, allowance := marked marks 5 allowance }

/-- R37: the range checks, with the resulting split and minimum. -/
def amendInRange (a : Amendment) (x : Entry) (old : Option Amendment) : Bool :=
  let split := (a.split.or (old.bind fun o => o.split)).getD x.split
  let minimum := (a.minimum.or (old.bind fun o => o.minimum)).getD x.minimum
  a.split.all (within 4 150) && a.minimum.all (within 4 60) && a.passage.all (within 10 99) &&
    a.allowance.all (fun r => decide (r ≤ 3)) && decide (minimum ≤ split) && !(x.role == .band && a.demand == some .call)

/-- R38: an amendment applied at once. A changed retry allowance also sets retries left. -/
def amendNow (a : Amendment) (x : Entry) : Entry :=
  { x with
    split := a.split.getD x.split
    minimum := a.minimum.getD x.minimum
    passage := a.passage.getD x.passage
    demand := a.demand.getD x.demand
    notify := a.notify.getD x.notify
    allowance := a.allowance.getD x.allowance
    retries := if a.allowance.any (fun r => r != x.allowance) then a.allowance.getD x.retries else x.retries
    staged := none }

/-- R39: an amendment staged; it replaces an earlier one whole. -/
def amendLater (a : Amendment) (x : Entry) : Entry := { x with staged := some a }

/-- AMEND ENTRY (R37). -/
def amendEntry : Handler := fun body s =>
  match bodyNats body with
  | [jb, nb, marks, split, minimum, passage, de, no, allowance] =>
    if marks = 0 ∨ 64 ≤ marks then refuse s .form
    else
      match idx? 12 jb, amendment? marks split minimum passage de no allowance with
      | some j, some a =>
        match s.entryIn? j nb with
        | none => refuse s .noSuch
        | some n =>
          let x := s.plant.pool[n]
          let stages := s.plant.jn[j].state.coordinated
          if x.origin = .service then refuse s .inUse
          else if !amendInRange a x (if stages then x.staged else none) then refuse s .range
          else if stages then ({ s with plant := s.plant.updEnt n (amendLater a) }, .done [])
          else ({ s with plant := (s.plant.updEnt n (amendNow a)).chainEdited s.env j }, .done [])
      | _, _ => refuse s .form
  | _ => refuse s .form

/-! ## READ CHAIN (R40) -/

/-- The presence marks of a staged amendment (section 11.4). -/
def amendMarks (a : Amendment) : Byte :=
  byte (bitsNat [a.split.isSome, a.minimum.isSome, a.passage.isSome, a.demand.isSome, a.notify.isSome, a.allowance.isSome])

/-- Bytes 19 to 25 of the entry form. -/
def amendForm : Option Amendment → List Byte
  | none => [0, 0, 0, 0, 0, 0, 0]
  | some a =>
    [amendMarks a, byte (a.split.getD 0), byte (a.minimum.getD 0), byte (a.passage.getD 0),
      match a.demand with
      | some d => d.code
      | none => 0,
      flagByte (a.notify.getD false), byte (a.allowance.getD 0)]

/-- The entry form (section 11.4), 26 bytes. -/
def entryForm (n : EntryNo) (pos : Nat) (x : Entry) : List Byte :=
  [byte n.val, byte pos, byte x.stage.num, x.role.code, x.kind.code, x.origin.code, x.demand.code] ++
    [byte x.minimum, byte x.split, byte x.passage, byte x.allowance, byte x.retries, flagByte x.notify] ++
    [x.status.code, x.outcome.code, x.error.code] ++ tenths x.elapsed ++ [optByte (x.slot.map fun k => k.val)] ++
    amendForm x.staged

/-- The READ CHAIN answer data (section 11.4). -/
def chainData (p : Plant) (j : JIdx) (first : Nat) : List Byte :=
  let J := p.jn[j]
  let es := ((J.chain.zipIdx).drop first).take 8
  [byte J.chain.length, byte (p.hostCount j), byte (p.serviceCount j), byte J.completions.length, flagByte J.overflow,
    byte es.length] ++ es.flatMap fun x => entryForm x.1 x.2 p.pool[x.1]

/-- READ CHAIN (R40). -/
def readChain : Handler := fun body s =>
  match bodyNats body with
  | [jb, first] =>
    match idx? 12 jb with
    | none => refuse s .form
    | some j => if 15 < first then refuse s .form else (s, .done (chainData s.plant j first))
  | _ => refuse s .form

end State

/-! ## Meanings -/

/-- APPEND_ENTRY (R34). -/
def execAppendEntry (s : State) : Host.Outcome State Fault Refusal := .next (s.take 0x10 State.appendEntry)

/-- INSERT_ENTRY (R35). -/
def execInsertEntry (s : State) : Host.Outcome State Fault Refusal := .next (s.take 0x11 State.insertEntry)

/-- AMEND_ENTRY (R37). -/
def execAmendEntry (s : State) : Host.Outcome State Fault Refusal := .next (s.take 0x12 State.amendEntry)

/-- REMOVE_ENTRY (R36). -/
def execRemoveEntry (s : State) : Host.Outcome State Fault Refusal := .next (s.take 0x13 State.removeEntry)

/-- READ_CHAIN (R40). -/
def execReadChain (s : State) : Host.Outcome State Fault Refusal := .next (s.take 0x14 State.readChain)

end Sys2Proof.Machine
end

