-- ==== Sys2Proof/Machine/Events.lean ====
section
/-! DEFINITION. The commands of the sequencers, the detector unit, the arbiter, the guards and the lines that are events. An
event acts when it is due; otherwise nothing changes (assumption log 2). -/

namespace Sys2Proof.Machine

open Sys2Proof

/-- A junction event: its work, then the acceptance attempts at the junction (R106), then its notices. -/
def State.junctionEvent (s : State) (j : JIdx) (f : Env → Plant → Plant) : State :=
  (s.onPlant fun e p => (f e p).attempts e j).finish

/-- An event of the plant whose work makes its own attempts. -/
def State.plantEvent (s : State) (f : Env → Plant → Plant) : State := (s.onPlant f).finish

/-- LOCAL_CYCLE_START (R66). -/
def execLocalCycleStart (j : JIdx) (s : State) : Host.Outcome State Fault Refusal := .next (s.localCycleStart j).finish

/-- BAND_END_POINT (R60). -/
def execBandEndPoint (j : JIdx) (s : State) : Host.Outcome State Fault Refusal :=
  .next (s.junctionEvent j fun e p => p.bandEndPoint e j)

/-- BAND_CALL_POINT (R64). -/
def execBandCallPoint (j : JIdx) (s : State) : Host.Outcome State Fault Refusal :=
  .next (s.junctionEvent j fun e p => p.bandCallPoint e j)

/-- MINIMUM_EXPIRY (R58). -/
def execMinimumExpiry (j : JIdx) (s : State) : Host.Outcome State Fault Refusal :=
  .next (s.junctionEvent j fun e p => p.minimumExpiry e j)

/-- SPLIT_EXPIRY (R58). -/
def execSplitExpiry (j : JIdx) (s : State) : Host.Outcome State Fault Refusal :=
  .next (s.junctionEvent j fun e p => p.splitExpiry e j)

/-- ALLOWANCE_EXPIRY (R128). -/
def execAllowanceExpiry (j : JIdx) (s : State) : Host.Outcome State Fault Refusal :=
  .next (s.junctionEvent j fun e p => p.allowanceExpiry e j)

/-- MINIMUM_WAIT_END (R123). -/
def execMinimumWaitEnd (j : JIdx) (s : State) : Host.Outcome State Fault Refusal :=
  .next (s.junctionEvent j fun e p => p.minimumWaitEnd e j)

/-- CONFIRM_TIMEOUT (R53). -/
def execConfirmTimeout (j : JIdx) (s : State) : Host.Outcome State Fault Refusal :=
  .next (s.plantEvent fun e p => p.confirmTimeout e j)

/-- REPORT_RECEIVED (R173). -/
def execReportReceived (j : JIdx) (first : TakeOrder) (bytes : List Byte) (s : State) : Host.Outcome State Fault Refusal :=
  .next (s.plantEvent fun e p => p.corridorBytes e j first bytes)

/-- WAIT_EXPIRY (R108). -/
def execWaitExpiry (slot : SlotNo) (s : State) : Host.Outcome State Fault Refusal :=
  .next (s.plantEvent fun e p => p.waitExpiry e slot)

/-- SERVICE_END (R109, R110). -/
def execServiceEnd (slot : SlotNo) (s : State) : Host.Outcome State Fault Refusal :=
  .next (s.plantEvent fun e p => p.serviceEnd e slot)

/-- HOLD_END (R111). -/
def execHoldEnd (slot : SlotNo) (s : State) : Host.Outcome State Fault Refusal :=
  .next (s.plantEvent fun e p => p.holdEnd e slot)

/-- GAP_EXPIRY (R85); a stage outside 1 to 8 names no timer. -/
def execGapExpiry (j : JIdx) (stage : Nat) (s : State) : Host.Outcome State Fault Refusal :=
  .next (match Stage.ofNum? stage with
    | some st => s.junctionEvent j fun e p => p.gapExpiry e j st
    | none => s)

/-- STUCK_DETECTED (R86). -/
def execStuckDetected (j : JIdx) (det : DetIdx) (s : State) : Host.Outcome State Fault Refusal :=
  .next (s.plantEvent fun e p => p.stuckDetected e j det)

/-- SPILL_DUE (R142). -/
def execSpillDue (j : JIdx) (s : State) : Host.Outcome State Fault Refusal := .next (s.plantEvent fun e p => p.spillDue e j)

/-- CORRIDOR_FRAME_DISCARD (R170): the receiver takes the bytes; a frame it cannot take is discarded, and the hunt goes on. -/
def execCorridorFrameDiscard (j : JIdx) (first : TakeOrder) (bytes : List Byte) (s : State) :
    Host.Outcome State Fault Refusal :=
  .next (s.plantEvent fun e p => p.corridorBytes e j first bytes)

/-- CORRIDOR_BYTE_GAP_EXPIRY (R169). -/
def execCorridorByteGapExpiry (j : JIdx) (first : TakeOrder) (s : State) : Host.Outcome State Fault Refusal :=
  .next (s.plantEvent fun e p => p.corridorGap e j first)

/-- LINE_SILENCE (R172). -/
def execLineSilence (j : JIdx) (s : State) : Host.Outcome State Fault Refusal :=
  .next (s.plantEvent fun e p => p.lineSilence e j)

/-- CORRIDOR_FRAME_SENT (R175). -/
def execCorridorFrameSent (j : JIdx) (s : State) : Host.Outcome State Fault Refusal :=
  .next (s.onPlant fun e p => p.frameSent e j)

/-- KEEP_DUE (R177). -/
def execKeepDue (j : JIdx) (s : State) : Host.Outcome State Fault Refusal := .next (s.onPlant fun e p => p.keepDue e j)

/-- RELEASE_DUE (R178). -/
def execReleaseDue (j : JIdx) (s : State) : Host.Outcome State Fault Refusal := .next (s.onPlant fun e p => p.releaseDue e j)

end Sys2Proof.Machine
end

