-- ==== Sys2Proof/Machine/JunctionReads.lean ====
section
/-! DEFINITION. The directives of the sequencer and the detector unit: REPAIR JUNCTION, REJOIN JUNCTION, READ JUNCTION, MAP
DETECTORS, READ DETECTORS, and SET GUARD. -/

namespace Sys2Proof.Machine

open Sys2Proof

namespace State

/-- A directive whose body is one junction index (R200). -/
def onJunction (f : JIdx → State → State × Answer) : Handler := fun body s =>
  match bodyNats body with
  | [jb] =>
    match idx? 12 jb with
    | some j => f j s
    | none => refuse s .form
  | _ => refuse s .form

/-! ## REPAIR and REJOIN (R72, R73) -/

/-- R72, step 1: a STALLED entry is made WAITING with its retries reloaded. -/
def repairEntry (p : Plant) (n : EntryNo) : Plant :=
  if p.pool[n].status = .stalled then p.updEnt n fun x => { x with status := .waiting, retries := x.allowance } else p

/-- REPAIR JUNCTION (R72). -/
def repairJunction : Handler := onJunction fun j s =>
  if s.plant.jn[j].state = .solo .stall then
    (s.onPlant fun e p => (p.jn[j].chain.foldl repairEntry p).enterLocal e j, .done [])
  else refuse s .state

/-- REJOIN JUNCTION (R73). -/
def rejoinJunction : Handler := onJunction fun j s =>
  if s.plant.jn[j].state = .solo .plan then
    if s.plant.planFeasible j s.tb.c then (s.onPlant fun e p => p.enterLocal e j, .done []) else refuse s .infeasible
  else refuse s .state

/-! ## READ JUNCTION (R198, section 11.4) -/

/-- Bytes 0 to 15 of the READ JUNCTION answer. -/
def sequencerBytes (j : JIdx) (J : Junction) : List Byte :=
  [byte j.val, J.state.code, J.state.causeCode, J.substate.code] ++
    (match J.order with
      | some o => [byte o.stage.num, byte o.tag.val]
      | none => [0xFF, 0xFF]) ++
    [stageByte J.green, byte J.level, flagByte J.force, flagByte J.endPassed, flagByte J.callReached] ++
    be2 J.p ++ be2 J.span ++ [byte J.cycleCount]

/-- The eight bytes of plan values (bytes 16 to 23, and 25 to 32). -/
def planBytes (v : Plan) : List Byte :=
  [byte v.mult, byte v.offset, byte v.a, byte v.ext, byte v.hold, byte v.wait] ++ be2 v.stuck

/-- Bytes 24 to 32: the staged mark and the staged set's values. -/
def stagedPlanBytes : Option Plan → List Byte
  | none => [0, 0, 0, 0, 0, 0, 0, 0, 0]
  | some v => 1 :: planBytes v

/-- The context form, 7 bytes, with its position code. -/
def contextForm (pos : Byte) : Option Context → List Byte
  | none => [0, 0, 0, 0, 0, 0, 0]
  | some c => [pos, byte c.slot.val, byte c.entry.val] ++ be2 c.saved ++ [flagByte c.minReached, byte c.prior]

/-- R136: the resume allowance remaining while the top is a resumed entry. -/
def allowanceLeft (p : Plant) (j : JIdx) : Option Nat :=
  p.jn[j].allowance.map fun a => a - ((p.topEntry? j).bind fun x => x.elapsed).getD 0

/-- Bytes 33 to 48: the bottom and the top context, and the resume allowance remaining. A single record is the top record. -/
def contextBytes (p : Plant) (j : JIdx) : List Byte :=
  let st := p.jn[j].stack
  contextForm 1 st.tail.head? ++ contextForm 2 st.head? ++ tenths (allowanceLeft p j)

/-- Bytes 49 to 62. -/
def guardBytes (now : Nat) (G : Guard) : List Byte :=
  [flagByte G.settings.enable, byte G.settings.threshold, byte G.settings.flushLevel, byte G.settings.flushTime,
    flagByte G.staged.isSome, G.probe.code] ++
    (match G.probe with
      | .armed w => byte w.val :: tenths none
      | .measuring w start _ => byte w.val :: tenths (some (now - start))
      | .off => 0xFF :: tenths none
      | .done => 0xFF :: tenths none
      | .spilled => 0xFF :: tenths none) ++
    [G.result.byte] ++ be2 G.result.occupancy ++
    (match G.result with
      | .spilled _ f => f.place
      | .absent => [0xFF, 0xFF]
      | .done _ => [0xFF, 0xFF])

/-- The time since the last good report: FFFFh when absent, FFFEh at 6553.4 s or more. -/
def sinceBytes (now : Nat) : Option LastReport → List Byte
  | none => tenths none
  | some r => be2 (min (now - r.arrived) 0xFFFE)

/-- Bytes 63 to 97. Without a last good report its 29 bytes are 0 (assumption log 61). -/
def lineBytes (now : Nat) (l : Line) : List Byte :=
  [flagByte l.up, byte l.lastTag.val, modeCode l.mode] ++ sinceBytes now l.last ++
    match l.last with
    | none => List.replicate 30 0
    | some r => 1 :: (r.body ++ List.replicate 29 0).take 29

/-- The READ JUNCTION answer data, 98 bytes (section 11.4). -/
def junctionData (now : Nat) (p : Plant) (j : JIdx) : List Byte :=
  let J := p.jn[j]
  sequencerBytes j J ++ planBytes J.plan ++ stagedPlanBytes J.stagedPlan ++ contextBytes p j ++ guardBytes now J.guard ++
    lineBytes now J.line

/-- READ JUNCTION (R198). -/
def readJunction : Handler := onJunction fun j s => (s, .done (junctionData s.now s.plant j))

/-! ## MAP DETECTORS (R77) -/

/-- A function that carries a stage, by its code. -/
def stageFn (code : Nat) (st : Stage) : DetFn :=
  match code with
  | 1 => .call st
  | 2 => .extend st
  | _ => .callExtend st

/-- A detector's function from its code and stage byte: none where the stage is out of range (RANGE). -/
def detFn? (code st : Nat) : Option DetFn :=
  match code with
  | 0 => some .none
  | 4 => some .exitIn
  | 5 => some .exitOut
  | c => (Stage.ofNum? st).map (stageFn c)

/-- The 24 functions of a map body, each as far as its stage is in range. -/
def mapBody (fields : List Nat) : Vector (Option DetFn) 24 :=
  Vector.ofFn fun d : Fin 24 => detFn? (fields.getD (2 * d.val) 0) (fields.getD (2 * d.val + 1) 0)

/-- R77: function codes are defined. -/
def mapCodesDefined (fields : List Nat) : Bool :=
  (List.range 24).all fun d => decide (fields.getD (2 * d) 0 ≤ 5)

/-- R77: at most one EXIT_IN and at most one EXIT_OUT. -/
def exitsGood (m : Vector DetFn 24) : Bool :=
  decide (m.toList.countP (fun f => f == .exitIn) ≤ 1) && decide (m.toList.countP (fun f => f == .exitOut) ≤ 1)

/-- Applied-or-staged code (R199). -/
def appliedCode (staged : Bool) : Byte := if staged then 2 else 1

/-- R77: a checked map is staged or applied. -/
def takeMap (j : JIdx) (m : Vector DetFn 24) (s : State) : State × Answer :=
  if s.plant.jn[j].state.coordinated then
    ({ s with plant := s.plant.updDet j fun D => { D with stagedMap := some m } }, .done [appliedCode true])
  else (s.onPlant fun e p => p.applyMap e j m, .done [appliedCode false])

/-- MAP DETECTORS (R77). -/
def mapDetectors : Handler := fun body s =>
  match bodyNats body with
  | [] => refuse s .form
  | jb :: fields =>
    match idx? 12 jb with
    | none => refuse s .form
    | some j =>
      if fields.length ≠ 48 ∨ mapCodesDefined fields = false then refuse s .form
      else if (mapBody fields).toList.all Option.isSome then
        let m := (mapBody fields).map fun f => f.getD .none
        if exitsGood m then takeMap j m s else refuse s .range
      else refuse s .range

/-! ## READ DETECTORS (R89) -/

/-- A row of eight occupancy marks as a byte, bit b for detector 8k + b, as a REPORT carries it (assumption log 56). -/
def rowByte (rows : Vector Bool 24) (k : Nat) : Byte :=
  byte (bitsNat ((List.range 8).map fun b => rows.toList.getD (8 * k + b) false))

/-- A function and its stage, 0 for a function that carries none (assumption log 71). -/
def fnBytes (f : DetFn) : List Byte := [f.code, stageByte f.stage?]

/-- The READ DETECTORS answer data: the items of R89 in order (R201). -/
def detectorData (now : Nat) (D : Detectors) : List Byte :=
  [rowByte D.rows 0, rowByte D.rows 1, rowByte D.rows 2, flagByte D.rowsValid] ++ D.stuck.toList.map flagByte ++
    ((List.finRange 8).flatMap fun s => [flagByte D.flags[s], byte (D.holdCount s)]) ++
    D.gap.toList.flatMap (gapBytes now) ++ D.map.toList.flatMap fnBytes ++ [flagByte D.stagedMap.isSome]

/-- READ DETECTORS (R89). -/
def readDetectors : Handler := onJunction fun j s => (s, .done (detectorData s.now s.plant.jn[j].det))

/-! ## SET GUARD (R138) -/

/-- R138: checked settings are staged or applied. -/
def takeGuard (j : JIdx) (g : GuardSettings) (s : State) : State × Answer :=
  if s.plant.jn[j].state.coordinated then
    ({ s with plant := s.plant.upd j fun J => { J with guard := { J.guard with staged := some g } } },
      .done [appliedCode true])
  else ({ s with plant := s.plant.upd j fun J => J.applySettings g }, .done [appliedCode false])

/-- SET GUARD (R138). -/
def setGuard : Handler := fun body s =>
  match bodyNats body with
  | [jb, en, threshold, level, time] =>
    match idx? 12 jb, flag? en with
    | some j, some enable =>
      if within 5 60 threshold && within 1 15 level && within 5 30 time then
        takeGuard j { enable := enable, threshold := threshold, flushLevel := level, flushTime := time } s
      else refuse s .range
    | _, _ => refuse s .form
  | _ => refuse s .form

end State

/-! ## Meanings -/

/-- REPAIR_JUNCTION (R72). -/
def execRepairJunction (s : State) : Host.Outcome State Fault Refusal := .next (s.take 0x20 State.repairJunction)

/-- REJOIN_JUNCTION (R73). -/
def execRejoinJunction (s : State) : Host.Outcome State Fault Refusal := .next (s.take 0x21 State.rejoinJunction)

/-- READ_JUNCTION (R198). -/
def execReadJunction (s : State) : Host.Outcome State Fault Refusal := .next (s.take 0x22 State.readJunction)

/-- MAP_DETECTORS (R77). -/
def execMapDetectors (s : State) : Host.Outcome State Fault Refusal := .next (s.take 0x30 State.mapDetectors)

/-- READ_DETECTORS (R89). -/
def execReadDetectors (s : State) : Host.Outcome State Fault Refusal := .next (s.take 0x31 State.readDetectors)

/-- SET_GUARD (R138). -/
def execSetGuard (s : State) : Host.Outcome State Fault Refusal := .next (s.take 0x50 State.setGuard)

end Sys2Proof.Machine
end

