-- ==== Sys2Proof/Machine/Reports.lean ====
section
/-! DEFINITION. The directives of the report block: ARM, PAUSE and RESUME NOTICES, FETCH RECORDS and READ STATUS. -/

namespace Sys2Proof.Machine

open Sys2Proof

namespace State

/-! ## ARM, PAUSE and RESUME NOTICES (R192, R193) -/

/-- R192: arming or disarming a set of classes. -/
def armMarks (r : ReportBlock) (set : BitVec 8) (arm : Bool) : ReportBlock :=
  if arm then { r with armed := r.armed ||| set }
  else { r with armed := r.armed &&& ~~~set, pend := r.pend &&& ~~~set }

/-- ARM NOTICES (R192). -/
def armNotices : Handler := fun body s =>
  match body with
  | [set, act] =>
    match flag? act.toNat with
    | none => refuse s .form
    | some arm =>
      if set = 0 then refuse s .form
      else
        let r := armMarks s.report set arm
        ({ s with report := r }, .done r.marks)
  | _ => refuse s .form

/-- PAUSE NOTICES (R193). -/
def pauseNotices : Handler := fun body s =>
  match body with
  | [set] =>
    if set = 0 then refuse s .form
    else
      let r := { s.report with paused := s.report.paused ||| set }
      ({ s with report := r }, .done r.marks)
  | _ => refuse s .form

/-- RESUME NOTICES (R193): PAUSED is cleared; the CATCH-UPs follow the answer. -/
def resumeNotices : Handler := fun body s =>
  match body with
  | [set] =>
    if set = 0 then refuse s .form
    else
      let r := { s.report with paused := s.report.paused &&& ~~~set }
      ({ s with report := r }, .done r.marks)
  | _ => refuse s .form

/-- R191, R193: after the answer of a RESUME NOTICES, the CATCH-UP of each class of the set that is ARMED and PENDING is
queued, in class table order, while the queue has room. -/
def resumeCatchUps (body : List Byte) (s : State) : State :=
  match body with
  | [set] =>
    NoticeClass.all.foldl
      (fun s c => if hasClass set c && s.report.catchable c && s.host.room 0 then s.catchUp c else s) s
  | _ => s

/-! ## FETCH RECORDS (R196, section 11.4) -/

/-- A served item in 3 bytes. -/
def servedBytes (i : ServedItem) : List Byte :=
  ((byte i.stage.num <<< 4) ||| i.outcome.code) :: be2 i.duration

/-- Byte 12 of the cycle record form. -/
def recordFlags (accepts : Nat) (gap script : Bool) : Byte :=
  (byte accepts <<< 4) ||| (if gap then 2 else 0) ||| (if script then 1 else 0)

/-- The cycle record form, 14 to 56 bytes. -/
def recordForm (r : CycleRecord) : List Byte :=
  [byte r.junction.val, byte r.count] ++ todBytes r.tod ++ errorBytes r.tally.bandError ++ be2 r.tally.bandGreen ++
    [r.tally.probe.byte] ++ be2 r.tally.probe.occupancy ++
    [recordFlags r.tally.accepts r.gap r.tally.scriptStep, byte r.tally.served.length] ++
    r.tally.served.flatMap servedBytes

/-- FETCH RECORDS (R196): count left, number returned, the records oldest first. -/
def fetchRecords : Handler := fun body s =>
  match bodyNats body with
  | [n] =>
    if within 1 4 n then
      let r := ReportBlock.fetch n s.report
      ({ s with report := r.1 }, .done ([byte r.1.held, byte r.2.length] ++ r.2.flatMap recordForm))
    else refuse s .range
  | _ => refuse s .form

/-! ## READ STATUS (R197) -/

/-- R197: the staged mark of a junction. -/
def stagedMark (p : Plant) (j : JIdx) : Bool :=
  let J := p.jn[j]
  J.stagedPlan.isSome || (p.chainEntries j).any (fun x => x.staged.isSome) || J.guard.staged.isSome || J.det.stagedMap.isSome

/-- The READ STATUS answer data: the items of R197 in order (R201), state and cause side by side for each junction (assumption log 66),
the intake as two counts (assumption log 67). -/
def statusData (s : State) : List Byte :=
  [s.tb.corridor.code, s.tb.cause.code] ++ todBytes s.tb.tod ++ [byte s.tb.c] ++ be2 s.tb.m ++
    [s.tb.dir.code, flagByte s.tb.staged.isSome] ++
    ((List.finRange 12).map fun j => flagByte (stagedMark s.plant j)) ++
    ((List.finRange 12).flatMap fun j => [s.plant.jn[j].state.code, s.plant.jn[j].state.causeCode]) ++
    [byte s.script.notBefore.length] ++ maskBytes s.script.running ++ [byte s.report.held, flagByte s.report.gap] ++
    [byte s.plant.free.length, byte s.plant.hostTotal, byte s.plant.requestCount] ++ s.report.marks ++
    [byte s.host.frames, byte s.host.directives, byte s.host.busyMarks]

/-- READ STATUS (R197). -/
def readStatus : Handler := fun body s =>
  match body with
  | [] => (s, .done s.statusData)
  | _ => refuse s .form

end State

/-! ## Meanings -/

/-- ARM_NOTICES (R192). -/
def execArmNotices (s : State) : Host.Outcome State Fault Refusal := .next (s.take 0x70 State.armNotices)

/-- PAUSE_NOTICES (R193). -/
def execPauseNotices (s : State) : Host.Outcome State Fault Refusal := .next (s.take 0x71 State.pauseNotices)

/-- RESUME_NOTICES (R193). -/
def execResumeNotices (s : State) : Host.Outcome State Fault Refusal :=
  .next (s.takeThen 0x72 State.resumeNotices State.resumeCatchUps)

/-- FETCH_RECORDS (R196). -/
def execFetchRecords (s : State) : Host.Outcome State Fault Refusal := .next (s.take 0x73 State.fetchRecords)

/-- READ_STATUS (R197). -/
def execReadStatus (s : State) : Host.Outcome State Fault Refusal := .next (s.take 0x74 State.readStatus)

end Sys2Proof.Machine
end

