-- ==== Sys2Proof/Machine/Requests.lean ====
section
/-! DEFINITION. The directives of the priority arbiter: RAISE REQUEST, CANCEL REQUEST and READ REQUESTS. -/

namespace Sys2Proof.Machine

open Sys2Proof

namespace State

/-! ## RAISE REQUEST (R102) -/

/-- The state code a RAISE REQUEST answer gives for a slot. A request accepted and ended at its arrival (R125) is given as
ACTIVE (assumption log 32). -/
def raisedState (p : Plant) (slot : SlotNo) (key : Key) : Byte :=
  match p.req[slot] with
  | some r => if r.key = key then reqStateCode r.isActive else reqStateCode true
  | none => reqStateCode true

/-- The answer of a RAISE REQUEST that was taken: disposition, slot, state, and the key of a displaced record. -/
def raisedAnswer (s : State) (a : Arrival) (r : Plant × ArrivalResult) : State × Answer :=
  let s' := { s with plant := r.1 }
  match r.2 with
  | .call => (s', .done [1])
  | .new slot displaced =>
    (s', .done ([2, byte slot.val, raisedState r.1 slot a.key] ++
      match displaced with
      | some k => k.bytes
      | none => []))
  | .refreshed slot => (s', .done [3, byte slot.val, raisedState r.1 slot a.key])
  | .noState => refuse s .state
  | .full => refuse s .noRoom

/-- RAISE REQUEST (R102). -/
def raiseRequest : Handler := fun body s =>
  match bodyNats body with
  | [jb, id, level, ac, st, time, wait] =>
    match idx? 12 jb, Plant.actionOf? ac with
    | some j, some action =>
      match Stage.ofNum? st with
      | none => refuse s .range
      | some stage =>
        if id = 0 ∨ 16 < level then refuse s .range
        else if level ≠ 0 ∧ Plant.limitsGood level action time wait = false then refuse s .range
        else
          let a : Arrival :=
            { junction := j, source := .central, id := id, level := level, action := action, stage := stage, time := time,
              wait := wait }
          s.raisedAnswer a (s.plant.arrive s.env a)
    | _, _ => refuse s .form
  | _ => refuse s .form

/-! ## CANCEL REQUEST (R113) -/

/-- R113: a source id within the range of its kind. -/
def sourceIdGood : SourceKind → Nat → Bool
  | .unit, id => decide (id ≠ 0)
  | .central, id => decide (id ≠ 0)
  | .guard, id => decide (id ≤ 11)

/-- CANCEL REQUEST (R113): the answer carries the slot and the state the record held. -/
def cancelRequest : Handler := fun body s =>
  match bodyNats body with
  | [jb, sk, id] =>
    match idx? 12 jb, source? sk with
    | some j, some source =>
      if !sourceIdGood source id then refuse s .range
      else
        match s.plant.slotOf? { junction := j, source := source, id := id } with
        | none => refuse s .noSuch
        | some k =>
          (s.onPlant fun e p => p.endAndAttempt e k .cancelled,
            .done [byte k.val, reqStateCode ((s.plant.req[k]).any Request.isActive)])
    | _, _ => refuse s .form
  | _ => refuse s .form

/-! ## READ REQUESTS (R117, section 11.4) -/

/-- Bytes 14 and 15 of the request form. -/
def serviceLeft (now : Nat) : ServiceEnd → List Byte
  | .due t => be2 (left now t)
  | .notStarted => be2 0xFFFE
  | .untilCancelled => be2 0xFFFD

/-- The request form, 20 bytes. -/
def requestForm (now : Nat) (p : Plant) (k : SlotNo) (r : Request) : List Byte :=
  [byte k.val] ++ r.key.bytes ++
    [byte r.level, r.action.code, byte r.stage.num, byte r.time, byte r.wait, reqStateCode r.isActive,
      byte (p.arrivals.idxOf k)] ++
    match r.state with
    | .pending => tenths (some (left now (r.arrived + 10 * r.wait))) ++ [0] ++ tenths none ++ tenths none ++ tenths none
    | .active a =>
      tenths none ++ [byte (p.contextPos k)] ++ serviceLeft now a.svcEnd ++ tenths (some (left now a.holdEnd)) ++
        tenths (a.cap.map (left now))

/-- The occupied slots from a first slot upward. -/
def occupiedFrom (p : Plant) (first : Nat) : List (SlotNo × Request) :=
  (List.finRange 24).filterMap fun k => if first ≤ k.val then (p.req[k]).map fun r => (k, r) else none

/-- The READ REQUESTS answer data. -/
def requestData (now : Nat) (p : Plant) (first : Nat) : List Byte :=
  let rs := (occupiedFrom p first).take 12
  [byte p.requestCount, byte rs.length] ++ rs.flatMap fun x => requestForm now p x.1 x.2

/-- READ REQUESTS (R117). -/
def readRequests : Handler := fun body s =>
  match bodyNats body with
  | [first] => if 23 < first then refuse s .range else (s, .done (requestData s.now s.plant first))
  | _ => refuse s .form

end State

/-! ## Meanings -/

/-- RAISE_REQUEST (R102). -/
def execRaiseRequest (s : State) : Host.Outcome State Fault Refusal := .next (s.take 0x40 State.raiseRequest)

/-- CANCEL_REQUEST (R113). -/
def execCancelRequest (s : State) : Host.Outcome State Fault Refusal := .next (s.take 0x41 State.cancelRequest)

/-- READ_REQUESTS (R117). -/
def execReadRequests (s : State) : Host.Outcome State Fault Refusal := .next (s.take 0x42 State.readRequests)

end Sys2Proof.Machine
end

