-- ==== Sys2Proof/Machine/Scripts.lean ====
section
/-! DEFINITION. The directives of the script unit: LOAD STEP, CLOSE GROUP, DROP SCRIPTS and SCRIPT SPACE. -/

namespace Sys2Proof.Machine

open Sys2Proof

namespace State

/-! ## LOAD STEP (R150) -/

/-- A block's codes are defined (FORM): its kind, and the direction of a DIRECTION block. -/
def blockDefined (kind v : Nat) : Bool :=
  within 1 5 kind && (decide (kind ≠ 2) || (direction? v).isSome)

/-- A block kind belongs to the master queue (R149). -/
def masterKind (kind : Nat) : Bool := decide (kind ≤ 2)

/-- A block within its range at loading (R149). -/
def block? (kind v w : Nat) : Option Block :=
  match kind with
  | 1 => if within 40 200 v then some (.cycle v) else none
  | 2 => (direction? v).map .direction
  | 3 => if (signedByte v).natAbs ≤ 40 then some (.offset (signedByte v)) else none
  | 4 => if within 4 150 w then (Stage.ofNum? v).map fun st => .split st w else none
  | 5 => if within 5 60 v && within 5 30 w then some (.guard v w) else none
  | _ => none

/-- The blocks of a LOAD STEP body as (kind, value 1, value 2), if their number is the count carried (R200). -/
def blockTriples : Nat → List Nat → Option (List (Nat × Nat × Nat))
  | 0, [] => some []
  | n + 1, k :: v :: w :: rest => (blockTriples n rest).map fun ts => (k, v, w) :: ts
  | _, _ => none

/-- A queue is the junction queue of an ABSENT junction (R150). -/
def queueAbsent (p : Plant) (q : QueueNo) : Bool :=
  match idx? 12 q.val with
  | some j => p.jn[j].state == .absent
  | none => false

/-- R150: the checks of a step for a queue, after FORM. -/
def loadStep (s : State) (q : QueueNo) (hold : Nat) (ts : List (Nat × Nat × Nat)) : State × Answer :=
  if !within 1 63 hold then refuse s .range
  else if ts.any fun t => masterKind t.1 != decide (q = masterQueue) then refuse s .range
  else
    match ts.mapM fun t => block? t.1 t.2.1 t.2.2 with
    | none => refuse s .range
    | some blocks =>
      if queueAbsent s.plant q then refuse s .noSuch
      else if s.script.freeSlots = 0 then refuse s .noRoom
      else
        let pos := openSteps s.script.queues[q]
        let u := s.script.updQueue q fun items => items ++ [Item.step hold blocks]
        ({ s with script := u }, .done ([byte q.val, byte pos] ++ be2 u.freeSlots))

/-- LOAD STEP (R150). -/
def loadStepBody : Handler := fun body s =>
  match bodyNats body with
  | qb :: hold :: count :: rest =>
    if 6 < count then refuse s .form
    else
      match idx? 13 qb, blockTriples count rest with
      | some q, some ts =>
        if ts.all fun t => blockDefined t.1 t.2.1 then s.loadStep q hold ts else refuse s .form
      | _, _ => refuse s .form
  | _ => refuse s .form

/-! ## CLOSE GROUP, DROP SCRIPTS, SCRIPT SPACE (R151 to R153) -/

/-- R151: an end mark joins every queue. -/
def closeQueues (u : ScriptUnit) (notBefore : Option Nat) : ScriptUnit :=
  { u with queues := u.queues.map fun q => q ++ [.endMark], notBefore := u.notBefore ++ [notBefore] }

/-- CLOSE GROUP (R151). -/
def closeGroup : Handler := fun body s =>
  match bodyNats body with
  | [mark, a, b, c] =>
    match flag? mark with
    | none => refuse s .form
    | some m =>
      if m = true ∧ Config.day ≤ nat3 a b c then refuse s .range
      else if Config.waitingGroups ≤ s.script.notBefore.length ∨ s.script.freeSlots < 13 then refuse s .noRoom
      else
        let u := closeQueues s.script (if m then some (nat3 a b c) else none)
        ({ s with script := u }, .done (byte u.notBefore.length :: be2 u.freeSlots))
  | _ => refuse s .form

/-- DROP SCRIPTS (R152): the answer carries the groups dropped and the slots freed. -/
def dropScripts : Handler := fun body s =>
  match body with
  | [] =>
    let u := s.script.drop
    ({ s with script := u }, .done (byte s.script.notBefore.length :: be2 (s.script.held - u.held)))
  | _ => refuse s .form

/-- The SCRIPT SPACE answer data: the items of R153 in order (R201), the two counts of a queue side by side (assumption
log 59), the queues in ascending code (assumption log 69). -/
def scriptData (u : ScriptUnit) : List Byte :=
  be2 u.freeSlots ++ [byte u.notBefore.length, byte u.notBefore.length] ++ u.notBefore.flatMap todBytes ++
    maskBytes u.running ++
    (let marked := (List.finRange 13).filter fun q => u.running[q]
     byte marked.length :: marked.map fun q => byte u.hold[q]) ++
    u.queues.toList.flatMap fun q => be2 q.length ++ be2 (openSteps q)

/-- SCRIPT SPACE (R153). -/
def scriptSpace : Handler := fun body s =>
  match body with
  | [] => (s, .done (scriptData s.script))
  | _ => refuse s .form

end State

/-! ## Meanings -/

/-- LOAD_STEP (R150). -/
def execLoadStep (s : State) : Host.Outcome State Fault Refusal := .next (s.take 0x60 State.loadStepBody)

/-- CLOSE_GROUP (R151). -/
def execCloseGroup (s : State) : Host.Outcome State Fault Refusal := .next (s.take 0x61 State.closeGroup)

/-- DROP_SCRIPTS (R152). -/
def execDropScripts (s : State) : Host.Outcome State Fault Refusal := .next (s.take 0x62 State.dropScripts)

/-- SCRIPT_SPACE (R153). -/
def execScriptSpace (s : State) : Host.Outcome State Fault Refusal := .next (s.take 0x63 State.scriptSpace)

end Sys2Proof.Machine
end

