-- ==== Sys2Proof/Machine/Timebase.lean ====
section
/-! DEFINITION. The commands of the corridor timebase (chapter 1): the tick, master zero, the clock, and the directives
CONFIGURE CORRIDOR, CONFIGURE JUNCTION, RUN, STOP, RESTART and SET CLOCK. -/

namespace Sys2Proof.Machine

open Sys2Proof

namespace State

/-! ## Corridor state (R3) -/

/-- R3: a change of corridor state raises a CORRIDOR notice of kind STATE. -/
def setCorridorState (s : State) (c : CorridorState) : State :=
  if s.tb.corridor = c then s else { s with tb := { s.tb with corridor := c } }.raise (.corridorState c)

/-! ## CONFIGURE CORRIDOR (R6, R7) -/

/-- R6: the checks of CONFIGURE CORRIDOR against the values in force and staged. -/
def corridorCheck (s : State) (c : Nat) (wait : Nat) : Option Reason :=
  let p := s.plant
  let planFails (f : Plan → Bool) (j : JIdx) : Bool := f p.jn[j].plan || p.jn[j].stagedPlan.any f
  if !(within 40 200 c && within 5 255 wait) then some .range
  else if c % 2 = 1 ∧ (p.firstFailing (planFails fun v => v.mult == 2)).isSome = true then some .range
  else if (p.firstFailing fun j => planFails (fun v => decide (c ≤ v.offset * p.jn[j].plan.mult)) j).isSome then some .range
  else if (p.firstFailing fun j => !p.planFeasible j c).isSome then some .infeasible
  else none

/-- R7, R15, R12: a new C applied at once sets m to 0, realigns every present junction, and reaches a call point left behind. -/
def restartCycle (s : State) : State :=
  let s := { s with tb := { s.tb with m := 0 } }
  s.onPlant fun e p =>
    (List.finRange 12).foldl
      (fun p j => if p.jn[j].state.present then (p.upd j fun J => J.realign e.c e.m).bandCallPoint e j else p) p

/-- R6: the values take effect at once, in READY or DARK. -/
def applyCorridorNow (s : State) (v : CorridorSet) : State :=
  let changed := decide (s.tb.c ≠ v.c)
  let s := { s with tb := { s.tb with staged := none } }.applyCorridor v
  if changed then s.restartCycle else s

/-- CONFIGURE CORRIDOR (R6). -/
def configureCorridor : Handler := fun body s =>
  match bodyNats body with
  | [c, d, wait] =>
    match direction? d with
    | none => refuse s .form
    | some dir =>
      match s.corridorCheck c wait with
      | some r => refuse s r
      | none =>
        let v : CorridorSet := { c := c, dir := dir, wait := wait }
        if s.tb.corridor = .coordinating then ({ s with tb := { s.tb with staged := some v } }, .done [])
        else (s.applyCorridorNow v, .done [])
  | _ => refuse s .form

/-! ## CONFIGURE JUNCTION (R17, R46) -/

/-- R17: the ranges of the plan values. -/
def planInRange (v : Plan) : Bool :=
  within 1 2 v.mult && within 3 12 v.a && decide (v.ext ≤ 30) && within 30 240 v.hold && within 5 255 v.wait &&
    (decide (v.stuck = 0) || within 60 900 v.stuck)

/-- R17: multiple and offset against a C. -/
def planFits (v : Plan) (c : Nat) : Bool := !(v.mult == 2 && decide (c % 2 = 1)) && decide (v.offset * v.mult < c)

/-- R17: the checks of carried plan values: against the C in force and a staged C. -/
def planCheckFails (s : State) (v : Plan) : Bool :=
  !(planInRange v && planFits v s.tb.c && s.tb.staged.all fun g => planFits v g.c)

/-- R46, R137, R75, R174: the values of a junction made absent. What the rules do not name stays (assumption log 28), a staged junction
set that it still holds too (assumption log 80). -/
def absentValues (J : Junction) : Junction :=
  { Plant.leaveValues J with
    endDone := false
    callDone := false
    p := 0
    span := 0
    cycleCount := 0
    det := Detectors.coldWith J.det.map
    guard := { J.guard with staged := none, probe := .off }
    line := { J.line with waiting := none } }

/-- R17: a script queue holds a step other than an end mark. -/
def holdsStep (q : List Item) : Bool := q.any fun i => i != .endMark

/-- R17, R3, R46: CONFIGURE JUNCTION with the present flag clear. -/
def makeAbsent (s : State) (j : JIdx) : State × Answer :=
  if s.plant.jn[j].state = .absent then (s, .done [])
  else if s.tb.corridor = .coordinating then refuse s .state
  else if s.plant.jn[j].chain ≠ [] ∨ holdsStep s.script.queues[junctionQueue j] = true then refuse s .inUse
  else
    let plant := s.plant.upd j absentValues
    let last := !({ plant with jn := plant.jn.set j { plant.jn[j] with state := .absent } } : Plant).anyPresent
    let s := { s with plant := plant }
    let s := if last then s.setCorridorState .dark else s
    ({ s with plant := s.plant.setState j .absent }, .done [])

/-- R46, R11: a junction is made present with plan values, and settled. A band end or call point behind its p is still to come in that
cycle (assumption log 53). -/
def makePresent (s : State) (j : JIdx) (v : Plan) : State :=
  let s := if s.tb.corridor = .dark then s.setCorridorState .ready else s
  s.onPlant fun e p =>
    let p := p.upd j fun J =>
      { J with plan := v, stagedPlan := none, cycleCount := 0, endPassed := false, callReached := false, endDone := false
               callDone := false }.beginCycle e.c e.m
    ((p.sendRelease j).setState j (.loc .notRunning)).settle e j

/-- R17: plan values applied at once to a present junction; realigned if offset or multiple changes (R15), the call point
reached if it is left behind (R12), the stuck limit compared (R88), and the junction settled (R48). That the stuck limit comes first and
the settling last is the model's choice (assumption log 62). -/
def applyPlanNow (s : State) (j : JIdx) (v : Plan) : State :=
  s.onPlant fun e p =>
    let p := p.upd j fun J =>
      let J' := { J with plan := v, stagedPlan := none }
      if v.offset = J.plan.offset ∧ v.mult = J.plan.mult then J' else J'.realign e.c e.m
    ((p.applyStuckLimit e j).bandCallPoint e j).settle e j

/-- CONFIGURE JUNCTION (R17). -/
def configureJunction : Handler := fun body s =>
  match bodyNats body with
  | [jb, pf, mult, offset, a, ext, hold, wait, s1, s2] =>
    match idx? 12 jb, flag? pf with
    | some j, some false => s.makeAbsent j
    | some j, some true =>
      let v : Plan := { mult := mult, offset := offset, a := a, ext := ext, hold := hold, wait := wait, stuck := nat2 s1 s2 }
      if s.planCheckFails v then refuse s .range
      else
        match s.plant.jn[j].state with
        | .absent => (s.makePresent j v, .done [])
        | .joining => ({ s with plant := s.plant.upd j fun J => { J with stagedPlan := some v } }, .done [])
        | .inStep => ({ s with plant := s.plant.upd j fun J => { J with stagedPlan := some v } }, .done [])
        | .loc _ => (s.applyPlanNow j v, .done [])
        | .solo _ => (s.applyPlanNow j v, .done [])
    | _, _ => refuse s .form
  | _ => refuse s .form

/-! ## RUN and STOP (R4, R5, R49) -/

/-- R49: every LOCAL NOT_RUNNING junction is settled. -/
def settleNotRunning (s : State) : State :=
  s.onPlant fun e p =>
    (List.finRange 12).foldl (fun p j => if p.jn[j].state = .loc .notRunning then p.settle e j else p) p

/-- RUN (R4). -/
def run : Handler := fun body s =>
  match body with
  | [] =>
    if s.tb.corridor = .ready then ((s.setCorridorState .coordinating).settleNotRunning, .done []) else refuse s .state
  | _ => refuse s .form

/-- R49, R71: what STOP does to one junction. -/
def stopJunction (e : Env) (p : Plant) (j : JIdx) : Plant :=
  match p.jn[j].state with
  | .joining => (p.leave j).enterLocal e j
  | .inStep => (p.leave j).enterLocal e j
  | .loc .noBand => p.settle e j
  | _ => p

/-- R5, R116, R134: every request ends ABANDONED, and every coordinated junction leaves. -/
def stopPlant (s : State) : State :=
  s.onPlant fun e p =>
    let p := (List.finRange 24).foldl Plant.abandonSlot p
    (List.finRange 12).foldl (stopJunction e) p

/-- R165: a running group is abandoned. -/
def abandonGroup (s : State) : State :=
  if s.script.isRunning then { s with script := s.script.abandon }.raise (.scriptAbandoned s.script.running) else s

/-- STOP (R5). -/
def stop : Handler := fun body s =>
  match body with
  | [] =>
    if s.tb.corridor = .coordinating then ((s.setCorridorState .ready).stopPlant.abandonGroup, .done []) else refuse s .state
  | _ => refuse s .form

/-! ## RESTART and SET CLOCK (R21, R19) -/

/-- RESTART (R21, R188). -/
def restart : Handler := fun body s =>
  match body with
  | [] => ({ s with host := { s.host with restart := .answering } }, .done [])
  | _ => refuse s .form

/-- SET CLOCK (R19): the next advance comes 1.0 s later. -/
def setClock : Handler := fun body s =>
  match bodyNats body with
  | [a, b, c] =>
    if nat3 a b c < Config.day then
      ({ s with tb := { s.tb with tod := some (nat3 a b c), todDue := s.now + 10 } }, .done [])
    else refuse s .range
  | _ => refuse s .form

/-- R19: the time of day advances by one second, from 86399 to 0. It is due only after the tenth has passed, with the master zero work
that falls in it (assumption log 79). -/
def clockTick (s : State) : State :=
  match s.tb.tod with
  | none => s
  | some t =>
    if s.tb.todDue ≤ s.now then
      { s with tb := { s.tb with tod := some ((t + 1) % Config.day), todDue := s.tb.todDue + 10 } }
    else s

/-- The next tenth is a master zero (R1). -/
def wrapsNext (s : State) : Bool := decide (10 * s.tb.c ≤ s.tb.m + 1)

end State

/-! ## Meanings -/

/-- MASTER_POSITION_ADVANCE (R1). -/
def execMasterPositionAdvance (s : State) : Host.Outcome State Fault Refusal := .next s.tenth.finish

/-- MASTER_ZERO (R2): the tenth in which m wraps to 0. -/
def execMasterZero (s : State) : Host.Outcome State Fault Refusal := .next (if s.wrapsNext then s.tenth.finish else s)

/-- CLOCK_ADVANCE (R19). -/
def execClockAdvance (s : State) : Host.Outcome State Fault Refusal := .next s.clockTick

/-- CONFIGURE_CORRIDOR (R6). -/
def execConfigureCorridor (s : State) : Host.Outcome State Fault Refusal := .next (s.take 0x01 State.configureCorridor)

/-- CONFIGURE_JUNCTION (R17). -/
def execConfigureJunction (s : State) : Host.Outcome State Fault Refusal := .next (s.take 0x02 State.configureJunction)

/-- RUN (R4). -/
def execRun (s : State) : Host.Outcome State Fault Refusal := .next (s.take 0x03 State.run)

/-- STOP (R5). -/
def execStop (s : State) : Host.Outcome State Fault Refusal := .next (s.take 0x04 State.stop)

/-- RESTART (R21). -/
def execRestart (s : State) : Host.Outcome State Fault Refusal := .next (s.take 0x05 State.restart)

/-- SET_CLOCK (R19). -/
def execSetClock (s : State) : Host.Outcome State Fault Refusal := .next (s.take 0x06 State.setClock)

end Sys2Proof.Machine
end

