-- ==== Sys2Proof/Machine/Dispatch.lean ====
section
/-! DEFINITION. The meaning of each command. -/

namespace Sys2Proof.Machine

def exec (i : Instr) (s : State) : Host.Outcome State Fault Refusal :=
  match i with
  | .coldStart => Sys2Proof.Machine.execColdStart s
  | .warmStart => Sys2Proof.Machine.execWarmStart s
  | .directiveArrival bytes => Sys2Proof.Machine.execDirectiveArrival bytes s
  | .hostFrameDiscard bytes => Sys2Proof.Machine.execHostFrameDiscard bytes s
  | .hostByteGapExpiry => Sys2Proof.Machine.execHostByteGapExpiry s
  | .busyAnswer => Sys2Proof.Machine.execBusyAnswer s
  | .unknownDirective => Sys2Proof.Machine.execUnknownDirective s
  | .hostFrameSent => Sys2Proof.Machine.execHostFrameSent s
  | .configureCorridor => Sys2Proof.Machine.execConfigureCorridor s
  | .configureJunction => Sys2Proof.Machine.execConfigureJunction s
  | .run => Sys2Proof.Machine.execRun s
  | .stop => Sys2Proof.Machine.execStop s
  | .restart => Sys2Proof.Machine.execRestart s
  | .setClock => Sys2Proof.Machine.execSetClock s
  | .clockAdvance => Sys2Proof.Machine.execClockAdvance s
  | .masterZero => Sys2Proof.Machine.execMasterZero s
  | .localCycleStart j => Sys2Proof.Machine.execLocalCycleStart j s
  | .bandEndPoint j => Sys2Proof.Machine.execBandEndPoint j s
  | .bandCallPoint j => Sys2Proof.Machine.execBandCallPoint j s
  | .minimumExpiry j => Sys2Proof.Machine.execMinimumExpiry j s
  | .splitExpiry j => Sys2Proof.Machine.execSplitExpiry j s
  | .allowanceExpiry j => Sys2Proof.Machine.execAllowanceExpiry j s
  | .minimumWaitEnd j => Sys2Proof.Machine.execMinimumWaitEnd j s
  | .confirmTimeout j => Sys2Proof.Machine.execConfirmTimeout j s
  | .reportReceived j first bytes => Sys2Proof.Machine.execReportReceived j first bytes s
  | .waitExpiry slot => Sys2Proof.Machine.execWaitExpiry slot s
  | .serviceEnd slot => Sys2Proof.Machine.execServiceEnd slot s
  | .holdEnd slot => Sys2Proof.Machine.execHoldEnd slot s
  | .gapExpiry j stage => Sys2Proof.Machine.execGapExpiry j stage s
  | .stuckDetected j det => Sys2Proof.Machine.execStuckDetected j det s
  | .spillDue j => Sys2Proof.Machine.execSpillDue j s
  | .corridorFrameDiscard j first bytes => Sys2Proof.Machine.execCorridorFrameDiscard j first bytes s
  | .corridorByteGapExpiry j first => Sys2Proof.Machine.execCorridorByteGapExpiry j first s
  | .lineSilence j => Sys2Proof.Machine.execLineSilence j s
  | .corridorFrameSent j => Sys2Proof.Machine.execCorridorFrameSent j s
  | .keepDue j => Sys2Proof.Machine.execKeepDue j s
  | .releaseDue j => Sys2Proof.Machine.execReleaseDue j s
  | .appendEntry => Sys2Proof.Machine.execAppendEntry s
  | .insertEntry => Sys2Proof.Machine.execInsertEntry s
  | .amendEntry => Sys2Proof.Machine.execAmendEntry s
  | .removeEntry => Sys2Proof.Machine.execRemoveEntry s
  | .readChain => Sys2Proof.Machine.execReadChain s
  | .repairJunction => Sys2Proof.Machine.execRepairJunction s
  | .rejoinJunction => Sys2Proof.Machine.execRejoinJunction s
  | .readJunction => Sys2Proof.Machine.execReadJunction s
  | .mapDetectors => Sys2Proof.Machine.execMapDetectors s
  | .readDetectors => Sys2Proof.Machine.execReadDetectors s
  | .raiseRequest => Sys2Proof.Machine.execRaiseRequest s
  | .cancelRequest => Sys2Proof.Machine.execCancelRequest s
  | .readRequests => Sys2Proof.Machine.execReadRequests s
  | .setGuard => Sys2Proof.Machine.execSetGuard s
  | .loadStep => Sys2Proof.Machine.execLoadStep s
  | .closeGroup => Sys2Proof.Machine.execCloseGroup s
  | .dropScripts => Sys2Proof.Machine.execDropScripts s
  | .scriptSpace => Sys2Proof.Machine.execScriptSpace s
  | .armNotices => Sys2Proof.Machine.execArmNotices s
  | .pauseNotices => Sys2Proof.Machine.execPauseNotices s
  | .resumeNotices => Sys2Proof.Machine.execResumeNotices s
  | .fetchRecords => Sys2Proof.Machine.execFetchRecords s
  | .readStatus => Sys2Proof.Machine.execReadStatus s
  | .masterPositionAdvance => Sys2Proof.Machine.execMasterPositionAdvance s

end Sys2Proof.Machine
end

