-- ==== Sys2Proof/Safety.lean ====
section
/-! DEFINITION. What is meant by a sound state: the invariants that every step keeps, and the words in which the statements of
Certificates/Slice0/Obligations.lean speak of a directive and its answer. -/

namespace Sys2Proof.Machine

open Sys2Proof

/-! ## Between commands -/

/-- No notice of an earlier command still waits to be offered (R190), and an idle line has no frame to choose (R187): it has none to
send, the RESTART answer has left, or an item of the intake is taken first (R185, `HostPort.itemFirst`). -/
def State.Settled (s : State) : Prop := s.plant.raised = [] ∧ s.host.choose = s.host

/-! ## Cycle record queue (R195) -/

/-- Every slot from the read position up to the write position holds a record. -/
def ReportBlock.Whole (r : ReportBlock) : Prop :=
  ∀ i : Nat, i < r.held → (r.slots[(r.rd.val + i) % 48]'(Nat.mod_lt _ (by decide))).isSome = true

/-! ## Capacities and ranges -/

/-- A script block carries values within the ranges at loading (R149). -/
def Block.inRange : Block → Bool
  | .cycle c => within 40 200 c
  | .direction _ => true
  | .offset o => decide (o.natAbs ≤ 40)
  | .split _ v => within 4 150 v
  | .guard threshold time => within 5 60 threshold && within 5 30 time

/-- A step carries a hold of 1 to 63 and at most 6 blocks, each in range (R149). -/
def Item.inRange : Item → Bool
  | .step hold blocks => within 1 63 hold && decide (blocks.length ≤ 6) && blocks.all Block.inRange
  | .endMark => true

/-- The timebase keeps its ranges (section 1.1): C, staged C, m and the time of day. -/
def Timebase.InRange (t : Timebase) : Prop :=
  40 ≤ t.c ∧ t.c ≤ 200 ∧ t.m < 10 * t.c ∧ (∀ d, t.tod = some d → d < Config.day) ∧
    ∀ v, t.staged = some v → 40 ≤ v.c ∧ v.c ≤ 200

/-- The script unit keeps its ranges and capacities (R148, R149): its steps are in range, the store holds at most 256 items, at most
4 groups wait, and no hold counter passes 63. -/
structure ScriptUnit.InRange (u : ScriptUnit) : Prop where
  items : ∀ q : QueueNo, ∀ i ∈ u.queues[q], i.inRange = true
  store : u.held ≤ Config.scriptSlots
  waiting : u.notBefore.length ≤ Config.waitingGroups
  counters : ∀ q : QueueNo, u.hold[q] ≤ 63

/-- The host port keeps its capacities (R184, R187). -/
def HostPort.InRange (h : HostPort) : Prop :=
  h.frames ≤ Config.outgoing ∧ h.directives ≤ Config.intakeDirectives ∧ h.busyMarks ≤ Config.intakeBusy

/-- The ranges and capacities that no step leaves. -/
def State.InRange (s : State) : Prop := s.tb.InRange ∧ s.script.InRange ∧ s.host.InRange ∧ s.report.Whole

/-! ## The pool (R24) -/

/-- The entry numbers of the free list and of the twelve chains, one after another. -/
def Plant.entries (p : Plant) : List EntryNo := p.free ++ p.jn.toList.flatMap Junction.chain

/-- R24: each of the 128 entries is on the free list or in exactly one chain, once. -/
def Plant.PoolWhole (p : Plant) : Prop := p.entries.Perm (List.finRange 128)

/-! ## Directives and answers -/

/-- The directive the part would take next, with room for its answer (R185); no notice of an earlier command waits. -/
structure State.Takes (s : State) (tag code : Byte) (body : List Byte) : Prop where
  head : s.host.intake.head? = some (.directive tag code body)
  room : s.host.frames < 16
  free : s.host.restart = .none
  quiet : s.plant.raised = []

/-- The answers not yet sent, in the order in which they leave (R187). -/
def HostPort.answers (h : HostPort) : List OutFrame := (h.leaving.toList ++ h.queue).filter fun f => f.kind == .answer

/-- The notices not yet sent, in the order in which they leave (R187). -/
def HostPort.notices (h : HostPort) : List OutFrame := (h.leaving.toList ++ h.queue).filter fun f => f.kind == .notice

/-- The host port once the head directive has been answered and no notice was raised: the head has left the intake, the answer
stands behind the frames queued before it, and an idle line has taken its next frame, where no further item is taken first. -/
def HostPort.replied (h : HostPort) (tag code : Byte) (body : List Byte) : HostPort :=
  HostPort.choose { h with intake := h.intake.tail, queue := h.queue ++ [answerFrame tag code body] }

/-- The head directive has left the intake and its answer is the last of the answers not yet sent. -/
structure State.Answered (s t : State) (tag code : Byte) (body : List Byte) : Prop where
  intake : t.host.intake = s.host.intake.tail
  answers : t.host.answers = s.host.answers ++ [answerFrame tag code body]
  rx : t.host.rx = s.host.rx

/-- The directive codes of the rows that take a directive (R200). -/
def directiveCode : Instr → Option Byte
  | .configureCorridor => some 0x01
  | .configureJunction => some 0x02
  | .run => some 0x03
  | .stop => some 0x04
  | .restart => some 0x05
  | .setClock => some 0x06
  | .appendEntry => some 0x10
  | .insertEntry => some 0x11
  | .amendEntry => some 0x12
  | .removeEntry => some 0x13
  | .readChain => some 0x14
  | .repairJunction => some 0x20
  | .rejoinJunction => some 0x21
  | .readJunction => some 0x22
  | .mapDetectors => some 0x30
  | .readDetectors => some 0x31
  | .raiseRequest => some 0x40
  | .cancelRequest => some 0x41
  | .readRequests => some 0x42
  | .setGuard => some 0x50
  | .loadStep => some 0x60
  | .closeGroup => some 0x61
  | .dropScripts => some 0x62
  | .scriptSpace => some 0x63
  | .armNotices => some 0x70
  | .pauseNotices => some 0x71
  | .resumeNotices => some 0x72
  | .fetchRecords => some 0x73
  | .readStatus => some 0x74
  | _ => none

/-- The body length of a directive by the table of R200; that of LOAD STEP depends on the block count it carries. -/
def bodyLength (c : Instr) (body : List Byte) : Nat :=
  match c with
  | .configureCorridor | .setClock | .cancelRequest => 3
  | .configureJunction | .appendEntry => 10
  | .insertEntry => 8
  | .amendEntry => 9
  | .removeEntry | .readChain | .armNotices => 2
  | .repairJunction | .rejoinJunction | .readJunction | .readDetectors | .readRequests | .pauseNotices | .resumeNotices
  | .fetchRecords => 1
  | .mapDetectors => 49
  | .raiseRequest => 7
  | .setGuard => 5
  | .loadStep => 3 + 3 * (body.getD 2 0).toNat
  | .closeGroup => 4
  | _ => 0

/-! ## Requests and chains -/

/-- No PENDING request of a junction waits for acceptance (R105 has no candidate). -/
def Plant.NoCandidate (p : Plant) (j : JIdx) : Prop :=
  ∀ k : SlotNo, ∀ r, p.req[k] = some r → r.junction = j → r.isActive = true

/-- No PENDING request of a junction waits for acceptance but, perhaps, the one in a slot. -/
def Plant.NoCandidateBut (p : Plant) (j : JIdx) (k : SlotNo) : Prop :=
  ∀ i : SlotNo, i ≠ k → ∀ r, p.req[i] = some r → r.junction = j → r.isActive = true

/-- Every junction but one is as it was. -/
def Plant.OthersSame (p q : Plant) (j : JIdx) : Prop := ∀ i : JIdx, i ≠ j → q.jn[i] = p.jn[i]

/-- Every entry record but those of a list is as it was. -/
def Plant.EntriesSame (p q : Plant) (ns : List EntryNo) : Prop := ∀ i : EntryNo, i ∉ ns → q.pool[i] = p.pool[i]

/-- Everything of the state but the plant is as it was. -/
structure State.PlantOnly (s t : State) : Prop where
  now : t.now = s.now
  tb : t.tb = s.tb
  script : t.script = s.script
  host : t.host = s.host
  report : t.report = s.report
  pending : t.pending = s.pending

/-- What no event of a junction, a slot or a line touches: all but the plant, the frames to the host and the PENDING marks. -/
structure State.EventFrame (s t : State) : Prop where
  now : t.now = s.now
  tb : t.tb = s.tb
  script : t.script = s.script
  rx : t.host.rx = s.host.rx
  intake : t.host.intake = s.host.intake
  restart : t.host.restart = s.host.restart
  answers : t.host.answers = s.host.answers
  armed : t.report.armed = s.report.armed
  paused : t.report.paused = s.report.paused
  slots : t.report.slots = s.report.slots
  wr : t.report.wr = s.report.wr
  rd : t.report.rd = s.report.rd
  gap : t.report.gap = s.report.gap
  pending : t.pending = s.pending

/-- A junction IN_STEP at level 0 with no order in flight is serving entry n, a RECURRING host SIDE entry at the top; behind it
stands m, which a walk or a force-off takes up next with an ORDER. No request waits there. -/
structure State.Turning (s : State) (j : JIdx) (n m : EntryNo) (rest : List EntryNo) : Prop where
  settled : s.Settled
  chain : s.plant.jn[j].chain = n :: m :: rest
  distinct : n ≠ m
  inStep : s.plant.jn[j].state = .inStep
  level : s.plant.jn[j].level = 0
  idle : s.plant.jn[j].order = none
  side : s.plant.pool[n].role = .side
  recurring : s.plant.pool[n].kind = .recurring
  origin : s.plant.pool[n].origin = .host
  serving : s.plant.pool[n].status = .serving
  servable : s.plant.pool[m].role = .band ∨ s.plant.pool[m].demand = .recall
  fresh : s.plant.jn[j].green ≠ some s.plant.pool[m].stage
  noRequest : s.plant.NoCandidate j

/-- The top n has ended with an outcome and stands at the tail, and the stage of m is ordered with the next tag (R27, R51,
R176). -/
structure State.Turned (s t : State) (j : JIdx) (n m : EntryNo) (rest : List EntryNo) (out : EntryOutcome) : Prop where
  only : s.PlantOnly t
  chain : t.plant.jn[j].chain = m :: (rest ++ [n])
  ended : t.plant.pool[n] =
    { s.plant.pool[n] with status := .waiting, elapsed := none, outcome := out, retries := s.plant.pool[n].allowance
                           error := .none }
  entries : s.plant.EntriesSame t.plant [n]
  order : t.plant.jn[j].order =
    some { entry := m, live := true, stage := s.plant.pool[m].stage, tag := s.plant.jn[j].line.lastTag + 1, deadline := none }
  tag : t.plant.jn[j].line.lastTag = s.plant.jn[j].line.lastTag + 1
  green : t.plant.jn[j].green = none
  gap : t.plant.jn[j].det.gap = s.plant.jn[j].det.gap.set s.plant.pool[n].stage .stopped
  served : t.plant.jn[j].tally.served =
    (s.plant.jn[j].tally.addServed
      { stage := s.plant.pool[n].stage, outcome := out, duration := s.plant.pool[n].elapsed.getD 0 }).served
  state : t.plant.jn[j].state = .inStep
  level : t.plant.jn[j].level = 0
  stack : t.plant.jn[j].stack = s.plant.jn[j].stack
  others : s.plant.OthersSame t.plant j
  free : t.plant.free = s.plant.free
  req : t.plant.req = s.plant.req

/-! ## Ends of requests -/

/-- What a refresh with a service time, arrived at a moment, makes of an ACTIVE record r with the values x (R99). A service end that is
UNTIL_CANCELLED before the service has started goes back to NOT_STARTED (the model's choice, assumption log 24). -/
def Request.RefreshedTo (r : Request) (x : Active) (time moment : Nat) (q : Request) : Prop :=
  let ending (e : ServiceEnd) : Request := { r with time := time, state := .active { x with svcEnd := e } }
  (r.action = .extend ∧ time ≠ 0 ∧ ∃ cap, x.cap = some cap ∧ q = ending (.due (min (moment + 10 * time) cap))) ∨
  (r.action = .insert ∧ time ≠ 0 ∧ q = ending (if x.started then .due (moment + 10 * time) else .notStarted)) ∨
  (r.action = .insert ∧ r.level = 16 ∧ time = 0 ∧ q = ending .untilCancelled) ∨
  (time = 0 ∧ ¬(r.action = .insert ∧ r.level = 16) ∧ q = r)

/-- A command that ends the ACTIVE request r in slot k now, and the outcome: its service end, its hold end, or the CANCEL REQUEST of
its key (R109 to R111, R113). -/
def State.EndsBy (s : State) (k : SlotNo) (r : Request) (a : Active) (c : Instr) (out : ReqOutcome) : Prop :=
  (c = .serviceEnd k ∧ out = .served ∧ ∃ d, a.svcEnd = .due d ∧ d ≤ s.now) ∨
  (c = .holdEnd k ∧ out = .expired ∧ a.holdEnd ≤ s.now ∧ ∀ d, a.svcEnd = .due d → a.holdEnd < d) ∨
  (c = .cancelRequest ∧ out = .cancelled ∧ (∃ tag, s.Takes tag 0x41 [byte r.junction.val, r.source.code, byte r.id]) ∧
    r.id ≤ 255 ∧ (r.source ≠ .guard → 1 ≤ r.id) ∧ (r.source = .guard → r.id ≤ 11) ∧
    ∀ i : SlotNo, i ≠ k → ∀ q, s.plant.req[i] = some q → q.key ≠ r.key)

/-- The INSERT in slot k alone holds a junction: its service entry n is the top over the interrupted host entry h, which its context
record names, whether n is served, ordered or waits for the minimum of h. No other request waits there. -/
structure State.InsertOver (s : State) (j : JIdx) (k : SlotNo) (r : Request) (a : Active) (n h : EntryNo) (rest : List EntryNo)
    (ctx : Context) : Prop where
  quiet : s.plant.raised = []
  slot : s.plant.req[k] = some r
  junction : r.junction = j
  insert : r.action = .insert
  active : r.state = .active a
  inStep : s.plant.jn[j].state = .inStep
  stack : s.plant.jn[j].stack = [ctx]
  names : ctx.slot = k ∧ ctx.entry = h ∧ ctx.prior = 0
  chain : s.plant.jn[j].chain = n :: h :: rest
  distinct : (n :: h :: rest).Nodup
  service : s.plant.pool[n].origin = .service ∧ s.plant.pool[n].slot = some k ∧ s.plant.pool[n].notify = false
  host : s.plant.pool[h].origin = .host ∧ s.plant.pool[h].slot = none ∧ s.plant.pool[h].status = .waiting
  waits : s.plant.jn[j].minWait = none ∨ s.plant.jn[j].minWait = some h
  noRequest : s.plant.NoCandidateBut j k

/-- The request has left the table, its record the stack, and its service entry n the chain, so that h is the top (R112, R127). -/
structure State.Popped (s t : State) (j : JIdx) (k : SlotNo) (n : EntryNo) : Prop where
  req : t.plant.req = s.plant.req.set k none
  level : t.plant.jn[j].level = 0
  stack : t.plant.jn[j].stack = []
  free : t.plant.free = s.plant.free ++ [n]
  cleared : t.plant.pool[n] = Entry.clear
  minWait : t.plant.jn[j].minWait = none
  state : t.plant.jn[j].state = .inStep
  others : s.plant.OthersSame t.plant j
  tb : t.tb = s.tb
  script : t.script = s.script

/-- Behind the RECURRING entry h stand RECURRING SIDE entries up to the BAND entry b, whose stage is another than that of h. -/
structure State.BandBehind (s : State) (h b : EntryNo) (skipped behind : List EntryNo) : Prop where
  recurring : s.plant.pool[h].kind = .recurring
  sides : ∀ i ∈ skipped, s.plant.pool[i].role = .side ∧ s.plant.pool[i].kind = .recurring
  band : s.plant.pool[b].role = .band
  distinct : (h :: (skipped ++ b :: behind)).Nodup
  bound : (h :: (skipped ++ b :: behind)).length ≤ 16
  stage : s.plant.pool[b].stage ≠ s.plant.pool[h].stage

/-- The top h has ended FORCED, the entries up to the BAND entry b are passed, and the stage of b is ordered with the next tag (R64);
of the other entries only those of a list have changed. -/
structure State.ForcedOff (s t : State) (j : JIdx) (h b : EntryNo) (skipped behind more : List EntryNo) : Prop where
  chain : t.plant.jn[j].chain = b :: (behind ++ h :: skipped)
  ended : t.plant.pool[h] = { s.plant.pool[h] with
    status := .waiting, elapsed := none, outcome := .forced, retries := s.plant.pool[h].allowance, error := .none }
  passed : ∀ i ∈ skipped, t.plant.pool[i] = { s.plant.pool[i] with status := .waiting, elapsed := none, outcome := .passed }
  entries : s.plant.EntriesSame t.plant (more ++ h :: skipped)
  order : t.plant.jn[j].order =
    some { entry := b, live := true, stage := s.plant.pool[b].stage, tag := s.plant.jn[j].line.lastTag + 1, deadline := none }
  green : t.plant.jn[j].green = none
  force : t.plant.jn[j].force = false
  allowance : t.plant.jn[j].allowance = none
  resuming : t.plant.jn[j].resuming = none
  others : s.plant.OthersSame t.plant j

/-! ## Script blocks as they are loaded -/

/-- A block kind of the master queue (R149). -/
def Block.isMaster : Block → Bool
  | .cycle _ | .direction _ => true
  | .offset _ | .split _ _ | .guard _ _ => false

/-- The values of a block fit the bytes of a LOAD STEP body (R200). -/
def Block.fits : Block → Prop
  | .cycle c => c ≤ 255
  | .direction _ => True
  | .offset o => -128 ≤ o ∧ o ≤ 127
  | .split _ v => v ≤ 255
  | .guard threshold time => threshold ≤ 255 ∧ time ≤ 255

/-- The bytes of a block in a LOAD STEP body (R200): its kind and two values; a block with one value carries any second byte. -/
def Block.bytes (b : Block) (second : Byte) : List Byte :=
  match b with
  | .cycle c => [1, byte c, second]
  | .direction d => [2, d.code, second]
  | .offset o => [3, BitVec.ofInt 8 o, second]
  | .split st v => [4, byte (st.val + 1), byte v]
  | .guard threshold time => [5, byte threshold, byte time]

/-! ## Detector maps as they are sent -/

/-- The two bytes of a function in a MAP DETECTORS body (R199, R200): its code and its stage; a function that carries no stage has any
byte there. -/
def DetFn.mapBytes (f : DetFn) (spare : Byte) : List Byte :=
  match f with
  | .none => [0, spare]
  | .call st => [1, byte (st.val + 1)]
  | .extend st => [2, byte (st.val + 1)]
  | .callExtend st => [3, byte (st.val + 1)]
  | .exitIn => [4, spare]
  | .exitOut => [5, spare]

/-- The stage a function carries (R76). -/
def DetFn.carried : DetFn → Option Stage
  | .call st | .extend st | .callExtend st => some st
  | .none | .exitIn | .exitOut => Option.none

/-! ## The data of the reading answers, as section 11.4 and the lists of R89, R153 and R197 lay them out

Written from the tables, apart from the functions that form the answers; only the one-byte codes of R199 are shared, whose values
O32 states. -/

namespace Layout

/-- A 2-byte field (R199). -/
def two (v : Nat) : List Byte := [byte (v / 256), byte v]

/-- A flag or mark (R199). -/
def mark (b : Bool) : Byte := if b then 1 else 0

/-- A time in tenths, FFFFh when absent (R199). -/
def time : Option Nat → List Byte
  | some v => two v
  | none => [0xFF, 0xFF]

/-- A time of day, FFFFFFh when UNSET or absent (R199). -/
def clock : Option Nat → List Byte
  | some v => [byte (v / 65536), byte (v / 256), byte v]
  | none => [0xFF, 0xFF, 0xFF]

/-- A stage, 0 for none (R199). -/
def stage : Option Stage → Byte
  | some st => byte (st.val + 1)
  | none => 0

/-- An index in one byte, FFh when absent (R199). -/
def index : Option Nat → Byte
  | some v => byte v
  | none => 0xFF

/-- The mask of the queues whose running mark is set: bit q for queue q (R199). -/
def mask (running : Vector Bool 13) : Nat := ((List.finRange 13).map fun q => if running[q] then 2 ^ q.val else 0).sum

/-- A staged amendment in 7 bytes: its presence marks, bit 0 the split, and its values, 0 where the mark is clear. -/
def amendment : Option Amendment → List Byte
  | none => [0, 0, 0, 0, 0, 0, 0]
  | some a =>
    let bit (b : Bool) (v : Nat) : Nat := if b then v else 0
    [byte (bit a.split.isSome 1 + bit a.minimum.isSome 2 + bit a.passage.isSome 4 + bit a.demand.isSome 8 + bit a.notify.isSome 16 +
        bit a.allowance.isSome 32),
      byte (a.split.getD 0), byte (a.minimum.getD 0), byte (a.passage.getD 0), (a.demand.map Demand.code).getD 0,
      mark (a.notify = some true), byte (a.allowance.getD 0)]

/-- The entry form, 26 bytes. -/
def entry (n : EntryNo) (position : Nat) (x : Entry) : List Byte :=
  [byte n.val, byte position, stage (some x.stage), x.role.code, x.kind.code, x.origin.code, x.demand.code, byte x.minimum,
    byte x.split, byte x.passage, byte x.allowance, byte x.retries, mark x.notify, x.status.code, x.outcome.code, x.error.code] ++
    time x.elapsed ++ index (x.slot.map Fin.val) :: amendment x.staged

/-- The entries a READ CHAIN returns: those at the eight positions from the first on, as far as the chain reaches (R40). -/
def entries (p : Plant) (j : JIdx) (first : Nat) : List Byte :=
  (List.range 8).flatMap fun i =>
    match p.jn[j].chain[first + i]? with
    | some n => entry n (first + i) p.pool[n]
    | none => []

/-- The context form, 7 bytes, with its position code. -/
def context (position : Byte) (c : Context) : List Byte :=
  [position, byte c.slot.val, byte c.entry.val] ++ two c.saved ++ [mark c.minReached, byte c.prior]

/-- Bytes 33 to 46 of READ JUNCTION: the bottom position, then the top. -/
def contexts : List Context → List Byte
  | [] => List.replicate 14 0
  | [top] => List.replicate 7 0 ++ context 2 top
  | top :: bottom :: _ => context 1 bottom ++ context 2 top

/-- Eight bytes of plan values. -/
def plan (v : Plan) : List Byte :=
  [byte v.mult, byte v.offset, byte v.a, byte v.ext, byte v.hold, byte v.wait] ++ two v.stuck

/-- Bytes 54 to 57: the probe state, the watched detector and the time since the probe start. -/
def probe (now : Nat) : Probe → List Byte
  | .off => [0, 0xFF, 0xFF, 0xFF]
  | .armed w => [1, byte w.val, 0xFF, 0xFF]
  | .measuring w start _ => [2, byte w.val] ++ two (now - start)
  | .done => [3, 0xFF, 0xFF, 0xFF]
  | .spilled => [4, 0xFF, 0xFF, 0xFF]

/-- Bytes 58 to 62: the last result, its occupancy, and the place of a POSTED flush. -/
def result : ProbeResult → List Byte
  | .absent => [0, 0, 0, 0xFF, 0xFF]
  | .done occupancy => 0x40 :: two occupancy ++ [0xFF, 0xFF]
  | .spilled gate flush =>
    byte (128 + 16 * gate.code.toNat + 4 * flush.code.toNat) :: 0 :: 0 ::
      match flush with
      | .posted d k => [byte d.val, byte k.val]
      | .dropped | .flushNone => [0xFF, 0xFF]

/-- Bytes 66 to 97: the time since the last good report and its fields; a report that does not exist is sent as 0 (the model's choice,
assumption log 61). -/
def report (now : Nat) : Option LastReport → List Byte
  | none => [0xFF, 0xFF, 0] ++ List.replicate 29 0
  | some r => two (min (now - r.arrived) 65534) ++ 1 :: (List.range 29).map fun i => r.body.getD i 0

/-- The READ JUNCTION answer data, 98 bytes. -/
def junction (now : Nat) (p : Plant) (j : JIdx) : List Byte :=
  let J := p.jn[j]
  let topElapsed : Nat := match J.chain with
    | n :: _ => p.pool[n].elapsed.getD 0
    | [] => 0
  [byte j.val, J.state.code, J.state.causeCode,
    if J.order ≠ none then 1 else if J.state = .inStep then (if J.dwell then 3 else 2) else 0] ++
    (match J.order with
      | some o => [stage (some o.stage), byte o.tag.val]
      | none => [0xFF, 0xFF]) ++
    [stage J.green, byte J.level, mark J.force, mark J.endPassed, mark J.callReached] ++ two J.p ++ two J.span ++
    byte J.cycleCount :: plan J.plan ++
    (match J.stagedPlan with
      | some v => 1 :: plan v
      | none => List.replicate 9 0) ++
    contexts J.stack ++ time (J.allowance.map fun a => a - topElapsed) ++
    [mark J.guard.settings.enable, byte J.guard.settings.threshold, byte J.guard.settings.flushLevel,
      byte J.guard.settings.flushTime, mark J.guard.staged.isSome] ++
    probe now J.guard.probe ++ result J.guard.result ++
    [mark J.line.up, byte J.line.lastTag.val, match J.line.mode with
      | none => 0
      | some .coordReady => 1
      | some .localManual => 2
      | some .fault => 3] ++
    report now J.line.last

/-- A gap timer in 3 bytes. -/
def gap (now : Nat) : GapTimer → List Byte
  | .stopped => [0, 0xFF, 0xFF]
  | .running due => 1 :: two (due - now)
  | .expired => [2, 0xFF, 0xFF]

/-- The READ DETECTORS answer data, 117 bytes: the items of R89 in order (log 22). The rows are packed as a REPORT packs them (log 56),
and a function without a stage has the stage 0 (log 71). -/
def detectors (now : Nat) (D : Detectors) : List Byte :=
  ((List.range 3).map fun k =>
    byte ((List.range 8).map fun b => if D.rows.toList.getD (8 * k + b) false then 2 ^ b else 0).sum) ++
    mark D.rowsValid :: ((List.finRange 24).map fun d => mark D.stuck[d]) ++
    ((List.finRange 8).flatMap fun st => [mark D.flags[st],
      byte ((List.finRange 24).filter fun d => D.stuck[d] && D.map[d].carried == some st).length]) ++
    ((List.finRange 8).flatMap fun st => gap now D.gap[st]) ++
    ((List.finRange 24).flatMap fun d => [D.map[d].code, stage D.map[d].carried]) ++ [mark D.stagedMap.isSome]

/-- The request form, 20 bytes. -/
def request (now : Nat) (p : Plant) (k : SlotNo) (r : Request) : List Byte :=
  let stack := p.jn[r.junction].stack
  [byte k.val, byte r.junction.val, r.source.code, byte r.id, byte r.level, r.action.code, stage (some r.stage), byte r.time,
    byte r.wait] ++
    match r.state with
    | .pending => [1, byte (p.arrivals.idxOf k)] ++ two (r.arrived + 10 * r.wait - now) ++ [0] ++ List.replicate 6 0xFF
    | .active a =>
      [2, byte (p.arrivals.idxOf k), 0xFF, 0xFF,
        if stack.head?.any (fun c => c.slot == k) then 2 else if stack.any (fun c => c.slot == k) then 1 else 0] ++
        (match a.svcEnd with
          | .due t => two (t - now)
          | .notStarted => [0xFF, 0xFE]
          | .untilCancelled => [0xFF, 0xFD]) ++
        two (a.holdEnd - now) ++ time (a.cap.map fun t => t - now)

/-- The occupied slots of the request table, ascending. -/
def occupied (p : Plant) : List SlotNo := (List.finRange 24).filter fun k => p.req[k].isSome

/-- The READ REQUESTS answer data: up to 12 records from a first slot on. -/
def requests (now : Nat) (p : Plant) (first : Nat) : List Byte :=
  let shown := ((occupied p).filter fun k => first ≤ k.val).take 12
  byte (occupied p).length :: byte shown.length :: shown.flatMap fun k => (p.req[k].map (request now p k)).getD []

/-- The SCRIPT SPACE answer data: the items of R153 in order (log 22), the counts of a queue side by side (log 59), the queues in the
order of their codes (log 69). -/
def script (u : ScriptUnit) : List Byte :=
  let marked := (List.finRange 13).filter fun q => u.running[q]
  two (256 - ((List.finRange 13).map fun q => u.queues[q].length).sum) ++
    [byte u.notBefore.length, byte u.notBefore.length] ++ u.notBefore.flatMap clock ++ two (mask u.running) ++
    byte marked.length :: (marked.map fun q => byte u.hold[q]) ++
    (List.finRange 13).flatMap fun q =>
      two u.queues[q].length ++ two (u.queues[q].reverse.takeWhile fun i => i != .endMark).length

/-- The READ STATUS answer data: the items of R197 in order (log 22), state and cause of a junction side by side (log 66), the intake
without the directive itself as directives and BUSY marks (log 67), the frames without the place of the answer (log 23). -/
def status (s : State) : List Byte :=
  let directives := s.host.intake.tail.filter fun i => match i with
    | .directive _ _ _ => true
    | .busy _ _ => false
  [s.tb.corridor.code, s.tb.cause.code] ++ clock s.tb.tod ++ byte s.tb.c :: two s.tb.m ++ [s.tb.dir.code, mark s.tb.staged.isSome] ++
    ((List.finRange 12).map fun j => mark (decide (s.plant.jn[j].stagedPlan ≠ none ∨
      (∃ n ∈ s.plant.jn[j].chain, s.plant.pool[n].staged ≠ none) ∨ s.plant.jn[j].guard.staged ≠ none ∨
      s.plant.jn[j].det.stagedMap ≠ none))) ++
    ((List.finRange 12).flatMap fun j => [s.plant.jn[j].state.code, s.plant.jn[j].state.causeCode]) ++
    byte s.script.notBefore.length :: two (mask s.script.running) ++ [byte s.report.held, mark s.report.gap,
      byte s.plant.free.length,
      byte ((List.finRange 12).map fun j =>
        (s.plant.jn[j].chain.filter fun n => s.plant.pool[n].origin = .host).length).sum,
      byte (occupied s.plant).length, s.report.armed, s.report.paused, s.report.pend,
      byte (s.host.queue.length + s.host.leaving.toList.length), byte directives.length,
      byte (s.host.intake.tail.length - directives.length)]

/-- The READ CHAIN answer data: the counts of R40, then the entries. -/
def chain (p : Plant) (j : JIdx) (first : Nat) : List Byte :=
  let J := p.jn[j]
  [byte J.chain.length, byte (J.chain.filter fun n => p.pool[n].origin = .host).length,
    byte (J.chain.filter fun n => p.pool[n].origin = .service).length, byte J.completions.length, mark J.overflow,
    byte (min 8 (J.chain.length - first))] ++ entries p j first

end Layout

/-! ## Realigned spans -/

/-- R15: a span is the first, from a position on, that is at least half of a length and at which a zero is reached. -/
def CutsAt (len : Nat) (zero : Nat → Prop) (p span : Nat) : Prop :=
  p ≤ span ∧ len ≤ 2 * span ∧ zero span ∧ ∀ x, p ≤ x → x < span → len ≤ 2 * x → ¬zero x

/-! ## Reports -/

/-- A good report with certain request records meets the idle receiver of an UP line at a junction with valid rows that is not in
DWELL. -/
structure State.FreshReport (s : State) (j : JIdx) (body : List Byte) (records : List (List Byte)) : Prop where
  settled : s.Settled
  hunting : s.plant.jn[j].line.rx = []
  good : reportBodyGood body = true
  carries : reportRecords body = records
  up : s.plant.jn[j].line.up = true
  valid : s.plant.jn[j].det.rowsValid = true
  noDwell : s.plant.jn[j].dwell = false

/-- The same, with the rows received before: a report without edges (R79). -/
structure State.QuietReport (s : State) (j : JIdx) (body : List Byte) (records : List (List Byte)) : Prop
    extends s.FreshReport j body records where
  rows : s.plant.jn[j].det.rows = reportRows body

/-- A unit that stays COORD_READY and shows no lamp fault. -/
structure State.ReadyUnit (s : State) (j : JIdx) (body : List Byte) : Prop where
  before : s.plant.jn[j].line.mode = some .coordReady
  mode : reportMode body = .coordReady
  lamp : reportLamp body = false

/-- A report confirms the order in flight, which is that of the top (R52). -/
structure State.Confirms (s : State) (j : JIdx) (body : List Byte) (n : EntryNo) (rest : List EntryNo) : Prop where
  chain : s.plant.jn[j].chain = n :: rest
  order : ∃ tag deadline, s.plant.jn[j].order =
    some { entry := n, live := true, stage := s.plant.pool[n].stage, tag := tag, deadline := deadline } ∧
      reportTag body = tag.val
  green : reportGreen body = some s.plant.pool[n].stage

end Sys2Proof.Machine
end

