-- ==== Sys2Proof/Certificates/Slice0/Obligations.lean ====
section
/-! DEFINITION. The statements for the provers, in the order of OBLIGATIONS.json. -/

open Sys2Proof Sys2Proof.Machine

/-! ## The machine -/

/-- A step is the command at the front of the queue, done on the state with the queue's rest; on an empty queue the part idles (the
model's choice, assumption log 9). -/
def Obligations.StepRunsFrontCommand : Prop :=
  (∀ (c : Instr) (rest : List Instr) (s : State), step { s with pending := c :: rest } = exec c { s with pending := rest }) ∧
  (∀ s : State, s.pending = [] → step s = .next s)

/-- Every command, in every state, answers a next state and leaves the queue as it is: no fault and no refusal. That a command which is
not due, not at the head of the intake or ill-formed answers a next state too is the model's choice (assumption logs 2, 5 and 48), and
so is that a cold start keeps the queue (assumption log 51). -/
def Obligations.EveryCommandCompletes : Prop := ∀ (c : Instr) (s : State), ∃ t, exec c s = .next t ∧ t.pending = s.pending

/-- R20: a cold start makes the reset state, whatever the state before (the queue of commands, which is the model's, is kept: assumption
log 51); its values are written out (R20, R24, R45, R75, R91, R119, R137, R166, R168, R188, R189, R195). The values no rule gives, the
part time 0, the next clock advance 0 and no bytes on LRX, are the model's choices (assumption logs 1 and 86). -/
def Obligations.ColdStartResets : Prop :=
  (∀ s : State, exec .coldStart s = .next { State.reset with pending := s.pending }) ∧
  (State.reset.tb.corridor = .dark ∧ State.reset.tb.c = 90 ∧ State.reset.tb.m = 0 ∧ State.reset.tb.dir = .inbound ∧
     State.reset.tb.tod = none ∧ State.reset.tb.staged = none ∧ State.reset.tb.cause = .cold ∧
     State.reset.plant.free = List.finRange 128 ∧ State.reset.plant.arrivals = [] ∧
     (∀ k : SlotNo, State.reset.plant.req[k] = none) ∧
     (∀ j : JIdx,
       let J := State.reset.plant.jn[j]
       J.state = .absent ∧ J.chain = [] ∧ J.completions = [] ∧ J.overflow = false ∧ J.order = none ∧ J.green = none ∧
         J.level = 0 ∧ J.stack = [] ∧ J.force = false ∧ J.cycleCount = 0 ∧ J.stagedPlan = none ∧
         J.plan = { mult := 1, offset := 0, a := 5, ext := 10, hold := 120, wait := 60, stuck := 0 } ∧
         (∀ d : DetIdx, J.det.map[d] = .none ∧ J.det.rows[d] = false ∧ J.det.timers[d] = none ∧ J.det.stuck[d] = false) ∧
         J.det.stagedMap = none ∧ J.det.rowsValid = false ∧
         (∀ st : Stage, J.det.flags[st] = false ∧ J.det.gap[st] = .stopped ∧ J.det.holdCount st = 0) ∧
         J.guard.settings = { enable := false, threshold := 20, flushLevel := 6, flushTime := 10 } ∧
         J.guard.staged = none ∧ J.guard.probe = .off ∧ J.guard.result = .absent ∧
         J.line.up = false ∧ J.line.lastTag = 0 ∧ J.line.mode = none ∧ J.line.last = none ∧ J.line.silence = none ∧
         J.line.leaving = none ∧ J.line.waiting = none ∧ J.line.lastSent = none) ∧
     (∀ q : QueueNo, State.reset.script.queues[q] = [] ∧ State.reset.script.running[q] = false ∧
       State.reset.script.hold[q] = 0) ∧
     State.reset.script.notBefore = [] ∧
     State.reset.host.intake = [] ∧ State.reset.host.queue = [] ∧ State.reset.host.leaving = none ∧
     State.reset.host.restart = .none ∧
     State.reset.report.armed = 0 ∧ State.reset.report.paused = 0 ∧ State.reset.report.pend = 0 ∧
     State.reset.report.held = 0 ∧ State.reset.report.wr = 0 ∧ State.reset.report.rd = 0 ∧ State.reset.report.gap = false)

/-! ## Invariants -/

/-- After every step no notice waits to be offered and no idle line has a frame to choose (R190, R187): it has none to send, or it waits
for an item of the intake to be taken first (R185), or for the warm start (R188). -/
def Obligations.SettledIsKept : Prop := ∀ s t : State, s.Settled → step s = .next t → t.Settled

/-- No step leaves the ranges of the timebase, the ranges and capacities of the script store (steps with a hold of 1 to 63 and at most 6
blocks in range, 256 items, 4 waiting groups), the capacities of intake and outgoing queue, or leaves a hole in the cycle record queue
(section 1.1, R148, R149, R184, R187, R195). -/
def Obligations.RangesAreKept : Prop := ∀ s t : State, s.InRange → step s = .next t → t.InRange

/-- No step loses or doubles an entry of the pool (R24). -/
def Obligations.PoolStaysWhole : Prop := ∀ s t : State, s.plant.PoolWhole → step s = .next t → t.plant.PoolWhole

/-- The three invariants hold at reset. -/
def Obligations.InvariantsHoldAtReset : Prop :=
  State.reset.Settled ∧ State.reset.InRange ∧ State.reset.plant.PoolWhole

/-! ## Frames and encodings -/

/-- R182, R199, R203: the bytes of every frame the part sends, and the value of the check register over the bytes 31h to 39h. -/
def Obligations.SentFrameBytes : Prop :=
  ((∀ f : OutFrame, f.body.length ≤ 247 →
     let covered := byte (3 + f.body.length) :: (match f.kind with | .answer => 2 | .notice => 3) :: f.tag :: f.code :: f.body
     f.wire = 0xC5 :: covered ++ [((crc covered) >>> 8).setWidth 8, (crc covered).setWidth 8]) ∧
   (∀ (st : Stage) (tag : Tag),
     let covered : List Byte := [3, 1, byte (st.val + 1), byte tag.val]
     (LineFrame.order st tag).wire = 0x5A :: covered ++ [((crc covered) >>> 8).setWidth 8, (crc covered).setWidth 8]) ∧
   (∀ (st : Stage) (tag : Tag),
     let covered : List Byte := [3, 2, byte (st.val + 1), byte tag.val]
     (LineFrame.keep (some st) tag).wire = 0x5A :: covered ++ [((crc covered) >>> 8).setWidth 8, (crc covered).setWidth 8]) ∧
   (∀ tag : Tag,
     let covered : List Byte := [3, 2, 0, byte tag.val]
     (LineFrame.keep none tag).wire = 0x5A :: covered ++ [((crc covered) >>> 8).setWidth 8, (crc covered).setWidth 8]) ∧
   (let covered : List Byte := [1, 3]
    LineFrame.release.wire = 0x5A :: covered ++ [((crc covered) >>> 8).setWidth 8, (crc covered).setWidth 8])) ∧
  (crc [0x31, 0x32, 0x33, 0x34, 0x35, 0x36, 0x37, 0x38, 0x39] = 0x29B1#16)

/-- R169, R170, R182, R183, R203: the host receiver takes back every directive frame whole, and a corridor receiver every good report. -/
def Obligations.FramesAreReadBack : Prop :=
  (∀ (tag code : Byte) (body : List Byte), body.length ≤ 247 →
     receive hostForm [] (directiveWire tag code body) = ([1 :: tag :: code :: body], [])) ∧
  (∀ body : List Byte, reportBodyGood body = true → receive corridorForm [] (reportWire body) = ([4 :: body], []))

/-! ## Host line and intake -/

/-- R184, R188: a directive that arrives is kept while the intake holds fewer than 4, leaves a BUSY mark while it holds 4 and fewer
than 8 marks, and is discarded otherwise and while RESTART is in progress. -/
def Obligations.ArrivingDirectiveIsPlaced : Prop :=
  ∀ (s : State) (tag code : Byte) (body : List Byte), s.host.rx = [] → body.length ≤ 247 →
    (s.host.restart = .none → s.host.directives < 4 →
      exec (.directiveArrival (directiveWire tag code body)) s =
        .next { s with host := { s.host with intake := s.host.intake ++ [.directive tag code body] } }) ∧
    (s.host.restart = .none → s.host.directives = 4 → s.host.busyMarks < 8 →
      exec (.directiveArrival (directiveWire tag code body)) s =
        .next { s with host := { s.host with intake := s.host.intake ++ [.busy tag code] } }) ∧
    (s.host.restart ≠ .none ∨ (4 ≤ s.host.directives ∧ 8 ≤ s.host.busyMarks) →
      exec (.directiveArrival (directiveWire tag code body)) s = .next s)

/-- R183: a host frame with a length byte outside 3 to 250 or a wrong check is dropped without an answer, and a gap of more than 50 ms
discards the frame being assembled. -/
def Obligations.BadHostFrameIsDropped : Prop :=
  (∀ (s : State), s.host.rx = [] →
     (∀ n : Byte, n.toNat < 3 ∨ 250 < n.toNat → exec (.hostFrameDiscard [0xC5, n]) s = .next s) ∧
     (∀ (n : Byte) (payload : List Byte) (c1 c2 : Byte),
       3 ≤ n.toNat → n.toNat ≤ 250 → payload.length = n.toNat → be16 (crc (n :: payload)) ≠ [c1, c2] →
       (0xC5 : Byte) ∉ n :: (payload ++ [c1, c2]) →
       exec (.hostFrameDiscard (0xC5 :: n :: (payload ++ [c1, c2]))) s = .next s)) ∧
  (∀ (s : State) (got : List Byte), s.host.rx = 0xC5 :: got → (0xC5 : Byte) ∉ got →
     exec .hostByteGapExpiry s = .next { s with host := { s.host with rx := [] } })

/-- R185: a BUSY mark at the head is answered BUSY without a body, a directive with an undefined code REFUSED UNKNOWN. R200: a
body of another length than the table's, or a LOAD STEP with a block count above 6, is refused with FORM. -/
def Obligations.BusyUnknownAndMalformedAreAnswered : Prop :=
  (∀ (c : Instr) (s : State) (tag code : Byte) (body : List Byte), directiveCode c = some code → s.Takes tag code body →
    body.length ≠ bodyLength c body ∨ (c = .loadStep ∧ 6 < (body.getD 2 0).toNat) →
    exec c s = .next { s with host := s.host.replied tag code [2, 1] }) ∧
  ∀ (s : State) (tag code : Byte), s.host.frames < 16 → s.host.restart = .none →
    (s.host.intake.head? = some (.busy tag code) →
      exec .busyAnswer s = .next { s with host := s.host.replied tag code [] }) ∧
    (∀ body, s.host.intake.head? = some (.directive tag code body) →
      (∀ c : Instr, directiveCode c ≠ some code) →
      exec .unknownDirective s = .next { s with host := s.host.replied tag code [2, 9] })

/-- A directive's row acts only when its directive stands at the head of the intake, the outgoing queue has room, and no
RESTART is being answered (R185, R188; that the row then changes nothing is the model's choice, assumption log 5). -/
def Obligations.DirectiveRowsWaitTheirTurn : Prop :=
  ∀ (c : Instr) (code : Byte) (s : State), directiveCode c = some code →
    (∀ tag body, s.host.intake.head? ≠ some (.directive tag code body)) ∨ 16 ≤ s.host.frames ∨ s.host.restart ≠ .none →
    exec c s = .next s

/-- R187, R191: when a frame has left, the oldest answer goes next, else the oldest notice; when the queue becomes empty, each
ARMED, unpaused, PENDING class has its CATCH-UP queued, in the order of the class table. R185, with the worked burst of section 10.7: a
frame that leaves a full queue lets the item at the head of the intake be taken before the next frame is chosen, and its answer then
goes ahead of the 15 queued notices. That the line stands idle until the item's own command comes is the model's form (assumption
log 78). -/
def Obligations.NextFrameIsChosen : Prop :=
  (∀ (s : State) (f : OutFrame), s.host.leaving = some f → s.host.restart = .none →
    (∀ older g newer, s.host.queue = older ++ g :: newer → (∀ x ∈ older, x.kind = .notice) → g.kind = .answer →
      s.host.intake = [] ∨ s.host.queue.length ≠ 15 →
      exec .hostFrameSent s = .next { s with host := { s.host with leaving := some g, queue := older ++ newer } }) ∧
    (∀ g newer, s.host.queue = g :: newer → (∀ x ∈ g :: newer, x.kind = .notice) →
      s.host.intake = [] ∨ s.host.queue.length ≠ 15 →
      exec .hostFrameSent s = .next { s with host := { s.host with leaving := some g, queue := newer } }) ∧
    (s.host.intake ≠ [] → s.host.queue.length = 15 →
      exec .hostFrameSent s = .next { s with host := { s.host with leaving := none } }) ∧
    (s.host.queue = [] → ∃ t, exec .hostFrameSent s = .next t ∧
      t.host.leaving.toList ++ t.host.queue = (NoticeClass.all.filter s.report.catchable).map catchUpFrame ∧
      (∀ c : NoticeClass, hasClass t.report.pend c = (hasClass s.report.pend c && !s.report.catchable c)) ∧
      t.report.armed = s.report.armed ∧ t.report.paused = s.report.paused ∧ t.plant = s.plant ∧ t.tb = s.tb)) ∧
  (∀ s : State, s.host.leaving = none → s.host.restart = .none → s.host.queue.length = 15 →
    (∀ x ∈ s.host.queue, x.kind = .notice) →
    (∀ tag code rest, s.host.intake = .busy tag code :: rest →
      exec .busyAnswer s =
        .next { s with host := { s.host with intake := rest, leaving := some (answerFrame tag code []) } }) ∧
    (∀ tag code body rest, s.host.intake = .directive tag code body :: rest → (∀ c : Instr, directiveCode c ≠ some code) →
      exec .unknownDirective s =
        .next { s with host := { s.host with intake := rest, leaving := some (answerFrame tag code [2, 9]) } }) ∧
    (∀ (c : Instr) (tag code : Byte) (body : List Byte), directiveCode c = some code → s.Takes tag code body →
      ∃ (t : State) (answer : List Byte), exec c s = .next t ∧ t.host.leaving = some (answerFrame tag code answer) ∧
        t.host.queue = s.host.queue ∧ t.host.intake = s.host.intake.tail))

/-- R190: what becomes of a notice, by its class's marks and the outgoing queue's room, in which a place reserved for an answer
counts as a frame; several notices are offered one by one in the order they were raised. -/
def Obligations.NoticeIsOffered : Prop :=
  (∀ (s : State) (n : Notice) (reserved : Nat),
    (hasClass s.report.armed n.cls = false → s.offer reserved n = s) ∧
    (hasClass s.report.armed n.cls = true → hasClass s.report.paused n.cls = false → s.host.frames + reserved < 16 →
      s.offer reserved n = { s with host := { s.host with queue := s.host.queue ++ [noticeFrame n] } }) ∧
    (hasClass s.report.armed n.cls = true → hasClass s.report.paused n.cls = true ∨ 16 ≤ s.host.frames + reserved →
      s.offer reserved n = { s with report := { s.report with pend := s.report.pend ||| n.cls.mask } })) ∧
  (∀ (s : State) (reserved : Nat),
    (s.plant.raised = [] → s.offerAll reserved = s) ∧
    (∀ older n, s.plant.raised = older ++ [n] →
      s.offerAll reserved = (({ s with plant := { s.plant with raised := older } }).offerAll reserved).offer reserved n))

/-! ## Restart and starts -/

/-- R21, R188: RESTART is answered DONE, and with a body REFUSED FORM; once its answer has left, no further frame is chosen. -/
def Obligations.RestartIsAnsweredThenWaits : Prop :=
  (∀ (s : State) (tag : Byte), s.Takes tag 0x05 [] →
    exec .restart s =
      .next { s with host := ({ s.host with restart := .answering } : HostPort).replied tag 0x05 [1] }) ∧
  (∀ (s : State) (tag : Byte) (body : List Byte), body ≠ [] → s.Takes tag 0x05 body →
    exec .restart s = .next { s with host := s.host.replied tag 0x05 [2, 1] }) ∧
  (∀ (s : State) (tag : Byte), s.host.restart = .answering → s.host.leaving = some (answerFrame tag 0x05 [1]) →
    exec .hostFrameSent s = .next { s with host := { s.host with leaving := none, restart := .answerLeft } })

/-- R21, R42, R45, R91, R166, R168, R188, R189: the warm start that follows: READY or DARK, m 0, nothing staged; every present junction
LOCAL NOT_RUNNING at its regular position with its plan values, map and guard settings kept; requests, scripts, host port, records and
PENDING marks empty; ARMED and PAUSED kept. R42, second clause: in a whole pool every host entry stays in its chain, in order, with the
values of R42's table, and the service entries join the tail of the free list in chain order, junction 0 first. -/
def Obligations.WarmStartValues : Prop :=
  (∀ s : State, s.host.restart = .answerLeft → ∃ t, exec .warmStart s = .next t ∧
     t.tb = { s.tb with
       corridor := if ∃ j : JIdx, s.plant.jn[j].state ≠ .absent then .ready else .dark
       m := 0, staged := none, cause := .warm } ∧
     (∀ j : JIdx,
       let J := s.plant.jn[j]
       let K := t.plant.jn[j]
       K.plan = J.plan ∧ K.stagedPlan = none ∧ K.order = none ∧ K.green = none ∧ K.level = 0 ∧ K.stack = [] ∧
         K.force = false ∧ K.endPassed = false ∧ K.callReached = false ∧ K.completions = [] ∧ K.cycleCount = 0 ∧
         K.tally = .clear ∧ K.carried = none ∧ K.allowance = none ∧ K.det = Detectors.coldWith J.det.map ∧
         K.guard = { settings := J.guard.settings, staged := none, probe := .off, result := .absent } ∧
         K.line.up = false ∧ K.line.lastTag = J.line.lastTag ∧ K.line.mode = none ∧
         (J.state = .absent → K.state = .absent) ∧
         (J.state ≠ .absent → K.state = .loc .notRunning ∧ K.span = cycleTenths s.tb.c J.plan.mult ∧
           K.p = regularPos 0 J.plan.offset (cycleTenths s.tb.c J.plan.mult))) ∧
     (∀ k : SlotNo, t.plant.req[k] = none) ∧ t.plant.arrivals = [] ∧
     t.script = ScriptUnit.empty ∧ t.host = HostPort.empty ∧
     t.report.armed = s.report.armed ∧ t.report.paused = s.report.paused ∧ t.report.pend = 0 ∧ t.report.held = 0) ∧
  (∀ s : State, s.host.restart = .answerLeft → s.plant.PoolWhole → ∃ t, exec .warmStart s = .next t ∧
     (∀ j : JIdx, t.plant.jn[j].chain = s.plant.jn[j].chain.filter fun n => s.plant.pool[n].origin = .host) ∧
     (∀ j : JIdx, ∀ n ∈ s.plant.jn[j].chain,
       (s.plant.pool[n].origin = .host → t.plant.pool[n] =
         { s.plant.pool[n] with status := .waiting, retries := s.plant.pool[n].allowance, outcome := .none, error := .none
                                elapsed := none, staged := none }) ∧
       (s.plant.pool[n].origin = .service → t.plant.pool[n] = Entry.clear)) ∧
     t.plant.free = s.plant.free ++ (List.finRange 12).flatMap fun j =>
       s.plant.jn[j].chain.filter fun n => s.plant.pool[n].origin = .service)

/-! ## Timebase -/

/-- R19: SET CLOCK; the time of day advances by one each second, from 86399 to 0, and not while UNSET. -/
def Obligations.ClockIsSetAndAdvances : Prop :=
  (∀ (s : State) (tag : Byte) (body : List Byte), s.Takes tag 0x06 body →
     (∀ a b c : Byte, body = [a, b, c] → 65536 * a.toNat + 256 * b.toNat + c.toNat < 86400 →
       exec .setClock s = .next { s with
         tb := { s.tb with tod := some (65536 * a.toNat + 256 * b.toNat + c.toNat), todDue := s.now + 10 }
         host := s.host.replied tag 0x06 [1] }) ∧
     (∀ a b c : Byte, body = [a, b, c] → 86400 ≤ 65536 * a.toNat + 256 * b.toNat + c.toNat →
       exec .setClock s = .next { s with host := s.host.replied tag 0x06 [2, 2] }) ∧
     (body.length ≠ 3 → exec .setClock s = .next { s with host := s.host.replied tag 0x06 [2, 1] })) ∧
  (∀ s : State,
     (∀ d, s.tb.tod = some d → d < 86399 → s.tb.todDue ≤ s.now →
       exec .clockAdvance s = .next { s with tb := { s.tb with tod := some (d + 1), todDue := s.tb.todDue + 10 } }) ∧
     (s.tb.tod = some 86399 → s.tb.todDue ≤ s.now →
       exec .clockAdvance s = .next { s with tb := { s.tb with tod := some 0, todDue := s.tb.todDue + 10 } }) ∧
     (s.tb.tod = none ∨ s.now < s.tb.todDue → exec .clockAdvance s = .next s))

/-- R1, R11, R22: a tenth that does not reach master zero: m, the part time, every present junction's p and every SERVING
entry's elapsed (not past 150.0 s) go on by one; nothing else of the timebase, the chains, the table or the units changes. -/
def Obligations.TenthAdvances : Prop :=
  ∀ s : State, s.Settled → s.tb.m + 1 < 10 * s.tb.c → ∃ t, exec .masterPositionAdvance s = .next t ∧
    t.now = s.now + 1 ∧ t.tb = { s.tb with m := s.tb.m + 1 } ∧ t.script = s.script ∧ t.host = s.host ∧ t.report = s.report ∧
    t.pending = s.pending ∧ t.plant.free = s.plant.free ∧ t.plant.req = s.plant.req ∧ t.plant.arrivals = s.plant.arrivals ∧
    (∀ n : EntryNo,
      (s.plant.pool[n].status = .serving →
        t.plant.pool[n] = { s.plant.pool[n] with elapsed := some (min 1500 (s.plant.pool[n].elapsed.getD 0 + 1)) }) ∧
      (s.plant.pool[n].status ≠ .serving → t.plant.pool[n] = s.plant.pool[n])) ∧
    (∀ j : JIdx,
      (s.plant.jn[j].state = .absent → t.plant.jn[j] = s.plant.jn[j]) ∧
      (s.plant.jn[j].state ≠ .absent → s.plant.jn[j].minWait = none → t.plant.jn[j] =
        { s.plant.jn[j] with
          p := s.plant.jn[j].p + 1
          tally := { s.plant.jn[j].tally with
            bandGreen := s.plant.jn[j].tally.bandGreen +
              if ∃ n ∈ s.plant.jn[j].chain, s.plant.pool[n].role = .band ∧ s.plant.pool[n].status = .serving
              then 1 else 0 } }))

/-- R1, R2, R8, R10: at master zero m is 0 and a staged corridor set is applied whole if it passes the checks of R6 at every
present junction, and discarded whole otherwise. That MASTER_ZERO and a MASTER_POSITION_ADVANCE that wraps do the same work is the
model's reading (assumption log 3). -/
def Obligations.MasterZeroTakesStagedSet : Prop :=
  ∀ s : State, 10 * s.tb.c ≤ s.tb.m + 1 → s.script.notBefore = [] → s.script.running[masterQueue] = false →
    ∃ t, exec .masterZero s = .next t ∧ exec .masterPositionAdvance s = .next t ∧ t.tb.m = 0 ∧ t.now = s.now + 1 ∧
      t.tb.staged = none ∧ t.tb.corridor = s.tb.corridor ∧ t.tb.tod = s.tb.tod ∧
      (s.tb.staged = none → t.tb.c = s.tb.c ∧ t.tb.dir = s.tb.dir) ∧
      (∀ v, s.tb.staged = some v →
        let fails (j : JIdx) : Prop := s.plant.jn[j].state ≠ .absent ∧
          ((v.c % 2 = 1 ∧ s.plant.jn[j].plan.mult = 2) ∨ v.c ≤ s.plant.jn[j].plan.offset * s.plant.jn[j].plan.mult ∨
            v.c < feasibilitySum (s.plant.chainEntries j) s.plant.jn[j].plan.a * s.plant.jn[j].plan.mult)
        ((∀ j, ¬fails j) → t.tb.c = v.c ∧ t.tb.dir = v.dir ∧ ∀ j : JIdx, t.plant.jn[j].plan =
          if s.plant.jn[j].state = .absent then s.plant.jn[j].plan else { s.plant.jn[j].plan with wait := v.wait }) ∧
        ((∃ j, fails j) → t.tb.c = s.tb.c ∧ t.tb.dir = s.tb.dir ∧ ∀ j : JIdx, t.plant.jn[j].plan = s.plant.jn[j].plan))

/-- R6, R7: CONFIGURE CORRIDOR with values in range that the plan of every present junction allows, nothing being staged there: staged
while the corridor is COORDINATING; elsewhere applied at once, with m set to
0 if C changes. With C outside 40 to 200 s or a wait limit below 5 s it is refused with RANGE. Second clause: what an application at
once does at every present junction: the wait limit is written (R10), p is kept, and a changed C realigns the cycle in progress: its
span is the first at which (m - 10 x offset) mod 10L is 0 and the cycle is at least half of L long (R15). Third clause: the refusals for
a direction code not defined, an odd C under a multiple of 2, an offset, in force or staged, not below L, and an infeasible plan (R6). -/
def Obligations.CorridorIsConfigured : Prop :=
  (∀ (s : State) (tag c d w : Byte) (dir : Direction), s.Takes tag 0x01 [c, d, w] → dir.code = d →
     (40 ≤ c.toNat ∧ c.toNat ≤ 200 ∧ 5 ≤ w.toNat →
       (∀ j : JIdx, s.plant.jn[j].state ≠ .absent → s.plant.jn[j].stagedPlan = none ∧
         ¬(c.toNat % 2 = 1 ∧ s.plant.jn[j].plan.mult = 2) ∧
         s.plant.jn[j].plan.offset * s.plant.jn[j].plan.mult < c.toNat ∧
         feasibilitySum (s.plant.chainEntries j) s.plant.jn[j].plan.a * s.plant.jn[j].plan.mult ≤ c.toNat) →
       (s.tb.corridor = .coordinating → exec .configureCorridor s = .next { s with
         tb := { s.tb with staged := some { c := c.toNat, dir := dir, wait := w.toNat } }
         host := s.host.replied tag 0x01 [1] }) ∧
       (s.tb.corridor ≠ .coordinating → ∃ t, exec .configureCorridor s = .next t ∧ s.Answered t tag 0x01 [1] ∧
         t.tb = { s.tb with c := c.toNat, dir := dir, staged := none, m := if c.toNat = s.tb.c then s.tb.m else 0 } ∧
         t.script = s.script ∧ t.now = s.now)) ∧
     (¬(40 ≤ c.toNat ∧ c.toNat ≤ 200 ∧ 5 ≤ w.toNat) →
       exec .configureCorridor s = .next { s with host := s.host.replied tag 0x01 [2, 2] })) ∧
  (∀ (s : State) (tag c d w : Byte) (dir : Direction), s.Takes tag 0x01 [c, d, w] → dir.code = d → s.tb.corridor ≠ .coordinating →
     40 ≤ c.toNat ∧ c.toNat ≤ 200 ∧ 5 ≤ w.toNat →
     (∀ j : JIdx, s.plant.jn[j].state ≠ .absent → s.plant.jn[j].stagedPlan = none ∧ 1 ≤ s.plant.jn[j].plan.mult ∧
       s.plant.jn[j].plan.mult ≤ 2 ∧ ¬(c.toNat % 2 = 1 ∧ s.plant.jn[j].plan.mult = 2) ∧
       s.plant.jn[j].plan.offset * s.plant.jn[j].plan.mult < c.toNat ∧
       feasibilitySum (s.plant.chainEntries j) s.plant.jn[j].plan.a * s.plant.jn[j].plan.mult ≤ c.toNat) →
     ∃ t, exec .configureCorridor s = .next t ∧
       ∀ j : JIdx, s.plant.jn[j].state ≠ .absent →
         let J := s.plant.jn[j]
         let K := t.plant.jn[j]
         let len := 10 * (c.toNat / J.plan.mult)
         K.plan = { J.plan with wait := w.toNat } ∧ K.p = J.p ∧ (c.toNat = s.tb.c → K.span = J.span) ∧
           (c.toNat ≠ s.tb.c → CutsAt len (fun x => ((x : Int) - J.p - 10 * J.plan.offset) % len = 0) J.p K.span)) ∧
  (∀ (s : State) (tag c d w : Byte), s.Takes tag 0x01 [c, d, w] →
     (d ≠ 1 → d ≠ 2 → exec .configureCorridor s = .next { s with host := s.host.replied tag 0x01 [2, 1] }) ∧
     (d = 1 ∨ d = 2 → 40 ≤ c.toNat ∧ c.toNat ≤ 200 ∧ 5 ≤ w.toNat →
       let odd (v : Plan) : Prop := c.toNat % 2 = 1 ∧ v.mult = 2
       let late (mult : Nat) (v : Plan) : Prop := c.toNat ≤ v.offset * mult
       let unfit (j : JIdx) : Prop := odd s.plant.jn[j].plan ∨ late s.plant.jn[j].plan.mult s.plant.jn[j].plan ∨
         ∃ v, s.plant.jn[j].stagedPlan = some v ∧ (odd v ∨ late s.plant.jn[j].plan.mult v)
       ((∃ j : JIdx, s.plant.jn[j].state ≠ .absent ∧ unfit j) →
         exec .configureCorridor s = .next { s with host := s.host.replied tag 0x01 [2, 2] }) ∧
       ((∀ j : JIdx, s.plant.jn[j].state ≠ .absent → ¬unfit j) →
         (∃ j : JIdx, s.plant.jn[j].state ≠ .absent ∧
           c.toNat < feasibilitySum (s.plant.chainEntries j) s.plant.jn[j].plan.a * s.plant.jn[j].plan.mult) →
         exec .configureCorridor s = .next { s with host := s.host.replied tag 0x01 [2, 8] })))

/-- R17, R11, R46: CONFIGURE JUNCTION for an ABSENT junction makes it present, LOCAL NOT_RUNNING while the corridor does not
run; for a coordinated one it stages the values. Second clause: at a LOCAL or SOLO junction the values apply at once, any staged set is
discarded, p is kept, and a changed offset or multiple realigns the cycle in progress (R15). Third clause: a value outside its range, a
multiple of 2 under an odd C, in force or staged, or an offset not below L is refused with RANGE. -/
def Obligations.JunctionIsConfigured : Prop :=
  (∀ (s : State) (tag : Byte) (j : JIdx) (v : Plan) (s1 s2 : Byte),
     v.stuck = 256 * s1.toNat + s2.toNat → 1 ≤ v.mult → v.mult ≤ 2 → 3 ≤ v.a → v.a ≤ 12 → v.ext ≤ 30 → 30 ≤ v.hold →
     v.hold ≤ 240 → 5 ≤ v.wait → v.wait ≤ 255 → (v.stuck = 0 ∨ 60 ≤ v.stuck ∧ v.stuck ≤ 900) →
     v.offset * v.mult < s.tb.c → s.tb.c ≤ 200 → (v.mult = 2 → s.tb.c % 2 = 0) → s.tb.staged = none →
     s.Takes tag 0x02
       [byte j.val, 1, byte v.mult, byte v.offset, byte v.a, byte v.ext, byte v.hold, byte v.wait, s1, s2] →
     (s.plant.jn[j].state = .absent → s.tb.corridor ≠ .coordinating → s.plant.jn[j].line.mode = none →
       ∃ t, exec .configureJunction s = .next t ∧ s.Answered t tag 0x02 [1] ∧
         t.tb = { s.tb with corridor := .ready } ∧ t.plant.jn[j].state = .loc .notRunning ∧ t.plant.jn[j].plan = v ∧
         t.plant.jn[j].span = 10 * (s.tb.c / v.mult) ∧
         (t.plant.jn[j].p : Int) = ((s.tb.m : Int) - 10 * v.offset) % (10 * (s.tb.c / v.mult) : Nat) ∧
         s.plant.OthersSame t.plant j) ∧
     (s.plant.jn[j].state = .joining ∨ s.plant.jn[j].state = .inStep →
       exec .configureJunction s = .next { s with
         plant := s.plant.upd j fun J => { J with stagedPlan := some v }
         host := s.host.replied tag 0x02 [1] })) ∧
  (∀ (s : State) (tag : Byte) (j : JIdx) (v : Plan) (s1 s2 : Byte),
     v.stuck = 256 * s1.toNat + s2.toNat → 1 ≤ v.mult → v.mult ≤ 2 → 3 ≤ v.a → v.a ≤ 12 → v.ext ≤ 30 → 30 ≤ v.hold →
     v.hold ≤ 240 → 5 ≤ v.wait → v.wait ≤ 255 → (v.stuck = 0 ∨ 60 ≤ v.stuck ∧ v.stuck ≤ 900) →
     v.offset * v.mult < s.tb.c → s.tb.c ≤ 200 → (v.mult = 2 → s.tb.c % 2 = 0) →
     (∀ g, s.tb.staged = some g → v.offset * v.mult < g.c ∧ (v.mult = 2 → g.c % 2 = 0)) →
     s.Takes tag 0x02
       [byte j.val, 1, byte v.mult, byte v.offset, byte v.a, byte v.ext, byte v.hold, byte v.wait, s1, s2] →
     (∃ c, s.plant.jn[j].state = .solo c) ∨ ((∃ c, s.plant.jn[j].state = .loc c) ∧ s.tb.corridor ≠ .coordinating) →
     ∃ t, exec .configureJunction s = .next t ∧ s.Answered t tag 0x02 [1] ∧ t.tb = s.tb ∧
       t.plant.jn[j].plan = v ∧ t.plant.jn[j].stagedPlan = none ∧ t.plant.jn[j].p = s.plant.jn[j].p ∧
       (v.offset = s.plant.jn[j].plan.offset ∧ v.mult = s.plant.jn[j].plan.mult →
         t.plant.jn[j].span = s.plant.jn[j].span) ∧
       (v.offset ≠ s.plant.jn[j].plan.offset ∨ v.mult ≠ s.plant.jn[j].plan.mult →
         CutsAt (10 * (s.tb.c / v.mult))
           (fun x => ((s.tb.m : Int) + x - s.plant.jn[j].p - 10 * v.offset) % (10 * (s.tb.c / v.mult) : Nat) = 0)
           s.plant.jn[j].p t.plant.jn[j].span) ∧
       t.plant.jn[j].chain = s.plant.jn[j].chain ∧ t.plant.pool = s.plant.pool ∧ s.plant.OthersSame t.plant j) ∧
  (∀ (s : State) (tag : Byte) (j : JIdx) (mult offset a ext hold wait s1 s2 : Byte),
     s.Takes tag 0x02 [byte j.val, 1, mult, offset, a, ext, hold, wait, s1, s2] →
     let stuck := 256 * s1.toNat + s2.toNat
     let unfit (c : Nat) : Prop := (mult.toNat = 2 ∧ c % 2 = 1) ∨ c ≤ offset.toNat * mult.toNat
     ¬(1 ≤ mult.toNat ∧ mult.toNat ≤ 2 ∧ 3 ≤ a.toNat ∧ a.toNat ≤ 12 ∧ ext.toNat ≤ 30 ∧ 30 ≤ hold.toNat ∧ hold.toNat ≤ 240 ∧
         5 ≤ wait.toNat ∧ (stuck = 0 ∨ 60 ≤ stuck ∧ stuck ≤ 900)) ∨ unfit s.tb.c ∨
       (∃ g, s.tb.staged = some g ∧ unfit g.c) →
     exec .configureJunction s = .next { s with host := s.host.replied tag 0x02 [2, 2] })

/-- R3, R17: CONFIGURE JUNCTION with the present flag clear: refused with STATE while the corridor is COORDINATING, with IN_USE
while the chain holds an entry; an ABSENT junction is answered DONE without effect. -/
def Obligations.JunctionIsMadeAbsent : Prop :=
  ∀ (s : State) (tag : Byte) (j : JIdx) (a b c d e f g h : Byte),
    s.Takes tag 0x02 [byte j.val, 0, a, b, c, d, e, f, g, h] →
    (s.plant.jn[j].state = .absent →
      exec .configureJunction s = .next { s with host := s.host.replied tag 0x02 [1] }) ∧
    (s.plant.jn[j].state ≠ .absent → s.tb.corridor = .coordinating →
      exec .configureJunction s = .next { s with host := s.host.replied tag 0x02 [2, 3] }) ∧
    (s.plant.jn[j].state ≠ .absent → s.tb.corridor ≠ .coordinating → s.plant.jn[j].chain ≠ [] →
      exec .configureJunction s = .next { s with host := s.host.replied tag 0x02 [2, 6] }) ∧
    (s.plant.jn[j].state ≠ .absent → s.tb.corridor ≠ .coordinating → s.plant.jn[j].chain = [] →
      (∀ i ∈ s.script.queues[junctionQueue j], i = .endMark) →
      ∃ t, exec .configureJunction s = .next t ∧ s.Answered t tag 0x02 [1] ∧ t.plant.jn[j].state = .absent ∧
        t.plant.jn[j].plan = s.plant.jn[j].plan ∧ t.plant.jn[j].det.map = s.plant.jn[j].det.map ∧
        t.plant.jn[j].guard.settings = s.plant.jn[j].guard.settings ∧ s.plant.OthersSame t.plant j ∧
        t.tb.corridor = if ∀ i : JIdx, i ≠ j → s.plant.jn[i].state = .absent then .dark else s.tb.corridor)

/-- R4, R49, R47: RUN in READY; a LOCAL NOT_RUNNING junction is settled, every other junction keeps all it has. In DARK and
COORDINATING RUN is refused with STATE. -/
def Obligations.RunStartsCoordination : Prop :=
  ∀ (s : State) (tag : Byte), s.Takes tag 0x03 [] →
    (s.tb.corridor = .ready → ∃ t, exec .run s = .next t ∧ s.Answered t tag 0x03 [1] ∧
      t.tb = { s.tb with corridor := .coordinating } ∧ t.script = s.script ∧ t.plant.pool = s.plant.pool ∧
      t.plant.req = s.plant.req ∧
      ∀ j : JIdx,
        (s.plant.jn[j].state ≠ .loc .notRunning → t.plant.jn[j] = s.plant.jn[j]) ∧
        (s.plant.jn[j].state = .loc .notRunning →
          t.plant.jn[j].p = s.plant.jn[j].p ∧ t.plant.jn[j].span = s.plant.jn[j].span ∧
          t.plant.jn[j].plan = s.plant.jn[j].plan ∧ t.plant.jn[j].chain = s.plant.jn[j].chain ∧
          (s.plant.jn[j].line.mode = some .localManual → t.plant.jn[j].state = .loc .manual) ∧
          (s.plant.jn[j].line.mode = some .fault → t.plant.jn[j].state = .solo .unit) ∧
          (s.plant.jn[j].line.mode = none → t.plant.jn[j].state = .loc .noBand) ∧
          (s.plant.jn[j].line.mode = some .coordReady → t.plant.jn[j].state =
            if ((s.plant.chainEntries j).filter fun x => x.role == .band).length = 1 ∧
                feasibilitySum (s.plant.chainEntries j) s.plant.jn[j].plan.a * s.plant.jn[j].plan.mult ≤ s.tb.c ∧
                s.plant.jn[j].line.up = true
            then .joining else .loc .noBand))) ∧
    (s.tb.corridor ≠ .ready → exec .run s = .next { s with host := s.host.replied tag 0x03 [2, 3] })

/-- R5, R49, R116, R165: STOP in COORDINATING: the corridor is READY, every request has ended, a coordinated junction whose unit is ready
is LOCAL NOT_RUNNING with order, green, contexts, calls and probe cleared, and a running group is dropped; elsewhere STOP is refused
with STATE. -/
def Obligations.StopEndsCoordination : Prop :=
  ∀ (s : State) (tag : Byte), s.Takes tag 0x04 [] →
    (s.tb.corridor = .coordinating → ∃ t, exec .stop s = .next t ∧ s.Answered t tag 0x04 [1] ∧
      t.tb = { s.tb with corridor := .ready } ∧ (∀ k : SlotNo, t.plant.req[k] = none) ∧
      (∀ j : JIdx,
        (s.plant.jn[j].state.coordinated = true → s.plant.jn[j].line.mode = some .coordReady →
          t.plant.jn[j].state = .loc .notRunning ∧ t.plant.jn[j].order = none ∧ t.plant.jn[j].green = none ∧
          t.plant.jn[j].level = 0 ∧ t.plant.jn[j].stack = [] ∧ t.plant.jn[j].guard.probe = .off ∧
          (∀ st : Stage, t.plant.jn[j].det.flags[st] = false) ∧ t.plant.jn[j].plan = s.plant.jn[j].plan) ∧
        (∀ c, s.plant.jn[j].state = .solo c → t.plant.jn[j].state = .solo c) ∧
        (s.plant.jn[j].state = .loc .noBand → s.plant.jn[j].line.mode ≠ some .localManual →
          s.plant.jn[j].line.mode ≠ some .fault → t.plant.jn[j].state = .loc .notRunning)) ∧
      (∀ q : QueueNo, t.script.running[q] = false ∧
        t.script.queues[q] =
          if s.script.running[q] = true then dropGroup s.script.queues[q] else s.script.queues[q]) ∧
      t.script.notBefore = s.script.notBefore) ∧
    (s.tb.corridor ≠ .coordinating → exec .stop s = .next { s with host := s.host.replied tag 0x04 [2, 3] })

/-- R13: the band start error is p in the first half of the span and p less the span in the second, within half the span either way. -/
def Obligations.BandStartErrorIsSigned : Prop :=
  ∀ p span : Nat,
    (2 * p < span → bandStartError p span = (p : Int)) ∧
    (span ≤ 2 * p → bandStartError p span = (p : Int) - (span : Int)) ∧
    (p ≤ span → -(span : Int) ≤ 2 * bandStartError p span ∧ 2 * bandStartError p span ≤ span)

/-- R11, R66, R68, R194, R195: the local cycle start of an IN_STEP junction that serves its BAND entry, with nothing staged and
no script step due: the record of the cycle ended is stored, the count goes on, p is 0, the span is 10L, and the marks clear. That the
band start error is 0 for every BAND entry green at the start, held or not, is the model's reading (assumption log 37). Second clause: a
staged junction set is applied, or discarded if it does not fit the C in force (R18), the staged amendments, guard settings and map are
applied (R39, R139, R78), and the plan check then leaves a feasible plan IN_STEP and takes an infeasible one to SOLO PLAN (R67). When an
amendment sets the retries left is the model's reading (assumption log 42). That a junction which left coordination and is IN_STEP again
gives the record, and that a force waiting for a confirmation is dropped here, are the model's choices (assumption logs 73 and 76), and so
is the span of 10L where a realigned cycle ends off the zero of a new C (log 81). -/
def Obligations.CycleStartRecordsAndRestarts : Prop :=
  (∀ (s : State) (j : JIdx) (n : EntryNo) (rest : List EntryNo),
     s.plant.jn[j].state = .inStep → s.plant.jn[j].p = s.plant.jn[j].span → s.plant.jn[j].level = 0 →
     s.plant.jn[j].chain = n :: rest → s.plant.pool[n].role = .band → s.plant.pool[n].status = .serving →
     s.plant.jn[j].stagedPlan = none → (∀ i ∈ s.plant.jn[j].chain, s.plant.pool[i].staged = none) →
     s.plant.jn[j].guard.staged = none → s.plant.jn[j].det.stagedMap = none →
     s.script.running[junctionQueue j] = false → s.plant.NoCandidate j → s.plant.raised = [] →
     s.plant.planFeasible j s.tb.c = true → 10 * s.plant.jn[j].plan.a < cycleTenths s.tb.c s.plant.jn[j].plan.mult →
     s.report.held < 47 →
     ∃ t, exec (.localCycleStart j) s = .next t ∧ t.tb = s.tb ∧ t.now = s.now ∧ t.script = s.script ∧
       t.report.wr = s.report.wr + 1 ∧ t.report.rd = s.report.rd ∧ t.report.gap = false ∧
       t.report.slots = s.report.slots.set s.report.wr (some
         { junction := j, count := s.plant.jn[j].cycleCount, tod := s.tb.tod, tally := s.plant.jn[j].tally
           gap := s.report.gap }) ∧
       t.plant.jn[j] = { s.plant.jn[j] with
         p := 0, span := cycleTenths s.tb.c s.plant.jn[j].plan.mult, cycleCount := (s.plant.jn[j].cycleCount + 1) % 256
         endPassed := false, callReached := false, endDone := false, callDone := false, moved := none, force := false
         dwell := false, completions := [], overflow := false, carried := none
         tally := { bandError := some (s.plant.jn[j].carried.getD 0), bandGreen := 0, served := [], accepts := 0
                    scriptStep := false, probe := .absent } } ∧
       s.plant.OthersSame t.plant j ∧ t.plant.pool = s.plant.pool ∧ t.plant.free = s.plant.free ∧ t.plant.req = s.plant.req) ∧
  (∀ (s : State) (j : JIdx) (n : EntryNo) (rest : List EntryNo),
     s.plant.jn[j].state = .inStep → s.plant.jn[j].p = s.plant.jn[j].span → s.plant.jn[j].level = 0 →
     s.plant.jn[j].chain = n :: rest → s.plant.pool[n].role = .band → s.plant.pool[n].status = .serving →
     (∀ i ∈ s.plant.jn[j].chain, s.plant.pool[i].origin = .host) →
     s.script.running[junctionQueue j] = false → s.plant.NoCandidate j →
     let fits (v : Plan) : Prop := v.offset * v.mult < s.tb.c ∧ ¬(v.mult = 2 ∧ s.tb.c % 2 = 1)
     ∀ w : Plan, (∀ v, s.plant.jn[j].stagedPlan = some v → (fits v → w = v) ∧ (¬fits v → w = s.plant.jn[j].plan)) →
     (s.plant.jn[j].stagedPlan = none → w = s.plant.jn[j].plan) →
     20 * w.a < cycleTenths s.tb.c w.mult →
     ∃ t, exec (.localCycleStart j) s = .next t ∧ t.tb = s.tb ∧ t.script = s.script ∧
       t.plant.jn[j].plan = w ∧ t.plant.jn[j].stagedPlan = none ∧ t.plant.jn[j].chain = s.plant.jn[j].chain ∧
       (∀ i ∈ s.plant.jn[j].chain, ∀ x : Entry,
         (∀ a, s.plant.pool[i].staged = some a → x = { s.plant.pool[i] with
           split := a.split.getD s.plant.pool[i].split, minimum := a.minimum.getD s.plant.pool[i].minimum
           passage := a.passage.getD s.plant.pool[i].passage, demand := a.demand.getD s.plant.pool[i].demand
           notify := a.notify.getD s.plant.pool[i].notify, allowance := a.allowance.getD s.plant.pool[i].allowance
           retries := a.allowance.getD s.plant.pool[i].retries, staged := none }) →
         (s.plant.pool[i].staged = none → x = s.plant.pool[i]) →
         ∃ st el, t.plant.pool[i] = { x with status := st, elapsed := el }) ∧
       t.plant.jn[j].guard.settings = s.plant.jn[j].guard.staged.getD s.plant.jn[j].guard.settings ∧
       t.plant.jn[j].guard.staged = none ∧
       t.plant.jn[j].det.map = s.plant.jn[j].det.stagedMap.getD s.plant.jn[j].det.map ∧ t.plant.jn[j].det.stagedMap = none ∧
       (feasibilitySum (t.plant.chainEntries j) w.a * w.mult ≤ s.tb.c → t.plant.jn[j].state = .inStep ∧
         t.plant.pool[n].status = .serving) ∧
       (s.tb.c < feasibilitySum (t.plant.chainEntries j) w.a * w.mult → t.plant.jn[j].state = .solo .plan ∧
         (∀ k : SlotNo, ∀ r, t.plant.req[k] = some r → r.junction ≠ j)) ∧
       s.plant.OthersSame t.plant j)

/-! ## Chains -/

/-- R22, R24, R30, R34: APPEND ENTRY draws the head of the free list and places it at the tail of the chain; a junction in
DWELL or with a waiting request may move on at once and is left out here. -/
def Obligations.EntryIsAppended : Prop :=
  ∀ (s : State) (tag : Byte) (j : JIdx) (st : Stage) (ro : Role) (ki : EntryKind) (de : Demand)
    (minimum split passage allowance : Nat) (notify : Bool) (n : EntryNo) (free : List EntryNo),
    s.Takes tag 0x10 [byte j.val, byte (st.val + 1), ro.code, ki.code, de.code, byte minimum, byte split, byte passage,
      byte allowance, if notify then 1 else 0] →
    4 ≤ minimum → minimum ≤ 60 → minimum ≤ split → split ≤ 150 → 10 ≤ passage → passage ≤ 99 → allowance ≤ 3 →
    (ro = .band → ki = .recurring ∧ de = .recall) →
    (s.plant.jn[j].state = .absent →
      exec .appendEntry s = .next { s with host := s.host.replied tag 0x10 [2, 4] }) ∧
    (s.plant.jn[j].state ≠ .absent → ro = .band → (∃ x ∈ s.plant.chainEntries j, x.role = .band) →
      exec .appendEntry s = .next { s with host := s.host.replied tag 0x10 [2, 7] }) ∧
    (s.plant.jn[j].state ≠ .absent → (ro = .band → ∀ x ∈ s.plant.chainEntries j, x.role ≠ .band) →
      s.plant.hostCount j < 14 → s.plant.hostTotal < 104 → s.plant.free = n :: free →
      n ∉ s.plant.jn[j].chain →
      (s.plant.jn[j].state.coordinated = true → ki = .recurring → ro = .side → de = .recall →
        (feasibilitySum (s.plant.chainEntries j) s.plant.jn[j].plan.a + s.plant.jn[j].plan.a + minimum) *
          s.plant.jn[j].plan.mult ≤ s.tb.c) →
      s.plant.jn[j].dwell = false → s.plant.NoCandidate j →
      ∃ t, exec .appendEntry s = .next t ∧ s.Answered t tag 0x10 [1, byte n.val, byte s.plant.jn[j].chain.length] ∧
        t.plant.jn[j].chain = s.plant.jn[j].chain ++ [n] ∧ t.plant.free = free ∧
        t.plant.pool[n] =
          { stage := st, role := ro, kind := ki, origin := .host, demand := de, minimum := minimum, split := split
            passage := passage, allowance := allowance, retries := allowance, notify := notify, status := .waiting
            outcome := .none, error := .none, elapsed := none, slot := none, staged := none } ∧
        s.plant.EntriesSame t.plant [n] ∧ s.plant.OthersSame t.plant j ∧ t.tb = s.tb ∧ t.script = s.script ∧
        t.plant.req = s.plant.req)

/-- R29, R35: INSERT ENTRY places a ONCE SIDE entry at the top of an empty chain, behind the top under an empty stack, and
behind the interrupted entry of the bottom record otherwise. -/
def Obligations.EntryIsInserted : Prop :=
  ∀ (s : State) (tag : Byte) (j : JIdx) (st : Stage) (de : Demand) (minimum split passage allowance : Nat) (notify : Bool)
    (n : EntryNo) (free before behind : List EntryNo),
    s.Takes tag 0x11 [byte j.val, byte (st.val + 1), de.code, byte minimum, byte split, byte passage, byte allowance,
      if notify then 1 else 0] →
    4 ≤ minimum → minimum ≤ 60 → minimum ≤ split → split ≤ 150 → 10 ≤ passage → passage ≤ 99 → allowance ≤ 3 →
    s.plant.jn[j].state ≠ .absent → s.plant.hostCount j < 14 → s.plant.hostTotal < 104 → s.plant.free = n :: free →
    s.plant.jn[j].chain = before ++ behind → n ∉ s.plant.jn[j].chain →
    ((before = [] ∧ behind = []) ∨ (s.plant.jn[j].stack = [] ∧ before.length = 1) ∨
      (∃ pre b front, s.plant.jn[j].stack = pre ++ [b] ∧ before = front ++ [b.entry] ∧ b.entry ∉ front)) →
    s.plant.jn[j].dwell = false → s.plant.NoCandidate j →
    ∃ t, exec .insertEntry s = .next t ∧ s.Answered t tag 0x11 [1, byte n.val, byte before.length] ∧
      t.plant.jn[j].chain = before ++ n :: behind ∧ t.plant.free = free ∧
      t.plant.pool[n] =
        { stage := st, role := .side, kind := .once, origin := .host, demand := de, minimum := minimum, split := split
          passage := passage, allowance := allowance, retries := allowance, notify := notify, status := .waiting
          outcome := .none, error := .none, elapsed := none, slot := none, staged := none } ∧
      s.plant.EntriesSame t.plant [n] ∧ s.plant.OthersSame t.plant j ∧ t.tb = s.tb ∧ t.plant.req = s.plant.req

/-- R24, R31, R36: REMOVE ENTRY takes a waiting host entry out of its chain to the tail of the free list, and is refused with
IN_USE for a service entry or a SERVING one, with BAND for the BAND entry of a coordinated junction. -/
def Obligations.EntryIsRemoved : Prop :=
  ∀ (s : State) (tag : Byte) (j : JIdx) (n : EntryNo), s.Takes tag 0x13 [byte j.val, byte n.val] →
    (n ∉ s.plant.jn[j].chain → exec .removeEntry s = .next { s with host := s.host.replied tag 0x13 [2, 4] }) ∧
    (n ∈ s.plant.jn[j].chain → s.plant.pool[n].origin = .service ∨ s.plant.pool[n].status = .serving ∨
        (s.plant.jn[j].order ≠ none ∧ s.plant.jn[j].chain.head? = some n) ∨ (∃ c ∈ s.plant.jn[j].stack, c.entry = n) →
      exec .removeEntry s = .next { s with host := s.host.replied tag 0x13 [2, 6] }) ∧
    (n ∈ s.plant.jn[j].chain → s.plant.pool[n].origin = .host → s.plant.pool[n].status ≠ .serving →
      s.plant.jn[j].order = none → (∀ c ∈ s.plant.jn[j].stack, c.entry ≠ n) →
      (s.plant.pool[n].role = .band → s.plant.jn[j].state.coordinated = true →
        exec .removeEntry s = .next { s with host := s.host.replied tag 0x13 [2, 7] }) ∧
      (s.plant.pool[n].role = .side ∨ s.plant.jn[j].state.coordinated = false → s.plant.jn[j].dwell = false →
        s.plant.NoCandidate j →
        ∃ t, exec .removeEntry s = .next t ∧ s.Answered t tag 0x13 [1] ∧
          t.plant.jn[j].chain = s.plant.jn[j].chain.erase n ∧ t.plant.free = s.plant.free ++ [n] ∧
          t.plant.pool[n] = Entry.clear ∧ s.plant.EntriesSame t.plant [n] ∧
          t.plant.jn[j].completions = s.plant.jn[j].completions ∧ s.plant.OthersSame t.plant j ∧ t.tb = s.tb ∧
          t.plant.req = s.plant.req))

/-- R37, R38, R39: an AMEND ENTRY that carries values for any of the six fields. An entry outside the chain is refused with NO_SUCH, a
service entry with IN_USE; a value outside its range, a resulting split below the resulting minimum (taken from the staged amendment
where the directive would be staged and carries none) and CALL for a BAND entry with RANGE. Otherwise it is staged whole at a
coordinated junction, in place of an earlier one, and applied at once elsewhere, where a staged amendment is discarded. When the
retries left follow the allowance is the model's reading (assumption log 42). -/
def Obligations.EntryIsAmended : Prop :=
  ∀ (s : State) (tag : Byte) (j : JIdx) (n : EntryNo) (a : Amendment) (u1 u2 u3 u4 u5 u6 : Byte),
    s.Takes tag 0x12 [byte j.val, byte n.val, State.amendMarks a, (a.split.map byte).getD u1, (a.minimum.map byte).getD u2,
      (a.passage.map byte).getD u3, (a.demand.map Demand.code).getD u4, (a.notify.map fun b => if b then 1 else 0).getD u5,
      (a.allowance.map byte).getD u6] →
    a ≠ ⟨none, none, none, none, none, none⟩ →
    (∀ v, a.split = some v ∨ a.minimum = some v ∨ a.passage = some v ∨ a.allowance = some v → v ≤ 255) →
    let x := s.plant.pool[n]
    let old : Option Amendment := if s.plant.jn[j].state.coordinated then x.staged else none
    let split := a.split.getD ((old.bind Amendment.split).getD x.split)
    let minimum := a.minimum.getD ((old.bind Amendment.minimum).getD x.minimum)
    let good : Prop := (∀ v, a.split = some v → 4 ≤ v ∧ v ≤ 150) ∧ (∀ v, a.minimum = some v → 4 ≤ v ∧ v ≤ 60) ∧
      (∀ v, a.passage = some v → 10 ≤ v ∧ v ≤ 99) ∧ (∀ v, a.allowance = some v → v ≤ 3) ∧ minimum ≤ split ∧
      ¬(x.role = .band ∧ a.demand = some .call)
    (n ∉ s.plant.jn[j].chain → exec .amendEntry s = .next { s with host := s.host.replied tag 0x12 [2, 4] }) ∧
    (n ∈ s.plant.jn[j].chain → x.origin = .service →
      exec .amendEntry s = .next { s with host := s.host.replied tag 0x12 [2, 6] }) ∧
    (n ∈ s.plant.jn[j].chain → x.origin = .host →
      (¬good → exec .amendEntry s = .next { s with host := s.host.replied tag 0x12 [2, 2] }) ∧
      (good → s.plant.jn[j].state.coordinated = true →
        exec .amendEntry s = .next { s with
          plant := s.plant.updEnt n fun x => { x with staged := some a }
          host := s.host.replied tag 0x12 [1] }) ∧
      (good → s.plant.jn[j].state.coordinated = false →
        ∃ t, exec .amendEntry s = .next t ∧ s.Answered t tag 0x12 [1] ∧
          t.plant.pool[n] = { x with
            split := a.split.getD x.split, minimum := a.minimum.getD x.minimum, passage := a.passage.getD x.passage
            demand := a.demand.getD x.demand, notify := a.notify.getD x.notify, allowance := a.allowance.getD x.allowance
            retries := if a.allowance.getD x.allowance = x.allowance then x.retries else a.allowance.getD x.allowance
            staged := none } ∧
          s.plant.EntriesSame t.plant [n] ∧ t.plant.jn[j].chain = s.plant.jn[j].chain ∧ s.plant.OthersSame t.plant j ∧
          t.plant.free = s.plant.free ∧ t.tb = s.tb))

/-! ## Reading -/

/-- R40, R89, R117, R153, R197, R198: the six reading directives are answered DONE in every state and change nothing else; their data, byte
by byte, are those that section 11.4 and the lists of R89, R153 and R197 lay out (`Layout`, with the model's choices of logs 22, 23, 56, 59,
61, 66, 67, 69 and 71). A junction index or a first position beyond its field is refused with FORM, a first slot above 23 with RANGE.
Second clause: the codes of R199. -/
def Obligations.ReadsChangeNothing : Prop :=
  (∀ (s : State) (tag : Byte) (j : JIdx) (first : Nat),
     (s.Takes tag 0x14 [byte j.val, byte first] → first ≤ 15 → exec .readChain s = .next { s with
       host := s.host.replied tag 0x14 (1 :: Layout.chain s.plant j first) }) ∧
     (s.Takes tag 0x22 [byte j.val] → exec .readJunction s = .next { s with
       host := s.host.replied tag 0x22 (1 :: Layout.junction s.now s.plant j) }) ∧
     (s.Takes tag 0x31 [byte j.val] → exec .readDetectors s = .next { s with
       host := s.host.replied tag 0x31 (1 :: Layout.detectors s.now s.plant.jn[j].det) }) ∧
     (s.Takes tag 0x42 [byte first] → first ≤ 23 → exec .readRequests s = .next { s with
       host := s.host.replied tag 0x42 (1 :: Layout.requests s.now s.plant first) }) ∧
     (s.Takes tag 0x63 [] → exec .scriptSpace s = .next { s with
       host := s.host.replied tag 0x63 (1 :: Layout.script s.script) }) ∧
     (s.Takes tag 0x74 [] → exec .readStatus s = .next { s with
       host := s.host.replied tag 0x74 (1 :: Layout.status s) }) ∧
     (∀ jb position : Byte, s.Takes tag 0x14 [jb, position] → 11 < jb.toNat ∨ 15 < position.toNat →
       exec .readChain s = .next { s with host := s.host.replied tag 0x14 [2, 1] }) ∧
     (∀ jb : Byte, 11 < jb.toNat →
       (s.Takes tag 0x22 [jb] → exec .readJunction s = .next { s with host := s.host.replied tag 0x22 [2, 1] }) ∧
       (s.Takes tag 0x31 [jb] → exec .readDetectors s = .next { s with host := s.host.replied tag 0x31 [2, 1] })) ∧
     (s.Takes tag 0x42 [byte first] → 23 < first → first ≤ 255 →
       exec .readRequests s = .next { s with host := s.host.replied tag 0x42 [2, 2] })) ∧
  ([CorridorState.dark, .ready, .coordinating].map CorridorState.code = [1, 2, 3] ∧
   [StartCause.cold, .warm].map StartCause.code = [1, 2] ∧ [Direction.inbound, .outbound].map Direction.code = [1, 2] ∧
   (∀ (l : LocalCause) (c : SoloCause), [JState.absent, .loc l, .joining, .inStep, .solo c].map JState.code = [0, 1, 2, 3, 4]) ∧
   [JState.absent, .joining, .inStep, .loc .notRunning, .loc .manual, .loc .noBand, .solo .link, .solo .unit, .solo .stall,
     .solo .plan].map JState.causeCode = [0, 0, 0, 1, 2, 3, 4, 5, 6, 7] ∧
   [Role.band, .side].map Role.code = [1, 2] ∧ [EntryKind.recurring, .once].map EntryKind.code = [1, 2] ∧
   [Origin.host, .service].map Origin.code = [1, 2] ∧ [Demand.recall, .call].map Demand.code = [1, 2] ∧
   [EntryStatus.waiting, .serving, .stalled].map EntryStatus.code = [1, 2, 3] ∧
   [EntryOutcome.none, .served, .gapped, .forced, .passed, .cut].map EntryOutcome.code = [0, 1, 2, 3, 4, 5] ∧
   [EntryError.none, .confirmTimeout, .wrongStage, .lampFault].map EntryError.code = [0, 1, 2, 3] ∧
   (∀ st : Stage, [DetFn.none, .call st, .extend st, .callExtend st, .exitIn, .exitOut].map DetFn.code = [0, 1, 2, 3, 4, 5]) ∧
   [SourceKind.unit, .central, .guard].map SourceKind.code = [1, 2, 3] ∧ [Action.extend, .insert].map Action.code = [1, 2] ∧
   [GateOutcome.gated, .idle, .suppressed].map GateOutcome.code = [1, 2, 3] ∧
   (∀ (j : JIdx) (k : SlotNo),
     [FlushDisposition.posted j k, .dropped, .flushNone].map FlushDisposition.code = [1, 2, 3]))

/-! ## Recovery, detectors, guard -/

/-- R72: REPAIR JUNCTION in SOLO STALL, elsewhere refused with STATE. R73: REJOIN JUNCTION: STATE unless SOLO PLAN, INFEASIBLE while
the plan does not fit, else the junction is taken back. -/
def Obligations.SoloIsTakenBack : Prop :=
  (∀ (s : State) (tag : Byte) (j : JIdx), s.Takes tag 0x20 [byte j.val] →
     (s.plant.jn[j].state ≠ .solo .stall →
       exec .repairJunction s = .next { s with host := s.host.replied tag 0x20 [2, 3] }) ∧
     (s.plant.jn[j].state = .solo .stall → s.plant.jn[j].line.mode = some .coordReady → ∃ t,
       exec .repairJunction s = .next t ∧ s.Answered t tag 0x20 [1] ∧
       (∀ n : EntryNo, n ∈ s.plant.jn[j].chain → s.plant.pool[n].status = .stalled → t.plant.pool[n] =
         { s.plant.pool[n] with status := .waiting, retries := s.plant.pool[n].allowance }) ∧
       (∀ n : EntryNo, n ∉ s.plant.jn[j].chain ∨ s.plant.pool[n].status ≠ .stalled →
         t.plant.pool[n] = s.plant.pool[n]) ∧
       (s.tb.corridor ≠ .coordinating → t.plant.jn[j].state = .loc .notRunning) ∧
       (s.tb.corridor = .coordinating → t.plant.jn[j].state = .joining ∨ t.plant.jn[j].state = .loc .noBand) ∧
       t.plant.jn[j].chain = s.plant.jn[j].chain ∧ s.plant.OthersSame t.plant j ∧ t.tb = s.tb)) ∧
  (∀ (s : State) (tag : Byte) (j : JIdx), s.Takes tag 0x21 [byte j.val] →
     (s.plant.jn[j].state ≠ .solo .plan →
       exec .rejoinJunction s = .next { s with host := s.host.replied tag 0x21 [2, 3] }) ∧
     (s.plant.jn[j].state = .solo .plan →
       s.tb.c < feasibilitySum (s.plant.chainEntries j) s.plant.jn[j].plan.a * s.plant.jn[j].plan.mult →
       exec .rejoinJunction s = .next { s with host := s.host.replied tag 0x21 [2, 8] }) ∧
     (s.plant.jn[j].state = .solo .plan →
       feasibilitySum (s.plant.chainEntries j) s.plant.jn[j].plan.a * s.plant.jn[j].plan.mult ≤ s.tb.c →
       s.plant.jn[j].line.mode = some .coordReady → ∃ t,
       exec .rejoinJunction s = .next t ∧ s.Answered t tag 0x21 [1] ∧
       (s.tb.corridor ≠ .coordinating → t.plant.jn[j].state = .loc .notRunning) ∧
       (s.tb.corridor = .coordinating → t.plant.jn[j].state = .joining ∨ t.plant.jn[j].state = .loc .noBand) ∧
       t.plant.pool = s.plant.pool ∧ t.plant.jn[j].chain = s.plant.jn[j].chain ∧ s.plant.OthersSame t.plant j ∧ t.tb = s.tb))

/-- R77, R78: MAP DETECTORS with any 24 functions. A map with two EXIT_IN or two EXIT_OUT is refused with RANGE; another is staged at a
coordinated junction, and elsewhere, at an ABSENT junction too, applied at once: the rows, the call flags and the gap timers keep their
values, the stuck timer of a detector that becomes timed starts if it is occupied in valid rows (assumption log 27), that of one that
becomes NONE stops, and if it was STUCK it ceases to be so with a CLEARED notice of reason MAP (in ascending order, log 55); with both
functions timed the timer and the STUCK mark stay. Second clause: a wrong length, a junction index above 11 or an undefined function code
is refused with FORM, a stage outside 1 to 8 of a function that carries one with RANGE. R77 has no refusal with NO_SUCH. -/
def Obligations.DetectorMapIsTaken : Prop :=
  (∀ (s : State) (tag : Byte) (j : JIdx) (m : Vector DetFn 24) (spare : Vector Byte 24),
     s.Takes tag 0x30 (byte j.val :: (List.finRange 24).flatMap fun d => m[d].mapBytes spare[d]) →
     let twice (f : DetFn) : Prop := ∃ d e : DetIdx, d ≠ e ∧ m[d] = f ∧ m[e] = f
     (twice .exitIn ∨ twice .exitOut → exec .mapDetectors s = .next { s with host := s.host.replied tag 0x30 [2, 2] }) ∧
     (¬twice .exitIn → ¬twice .exitOut →
       (s.plant.jn[j].state.coordinated = true →
         exec .mapDetectors s = .next { s with
           plant := s.plant.upd j fun J => { J with det := { J.det with stagedMap := some m } }
           host := s.host.replied tag 0x30 [1, 2] }) ∧
       (s.plant.jn[j].state.coordinated = false →
         let D := s.plant.jn[j].det
         let drops (d : DetIdx) : Prop := D.map[d] ≠ .none ∧ m[d] = .none
         let takesUp (d : DetIdx) : Prop := D.map[d] = .none ∧ m[d] ≠ .none
         let ceased := (List.finRange 24).filter fun d : DetIdx => decide (D.map[d] ≠ .none ∧ m[d] = .none ∧ D.stuck[d] = true)
         ∃ t, exec .mapDetectors s = .next t ∧ s.Answered t tag 0x30 [1, 1] ∧
           t.plant.jn[j].det =
             { D with map := m, stagedMap := none, timers := t.plant.jn[j].det.timers, stuck := t.plant.jn[j].det.stuck } ∧
           (∀ d : DetIdx,
             (drops d → t.plant.jn[j].det.timers[d] = none ∧ t.plant.jn[j].det.stuck[d] = false) ∧
             (takesUp d → t.plant.jn[j].det.stuck[d] = D.stuck[d] ∧
               t.plant.jn[j].det.timers[d] = if D.rowsValid = true ∧ D.rows[d] = true then some s.now else D.timers[d]) ∧
             (¬drops d → ¬takesUp d → t.plant.jn[j].det.timers[d] = D.timers[d] ∧
               t.plant.jn[j].det.stuck[d] = D.stuck[d])) ∧
           (hasClass s.report.armed .detector = true → hasClass s.report.paused .detector = false →
             s.host.frames + ceased.length < 16 →
             t.host.notices = s.host.notices ++ ceased.map fun d => noticeFrame (.cleared j d .map)) ∧
           (s.plant.jn[j].guard.probe.active = false →
             t.plant.jn[j] = { s.plant.jn[j] with det := t.plant.jn[j].det }) ∧
           t.plant.jn[j].state = s.plant.jn[j].state ∧ s.plant.OthersSame t.plant j ∧ t.plant.pool = s.plant.pool ∧
           t.plant.free = s.plant.free ∧ t.plant.req = s.plant.req ∧ t.plant.arrivals = s.plant.arrivals ∧ t.tb = s.tb ∧
           t.script = s.script ∧ t.now = s.now))) ∧
  (∀ (s : State) (tag : Byte) (body : List Byte), s.Takes tag 0x30 body →
     let code (d : DetIdx) : Nat := (body.getD (2 * d.val + 1) 0).toNat
     let stage (d : DetIdx) : Nat := (body.getD (2 * d.val + 2) 0).toNat
     (body.length ≠ 49 ∨ 11 < (body.getD 0 0).toNat ∨ (∃ d, 5 < code d) →
       exec .mapDetectors s = .next { s with host := s.host.replied tag 0x30 [2, 1] }) ∧
     (body.length = 49 → (body.getD 0 0).toNat ≤ 11 → (∀ d, code d ≤ 5) →
       (∃ d, 1 ≤ code d ∧ code d ≤ 3 ∧ ¬(1 ≤ stage d ∧ stage d ≤ 8)) →
       exec .mapDetectors s = .next { s with host := s.host.replied tag 0x30 [2, 2] }))

/-- R138: SET GUARD stages its settings at a coordinated junction; elsewhere they apply at once and staged ones are discarded;
a value outside its range is refused. -/
def Obligations.GuardIsSet : Prop :=
  ∀ (s : State) (tag : Byte) (j : JIdx) (on : Bool) (th lv ti : Byte),
    let g : GuardSettings := { enable := on, threshold := th.toNat, flushLevel := lv.toNat, flushTime := ti.toNat }
    s.Takes tag 0x50 [byte j.val, if on then 1 else 0, th, lv, ti] →
    (5 ≤ th.toNat ∧ th.toNat ≤ 60 ∧ 1 ≤ lv.toNat ∧ lv.toNat ≤ 15 ∧ 5 ≤ ti.toNat ∧ ti.toNat ≤ 30 →
      (s.plant.jn[j].state.coordinated = true →
        exec .setGuard s = .next { s with
          plant := s.plant.upd j fun J => { J with guard := { J.guard with staged := some g } }
          host := s.host.replied tag 0x50 [1, 2] }) ∧
      (s.plant.jn[j].state.coordinated = false → s.plant.jn[j].guard.probe = .off →
        exec .setGuard s = .next { s with
          plant := s.plant.upd j fun J => { J with guard := { J.guard with settings := g, staged := none } }
          host := s.host.replied tag 0x50 [1, 1] })) ∧
    (¬(5 ≤ th.toNat ∧ th.toNat ≤ 60 ∧ 1 ≤ lv.toNat ∧ lv.toNat ≤ 15 ∧ 5 ≤ ti.toNat ∧ ti.toNat ≤ 30) →
      exec .setGuard s = .next { s with host := s.host.replied tag 0x50 [2, 2] })

/-! ## Requests -/

/-- R84, R95, R96, R97, R102: RAISE REQUEST outside coordination is refused with STATE; at level 0 it is a call, which sets the
call flag of a stage that is not green; at a JOINING junction a new key takes the lowest free slot as a PENDING record. Second clause: the
request records of a good report at a JOINING junction (R93, R173), each case with its frame: a new key becomes a PENDING record with
source UNIT (R97), level 0 is a call (R95), a check-out ends the PENDING record of its key (R114), and a bad record is dropped (R94); at a
full table a new key below level 16 is dropped (R100), and at level 16 it takes the slot of the oldest PENDING record of the lowest level
(R101), here of a junction that has no other PENDING record, so that the attempt there accepts nothing. Third clause: an arrival of any
source whose key names an ACTIVE record refreshes it, which replaces its service time alone (R99), and the acceptance attempt follows;
fourth: RAISE REQUEST of such a key, where no PENDING record waits. What becomes of a service end that is UNTIL_CANCELLED before the
service has started, and that the new time counts from the arrival, are the model's choices (assumption logs 24 and 82). -/
def Obligations.RequestIsRaised : Prop :=
  (∀ (s : State) (tag : Byte) (j : JIdx) (id level time wait : Nat) (ac : Action) (st : Stage) (k : SlotNo),
     s.Takes tag 0x40 [byte j.val, byte id, byte level, ac.code, byte (st.val + 1), byte time, byte wait] →
     1 ≤ id → id ≤ 255 → level ≤ 16 → 1 ≤ time → time ≤ 120 → 5 ≤ wait → wait ≤ 255 →
     (s.plant.jn[j].state.coordinated = false →
       exec .raiseRequest s = .next { s with host := s.host.replied tag 0x40 [2, 3] }) ∧
     (s.plant.jn[j].state.coordinated = true → level = 0 → s.plant.jn[j].dwell = false → s.plant.NoCandidate j →
       exec .raiseRequest s = .next { s with
         plant := if s.plant.jn[j].green = some st then s.plant
           else s.plant.upd j fun J => { J with det := { J.det with flags := J.det.flags.set st true } }
         host := s.host.replied tag 0x40 [1, 1] }) ∧
     (s.plant.jn[j].state = .joining → 1 ≤ level →
       (∀ i : SlotNo, ∀ r, s.plant.req[i] = some r → r.key ≠ { junction := j, source := .central, id := id }) →
       s.plant.req[k] = none → (∀ i : SlotNo, i < k → s.plant.req[i] ≠ none) →
       exec .raiseRequest s = .next { s with
         plant := { s.plant with
           req := s.plant.req.set k (some
             { junction := j, source := .central, id := id, level := level, action := ac, stage := st, time := time
               wait := wait, arrived := s.now, state := .pending })
           arrivals := s.plant.arrivals ++ [k] }
         host := s.host.replied tag 0x40 [1, 2, byte k.val, 1] })) ∧
  (∀ (s : State) (j : JIdx) (first : TakeOrder) (body rec : List Byte), s.QuietReport j body [rec] → s.ReadyUnit j body →
     s.plant.jn[j].state = .joining → s.plant.jn[j].order = none →
     ∃ t, exec (.reportReceived j first (reportWire body)) s = .next t ∧ s.EventFrame t ∧
       let badRequest (b : List Byte) : Prop := 16 < (b.getD 1 0).toNat ∨ (b.getD 2 0).toNat = 0 ∨ 8 < (b.getD 2 0).toNat ∨
         (b.getD 3 0 ≠ 1 ∧ b.getD 3 0 ≠ 2) ∨
         (b.getD 1 0 ≠ 0 ∧ (120 < (b.getD 4 0).toNat ∨ (b.getD 4 0 = 0 ∧ (b.getD 3 0 ≠ 2 ∨ b.getD 1 0 ≠ 16)) ∨
           (1 ≤ (b.getD 5 0).toNat ∧ (b.getD 5 0).toNat ≤ 4)))
       let frame : Prop := t.plant.pool = s.plant.pool ∧ t.plant.free = s.plant.free ∧ t.plant.jn[j].state = .joining ∧
         t.plant.jn[j].chain = s.plant.jn[j].chain ∧ s.plant.OthersSame t.plant j
       let sameFlags : Prop := t.plant.jn[j].det.flags = s.plant.jn[j].det.flags
       let sameTable : Prop := t.plant.req = s.plant.req ∧ t.plant.arrivals = s.plant.arrivals
       (∀ (id level time wait : Nat) (ac : Action) (st : Stage),
         rec = [byte id, byte level, byte (st.val + 1), ac.code, byte time, byte wait, 0] →
         1 ≤ id → id ≤ 255 → 1 ≤ level → level ≤ 16 → 1 ≤ time → time ≤ 120 → 5 ≤ wait → wait ≤ 255 →
         (∀ i : SlotNo, ∀ r, s.plant.req[i] = some r → r.key ≠ { junction := j, source := .unit, id := id }) →
         let new : Request :=
           { junction := j, source := .unit, id := id, level := level, action := ac, stage := st, time := time
             wait := wait, arrived := s.now, state := .pending }
         (∀ k : SlotNo, s.plant.req[k] = none → (∀ i : SlotNo, i < k → s.plant.req[i] ≠ none) →
           t.plant.req = s.plant.req.set k (some new) ∧ t.plant.arrivals = s.plant.arrivals ++ [k] ∧ sameFlags ∧ frame) ∧
         ((∀ i : SlotNo, s.plant.req[i] ≠ none) → level ≤ 15 → sameTable ∧ sameFlags ∧ frame) ∧
         (∀ (k : SlotNo) (r : Request) (older younger : List SlotNo), (∀ i : SlotNo, s.plant.req[i] ≠ none) → level = 16 →
           s.plant.req[k] = some r → r.state = .pending → s.plant.arrivals = older ++ k :: younger →
           (∀ i ∈ older, ∀ q, s.plant.req[i] = some q → q.state = .pending → r.level < q.level) →
           (∀ i ∈ younger, ∀ q, s.plant.req[i] = some q → q.state = .pending → r.level ≤ q.level) →
           s.plant.NoCandidateBut r.junction k →
           t.plant.req = s.plant.req.set k (some new) ∧
             t.plant.arrivals = (s.plant.arrivals.filter fun i => i != k) ++ [k] ∧ sameFlags ∧ frame)) ∧
       (∀ (id : Nat) (st : Stage) (ac : Action) (u v : Byte), rec = [byte id, 0, byte (st.val + 1), ac.code, u, v, 0] →
         1 ≤ id → id ≤ 255 → s.plant.jn[j].green ≠ some st →
         sameTable ∧ t.plant.jn[j].det.flags = s.plant.jn[j].det.flags.set st true ∧ frame) ∧
       (∀ (id : Nat) (u1 u2 u3 u4 u5 : Byte) (k : SlotNo) (r : Request), rec = [byte id, u1, u2, u3, u4, u5, 1] →
         1 ≤ id → id ≤ 255 → s.plant.req[k] = some r → r.state = .pending →
         r.key = { junction := j, source := .unit, id := id } →
         (∀ i : SlotNo, i ≠ k → ∀ q, s.plant.req[i] = some q → q.key ≠ r.key) →
         t.plant.req = s.plant.req.set k none ∧ (t.plant.arrivals = s.plant.arrivals.filter fun i => i != k) ∧ sameFlags ∧ frame) ∧
       (rec.getD 0 0 = 0 ∨ 1 < (rec.getD 6 0).toNat ∨ (rec.getD 6 0 = 0 ∧ badRequest rec) → sameTable ∧ sameFlags ∧ frame)) ∧
  (∀ (e : Env) (p : Plant) (a : Arrival) (k : SlotNo) (r q : Request) (x : Active),
     p.jn[a.junction].state.coordinated = true → 1 ≤ a.level → p.req[k] = some r → r.state = .active x → r.key = a.key →
     (∀ i : SlotNo, i ≠ k → ∀ o, p.req[i] = some o → o.key ≠ r.key) → r.RefreshedTo x a.time e.arrived q →
     p.arrive e a = (({ p with req := p.req.set k (some q) } : Plant).attempts e a.junction, .refreshed k)) ∧
  (∀ (s : State) (tag : Byte) (j : JIdx) (id level time wait : Nat) (ac : Action) (st : Stage) (k : SlotNo) (r q : Request)
     (x : Active), s.Takes tag 0x40 [byte j.val, byte id, byte level, ac.code, byte (st.val + 1), byte time, byte wait] →
     1 ≤ id → id ≤ 255 → 1 ≤ level → level ≤ 16 → time ≤ 120 → (time = 0 → ac = .insert ∧ level = 16) →
     (wait = 0 ∨ 5 ≤ wait) → wait ≤ 255 → s.plant.jn[j].state.coordinated = true → s.plant.req[k] = some r →
     r.state = .active x → r.key = { junction := j, source := .central, id := id } →
     (∀ i : SlotNo, i ≠ k → ∀ o, s.plant.req[i] = some o → o.key ≠ r.key) → s.plant.NoCandidate j →
     r.RefreshedTo x time s.now q →
     exec .raiseRequest s = .next { s with
       plant := { s.plant with req := s.plant.req.set k (some q) }
       host := s.host.replied tag 0x40 [1, 3, byte k.val, 2] })

/-- R98: a refresh of a PENDING record replaces its level, action, service stage and service time, resolves its wait limit anew, restarts
its wait and moves it to the end of the arrival order; its slot is unchanged and no notice is raised. First by RAISE REQUEST at a JOINING
junction, then for an arrival of any source at any coordinated junction, where the acceptance attempt that follows sees the new values. -/
def Obligations.PendingRequestIsRefreshed : Prop :=
  (∀ (s : State) (tag : Byte) (j : JIdx) (id level time wait : Nat) (ac : Action) (st : Stage) (k : SlotNo) (r : Request),
     s.Takes tag 0x40 [byte j.val, byte id, byte level, ac.code, byte (st.val + 1), byte time, byte wait] →
     1 ≤ id → id ≤ 255 → 1 ≤ level → level ≤ 16 → 1 ≤ time → time ≤ 120 → (wait = 0 ∨ 5 ≤ wait) → wait ≤ 255 →
     s.plant.jn[j].state = .joining → s.plant.req[k] = some r → r.state = .pending →
     r.key = { junction := j, source := .central, id := id } →
     (∀ i : SlotNo, i ≠ k → ∀ q, s.plant.req[i] = some q → q.key ≠ r.key) →
     exec .raiseRequest s = .next { s with
       plant := { s.plant with
         req := s.plant.req.set k (some
           { junction := j, source := .central, id := id, level := level, action := ac, stage := st, time := time
             wait := if wait = 0 then s.plant.jn[j].plan.wait else wait, arrived := s.now, state := .pending })
         arrivals := (s.plant.arrivals.filter fun i => i != k) ++ [k] }
       host := s.host.replied tag 0x40 [1, 3, byte k.val, 1] }) ∧
  (∀ (e : Env) (p : Plant) (a : Arrival) (k : SlotNo) (r : Request), p.jn[a.junction].state.coordinated = true → 1 ≤ a.level →
     p.req[k] = some r → r.state = .pending → r.key = a.key →
     (∀ i : SlotNo, i ≠ k → ∀ q, p.req[i] = some q → q.key ≠ r.key) →
     p.arrive e a = (({ p with
       req := p.req.set k (some
         { junction := a.junction, source := a.source, id := a.id, level := a.level, action := a.action, stage := a.stage
           time := a.time, wait := if a.wait = 0 then p.jn[a.junction].plan.wait else a.wait, arrived := e.arrived
           state := .pending })
       arrivals := (p.arrivals.filter fun i => i != k) ++ [k] } : Plant).attempts e a.junction, .refreshed k))

/-- R103, R105: the candidate is the PENDING record of the junction with the highest level, the oldest in the arrival order among
those of that level; without one the attempt ends, and while it cannot be accepted, nothing is accepted there. R104: the
conditions of acceptance; where they hold the candidate is accepted, and further attempts of the same operation, which see the junction
as that left it, follow (R106; that they follow within the operation is the model's choice, assumption log 10). -/
def Obligations.CandidateAndConditions : Prop :=
  (∀ (e : Env) (p : Plant) (j : JIdx),
     (p.candidate? j = none → p.attempts e j = p ∧
       ∀ k ∈ p.arrivals, ∀ r, p.req[k] = some r → r.junction = j → r.isActive = true) ∧
     (∀ c : Candidate, p.candidate? j = some c →
       (p.req[c.slot] = some c.req ∧ c.req.junction = j ∧ c.req.isActive = false ∧
         ∃ older younger, p.arrivals = older ++ c.slot :: younger ∧
           (∀ k ∈ older, ∀ r, p.req[k] = some r → r.junction = j → r.isActive = false → r.level < c.req.level) ∧
           (∀ k ∈ younger, ∀ r, p.req[k] = some r → r.junction = j → r.isActive = false → r.level ≤ c.req.level)) ∧
       (p.acceptable j c.req = false → p.attempts e j = p) ∧
       (p.acceptable j c.req = true → p.attempts e j = Plant.attemptLoop e j 24 (p.accept e j c)))) ∧
  (∀ (p : Plant) (j : JIdx) (r : Request), p.acceptable j r = true ↔
     p.jn[j].state = .inStep ∧ p.jn[j].level < r.level ∧
       (r.level ≠ 16 → p.jn[j].order = none ∧ p.jn[j].stack.length < 2) ∧
       (r.action = .extend → ∃ n rest, p.jn[j].chain = n :: rest ∧ p.pool[n].origin = .host ∧
         p.pool[n].status = .serving ∧ p.pool[n].stage = r.stage))

/-- R107, R110, R120, R121: an EXTEND raised for the stage that its junction is serving is accepted at once: the record becomes
ACTIVE, a context record is pushed over the untouched top, and the level rises. -/
def Obligations.ExtendIsAcceptedAtOnce : Prop :=
  ∀ (s : State) (tag : Byte) (j : JIdx) (id level time wait : Nat) (st : Stage) (k : SlotNo) (n : EntryNo)
    (rest : List EntryNo),
    s.Takes tag 0x40 [byte j.val, byte id, byte level, 1, byte (st.val + 1), byte time, byte wait] →
    1 ≤ id → id ≤ 255 → 1 ≤ level → level ≤ 15 → 1 ≤ time → time ≤ 120 → 5 ≤ wait → wait ≤ 255 →
    s.plant.jn[j].state = .inStep → s.plant.jn[j].level = 0 → s.plant.jn[j].stack = [] → s.plant.jn[j].order = none →
    s.plant.jn[j].chain = n :: rest → s.plant.pool[n].origin = .host → s.plant.pool[n].status = .serving →
    s.plant.pool[n].stage = st → 1 ≤ s.plant.jn[j].plan.ext →
    (∀ i : SlotNo, ∀ r, s.plant.req[i] = some r → r.junction ≠ j) → (∀ i ∈ s.plant.arrivals, i ≠ k) →
    s.plant.req[k] = none → (∀ i : SlotNo, i < k → s.plant.req[i] ≠ none) →
    ∃ t, exec .raiseRequest s = .next t ∧ s.Answered t tag 0x40 [1, 2, byte k.val, 2] ∧
      t.plant.jn[j] = { s.plant.jn[j] with
        level := level, force := false, resuming := none
        stack := [{ slot := k, entry := n, saved := s.plant.pool[n].elapsed.getD 0
                    minReached := decide (10 * s.plant.pool[n].minimum ≤ s.plant.pool[n].elapsed.getD 0), prior := 0 }]
        tally := { s.plant.jn[j].tally with accepts := min 15 (s.plant.jn[j].tally.accepts + 1) } } ∧
      t.plant.req = s.plant.req.set k (some
        { junction := j, source := .central, id := id, level := level, action := .extend, stage := st, time := time
          wait := wait, arrived := s.now
          state := .active
            { accepted := s.now, svcEnd := .due (min (s.now + 10 * time) (s.now + 10 * s.plant.jn[j].plan.ext))
              started := true, cap := some (s.now + 10 * s.plant.jn[j].plan.ext)
              holdEnd := s.now + 10 * s.plant.jn[j].plan.hold } }) ∧
      t.plant.pool = s.plant.pool ∧ t.plant.free = s.plant.free ∧ s.plant.OthersSame t.plant j ∧ t.tb = s.tb ∧
      t.script = s.script

/-- R107, R121, R122: an INSERT raised at a junction whose top has served its minimum is accepted at once: a service entry is
drawn and placed at the top, the interrupted top is WAITING behind it, and the service stage is ordered. Second clause: at level 16 the
take-over does not wait for the minimum, and with an order in flight it is accepted too and the order stays (R104, R122). Third clause: at
level 16 on a full stack the bottom request first ends DISPLACED: its service entry is retired and its record folded (R132, R133); that the
served duration of an entry whose elapsed is absent is 0 is the model's choice (assumption log 58). -/
def Obligations.InsertIsAcceptedAtOnce : Prop :=
  (∀ (s : State) (tag : Byte) (j : JIdx) (id level time wait : Nat) (st : Stage) (k : SlotNo) (n f : EntryNo)
     (rest free : List EntryNo),
     s.Takes tag 0x40 [byte j.val, byte id, byte level, 2, byte (st.val + 1), byte time, byte wait] →
     1 ≤ id → id ≤ 255 → 1 ≤ level → level ≤ 15 → 1 ≤ time → time ≤ 120 → 5 ≤ wait → wait ≤ 255 →
     s.plant.jn[j].state = .inStep → s.plant.jn[j].level = 0 → s.plant.jn[j].stack = [] → s.plant.jn[j].order = none →
     s.plant.jn[j].minWait = none → s.plant.jn[j].chain = n :: rest → s.plant.free = f :: free → f ≠ n →
     s.plant.pool[n].origin = .host → s.plant.pool[n].status = .serving →
     10 * s.plant.pool[n].minimum ≤ s.plant.pool[n].elapsed.getD 0 → s.plant.jn[j].green ≠ some st →
     (∀ i : SlotNo, ∀ r, s.plant.req[i] = some r → r.junction ≠ j) → (∀ i ∈ s.plant.arrivals, i ≠ k) →
     s.plant.req[k] = none → (∀ i : SlotNo, i < k → s.plant.req[i] ≠ none) →
     ∃ t, exec .raiseRequest s = .next t ∧ s.Answered t tag 0x40 [1, 2, byte k.val, 2] ∧
       t.plant.jn[j].chain = f :: n :: rest ∧ t.plant.free = free ∧ t.plant.jn[j].level = level ∧
       t.plant.jn[j].stack =
         [{ slot := k, entry := n, saved := s.plant.pool[n].elapsed.getD 0, minReached := true, prior := 0 }] ∧
       t.plant.pool[f] =
         { stage := st, role := .side, kind := .once, origin := .service, demand := .recall, minimum := 0, split := 0
           passage := 0, allowance := 2, retries := 2, notify := false, status := .waiting, outcome := .none, error := .none
           elapsed := none, slot := some k, staged := none } ∧
       t.plant.pool[n] = { s.plant.pool[n] with status := .waiting, elapsed := none } ∧
       s.plant.EntriesSame t.plant [n, f] ∧
       t.plant.jn[j].order =
         some { entry := f, live := true, stage := st, tag := s.plant.jn[j].line.lastTag + 1, deadline := none } ∧
       t.plant.jn[j].green = none ∧ s.plant.OthersSame t.plant j ∧ t.tb = s.tb ∧ t.script = s.script) ∧
  (∀ (s : State) (tag : Byte) (j : JIdx) (id time wait : Nat) (st : Stage) (k : SlotNo) (n f : EntryNo)
     (rest free : List EntryNo),
     s.Takes tag 0x40 [byte j.val, byte id, byte 16, 2, byte (st.val + 1), byte time, byte wait] →
     1 ≤ id → id ≤ 255 → time ≤ 120 → 5 ≤ wait → wait ≤ 255 → s.plant.jn[j].state = .inStep → s.plant.jn[j].level = 0 →
     s.plant.jn[j].stack = [] → s.plant.jn[j].chain = n :: rest → s.plant.free = f :: free → f ≠ n →
     s.plant.pool[n].origin = .host → s.plant.jn[j].green ≠ some st →
     (∀ i : SlotNo, ∀ r, s.plant.req[i] = some r → r.junction ≠ j) → (∀ i ∈ s.plant.arrivals, i ≠ k) →
     s.plant.req[k] = none → (∀ i : SlotNo, i < k → s.plant.req[i] ≠ none) →
     ∃ t, exec .raiseRequest s = .next t ∧ s.Answered t tag 0x40 [1, 2, byte k.val, 2] ∧
       t.plant.jn[j].chain = f :: n :: rest ∧ t.plant.free = free ∧ t.plant.jn[j].level = 16 ∧
       t.plant.pool[f] =
         { stage := st, role := .side, kind := .once, origin := .service, demand := .recall, minimum := 0, split := 0
           passage := 0, allowance := 2, retries := 2, notify := false, status := .waiting, outcome := .none, error := .none
           elapsed := none, slot := some k, staged := none } ∧
       s.plant.EntriesSame t.plant [n, f] ∧ s.plant.OthersSame t.plant j ∧ t.tb = s.tb ∧ t.script = s.script ∧
       (s.plant.jn[j].order = none → s.plant.pool[n].status = .serving →
         t.plant.jn[j].stack =
           [{ slot := k, entry := n, saved := s.plant.pool[n].elapsed.getD 0
              minReached := decide (10 * s.plant.pool[n].minimum ≤ s.plant.pool[n].elapsed.getD 0), prior := 0 }] ∧
         t.plant.pool[n] = { s.plant.pool[n] with status := .waiting, elapsed := none } ∧ t.plant.jn[j].green = none ∧
         t.plant.jn[j].order =
           some { entry := f, live := true, stage := st, tag := s.plant.jn[j].line.lastTag + 1, deadline := none }) ∧
       (∀ o, s.plant.jn[j].order = some o → s.plant.pool[n].status = .waiting →
         t.plant.jn[j].stack = [{ slot := k, entry := n, saved := 0, minReached := false, prior := 0 }] ∧
         t.plant.pool[n] = s.plant.pool[n] ∧ t.plant.jn[j].order = some o ∧ t.plant.jn[j].green = s.plant.jn[j].green)) ∧
  (∀ (s : State) (tag : Byte) (j : JIdx) (id time wait : Nat) (st : Stage) (k kb : SlotNo) (rb : Request) (ab : Active)
     (top bottom : Context) (n nb f : EntryNo) (rest free : List EntryNo),
     s.Takes tag 0x40 [byte j.val, byte id, byte 16, 2, byte (st.val + 1), byte time, byte wait] →
     1 ≤ id → id ≤ 255 → time ≤ 120 → 5 ≤ wait → wait ≤ 255 → s.plant.jn[j].state = .inStep → s.plant.jn[j].level < 16 →
     s.plant.jn[j].stack = [top, bottom] → bottom.slot = kb → top.slot ≠ kb → s.plant.req[kb] = some rb → rb.junction = j →
     rb.state = .active ab → s.plant.jn[j].chain = n :: nb :: rest → (n :: nb :: rest).Nodup → n ≠ bottom.entry →
     s.plant.pool[nb].origin = .service → s.plant.pool[nb].slot = some kb → s.plant.pool[n].slot ≠ some kb →
     s.plant.pool[n].origin = .service → s.plant.pool[n].status = .serving → s.plant.free = f :: free → f ∉ n :: nb :: rest →
     s.plant.pool[nb].notify = false → s.plant.jn[j].order = none → s.plant.jn[j].green ≠ some st → s.plant.NoCandidate j →
     (∀ i : SlotNo, ∀ r, s.plant.req[i] = some r → r.key ≠ { junction := j, source := .central, id := id }) →
     (∀ i ∈ s.plant.arrivals, i ≠ k) → s.plant.req[k] = none → (∀ i : SlotNo, i < k → s.plant.req[i] ≠ none) →
     ∃ t, exec .raiseRequest s = .next t ∧ s.Answered t tag 0x40 [1, 2, byte k.val, 2] ∧ t.plant.req[kb] = none ∧
       t.plant.jn[j].chain = f :: n :: rest ∧ t.plant.free = free ++ [nb] ∧ t.plant.pool[nb] = Entry.clear ∧
       t.plant.pool[f] =
         { stage := st, role := .side, kind := .once, origin := .service, demand := .recall, minimum := 0, split := 0
           passage := 0, allowance := 2, retries := 2, notify := false, status := .waiting, outcome := .none, error := .none
           elapsed := none, slot := some k, staged := none } ∧
       t.plant.pool[n] = { s.plant.pool[n] with status := .waiting, elapsed := none } ∧
       s.plant.EntriesSame t.plant [n, nb, f] ∧ t.plant.jn[j].level = 16 ∧
       t.plant.jn[j].stack =
         [{ slot := k, entry := n, saved := s.plant.pool[n].elapsed.getD 0, minReached := true, prior := s.plant.jn[j].level },
          { slot := top.slot, entry := bottom.entry, saved := bottom.saved, minReached := bottom.minReached
            prior := bottom.prior }] ∧
       t.plant.jn[j].order =
         some { entry := f, live := true, stage := st, tag := s.plant.jn[j].line.lastTag + 1, deadline := none } ∧
       t.plant.jn[j].tally.served =
         (s.plant.jn[j].tally.addServed
           { stage := s.plant.pool[nb].stage, outcome := .cut, duration := s.plant.pool[nb].elapsed.getD 0 }).served ∧
       s.plant.OthersSame t.plant j ∧ t.tb = s.tb ∧ t.script = s.script)

/-- R112, R113: CANCEL REQUEST of a PENDING record frees its slot; a key not in the table is refused with NO_SUCH. R108: a PENDING
record whose wait limit has passed ends EXPIRED: it leaves the table, and an ENDED notice is raised. -/
def Obligations.PendingRequestEnds : Prop :=
  (∀ (s : State) (tag : Byte) (j : JIdx) (src : SourceKind) (id : Nat),
     s.Takes tag 0x41 [byte j.val, src.code, byte id] → id ≤ 255 →
     (src ≠ .guard → 1 ≤ id) → (src = .guard → id ≤ 11) →
     ((∀ i : SlotNo, ∀ r, s.plant.req[i] = some r → r.key ≠ { junction := j, source := src, id := id }) →
       exec .cancelRequest s = .next { s with host := s.host.replied tag 0x41 [2, 4] }) ∧
     (∀ (k : SlotNo) (r : Request), s.plant.req[k] = some r → r.state = .pending →
       r.key = { junction := j, source := src, id := id } →
       (∀ i : SlotNo, i ≠ k → ∀ q, s.plant.req[i] = some q → q.key ≠ r.key) → s.plant.NoCandidateBut j k →
       ∃ t, exec .cancelRequest s = .next t ∧ s.Answered t tag 0x41 [1, byte k.val, 1] ∧
         t.plant = { s.plant with
           req := s.plant.req.set k none, arrivals := s.plant.arrivals.filter fun i => i != k } ∧
         t.tb = s.tb ∧ t.script = s.script)) ∧
  (∀ (s : State) (k : SlotNo) (r : Request), s.plant.req[k] = some r → r.state = .pending →
     (r.arrived + 10 * r.wait ≤ s.now → s.plant.NoCandidateBut r.junction k →
       exec (.waitExpiry k) s = .next ({ s with
         plant := { s.plant with
           req := s.plant.req.set k none
           arrivals := s.plant.arrivals.filter fun i => i != k
           raised := s.plant.raised ++ [.ended k r.key r.level r.action false .expired] } } : State).finish) ∧
     (s.Settled → s.now < r.arrived + 10 * r.wait → exec (.waitExpiry k) s = .next s))

/-- R109, R111, R112, R127, R128: at the service end (SERVED) or the hold end (EXPIRED) of an INSERT that alone holds a junction, its
service entry is retired, the level returns to 0, the stack is empty, and the interrupted SIDE entry is ordered again. Second clause:
CANCEL REQUEST of that INSERT, its service entry CUT (R113, R127). Third: an interrupted BAND entry is ordered again without a force,
the call point reached or not (R129, R130). Fourth: the end of the request beneath another folds its record, and nothing is ordered, an
order in flight of its service entry going on without it (R131, R132). Fifth: at the end of an EXTEND over a SIDE or BAND top the
deferred end that is due, none before the minimum (R57), is taken, and otherwise the top goes on (R129); that SERVED comes before GAPPED
where both are due is the model's choice (assumption log 57). Sixth: the end of the INSERT while an order is in flight: the order goes
on, without its entry if that is the service entry retired, and nothing is ordered (R128, R131); that the force a resumed SIDE top waits
with is held as PENDING also with its minimum reached, and that a service entry confirmed and then covered, its elapsed absent, is
recorded with 0.0 s, are the model's choices (assumption logs 12 and 58). A resumed SIDE top with the band call point reached (R130) is
in O49, BandCallForcesSideTop. -/
def Obligations.InsertEndsAndTopResumes : Prop :=
  (∀ (s : State) (j : JIdx) (k : SlotNo) (r : Request) (a : Active) (n h : EntryNo) (rest : List EntryNo) (ctx : Context),
     s.plant.req[k] = some r → r.junction = j → r.action = .insert → r.state = .active a → s.plant.raised = [] →
     s.plant.jn[j].state = .inStep → s.plant.jn[j].stack = [ctx] → ctx.slot = k → ctx.entry = h → ctx.prior = 0 →
     s.plant.jn[j].chain = n :: h :: rest → n ≠ h → h ∉ rest → n ∉ rest → s.plant.pool[n].origin = .service →
     s.plant.pool[n].slot = some k → s.plant.pool[n].status = .serving → s.plant.pool[n].notify = false →
     s.plant.pool[h].origin = .host → s.plant.pool[h].role = .side → s.plant.pool[h].status = .waiting →
     s.plant.jn[j].order = none → s.plant.jn[j].minWait = none → s.plant.jn[j].callReached = false →
     s.plant.jn[j].green ≠ some s.plant.pool[h].stage → s.plant.NoCandidateBut j k →
     ∀ (c : Instr) (out : ReqOutcome),
       (c = .serviceEnd k ∧ out = .served ∧ ∃ d, a.svcEnd = .due d ∧ d ≤ s.now) ∨
         (c = .holdEnd k ∧ out = .expired ∧ a.holdEnd ≤ s.now ∧ ∀ d, a.svcEnd = .due d → a.holdEnd < d) →
       ∃ t, exec c s = .next t ∧ t.plant.req = s.plant.req.set k none ∧ t.plant.jn[j].level = 0 ∧
         t.plant.jn[j].stack = [] ∧ t.plant.jn[j].chain = h :: rest ∧ t.plant.free = s.plant.free ++ [n] ∧
         t.plant.pool[n] = Entry.clear ∧ s.plant.EntriesSame t.plant [n] ∧
         t.plant.jn[j].order = some { entry := h, live := true, stage := s.plant.pool[h].stage
                                      tag := s.plant.jn[j].line.lastTag + 1, deadline := none } ∧
         t.plant.jn[j].resuming = some { saved := ctx.saved, minReached := ctx.minReached } ∧
         s.plant.OthersSame t.plant j ∧ t.tb = s.tb ∧ t.script = s.script ∧
         (hasClass s.report.armed .priority = true → hasClass s.report.paused .priority = false →
           s.host.frames < 16 → t.host.frames = s.host.frames + 1)) ∧
  (∀ (s : State) (tag : Byte) (src : SourceKind) (id : Nat) (j : JIdx) (k : SlotNo) (r : Request) (a : Active) (n h : EntryNo)
     (rest : List EntryNo) (ctx : Context),
     s.Takes tag 0x41 [byte j.val, src.code, byte id] → id ≤ 255 → (src ≠ .guard → 1 ≤ id) → (src = .guard → id ≤ 11) →
     r.key = { junction := j, source := src, id := id } →
     (∀ i : SlotNo, i ≠ k → ∀ q, s.plant.req[i] = some q → q.key ≠ r.key) →
     s.plant.req[k] = some r → r.junction = j → r.action = .insert → r.state = .active a → s.plant.raised = [] →
     s.plant.jn[j].state = .inStep → s.plant.jn[j].stack = [ctx] → ctx.slot = k → ctx.entry = h → ctx.prior = 0 →
     s.plant.jn[j].chain = n :: h :: rest → n ≠ h → h ∉ rest → n ∉ rest → s.plant.pool[n].origin = .service →
     s.plant.pool[n].slot = some k → s.plant.pool[n].status = .serving → s.plant.pool[n].notify = false →
     s.plant.pool[h].origin = .host → s.plant.pool[h].role = .side → s.plant.pool[h].status = .waiting →
     s.plant.jn[j].order = none → s.plant.jn[j].minWait = none →
     s.plant.jn[j].callReached = false → s.plant.jn[j].green ≠ some s.plant.pool[h].stage → s.plant.NoCandidateBut j k →
     ∃ t, exec .cancelRequest s = .next t ∧ s.Answered t tag 0x41 [1, byte k.val, 2] ∧
       t.plant.req = s.plant.req.set k none ∧ t.plant.jn[j].level = 0 ∧ t.plant.jn[j].stack = [] ∧
       t.plant.jn[j].chain = h :: rest ∧ t.plant.free = s.plant.free ++ [n] ∧
       t.plant.pool[n] = Entry.clear ∧ s.plant.EntriesSame t.plant [n] ∧
       t.plant.jn[j].order = some { entry := h, live := true, stage := s.plant.pool[h].stage
                                    tag := s.plant.jn[j].line.lastTag + 1, deadline := none } ∧
       t.plant.jn[j].resuming = some { saved := ctx.saved, minReached := ctx.minReached } ∧
       t.plant.jn[j].tally.served =
         (s.plant.jn[j].tally.addServed
           { stage := s.plant.pool[n].stage, outcome := .cut, duration := s.plant.pool[n].elapsed.getD 0 }).served ∧
       s.plant.OthersSame t.plant j ∧ t.tb = s.tb ∧ t.script = s.script) ∧
  (∀ (s : State) (j : JIdx) (k : SlotNo) (r : Request) (a : Active) (n h : EntryNo) (rest : List EntryNo) (ctx : Context)
     (d : Nat), s.plant.req[k] = some r → r.junction = j → r.action = .insert → r.state = .active a → s.plant.raised = [] →
     s.plant.jn[j].state = .inStep → s.plant.jn[j].stack = [ctx] → ctx.slot = k → ctx.entry = h → ctx.prior = 0 →
     s.plant.jn[j].chain = n :: h :: rest → n ≠ h → h ∉ rest → n ∉ rest → s.plant.pool[n].origin = .service →
     s.plant.pool[n].slot = some k → s.plant.pool[n].status = .serving → s.plant.pool[n].notify = false →
     s.plant.pool[h].origin = .host → s.plant.pool[h].role = .band → s.plant.pool[h].status = .waiting →
     s.plant.jn[j].order = none → s.plant.jn[j].minWait = none →
     s.plant.jn[j].green ≠ some s.plant.pool[h].stage → s.plant.NoCandidateBut j k → a.svcEnd = .due d → d ≤ s.now →
     ∃ t, exec (.serviceEnd k) s = .next t ∧
       t.plant.req = s.plant.req.set k none ∧ t.plant.jn[j].level = 0 ∧ t.plant.jn[j].stack = [] ∧
       t.plant.jn[j].chain = h :: rest ∧ t.plant.free = s.plant.free ++ [n] ∧
       t.plant.pool[n] = Entry.clear ∧ s.plant.EntriesSame t.plant [n] ∧
       t.plant.jn[j].order = some { entry := h, live := true, stage := s.plant.pool[h].stage
                                    tag := s.plant.jn[j].line.lastTag + 1, deadline := none } ∧
       t.plant.jn[j].force = s.plant.jn[j].force ∧ t.plant.jn[j].resuming = none ∧
       s.plant.OthersSame t.plant j ∧ t.tb = s.tb ∧ t.script = s.script) ∧
  (∀ (s : State) (j : JIdx) (k : SlotNo) (r : Request) (a : Active) (f : EntryNo) (ahead behind : List EntryNo)
     (top bottom : Context) (d : Nat), s.plant.raised = [] → s.plant.req[k] = some r → r.junction = j → r.action = .insert →
     r.state = .active a → a.svcEnd = .due d → d ≤ s.now → s.plant.jn[j].state = .inStep →
     s.plant.jn[j].stack = [top, bottom] → bottom.slot = k → top.slot ≠ k → s.plant.jn[j].chain = ahead ++ f :: behind →
     f ∉ ahead → s.plant.pool[f].origin = .service → s.plant.pool[f].slot = some k →
     (∀ i ∈ ahead, s.plant.pool[i].slot ≠ some k) → s.plant.NoCandidateBut j k →
     ∃ t, exec (.serviceEnd k) s = .next t ∧ t.plant.req = s.plant.req.set k none ∧
       t.plant.jn[j].stack = [{ slot := top.slot, entry := bottom.entry, saved := bottom.saved
                                minReached := bottom.minReached, prior := bottom.prior }] ∧
       t.plant.jn[j].level = s.plant.jn[j].level ∧ (s.plant.jn[j].order = none → t.plant.jn[j].order = none) ∧
       (∀ o, s.plant.jn[j].order = some o →
         t.plant.jn[j].order = some { o with live := if o.entry = f then false else o.live }) ∧
       t.plant.jn[j].line.lastTag = s.plant.jn[j].line.lastTag ∧
       t.plant.jn[j].green = s.plant.jn[j].green ∧ t.plant.jn[j].chain = ahead ++ behind ∧
       t.plant.free = s.plant.free ++ [f] ∧ t.plant.pool[f] = Entry.clear ∧ s.plant.EntriesSame t.plant [f] ∧
       s.plant.OthersSame t.plant j ∧ t.tb = s.tb ∧ t.script = s.script) ∧
  (∀ (s : State) (j : JIdx) (k : SlotNo) (r : Request) (a : Active) (n m : EntryNo) (rest : List EntryNo) (ctx : Context) (d : Nat),
     s.plant.raised = [] → s.plant.req[k] = some r → r.junction = j → r.action = .extend → r.state = .active a →
     a.svcEnd = .due d → d ≤ s.now → s.plant.jn[j].state = .inStep → s.plant.jn[j].stack = [ctx] → ctx.slot = k →
     ctx.entry = n → ctx.prior = 0 → s.plant.jn[j].chain = n :: m :: rest → n ≠ m → s.plant.pool[n].origin = .host →
     s.plant.pool[n].kind = .recurring → s.plant.pool[n].status = .serving → s.plant.jn[j].order = none →
     s.plant.jn[j].minWait = none → s.plant.jn[j].force = false →
     s.plant.jn[j].callReached = false ∨ s.plant.pool[n].role = .band →
     s.plant.jn[j].dwell = false → s.plant.jn[j].allowance = none →
     (s.plant.pool[m].role = .side ∧ s.plant.pool[m].demand = .recall) → s.plant.jn[j].green ≠ some s.plant.pool[m].stage →
     (∀ i : EntryNo, s.plant.pool[i].origin = .service → s.plant.pool[i].slot ≠ some k) → s.plant.NoCandidateBut j k →
     let x := s.plant.pool[n]
     let past : Prop := 10 * x.minimum ≤ x.elapsed.getD 0
     let ends (out : EntryOutcome) : Prop := ∃ t, exec (.serviceEnd k) s = .next t ∧ t.plant.req = s.plant.req.set k none ∧
       t.plant.jn[j].level = 0 ∧ t.plant.jn[j].stack = [] ∧ t.plant.jn[j].chain = m :: (rest ++ [n]) ∧
       t.plant.pool[n] = { x with status := .waiting, elapsed := none, outcome := out, retries := x.allowance, error := .none } ∧
       s.plant.EntriesSame t.plant [n] ∧
       t.plant.jn[j].order = some { entry := m, live := true, stage := s.plant.pool[m].stage
                                    tag := s.plant.jn[j].line.lastTag + 1, deadline := none } ∧
       s.plant.OthersSame t.plant j ∧ t.tb = s.tb ∧ t.script = s.script
     let goesOn : Prop := ∃ t, exec (.serviceEnd k) s = .next t ∧ t.plant.req = s.plant.req.set k none ∧
       t.plant.jn[j] = { s.plant.jn[j] with level := 0, stack := [] } ∧ t.plant.pool = s.plant.pool ∧
       s.plant.OthersSame t.plant j ∧ t.tb = s.tb ∧ t.script = s.script
     let gap : Prop := x.demand = .call ∧ past ∧ s.plant.jn[j].det.gap[x.stage] = .expired
     let due : Prop := 10 * x.split ≤ x.elapsed.getD 0 ∧ past
     (x.role = .side → due → ends .served) ∧
     (x.role = .side → ¬due → gap → ends .gapped) ∧
     (x.role = .side → ¬due → ¬gap → goesOn) ∧
     (x.role = .band → s.plant.jn[j].endPassed = true → past → ends .served) ∧
     (x.role = .band → s.plant.jn[j].endPassed = false ∨ ¬past → goesOn)) ∧
  (∀ (s : State) (j : JIdx) (k : SlotNo) (r : Request) (a : Active) (n h : EntryNo) (rest : List EntryNo) (ctx : Context)
     (o : OrderInFlight) (c : Instr) (out : ReqOutcome), s.InsertOver j k r a n h rest ctx → s.EndsBy k r a c out →
     s.plant.jn[j].order = some o →
     ∃ t, exec c s = .next t ∧ s.Popped t j k n ∧ t.plant.jn[j].chain = h :: rest ∧ s.plant.EntriesSame t.plant [n] ∧
       t.plant.jn[j].order = some { o with live := if o.entry = n then false else o.live } ∧
       t.plant.jn[j].line = s.plant.jn[j].line ∧ t.plant.jn[j].green = s.plant.jn[j].green ∧
       (s.plant.pool[h].role = .side →
         t.plant.jn[j].resuming = some { saved := ctx.saved, minReached := ctx.minReached } ∧
         t.plant.jn[j].force = (s.plant.jn[j].force || s.plant.jn[j].callReached)) ∧
       (s.plant.pool[h].role = .band → t.plant.jn[j].resuming = none ∧ t.plant.jn[j].force = s.plant.jn[j].force) ∧
       t.plant.jn[j].tally.served =
         (s.plant.jn[j].tally.addServed
           { stage := s.plant.pool[n].stage, outcome := if out = .cancelled then .cut else .served
             duration := s.plant.pool[n].elapsed.getD 0 }).served)

/-! ## Scripts -/

/-- R150, R149: LOAD STEP of a hold and no blocks joins the open steps of its queue, unless the queue's junction is ABSENT or the
store is full. Second clause: LOAD STEP of a hold and up to 6 blocks: a hold or a block value outside its range, or a block of the other
kind of queue, is refused with RANGE, the queue of an ABSENT junction with NO_SUCH, a full store with NO_ROOM; otherwise the step joins. -/
def Obligations.StepIsLoaded : Prop :=
  (∀ (s : State) (tag : Byte) (q : QueueNo) (hold : Nat), s.Takes tag 0x60 [byte q.val, byte hold, 0] →
     hold ≤ 255 →
     (hold = 0 ∨ 63 < hold → exec .loadStep s = .next { s with host := s.host.replied tag 0x60 [2, 2] }) ∧
     (1 ≤ hold → hold ≤ 63 → (∃ j : JIdx, j.val = q.val ∧ s.plant.jn[j].state = .absent) →
       exec .loadStep s = .next { s with host := s.host.replied tag 0x60 [2, 4] }) ∧
     (1 ≤ hold → hold ≤ 63 → (∀ j : JIdx, j.val = q.val → s.plant.jn[j].state ≠ .absent) →
       s.script.held < 256 → ∃ t, exec .loadStep s = .next t ∧
         t.script = { s.script with queues := s.script.queues.set q (s.script.queues[q] ++ [.step hold []]) } ∧
         t.tb = s.tb ∧ t.plant = s.plant ∧ t.report = s.report ∧
         s.Answered t tag 0x60 [1, byte q.val, byte (openSteps s.script.queues[q]), byte ((255 - s.script.held) / 256),
           byte (255 - s.script.held)])) ∧
  (∀ (s : State) (tag : Byte) (q : QueueNo) (hold : Nat) (bs : List (Block × Byte)),
     s.Takes tag 0x60 (byte q.val :: byte hold :: byte bs.length :: bs.flatMap fun b => b.1.bytes b.2) → hold ≤ 255 →
     bs.length ≤ 6 → (∀ b ∈ bs, b.1.fits) →
     let good : Prop := 1 ≤ hold ∧ hold ≤ 63 ∧ ∀ b ∈ bs, (b.1.isMaster = true ↔ q = masterQueue) ∧ b.1.inRange = true
     (¬good → exec .loadStep s = .next { s with host := s.host.replied tag 0x60 [2, 2] }) ∧
     (good → (∃ j : JIdx, j.val = q.val ∧ s.plant.jn[j].state = .absent) →
       exec .loadStep s = .next { s with host := s.host.replied tag 0x60 [2, 4] }) ∧
     (good → (∀ j : JIdx, j.val = q.val → s.plant.jn[j].state ≠ .absent) → 256 ≤ s.script.held →
       exec .loadStep s = .next { s with host := s.host.replied tag 0x60 [2, 5] }) ∧
     (good → (∀ j : JIdx, j.val = q.val → s.plant.jn[j].state ≠ .absent) → s.script.held < 256 →
       exec .loadStep s = .next { s with
         script := { s.script with
           queues := s.script.queues.set q (s.script.queues[q] ++ [.step hold (bs.map Prod.fst)]) }
         host := s.host.replied tag 0x60 [1, byte q.val, byte (openSteps s.script.queues[q]),
           byte ((255 - s.script.held) / 256), byte (255 - s.script.held)] }))

/-- R151: CLOSE GROUP puts an end mark behind every queue and its not-before time at the end of the list; R152: DROP SCRIPTS with
no group running empties every queue and the list. R154, R155: at a master zero of a COORDINATING corridor the oldest group starts if its
time allows. R156, R163, R164: a cycle start of a queue's owner counts its hold down and at 0 reads the next item: an end mark ends the
queue, a step is tried, and a faulted step drops the rest of its group there; the last queue to end raises FINISHED. R158: master steps;
R159 to R162: junction steps, applied whole or not at all. That a step's place counts from 0 is the model's reading (assumption log 41);
that a group start reads the time of day before an advance due in the same tenth is its choice (log 79). -/
def Obligations.GroupsAreClosedAndDropped : Prop :=
  (∀ (s : State) (tag : Byte),
     (∀ a b c : Byte, s.Takes tag 0x61 [1, a, b, c] → 65536 * a.toNat + 256 * b.toNat + c.toNat < 86400 →
       (s.script.notBefore.length < 4 → s.script.held + 13 ≤ 256 → ∃ t, exec .closeGroup s = .next t ∧
         t.script = { s.script with
           queues := s.script.queues.map fun q => q ++ [.endMark]
           notBefore := s.script.notBefore ++ [some (65536 * a.toNat + 256 * b.toNat + c.toNat)] } ∧
         t.tb = s.tb ∧ t.plant = s.plant ∧ t.report = s.report ∧
         s.Answered t tag 0x61 [1, byte (s.script.notBefore.length + 1), byte ((243 - s.script.held) / 256),
           byte (243 - s.script.held)]) ∧
       (4 ≤ s.script.notBefore.length ∨ 243 < s.script.held →
         exec .closeGroup s = .next { s with host := s.host.replied tag 0x61 [2, 5] })) ∧
     (s.Takes tag 0x62 [] → (∀ q : QueueNo, s.script.running[q] = false) → ∃ t, exec .dropScripts s = .next t ∧
       t.script = { s.script with queues := Vector.replicate 13 [], notBefore := [] } ∧
       t.tb = s.tb ∧ t.plant = s.plant ∧ t.report = s.report ∧
       s.Answered t tag 0x62 [1, byte s.script.notBefore.length, byte (s.script.held / 256), byte s.script.held])) ∧
  (∀ (s : State) (nb : Option Nat) (rest : List (Option Nat)), s.Settled → 10 * s.tb.c ≤ s.tb.m + 1 → s.tb.staged = none →
     s.tb.corridor = .coordinating → (∀ q : QueueNo, s.script.running[q] = false) → s.script.notBefore = nb :: rest →
     let opens : Prop := ∀ n, nb = some n → ∃ t, s.tb.tod = some t ∧ (t + 86400 - n) % 86400 < 43200
     (¬opens → ∃ t, exec .masterZero s = .next t ∧ t.script = s.script) ∧
     (opens → ∃ t, exec .masterZero s = .next t ∧ t.script.notBefore = rest ∧
       (∀ q : QueueNo, ∀ behind, s.script.queues[q] = .endMark :: behind →
         t.script.queues[q] = behind ∧ t.script.running[q] = false) ∧
       (∀ q : QueueNo, q ≠ masterQueue → s.script.queues[q].head? ≠ some .endMark →
         t.script.queues[q] = s.script.queues[q] ∧ t.script.running[q] = true ∧ t.script.hold[q] = 1) ∧
       (hasClass s.report.armed .script = true → hasClass s.report.paused .script = true →
         hasClass t.report.pend .script = true))) ∧
  ((∀ (s : State) (j : JIdx), s.plant.jn[j].state ≠ .absent → s.plant.jn[j].span ≤ s.plant.jn[j].p →
      s.plant.jn[j].stagedPlan = none → (∀ i ∈ s.plant.jn[j].chain, s.plant.pool[i].staged = none) →
      s.plant.jn[j].guard.staged = none → s.plant.jn[j].det.stagedMap = none →
      ∃ t, exec (.localCycleStart j) s = .next t ∧ t.script = (s.countDown (junctionQueue j)).script) ∧
   (∀ s : State, 10 * s.tb.c ≤ s.tb.m + 1 → s.tb.staged = none → s.script.running[masterQueue] = true →
      ∃ t, exec .masterZero s = .next t ∧ t.script = (s.countDown masterQueue).script ∧
        t.tb = { (s.countDown masterQueue).tb with m := 0 })) ∧
  (∀ (s : State) (q : QueueNo),
     let finished : List Notice :=
       if ∃ r : QueueNo, r ≠ q ∧ s.script.running[r] = true then [] else [.finished s.tb.tod]
     (s.script.running[q] = false → s.countDown q = s) ∧
     (s.script.running[q] = true → 2 ≤ s.script.hold[q] →
       s.countDown q = { s with script := { s.script with hold := s.script.hold.set q (s.script.hold[q] - 1) } }) ∧
     (∀ rest, s.script.running[q] = true → s.script.hold[q] = 1 → s.script.queues[q] = .endMark :: rest →
       s.countDown q = { s with
         script := { s.script with
           queues := s.script.queues.set q rest, running := s.script.running.set q false, hold := s.script.hold.set q 0 }
         plant := { s.plant with raised := s.plant.raised ++ finished } }) ∧
     (∀ hold blocks rest, s.script.running[q] = true → s.script.hold[q] = 1 →
       s.script.queues[q] = .step hold blocks :: rest →
       ((s.tryStep q blocks).2 = none → s.countDown q = { (s.tryStep q blocks).1 with
         script := { s.script with
           queues := s.script.queues.set q rest, place := s.script.place.set q (s.script.place[q] + 1)
           hold := s.script.hold.set q hold } }) ∧
       (∀ r j, (s.tryStep q blocks).2 = some (r, j) → s.countDown q = { s with
         script := { s.script with
           queues := s.script.queues.set q (dropGroup rest), place := s.script.place.set q (s.script.place[q] + 1)
           running := s.script.running.set q false, hold := s.script.hold.set q 0 }
         plant := { s.plant with
           raised := s.plant.raised ++ .scriptFault q s.script.place[q] r j :: finished } }))) ∧
  ((∀ (s : State) (c : Nat),
      let fails (j : JIdx) : Prop := s.plant.jn[j].state ≠ .absent ∧
        ((c % 2 = 1 ∧ s.plant.jn[j].plan.mult = 2) ∨ c ≤ s.plant.jn[j].plan.offset * s.plant.jn[j].plan.mult ∨
          c < feasibilitySum (s.plant.chainEntries j) s.plant.jn[j].plan.a * s.plant.jn[j].plan.mult)
      (c = s.tb.c ∨ (∀ j, ¬fails j) →
        s.tryStep masterQueue [.cycle c] = ({ s with tb := { s.tb with c := c } }, none)) ∧
      (∀ j : JIdx, c ≠ s.tb.c → fails j → (∀ i, i < j → ¬fails i) → s.tryStep masterQueue [.cycle c] =
        (s, some (if (c % 2 = 1 ∧ s.plant.jn[j].plan.mult = 2) ∨ c ≤ s.plant.jn[j].plan.offset * s.plant.jn[j].plan.mult
          then .range else .infeasible, some j)))) ∧
   (∀ (s : State) (d : Direction), ∃ t, s.tryStep masterQueue [.direction d] = (t, none) ∧ t.tb = { s.tb with dir := d } ∧
      t.script = s.script ∧ t.plant.pool = s.plant.pool ∧
      ∀ j : JIdx, t.plant.jn[j] =
        if d ≠ s.tb.dir ∧ s.plant.jn[j].guard.probe.active = true
        then { s.plant.jn[j] with guard := { s.plant.jn[j].guard with probe := .off } } else s.plant.jn[j])) ∧
  (∀ (s : State) (j : JIdx),
     let J := s.plant.jn[j]
     let len := s.tb.c / J.plan.mult
     let stepped (K : Junction) : Junction := { K with tally := { K.tally with scriptStep := true } }
     let sum (es : List Entry) : Nat := feasibilitySum es J.plan.a * J.plan.mult
     (∀ o : Int,
       (len / 5 < o.natAbs → s.tryStep (junctionQueue j) [.offset o] = (s, some (.range, none))) ∧
       (o.natAbs ≤ len / 5 → s.tb.c < sum (s.plant.chainEntries j) →
         s.tryStep (junctionQueue j) [.offset o] = (s, some (.infeasible, none))) ∧
       (o.natAbs ≤ len / 5 → sum (s.plant.chainEntries j) ≤ s.tb.c → ∃ t, s.tryStep (junctionQueue j) [.offset o] = (t, none) ∧
         t.tb = s.tb ∧ t.plant.pool = s.plant.pool ∧ s.plant.OthersSame t.plant j ∧
         (o = 0 → t.plant.jn[j] = stepped J) ∧
         (o ≠ 0 → t.plant.jn[j] = stepped { J with
           plan := { J.plan with offset := (((J.plan.offset : Int) + o) % (len : Int)).toNat }, span := t.plant.jn[j].span }) ∧
         (o ≠ 0 → J.p = 0 → s.tb.c = len * J.plan.mult → (s.tb.m : Int) % (10 * len : Nat) = 10 * J.plan.offset →
           J.plan.offset < len → 10 ≤ len → (t.plant.jn[j].span : Int) = 10 * len + 10 * o))) ∧
     (∀ (st : Stage) (v : Nat),
       let aimed (x : Entry) : Prop := x.origin = .host ∧ x.kind = .recurring ∧ x.stage = st
       let set (x : Entry) : Entry := if aimed x then { x with split := v } else x
       ((∃ x ∈ s.plant.chainEntries j, aimed x ∧ v < x.minimum) →
         s.tryStep (junctionQueue j) [.split st v] = (s, some (.range, none))) ∧
       ((∀ x ∈ s.plant.chainEntries j, aimed x → x.minimum ≤ v) →
         (s.tb.c < sum ((s.plant.chainEntries j).map set) →
           s.tryStep (junctionQueue j) [.split st v] = (s, some (.infeasible, none))) ∧
         (sum ((s.plant.chainEntries j).map set) ≤ s.tb.c → ∃ t, s.tryStep (junctionQueue j) [.split st v] = (t, none) ∧
           t.tb = s.tb ∧ t.plant.jn[j] = stepped J ∧ s.plant.OthersSame t.plant j ∧
           ∀ n : EntryNo, t.plant.pool[n] = if n ∈ J.chain then set s.plant.pool[n] else s.plant.pool[n]))) ∧
     (∀ th fl : Nat,
       (s.tb.c < sum (s.plant.chainEntries j) →
         s.tryStep (junctionQueue j) [.guard th fl] = (s, some (.infeasible, none))) ∧
       (sum (s.plant.chainEntries j) ≤ s.tb.c → ∃ t, s.tryStep (junctionQueue j) [.guard th fl] = (t, none) ∧ t.tb = s.tb ∧
         t.plant.pool = s.plant.pool ∧ s.plant.OthersSame t.plant j ∧ t.plant.jn[j] = stepped { J with
           guard := { J.guard with settings := { J.guard.settings with threshold := th, flushTime := fl } } })))

/-! ## Report block -/

/-- R192, R193: ARM, PAUSE and RESUME NOTICES set and clear the marks of the classes in their set and answer with all marks; an
empty set, another action than arm and disarm, or a body of another length is refused with FORM. Second clause: RESUME NOTICES queues,
behind its answer and while the queue has room, the CATCH-UP of each class of the set that is ARMED and PENDING, in class table order
(R191, first occasion; assumption logs 18 and 19 name what the model chose about it); a class without room stays PENDING. -/
def Obligations.NoticeMarksAreSet : Prop :=
  (∀ (s : State) (tag set : Byte), set ≠ 0 →
     (s.Takes tag 0x70 [set, 1] → exec .armNotices s = .next { s with
       report := { s.report with armed := s.report.armed ||| set }
       host := s.host.replied tag 0x70 [1, s.report.armed ||| set, s.report.paused, s.report.pend] }) ∧
     (s.Takes tag 0x70 [set, 0] → exec .armNotices s = .next { s with
       report := { s.report with armed := s.report.armed &&& ~~~set, pend := s.report.pend &&& ~~~set }
       host := s.host.replied tag 0x70
         [1, s.report.armed &&& ~~~set, s.report.paused, s.report.pend &&& ~~~set] }) ∧
     (s.Takes tag 0x71 [set] → exec .pauseNotices s = .next { s with
       report := { s.report with paused := s.report.paused ||| set }
       host := s.host.replied tag 0x71 [1, s.report.armed, s.report.paused ||| set, s.report.pend] }) ∧
     (s.Takes tag 0x72 [set] → s.report.pend = 0 → exec .resumeNotices s = .next { s with
       report := { s.report with paused := s.report.paused &&& ~~~set }
       host := s.host.replied tag 0x72 [1, s.report.armed, s.report.paused &&& ~~~set, s.report.pend] }) ∧
     (∀ body : List Byte, s.Takes tag 0x70 body →
       body.length ≠ 2 ∨ (∃ act, body = [0, act]) ∨ (∃ cls act, body = [cls, act] ∧ act ≠ 0 ∧ act ≠ 1) →
       exec .armNotices s = .next { s with host := s.host.replied tag 0x70 [2, 1] }) ∧
     (s.Takes tag 0x71 [0] → exec .pauseNotices s = .next { s with host := s.host.replied tag 0x71 [2, 1] }) ∧
     (s.Takes tag 0x72 [0] → exec .resumeNotices s = .next { s with host := s.host.replied tag 0x72 [2, 1] })) ∧
  (∀ (s : State) (tag set : Byte), set ≠ 0 → s.Takes tag 0x72 [set] →
     let due := NoticeClass.all.filter fun c => hasClass set c && hasClass s.report.armed c && hasClass s.report.pend c
     let sent := due.take (15 - s.host.frames)
     ∃ t, exec .resumeNotices s = .next t ∧ t.report.armed = s.report.armed ∧
       t.report.paused = s.report.paused &&& ~~~set ∧
       (∀ c : NoticeClass, hasClass t.report.pend c = (hasClass s.report.pend c && !sent.contains c)) ∧
       t.host = HostPort.choose { s.host with
         intake := s.host.intake.tail
         queue := s.host.queue ++ answerFrame tag 0x72
             [1, s.report.armed, s.report.paused &&& ~~~set, s.report.pend] :: sent.map catchUpFrame } ∧
       t.plant = s.plant ∧ t.tb = s.tb ∧ t.script = s.script) ∧
  (∀ (s : State) (tag : Byte) (body : List Byte), body.length ≠ 1 →
     (s.Takes tag 0x71 body → exec .pauseNotices s = .next { s with host := s.host.replied tag 0x71 [2, 1] }) ∧
     (s.Takes tag 0x72 body → exec .resumeNotices s = .next { s with host := s.host.replied tag 0x72 [2, 1] }))

/-- R196: FETCH RECORDS returns the oldest n records, or as many as are held, and the read position passes them. -/
def Obligations.RecordsAreFetched : Prop :=
  (∀ (s : State) (tag : Byte) (n : Nat), s.Takes tag 0x73 [byte n] → n ≤ 255 →
    (n = 0 ∨ 4 < n → exec .fetchRecords s = .next { s with host := s.host.replied tag 0x73 [2, 2] }) ∧
    (1 ≤ n → n ≤ 4 → s.report.Whole → ∃ (t : State) (rs : List CycleRecord), exec .fetchRecords s = .next t ∧
      rs.length = min n s.report.held ∧
      (∀ i (hi : i < rs.length), s.report.slots[(s.report.rd.val + i) % 48]'(Nat.mod_lt _ (by decide)) = some rs[i]) ∧
      t.report.held = s.report.held - rs.length ∧ t.report.rd.val = (s.report.rd.val + rs.length) % 48 ∧
      t.report.wr = s.report.wr ∧ t.report.gap = s.report.gap ∧ t.report.armed = s.report.armed ∧
      t.report.pend = s.report.pend ∧ t.tb = s.tb ∧ t.plant = s.plant ∧ t.script = s.script ∧
      s.Answered t tag 0x73
        (1 :: byte (s.report.held - rs.length) :: byte rs.length :: rs.flatMap State.recordForm))) ∧
  (∀ (s : State) (tag : Byte) (body : List Byte), s.Takes tag 0x73 body → body.length ≠ 1 →
    exec .fetchRecords s = .next { s with host := s.host.replied tag 0x73 [2, 1] })

/-! ## The events of the sequencer -/

/-- An event of a junction, a slot or a line leaves the timebase, the script unit, the intake, the
answers, the ARMED and PAUSED marks and the cycle record queue as they are. -/
def Obligations.EventsTouchOnlyThePlant : Prop :=
  ∀ (c : Instr) (s t : State),
    (match c with
      | .bandEndPoint _ | .bandCallPoint _ | .minimumExpiry _ | .splitExpiry _ | .allowanceExpiry _ | .minimumWaitEnd _
      | .confirmTimeout _ | .reportReceived _ _ _ | .waitExpiry _ | .serviceEnd _ | .holdEnd _ | .gapExpiry _ _
      | .stuckDetected _ _ | .spillDue _ | .corridorFrameDiscard _ _ _ | .corridorByteGapExpiry _ _ | .lineSilence _
      | .corridorFrameSent _ | .keepDue _ | .releaseDue _ => True
      | _ => False) →
    exec c s = .next t → s.EventFrame t

/-- R57, R58, R85, R128: a SIDE entry at level 0 ends SERVED at its split or, resumed, at its resume allowance, and GAPPED when its
gap timer and its minimum have both expired, whichever comes last; the next entry is ordered. Its minimum must expire before the split end
(R57): with the minimum above the split nothing ends before it, and the entry then ends at the expiry of the minimum, SERVED unless it gaps
out there; that GAPPED comes first there is the model's choice (assumption log 72), and so is the allowance alone deciding (log 64). -/
def Obligations.SideEntryEndsAndTurns : Prop :=
  ∀ (s : State) (j : JIdx) (n m : EntryNo) (rest : List EntryNo), s.Turning j n m rest →
    s.plant.jn[j].force = false →
    (s.plant.jn[j].allowance = none → 10 * s.plant.pool[n].split ≤ s.plant.pool[n].elapsed.getD 0 →
      (10 * s.plant.pool[n].minimum ≤ s.plant.pool[n].elapsed.getD 0 →
        ∃ t, exec (.splitExpiry j) s = .next t ∧ s.Turned t j n m rest .served) ∧
      (s.plant.pool[n].elapsed.getD 0 < 10 * s.plant.pool[n].minimum →
        exec (.splitExpiry j) s = .next s ∧ exec (.minimumExpiry j) s = .next s) ∧
      (10 * s.plant.pool[n].minimum ≤ s.plant.pool[n].elapsed.getD 0 →
        s.plant.pool[n].demand ≠ .call ∨ s.plant.jn[j].det.gap[s.plant.pool[n].stage] ≠ .expired →
        ∃ t, exec (.minimumExpiry j) s = .next t ∧ s.Turned t j n m rest .served)) ∧
    (∀ a, s.plant.jn[j].allowance = some a → a ≤ s.plant.pool[n].elapsed.getD 0 →
      ∃ t, exec (.allowanceExpiry j) s = .next t ∧ s.Turned t j n m rest .served) ∧
    (s.plant.pool[n].demand = .call → 10 * s.plant.pool[n].minimum ≤ s.plant.pool[n].elapsed.getD 0 →
      (s.plant.jn[j].det.gap[s.plant.pool[n].stage] = .expired → ∃ t, exec (.minimumExpiry j) s = .next t ∧
        s.Turned t j n m rest .gapped) ∧
      (∀ d, s.plant.jn[j].det.gap[s.plant.pool[n].stage] = .running d → d ≤ s.now →
        ∃ t, exec (.gapExpiry j (s.plant.pool[n].stage.val + 1)) s = .next t ∧
          s.Turned t j n m rest .gapped))

/-- R64, R65: a SIDE top past its minimum ends FORCED when the band call point is reached, and when its minimum expires under a PENDING
force; here the BAND entry stands next and is ordered. A SIDE top before its minimum takes the force mark. Second clause: the end of an
INSERT, by its service end, its hold end or a cancel, over a SIDE entry when the call point has been reached (R130): taken over with its
minimum reached the resumed top ends FORCED at once; taken over before it, it is served from 0.0 s under a PENDING force with the resume
allowance of R128; being ordered, the force is PENDING, the mark minimum reached or not (that a force waiting for a confirmation is held
as PENDING is the model's choice, assumption log 12; O55 has that confirmation). Third: the end of an EXTEND over a SERVING SIDE top
with the call point reached: FORCED past the minimum, a PENDING force before it (R130); that the force comes before a deferred end that
is due too, a split passed or a gap timer expired (R129), is the model's choice (assumption log 36). -/
def Obligations.BandCallForcesSideTop : Prop :=
  (∀ (s : State) (j : JIdx) (n m : EntryNo) (rest : List EntryNo), s.Turning j n m rest → s.plant.pool[m].role = .band →
     (s.plant.jn[j].force = true → 10 * s.plant.pool[n].minimum ≤ s.plant.pool[n].elapsed.getD 0 →
       ∃ t, exec (.minimumExpiry j) s = .next t ∧ s.Turned t j n m rest .forced ∧ t.plant.jn[j].force = false) ∧
     (s.plant.jn[j].callDone = false → s.plant.jn[j].span ≤ s.plant.jn[j].p + 10 * s.plant.jn[j].plan.a →
       s.plant.jn[j].endDone = true →
       (10 * s.plant.pool[n].minimum ≤ s.plant.pool[n].elapsed.getD 0 →
         ∃ t, exec (.bandCallPoint j) s = .next t ∧ s.Turned t j n m rest .forced ∧ t.plant.jn[j].force = false ∧
           t.plant.jn[j].callReached = true) ∧
       (s.plant.pool[n].elapsed.getD 0 < 10 * s.plant.pool[n].minimum →
         exec (.bandCallPoint j) s = .next { s with
           plant := s.plant.upd j fun J => { J with callDone := true, callReached := true, force := true } }))) ∧
  (∀ (s : State) (j : JIdx) (k : SlotNo) (r : Request) (a : Active) (n h : EntryNo) (rest : List EntryNo) (ctx : Context)
     (c : Instr) (out : ReqOutcome), s.InsertOver j k r a n h rest ctx → s.EndsBy k r a c out → s.plant.pool[h].role = .side →
     s.plant.jn[j].callReached = true → s.plant.jn[j].order = none →
     (∀ (b : EntryNo) (skipped behind : List EntryNo), rest = skipped ++ b :: behind → s.BandBehind h b skipped behind →
       s.plant.jn[j].green = some s.plant.pool[h].stage → ctx.minReached = true →
       ∃ t, exec c s = .next t ∧ s.Popped t j k n ∧ s.ForcedOff t j h b skipped behind [n]) ∧
     (s.plant.jn[j].green = some s.plant.pool[h].stage → ctx.minReached = false →
       ∃ t, exec c s = .next t ∧ s.Popped t j k n ∧ t.plant.jn[j].chain = h :: rest ∧
         t.plant.pool[h] = { s.plant.pool[h] with status := .serving, elapsed := some 0 } ∧ s.plant.EntriesSame t.plant [n, h] ∧
         t.plant.jn[j].order = none ∧ t.plant.jn[j].green = s.plant.jn[j].green ∧ t.plant.jn[j].force = true ∧
         t.plant.jn[j].resuming = none ∧ t.plant.jn[j].allowance =
           some (max (10 * s.plant.pool[h].split - ctx.saved) (10 * s.plant.pool[h].minimum))) ∧
     (s.plant.jn[j].green ≠ some s.plant.pool[h].stage →
       ∃ t, exec c s = .next t ∧ s.Popped t j k n ∧ t.plant.jn[j].chain = h :: rest ∧
         s.plant.EntriesSame t.plant [n] ∧
         t.plant.jn[j].order = some { entry := h, live := true, stage := s.plant.pool[h].stage
                                      tag := s.plant.jn[j].line.lastTag + 1, deadline := none } ∧
         t.plant.jn[j].green = none ∧ t.plant.jn[j].force = true ∧
         t.plant.jn[j].resuming = some { saved := ctx.saved, minReached := ctx.minReached })) ∧
  (∀ (s : State) (j : JIdx) (k : SlotNo) (r : Request) (a : Active) (n : EntryNo) (rest : List EntryNo) (ctx : Context)
     (c : Instr) (out : ReqOutcome), s.plant.raised = [] → s.plant.req[k] = some r → r.junction = j →
     r.action = .extend → r.state = .active a → s.EndsBy k r a c out → s.plant.jn[j].state = .inStep →
     s.plant.jn[j].stack = [ctx] → ctx.slot = k → ctx.entry = n → ctx.prior = 0 →
     s.plant.jn[j].chain = n :: rest → s.plant.pool[n].origin = .host →
     s.plant.pool[n].role = .side → s.plant.pool[n].status = .serving → s.plant.jn[j].green = some s.plant.pool[n].stage →
     s.plant.jn[j].order = none → s.plant.jn[j].minWait = none → s.plant.jn[j].callReached = true →
     (∀ i : EntryNo, s.plant.pool[i].origin = .service → s.plant.pool[i].slot ≠ some k) → s.plant.NoCandidateBut j k →
     (∀ (b : EntryNo) (skipped behind : List EntryNo), rest = skipped ++ b :: behind → s.BandBehind n b skipped behind →
       10 * s.plant.pool[n].minimum ≤ s.plant.pool[n].elapsed.getD 0 →
       ∃ t, exec c s = .next t ∧ t.plant.req = s.plant.req.set k none ∧ t.plant.jn[j].level = 0 ∧ t.plant.jn[j].stack = [] ∧
         s.ForcedOff t j n b skipped behind [] ∧ t.plant.free = s.plant.free ∧ t.tb = s.tb ∧ t.script = s.script) ∧
     (s.plant.pool[n].elapsed.getD 0 < 10 * s.plant.pool[n].minimum →
       ∃ t, exec c s = .next t ∧ t.plant.req = s.plant.req.set k none ∧
         t.plant.jn[j] = { s.plant.jn[j] with level := 0, stack := [], force := true } ∧ t.plant.pool = s.plant.pool ∧
         s.plant.OthersSame t.plant j ∧ t.plant.free = s.plant.free ∧ t.tb = s.tb ∧ t.script = s.script))

/-- R27, R50: at its band call point a JOINING junction rotates the entries ahead of the BAND entry without an outcome and orders
the BAND stage. -/
def Obligations.JoiningTakesUpTheBand : Prop :=
  ∀ (s : State) (j : JIdx) (ahead behind : List EntryNo) (b : EntryNo), s.Settled →
    s.plant.jn[j].state = .joining → s.plant.jn[j].order = none → s.plant.jn[j].chain = ahead ++ b :: behind →
    (ahead ++ b :: behind).length ≤ 16 → (ahead ++ b :: behind).Nodup →
    (∀ n ∈ ahead, s.plant.pool[n].role = .side ∧ s.plant.pool[n].status = .waiting ∧ s.plant.pool[n].elapsed = none) →
    s.plant.pool[b].role = .band → s.plant.jn[j].callDone = false → s.plant.jn[j].endDone = true →
    s.plant.jn[j].span ≤ s.plant.jn[j].p + 10 * s.plant.jn[j].plan.a →
    ∃ t, exec (.bandCallPoint j) s = .next t ∧ s.PlantOnly t ∧ t.plant.jn[j].chain = b :: (behind ++ ahead) ∧
      t.plant.pool = s.plant.pool ∧ t.plant.jn[j].state = .joining ∧ t.plant.jn[j].callReached = true ∧
      t.plant.jn[j].order = some { entry := b, live := true, stage := s.plant.pool[b].stage
                                   tag := s.plant.jn[j].line.lastTag + 1, deadline := none } ∧
      t.plant.jn[j].completions = s.plant.jn[j].completions ∧ s.plant.OthersSame t.plant j ∧ t.plant.free = s.plant.free

/-- R12, R60: the band end point sets the end-passed mark; a BAND top past its minimum at level 0 goes to DWELL if no SIDE entry
of the chain is servable, and before its minimum, or above level 0, nothing more happens. -/
def Obligations.BandEndMarksOrDwells : Prop :=
  ∀ (s : State) (j : JIdx) (n : EntryNo) (rest : List EntryNo), s.Settled → s.plant.NoCandidate j →
    s.plant.jn[j].state = .inStep → s.plant.jn[j].chain = n :: rest → s.plant.pool[n].role = .band →
    s.plant.pool[n].origin = .host → s.plant.pool[n].status = .serving → s.plant.jn[j].endDone = false →
    s.plant.jn[j].moved = none → 10 * s.plant.pool[n].split ≤ s.plant.jn[j].p →
    10 * s.plant.pool[n].split + 10 * s.plant.jn[j].plan.a ≤ s.plant.jn[j].span →
    (0 < s.plant.jn[j].level ∨ s.plant.pool[n].elapsed.getD 0 < 10 * s.plant.pool[n].minimum →
      exec (.bandEndPoint j) s = .next { s with
        plant := s.plant.upd j fun J => { J with endDone := true, endPassed := true } }) ∧
    (s.plant.jn[j].level = 0 → 10 * s.plant.pool[n].minimum ≤ s.plant.pool[n].elapsed.getD 0 →
      (∀ i ∈ s.plant.jn[j].chain, s.plant.pool[i].role = .side →
        s.plant.pool[i].demand = .call ∧ s.plant.jn[j].det.flags[s.plant.pool[i].stage] = false) →
      exec (.bandEndPoint j) s = .next { s with
        plant := s.plant.upd j fun J => { J with endDone := true, endPassed := true, dwell := true } })

/-- R59, R60: the band end with a servable SIDE entry: the BAND entry ends SERVED, the SIDE entries that are not servable are passed
in turn, and the first servable one is ordered. -/
def Obligations.BandEndWalksToServableSide : Prop :=
  ∀ (s : State) (j : JIdx) (n m : EntryNo) (skipped behind : List EntryNo), s.Settled → s.plant.NoCandidate j →
    s.plant.jn[j].state = .inStep → s.plant.jn[j].level = 0 → s.plant.jn[j].order = none →
    s.plant.jn[j].chain = n :: (skipped ++ m :: behind) → (n :: (skipped ++ m :: behind)).Nodup →
    (n :: (skipped ++ m :: behind)).length ≤ 16 →
    s.plant.pool[n].role = .band → s.plant.pool[n].kind = .recurring → s.plant.pool[n].origin = .host →
    s.plant.pool[n].status = .serving → 10 * s.plant.pool[n].minimum ≤ s.plant.pool[n].elapsed.getD 0 →
    (∀ i ∈ skipped, s.plant.pool[i].role = .side ∧ s.plant.pool[i].kind = .recurring ∧ s.plant.pool[i].demand = .call ∧
      s.plant.jn[j].det.flags[s.plant.pool[i].stage] = false ∧ s.plant.pool[i].status = .waiting) →
    s.plant.pool[m].role = .side →
    (s.plant.pool[m].demand = .recall ∨ s.plant.jn[j].det.flags[s.plant.pool[m].stage] = true) →
    s.plant.jn[j].green ≠ some s.plant.pool[m].stage → s.plant.jn[j].endDone = false → s.plant.jn[j].moved = none →
    10 * s.plant.pool[n].split ≤ s.plant.jn[j].p →
    10 * s.plant.pool[n].split + 10 * s.plant.jn[j].plan.a ≤ s.plant.jn[j].span →
    ∃ t, exec (.bandEndPoint j) s = .next t ∧ s.PlantOnly t ∧
      t.plant.jn[j].chain = m :: (behind ++ n :: skipped) ∧
      t.plant.pool[n].status = .waiting ∧ t.plant.pool[n].elapsed = none ∧ t.plant.pool[n].outcome = .served ∧
      (∀ i ∈ skipped, t.plant.pool[i] = { s.plant.pool[i] with status := .waiting, elapsed := none, outcome := .passed }) ∧
      s.plant.EntriesSame t.plant (n :: skipped) ∧ t.plant.jn[j].endPassed = true ∧
      t.plant.jn[j].order = some { entry := m, live := true, stage := s.plant.pool[m].stage
                                   tag := s.plant.jn[j].line.lastTag + 1, deadline := none } ∧
      t.plant.jn[j].green = none ∧ s.plant.OthersSame t.plant j ∧ t.plant.free = s.plant.free ∧ t.plant.req = s.plant.req

/-- R123: when the counted green of the interrupted entry has reached its minimum, the wait ends and the service entry at the top is
ordered. Second clause: a tenth of a minimum wait counts the saved elapsed of the records that name the entry whose stage is green, not
past 150.0 s, and sets their minimum reached mark when it reaches the entry's minimum; that every such record counts, and not one alone, is
the model's reading (assumption log 16). -/
def Obligations.MinimumWaitEnds : Prop :=
  (∀ (s : State) (j : JIdx) (h n : EntryNo) (rest : List EntryNo) (c : Context), s.Settled → s.plant.NoCandidate j →
     s.plant.jn[j].minWait = some h → s.plant.jn[j].stack = [c] → c.entry = h →
     10 * s.plant.pool[h].minimum ≤ c.saved → s.plant.jn[j].chain = n :: rest → s.plant.jn[j].order = none →
     s.plant.jn[j].green ≠ some s.plant.pool[n].stage →
     ∃ t, exec (.minimumWaitEnd j) s = .next t ∧ s.PlantOnly t ∧ t.plant.jn[j].minWait = none ∧
       t.plant.jn[j].stack = [{ c with minReached := true }] ∧ t.plant.jn[j].chain = s.plant.jn[j].chain ∧
       t.plant.jn[j].order = some { entry := n, live := true, stage := s.plant.pool[n].stage
                                    tag := s.plant.jn[j].line.lastTag + 1, deadline := none } ∧
       t.plant.jn[j].green = none ∧ t.plant.pool = s.plant.pool ∧ s.plant.OthersSame t.plant j ∧
       t.plant.free = s.plant.free ∧ t.plant.req = s.plant.req) ∧
  (∀ (s : State) (j : JIdx) (h : EntryNo), s.Settled → s.tb.m + 1 < 10 * s.tb.c → s.plant.jn[j].state ≠ .absent →
     s.plant.jn[j].minWait = some h →
     ∃ t, exec .masterPositionAdvance s = .next t ∧ t.plant.jn[j].minWait = some h ∧ t.plant.jn[j].p = s.plant.jn[j].p + 1 ∧
       t.plant.jn[j].order = s.plant.jn[j].order ∧ t.plant.jn[j].green = s.plant.jn[j].green ∧
       t.plant.jn[j].stack = s.plant.jn[j].stack.map fun c =>
         if c.entry = h then { c with
           saved := min 1500 (c.saved + 1)
           minReached := c.minReached || decide (10 * s.plant.pool[h].minimum ≤ min 1500 (c.saved + 1)) }
         else c)

/-- R53, R54, R176: the deadline passes with the order in flight: CONFIRM_TIMEOUT is charged; with unlimited retries or one left the
stage is ordered again with the next tag, and with none left the junction stalls into SOLO STALL. Second clause: a good report with the
tag in flight and another green stage is charged in the same way, as WRONG_STAGE (R52, R53); that this holds for an ORDER not yet sent
too is the model's choice (assumption log 70). Third clause: where the entry of the order has left the chain, either error is charged to
no entry, and the stage of the top is ordered (R131). -/
def Obligations.MissedConfirmationIsCharged : Prop :=
  (∀ (s : State) (j : JIdx) (n : EntryNo) (rest : List EntryNo) (tag : Tag) (d : Nat), s.Settled → s.plant.NoCandidate j →
     s.plant.jn[j].chain = n :: rest → d ≤ s.now →
     s.plant.jn[j].order =
       some { entry := n, live := true, stage := s.plant.pool[n].stage, tag := tag, deadline := some d } →
     s.plant.jn[j].green = none →
     (s.plant.pool[n].allowance = 0 ∨ 0 < s.plant.pool[n].retries →
       ∃ t, exec (.confirmTimeout j) s = .next t ∧ s.PlantOnly t ∧
         t.plant.pool[n] = { s.plant.pool[n] with
           error := .confirmTimeout
           retries := if s.plant.pool[n].allowance = 0 then s.plant.pool[n].retries else s.plant.pool[n].retries - 1 } ∧
         s.plant.EntriesSame t.plant [n] ∧
         t.plant.jn[j].order = some { entry := n, live := true, stage := s.plant.pool[n].stage
                                      tag := s.plant.jn[j].line.lastTag + 1, deadline := none } ∧
         t.plant.jn[j].line.lastTag = s.plant.jn[j].line.lastTag + 1 ∧ t.plant.jn[j].state = s.plant.jn[j].state ∧
         t.plant.jn[j].chain = s.plant.jn[j].chain ∧ s.plant.OthersSame t.plant j ∧ t.plant.free = s.plant.free) ∧
     (s.plant.pool[n].allowance ≠ 0 → s.plant.pool[n].retries = 0 →
       (∀ i ∈ s.plant.jn[j].chain, s.plant.pool[i].origin = .host) →
       ∃ t, exec (.confirmTimeout j) s = .next t ∧ t.plant.jn[j].state = .solo .stall ∧
         t.plant.pool[n].status = .stalled ∧ t.plant.pool[n].error = .confirmTimeout ∧ t.plant.jn[j].order = none ∧
         t.plant.jn[j].green = none ∧ t.plant.jn[j].level = 0 ∧ t.plant.jn[j].stack = [] ∧
         t.plant.jn[j].chain = s.plant.jn[j].chain ∧
         (∀ k : SlotNo, ∀ r, t.plant.req[k] = some r → r.junction ≠ j) ∧ s.plant.OthersSame t.plant j ∧ t.tb = s.tb)) ∧
  (∀ (s : State) (j : JIdx) (first : TakeOrder) (body : List Byte) (n : EntryNo) (rest : List EntryNo) (tag : Tag)
     (deadline : Option Nat), s.QuietReport j body [] → s.ReadyUnit j body → s.plant.NoCandidate j →
     s.plant.jn[j].state.coordinated = true → s.plant.jn[j].chain = n :: rest → s.plant.jn[j].green = none →
     s.plant.jn[j].order =
       some { entry := n, live := true, stage := s.plant.pool[n].stage, tag := tag, deadline := deadline } →
     reportTag body = tag.val → reportGreen body ≠ some s.plant.pool[n].stage →
     (s.plant.pool[n].allowance = 0 ∨ 0 < s.plant.pool[n].retries →
       ∃ t, exec (.reportReceived j first (reportWire body)) s = .next t ∧ s.PlantOnly t ∧
         t.plant.pool[n] = { s.plant.pool[n] with
           error := .wrongStage
           retries := if s.plant.pool[n].allowance = 0 then s.plant.pool[n].retries else s.plant.pool[n].retries - 1 } ∧
         s.plant.EntriesSame t.plant [n] ∧
         t.plant.jn[j].order = some { entry := n, live := true, stage := s.plant.pool[n].stage
                                      tag := s.plant.jn[j].line.lastTag + 1, deadline := none } ∧
         t.plant.jn[j].line.lastTag = s.plant.jn[j].line.lastTag + 1 ∧ t.plant.jn[j].state = s.plant.jn[j].state ∧
         t.plant.jn[j].chain = s.plant.jn[j].chain ∧ s.plant.OthersSame t.plant j ∧ t.plant.free = s.plant.free) ∧
     (s.plant.pool[n].allowance ≠ 0 → s.plant.pool[n].retries = 0 →
       (∀ i ∈ s.plant.jn[j].chain, s.plant.pool[i].origin = .host) →
       ∃ t, exec (.reportReceived j first (reportWire body)) s = .next t ∧ t.plant.jn[j].state = .solo .stall ∧
         t.plant.pool[n].status = .stalled ∧ t.plant.pool[n].error = .wrongStage ∧ t.plant.jn[j].order = none ∧
         t.plant.jn[j].green = none ∧ t.plant.jn[j].level = 0 ∧ t.plant.jn[j].stack = [] ∧
         t.plant.jn[j].chain = s.plant.jn[j].chain ∧
         (∀ k : SlotNo, ∀ r, t.plant.req[k] = some r → r.junction ≠ j) ∧ s.plant.OthersSame t.plant j ∧ t.tb = s.tb)) ∧
  (∀ (s : State) (j : JIdx) (n : EntryNo) (rest : List EntryNo) (o : OrderInFlight), s.plant.NoCandidate j →
     s.plant.jn[j].chain = n :: rest → s.plant.jn[j].order = some o → o.live = false → s.plant.jn[j].green = none →
     let reordered (c : Instr) : Prop := ∃ t, exec c s = .next t ∧ s.PlantOnly t ∧ t.plant.pool = s.plant.pool ∧
       t.plant.jn[j].order = some { entry := n, live := true, stage := s.plant.pool[n].stage
                                    tag := s.plant.jn[j].line.lastTag + 1, deadline := none } ∧
       t.plant.jn[j].line.lastTag = s.plant.jn[j].line.lastTag + 1 ∧ t.plant.jn[j].green = none ∧
       t.plant.jn[j].state = s.plant.jn[j].state ∧ t.plant.jn[j].chain = s.plant.jn[j].chain ∧ s.plant.OthersSame t.plant j ∧
       t.plant.free = s.plant.free ∧ t.plant.req = s.plant.req
     (∀ d, s.Settled → o.deadline = some d → d ≤ s.now → reordered (.confirmTimeout j)) ∧
     (∀ (first : TakeOrder) (body : List Byte), s.QuietReport j body [] → s.ReadyUnit j body →
       s.plant.jn[j].state.coordinated = true → reportTag body = o.tag.val → reportGreen body ≠ some o.stage →
       reordered (.reportReceived j first (reportWire body))))

/-- R52, R79, R171: a good report with the tag in flight and the ordered stage green confirms the order: the top, here a RECALL host
SIDE entry, is SERVING from 0.0 s, its call flag is clear unless held, and the line's silence timer starts again. Second clause: the
confirmation of a BAND top takes a JOINING junction to IN_STEP (R50), gives the signed band start error to this cycle or the next (R13,
R63), and arms the probe (R140); that it replaces an error already held there is the model's choice (assumption logs 25 and 63). Third:
that of a CALL top starts its stage's gap timer (R85). Fourth: that of a service entry starts the service of its request (R109). That an
ORDER not yet sent is confirmed too is the model's choice (assumption log 70). Fifth: the confirmation of an order whose entry has left
the chain starts no service; the stage of the top, here a WAITING host SIDE entry, is taken over if it is the confirmed one, and ordered
otherwise (R131). Sixth: the confirmation of a resumed SIDE top under a PENDING force: with its minimum reached it ends FORCED at once,
otherwise it is served under its resume allowance and the force stays (R128, R130); that the acceptance attempts come first, here
without a candidate, is the model's choice (assumption log 12). -/
def Obligations.ReportConfirmsOrder : Prop :=
  (∀ (s : State) (j : JIdx) (first : TakeOrder) (body : List Byte) (n : EntryNo) (rest : List EntryNo) (o : OrderInFlight),
     s.Settled → s.plant.NoCandidate j → s.plant.jn[j].line.rx = [] → reportBodyGood body = true →
     reportMode body = .coordReady → reportLamp body = false → body.getD 7 0 = 0 → reportTag body = o.tag.val →
     reportGreen body = some o.stage → s.plant.jn[j].state = .inStep → s.plant.jn[j].line.up = true →
     s.plant.jn[j].line.mode = some .coordReady → s.plant.jn[j].det.rowsValid = true →
     s.plant.jn[j].det.rows = reportRows body → s.plant.jn[j].order = some o → o.live = true → o.entry = n →
     s.plant.jn[j].chain = n :: rest → o.stage = s.plant.pool[n].stage → s.plant.pool[n].role = .side →
     s.plant.pool[n].origin = .host → s.plant.pool[n].demand = .recall → s.plant.pool[n].slot = none →
     s.plant.jn[j].force = false → s.plant.jn[j].resuming = none → s.plant.jn[j].dwell = false →
     ∃ t, exec (.reportReceived j first (reportWire body)) s = .next t ∧ s.PlantOnly t ∧
       t.plant.pool[n] = { s.plant.pool[n] with status := .serving, elapsed := some 0 } ∧
       s.plant.EntriesSame t.plant [n] ∧ t.plant.jn[j].chain = s.plant.jn[j].chain ∧ t.plant.jn[j].order = none ∧
       t.plant.jn[j].green = some s.plant.pool[n].stage ∧ t.plant.jn[j].state = .inStep ∧
       t.plant.jn[j].det.flags = (if 0 < s.plant.jn[j].det.holdCount s.plant.pool[n].stage then s.plant.jn[j].det.flags
         else s.plant.jn[j].det.flags.set s.plant.pool[n].stage false) ∧
       t.plant.jn[j].line = { s.plant.jn[j].line with
         last := some { body := body, arrived := s.now, tod := s.tb.tod }, silence := some (s.now + 20) } ∧
       s.plant.OthersSame t.plant j ∧ t.plant.free = s.plant.free ∧ t.plant.req = s.plant.req) ∧
  (∀ (s : State) (j : JIdx) (first : TakeOrder) (body : List Byte) (n : EntryNo) (rest : List EntryNo),
     s.QuietReport j body [] → s.ReadyUnit j body → s.plant.NoCandidate j → s.Confirms j body n rest →
     s.plant.jn[j].state.coordinated = true → s.plant.pool[n].role = .band → s.plant.pool[n].origin = .host →
     s.plant.pool[n].demand = .recall → s.plant.pool[n].slot = none →
     ∃ t, exec (.reportReceived j first (reportWire body)) s = .next t ∧ s.EventFrame t ∧
       t.plant.pool[n] = { s.plant.pool[n] with status := .serving, elapsed := some 0 } ∧
       s.plant.EntriesSame t.plant [n] ∧ t.plant.jn[j].chain = s.plant.jn[j].chain ∧ t.plant.jn[j].order = none ∧
       t.plant.jn[j].green = some s.plant.pool[n].stage ∧ t.plant.jn[j].state = .inStep ∧
       (2 * s.plant.jn[j].p < s.plant.jn[j].span →
         t.plant.jn[j].tally.bandError = some (s.plant.jn[j].p : Int) ∧ t.plant.jn[j].carried = s.plant.jn[j].carried) ∧
       (s.plant.jn[j].span ≤ 2 * s.plant.jn[j].p → t.plant.jn[j].tally.bandError = s.plant.jn[j].tally.bandError ∧
         t.plant.jn[j].carried = some ((s.plant.jn[j].p : Int) - s.plant.jn[j].span)) ∧
       t.plant.jn[j].guard.result = s.plant.jn[j].guard.result ∧
       (s.plant.jn[j].guard.probe.active = true → t.plant.jn[j].guard.probe = s.plant.jn[j].guard.probe) ∧
       (s.plant.jn[j].guard.probe.active = false →
         (s.plant.jn[j].guard.settings.enable = false → t.plant.jn[j].guard.probe = .off) ∧
         (s.plant.jn[j].guard.settings.enable = true →
           (∀ w : DetIdx, s.plant.jn[j].det.map[w] = exitFn s.tb.dir →
             (∀ i : DetIdx, i < w → s.plant.jn[j].det.map[i] ≠ exitFn s.tb.dir) →
             t.plant.jn[j].guard.probe = .armed w) ∧
           ((∀ i : DetIdx, s.plant.jn[j].det.map[i] ≠ exitFn s.tb.dir) → t.plant.jn[j].guard.probe = .off))) ∧
       s.plant.OthersSame t.plant j ∧ t.plant.free = s.plant.free ∧ t.plant.req = s.plant.req) ∧
  (∀ (s : State) (j : JIdx) (first : TakeOrder) (body : List Byte) (n : EntryNo) (rest : List EntryNo),
     s.QuietReport j body [] → s.ReadyUnit j body → s.plant.NoCandidate j → s.Confirms j body n rest →
     s.plant.jn[j].state = .inStep → s.plant.pool[n].role = .side → s.plant.pool[n].origin = .host →
     s.plant.pool[n].demand = .call → s.plant.pool[n].slot = none → s.plant.jn[j].force = false →
     s.plant.jn[j].resuming = none →
     ∃ t, exec (.reportReceived j first (reportWire body)) s = .next t ∧ s.PlantOnly t ∧
       t.plant.pool[n] = { s.plant.pool[n] with status := .serving, elapsed := some 0 } ∧
       s.plant.EntriesSame t.plant [n] ∧ t.plant.jn[j].chain = s.plant.jn[j].chain ∧ t.plant.jn[j].order = none ∧
       t.plant.jn[j].green = some s.plant.pool[n].stage ∧ t.plant.jn[j].state = .inStep ∧
       t.plant.jn[j].det.gap =
         s.plant.jn[j].det.gap.set s.plant.pool[n].stage (.running (s.now + s.plant.pool[n].passage)) ∧
       t.plant.jn[j].det.flags = (if 0 < s.plant.jn[j].det.holdCount s.plant.pool[n].stage then s.plant.jn[j].det.flags
         else s.plant.jn[j].det.flags.set s.plant.pool[n].stage false) ∧
       s.plant.OthersSame t.plant j ∧ t.plant.free = s.plant.free ∧ t.plant.req = s.plant.req) ∧
  (∀ (s : State) (j : JIdx) (first : TakeOrder) (body : List Byte) (n : EntryNo) (rest : List EntryNo) (k : SlotNo) (r : Request)
     (a : Active), s.QuietReport j body [] → s.ReadyUnit j body → s.plant.NoCandidate j → s.Confirms j body n rest →
     s.plant.jn[j].state = .inStep → s.plant.pool[n].role = .side → s.plant.pool[n].origin = .service →
     s.plant.pool[n].slot = some k → s.plant.req[k] = some r → r.state = .active a → a.started = false →
     ∃ t, exec (.reportReceived j first (reportWire body)) s = .next t ∧ s.PlantOnly t ∧
       t.plant.pool[n] = { s.plant.pool[n] with status := .serving, elapsed := some 0 } ∧
       s.plant.EntriesSame t.plant [n] ∧ t.plant.jn[j].chain = s.plant.jn[j].chain ∧ t.plant.jn[j].order = none ∧
       t.plant.jn[j].green = some s.plant.pool[n].stage ∧ t.plant.jn[j].state = .inStep ∧
       t.plant.req = s.plant.req.set k (some { r with
         state := .active { a with
           started := true
           svcEnd := if a.svcEnd = .notStarted then .due (s.now + 10 * r.time) else a.svcEnd } }) ∧
       t.plant.jn[j].level = s.plant.jn[j].level ∧ t.plant.jn[j].stack = s.plant.jn[j].stack ∧
       t.plant.jn[j].det.gap = s.plant.jn[j].det.gap ∧ s.plant.OthersSame t.plant j ∧ t.plant.free = s.plant.free) ∧
  (∀ (s : State) (j : JIdx) (first : TakeOrder) (body : List Byte) (n : EntryNo) (rest : List EntryNo) (o : OrderInFlight),
     s.QuietReport j body [] → s.ReadyUnit j body → s.plant.NoCandidate j → s.plant.jn[j].state = .inStep →
     s.plant.jn[j].chain = n :: rest → s.plant.jn[j].order = some o → o.live = false → reportTag body = o.tag.val →
     reportGreen body = some o.stage → s.plant.pool[n].role = .side → s.plant.pool[n].origin = .host →
     s.plant.pool[n].demand = .recall → s.plant.pool[n].slot = none → s.plant.pool[n].status = .waiting →
     s.plant.jn[j].minWait = none → s.plant.jn[j].force = false →
     let cleared (f : Vector Bool 8) : Vector Bool 8 := if 0 < s.plant.jn[j].det.holdCount o.stage then f else f.set o.stage false
     ∃ t, exec (.reportReceived j first (reportWire body)) s = .next t ∧ s.PlantOnly t ∧ t.plant.jn[j].chain = n :: rest ∧
       t.plant.jn[j].det.flags = cleared s.plant.jn[j].det.flags ∧ t.plant.req = s.plant.req ∧ t.plant.jn[j].state = .inStep ∧
       s.plant.OthersSame t.plant j ∧ t.plant.free = s.plant.free ∧
       (s.plant.pool[n].stage = o.stage →
         t.plant.pool[n] = { s.plant.pool[n] with status := .serving, elapsed := some 0 } ∧ s.plant.EntriesSame t.plant [n] ∧
         t.plant.jn[j].order = none ∧ t.plant.jn[j].green = some o.stage ∧
         t.plant.jn[j].line.lastTag = s.plant.jn[j].line.lastTag ∧
         (s.plant.jn[j].level = 0 → t.plant.jn[j].allowance = s.plant.jn[j].resuming.map fun r =>
           max (10 * s.plant.pool[n].split - r.saved) (10 * s.plant.pool[n].minimum))) ∧
       (s.plant.pool[n].stage ≠ o.stage → t.plant.pool = s.plant.pool ∧ t.plant.jn[j].green = none ∧
         t.plant.jn[j].order = some { entry := n, live := true, stage := s.plant.pool[n].stage
                                      tag := s.plant.jn[j].line.lastTag + 1, deadline := none } ∧
         t.plant.jn[j].line.lastTag = s.plant.jn[j].line.lastTag + 1)) ∧
  (∀ (s : State) (j : JIdx) (first : TakeOrder) (body : List Byte) (h : EntryNo) (rest : List EntryNo) (r : Resume),
     s.QuietReport j body [] → s.ReadyUnit j body → s.plant.NoCandidate j → s.Confirms j body h rest →
     s.plant.jn[j].state = .inStep → s.plant.jn[j].level = 0 → s.plant.jn[j].resuming = some r → s.plant.jn[j].force = true →
     s.plant.pool[h].role = .side → s.plant.pool[h].origin = .host → s.plant.pool[h].slot = none →
     (∀ (b : EntryNo) (skipped behind : List EntryNo), rest = skipped ++ b :: behind → s.BandBehind h b skipped behind →
       r.minReached = true → ∃ t, exec (.reportReceived j first (reportWire body)) s = .next t ∧ s.PlantOnly t ∧
       s.ForcedOff t j h b skipped behind [] ∧ t.plant.jn[j].state = .inStep ∧ t.plant.free = s.plant.free ∧
       t.plant.req = s.plant.req) ∧
     (r.minReached = false → ∃ t, exec (.reportReceived j first (reportWire body)) s = .next t ∧ s.PlantOnly t ∧
       t.plant.pool[h] = { s.plant.pool[h] with status := .serving, elapsed := some 0 } ∧ s.plant.EntriesSame t.plant [h] ∧
       t.plant.jn[j].chain = s.plant.jn[j].chain ∧ t.plant.jn[j].order = none ∧
       t.plant.jn[j].green = some s.plant.pool[h].stage ∧ t.plant.jn[j].force = true ∧ t.plant.jn[j].resuming = none ∧
       t.plant.jn[j].allowance = some (max (10 * s.plant.pool[h].split - r.saved) (10 * s.plant.pool[h].minimum)) ∧
       s.plant.OthersSame t.plant j ∧ t.plant.free = s.plant.free ∧ t.plant.req = s.plant.req))

/-! ## Detectors and guard -/

/-- R85: a RUNNING gap timer whose due time is reached becomes EXPIRED; with the top's minimum still to come, or a stage that the
top does not serve, nothing else happens. R86, R87: an occupancy that reaches the stuck limit makes the detector STUCK. Second clause: a
good report at a coordinated junction with valid rows (R79 to R81, R141): the rising edges call the stages that are not green, extend the
gap timer of a SERVING CALL top and start the stuck timers, the falling edges stop them and end STUCK, the guard takes the exit edges.
Third: at a SOLO junction the edges serve the stuck timers and the rows alone. -/
def Obligations.GapAndStuckTimersExpire : Prop :=
  ((∀ (s : State) (j : JIdx) (st : Stage) (d : Nat), s.Settled → s.plant.NoCandidate j →
     s.plant.jn[j].det.gap[st] = .running d → d ≤ s.now →
     (∀ n rest, s.plant.jn[j].chain = n :: rest → s.plant.pool[n].stage = st →
       s.plant.pool[n].elapsed.getD 0 < 10 * s.plant.pool[n].minimum) →
     exec (.gapExpiry j (st.val + 1)) s = .next { s with
       plant := s.plant.upd j fun J => { J with det := { J.det with gap := J.det.gap.set st .expired } } }) ∧
   (∀ (s : State) (j : JIdx) (d : DetIdx) (onset : Nat), s.plant.NoCandidate j →
     s.plant.jn[j].state ≠ .absent → s.plant.jn[j].dwell = false → s.plant.jn[j].det.stuck[d] = false →
     s.plant.jn[j].plan.stuck ≠ 0 → s.plant.jn[j].det.timers[d] = some onset →
     onset + 10 * s.plant.jn[j].plan.stuck ≤ s.now →
     exec (.stuckDetected j d) s = .next ({ s with
       plant := (s.plant.upd j fun J => { J with
         det := { J.det with
           stuck := J.det.stuck.set d true
           flags := match J.state.coordinated, J.det.map[d].stage? with
             | true, some st => J.det.flags.set st true
             | _, _ => J.det.flags } }).raise (.stuck j d s.plant.jn[j].det.map[d]) } : State).finish)) ∧
  (∀ (s : State) (j : JIdx) (first : TakeOrder) (body : List Byte), s.FreshReport j body [] → s.ReadyUnit j body →
     s.plant.NoCandidate j → s.plant.jn[j].state.coordinated = true → s.plant.jn[j].order = none →
     let D := s.plant.jn[j].det
     let new := reportRows body
     let rises (d : DetIdx) : Prop := D.rows[d] = false ∧ new[d] = true
     ∃ t, exec (.reportReceived j first (reportWire body)) s = .next t ∧ s.EventFrame t ∧
       t.plant.jn[j].det.rows = new ∧ t.plant.jn[j].det.rowsValid = true ∧
       (∀ d : DetIdx, t.plant.jn[j].det.timers[d] =
         if D.rows[d] = true ∧ new[d] = false then none
         else if D.rows[d] = false ∧ new[d] = true ∧ D.map[d] ≠ .none then some s.now else D.timers[d]) ∧
       (∀ d : DetIdx, t.plant.jn[j].det.stuck[d] = (D.stuck[d] && !(D.rows[d] && !new[d]))) ∧
       (∀ st : Stage, t.plant.jn[j].det.flags[st] = true ↔ D.flags[st] = true ∨ (s.plant.jn[j].green ≠ some st ∧
         ∃ d : DetIdx, rises d ∧ (D.map[d] = .call st ∨ D.map[d] = .callExtend st))) ∧
       (∀ n rest, s.plant.jn[j].chain = n :: rest → s.plant.pool[n].demand = .call → s.plant.pool[n].origin = .host →
         s.plant.pool[n].status = .serving → D.gap[s.plant.pool[n].stage] ≠ .stopped →
         (∃ d : DetIdx, rises d ∧
           (D.map[d] = .extend s.plant.pool[n].stage ∨ D.map[d] = .callExtend s.plant.pool[n].stage)) →
         t.plant.jn[j].det.gap = D.gap.set s.plant.pool[n].stage (.running (s.now + s.plant.pool[n].passage))) ∧
       ((∀ n rest, s.plant.jn[j].chain = n :: rest → s.plant.pool[n].demand = .recall ∨ s.plant.pool[n].origin = .service ∨
          s.plant.pool[n].status ≠ .serving) → t.plant.jn[j].det.gap = D.gap) ∧
       t.plant.jn[j].guard = (s.plant.jn[j].exitEdges s.now (Plant.risingEdges D new) (Plant.fallingEdges D new) true).guard ∧
       t.plant.jn[j].state = s.plant.jn[j].state ∧ t.plant.jn[j].chain = s.plant.jn[j].chain ∧
       t.plant.jn[j].order = none ∧ t.plant.pool = s.plant.pool ∧ s.plant.OthersSame t.plant j) ∧
  (∀ (s : State) (j : JIdx) (first : TakeOrder) (body : List Byte) (c : SoloCause), s.FreshReport j body [] → s.ReadyUnit j body →
     s.plant.jn[j].state = .solo c →
     let D := s.plant.jn[j].det
     let new := reportRows body
     ∃ t, exec (.reportReceived j first (reportWire body)) s = .next t ∧ s.EventFrame t ∧
       t.plant.jn[j].det.rows = new ∧ t.plant.jn[j].det.rowsValid = true ∧
       (∀ d : DetIdx, t.plant.jn[j].det.timers[d] =
         if D.rows[d] = true ∧ new[d] = false then none
         else if D.rows[d] = false ∧ new[d] = true ∧ D.map[d] ≠ .none then some s.now else D.timers[d]) ∧
       (∀ d : DetIdx, t.plant.jn[j].det.stuck[d] = (D.stuck[d] && !(D.rows[d] && !new[d]))) ∧
       t.plant.jn[j].det.flags = D.flags ∧ t.plant.jn[j].det.gap = D.gap ∧ t.plant.jn[j].guard = s.plant.jn[j].guard ∧
       t.plant.jn[j].state = .solo c ∧ t.plant.pool = s.plant.pool ∧ s.plant.OthersSame t.plant j)

/-- R142, R143, R144, R145: a spill above level 0 is GATE_SUPPRESSED; it posts nothing without a coordinated downstream junction, and
posts its flush at a JOINING one, where it waits PENDING. R141, R145: a rising edge on the watched detector starts a measurement, a
falling one ends it with its occupancy, which does not replace a SPILLED result of the tally. Second clause: at level 0 with the BAND
entry SERVING as top and a SIDE entry servable the spill is GATED: before the minimum the band end point moves to its expiry, after it
the band ends at once; otherwise the spill is GATE_IDLE (R143). Third: a flush that a full table does not admit is DROPPED (R100, R144). -/
def Obligations.ProbeMeasuresAndSpills : Prop :=
  ((∀ (s : State) (j : JIdx) (w : DetIdx) (start due : Nat), s.plant.raised = [] →
      s.plant.jn[j].guard.probe = .measuring w start due → due ≤ s.now → 0 < s.plant.jn[j].level →
      ((∀ d, downstream s.tb.dir j = some d → s.plant.jn[d].state.coordinated = false) →
        exec (.spillDue j) s = .next ({ s with
          plant := (s.plant.upd j fun J => { J with
            guard := { J.guard with probe := .spilled, result := .spilled .suppressed .flushNone }
            tally := { J.tally with probe := .spilled .suppressed .flushNone } }).raise
              (.spill j w (due - start) .suppressed .flushNone) } : State).finish) ∧
      (∀ (d : JIdx) (b : EntryNo) (ahead behind : List EntryNo) (k : SlotNo), downstream s.tb.dir j = some d →
        s.plant.jn[d].state = .joining → s.plant.jn[d].chain = ahead ++ b :: behind →
        (∀ i ∈ ahead, s.plant.pool[i].role = .side) → s.plant.pool[b].role = .band →
        1 ≤ s.plant.jn[j].guard.settings.flushLevel →
        (∀ i : SlotNo, ∀ r, s.plant.req[i] = some r → r.key ≠ { junction := d, source := .guard, id := j.val }) →
        s.plant.req[k] = none → (∀ i : SlotNo, i < k → s.plant.req[i] ≠ none) →
        ∃ t, exec (.spillDue j) s = .next t ∧
          t.plant.req = s.plant.req.set k (some
            { junction := d, source := .guard, id := j.val, level := s.plant.jn[j].guard.settings.flushLevel, action := .extend
              stage := s.plant.pool[b].stage, time := s.plant.jn[j].guard.settings.flushTime
              wait := s.plant.jn[d].plan.wait, arrived := s.now, state := .pending }) ∧
          t.plant.arrivals = s.plant.arrivals ++ [k] ∧
          t.plant.jn[j].guard.probe = .spilled ∧ t.plant.jn[j].guard.result = .spilled .suppressed (.posted d k) ∧
          t.plant.jn[j].tally.probe = .spilled .suppressed (.posted d k) ∧ s.plant.OthersSame t.plant j ∧
          t.plant.pool = s.plant.pool ∧ t.tb = s.tb)) ∧
   (∀ (J : Junction) (now : Nat) (rising falling : List DetIdx) (w : DetIdx),
      (J.guard.probe = .armed w → w ∈ rising → J.exitEdges now rising falling true =
        { J with guard := { J.guard with probe := .measuring w now (now + 10 * J.guard.settings.threshold) } }) ∧
      (J.guard.probe = .armed w → J.exitEdges now rising falling false = J) ∧
      (∀ start due, J.guard.probe = .measuring w start due → w ∈ falling →
        (J.exitEdges now rising falling true).guard.probe = .done ∧
        (J.exitEdges now rising falling true).guard.result = .done (now - start) ∧
        ((∀ g f, J.tally.probe ≠ .spilled g f) →
          (J.exitEdges now rising falling true).tally = { J.tally with probe := .done (now - start) }) ∧
        (∀ g f, J.tally.probe = .spilled g f → (J.exitEdges now rising falling true).tally = J.tally)))) ∧
  (∀ (s : State) (j : JIdx) (w : DetIdx) (start due : Nat),
     s.plant.raised = [] → s.plant.jn[j].guard.probe = .measuring w start due → due ≤ s.now →
     s.plant.jn[j].state = .inStep → s.plant.jn[j].level = 0 → s.plant.NoCandidate j →
     (∀ d, downstream s.tb.dir j = some d → s.plant.jn[d].state.coordinated = false) →
     let servable (i : EntryNo) : Prop := s.plant.pool[i].role = .side ∧
       (s.plant.pool[i].demand = .recall ∨ s.plant.jn[j].det.flags[s.plant.pool[i].stage] = true)
     let open' (n : EntryNo) : Prop := s.plant.pool[n].role = .band ∧ s.plant.pool[n].status = .serving ∧
       s.plant.jn[j].dwell = false ∧ ∃ i ∈ s.plant.jn[j].chain, servable i
     ((∀ n rest, s.plant.jn[j].chain = n :: rest → ¬open' n) →
       exec (.spillDue j) s = .next ({ s with
         plant := (s.plant.upd j fun J => { J with
           guard := { J.guard with probe := .spilled, result := .spilled .idle .flushNone }
           tally := { J.tally with probe := .spilled .idle .flushNone } }).raise
             (.spill j w (due - start) .idle .flushNone) } : State).finish) ∧
     (∀ n rest, s.plant.jn[j].chain = n :: rest → open' n → s.plant.pool[n].elapsed.getD 0 < 10 * s.plant.pool[n].minimum →
       exec (.spillDue j) s = .next ({ s with
         plant := (s.plant.upd j fun J => { J with
           moved := some (J.p + 10 * s.plant.pool[n].minimum - s.plant.pool[n].elapsed.getD 0), endDone := false
           guard := { J.guard with probe := .spilled, result := .spilled .gated .flushNone }
           tally := { J.tally with probe := .spilled .gated .flushNone } }).raise
             (.spill j w (due - start) .gated .flushNone) } : State).finish) ∧
     (∀ n m rest, s.plant.jn[j].chain = n :: m :: rest → n ≠ m → open' n → servable m → s.plant.pool[n].origin = .host →
       s.plant.pool[n].kind = .recurring → 10 * s.plant.pool[n].minimum ≤ s.plant.pool[n].elapsed.getD 0 →
       s.plant.jn[j].order = none → s.plant.jn[j].green ≠ some s.plant.pool[m].stage →
       ∃ t, exec (.spillDue j) s = .next t ∧ s.EventFrame t ∧ t.plant.jn[j].chain = m :: (rest ++ [n]) ∧
         t.plant.pool[n] = { s.plant.pool[n] with
           status := .waiting, elapsed := none, outcome := .served, retries := s.plant.pool[n].allowance, error := .none } ∧
         s.plant.EntriesSame t.plant [n] ∧ t.plant.jn[j].endPassed = true ∧
         t.plant.jn[j].order = some { entry := m, live := true, stage := s.plant.pool[m].stage
                                      tag := s.plant.jn[j].line.lastTag + 1, deadline := none } ∧
         t.plant.jn[j].guard.probe = .spilled ∧ t.plant.jn[j].guard.result = .spilled .gated .flushNone ∧
         s.plant.OthersSame t.plant j ∧ t.plant.req = s.plant.req)) ∧
  (∀ (s : State) (j d : JIdx) (w : DetIdx) (start due : Nat) (b : EntryNo) (ahead behind : List EntryNo),
     s.plant.raised = [] → s.plant.jn[j].guard.probe = .measuring w start due → due ≤ s.now →
     0 < s.plant.jn[j].level → downstream s.tb.dir j = some d → s.plant.jn[d].state.coordinated = true →
     s.plant.jn[d].chain = ahead ++ b :: behind → (∀ i ∈ ahead, s.plant.pool[i].role = .side) → s.plant.pool[b].role = .band →
     1 ≤ s.plant.jn[j].guard.settings.flushLevel → s.plant.jn[j].guard.settings.flushLevel ≤ 15 →
     (∀ i : SlotNo, ∀ r, s.plant.req[i] = some r → r.key ≠ { junction := d, source := .guard, id := j.val }) →
     (∀ i : SlotNo, s.plant.req[i] ≠ none) →
     exec (.spillDue j) s = .next ({ s with
       plant := ((s.plant.upd j fun J => { J with
         guard := { J.guard with probe := .spilled, result := .spilled .suppressed .dropped }
         tally := { J.tally with probe := .spilled .suppressed .dropped } }).raise
           (.tableFull { junction := d, source := .guard, id := j.val } s.plant.jn[j].guard.settings.flushLevel)).raise
           (.spill j w (due - start) .suppressed .dropped) } : State).finish)

/-! ## Corridor lines -/

/-- R174: a good report on the line of an ABSENT junction goes as far as the line controller's own state. R169, R170: a frame with a
wrong check is discarded without any effect, and a byte gap discards the frame being assembled. Second part, R170: a good report that stood
in a frame discarded only now, by a byte gap or by a wrong check, has the arrival of its own last byte: the last good report and the
silence timer (R171) count from it, and so do the stuck timers of its rising edges (R86), here at a junction in SOLO STALL;
that a DOWN line comes UP at the taking is the model's choice (assumption log 82). -/
def Obligations.CorridorReceiverTakesFrames : Prop :=
  ((∀ (s : State) (j : JIdx) (first : TakeOrder) (body : List Byte), s.Settled → s.plant.jn[j].state = .absent →
      s.plant.jn[j].line.rx = [] → reportBodyGood body = true →
      exec (.reportReceived j first (reportWire body)) s = .next { s with
        plant := s.plant.upd j fun J => { J with
          line := { J.line with
            up := true
            upAt := if J.line.up then J.line.upAt else some s.now
            mode := some (reportMode body)
            last := some { body := body, arrived := s.now, tod := s.tb.tod }
            silence := some (s.now + 20) } } }) ∧
   (∀ (s : State) (j : JIdx) (first : TakeOrder), s.Settled →
      (∀ (n : Byte) (payload : List Byte) (c1 c2 : Byte), s.plant.jn[j].line.rx = [] → 1 ≤ n.toNat → n.toNat ≤ 30 →
        payload.length = n.toNat → be16 (crc (n :: payload)) ≠ [c1, c2] → (0x5A : Byte) ∉ n :: (payload ++ [c1, c2]) →
        exec (.corridorFrameDiscard j first (0x5A :: n :: (payload ++ [c1, c2]))) s = .next s) ∧
      (∀ got : List Byte, s.plant.jn[j].line.rx.map Received.byte = 0x5A :: got → (0x5A : Byte) ∉ got →
        exec (.corridorByteGapExpiry j first) s = .next { s with
          plant := s.plant.upd j fun J => { J with line := { J.line with rx := [] } } }))) ∧
  (∀ (s : State) (j : JIdx) (first : TakeOrder) (n : Byte) (body tail : List Byte) (last : Received) (c : Instr), s.Settled →
     s.plant.jn[j].line.rx.map Received.byte = 0x5A :: n :: reportWire body → s.plant.jn[j].line.rx.getLast? = some last →
     n.toNat ≤ 30 → reportBodyGood body = true → (reportWire body).length + tail.length = n.toNat + 2 → (0x5A : Byte) ∉ tail →
     be16 (crc (n :: (reportWire body ++ tail).take n.toNat)) ≠ (reportWire body ++ tail).drop n.toNat →
     c = .corridorByteGapExpiry j first ∨ c = .corridorFrameDiscard j first tail →
     let line : Line := { s.plant.jn[j].line with
       up := true
       upAt := if s.plant.jn[j].line.up then s.plant.jn[j].line.upAt else some s.now
       mode := some (reportMode body)
       last := some { body := body, arrived := last.time, tod := last.tod }
       silence := some (last.time + 20)
       rx := [] }
     (s.plant.jn[j].state = .absent → exec c s = .next { s with plant := s.plant.upd j fun J => { J with line := line } }) ∧
     (s.plant.jn[j].state = .solo .stall → s.plant.jn[j].line.up = true → s.plant.jn[j].det.rowsValid = true →
       reportRecords body = [] →
       ∃ t, exec c s = .next t ∧ s.EventFrame t ∧ t.plant.jn[j].line = line ∧ t.plant.jn[j].state = .solo .stall ∧
         t.plant.jn[j].det.rows = reportRows body ∧
         (∀ d : DetIdx, s.plant.jn[j].det.rows[d] = false → (reportRows body)[d] = true → s.plant.jn[j].det.map[d].timed = true →
           t.plant.jn[j].det.timers[d] = some last.time) ∧
         t.plant.pool = s.plant.pool ∧ t.plant.req = s.plant.req ∧ s.plant.OthersSame t.plant j))

/-- R70, R71, R172: silence takes the line DOWN: of an ABSENT junction without more; of a LOCAL or SOLO one with a LINK_DOWN notice
and the rows no longer valid; a coordinated one leaves coordination into SOLO LINK. Second clause: a good report takes a DOWN line UP with
a LINK_UP notice, and a junction in SOLO LINK or LOCAL is settled with the mode it carries (R70, R171). Third: a changed unit mode acts on
the junction state (R69). Fourth: a lamp fault stalls a coordinated junction and leaves a SOLO one as it is (R56). -/
def Obligations.SilenceTakesLineDown : Prop :=
  (∀ (s : State) (j : JIdx) (due : Nat), s.Settled → s.plant.jn[j].line.up = true → s.plant.jn[j].line.silence = some due →
     due ≤ s.now →
     (s.plant.jn[j].state = .absent → exec (.lineSilence j) s = .next { s with
       plant := s.plant.upd j fun J => { J with
         line := { J.line with up := false, silence := none, waiting := none } } }) ∧
     (s.plant.jn[j].state ≠ .absent → s.plant.jn[j].state.coordinated = false → exec (.lineSilence j) s = .next ({ s with
       plant := (s.plant.upd j fun J => { J with
         line := { J.line with up := false, silence := none, waiting := none }
         det := { J.det with rowsValid := false, timers := Vector.replicate 24 none } }).raise
           (.linkDown j (s.plant.jn[j].line.last.bind LastReport.tod)) } : State).finish) ∧
     (s.plant.jn[j].state.coordinated = true → ∃ t, exec (.lineSilence j) s = .next t ∧
       t.plant.jn[j].state = .solo .link ∧ t.plant.jn[j].line.up = false ∧ t.plant.jn[j].line.silence = none ∧
       t.plant.jn[j].line.waiting = none ∧ t.plant.jn[j].line.leaving = s.plant.jn[j].line.leaving ∧
       t.plant.jn[j].det.rowsValid = false ∧ t.plant.jn[j].order = none ∧ t.plant.jn[j].green = none ∧
       t.plant.jn[j].level = 0 ∧ t.plant.jn[j].stack = [] ∧ t.plant.jn[j].guard.probe = .off ∧
       (∀ st : Stage, t.plant.jn[j].det.flags[st] = false ∧ t.plant.jn[j].det.gap[st] = .stopped) ∧
       (∀ k : SlotNo, ∀ r, t.plant.req[k] = some r → r.junction ≠ j) ∧ s.plant.OthersSame t.plant j ∧ t.tb = s.tb)) ∧
  (∀ (s : State) (j : JIdx) (first : TakeOrder) (body : List Byte), s.Settled → s.plant.jn[j].line.rx = [] →
     reportBodyGood body = true → body.getD 7 0 = 0 → reportLamp body = false → s.plant.jn[j].line.up = false →
     s.plant.jn[j].state = .solo .link ∨ (∃ c, s.plant.jn[j].state = .loc c) →
     ∃ t, exec (.reportReceived j first (reportWire body)) s = .next t ∧ s.EventFrame t ∧ t.plant.jn[j].line.up = true ∧
       t.plant.jn[j].line.upAt = some s.now ∧ t.plant.jn[j].line.silence = some (s.now + 20) ∧
       t.plant.jn[j].line.mode = some (reportMode body) ∧
       t.plant.jn[j].line.last = some { body := body, arrived := s.now, tod := s.tb.tod } ∧
       t.plant.jn[j].det.rows = reportRows body ∧ t.plant.jn[j].det.rowsValid = true ∧
       (reportMode body = .localManual → t.plant.jn[j].state = .loc .manual) ∧
       (reportMode body = .fault → t.plant.jn[j].state = .solo .unit) ∧
       (reportMode body = .coordReady → t.plant.jn[j].state =
         if s.tb.corridor ≠ .coordinating then .loc .notRunning
         else if ((s.plant.chainEntries j).filter fun x => x.role == .band).length = 1 ∧
             feasibilitySum (s.plant.chainEntries j) s.plant.jn[j].plan.a * s.plant.jn[j].plan.mult ≤ s.tb.c
           then .joining else .loc .noBand) ∧
       t.plant.jn[j].chain = s.plant.jn[j].chain ∧ t.plant.pool = s.plant.pool ∧ t.plant.req = s.plant.req ∧
       s.plant.OthersSame t.plant j ∧
       (hasClass s.report.armed .junction = true → hasClass s.report.paused .junction = true →
         hasClass t.report.pend .junction = true)) ∧
  (∀ (s : State) (j : JIdx) (first : TakeOrder) (body : List Byte) (m : UnitMode), s.QuietReport j body [] →
     s.plant.NoCandidate j → s.plant.jn[j].line.mode = some m → reportMode body ≠ m → reportLamp body = false →
     s.plant.jn[j].state ≠ .absent →
     ∃ t, exec (.reportReceived j first (reportWire body)) s = .next t ∧ s.EventFrame t ∧
       t.plant.jn[j].line.mode = some (reportMode body) ∧ s.plant.OthersSame t.plant j ∧
       (s.plant.jn[j].state.coordinated = true → reportMode body = .localManual → t.plant.jn[j].state = .loc .manual ∧
         t.plant.jn[j].order = none ∧ t.plant.jn[j].green = none ∧ t.plant.jn[j].level = 0 ∧ t.plant.jn[j].stack = [] ∧
         (∀ st : Stage, t.plant.jn[j].det.flags[st] = false) ∧
         (∀ k : SlotNo, ∀ r, t.plant.req[k] = some r → r.junction ≠ j)) ∧
       (s.plant.jn[j].state.coordinated = true → reportMode body = .fault → t.plant.jn[j].state = .solo .unit ∧
         t.plant.jn[j].order = none ∧ t.plant.jn[j].green = none ∧ t.plant.jn[j].level = 0 ∧ t.plant.jn[j].stack = [] ∧
         (∀ st : Stage, t.plant.jn[j].det.flags[st] = false) ∧
         (∀ k : SlotNo, ∀ r, t.plant.req[k] = some r → r.junction ≠ j)) ∧
       ((∃ c, s.plant.jn[j].state = .loc c) ∨ s.plant.jn[j].state = .solo .unit → reportMode body = .localManual →
         t.plant.jn[j].state = .loc .manual) ∧
       ((∃ c, s.plant.jn[j].state = .loc c) ∨ s.plant.jn[j].state = .solo .unit → reportMode body = .fault →
         t.plant.jn[j].state = .solo .unit) ∧
       (s.plant.jn[j].state = .loc .manual ∨ s.plant.jn[j].state = .solo .unit → reportMode body = .coordReady →
         t.plant.jn[j].state =
         if s.tb.corridor ≠ .coordinating then .loc .notRunning
         else if ((s.plant.chainEntries j).filter fun x => x.role == .band).length = 1 ∧
             feasibilitySum (s.plant.chainEntries j) s.plant.jn[j].plan.a * s.plant.jn[j].plan.mult ≤ s.tb.c
           then .joining else .loc .noBand) ∧
       (s.plant.jn[j].state = .solo .stall ∨ s.plant.jn[j].state = .solo .plan →
         t.plant.jn[j].state = s.plant.jn[j].state)) ∧
  (∀ (s : State) (j : JIdx) (first : TakeOrder) (body : List Byte), s.QuietReport j body [] → s.plant.NoCandidate j →
     s.plant.jn[j].line.mode = some .coordReady → reportMode body = .coordReady → reportLamp body = true →
     (∀ n rest, s.plant.jn[j].state.coordinated = true → s.plant.jn[j].chain = n :: rest →
       (∀ i ∈ s.plant.jn[j].chain, s.plant.pool[i].origin = .host) →
       ∃ t, exec (.reportReceived j first (reportWire body)) s = .next t ∧ s.EventFrame t ∧
         t.plant.jn[j].state = .solo .stall ∧ t.plant.pool[n].status = .stalled ∧ t.plant.pool[n].error = .lampFault ∧
         t.plant.jn[j].order = none ∧ t.plant.jn[j].green = none ∧ t.plant.jn[j].level = 0 ∧ t.plant.jn[j].stack = [] ∧
         (∀ st : Stage, t.plant.jn[j].det.flags[st] = false) ∧
         (∀ k : SlotNo, ∀ r, t.plant.req[k] = some r → r.junction ≠ j) ∧
         t.plant.jn[j].chain = s.plant.jn[j].chain ∧ s.plant.OthersSame t.plant j) ∧
     (∀ c, s.plant.jn[j].state = .solo c → ∃ t, exec (.reportReceived j first (reportWire body)) s = .next t ∧
       s.PlantOnly t ∧ t.plant.jn[j].state = .solo c ∧ t.plant.pool = s.plant.pool ∧ t.plant.req = s.plant.req ∧
       t.plant.jn[j].line.last = some { body := body, arrived := s.now, tod := s.tb.tod } ∧ s.plant.OthersSame t.plant j))

/-- R51, R175: when a frame has been sent, the waiting one begins to leave; the deadline of an ORDER sent is A + 1.0 s later. R177, R178:
500 ms after the later of the last frame and the line coming UP, an idle UP line sends KEEP to a coordinated junction, with the order
in flight, or the green stage and the last tag, or stage 0 and the last tag; and RELEASE to a LOCAL or SOLO one. -/
def Obligations.LineFramesAreSent : Prop :=
  (∀ (s : State) (j : JIdx) (f : LineFrame), s.plant.jn[j].line.leaving = some f →
     (∀ (st : Stage) (o : OrderInFlight), s.plant.jn[j].order = some o → f = .order st o.tag →
       exec (.corridorFrameSent j) s = .next { s with
         plant := s.plant.upd j fun J => { J with
           order := some { o with deadline := some (s.now + 10 * J.plan.a + 10) }
           line := { J.line with leaving := J.line.waiting, waiting := none, lastSent := some s.now } } }) ∧
     ((∀ st tag, f ≠ .order st tag) ∨ s.plant.jn[j].order = none →
       exec (.corridorFrameSent j) s = .next { s with
         plant := s.plant.upd j fun J => { J with
           line := { J.line with leaving := J.line.waiting, waiting := none, lastSent := some s.now } } })) ∧
  (∀ (s : State) (j : JIdx), s.plant.jn[j].line.up = true → s.plant.jn[j].line.leaving = none →
     (∀ t, s.plant.jn[j].line.lastSent = some t → t + 5 ≤ s.now) → (∀ t, s.plant.jn[j].line.upAt = some t → t + 5 ≤ s.now) →
     5 ≤ s.now →
     (s.plant.jn[j].state = .joining ∨ s.plant.jn[j].state = .inStep →
       exec (.keepDue j) s = .next { s with
         plant := s.plant.upd j fun J => { J with
           line := { J.line with leaving := some (match J.order, J.green with
             | some o, _ => .keep (some o.stage) o.tag
             | none, some g => .keep (some g) J.line.lastTag
             | none, none => .keep none J.line.lastTag) } } }) ∧
     ((∃ c, s.plant.jn[j].state = .loc c) ∨ (∃ c, s.plant.jn[j].state = .solo c) →
       exec (.releaseDue j) s = .next { s with
         plant := s.plant.upd j fun J => { J with line := { J.line with leaving := some .release } } }))
end

