-- ==== Sys2Proof/Laws/State.lean ====
section
/-! SUPPORT. What each update of the state leaves as it is and what it sets, field by field. -/

namespace Sys2Proof.Machine

open Sys2Proof

/-! ## Updates of the state -/

namespace State

@[simp] theorem onPlant_now (s : State) (f : Env → Plant → Plant) : (s.onPlant f).now = s.now := rfl
@[simp] theorem onPlant_tb (s : State) (f : Env → Plant → Plant) : (s.onPlant f).tb = s.tb := rfl
@[simp] theorem onPlant_plant (s : State) (f : Env → Plant → Plant) : (s.onPlant f).plant = f s.env s.plant := rfl
@[simp] theorem onPlant_script (s : State) (f : Env → Plant → Plant) : (s.onPlant f).script = s.script := rfl
@[simp] theorem onPlant_host (s : State) (f : Env → Plant → Plant) : (s.onPlant f).host = s.host := rfl
@[simp] theorem onPlant_report (s : State) (f : Env → Plant → Plant) : (s.onPlant f).report = s.report := rfl
@[simp] theorem onPlant_pending (s : State) (f : Env → Plant → Plant) : (s.onPlant f).pending = s.pending := rfl

@[simp] theorem raise_now (s : State) (n : Notice) : (s.raise n).now = s.now := rfl
@[simp] theorem raise_tb (s : State) (n : Notice) : (s.raise n).tb = s.tb := rfl
@[simp] theorem raise_plant (s : State) (n : Notice) : (s.raise n).plant = s.plant.raise n := rfl
@[simp] theorem raise_script (s : State) (n : Notice) : (s.raise n).script = s.script := rfl
@[simp] theorem raise_host (s : State) (n : Notice) : (s.raise n).host = s.host := rfl
@[simp] theorem raise_report (s : State) (n : Notice) : (s.raise n).report = s.report := rfl
@[simp] theorem raise_pending (s : State) (n : Notice) : (s.raise n).pending = s.pending := rfl

@[simp] theorem popIntake_now (s : State) : s.popIntake.now = s.now := rfl
@[simp] theorem popIntake_tb (s : State) : s.popIntake.tb = s.tb := rfl
@[simp] theorem popIntake_plant (s : State) : s.popIntake.plant = s.plant := rfl
@[simp] theorem popIntake_script (s : State) : s.popIntake.script = s.script := rfl
@[simp] theorem popIntake_host (s : State) : s.popIntake.host = { s.host with intake := s.host.intake.tail } := rfl
@[simp] theorem popIntake_report (s : State) : s.popIntake.report = s.report := rfl
@[simp] theorem popIntake_pending (s : State) : s.popIntake.pending = s.pending := rfl

@[simp] theorem answer_now (s : State) (t c : Byte) (b : List Byte) : (s.answer t c b).now = s.now := rfl
@[simp] theorem answer_tb (s : State) (t c : Byte) (b : List Byte) : (s.answer t c b).tb = s.tb := rfl
@[simp] theorem answer_plant (s : State) (t c : Byte) (b : List Byte) : (s.answer t c b).plant = s.plant := rfl
@[simp] theorem answer_script (s : State) (t c : Byte) (b : List Byte) : (s.answer t c b).script = s.script := rfl
@[simp] theorem answer_host (s : State) (t c : Byte) (b : List Byte) :
    (s.answer t c b).host = s.host.enqueue (answerFrame t c b) := rfl
@[simp] theorem answer_report (s : State) (t c : Byte) (b : List Byte) : (s.answer t c b).report = s.report := rfl
@[simp] theorem answer_pending (s : State) (t c : Byte) (b : List Byte) : (s.answer t c b).pending = s.pending := rfl

@[simp] theorem catchUp_now (s : State) (c : NoticeClass) : (s.catchUp c).now = s.now := rfl
@[simp] theorem catchUp_tb (s : State) (c : NoticeClass) : (s.catchUp c).tb = s.tb := rfl
@[simp] theorem catchUp_plant (s : State) (c : NoticeClass) : (s.catchUp c).plant = s.plant := rfl
@[simp] theorem catchUp_script (s : State) (c : NoticeClass) : (s.catchUp c).script = s.script := rfl
@[simp] theorem catchUp_host (s : State) (c : NoticeClass) : (s.catchUp c).host = s.host.enqueue (catchUpFrame c) := rfl
@[simp] theorem catchUp_pending (s : State) (c : NoticeClass) : (s.catchUp c).pending = s.pending := rfl

end State

/-! ## Updates of the plant -/

namespace Plant

@[simp] theorem upd_pool (p : Plant) (j : JIdx) (f : Junction → Junction) : (p.upd j f).pool = p.pool := rfl
@[simp] theorem upd_free (p : Plant) (j : JIdx) (f : Junction → Junction) : (p.upd j f).free = p.free := rfl
@[simp] theorem upd_req (p : Plant) (j : JIdx) (f : Junction → Junction) : (p.upd j f).req = p.req := rfl
@[simp] theorem upd_arrivals (p : Plant) (j : JIdx) (f : Junction → Junction) : (p.upd j f).arrivals = p.arrivals := rfl
@[simp] theorem upd_raised (p : Plant) (j : JIdx) (f : Junction → Junction) : (p.upd j f).raised = p.raised := rfl

@[simp] theorem upd_self (p : Plant) (j : JIdx) (f : Junction → Junction) : (p.upd j f).jn[j.val] = f p.jn[j.val] := by
  simp [upd]

@[simp] theorem upd_other (p : Plant) (j i : JIdx) (f : Junction → Junction) (h : i ≠ j) :
    (p.upd j f).jn[i.val] = p.jn[i.val] := by
  simp [upd, Fin.val_inj, h.symm]

@[simp] theorem upd_upd (p : Plant) (j : JIdx) (f g : Junction → Junction) :
    (p.upd j f).upd j g = p.upd j fun J => g (f J) := by
  simp [upd]

theorem upd_id (p : Plant) (j : JIdx) (f : Junction → Junction) (h : f p.jn[j.val] = p.jn[j.val]) : p.upd j f = p := by
  simp [upd, h]

@[simp] theorem updEnt_jn (p : Plant) (n : EntryNo) (f : Entry → Entry) : (p.updEnt n f).jn = p.jn := rfl
@[simp] theorem updEnt_free (p : Plant) (n : EntryNo) (f : Entry → Entry) : (p.updEnt n f).free = p.free := rfl
@[simp] theorem updEnt_req (p : Plant) (n : EntryNo) (f : Entry → Entry) : (p.updEnt n f).req = p.req := rfl
@[simp] theorem updEnt_arrivals (p : Plant) (n : EntryNo) (f : Entry → Entry) : (p.updEnt n f).arrivals = p.arrivals := rfl
@[simp] theorem updEnt_raised (p : Plant) (n : EntryNo) (f : Entry → Entry) : (p.updEnt n f).raised = p.raised := rfl

@[simp] theorem updEnt_self (p : Plant) (n : EntryNo) (f : Entry → Entry) :
    (p.updEnt n f).pool[n.val] = f p.pool[n.val] := by
  simp [updEnt]

@[simp] theorem updEnt_other (p : Plant) (n i : EntryNo) (f : Entry → Entry) (h : i ≠ n) :
    (p.updEnt n f).pool[i.val] = p.pool[i.val] := by
  simp [updEnt, Fin.val_inj, h.symm]

theorem updEnt_id (p : Plant) (n : EntryNo) (f : Entry → Entry) (h : f p.pool[n.val] = p.pool[n.val]) :
    p.updEnt n f = p := by
  simp [updEnt, h]

@[simp] theorem setReq_pool (p : Plant) (k : SlotNo) (r : Option Request) : (p.setReq k r).pool = p.pool := rfl
@[simp] theorem setReq_free (p : Plant) (k : SlotNo) (r : Option Request) : (p.setReq k r).free = p.free := rfl
@[simp] theorem setReq_jn (p : Plant) (k : SlotNo) (r : Option Request) : (p.setReq k r).jn = p.jn := rfl
@[simp] theorem setReq_req (p : Plant) (k : SlotNo) (r : Option Request) : (p.setReq k r).req = p.req.set k r := rfl
@[simp] theorem setReq_arrivals (p : Plant) (k : SlotNo) (r : Option Request) : (p.setReq k r).arrivals = p.arrivals := rfl
@[simp] theorem setReq_raised (p : Plant) (k : SlotNo) (r : Option Request) : (p.setReq k r).raised = p.raised := rfl

@[simp] theorem raise_pool (p : Plant) (n : Notice) : (p.raise n).pool = p.pool := rfl
@[simp] theorem raise_free (p : Plant) (n : Notice) : (p.raise n).free = p.free := rfl
@[simp] theorem raise_jn (p : Plant) (n : Notice) : (p.raise n).jn = p.jn := rfl
@[simp] theorem raise_req (p : Plant) (n : Notice) : (p.raise n).req = p.req := rfl
@[simp] theorem raise_arrivals (p : Plant) (n : Notice) : (p.raise n).arrivals = p.arrivals := rfl
@[simp] theorem raise_raised (p : Plant) (n : Notice) : (p.raise n).raised = p.raised ++ [n] := rfl

end Plant

end Sys2Proof.Machine
end

