-- ==== Sys2Proof/Laws/Host.lean ====
section
/-! SUPPORT. What the notice table, the outgoing queue and the taking of a directive can do (R185, R187, R190). -/

namespace Sys2Proof.Machine

open Sys2Proof

/-! ## The outgoing queue -/

namespace HostPort

@[simp] theorem enqueue_rx (h : HostPort) (f : OutFrame) : (h.enqueue f).rx = h.rx := rfl
@[simp] theorem enqueue_intake (h : HostPort) (f : OutFrame) : (h.enqueue f).intake = h.intake := rfl
@[simp] theorem enqueue_queue (h : HostPort) (f : OutFrame) : (h.enqueue f).queue = h.queue ++ [f] := rfl
@[simp] theorem enqueue_leaving (h : HostPort) (f : OutFrame) : (h.enqueue f).leaving = h.leaving := rfl
@[simp] theorem enqueue_restart (h : HostPort) (f : OutFrame) : (h.enqueue f).restart = h.restart := rfl

@[simp] theorem enqueue_frames (h : HostPort) (f : OutFrame) : (h.enqueue f).frames = h.frames + 1 := by
  cases hl : h.leaving <;> simp [frames, enqueue, hl]

@[simp] theorem enqueue_directives (h : HostPort) (f : OutFrame) : (h.enqueue f).directives = h.directives := rfl
@[simp] theorem enqueue_busyMarks (h : HostPort) (f : OutFrame) : (h.enqueue f).busyMarks = h.busyMarks := rfl

/-- A notice joins no answers. -/
theorem enqueue_notice_answers (h : HostPort) (f : OutFrame) (hf : f.kind = .notice) :
    (h.enqueue f).answers = h.answers := by
  simp [answers, hf, ← List.append_assoc]

theorem enqueue_answer_answers (h : HostPort) (f : OutFrame) (hf : f.kind = .answer) :
    (h.enqueue f).answers = h.answers ++ [f] := by
  simp [answers, hf, ← List.append_assoc]

@[simp] theorem pick_rx (h : HostPort) : h.pick.rx = h.rx := by
  unfold pick; (repeat' split) <;> rfl
@[simp] theorem pick_intake (h : HostPort) : h.pick.intake = h.intake := by
  unfold pick; (repeat' split) <;> rfl
@[simp] theorem pick_restart (h : HostPort) : h.pick.restart = h.restart := by
  unfold pick; (repeat' split) <;> rfl

theorem pick_of_leaving (h : HostPort) (f : OutFrame) (hf : h.leaving = some f) : h.pick = h := by
  simp [pick, hf]

theorem pick_of_left (h : HostPort) (hr : h.restart = .answerLeft) : h.pick = h := by
  unfold pick
  split <;> simp_all

theorem pick_of_empty (h : HostPort) (hq : h.queue = []) : h.pick = h := by
  unfold pick
  split
  · rfl
  · rfl
  · simp [hq]

/-- Picking twice is picking once. -/
@[simp] theorem pick_pick (h : HostPort) : h.pick.pick = h.pick := by
  cases hl : h.leaving with
  | some f => rw [pick_of_leaving h f hl, pick_of_leaving h f hl]
  | none =>
    by_cases hr : h.restart = .answerLeft
    · rw [pick_of_left h hr, pick_of_left h hr]
    · cases hq : h.queue.find? (fun f => f.kind == .answer) with
      | some f =>
        apply pick_of_leaving _ f
        unfold pick
        split <;> simp_all
      | none =>
        cases hh : h.queue with
        | nil => rw [pick_of_empty h hh, pick_of_empty h hh]
        | cons f rest =>
          apply pick_of_leaving _ f
          unfold pick
          split
          · simp_all
          · simp_all
          · rw [hq, hh]

theorem length_eraseP_find {p : OutFrame → Bool} : ∀ {l : List OutFrame} {f : OutFrame}, l.find? p = some f →
    (l.eraseP p).length + 1 = l.length := by
  intro l f h
  have hm := List.mem_of_find?_eq_some h
  have hp := List.find?_some h
  rw [List.length_eraseP_of_mem hm hp]
  have := List.length_pos_of_mem hm
  omega

@[simp] theorem pick_frames (h : HostPort) : h.pick.frames = h.frames := by
  unfold pick
  split
  · rfl
  · rfl
  · rename_i hl _
    split
    · rename_i f hf
      have := length_eraseP_find hf
      simp [frames, hl]
      omega
    · split
      · rfl
      · rename_i f rest hq
        simp [frames, hl, hq]

theorem answers_eraseP {l : List OutFrame} {f : OutFrame} (h : l.find? (fun g => g.kind == .answer) = some f) :
    f :: (l.eraseP fun g => g.kind == .answer).filter (fun g => g.kind == .answer) =
      l.filter fun g => g.kind == .answer := by
  induction l with
  | nil => simp at h
  | cons x xs ih =>
    by_cases hx : (x.kind == OutKind.answer) = true
    · rw [List.find?_cons_of_pos (by simpa using hx)] at h
      cases h
      rw [List.eraseP_cons_of_pos (by simpa using hx), List.filter_cons_of_pos (by simpa using hx)]
    · rw [List.find?_cons_of_neg (by simpa using hx)] at h
      rw [List.eraseP_cons_of_neg (by simpa using hx), List.filter_cons_of_neg (by simpa using hx),
        List.filter_cons_of_neg (by simpa using hx)]
      exact ih h

/-- R187: picking the next frame keeps the order of the answers. -/
@[simp] theorem pick_answers (h : HostPort) : h.pick.answers = h.answers := by
  unfold pick
  split
  · rfl
  · rfl
  · rename_i hl _
    split
    · rename_i f hf
      have hk := List.find?_some hf
      simp only [beq_iff_eq] at hk
      have := answers_eraseP hf
      simp [answers, hl, hk]
      simpa using this
    · rename_i hn
      split
      · rfl
      · rename_i f rest hq
        simp [answers, hl, hq]

/-- R185, R187: the next frame is picked, or nothing changes since an item is taken first. -/
theorem choose_cases (h : HostPort) : (h.itemFirst = true ∧ h.choose = h) ∨ (h.itemFirst = false ∧ h.choose = h.pick) := by
  unfold choose
  split
  · exact .inl ⟨‹_›, rfl⟩
  · rename_i hi
    exact .inr ⟨by simpa using hi, rfl⟩

@[simp] theorem choose_rx (h : HostPort) : h.choose.rx = h.rx := by
  obtain ⟨-, e⟩ | ⟨-, e⟩ := h.choose_cases <;> simp [e]
@[simp] theorem choose_intake (h : HostPort) : h.choose.intake = h.intake := by
  obtain ⟨-, e⟩ | ⟨-, e⟩ := h.choose_cases <;> simp [e]
@[simp] theorem choose_restart (h : HostPort) : h.choose.restart = h.restart := by
  obtain ⟨-, e⟩ | ⟨-, e⟩ := h.choose_cases <;> simp [e]
@[simp] theorem choose_directives (h : HostPort) : h.choose.directives = h.directives := by
  simp [directives]
@[simp] theorem choose_busyMarks (h : HostPort) : h.choose.busyMarks = h.busyMarks := by
  simp [busyMarks]
@[simp] theorem choose_frames (h : HostPort) : h.choose.frames = h.frames := by
  obtain ⟨-, e⟩ | ⟨-, e⟩ := h.choose_cases <;> simp [e]

/-- R187: choosing the next frame keeps the order of the answers. -/
@[simp] theorem choose_answers (h : HostPort) : h.choose.answers = h.answers := by
  obtain ⟨-, e⟩ | ⟨-, e⟩ := h.choose_cases <;> simp [e]

/-- What the wait of the line for an item rests on is left as it is by a pick. -/
@[simp] theorem pick_itemFirst (h : HostPort) : h.pick.itemFirst = h.itemFirst := by simp [itemFirst]

/-- Choosing changes nothing where an item is taken first. -/
theorem choose_of_itemFirst (h : HostPort) (hi : h.itemFirst = true) : h.choose = h := by simp [choose, hi]

/-- Choosing is picking where no item is taken first. -/
theorem choose_of_not_itemFirst (h : HostPort) (hi : h.itemFirst = false) : h.choose = h.pick := by simp [choose, hi]

/-- A port without an item in the intake, or with another count of frames than 15, does not wait for one. -/
theorem itemFirst_eq_false (h : HostPort) (hi : h.intake = [] ∨ h.frames ≠ 15) : h.itemFirst = false := by
  rcases hi with hi | hi <;> simp [itemFirst, Config.outgoing, hi]

/-- Where picking changes nothing, choosing changes nothing. -/
theorem choose_of_pick (h : HostPort) (e : h.pick = h) : h.choose = h := by
  simp [choose, e]

theorem choose_of_left (h : HostPort) (hr : h.restart = .answerLeft) : h.choose = h := choose_of_pick h (pick_of_left h hr)

/-- Choosing twice is choosing once. -/
@[simp] theorem choose_choose (h : HostPort) : h.choose.choose = h.choose := by
  obtain ⟨-, e⟩ | ⟨hi, e⟩ := h.choose_cases
  · rw [e, e]
  · rw [e, choose_of_pick _ h.pick_pick]

end HostPort

/-! ## Offering notices -/

namespace State

@[simp] theorem offer_now (k : Nat) (s : State) (n : Notice) : (s.offer k n).now = s.now := by
  unfold offer; (repeat' split) <;> rfl
@[simp] theorem offer_tb (k : Nat) (s : State) (n : Notice) : (s.offer k n).tb = s.tb := by
  unfold offer; (repeat' split) <;> rfl
@[simp] theorem offer_plant (k : Nat) (s : State) (n : Notice) : (s.offer k n).plant = s.plant := by
  unfold offer; (repeat' split) <;> rfl
@[simp] theorem offer_script (k : Nat) (s : State) (n : Notice) : (s.offer k n).script = s.script := by
  unfold offer; (repeat' split) <;> rfl
@[simp] theorem offer_pending (k : Nat) (s : State) (n : Notice) : (s.offer k n).pending = s.pending := by
  unfold offer; (repeat' split) <;> rfl

/-- What an offered notice leaves as it is, but for the outgoing queue and the PENDING marks. -/
structure OfferFrame (s t : State) : Prop where
  now : t.now = s.now
  tb : t.tb = s.tb
  script : t.script = s.script
  pending : t.pending = s.pending
  rx : t.host.rx = s.host.rx
  intake : t.host.intake = s.host.intake
  restart : t.host.restart = s.host.restart
  leaving : t.host.leaving = s.host.leaving
  answers : t.host.answers = s.host.answers
  armed : t.report.armed = s.report.armed
  paused : t.report.paused = s.report.paused
  slots : t.report.slots = s.report.slots
  wr : t.report.wr = s.report.wr
  rd : t.report.rd = s.report.rd
  gap : t.report.gap = s.report.gap

theorem OfferFrame.refl (s : State) : OfferFrame s s := by constructor <;> rfl

theorem OfferFrame.trans {s t u : State} (h : OfferFrame s t) (g : OfferFrame t u) : OfferFrame s u := by
  constructor
  · exact g.now.trans h.now
  · exact g.tb.trans h.tb
  · exact g.script.trans h.script
  · exact g.pending.trans h.pending
  · exact g.rx.trans h.rx
  · exact g.intake.trans h.intake
  · exact g.restart.trans h.restart
  · exact g.leaving.trans h.leaving
  · exact g.answers.trans h.answers
  · exact g.armed.trans h.armed
  · exact g.paused.trans h.paused
  · exact g.slots.trans h.slots
  · exact g.wr.trans h.wr
  · exact g.rd.trans h.rd
  · exact g.gap.trans h.gap

/-- R190: a notice offered touches only the outgoing queue and the PENDING marks. -/
theorem offer_frame (k : Nat) (s : State) (n : Notice) : OfferFrame s (s.offer k n) := by
  unfold offer
  split
  · split
    · constructor <;> first | rfl | exact HostPort.enqueue_notice_answers _ _ rfl
    · constructor <;> rfl
  · exact OfferFrame.refl s

theorem foldl_offer_frame (k : Nat) (ns : List Notice) (s : State) : OfferFrame s (ns.foldl (State.offer k) s) := by
  induction ns generalizing s with
  | nil => exact OfferFrame.refl s
  | cons n ns ih => exact (offer_frame k s n).trans (ih _)

theorem foldl_offer_plant (k : Nat) (ns : List Notice) (s : State) : (ns.foldl (State.offer k) s).plant = s.plant := by
  induction ns generalizing s with
  | nil => rfl
  | cons n ns ih => simp [ih]

/-- R190: the notices of a command touch only the outgoing queue and the PENDING marks. -/
theorem offerAll_frame (k : Nat) (s : State) : OfferFrame s (s.offerAll k) := by
  unfold offerAll
  exact (OfferFrame.trans (t := { s with plant := { s.plant with raised := [] } }) (by constructor <;> rfl)
    (foldl_offer_frame k _ _))

@[simp] theorem offerAll_plant (k : Nat) (s : State) : (s.offerAll k).plant = { s.plant with raised := [] } := by
  simp [offerAll, foldl_offer_plant]

/-- With nothing raised nothing is offered. -/
theorem offerAll_quiet (k : Nat) (s : State) (h : s.plant.raised = []) : s.offerAll k = s := by
  unfold offerAll
  rw [h]
  show ({ s with plant := { s.plant with raised := [] } } : State) = s
  rw [← h]

theorem offer_frames_le (k : Nat) (s : State) (n : Notice) (h : s.host.frames + k ≤ Config.outgoing) :
    (s.offer k n).host.frames + k ≤ Config.outgoing := by
  unfold offer
  split
  · split
    · rename_i hr
      simp only [Bool.and_eq_true, HostPort.room, decide_eq_true_eq] at hr
      simp
      omega
    · exact h
  · exact h

theorem offerAll_frames_le (k : Nat) (s : State) (h : s.host.frames + k ≤ Config.outgoing) :
    (s.offerAll k).host.frames + k ≤ Config.outgoing := by
  unfold offerAll
  generalize s.plant.raised = ns
  have h' : ({ s with plant := { s.plant with raised := [] } } : State).host.frames + k ≤ Config.outgoing := h
  revert h'
  generalize ({ s with plant := { s.plant with raised := [] } } : State) = u
  intro hu
  induction ns generalizing u with
  | nil => exact hu
  | cons n ns ih => exact ih _ (offer_frames_le k u n hu)

/-- R190: with one place free and that place reserved for an answer no notice is queued. -/
theorem offerAll_full (s : State) (h : s.host.frames + 1 = Config.outgoing) : (s.offerAll 1).host = s.host := by
  unfold offerAll
  generalize s.plant.raised = ns
  have hu : ({ s with plant := { s.plant with raised := [] } } : State).host = s.host := rfl
  revert hu
  generalize ({ s with plant := { s.plant with raised := [] } } : State) = u
  intro hu
  induction ns generalizing u with
  | nil => exact hu
  | cons n ns ih =>
    apply ih
    unfold offer
    simp only [HostPort.room, hu, h, Nat.lt_irrefl, decide_false, Bool.and_false]
    split
    · rfl
    · exact hu

/-! ## The transmit line -/

/-- R187: while the queue is not empty, a frame that leaves only lets the next one be chosen. -/
theorem frameLeft_queued (s : State) (f : OutFrame) (hl : s.host.leaving = some f) (hr : s.host.restart = .none)
    (hq : s.host.queue ≠ []) : s.frameLeft = { s with host := ({ s.host with leaving := none } : HostPort).choose } := by
  simp [frameLeft, hl, hr, hq]

/-! ## The end of a command -/

theorem finish_plant (s : State) : s.finish.plant = { s.plant with raised := [] } := by simp [finish]

/-- With nothing raised and a settled line the end of a command changes nothing. -/
theorem finish_settled (s : State) (h : s.Settled) : s.finish = s := by
  unfold finish
  rw [offerAll_quiet 0 s h.1]
  show ({ s with host := s.host.choose } : State) = s
  rw [h.2]

/-- After the end of a command the state is settled. -/
theorem settled_finish (s : State) : s.finish.Settled := by
  refine ⟨by simp [finish_plant], ?_⟩
  simp [finish]

/-- An event's end leaves all but the plant, the frames to the host and the PENDING marks. -/
theorem finish_eventFrame (s : State) : s.EventFrame s.finish := by
  have h := offerAll_frame 0 s
  constructor <;> simp [finish, h.now, h.tb, h.script, h.rx, h.intake, h.restart, h.answers, h.armed, h.paused, h.slots,
    h.wr, h.rd, h.gap, h.pending]

/-- The plant's work and the end of the command. -/
theorem finish_onPlant_eventFrame (s : State) (f : Env → Plant → Plant) : s.EventFrame (s.onPlant f).finish := by
  have h := finish_eventFrame (s.onPlant f)
  exact ⟨h.now, h.tb, h.script, h.rx, h.intake, h.restart, h.answers, h.armed, h.paused, h.slots, h.wr, h.rd, h.gap,
    h.pending⟩

end State

/-! ## Taking a directive (R185) -/

/-- A directive at the head whose owner raises no notice: its effect, and the answer in its place. -/
theorem State.Takes.take_quiet {s : State} {tag code : Byte} {body : List Byte} (h : s.Takes tag code body) (f : Handler)
    (hr : (f body s.popIntake).1.plant.raised = []) :
    s.take code f =
      (fun r : State × Answer => { r.1 with host := (r.1.host.enqueue (answerFrame tag code r.2.body)).choose })
        (f body s.popIntake) := by
  obtain ⟨h1, h2, h3, h4⟩ := h
  cases hi : s.host.intake with
  | nil => simp [hi] at h1
  | cons x xs =>
    simp only [hi, List.head?_cons, Option.some.injEq] at h1
    subst h1
    have hc : s.canTake = true := by simp [State.canTake, HostPort.room, h2, h3, Config.outgoing]
    simp only [State.take, State.takeThen, hi, hc, and_self, if_true, State.handle]
    rw [State.offerAll_quiet 1 _ hr]
    rfl

/-- A directive at the head that is refused, or only read: the answer in its place and nothing else. -/
theorem State.Takes.take_same {s : State} {tag code : Byte} {body : List Byte} (h : s.Takes tag code body) (f : Handler)
    (a : Answer) (hf : f body s.popIntake = (s.popIntake, a)) :
    s.take code f = { s with host := s.host.replied tag code a.body } := by
  rw [h.take_quiet f (by rw [hf]; exact h.quiet), hf]
  rfl

/-- A directive at the head in general: what its owner made, its notices offered, and its answer behind the others. -/
theorem State.Takes.take_answered {s : State} {tag code : Byte} {body : List Byte} (h : s.Takes tag code body)
    (f : Handler) (hh : (f body s.popIntake).1.host = s.popIntake.host) :
    (s.take code f).tb = (f body s.popIntake).1.tb ∧ (s.take code f).now = (f body s.popIntake).1.now ∧
      (s.take code f).script = (f body s.popIntake).1.script ∧
      (s.take code f).plant = { (f body s.popIntake).1.plant with raised := [] } ∧
      (s.take code f).pending = (f body s.popIntake).1.pending ∧
      s.Answered (s.take code f) tag code (f body s.popIntake).2.body := by
  obtain ⟨h1, h2, h3, h4⟩ := h
  cases hi : s.host.intake with
  | nil => simp [hi] at h1
  | cons x xs =>
    simp only [hi, List.head?_cons, Option.some.injEq] at h1
    subst h1
    have hc : s.canTake = true := by simp [State.canTake, HostPort.room, h2, h3, Config.outgoing]
    simp only [State.take, State.takeThen, hi, hc, and_self, if_true, State.handle]
    have g := State.offerAll_frame 1 (f body s.popIntake).1
    refine ⟨g.tb, g.now, g.script, by simp, g.pending, ?_, ?_, ?_⟩
    · simp [g.intake, hh]
    · simp only [HostPort.choose_answers, State.answer_host]
      rw [HostPort.enqueue_answer_answers _ _ rfl, g.answers, hh]
      rfl
    · simp [g.rx, hh]

end Sys2Proof.Machine
end

