-- ==== Sys2Proof/Laws/Moves.lean ====
section
/-! SUPPORT. What the corridor blocks can do to the plant, said once: every operation of Ops to Junctions is made of a few kinds of
move. Whatever all moves keep, every operation keeps. -/

namespace Sys2Proof.Machine

open Sys2Proof

namespace Plant

/-- The moves of the plant that touch no junction but those of A. -/
inductive Moves (A : JIdx → Prop) : Plant → Plant → Prop
  | refl (p : Plant) : Moves A p p
  | trans {p q r : Plant} : Moves A p q → Moves A q r → Moves A p r
  /-- A junction changes, its chain does not. -/
  | jn (p : Plant) (j : JIdx) (f : Junction → Junction) : A j → (∀ J, (f J).chain = J.chain) → Moves A p (p.upd j f)
  /-- An entry record changes. -/
  | ent (p : Plant) (n : EntryNo) (f : Entry → Entry) : Moves A p (p.updEnt n f)
  /-- The request table changes. -/
  | table (p : Plant) (req : Vector (Option Request) 24) (arrivals : List SlotNo) :
    Moves A p { p with req := req, arrivals := arrivals }
  /-- Notices are formed. -/
  | raised (p : Plant) (ns : List Notice) : Moves A p { p with raised := ns }
  /-- The top of a chain goes to its tail (R27). -/
  | turn (p : Plant) (j : JIdx) (n : EntryNo) (rest : List EntryNo) : A j → p.jn[j].chain = n :: rest →
    Moves A p (p.upd j fun J => { J with chain := rest ++ [n] })
  /-- An entry leaves its chain for the tail of the free list (R24). -/
  | drop (p : Plant) (j : JIdx) (n : EntryNo) : A j → n ∈ p.jn[j].chain →
    Moves A p (({ p with free := p.free ++ [n] } : Plant).upd j fun J => { J with chain := J.chain.erase n })
  /-- The head of the free list is placed in a chain (R29, R30). -/
  | draw (p : Plant) (j : JIdx) (n : EntryNo) (rest : List EntryNo) (pos : Nat) : A j → p.free = n :: rest →
    Moves A p (({ p with free := rest } : Plant).upd j fun J =>
      { J with chain := J.chain.take pos ++ n :: J.chain.drop pos })

/-- Any junction. -/
def anyJ : JIdx → Prop := fun _ => True

namespace Moves

variable {A : JIdx → Prop} {p q : Plant}

theorem weaken {B : JIdx → Prop} (hAB : ∀ j, A j → B j) (h : Moves A p q) : Moves B p q := by
  induction h with
  | refl p => exact refl p
  | trans _ _ ih1 ih2 => exact ih1.trans ih2
  | jn p j f hj hf => exact jn p j f (hAB j hj) hf
  | ent p n f => exact ent p n f
  | table p req arrivals => exact table p req arrivals
  | raised p ns => exact raised p ns
  | turn p j n rest hj hc => exact turn p j n rest (hAB j hj) hc
  | drop p j n hj hn => exact drop p j n (hAB j hj) hn
  | draw p j n rest pos hj hf => exact draw p j n rest pos (hAB j hj) hf

theorem any (h : Moves A p q) : Moves anyJ p q := h.weaken fun _ _ => trivial

/-- A fold of operations is made of their moves. -/
theorem foldl {α : Type} {f : Plant → α → Plant} (hf : ∀ p a, Moves A p (f p a)) (l : List α) (p : Plant) :
    Moves A p (l.foldl f p) := by
  induction l generalizing p with
  | nil => exact refl p
  | cons a l ih => exact (hf p a).trans (ih _)

/-- A junction that is not touched is as it was. -/
theorem others (h : Moves A p q) (i : JIdx) (hi : ¬A i) : q.jn[i.val] = p.jn[i.val] := by
  induction h with
  | refl p => rfl
  | trans _ _ ih1 ih2 => exact ih2.trans ih1
  | jn p j f hj hf => exact upd_other p j i f (fun e => hi (e ▸ hj))
  | ent p n f => rfl
  | table p req arrivals => rfl
  | raised p ns => rfl
  | turn p j n rest hj hc => exact upd_other p j i _ (fun e => hi (e ▸ hj))
  | drop p j n hj hn => exact upd_other _ j i _ (fun e => hi (e ▸ hj))
  | draw p j n rest pos hj hf => exact upd_other _ j i _ (fun e => hi (e ▸ hj))

end Moves

/-! ## The entries of the pool under the moves (R24) -/

theorem flatMap_set_perm {α β : Type} (f : α → List β) : ∀ (l : List α) (i : Nat) (x : α) (hi : i < l.length),
    ((l.set i x).flatMap f ++ f l[i]).Perm (l.flatMap f ++ f x) := by
  intro l
  induction l with
  | nil => intro i x hi; simp at hi
  | cons a l ih =>
    intro i x hi
    cases i with
    | zero =>
      simp only [List.set_cons_zero, List.flatMap_cons, List.getElem_cons_zero]
      rw [← Multiset.coe_eq_coe]
      simp only [← Multiset.coe_add]
      abel
    | succ i =>
      simp only [List.set_cons_succ, List.flatMap_cons, List.getElem_cons_succ, List.append_assoc]
      exact List.Perm.append_left _ (ih i x (by simpa using hi))

theorem entries_upd (p : Plant) (j : JIdx) (f : Junction → Junction) :
    ((p.upd j f).entries ++ p.jn[j.val].chain).Perm (p.entries ++ (f p.jn[j.val]).chain) := by
  have h := flatMap_set_perm Junction.chain p.jn.toList j.val (f p.jn[j.val]) (by simp)
  simp only [entries, upd, Vector.toList_set, List.append_assoc]
  have e : p.jn.toList[j.val]'(by simp) = p.jn[j.val] := by simp
  rw [e] at h
  exact List.Perm.append_left _ h

/-- No move loses or doubles an entry. -/
theorem Moves.entries {A : JIdx → Prop} {p q : Plant} (h : Moves A p q) : q.entries.Perm p.entries := by
  induction h with
  | refl p => exact List.Perm.refl _
  | trans _ _ ih1 ih2 => exact ih2.trans ih1
  | jn p j f hj hf =>
    have h := entries_upd p j f
    rw [hf] at h
    exact (List.perm_append_right_iff _).mp h
  | ent p n f => exact List.Perm.refl _
  | table p req arrivals => exact List.Perm.refl _
  | raised p ns => exact List.Perm.refl _
  | turn p j n rest hj hc =>
    have h := entries_upd p j fun J => { J with chain := rest ++ [n] }
    simp only [Fin.getElem_fin] at hc
    rw [hc] at h
    have e : (n :: rest).Perm (rest ++ [n]) := (List.perm_append_singleton n rest).symm
    exact (List.perm_append_right_iff _).mp (h.trans (List.Perm.append_left _ e.symm))
  | drop p j n hj hn =>
    have h := entries_upd { p with free := p.free ++ [n] } j fun J => { J with chain := J.chain.erase n }
    have e := List.perm_cons_erase hn
    simp only [Fin.getElem_fin] at e hn
    have h2 : (({ p with free := p.free ++ [n] } : Plant).entries).Perm (n :: p.entries) := by
      simp only [Plant.entries, List.append_assoc]
      exact List.perm_middle
    have h3 := h.trans (List.Perm.append_right _ h2)
    have h4 := (List.Perm.append_left
      ((({ p with free := p.free ++ [n] } : Plant).upd j fun J => { J with chain := J.chain.erase n }).entries) e).symm.trans h3
    simp only [List.cons_append] at h4
    have h5 := List.perm_middle.symm.trans h4
    exact (List.perm_append_right_iff _).mp ((List.perm_cons n).mp h5)
  | draw p j n rest pos hj hf =>
    have h := entries_upd { p with free := rest } j fun J => { J with chain := J.chain.take pos ++ n :: J.chain.drop pos }
    have e : (p.jn[j.val].chain.take pos ++ n :: p.jn[j.val].chain.drop pos).Perm (n :: p.jn[j.val].chain) :=
      List.perm_middle.trans (by rw [List.take_append_drop])
    have h2 : (n :: ({ p with free := rest } : Plant).entries) = p.entries := by
      simp [Plant.entries, hf]
    have h3 := h.trans (List.Perm.append_left _ e)
    have h4 := h3.trans List.perm_middle
    rw [← List.cons_append, h2] at h4
    exact (List.perm_append_right_iff _).mp h4

theorem Moves.poolWhole {A : JIdx → Prop} {p q : Plant} (h : Moves A p q) (hp : p.PoolWhole) : q.PoolWhole :=
  h.entries.trans hp

end Plant

end Sys2Proof.Machine
end

