-- ==== Sys2Proof/Laws/PlantMoves.lean ====
section
/-! SUPPORT. Each operation of the corridor blocks is made of moves (Laws/Moves.lean) at the junction it works on. -/

namespace Sys2Proof.Machine

open Sys2Proof

/-! ## Junction functions keep the chain -/

theorem Junction.markCompletion_chain (J : Junction) (c : Completion) : (J.markCompletion c).chain = J.chain := by
  unfold Junction.markCompletion; (repeat' split) <;> rfl

theorem Junction.probeOff_chain (J : Junction) : J.probeOff.chain = J.chain := by
  unfold Junction.probeOff; split <;> rfl

theorem Junction.armProbe_chain (J : Junction) (d : Direction) : (J.armProbe d).chain = J.chain := by
  unfold Junction.armProbe; split <;> rfl

theorem Junction.applySettings_chain (J : Junction) (g : GuardSettings) : (J.applySettings g).chain = J.chain := by
  unfold Junction.applySettings; dsimp only; split
  · exact Junction.probeOff_chain _
  · rfl

theorem Junction.exitEdges_chain (J : Junction) (now : Nat) (r f : List DetIdx) (b : Bool) :
    (J.exitEdges now r f b).chain = J.chain := by
  unfold Junction.exitEdges; (repeat' split) <;> rfl

theorem Junction.startDeadline_chain (J : Junction) (now : Nat) : (J.startDeadline now).chain = J.chain := by
  unfold Junction.startDeadline; (repeat' split) <;> rfl

namespace Plant

/-- The moves at one junction. -/
abbrev At (j : JIdx) : Plant → Plant → Prop := Moves (fun i => i = j)

theorem At.upd (p : Plant) (j : JIdx) (f : Junction → Junction) (hf : ∀ J, (f J).chain = J.chain) : At j p (p.upd j f) :=
  Moves.jn p j f rfl hf

theorem raise_moves {A : JIdx → Prop} (p : Plant) (n : Notice) : Moves A p (p.raise n) := Moves.raised p _

theorem setReq_moves {A : JIdx → Prop} (p : Plant) (k : SlotNo) (r : Option Request) : Moves A p (p.setReq k r) :=
  Moves.table p _ _

/-! ## Ops -/

theorem noteOutcome_moves (p : Plant) (j : JIdx) (n : EntryNo) (o : EntryOutcome) : At j p (p.noteOutcome j n o) := by
  unfold noteOutcome
  apply At.upd
  intro J
  dsimp only
  split
  · exact Junction.markCompletion_chain _ _
  · rfl

theorem stopGapOf_moves (p : Plant) (j : JIdx) (n : EntryNo) : At j p (p.stopGapOf j n) := by
  unfold stopGapOf
  split
  · exact At.upd _ _ _ (by intro; rfl)
  · exact .refl p

theorem stopGapOf_chain (p : Plant) (j : JIdx) (n : EntryNo) : (p.stopGapOf j n).jn[j].chain = p.jn[j].chain := by
  unfold stopGapOf
  split <;> simp

theorem noteOutcome_chain (p : Plant) (j : JIdx) (n : EntryNo) (o : EntryOutcome) :
    (p.noteOutcome j n o).jn[j].chain = p.jn[j].chain := by
  simp only [noteOutcome, Fin.getElem_fin, upd_self]
  split
  · exact Junction.markCompletion_chain _ _
  · rfl

theorem rotateTop_moves (p : Plant) (j : JIdx) (out : Option EntryOutcome) : At j p (p.rotateTop j out) := by
  unfold rotateTop
  split
  · exact .refl p
  · rename_i n rest hc
    have h1 := stopGapOf_moves p j n
    have c1 := stopGapOf_chain p j n
    cases out with
    | none => exact (h1.trans (.turn _ j n rest rfl (c1.trans hc))).trans (.ent _ n _)
    | some o =>
      have h2 := noteOutcome_moves (p.stopGapOf j n) j n o
      have c2 := noteOutcome_chain (p.stopGapOf j n) j n o
      exact ((h1.trans h2).trans (.turn _ j n rest rfl (c2.trans (c1.trans hc)))).trans (.ent _ n _)

theorem release_moves (p : Plant) (j : JIdx) (n : EntryNo) : At j p (p.release j n) := by
  unfold release
  split
  · rename_i hn
    have h1 : At j p (p.upd j fun J => { J with
        order := J.order.map fun o => if o.entry = n then { o with live := false } else o }) := At.upd _ _ _ (by intro; rfl)
    have h2 := h1.trans (.drop _ j n rfl (by simpa using hn))
    have h3 := h2.trans (.ent _ n fun _ => Entry.clear)
    have e : ∀ {q r : Plant}, q = r → At j p r → At j p q := fun e h => e ▸ h
    refine e ?_ h3
    simp [upd, updEnt]
  · exact .refl p

theorem retire_moves (p : Plant) (j : JIdx) (n : EntryNo) (out : Option EntryOutcome) : At j p (p.retire j n out) := by
  unfold retire
  cases out with
  | none => exact (stopGapOf_moves p j n).trans (release_moves _ j n)
  | some o => exact ((stopGapOf_moves p j n).trans (noteOutcome_moves _ j n o)).trans (release_moves _ j n)

theorem place_moves (p : Plant) (j : JIdx) (pos : Nat) (x : Entry) : At j p (p.place j pos x).1 := by
  unfold place
  split
  · exact .refl p
  · rename_i n rest hf
    have h := (Moves.ent (A := fun i => i = j) p n fun _ => x).trans (.draw _ j n rest pos rfl (by simpa using hf))
    exact h

theorem endTop_moves (p : Plant) (j : JIdx) (out : EntryOutcome) : At j p (p.endTop j out) := by
  unfold endTop
  split
  · exact .refl p
  · rename_i n _
    dsimp only
    refine Moves.trans ?_ (At.upd _ _ _ (by intro; rfl))
    split
    · exact rotateTop_moves _ _ _
    · exact retire_moves _ _ _ _

/-! ## Lines -/

theorem decideFrame_moves (p : Plant) (j : JIdx) (f : LineFrame) : At j p (p.decideFrame j f) := At.upd _ _ _ (by intro; rfl)

theorem frameSent_moves (e : Env) (p : Plant) (j : JIdx) : At j p (p.frameSent e j) := by
  unfold frameSent
  split
  · exact At.upd _ _ _ fun J => Junction.startDeadline_chain J e.now
  · exact .refl p

theorem keepDue_moves (e : Env) (p : Plant) (j : JIdx) : At j p (p.keepDue e j) := by
  unfold keepDue
  dsimp only
  split
  · exact decideFrame_moves _ _ _
  · exact .refl p

theorem releaseDue_moves (e : Env) (p : Plant) (j : JIdx) : At j p (p.releaseDue e j) := by
  unfold releaseDue
  dsimp only
  split
  · exact decideFrame_moves _ _ _
  · exact .refl p

/-! ## Detectors -/

theorem updDet_moves (p : Plant) (j : JIdx) (f : Detectors → Detectors) : At j p (p.updDet j f) := At.upd _ _ _ (by intro; rfl)

theorem becomeStuck_moves (p : Plant) (j : JIdx) (d : DetIdx) : At j p (p.becomeStuck j d) := by
  unfold becomeStuck
  dsimp only
  refine Moves.trans ?_ (raise_moves _ _)
  split
  · exact (updDet_moves _ _ _).trans (updDet_moves _ _ _)
  · exact updDet_moves _ _ _

theorem ceaseStuck_moves (p : Plant) (j : JIdx) (r : ClearReason) (d : DetIdx) : At j p (p.ceaseStuck j r d) := by
  unfold ceaseStuck
  split
  · exact (updDet_moves _ _ _).trans (raise_moves _ _)
  · exact .refl p

theorem applyStuckLimit_moves (e : Env) (p : Plant) (j : JIdx) : At j p (p.applyStuckLimit e j) := by
  unfold applyStuckLimit
  split
  · exact Moves.foldl (fun p d => ceaseStuck_moves p j _ d) _ p
  · refine Moves.foldl (fun p d => ?_) _ p
    split
    · exact becomeStuck_moves _ _ _
    · exact .refl p

theorem remapOne_moves (e : Env) (j : JIdx) (old : Vector DetFn 24) (p : Plant) (d : DetIdx) :
    At j p (remapOne e j old p d) := by
  unfold remapOne
  dsimp only
  split
  · split
    · exact updDet_moves _ _ _
    · exact .refl p
  · exact (updDet_moves _ _ _).trans (ceaseStuck_moves _ _ _ _)
  · exact .refl p

theorem applyMap_moves (e : Env) (p : Plant) (j : JIdx) (m : Vector DetFn 24) : At j p (p.applyMap e j m) := by
  unfold applyMap
  dsimp only
  refine Moves.trans ?_ (At.upd _ _ _ fun J => by (repeat' split) <;> rfl)
  have h := (updDet_moves p j fun D => { D with map := m, stagedMap := none }).trans
    (Moves.foldl (fun p d => remapOne_moves e j p.jn[j].det.map p d) [] _)
  split
  · exact ((updDet_moves _ _ _).trans (Moves.foldl (fun p d => remapOne_moves e j _ p d) _ _)).trans (updDet_moves _ _ _)
  · exact (updDet_moves _ _ _).trans (Moves.foldl (fun p d => remapOne_moves e j _ p d) _ _)

theorem detectorConfirm_moves (e : Env) (p : Plant) (j : JIdx) (st : Stage) : At j p (p.detectorConfirm e j st) := by
  unfold detectorConfirm
  dsimp only
  split
  · split
    · exact (updDet_moves _ _ _).trans (updDet_moves _ _ _)
    · exact updDet_moves _ _ _
  · exact updDet_moves _ _ _

theorem levelZeroCall_moves (p : Plant) (j : JIdx) (st : Stage) : At j p (p.levelZeroCall j st) := by
  unfold levelZeroCall
  split
  · exact updDet_moves _ _ _
  · exact .refl p

theorem firstRows_moves (e : Env) (p : Plant) (j : JIdx) (rows : Vector Bool 24) : At j p (p.firstRows e j rows) := by
  unfold firstRows
  dsimp only
  refine Moves.trans (Moves.foldl (fun p d => ?_) _ _) (updDet_moves _ _ _)
  split
  · exact .refl p
  · exact ceaseStuck_moves _ _ _ _

theorem extendGap_moves (e : Env) (p : Plant) (j : JIdx) (r : List DetIdx) : At j p (p.extendGap e j r) := by
  unfold extendGap
  split
  · split
    · exact updDet_moves _ _ _
    · exact .refl p
  · exact .refl p

theorem rowEdges_moves (e : Env) (p : Plant) (j : JIdx) (c : Option Stage) (rows : Vector Bool 24) :
    At j p (p.rowEdges e j c rows) := by
  unfold rowEdges
  dsimp only
  refine Moves.trans (Moves.trans ?_ (Moves.foldl (fun p d => ceaseStuck_moves p j _ d) _ _)) (updDet_moves _ _ _)
  split
  · exact (updDet_moves _ _ _).trans (extendGap_moves _ _ _ _)
  · exact .refl p

/-! ## Sequencer -/

theorem startService_moves {A : JIdx → Prop} (e : Env) (p : Plant) (x : Entry) : Moves A p (p.startService e x) := by
  unfold startService
  (repeat' split) <;> first | exact .refl p | exact setReq_moves _ _ _

theorem bandConfirm_moves (e : Env) (p : Plant) (j : JIdx) : At j p (p.bandConfirm e j) := by
  apply At.upd
  intro J
  dsimp only
  rw [Junction.armProbe_chain]
  split <;> rfl

theorem serveTop_moves (e : Env) (p : Plant) (j : JIdx) : At j p (p.serveTop e j) := by
  unfold serveTop
  split
  · exact .refl p
  · rename_i n _
    dsimp only
    have h := (((Moves.ent (A := fun i => i = j) p n fun x => { x with status := .serving, elapsed := some 0 }).trans
      (At.upd _ j (fun J => { J with allowance := resumeAllowance J p.pool[n], dwell := false }) (by intro; rfl))).trans
      (detectorConfirm_moves e _ j p.pool[n].stage)).trans (startService_moves e _ p.pool[n])
    split
    · exact h.trans (bandConfirm_moves _ _ _)
    · exact h

theorem sendOrder_moves (p : Plant) (j : JIdx) (n : EntryNo) : At j p (p.sendOrder j n) := At.upd _ _ _ (by intro; rfl)

theorem orderTop_moves (e : Env) (p : Plant) (j : JIdx) : At j p (p.orderTop e j) := by
  unfold orderTop
  split
  · exact .refl p
  · dsimp only
    split
    · exact .refl p
    · split
      · exact serveTop_moves _ _ _
      · exact sendOrder_moves _ _ _

theorem passTop_moves (p : Plant) (j : JIdx) : At j p (p.passTop j) := by
  unfold passTop
  split
  · exact .refl p
  · split
    · exact rotateTop_moves _ _ _
    · exact retire_moves _ _ _ _

theorem walk_moves (e : Env) (j : JIdx) (k : Nat) (p : Plant) : At j p (walk e j k p) := by
  induction k generalizing p with
  | zero => exact .refl p
  | succ k ih =>
    unfold walk
    split
    · exact .refl p
    · split
      · exact orderTop_moves _ _ _
      · exact (passTop_moves p j).trans (ih _)

theorem passToBand_moves (j : JIdx) (k : Nat) (p : Plant) : At j p (passToBand j k p) := by
  induction k generalizing p with
  | zero => exact .refl p
  | succ k ih =>
    unfold passToBand
    split
    · exact .refl p
    · split
      · exact .refl p
      · exact (passTop_moves p j).trans (ih _)

theorem rotateToBand_moves (j : JIdx) (k : Nat) (p : Plant) : At j p (rotateToBand j k p) := by
  induction k generalizing p with
  | zero => exact .refl p
  | succ k ih =>
    unfold rotateToBand
    split
    · exact .refl p
    · split
      · exact .refl p
      · exact (rotateTop_moves p j none).trans (ih _)

theorem voluntaryEnd_moves (e : Env) (p : Plant) (j : JIdx) (o : EntryOutcome) : At j p (p.voluntaryEnd e j o) :=
  (endTop_moves p j o).trans (walk_moves _ _ _ _)

theorem forceOff_moves (e : Env) (p : Plant) (j : JIdx) : At j p (p.forceOff e j) := by
  unfold forceOff
  exact (((endTop_moves p j .forced).trans (passToBand_moves j chainFuel _)).trans (orderTop_moves e _ j)).trans
    (At.upd _ _ _ (by intro; rfl))

theorem bandEnd_moves (e : Env) (p : Plant) (j : JIdx) : At j p (p.bandEnd e j) := by
  unfold bandEnd
  split
  · exact voluntaryEnd_moves _ _ _ _
  · exact At.upd _ _ _ (by intro; rfl)

theorem dwellCheck_moves (e : Env) (p : Plant) (j : JIdx) : At j p (p.dwellCheck e j) := by
  unfold dwellCheck
  dsimp only
  split
  · exact voluntaryEnd_moves _ _ _ _
  · exact .refl p

theorem sideEnd_moves (e : Env) (p : Plant) (j : JIdx) (o : EntryOutcome) : At j p (p.sideEnd e j o) := by
  unfold sideEnd
  split
  · exact forceOff_moves _ _ _
  · exact voluntaryEnd_moves _ _ _ _

theorem splitExpiry_moves (e : Env) (p : Plant) (j : JIdx) : At j p (p.splitExpiry e j) := by
  unfold splitExpiry
  (repeat' split) <;> first | exact .refl p | exact sideEnd_moves _ _ _ _

theorem allowanceExpiry_moves (e : Env) (p : Plant) (j : JIdx) : At j p (p.allowanceExpiry e j) := by
  unfold allowanceExpiry
  (repeat' split) <;> first | exact .refl p | exact sideEnd_moves _ _ _ _

theorem gapExpiry_moves (e : Env) (p : Plant) (j : JIdx) (st : Stage) : At j p (p.gapExpiry e j st) := by
  unfold gapExpiry
  split
  · split
    · dsimp only
      split
      · split
        · exact (updDet_moves _ _ _).trans (sideEnd_moves _ _ _ _)
        · exact updDet_moves _ _ _
      · exact updDet_moves _ _ _
    · exact .refl p
  · exact .refl p
  · exact .refl p

theorem takeBandEnd_moves (e : Env) (p : Plant) (j : JIdx) : At j p (p.takeBandEnd e j) := by
  unfold takeBandEnd
  (repeat' split) <;> first | exact .refl p | exact bandEnd_moves _ _ _

theorem bandEndPoint_moves (e : Env) (p : Plant) (j : JIdx) : At j p (p.bandEndPoint e j) := by
  unfold bandEndPoint
  split
  · exact (At.upd _ _ _ (by intro; rfl)).trans (takeBandEnd_moves _ _ _)
  · exact .refl p

theorem minimumExpiry_moves (e : Env) (p : Plant) (j : JIdx) : At j p (p.minimumExpiry e j) := by
  unfold minimumExpiry
  split
  · exact .refl p
  · split
    · split
      · (repeat' split) <;> first | exact forceOff_moves _ _ _ | exact voluntaryEnd_moves _ _ _ _ | exact splitExpiry_moves _ _ _
      · dsimp only
        have h : ∀ q : Plant, At j q (if q.jn[j].dwell = true then q else q.takeBandEnd e j) := by
          intro q
          split
          · exact .refl q
          · exact takeBandEnd_moves _ _ _
        refine Moves.trans ?_ (h _)
        split
        · exact At.upd _ _ _ (by intro; rfl)
        · exact .refl p
    · exact .refl p

theorem minimumWaitEnd_moves (e : Env) (p : Plant) (j : JIdx) : At j p (p.minimumWaitEnd e j) := by
  unfold minimumWaitEnd
  split
  · exact .refl p
  · split
    · exact (At.upd _ _ _ (by intro; rfl)).trans (orderTop_moves _ _ _)
    · exact .refl p

theorem joinTakeUp_moves (e : Env) (p : Plant) (j : JIdx) : At j p (p.joinTakeUp e j) := by
  unfold joinTakeUp
  split
  · exact (rotateToBand_moves _ _ _).trans (orderTop_moves _ _ _)
  · exact .refl p

theorem reachCall_moves (e : Env) (p : Plant) (j : JIdx) : At j p (p.reachCall e j) := by
  unfold reachCall
  dsimp only
  refine Moves.trans (At.upd p j (fun J => { J with callDone := true, callReached := true }) fun _ => rfl) ?_
  split
  · exact joinTakeUp_moves _ _ _
  · (repeat' split) <;> first | exact .refl _ | exact forceOff_moves _ _ _ | exact At.upd _ _ _ (by intro; rfl)
  · exact .refl _
  · exact .refl _
  · exact .refl _

theorem bandCallPoint_moves (e : Env) (p : Plant) (j : JIdx) : At j p (p.bandCallPoint e j) := by
  unfold bandCallPoint
  split
  · exact (bandEndPoint_moves _ _ _).trans (reachCall_moves _ _ _)
  · exact .refl p

/-! ## Contexts -/

theorem pushRecord_moves (p : Plant) (j : JIdx) (c : Context) (l : Nat) : At j p (p.pushRecord j c l) :=
  At.upd _ _ _ (by intro; rfl)

theorem interrupt_moves (p : Plant) (j : JIdx) (n : EntryNo) : At j p (p.interrupt j n) := by
  unfold interrupt
  dsimp only
  refine Moves.trans (Moves.trans (stopGapOf_moves p j n) ?_) (At.upd _ _ _ (by intro; rfl))
  split
  · exact .ent _ _ _
  · exact .refl _

theorem beginService_moves (e : Env) (p : Plant) (j : JIdx) (r : Request) (n : EntryNo) (b : Bool) :
    At j p (p.beginService e j r n b) := by
  unfold beginService
  dsimp only
  split
  · exact (At.upd _ _ _ (by intro; rfl)).trans (orderTop_moves _ _ _)
  · split
    · exact At.upd _ _ _ (by intro; rfl)
    · exact (At.upd _ _ _ (by intro; rfl)).trans (orderTop_moves _ _ _)

theorem push_moves (e : Env) (p : Plant) (j : JIdx) (k : SlotNo) (r : Request) : At j p (p.push e j k r) := by
  unfold push
  split
  · exact .refl p
  · dsimp only
    split
    · exact pushRecord_moves _ _ _ _
    · exact (((pushRecord_moves p j _ _).trans (interrupt_moves _ _ _)).trans (place_moves _ _ _ _)).trans
        (beginService_moves _ _ _ _ _ _)

theorem retireService_moves (p : Plant) (j : JIdx) (k : SlotNo) (o : ReqOutcome) : At j p (p.retireService j k o) := by
  unfold retireService
  split
  · exact retire_moves _ _ _ _
  · exact .refl p

theorem resumeForce_moves (e : Env) (p : Plant) (j : JIdx) (b : Bool) : At j p (p.resumeForce e j b) := by
  unfold resumeForce
  (repeat' split) <;> first | exact .refl p | exact forceOff_moves _ _ _ | exact At.upd _ _ _ (by intro; rfl)

theorem deferredEnds_moves (e : Env) (p : Plant) (j : JIdx) : At j p (p.deferredEnds e j) := by
  unfold deferredEnds
  (repeat' split) <;> first
    | exact .refl p
    | exact voluntaryEnd_moves _ _ _ _
    | exact dwellCheck_moves _ _ _
    | exact takeBandEnd_moves _ _ _

theorem resume_moves (e : Env) (p : Plant) (j : JIdx) (c : Context) : At j p (p.resume e j c) := by
  unfold resume
  split
  · exact .refl p
  · dsimp only
    split
    · exact .refl p
    · split
      · split
        · split
          · exact resumeForce_moves _ _ _ _
          · exact deferredEnds_moves _ _ _
        · exact .refl p
      · have h : ∀ f : Junction → Junction, (∀ J, (f J).chain = J.chain) →
            At j p (((p.upd j f).orderTop e j).resumeForce e j c.minReached) := fun f hf =>
          ((At.upd p j f hf).trans (orderTop_moves _ _ _)).trans (resumeForce_moves _ _ _ _)
        split
        · split
          · exact (h _ (by intro; rfl)).trans (At.upd _ _ _ (by intro; rfl))
          · exact h _ (by intro; rfl)
        · exact h _ (by intro; rfl)

theorem pop_moves (e : Env) (p : Plant) (j : JIdx) (o : ReqOutcome) : At j p (p.pop e j o) := by
  unfold pop
  split
  · exact .refl p
  · exact ((retireService_moves _ _ _ _).trans (At.upd _ _ _ (by intro; rfl))).trans (resume_moves _ _ _ _)

theorem fold_moves (p : Plant) (j : JIdx) (o : ReqOutcome) : At j p (p.fold j o) := by
  unfold fold
  split
  · exact (retireService_moves _ _ _ _).trans (At.upd _ _ _ (by intro; rfl))
  · exact .refl p

theorem unwind_moves (e : Env) (p : Plant) (j : JIdx) (k : SlotNo) (o : ReqOutcome) : At j p (p.unwind e j k o) := by
  unfold unwind
  (repeat' split) <;> first | exact .refl p | exact pop_moves _ _ _ _ | exact fold_moves _ _ _

/-! ## Arbiter -/

theorem removeRequest_moves {A : JIdx → Prop} (p : Plant) (k : SlotNo) : Moves A p (p.removeRequest k) := Moves.table p _ _

theorem raiseEnded_moves {A : JIdx → Prop} (p : Plant) (k : SlotNo) (r : Request) (o : ReqOutcome) :
    Moves A p (p.raiseEnded k r o) := raise_moves _ _

theorem endRequest_moves (e : Env) (p : Plant) (k : SlotNo) (o : ReqOutcome) : Moves anyJ p (p.endRequest e k o) := by
  unfold endRequest
  split
  · exact .refl p
  · dsimp only
    refine Moves.trans (Moves.trans (removeRequest_moves p k) ?_) (raiseEnded_moves _ _ _ _)
    split
    · exact (unwind_moves _ _ _ _ _).any
    · exact .refl _

theorem abandonSlot_moves {A : JIdx → Prop} (p : Plant) (k : SlotNo) : Moves A p (p.abandonSlot k) := by
  unfold abandonSlot
  split
  · exact .refl p
  · exact (removeRequest_moves _ _).trans (raiseEnded_moves _ _ _ _)

theorem abandonJunction_moves {A : JIdx → Prop} (p : Plant) (j : JIdx) : Moves A p (p.abandonJunction j) := by
  refine Moves.foldl (fun p k => ?_) _ p
  split
  · exact abandonSlot_moves _ _
  · exact .refl p

theorem displaceBottom_moves (e : Env) (p : Plant) (j : JIdx) : Moves anyJ p (p.displaceBottom e j).1 := by
  unfold displaceBottom
  split
  · exact endRequest_moves _ _ _ _
  · exact .refl p

theorem accept_moves (e : Env) (p : Plant) (j : JIdx) (c : Candidate) : Moves anyJ p (p.accept e j c) := by
  unfold accept
  dsimp only
  have h : ∀ (a : Active) (n : Notice), Moves anyJ p (((((p.displaceBottom e j).1.setReq c.slot
      (some { c.req with state := .active a })).push e j c.slot c.req).upd j fun J =>
        { J with tally := { J.tally with accepts := min 15 (J.tally.accepts + 1) } }).raise n) := fun a n =>
    ((((displaceBottom_moves e p j).trans (setReq_moves _ _ _)).trans (push_moves _ _ _ _ _).any).trans
      (At.upd _ j (fun J => { J with tally := { J.tally with accepts := min 15 (J.tally.accepts + 1) } })
        fun _ => rfl).any).trans (raise_moves _ _)
  split
  · exact (h _ _).trans (endRequest_moves _ _ _ _)
  · exact h _ _

theorem attemptLoop_moves (e : Env) (j : JIdx) (k : Nat) (p : Plant) : Moves anyJ p (attemptLoop e j k p) := by
  induction k generalizing p with
  | zero => exact .refl p
  | succ k ih =>
    unfold attemptLoop
    split
    · exact .refl p
    · rename_i q hq
      refine Moves.trans ?_ (ih q)
      unfold attempt? at hq
      split at hq
      · simp at hq
      · split at hq
        · cases hq
          exact accept_moves _ _ _ _
        · simp at hq

theorem attempts_moves (e : Env) (p : Plant) (j : JIdx) : Moves anyJ p (p.attempts e j) := attemptLoop_moves _ _ _ _

theorem endAndAttempt_moves (e : Env) (p : Plant) (k : SlotNo) (o : ReqOutcome) : Moves anyJ p (p.endAndAttempt e k o) := by
  unfold endAndAttempt
  split
  · exact .refl p
  · exact (endRequest_moves _ _ _ _).trans (attempts_moves _ _ _)

theorem waitExpiry_moves (e : Env) (p : Plant) (k : SlotNo) : Moves anyJ p (p.waitExpiry e k) := by
  unfold waitExpiry
  (repeat' split) <;> first | exact .refl p | exact endAndAttempt_moves _ _ _ _

theorem serviceEnd_moves (e : Env) (p : Plant) (k : SlotNo) : Moves anyJ p (p.serviceEnd e k) := by
  unfold serviceEnd
  (repeat' split) <;> first | exact .refl p | exact endAndAttempt_moves _ _ _ _

theorem holdEnd_moves (e : Env) (p : Plant) (k : SlotNo) : Moves anyJ p (p.holdEnd e k) := by
  unfold holdEnd
  split
  · exact .refl p
  · split
    · exact .refl p
    · split
      · exact endAndAttempt_moves _ _ _ _
      · exact .refl p

theorem writeNew_moves {A : JIdx → Prop} (e : Env) (p : Plant) (k : SlotNo) (a : Arrival) : Moves A p (p.writeNew e k a) :=
  Moves.table p _ _

theorem refresh_moves {A : JIdx → Prop} (e : Env) (p : Plant) (k : SlotNo) (r : Request) (a : Arrival) :
    Moves A p (p.refresh e k r a) := by
  unfold refresh
  split
  · exact Moves.table p _ _
  · exact setReq_moves _ _ _

theorem arriveNew_moves (e : Env) (p : Plant) (a : Arrival) : Moves anyJ p (p.arriveNew e a).1 := by
  unfold arriveNew
  split
  · exact (writeNew_moves _ _ _ _).trans (attempts_moves _ _ _)
  · split
    · split
      · exact ((endAndAttempt_moves _ _ _ _).trans (writeNew_moves _ _ _ _)).trans (attempts_moves _ _ _)
      · exact .refl p
    · exact .refl p

theorem arrive_moves (e : Env) (p : Plant) (a : Arrival) : Moves anyJ p (p.arrive e a).1 := by
  unfold arrive
  split
  · split
    · exact ((levelZeroCall_moves _ _ _).any.trans (dwellCheck_moves _ _ _).any).trans (attempts_moves _ _ _)
    · split
      · split
        · exact (refresh_moves _ _ _ _ _).trans (attempts_moves _ _ _)
        · exact .refl p
      · exact arriveNew_moves _ _ _
  · exact .refl p

theorem unitRecord_moves (e : Env) (p : Plant) (j : JIdx) (b : List Byte) : Moves anyJ p (p.unitRecord e j b) := by
  unfold unitRecord
  dsimp only
  split
  · exact raise_moves _ _
  · split
    · split
      · exact endAndAttempt_moves _ _ _ _
      · exact .refl p
    · split
      · exact raise_moves _ _
      · split
        · exact (arrive_moves _ _ _).trans (raise_moves _ _)
        · exact arrive_moves _ _ _

theorem gate_moves (e : Env) (p : Plant) (j : JIdx) : Moves anyJ p (p.gate e j).1 := by
  unfold gate
  dsimp only
  split
  · exact .refl p
  · split
    · split
      · exact ((At.upd _ _ _ (by intro; rfl)).any.trans (bandEndPoint_moves _ _ _).any).trans (attempts_moves _ _ _)
      · exact .refl p
    · exact .refl p

theorem flush_moves (e : Env) (p : Plant) (j : JIdx) : Moves anyJ p (p.flush e j).1 := by
  unfold flush
  split
  · exact .refl p
  · split
    · exact .refl p
    · dsimp only
      split
      · exact arrive_moves _ _ _
      · exact arrive_moves _ _ _
      · exact (arrive_moves _ _ _).trans (raise_moves _ _)
      · exact arrive_moves _ _ _
      · exact arrive_moves _ _ _

theorem spillDue_moves (e : Env) (p : Plant) (j : JIdx) : Moves anyJ p (p.spillDue e j) := by
  unfold spillDue
  split
  · split
    · dsimp only
      exact (((((At.upd _ j _ (by intro; rfl)).any).trans (gate_moves _ _ _)).trans (flush_moves _ _ _)).trans
        (At.upd _ j _ (by intro; rfl)).any).trans (raise_moves _ _)
    · exact .refl p
  all_goals exact .refl p

/-! ## Junction states and reports -/

theorem setState_moves (p : Plant) (j : JIdx) (st : JState) : At j p (p.setState j st) := by
  unfold setState
  split
  · exact .refl p
  · exact (At.upd _ _ _ (by intro; rfl)).trans (raise_moves _ _)

theorem enterSolo_moves (p : Plant) (j : JIdx) (c : SoloCause) : At j p (p.enterSolo j c) :=
  (decideFrame_moves _ _ _).trans (setState_moves _ _ _)

theorem enterJoining_moves (p : Plant) (j : JIdx) : At j p (p.enterJoining j) := by
  unfold enterJoining
  exact ((At.upd _ _ _ (by intro; rfl)).trans (setState_moves _ _ _)).trans (updDet_moves _ _ _)

theorem settle_moves (e : Env) (p : Plant) (j : JIdx) : At j p (p.settle e j) := by
  unfold settle
  (repeat' split) <;> first
    | exact .refl p
    | exact setState_moves _ _ _
    | exact enterSolo_moves _ _ _
    | exact enterJoining_moves _ _

theorem enterLocal_moves (e : Env) (p : Plant) (j : JIdx) : At j p (p.enterLocal e j) :=
  ((decideFrame_moves _ _ _).trans (setState_moves _ _ _)).trans (settle_moves _ _ _)

theorem unserve_moves {A : JIdx → Prop} (p : Plant) (n : EntryNo) : Moves A p (unserve p n) := by
  unfold unserve
  split
  · exact .ent _ _ _
  · exact .refl p

theorem retireServices_moves (p : Plant) (j : JIdx) : At j p (p.retireServices j) :=
  Moves.foldl (fun p n => retire_moves p j n none) _ p

theorem leave_moves (p : Plant) (j : JIdx) : At j p (p.leave j) :=
  (((retireServices_moves p j).trans (Moves.foldl (fun p n => unserve_moves p n) _ _)).trans
    (At.upd _ j leaveValues (by intro; rfl))).trans (abandonJunction_moves _ _)

theorem stall_moves (p : Plant) (j : JIdx) (err : EntryError) : At j p (p.stall j err) := by
  unfold stall
  dsimp only
  refine Moves.trans (Moves.trans (leave_moves p j) ?_) (enterSolo_moves _ _ _)
  split
  · exact .ent _ _ _
  · exact .refl _

theorem orderWaitingTop_moves (e : Env) (p : Plant) (j : JIdx) : At j p (p.orderWaitingTop e j) := by
  unfold orderWaitingTop
  (repeat' split) <;> first | exact .refl p | exact orderTop_moves _ _ _

theorem forceAtConfirm_moves (e : Env) (p : Plant) (j : JIdx) : At j p (p.forceAtConfirm e j) := by
  unfold forceAtConfirm
  (repeat' split) <;> first | exact .refl p | exact forceOff_moves _ _ _ | exact At.upd _ _ _ (by intro; rfl)

theorem confirmOrder_moves (e : Env) (p : Plant) (j : JIdx) (o : OrderInFlight) : Moves anyJ p (p.confirmOrder e j o) := by
  unfold confirmOrder
  dsimp only
  refine Moves.trans (Moves.trans (Moves.trans (Moves.trans ?_ (attempts_moves _ _ _)) (orderWaitingTop_moves _ _ _).any)
    (forceAtConfirm_moves _ _ _).any) (attempts_moves _ _ _)
  refine Moves.trans (q := p.upd j fun J => { J with order := none, green := some o.stage })
    (At.upd p j _ (by intro; rfl)).any ?_
  split
  · split
    · exact ((setState_moves _ _ _).trans (serveTop_moves _ _ _)).any
    · exact (serveTop_moves _ _ _).any
  · exact (detectorConfirm_moves _ _ _ _).any

theorem reorder_moves (e : Env) (p : Plant) (j : JIdx) : At j p (p.reorder e j) := by
  unfold reorder
  exact (At.upd _ _ _ (by intro; rfl)).trans (orderTop_moves _ _ _)

theorem orderError_moves (e : Env) (p : Plant) (j : JIdx) (o : OrderInFlight) (err : EntryError) :
    At j p (p.orderError e j o err) := by
  unfold orderError
  dsimp only
  split
  · split
    · exact (Moves.ent _ _ _).trans (reorder_moves _ _ _)
    · split
      · exact ((Moves.ent _ _ _).trans (.ent _ _ _)).trans (reorder_moves _ _ _)
      · exact (Moves.ent _ _ _).trans (stall_moves _ _ _)
  · exact reorder_moves _ _ _

theorem confirmTimeout_moves (e : Env) (p : Plant) (j : JIdx) : Moves anyJ p (p.confirmTimeout e j) := by
  unfold confirmTimeout
  (repeat' split) <;> first | exact .refl p | exact (orderError_moves _ _ _ _ _).any.trans (attempts_moves _ _ _)

theorem compareOrder_moves (e : Env) (p : Plant) (j : JIdx) (b : List Byte) : Moves anyJ p (p.compareOrder e j b) := by
  unfold compareOrder
  split
  · exact .refl p
  · rename_i o _
    split
    · split
      · exact confirmOrder_moves e p j o
      · exact (orderError_moves e p j o .wrongStage).any.trans (attempts_moves e _ j)
    · exact .refl p

theorem lineUp_moves (e : Env) (p : Plant) (j : JIdx) : At j p (p.lineUp e j) := by
  unfold lineUp
  split
  · exact enterLocal_moves _ _ _
  · exact settle_moves _ _ _

theorem lineSilence_moves (e : Env) (p : Plant) (j : JIdx) : At j p (p.lineSilence e j) := by
  unfold lineSilence
  dsimp only
  split
  · exact .refl p
  · split
    · have h0 : At j p (p.upd j fun J =>
          { J with line := { J.line with up := false, silence := none, waiting := none } }) :=
        At.upd p j _ (by intro; rfl)
      generalize (p.upd j fun J =>
          { J with line := { J.line with up := false, silence := none, waiting := none } }) = q at h0 ⊢
      refine h0.trans ?_
      have g : ∀ q : Plant, At j q (if q.jn[j].state.coordinated = true then (q.leave j).enterSolo j .link else q) := by
        intro q
        split
        · exact (leave_moves _ _).trans (enterSolo_moves _ _ _)
        · exact .refl _
      split
      · exact Moves.trans (Moves.trans (raise_moves _ _) (updDet_moves _ _ _)) (g _)
      · exact .refl _
    · exact .refl p

theorem modeChange_moves (e : Env) (p : Plant) (j : JIdx) (earlier : Option UnitMode) (m : UnitMode) :
    At j p (p.modeChange e j earlier m) := by
  unfold modeChange
  split
  · exact .refl p
  · split
    · exact (leave_moves p j).trans (enterLocal_moves e _ j)
    · exact (leave_moves p j).trans (enterLocal_moves e _ j)
    · exact settle_moves e p j
    · exact enterLocal_moves e p j
    · exact (leave_moves p j).trans (enterSolo_moves _ j _)
    · exact (leave_moves p j).trans (enterSolo_moves _ j _)
    · exact settle_moves e p j
    · exact settle_moves e p j
    · exact enterLocal_moves e p j
    · exact .refl p

theorem sequencerReport_moves (e : Env) (p : Plant) (j : JIdx) (wasUp : Bool) (earlier : Option UnitMode) (b : List Byte) :
    Moves anyJ p (p.sequencerReport e j wasUp earlier b) := by
  unfold sequencerReport
  dsimp only
  have g : ∀ q : Plant, Moves anyJ q (if q.jn[j].state.coordinated = true then
      if reportLamp b = true then q.stall j .lampFault else q.compareOrder e j b else q) := by
    intro q
    split
    · split
      · exact (stall_moves q j .lampFault).any
      · exact compareOrder_moves e q j b
    · exact .refl q
  refine Moves.trans ?_ (g _)
  refine Moves.trans ?_ (settle_moves e _ j).any
  refine Moves.trans ?_ (modeChange_moves e _ j earlier (reportMode b)).any
  cases wasUp
  · exact (lineUp_moves _ _ _).any
  · exact .refl p

theorem detectorReport_moves (e : Env) (p : Plant) (j : JIdx) (b : Bool) (c : Option Stage) (body : List Byte) :
    Moves anyJ p (p.detectorReport e j b c body) := by
  unfold detectorReport
  dsimp only
  split
  · refine Moves.trans ?_ (attempts_moves _ _ _)
    refine Moves.trans ?_ (dwellCheck_moves _ _ _).any
    refine Moves.trans (rowEdges_moves e p j c (reportRows body)).any ?_
    split
    · refine Moves.any (At.upd _ j _ ?_)
      intro J
      exact Junction.exitEdges_chain J _ _ _ _
    · exact .refl _
  · exact (firstRows_moves _ _ _ _).any

theorem recordReport_moves (e : Env) (p : Plant) (j : JIdx) (b : List Byte) : At j p (p.recordReport e j b) := by
  unfold recordReport
  exact At.upd _ _ _ (by intro; rfl)

theorem takeReport_moves (e : Env) (p : Plant) (j : JIdx) (first : TakeOrder) (b : List Byte) :
    Moves anyJ p (p.takeReport e j first b) := by
  unfold takeReport
  dsimp only
  have h := (recordReport_moves e p j b).any
  generalize p.recordReport e j b = q at h ⊢
  split
  · refine Moves.trans (h.trans ?_) (Moves.foldl (fun p b => unitRecord_moves e p j b) _ _)
    have g : Moves anyJ q (if p.jn[j].line.up = true then q else q.raise (.linkUp j (reportMode b))) := by
      split
      · exact .refl q
      · exact raise_moves _ _
    generalize (if p.jn[j].line.up = true then q else q.raise (.linkUp j (reportMode b))) = r at g ⊢
    cases first with
    | detectorFirst => exact (g.trans (detectorReport_moves _ _ _ _ _ _)).trans (sequencerReport_moves _ _ _ _ _ _)
    | sequencerFirst => exact (g.trans (sequencerReport_moves _ _ _ _ _ _)).trans (detectorReport_moves _ _ _ _ _ _)
  · exact h

theorem takeFound_moves (e : Env) (p : Plant) (j : JIdx) (first : TakeOrder) (rx : List Received) (found : List Found)
    (kept : Nat) : Moves anyJ p (p.takeFound e j first rx found kept) := by
  unfold takeFound
  exact (At.upd p j _ (by intro; rfl)).any.trans (Moves.foldl (fun p f => takeReport_moves (arrivalEnv e rx f) p j first _) _ _)

theorem corridorBytes_moves (e : Env) (p : Plant) (j : JIdx) (first : TakeOrder) (b : List Byte) :
    Moves anyJ p (p.corridorBytes e j first b) := takeFound_moves e p j first _ _ _

theorem corridorGap_moves (e : Env) (p : Plant) (j : JIdx) (first : TakeOrder) : Moves anyJ p (p.corridorGap e j first) :=
  takeFound_moves e p j first _ _ _

theorem stuckDetected_moves (e : Env) (p : Plant) (j : JIdx) (d : DetIdx) : Moves anyJ p (p.stuckDetected e j d) := by
  unfold stuckDetected
  split
  · exact ((becomeStuck_moves _ _ _).trans (dwellCheck_moves _ _ _)).any.trans (attempts_moves _ _ _)
  · exact .refl p

end Plant

end Sys2Proof.Machine
end

