-- ==== Sys2Proof/Laws/Kept.lean ====
section
/-! SUPPORT. What the operations over the whole state keep: the ranges of timebase and script store, the cycle record queue
without holes, and the entries of the pool. -/

namespace Sys2Proof.Machine

open Sys2Proof

/-! ## The relation -/

/-- Going from s to t keeps the ranges, the cycle record queue and the pool. -/
structure State.Kept (s t : State) : Prop where
  ranges : s.tb.InRange ∧ s.script.InRange → t.tb.InRange ∧ t.script.InRange
  records : s.report.Whole → t.report.Whole
  pool : s.plant.PoolWhole → t.plant.PoolWhole

namespace State.Kept

theorem refl (s : State) : s.Kept s := ⟨id, id, id⟩

theorem trans {s t u : State} (h : s.Kept t) (g : t.Kept u) : s.Kept u :=
  ⟨fun x => g.ranges (h.ranges x), fun x => g.records (h.records x), fun x => g.pool (h.pool x)⟩

/-- Only the plant moves. -/
theorem plant (s : State) {A : JIdx → Prop} {q : Plant} (h : Plant.Moves A s.plant q) : s.Kept { s with plant := q } :=
  ⟨id, id, h.poolWhole⟩

theorem onPlant (s : State) {A : JIdx → Prop} (f : Env → Plant → Plant) (h : Plant.Moves A s.plant (f s.env s.plant)) :
    s.Kept (s.onPlant f) := plant s h

theorem raise (s : State) (n : Notice) : s.Kept (s.raise n) := ⟨id, id, id⟩

theorem host (s : State) (h : HostPort) : s.Kept { s with host := h } := ⟨id, id, id⟩

theorem script (s : State) {u : ScriptUnit} (h : s.script.InRange → u.InRange) : s.Kept { s with script := u } :=
  ⟨fun x => ⟨x.1, h x.2⟩, id, id⟩

theorem tb (s : State) {v : Timebase} (h : s.tb.InRange → v.InRange) : s.Kept { s with tb := v } :=
  ⟨fun x => ⟨h x.1, x.2⟩, id, id⟩

end State.Kept

/-! ## The plant's maps -/

namespace Plant

/-- The entries depend only on the free list and the chains. -/
theorem entries_congr (p q : Plant) (hf : q.free = p.free) (hc : ∀ j : JIdx, q.jn[j.val].chain = p.jn[j.val].chain) :
    q.entries = p.entries := by
  unfold entries
  rw [hf]
  congr 1
  have h : q.jn.toList.map Junction.chain = p.jn.toList.map Junction.chain := by
    apply List.ext_getElem (by simp)
    intro i h1 h2
    simp only [List.length_map, Vector.length_toList] at h1
    simpa using hc ⟨i, h1⟩
  rw [List.flatMap_def, List.flatMap_def, h]

theorem poolWhole_congr {p q : Plant} (hf : q.free = p.free) (hc : ∀ j : JIdx, q.jn[j.val].chain = p.jn[j.val].chain)
    (h : p.PoolWhole) : q.PoolWhole := by
  unfold PoolWhole
  rw [entries_congr p q hf hc]
  exact h

/-- A map over the junctions that keeps the chains keeps the pool. -/
theorem poolWhole_map (p : Plant) (f : Junction → Junction) (hf : ∀ J, (f J).chain = J.chain) (h : p.PoolWhole) :
    ({ p with jn := p.jn.map f } : Plant).PoolWhole :=
  poolWhole_congr (p := p) rfl (fun j => by simp [hf]) h

end Plant

/-! ## Script store -/

namespace ScriptUnit

/-- The items of the store, counted queue by queue. -/
theorem held_eq (u : ScriptUnit) : u.held = ∑ q : QueueNo, u.queues[q.val].length := by
  unfold held
  rw [← List.sum_ofFn]
  congr 1
  apply List.ext_getElem (by simp)
  intro i h1 h2
  simp only [List.getElem_map, Vector.getElem_toList, List.getElem_ofFn]

/-- Queues that are no longer hold no more. -/
theorem held_le {u v : ScriptUnit} (h : ∀ q : QueueNo, v.queues[q.val].length ≤ u.queues[q.val].length) : v.held ≤ u.held := by
  rw [held_eq, held_eq]
  exact Finset.sum_le_sum fun q _ => h q

/-- A unit whose items, groups and counters come from another, or are in range, is in range with it. -/
theorem inRange_of {u v : ScriptUnit} (h : ∀ q : QueueNo, ∀ i ∈ v.queues[q.val], i ∈ u.queues[q.val] ∨ i.inRange = true)
    (hs : u.held ≤ 256 → v.held ≤ 256) (hw : u.notBefore.length ≤ 4 → v.notBefore.length ≤ 4)
    (hc : ∀ q : QueueNo, v.hold[q.val] ≤ u.hold[q.val] ∨ v.hold[q.val] ≤ 63) (hu : u.InRange) : v.InRange := by
  refine ⟨fun q i hi => ?_, hs hu.store, hw hu.waiting, fun q => ?_⟩
  · rcases h q i hi with h | h
    · exact hu.items q i h
    · exact h
  · have := hu.counters q
    simp only [Fin.getElem_fin] at this ⊢
    rcases hc q with h | h <;> omega

/-- The place counters and the running mask bear on no range. -/
theorem inRange_congr {u v : ScriptUnit} (h : v.queues = u.queues) (hw : v.notBefore = u.notBefore)
    (hc : ∀ q : QueueNo, v.hold[q.val] ≤ u.hold[q.val] ∨ v.hold[q.val] ≤ 63) (hu : u.InRange) : v.InRange :=
  inRange_of (fun q i hi => Or.inl (by rw [h] at hi; exact hi)) (by unfold held; rw [h]; exact id) (by rw [hw]; exact id) hc hu

theorem queues_updQueue_self (u : ScriptUnit) (q : QueueNo) (f : List Item → List Item) :
    (u.updQueue q f).queues[q.val] = f u.queues[q.val] := by
  simp [updQueue]

theorem queues_updQueue_ne (u : ScriptUnit) (q r : QueueNo) (f : List Item → List Item) (h : r ≠ q) :
    (u.updQueue q f).queues[r.val] = u.queues[r.val] := by
  simp only [updQueue, Fin.getElem_fin]
  rw [Vector.getElem_set_ne (hi := q.isLt) (hj := r.isLt) (h := fun e' => h (Fin.ext e'.symm))]

/-- A queue whose items are changed: what its new items are, and that the store still holds them. -/
theorem inRange_updQueue (u : ScriptUnit) (q : QueueNo) (f : List Item → List Item)
    (h : ∀ i ∈ f u.queues[q.val], i ∈ u.queues[q.val] ∨ i.inRange = true)
    (hs : u.held ≤ 256 → (u.updQueue q f).held ≤ 256) (hu : u.InRange) : (u.updQueue q f).InRange := by
  refine inRange_of (fun r i hi => ?_) hs id (fun _ => Or.inl (Nat.le_refl _)) hu
  by_cases e : r = q
  · subst e
    rw [queues_updQueue_self] at hi
    exact h i hi
  · rw [queues_updQueue_ne _ _ _ _ e] at hi
    exact Or.inl hi

/-- A queue that grows no longer holds no more. -/
theorem held_updQueue_le (u : ScriptUnit) (q : QueueNo) (f : List Item → List Item)
    (h : (f u.queues[q.val]).length ≤ u.queues[q.val].length) : (u.updQueue q f).held ≤ u.held := by
  refine held_le fun r => ?_
  by_cases e : r = q
  · subst e
    rw [queues_updQueue_self]
    exact h
  · rw [queues_updQueue_ne _ _ _ _ e]

/-- A queue that grows by one item makes the store hold one more. -/
theorem held_updQueue_append (u : ScriptUnit) (q : QueueNo) (i : Item) :
    (u.updQueue q fun l => l ++ [i]).held = u.held + 1 := by
  rw [held_eq, held_eq]
  have h : ∀ r : QueueNo, ((u.updQueue q fun l => l ++ [i]).queues[r.val]).length =
      u.queues[r.val].length + if r = q then 1 else 0 := by
    intro r
    by_cases e : r = q
    · subst e
      simp [queues_updQueue_self]
    · rw [queues_updQueue_ne _ _ _ _ e]
      simp [e]
  simp only [h, Finset.sum_add_distrib, Finset.sum_ite_eq', Finset.mem_univ, if_true]

theorem inRange_endQueue (u : ScriptUnit) (q : QueueNo) (hu : u.InRange) : (u.endQueue q).InRange := by
  refine inRange_congr (u := u) rfl rfl (fun r => ?_) hu
  by_cases e : q.val = r.val
  · right
    simp [endQueue, e]
  · left
    simp [endQueue, e]

theorem length_dropGroup (l : List Item) : (dropGroup l).length ≤ l.length := by
  induction l with
  | nil => exact Nat.le_refl _
  | cons x l ih => cases x <;> simp only [dropGroup, List.length_cons] <;> omega

theorem length_takeGroup (l : List Item) : (takeGroup l).length ≤ l.length := by
  induction l with
  | nil => exact Nat.le_refl _
  | cons x l ih => cases x <;> simp only [takeGroup, List.length_cons, List.length_nil] <;> omega

theorem mem_dropGroup {l : List Item} {i : Item} (h : i ∈ dropGroup l) : i ∈ l := by
  induction l with
  | nil => simp [dropGroup] at h
  | cons x l ih =>
    cases x with
    | endMark => exact List.mem_cons_of_mem _ h
    | step hold blocks => exact List.mem_cons_of_mem _ (ih h)

theorem mem_takeGroup {l : List Item} {i : Item} (h : i ∈ takeGroup l) : i ∈ l := by
  induction l with
  | nil => simp [takeGroup] at h
  | cons x l ih =>
    cases x with
    | endMark =>
      simp only [takeGroup, List.mem_singleton] at h
      simp [h]
    | step hold blocks =>
      simp only [takeGroup, List.mem_cons] at h
      rcases h with h | h
      · simp [h]
      · exact List.mem_cons_of_mem _ (ih h)

theorem inRange_skipEmpty (u : ScriptUnit) (q : QueueNo) (hu : u.InRange) : (u.skipEmpty q).InRange := by
  unfold skipEmpty
  split
  · rename_i rest hq
    have hq' : u.queues[q.val] = .endMark :: rest := hq
    have h := inRange_updQueue u q (fun _ => rest) (fun i hi => Or.inl (by rw [hq']; exact List.mem_cons_of_mem _ hi))
      (Nat.le_trans (held_updQueue_le u q _ (by rw [hq']; exact Nat.le_succ _))) hu
    exact inRange_congr (u := u.updQueue q fun _ => rest) rfl rfl (fun _ => Or.inl (Nat.le_refl _)) h
  · exact hu

theorem inRange_startGroup (u : ScriptUnit) (hu : u.InRange) : u.startGroup.InRange := by
  unfold startGroup
  have h : ∀ (l : List QueueNo) (v : ScriptUnit), v.InRange → (l.foldl skipEmpty v).InRange := by
    intro l
    induction l with
    | nil => exact fun v hv => hv
    | cons q l ih => exact fun v hv => ih _ (inRange_skipEmpty v q hv)
  refine h _ _ (inRange_of (u := u) (fun q i hi => Or.inl hi) id ?_ (fun q => Or.inr ?_) hu)
  · simp only [List.length_tail]
    omega
  · simp

theorem inRange_abandon (u : ScriptUnit) (hu : u.InRange) : u.abandon.InRange := by
  refine inRange_of (u := u) (fun q i hi => Or.inl ?_) (Nat.le_trans (held_le fun q => ?_)) id (fun q => Or.inr ?_) hu
  · simp only [abandon, Vector.getElem_ofFn] at hi
    split at hi
    · exact mem_dropGroup hi
    · exact hi
  · simp only [abandon, Vector.getElem_ofFn]
    split
    · exact length_dropGroup _
    · exact Nat.le_refl _
  · simp [abandon]

theorem inRange_drop (u : ScriptUnit) (hu : u.InRange) : u.drop.InRange := by
  refine inRange_of (u := u) (fun q i hi => Or.inl ?_) (Nat.le_trans (held_le fun q => ?_)) (fun _ => Nat.zero_le _)
    (fun _ => Or.inl (Nat.le_refl _)) hu
  · simp only [drop, Vector.getElem_ofFn] at hi
    split at hi
    · exact mem_takeGroup hi
    · simp at hi
  · simp only [drop, Vector.getElem_ofFn]
    split
    · exact length_takeGroup _
    · exact Nat.zero_le _

end ScriptUnit

/-! ## Cycle records -/

namespace ReportBlock

theorem held_lt (r : ReportBlock) : r.held < 48 := Nat.mod_lt _ (by decide)

theorem whole_store (r : ReportBlock) (c : CycleRecord) (h : r.Whole) : (r.store c).Whole := by
  unfold store
  split
  · rename_i hr
    intro i hi
    have hw := r.wr.isLt
    have hd := r.rd.isLt
    simp only [Config.recordsHeld] at hr
    have hwr : (r.wr + 1).val = (r.wr.val + 1) % 48 := by rw [Fin.val_add]; rfl
    simp only [held, hwr] at hi hr
    by_cases e : (r.rd.val + i) % 48 = r.wr.val
    · simp [e]
    · rw [Vector.getElem_set_ne (h := fun e' => e e'.symm)]
      apply h i
      simp only [held]
      omega
  · exact h

theorem whole_fetchOne (r : ReportBlock) (h : r.Whole) : r.fetchOne.1.Whole := by
  unfold fetchOne
  split
  · exact h
  · rename_i hz
    intro i hi
    have hw := r.wr.isLt
    have hd := r.rd.isLt
    have hrd : (r.rd + 1).val = (r.rd.val + 1) % 48 := by rw [Fin.val_add]; rfl
    simp only [held, hrd] at hi hz
    have e : ((r.rd + 1).val + i) % 48 = (r.rd.val + (i + 1)) % 48 := by rw [hrd]; omega
    have h1 := h (i + 1) (by simp only [held]; omega)
    simp only [e]
    rw [Vector.getElem_set_ne (h := by omega)]
    exact h1

theorem whole_fetch (n : Nat) (r : ReportBlock) (h : r.Whole) : (fetch n r).1.Whole := by
  induction n generalizing r with
  | zero => exact h
  | succ n ih =>
    unfold fetch
    have h1 := whole_fetchOne r h
    split
    · rename_i r' c e
      rw [e] at h1
      exact ih _ h1
    · rename_i r' e
      rw [e] at h1
      exact h1

end ReportBlock

/-! ## Notices and the line to the host -/

namespace State.Kept

theorem of_frame {k : Nat} (s : State) : s.Kept (s.offerAll k) := by
  have h := offerAll_frame k s
  refine ⟨fun x => ?_, fun x => ?_, fun x => ?_⟩
  · rw [h.tb, h.script]; exact x
  · intro i hi
    have e : (s.offerAll k).report.held = s.report.held := by simp [ReportBlock.held, h.wr, h.rd]
    rw [e] at hi
    have := x i hi
    simp only [h.slots, h.rd]
    exact this
  · rw [offerAll_plant]
    exact Plant.poolWhole_congr (p := s.plant) rfl (fun _ => rfl) x

theorem finish (s : State) : s.Kept s.finish := (of_frame s).trans (host _ _)

theorem catchUp (s : State) (c : NoticeClass) : s.Kept (s.catchUp c) := ⟨id, id, id⟩

/-- A fold of operations that keep. -/
theorem foldl {α : Type} {f : State → α → State} (hf : ∀ (s : State) a, s.Kept (f s a)) (l : List α) (s : State) :
    s.Kept (l.foldl f s) := by
  induction l generalizing s with
  | nil => exact refl s
  | cons a l ih => exact (hf s a).trans (ih _)

theorem catchUpAll (s : State) : s.Kept s.catchUpAll :=
  foldl (fun s c => by split; exacts [catchUp s c, refl s]) _ s

/-- R185: taking a directive keeps what its owner keeps. -/
theorem takeThen (s : State) (code : Byte) (h : Handler) (after : List Byte → State → State)
    (hh : ∀ b (s : State), s.Kept (h b s).1) (ha : ∀ b (s : State), s.Kept (after b s)) : s.Kept (s.takeThen code h after) := by
  unfold State.takeThen
  split
  · split
    · unfold State.handle
      exact ((((Kept.host s _).trans (hh _ _)).trans (of_frame _)).trans (Kept.host _ _)).trans ((ha _ _).trans (Kept.host _ _))
    · exact refl s
  · exact refl s

theorem take (s : State) (code : Byte) (h : Handler) (hh : ∀ b (s : State), s.Kept (h b s).1) :
    s.Kept (s.take code h) :=
  takeThen s code h (fun _ s => s) hh fun _ s => refl s

end State.Kept

/-! ## Script steps and master zero (R2, R8, R154 to R165) -/

namespace State.Kept

theorem setCorridor_pool (s : State) (c : Nat) (d : Direction) (h : s.plant.PoolWhole) :
    (s.setCorridor c d).plant.PoolWhole := by
  unfold State.setCorridor
  dsimp only
  split
  · exact h
  · exact Plant.poolWhole_map s.plant Junction.probeOff Junction.probeOff_chain h

theorem setCorridor (s : State) (c : Nat) (d : Direction) (hc : 40 ≤ c ∧ c ≤ 200 ∧ s.tb.m < 10 * c) :
    s.Kept (s.setCorridor c d) := by
  exact ⟨fun x => ⟨⟨hc.1, hc.2.1, hc.2.2, x.1.2.2.2⟩, x.2⟩, id, setCorridor_pool s c d⟩

theorem finishCheck (s : State) : s.Kept s.finishCheck := by
  unfold State.finishCheck
  split
  · exact refl s
  · exact raise s _

theorem tryStart (s : State) : s.Kept s.tryStart := by
  unfold State.tryStart
  split
  · exact refl s
  · split
    · exact ((script s (ScriptUnit.inRange_startGroup _)).trans (raise _ _)).trans (finishCheck _)
    · exact refl s

theorem scriptFaulted (s : State) (q : QueueNo) (place : Nat) (r : Reason) (j : Option JIdx) :
    s.Kept (s.scriptFaulted q place r j) := by
  unfold State.scriptFaulted
  refine Kept.trans (Kept.trans (script s fun h => ?_) (raise _ _)) (finishCheck _)
  exact ScriptUnit.inRange_endQueue _ q
    (ScriptUnit.inRange_updQueue _ q _ (fun i hi => Or.inl (ScriptUnit.mem_dropGroup hi))
      (Nat.le_trans (ScriptUnit.held_updQueue_le _ q _ (ScriptUnit.length_dropGroup _))) h)

theorem applyJunctionStep_moves (p : Plant) (c m : Nat) (j : JIdx) (blocks : List Block) :
    Plant.At j p (applyJunctionStep p c m j blocks) := by
  unfold applyJunctionStep
  dsimp only
  refine Plant.Moves.trans (Plant.Moves.foldl (f := fun p n => p.updEnt n (stepSplit blocks))
    (fun p n => Plant.Moves.ent p n _) p.jn[j].chain p) ?_
  apply Plant.At.upd
  intro J
  split <;> rfl

theorem tryJunction (s : State) (j : JIdx) (blocks : List Block) : s.Kept (s.tryJunction j blocks).1 := by
  unfold State.tryJunction
  split
  · exact refl s
  · exact plant s (applyJunctionStep_moves _ _ _ _ _)

theorem masterTrial_range (blocks : List Block) (v : Nat × Direction) (hb : blocks.all Block.inRange = true)
    (hv : 40 ≤ v.1 ∧ v.1 ≤ 200) : 40 ≤ (masterTrial blocks v).1 ∧ (masterTrial blocks v).1 ≤ 200 := by
  unfold masterTrial
  induction blocks generalizing v with
  | nil => exact hv
  | cons b l ih =>
    simp only [List.all_cons, Bool.and_eq_true] at hb
    apply ih _ hb.2
    cases b with
    | cycle c =>
      have h := hb.1
      simp only [Block.inRange, within, Bool.and_eq_true, decide_eq_true_eq] at h
      exact h
    | _ => exact hv

/-- A master step is refused, or applies its trial values. -/
theorem tryMaster_cases (s : State) (blocks : List Block) : (s.tryMaster blocks).1 = s ∨
    (s.tryMaster blocks).1 = s.setCorridor (masterTrial blocks (s.tb.c, s.tb.dir)).1
      (masterTrial blocks (s.tb.c, s.tb.dir)).2 := by
  unfold State.tryMaster
  dsimp only
  split
  · exact Or.inl rfl
  · exact Or.inr rfl

/-- A master step made at master zero. -/
theorem tryMaster (s : State) (blocks : List Block) (hm : s.tb.m = 0) :
    (blocks.all Block.inRange = true → s.tb.InRange ∧ s.script.InRange →
      (s.tryMaster blocks).1.tb.InRange ∧ (s.tryMaster blocks).1.script.InRange) ∧
    (s.report.Whole → (s.tryMaster blocks).1.report.Whole) ∧
    (s.plant.PoolWhole → (s.tryMaster blocks).1.plant.PoolWhole) := by
  rcases tryMaster_cases s blocks with h | h
  · rw [h]
    exact ⟨fun _ => id, id, id⟩
  · rw [h]
    refine ⟨fun hb x => ?_, id, setCorridor_pool s _ _⟩
    have g := masterTrial_range blocks (s.tb.c, s.tb.dir) hb ⟨x.1.1, x.1.2.1⟩
    exact (setCorridor s _ _ ⟨g.1, g.2, by rw [hm]; omega⟩).ranges x

/-- A queue's next item is read; the master queue's only at master zero. -/
theorem readItem (s : State) (q : QueueNo) (hq : q = masterQueue → s.tb.m = 0) : s.Kept (s.readItem q) := by
  unfold State.readItem
  split
  · exact refl s
  · rename_i rest hs
    refine Kept.trans (script s fun h => ?_) (finishCheck _)
    have hs' : s.script.queues[q.val] = .endMark :: rest := hs
    refine ScriptUnit.inRange_endQueue _ q (ScriptUnit.inRange_updQueue _ q _ (fun i hi => Or.inl ?_)
      (Nat.le_trans (ScriptUnit.held_updQueue_le _ q _ (by rw [hs']; exact Nat.le_succ _))) h)
    rw [hs']
    exact List.mem_cons_of_mem _ hi
  · rename_i hold blocks rest hs
    have hs' : s.script.queues[q.val] = .step hold blocks :: rest := hs
    dsimp only
    have k1 : s.Kept { s with script :=
        { s.script.updQueue q (fun _ => rest) with place := s.script.place.set q (s.script.place[q] + 1) } } := by
      refine script s fun h => ?_
      refine ScriptUnit.inRange_congr (u := s.script.updQueue q fun _ => rest) rfl rfl (fun _ => Or.inl (Nat.le_refl _))
        (ScriptUnit.inRange_updQueue _ q _ (fun i hi => Or.inl ?_)
          (Nat.le_trans (ScriptUnit.held_updQueue_le _ q _ (by rw [hs']; exact Nat.le_succ _))) h)
      rw [hs']
      exact List.mem_cons_of_mem _ hi
    have hi : s.script.InRange → blocks.all Block.inRange = true ∧ hold ≤ 63 := fun h => by
      have h := h.items q (.step hold blocks) (by
        show _ ∈ s.script.queues[q.val]
        rw [hs']
        exact List.mem_cons_self)
      simp only [Item.inRange, within, Bool.and_eq_true, decide_eq_true_eq] at h
      exact ⟨h.2, h.1.1.2⟩
    generalize hg : ({ s with script :=
        { s.script.updQueue q (fun _ => rest) with place := s.script.place.set q (s.script.place[q] + 1) } } : State) = u
      at k1 ⊢
    have k2 : s.Kept (u.tryStep q blocks).1 := by
      unfold State.tryStep
      split
      · exact k1.trans (tryJunction u _ blocks)
      · rename_i hn
        have hm : u.tb.m = 0 := by
          rw [← hg]
          apply hq
          unfold idx? at hn
          split at hn
          · cases hn
          · have := q.isLt
            apply Fin.ext
            show q.val = 12
            omega
        have h := tryMaster u blocks hm
        exact ⟨fun x => h.1 (hi x.2).1 (k1.ranges x), fun x => h.2.1 (k1.records x), fun x => h.2.2 (k1.pool x)⟩
    split
    · refine ⟨fun x => ⟨(k2.ranges x).1, ScriptUnit.inRange_congr (u := (u.tryStep q blocks).1.script) rfl rfl (fun r => ?_)
        (k2.ranges x).2⟩, k2.records, k2.pool⟩
      by_cases e : q.val = r.val
      · right
        simpa [e] using (hi x.2).2
      · left
        simp [e]
    · exact k2.trans (scriptFaulted _ _ _ _ _)

theorem countDown (s : State) (q : QueueNo) (hq : q = masterQueue → s.tb.m = 0) : s.Kept (s.countDown q) := by
  unfold State.countDown
  split
  · dsimp only
    have k1 : s.Kept { s with script := { s.script with hold := s.script.hold.set q (s.script.hold[q] - 1) } } :=
      script s fun h => ScriptUnit.inRange_congr (u := s.script) rfl rfl (fun r => Or.inl (by
        by_cases e : q.val = r.val
        · simp [e]
        · simp [e])) h
    split
    · exact k1.trans (readItem _ q hq)
    · exact k1
  · exact refl s

theorem stagedCorridorStep (s : State) (hm : s.tb.m = 0) :
    s.Kept s.stagedCorridorStep ∧ s.stagedCorridorStep.tb.m = 0 := by
  unfold State.stagedCorridorStep
  split
  · exact ⟨refl s, hm⟩
  · rename_i v hv
    dsimp only
    split
    · refine ⟨⟨fun x => ?_, id, fun x => ?_⟩, hm⟩
      · have h := x.1.2.2.2.2 v hv
        exact ⟨⟨h.1, h.2, by show s.tb.m < 10 * v.c; omega, x.1.2.2.2.1, fun _ h' => by cases h'⟩, x.2⟩
      · exact Plant.poolWhole_map (s.setCorridor v.c v.dir).plant _ (fun J => by split <;> rfl) (setCorridor_pool s _ _ x)
    · exact ⟨⟨fun x => ⟨⟨x.1.1, x.1.2.1, x.1.2.2.1, x.1.2.2.2.1, fun _ h' => by cases h'⟩, x.2⟩, id, id⟩, hm⟩

theorem tryStart_m (s : State) : s.tryStart.tb = s.tb := by
  unfold State.tryStart
  split
  · rfl
  · split
    · dsimp only
      unfold State.finishCheck
      split <;> rfl
    · rfl

/-- R2: the master zero work. -/
theorem masterZeroWork (s : State) (hm : s.tb.m = 0) : s.Kept s.masterZeroWork := by
  have h := stagedCorridorStep s hm
  exact (h.1.trans (tryStart _)).trans (countDown _ _ fun _ => by rw [tryStart_m]; exact h.2)

/-- R1: a tenth. -/
theorem tenth (s : State) : s.Kept s.tenth := by
  have hp : s.plant.PoolWhole → s.plant.tick.PoolWhole := fun x =>
    Plant.poolWhole_congr (p := s.plant) rfl
      (fun j => by
        simp only [Plant.tick, Vector.getElem_map, Junction.tick]
        split <;> rfl) x
  unfold State.tenth
  dsimp only
  split
  · rename_i hw
    refine Kept.trans (t := { s with now := s.now + 1, plant := s.plant.tick, tb := { s.tb with m := 0 } })
      ⟨fun x => ⟨⟨x.1.1, x.1.2.1, ?_, x.1.2.2.2⟩, x.2⟩, id, hp⟩ (masterZeroWork _ rfl)
    have := x.1.1
    show 0 < 10 * s.tb.c
    omega
  · rename_i hw

    refine ⟨fun x => ⟨⟨x.1.1, x.1.2.1, ?_, x.1.2.2.2⟩, x.2⟩, id, hp⟩
    simp only [decide_eq_true_eq] at hw
    show s.tb.m + 1 < 10 * s.tb.c
    omega

/-! ## Local cycle start (R66) -/

theorem storeRecord (s : State) (c : CycleRecord) : s.Kept (s.storeRecord c) := by
  have k : s.Kept { s with report := s.report.store c } := ⟨id, fun h => ReportBlock.whole_store _ c h, id⟩
  unfold State.storeRecord
  dsimp only
  split
  · exact k.trans (raise _ _)
  · exact k

theorem recordStep (s : State) (j : JIdx) : s.Kept (s.recordStep j) := by
  unfold State.recordStep
  dsimp only
  have k1 : s.Kept (if s.plant.jn[j].state = .inStep then s.storeRecord (s.formRecord j) else s) := by
    split
    · exact storeRecord _ _
    · exact refl s
  generalize (if s.plant.jn[j].state = .inStep then s.storeRecord (s.formRecord j) else s) = u at k1 ⊢
  have k2 : s.Kept (if s.plant.jn[j].completions ≠ [] ∨ s.plant.jn[j].overflow = true then
      u.raise (.completions j s.plant.jn[j].overflow s.plant.jn[j].completions) else u) := by
    split
    · exact k1.trans (raise _ _)
    · exact k1
  generalize (if s.plant.jn[j].completions ≠ [] ∨ s.plant.jn[j].overflow = true then
      u.raise (.completions j s.plant.jn[j].overflow s.plant.jn[j].completions) else u) = v at k2 ⊢
  exact k2.trans (plant v (Plant.At.upd _ j _ (by intro; rfl)))

theorem applyStagedPlan_moves (e : Env) (p : Plant) (j : JIdx) : Plant.At j p (applyStagedPlan e p j) := by
  unfold applyStagedPlan
  split
  · exact .refl p
  · split
    · refine Plant.Moves.trans ?_ (Plant.applyStuckLimit_moves e _ j)
      apply Plant.At.upd
      intro J
      dsimp only
      split <;> rfl
    · exact (Plant.At.upd _ _ _ (by intro; rfl)).trans (Plant.raise_moves _ _)

theorem stagedSettings_moves (p : Plant) (j : JIdx) (o : Option GuardSettings) : Plant.At j p (match o with
    | some g => p.upd j fun J => J.applySettings g
    | none => p) := by
  cases o with
  | none => exact .refl p
  | some g => exact Plant.At.upd p j _ fun J => Junction.applySettings_chain J g

theorem stagedMap_moves (e : Env) (p : Plant) (j : JIdx) (o : Option (Vector DetFn 24)) : Plant.At j p (match o with
    | some map => p.applyMap e j map
    | none => p) := by
  cases o with
  | none => exact .refl p
  | some m => exact Plant.applyMap_moves e p j m

theorem stagedStep_moves (e : Env) (p : Plant) (j : JIdx) : Plant.At j p (stagedStep e p j) := by
  unfold stagedStep
  have h1 := applyStagedPlan_moves e p j
  generalize applyStagedPlan e p j = q at h1 ⊢
  refine h1.trans ?_
  have h2 : Plant.At j q (q.jn[j].chain.foldl (fun p n => p.updEnt n amendStaged) q) :=
    Plant.Moves.foldl (f := fun p n => p.updEnt n amendStaged) (fun p n => Plant.Moves.ent p n amendStaged) _ q
  dsimp only
  generalize q.jn[j].chain.foldl (fun p n => p.updEnt n amendStaged) q = r at h2 ⊢
  exact (h2.trans (stagedSettings_moves r j _)).trans (stagedMap_moves e _ j _)

theorem planCheck_moves (e : Env) (p : Plant) (j : JIdx) : Plant.At j p (planCheck e p j) := by
  unfold planCheck
  split
  · split
    · exact .refl p
    · exact (Plant.leave_moves p j).trans (Plant.enterSolo_moves _ j _)
  · exact Plant.settle_moves e p j

theorem reconcile_moves (e : Env) (p : Plant) (j : JIdx) : Plant.At j p (reconcile e p j) :=
  ((Plant.splitExpiry_moves e p j).trans (Plant.minimumExpiry_moves e _ j)).trans (Plant.bandCallPoint_moves e _ j)

theorem localCycleStart (s : State) (j : JIdx) : s.Kept (s.localCycleStart j) := by
  unfold State.localCycleStart
  dsimp only
  split
  · have k1 : s.Kept { s with plant := s.plant.upd j fun J => startCycle J s.tb.c } :=
      plant s (Plant.At.upd _ j _ (by intro; rfl))
    generalize ({ s with plant := s.plant.upd j fun J => startCycle J s.tb.c } : State) = u at k1 ⊢
    have k2 := k1.trans (recordStep u j)
    generalize u.recordStep j = v at k2 ⊢
    have k3 := k2.trans (onPlant v (fun e p => stagedStep e p j) (stagedStep_moves _ _ _))
    generalize v.onPlant (fun e p => stagedStep e p j) = w at k3 ⊢
    have hq : junctionQueue j ≠ masterQueue := by
      intro h
      have h' := congrArg Fin.val h
      have h2 : j.val = 12 := h'
      omega
    have k4 := k3.trans (countDown w (junctionQueue j) fun h => absurd h hq)
    generalize w.countDown (junctionQueue j) = x at k4 ⊢
    exact k4.trans (onPlant x (fun e p => (planCheck e (reconcile e p j) j).attempts e j)
      (((reconcile_moves _ _ j).trans (planCheck_moves _ _ j)).any.trans (Plant.attempts_moves _ _ _)))
  · exact refl s

end State.Kept

end Sys2Proof.Machine
end

