-- ==== Sys2Proof/Laws/Handlers.lean ====
section
/-! SUPPORT. The owner of each directive keeps the ranges, the cycle record queue and the pool. -/

namespace Sys2Proof.Machine

open Sys2Proof

namespace State.Kept

/-! ## Timebase -/

theorem setCorridorState (s : State) (c : CorridorState) : s.Kept (s.setCorridorState c) := by
  unfold State.setCorridorState
  split
  · exact refl s
  · exact ⟨id, id, id⟩

theorem restartCycle (s : State) : s.Kept s.restartCycle := by
  unfold State.restartCycle
  refine Kept.trans (t := { s with tb := { s.tb with m := 0 } })
    ⟨fun x => ⟨⟨x.1.1, x.1.2.1, by have := x.1.1; show 0 < 10 * s.tb.c; omega, x.1.2.2.2⟩, x.2⟩, id, id⟩ ?_
  refine onPlant (A := Plant.anyJ) _ _ (Plant.Moves.foldl (fun p j => ?_) _ _)
  split
  · exact ((Plant.At.upd p j _ (by intro; rfl)).trans (Plant.bandCallPoint_moves _ _ j)).any
  · exact .refl p

theorem corridorCheck_range (s : State) (c wait : Nat) (h : s.corridorCheck c wait = none) : 40 ≤ c ∧ c ≤ 200 := by
  by_contra hn
  have : (within 40 200 c && within 5 255 wait) = false := by
    have : within 40 200 c = false := by
      simp only [within, Bool.and_eq_false_iff, decide_eq_false_iff_not]
      omega
    rw [this]; rfl
  simp [State.corridorCheck, this] at h

theorem applyCorridor (s : State) (v : CorridorSet) (hv : 40 ≤ v.c ∧ v.c ≤ 200 ∧ s.tb.m < 10 * v.c) :
    s.Kept (s.applyCorridor v) :=
  ⟨(setCorridor s v.c v.dir hv).ranges, id, fun x =>
    Plant.poolWhole_map (s.setCorridor v.c v.dir).plant _ (fun J => by split <;> rfl) (setCorridor_pool s _ _ x)⟩

/-- The corridor values of R6 applied at once: m is set to 0 if C changes (R7). -/
theorem restartCycle_applied (s : State) (v : CorridorSet) (hv : 40 ≤ v.c ∧ v.c ≤ 200) :
    s.Kept (s.applyCorridor v).restartCycle := by
  have h := applyCorridor ({ s with tb := { s.tb with m := 0 } } : State) v ⟨hv.1, hv.2, by show 0 < 10 * v.c; omega⟩
  have z : ∀ x : s.tb.InRange ∧ s.script.InRange, (({ s with tb := { s.tb with m := 0 } } : State).tb.InRange ∧ s.script.InRange) :=
    fun x => ⟨⟨x.1.1, x.1.2.1, by have := x.1.1; show 0 < 10 * s.tb.c; omega, x.1.2.2.2⟩, x.2⟩
  have g := restartCycle (({ s with tb := { s.tb with m := 0 } } : State).applyCorridor v)
  exact ⟨fun x => g.ranges (h.ranges (z x)), fun x => g.records x, fun x => g.pool (h.pool x)⟩

theorem applyCorridorNow (s : State) (v : CorridorSet) (hv : 40 ≤ v.c ∧ v.c ≤ 200) : s.Kept (s.applyCorridorNow v) := by
  have k1 : s.Kept { s with tb := { s.tb with staged := none } } :=
    tb s fun x => ⟨x.1, x.2.1, x.2.2.1, x.2.2.2.1, fun _ h => by cases h⟩
  unfold State.applyCorridorNow
  dsimp only
  split
  · exact k1.trans (restartCycle_applied _ v hv)
  · rename_i hc
    have e : s.tb.c = v.c := by simpa using hc
    refine ⟨fun x => ?_, id, fun x => ?_⟩
    · exact ⟨⟨hv.1, hv.2, by show s.tb.m < 10 * v.c; rw [← e]; exact x.1.2.2.1, x.1.2.2.2.1, fun _ h => by cases h⟩, x.2⟩
    · exact Plant.poolWhole_map (({ s with tb := { s.tb with staged := none } } : State).setCorridor v.c v.dir).plant _
        (fun J => by split <;> rfl) (setCorridor_pool _ _ _ x)

theorem configureCorridor (b : List Byte) (s : State) : s.Kept (State.configureCorridor b s).1 := by
  unfold State.configureCorridor
  split
  · split
    · exact refl s
    · split
      · exact refl s
      · rename_i h
        have g := corridorCheck_range s _ _ h
        dsimp only
        split
        · exact ⟨fun x => ⟨⟨x.1.1, x.1.2.1, x.1.2.2.1, x.1.2.2.2.1, fun v hv => by cases hv; exact g⟩, x.2⟩, id, id⟩
        · exact applyCorridorNow s _ g
  · exact refl s

theorem makeAbsent (s : State) (j : JIdx) : s.Kept (s.makeAbsent j).1 := by
  unfold State.makeAbsent
  split
  · exact refl s
  · split
    · exact refl s
    · split
      · exact refl s
      · dsimp only
        have k1 : s.Kept { s with plant := s.plant.upd j absentValues } :=
          plant s (Plant.At.upd _ j _ (by intro; rfl))
        have g : ∀ (b : Bool) (u : State), u.Kept (if b = true then u.setCorridorState .dark else u) := by
          intro b u
          split
          · exact setCorridorState u _
          · exact refl u
        generalize ({ s with plant := s.plant.upd j absentValues } : State) = u at k1 ⊢
        exact (k1.trans (g _ u)).trans (plant _ (Plant.setState_moves _ j _))

theorem makePresent (s : State) (j : JIdx) (v : Plan) : s.Kept (s.makePresent j v) := by
  unfold State.makePresent
  have g : s.Kept (if s.tb.corridor = .dark then s.setCorridorState .ready else s) := by
    split
    · exact setCorridorState s _
    · exact refl s
  refine g.trans (onPlant (A := fun i => i = j) _ _ ?_)
  exact (((Plant.At.upd _ j _ (by intro; rfl)).trans (Plant.decideFrame_moves _ j _)).trans
    (Plant.setState_moves _ j _)).trans (Plant.settle_moves _ _ j)

theorem applyPlanNow (s : State) (j : JIdx) (v : Plan) : s.Kept (s.applyPlanNow j v) := by
  unfold State.applyPlanNow
  refine onPlant (A := fun i => i = j) _ _ ?_
  refine ((Plant.Moves.trans ?_ (Plant.applyStuckLimit_moves _ _ j)).trans (Plant.bandCallPoint_moves _ _ j)).trans
    (Plant.settle_moves _ _ j)
  apply Plant.At.upd
  intro J
  split <;> rfl

theorem configureJunction (b : List Byte) (s : State) : s.Kept (State.configureJunction b s).1 := by
  unfold State.configureJunction
  split
  · split
    · exact makeAbsent s _
    · dsimp only
      split
      · exact refl s
      · split
        · exact makePresent s _ _
        · exact plant s (Plant.At.upd _ _ _ (by intro; rfl))
        · exact plant s (Plant.At.upd _ _ _ (by intro; rfl))
        · exact applyPlanNow s _ _
        · exact applyPlanNow s _ _
    · exact refl s
  · exact refl s

theorem settleNotRunning (s : State) : s.Kept s.settleNotRunning := by
  refine onPlant (A := Plant.anyJ) _ _ (Plant.Moves.foldl (fun p j => ?_) _ _)
  split
  · exact (Plant.settle_moves _ p j).any
  · exact .refl p

theorem run (b : List Byte) (s : State) : s.Kept (State.run b s).1 := by
  unfold State.run
  split
  · split
    · exact (setCorridorState s .coordinating).trans (settleNotRunning _)
    · exact refl s
  · exact refl s

theorem stopJunction_moves (e : Env) (p : Plant) (j : JIdx) : Plant.At j p (State.stopJunction e p j) := by
  unfold State.stopJunction
  split
  · exact (Plant.leave_moves p j).trans (Plant.enterLocal_moves e _ j)
  · exact (Plant.leave_moves p j).trans (Plant.enterLocal_moves e _ j)
  · exact Plant.settle_moves e p j
  · exact .refl p

theorem stopPlant (s : State) : s.Kept s.stopPlant := by
  unfold State.stopPlant
  refine onPlant (A := Plant.anyJ) _ _ ?_
  exact (Plant.Moves.foldl (fun p k => Plant.abandonSlot_moves p k) _ _).trans
    (Plant.Moves.foldl (fun p j => (stopJunction_moves _ p j).any) _ _)

theorem abandonGroup (s : State) : s.Kept s.abandonGroup := by
  unfold State.abandonGroup
  split
  · exact (script s (ScriptUnit.inRange_abandon _)).trans (raise _ _)
  · exact refl s

theorem stop (b : List Byte) (s : State) : s.Kept (State.stop b s).1 := by
  unfold State.stop
  split
  · split
    · exact ((setCorridorState s _).trans (stopPlant _)).trans (abandonGroup _)
    · exact refl s
  · exact refl s

theorem restart (b : List Byte) (s : State) : s.Kept (State.restart b s).1 := by
  unfold State.restart
  split
  · exact host s _
  · exact refl s

theorem setClock (b : List Byte) (s : State) : s.Kept (State.setClock b s).1 := by
  unfold State.setClock
  split
  · split
    · rename_i h
      exact ⟨fun x => ⟨⟨x.1.1, x.1.2.1, x.1.2.2.1, fun d hd => by cases hd; exact h, x.1.2.2.2.2⟩, x.2⟩, id, id⟩
    · exact refl s
  · exact refl s

theorem clockTick (s : State) : s.Kept s.clockTick := by
  unfold State.clockTick
  split
  · exact refl s
  · split
    · refine ⟨fun x => ⟨⟨x.1.1, x.1.2.1, x.1.2.2.1, fun d hd => ?_, x.1.2.2.2.2⟩, x.2⟩, id, id⟩
      cases hd
      exact Nat.mod_lt _ (by decide)
    · exact refl s

/-! ## Chains -/

theorem chainEdited_moves (e : Env) (p : Plant) (j : JIdx) : Plant.Moves Plant.anyJ p (p.chainEdited e j) :=
  ((Plant.settle_moves e p j).trans (Plant.dwellCheck_moves e _ j)).any.trans (Plant.attempts_moves e _ j)

theorem placeHost (s : State) (j : JIdx) (pos : Nat) (x : Entry) : s.Kept (s.placeHost j pos x).1 := by
  unfold State.placeHost
  dsimp only
  split
  · exact refl s
  · exact plant s ((Plant.place_moves _ j pos x).any.trans (chainEdited_moves _ _ j))

theorem appendEntry (b : List Byte) (s : State) : s.Kept (State.appendEntry b s).1 := by
  unfold State.appendEntry
  split
  · split
    · split
      · exact refl s
      · split
        · exact refl s
        · split
          · exact refl s
          · dsimp only
            split
            · exact refl s
            · split
              · exact refl s
              · split
                · exact refl s
                · split
                  · exact refl s
                  · exact placeHost s _ _ _
    · exact refl s
  · exact refl s

theorem insertEntry (b : List Byte) (s : State) : s.Kept (State.insertEntry b s).1 := by
  unfold State.insertEntry
  split
  · split
    · split
      · exact refl s
      · split
        · exact refl s
        · split
          · exact refl s
          · split
            · exact refl s
            · exact placeHost s _ _ _
    · exact refl s
  · exact refl s

theorem removeEntry (b : List Byte) (s : State) : s.Kept (State.removeEntry b s).1 := by
  unfold State.removeEntry
  split
  · split
    · exact refl s
    · split
      · exact refl s
      · split
        · exact refl s
        · exact plant s ((Plant.release_moves _ _ _).any.trans (chainEdited_moves _ _ _))
  · exact refl s

theorem amendEntry (b : List Byte) (s : State) : s.Kept (State.amendEntry b s).1 := by
  unfold State.amendEntry
  split
  · split
    · exact refl s
    · split
      · split
        · exact refl s
        · dsimp only
          split
          · exact refl s
          · split
            · split
              · exact refl s
              · exact plant (A := Plant.anyJ) s (.ent _ _ _)
            · split
              · exact refl s
              · exact plant s ((Plant.Moves.ent _ _ _).trans (chainEdited_moves _ _ _))
      · exact refl s
  · exact refl s

theorem readChain (b : List Byte) (s : State) : (State.readChain b s).1 = s := by
  unfold State.readChain
  (repeat' split) <;> rfl

/-! ## Junctions -/

theorem onJunction (f : JIdx → State → State × Answer) (hf : ∀ j (s : State), s.Kept (f j s).1) (b : List Byte) (s : State) :
    s.Kept (State.onJunction f b s).1 := by
  unfold State.onJunction
  split
  · split
    · exact hf _ s
    · exact refl s
  · exact refl s

theorem repairEntry_moves (p : Plant) (n : EntryNo) {A : JIdx → Prop} : Plant.Moves A p (State.repairEntry p n) := by
  unfold State.repairEntry
  split
  · exact .ent _ _ _
  · exact .refl p

theorem repairJunction (b : List Byte) (s : State) : s.Kept (State.repairJunction b s).1 := by
  refine onJunction _ (fun j s => ?_) b s
  split
  · exact onPlant s (fun e p => (p.jn[j].chain.foldl State.repairEntry p).enterLocal e j)
      ((Plant.Moves.foldl (fun p n => repairEntry_moves p n) _ _).trans (Plant.enterLocal_moves _ _ j))
  · exact refl s

theorem rejoinJunction (b : List Byte) (s : State) : s.Kept (State.rejoinJunction b s).1 := by
  refine onJunction _ (fun j s => ?_) b s
  split
  · split
    · exact onPlant s (fun e p => p.enterLocal e j) (Plant.enterLocal_moves _ _ j)
    · exact refl s
  · exact refl s

theorem readJunction (b : List Byte) (s : State) : (State.readJunction b s).1 = s := by
  unfold State.readJunction State.onJunction
  (repeat' split) <;> rfl

theorem readDetectors (b : List Byte) (s : State) : (State.readDetectors b s).1 = s := by
  unfold State.readDetectors State.onJunction
  (repeat' split) <;> rfl

theorem takeMap (j : JIdx) (m : Vector DetFn 24) (s : State) : s.Kept (State.takeMap j m s).1 := by
  unfold State.takeMap
  split
  · exact plant s (Plant.updDet_moves _ j _)
  · exact onPlant s (fun e p => p.applyMap e j m) (Plant.applyMap_moves _ _ j m)

theorem mapDetectors (b : List Byte) (s : State) : s.Kept (State.mapDetectors b s).1 := by
  unfold State.mapDetectors
  split
  · exact refl s
  · split
    · exact refl s
    · split
      · exact refl s
      · split
        · dsimp only
          split
          · exact takeMap _ _ s
          · exact refl s
        · exact refl s

theorem takeGuard (j : JIdx) (g : GuardSettings) (s : State) : s.Kept (State.takeGuard j g s).1 := by
  unfold State.takeGuard
  split
  · exact plant s (Plant.At.upd _ j _ (by intro; rfl))
  · exact plant s (Plant.At.upd _ j _ fun J => Junction.applySettings_chain J g)

theorem setGuard (b : List Byte) (s : State) : s.Kept (State.setGuard b s).1 := by
  unfold State.setGuard
  split
  · split
    · split
      · exact takeGuard _ _ s
      · exact refl s
    · exact refl s
  · exact refl s

/-! ## Requests -/

theorem raisedAnswer (s : State) (a : Arrival) (r : Plant × ArrivalResult) (h : Plant.Moves Plant.anyJ s.plant r.1) :
    s.Kept (s.raisedAnswer a r).1 := by
  unfold State.raisedAnswer
  dsimp only
  split
  · exact plant s h
  · exact plant s h
  · exact plant s h
  · exact refl s
  · exact refl s

theorem raiseRequest (b : List Byte) (s : State) : s.Kept (State.raiseRequest b s).1 := by
  unfold State.raiseRequest
  split
  · split
    · split
      · exact refl s
      · split
        · exact refl s
        · split
          · exact refl s
          · exact raisedAnswer s _ _ (Plant.arrive_moves _ _ _)
    · exact refl s
  · exact refl s

theorem cancelRequest (b : List Byte) (s : State) : s.Kept (State.cancelRequest b s).1 := by
  unfold State.cancelRequest
  split
  · split
    · split
      · exact refl s
      · split
        · exact refl s
        · rename_i k _
          exact onPlant s (fun e p => p.endAndAttempt e k .cancelled) (Plant.endAndAttempt_moves _ _ _ _)
    · exact refl s
  · exact refl s

theorem readRequests (b : List Byte) (s : State) : (State.readRequests b s).1 = s := by
  unfold State.readRequests
  (repeat' split) <;> rfl

/-! ## Scripts -/

theorem block_inRange {k v w : Nat} {b : Block} (h : State.block? k v w = some b) : b.inRange = true := by
  unfold State.block? at h
  split at h
  · split at h
    · cases h
      assumption
    · cases h
  · cases hd : direction? v with
    | none => rw [hd] at h; cases h
    | some d => rw [hd] at h; cases h; rfl
  · split at h
    · cases h
      rename_i hv
      exact decide_eq_true hv
    · cases h
  · split at h
    · rename_i hw
      cases hd : Stage.ofNum? v with
      | none => rw [hd] at h; cases h
      | some d =>
        rw [hd] at h
        cases h
        exact hw
    · cases h
  · split at h
    · cases h
      assumption
    · cases h
  · cases h

/-- The blocks read from the triples of a step are as many, and in range. -/
theorem blocks_inRange : ∀ (ts : List (Nat × Nat × Nat)) (bs : List Block),
    (ts.mapM fun t => State.block? t.1 t.2.1 t.2.2) = some bs → bs.all Block.inRange = true ∧ bs.length = ts.length := by
  intro ts
  induction ts with
  | nil => intro bs h; simp at h; simp [h]
  | cons t ts ih =>
    intro bs h
    rw [List.mapM_cons] at h
    cases hb : State.block? t.1 t.2.1 t.2.2 with
    | none => rw [hb] at h; cases h
    | some b =>
      cases hr : (ts.mapM fun t => State.block? t.1 t.2.1 t.2.2) with
      | none => rw [hb, hr] at h; cases h
      | some rest =>
        rw [hb, hr] at h
        cases h
        simp [block_inRange hb, (ih rest hr).1, (ih rest hr).2]

/-- A body's triples are as many as the count it carries. -/
theorem length_blockTriples : ∀ (n : Nat) (l : List Nat) (ts : List (Nat × Nat × Nat)),
    State.blockTriples n l = some ts → ts.length = n := by
  intro n
  induction n with
  | zero =>
    intro l ts h
    cases l with
    | nil => cases h; rfl
    | cons _ _ => simp [State.blockTriples] at h
  | succ n ih =>
    intro l ts h
    unfold State.blockTriples at h
    split at h
    · cases ‹n + 1 = 0›
    · rename_i heq
      cases heq
      rw [Option.map_eq_some_iff] at h
      obtain ⟨r, hr, rfl⟩ := h
      simp [ih _ _ hr]
    · cases h

theorem loadStep (s : State) (q : QueueNo) (hold : Nat) (ts : List (Nat × Nat × Nat)) (ht : ts.length ≤ 6) :
    s.Kept (s.loadStep q hold ts).1 := by
  unfold State.loadStep
  split
  · exact refl s
  · rename_i hh
    split
    · exact refl s
    · split
      · exact refl s
      · rename_i bs hb
        split
        · exact refl s
        · split
          · exact refl s
          · rename_i hf
            have g := blocks_inRange ts bs hb
            refine script s fun h => ScriptUnit.inRange_updQueue _ q _ (fun i hi => ?_) (fun _ => ?_) h
            · rcases List.mem_append.mp hi with hi | hi
              · exact Or.inl hi
              · rw [List.mem_singleton.mp hi]
                refine Or.inr ?_
                simp only [Item.inRange, Bool.and_eq_true, decide_eq_true_eq]
                simp only [Bool.not_eq_true', Bool.not_eq_false] at hh
                exact ⟨⟨hh, by omega⟩, g.1⟩
            · rw [ScriptUnit.held_updQueue_append]
              unfold ScriptUnit.freeSlots at hf
              simp only [Config.scriptSlots] at hf
              omega

theorem loadStepBody (b : List Byte) (s : State) : s.Kept (State.loadStepBody b s).1 := by
  unfold State.loadStepBody
  split
  · split
    · exact refl s
    · split
      · split
        · rename_i hc _ ts _ hts _
          exact loadStep s _ _ _ (by rw [length_blockTriples _ _ _ hts]; omega)
        · exact refl s
      · exact refl s
  · exact refl s

/-- An end mark in every queue makes the store hold 13 items more. -/
theorem held_closeQueues (u : ScriptUnit) (nb : Option Nat) : (State.closeQueues u nb).held = u.held + 13 := by
  rw [ScriptUnit.held_eq, ScriptUnit.held_eq]
  simp [State.closeQueues, Finset.sum_add_distrib]

theorem closeGroup (b : List Byte) (s : State) : s.Kept (State.closeGroup b s).1 := by
  unfold State.closeGroup
  split
  · split
    · exact refl s
    · split
      · exact refl s
      · split
        · exact refl s
        · rename_i hr
          simp only [ScriptUnit.freeSlots, Config.scriptSlots, Config.waitingGroups, not_or, not_le, not_lt] at hr
          refine script s fun h => ScriptUnit.inRange_of (u := s.script) (fun q i hi => ?_) (fun _ => ?_) (fun _ => ?_)
            (fun _ => Or.inl (Nat.le_refl _)) h
          · simp only [State.closeQueues, Vector.getElem_map, List.mem_append, List.mem_singleton] at hi
            rcases hi with hi | hi
            · exact Or.inl hi
            · exact Or.inr (by rw [hi]; rfl)
          · rw [held_closeQueues]
            omega
          · simp only [State.closeQueues, List.length_append, List.length_singleton]
            omega
  · exact refl s

theorem dropScripts (b : List Byte) (s : State) : s.Kept (State.dropScripts b s).1 := by
  unfold State.dropScripts
  split
  · exact script s (ScriptUnit.inRange_drop _)
  · exact refl s

theorem scriptSpace (b : List Byte) (s : State) : (State.scriptSpace b s).1 = s := by
  unfold State.scriptSpace
  split <;> rfl

/-! ## Reports -/

theorem armNotices (b : List Byte) (s : State) : s.Kept (State.armNotices b s).1 := by
  have h : ∀ m a, s.Kept { s with report := State.armMarks s.report m a } := by
    intro m a
    unfold State.armMarks
    cases a <;> exact ⟨id, id, id⟩
  unfold State.armNotices
  split
  · split
    · exact refl s
    · split
      · exact refl s
      · exact h _ _
  · exact refl s

theorem pauseNotices (b : List Byte) (s : State) : s.Kept (State.pauseNotices b s).1 := by
  unfold State.pauseNotices
  split
  · split
    · exact refl s
    · exact ⟨id, id, id⟩
  · exact refl s

theorem resumeNotices (b : List Byte) (s : State) : s.Kept (State.resumeNotices b s).1 := by
  unfold State.resumeNotices
  split
  · split
    · exact refl s
    · exact ⟨id, id, id⟩
  · exact refl s

theorem resumeCatchUps (b : List Byte) (s : State) : s.Kept (State.resumeCatchUps b s) := by
  unfold State.resumeCatchUps
  split
  · refine foldl (fun s c => ?_) _ s
    split
    · exact catchUp s c
    · exact refl s
  · exact refl s

theorem fetchRecords (b : List Byte) (s : State) : s.Kept (State.fetchRecords b s).1 := by
  unfold State.fetchRecords
  split
  · split
    · exact ⟨id, fun h => ReportBlock.whole_fetch _ _ h, id⟩
    · exact refl s
  · exact refl s

theorem readStatus (b : List Byte) (s : State) : (State.readStatus b s).1 = s := by
  unfold State.readStatus
  split <;> rfl

end State.Kept

end Sys2Proof.Machine
end

