-- ==== Sys2Proof/Laws/Port.lean ====
section
/-! SUPPORT. What every operation over the whole state leaves of the host port: its capacities, a settled line, and the queue of
commands (R184, R185, R187, R190). -/

namespace Sys2Proof.Machine

open Sys2Proof

namespace State

/-! ## The owners of directives -/

/-- A handler leaves the host port but, perhaps, its RESTART state. -/
structure PortKept (s t : State) : Prop where
  rx : t.host.rx = s.host.rx
  intake : t.host.intake = s.host.intake
  queue : t.host.queue = s.host.queue
  leaving : t.host.leaving = s.host.leaving
  pending : t.pending = s.pending

theorem setCorridorState_host (s : State) (c : CorridorState) : (s.setCorridorState c).host = s.host := by
  unfold setCorridorState; split <;> rfl

theorem setCorridorState_pending (s : State) (c : CorridorState) : (s.setCorridorState c).pending = s.pending := by
  unfold setCorridorState; split <;> rfl

theorem abandonGroup_host (s : State) : (s.abandonGroup).host = s.host := by
  unfold abandonGroup; split <;> rfl

theorem abandonGroup_pending (s : State) : (s.abandonGroup).pending = s.pending := by
  unfold abandonGroup; split <;> rfl

theorem restartCycle_host (s : State) : (s.restartCycle).host = s.host := rfl

theorem makeAbsent_port (s : State) (j : JIdx) :
    (s.makeAbsent j).1.host = s.host ∧ (s.makeAbsent j).1.pending = s.pending:= by
  unfold makeAbsent
  split
  · exact ⟨rfl, rfl⟩
  · split
    · exact ⟨rfl, rfl⟩
    · split
      · exact ⟨rfl, rfl⟩
      · dsimp only
        have h : ∀ (b : Bool) (u : State), (if b = true then u.setCorridorState .dark else u).host = u.host ∧
      (if b = true then u.setCorridorState .dark else u).pending = u.pending := by
          intro b u
          cases b
          · exact ⟨rfl, rfl⟩
          · exact ⟨setCorridorState_host _ _, setCorridorState_pending _ _⟩
        exact h _ ({ s with plant := s.plant.upd j absentValues } : State)

theorem makePresent_port (s : State) (j : JIdx) (v : Plan) :
    (s.makePresent j v).host = s.host ∧ (s.makePresent j v).pending = s.pending := by
  unfold makePresent
  have h : (if s.tb.corridor = .dark then s.setCorridorState .ready else s).host = s.host ∧
      (if s.tb.corridor = .dark then s.setCorridorState .ready else s).pending = s.pending := by
    split
    · exact ⟨setCorridorState_host _ _, setCorridorState_pending _ _⟩
    · exact ⟨rfl, rfl⟩
  exact h

theorem applyCorridorNow_port (s : State) (v : CorridorSet) :
    (s.applyCorridorNow v).host = s.host ∧ (s.applyCorridorNow v).pending = s.pending := by
  unfold applyCorridorNow
  dsimp only
  split <;> exact ⟨rfl, rfl⟩

theorem configureCorridor_port (b : List Byte) (s : State) : PortKept s (configureCorridor b s).1 := by
  unfold configureCorridor
  split
  · split
    · constructor <;> rfl
    · split
      · constructor <;> rfl
      · dsimp only
        split
        · constructor <;> rfl
        · rename_i v _ _ _ _
          generalize hv : (CorridorSet.mk _ _ _) = w
          have h := applyCorridorNow_port s w
          exact ⟨by rw [h.1], by rw [h.1], by rw [h.1], by rw [h.1], h.2⟩
  · constructor <;> rfl

theorem configureJunction_port (b : List Byte) (s : State) : PortKept s (configureJunction b s).1 := by
  unfold configureJunction
  split
  · split
    · rename_i j _ _
      have h := makeAbsent_port s j
      exact ⟨by rw [h.1], by rw [h.1], by rw [h.1], by rw [h.1], h.2⟩
    · dsimp only
      split
      · constructor <;> rfl
      · split
        · rename_i j _ _ _ _ _
          generalize hv : (Plan.mk _ _ _ _ _ _ _) = w
          have h := makePresent_port s j w
          exact ⟨by rw [h.1], by rw [h.1], by rw [h.1], by rw [h.1], h.2⟩
        · constructor <;> rfl
        · constructor <;> rfl
        · constructor <;> rfl
        · constructor <;> rfl
    · constructor <;> rfl
  · constructor <;> rfl

theorem PortKept.of_host {s t : State} (hh : t.host = s.host) (hp : t.pending = s.pending) : PortKept s t :=
  ⟨by rw [hh], by rw [hh], by rw [hh], by rw [hh], hp⟩

theorem settleNotRunning_host (s : State) : s.settleNotRunning.host = s.host := by
  rw [settleNotRunning, onPlant_host]

theorem settleNotRunning_pending (s : State) : s.settleNotRunning.pending = s.pending := by
  rw [settleNotRunning, onPlant_pending]

theorem stopPlant_host (s : State) : s.stopPlant.host = s.host := by
  rw [stopPlant, onPlant_host]

theorem stopPlant_pending (s : State) : s.stopPlant.pending = s.pending := by
  rw [stopPlant, onPlant_pending]

theorem run_port (b : List Byte) (s : State) : PortKept s (run b s).1 := by
  unfold run
  split
  · split
    · exact PortKept.of_host (by rw [settleNotRunning_host, setCorridorState_host]) (by rw [settleNotRunning_pending, setCorridorState_pending])
    · constructor <;> rfl
  · constructor <;> rfl

theorem stop_port (b : List Byte) (s : State) : PortKept s (stop b s).1 := by
  unfold stop
  split
  · split
    · exact PortKept.of_host (by rw [abandonGroup_host, stopPlant_host, setCorridorState_host]) (by rw [abandonGroup_pending, stopPlant_pending, setCorridorState_pending])
    · constructor <;> rfl
  · constructor <;> rfl

theorem restart_port (b : List Byte) (s : State) : PortKept s (restart b s).1 := by
  unfold restart; split <;> constructor <;> rfl

theorem setClock_port (b : List Byte) (s : State) : PortKept s (setClock b s).1 := by
  unfold setClock; (repeat' split) <;> constructor <;> rfl

theorem placeHost_port (s j pos x) : PortKept s (State.placeHost s j pos x).1 := by
  unfold placeHost; dsimp only; split <;> constructor <;> rfl

theorem PortKept.refl (s) : PortKept s s := by constructor <;> rfl

theorem appendEntry_port (b : List Byte) (s : State) : PortKept s (appendEntry b s).1 := by
  unfold appendEntry
  split
  · split
    · split
      · exact PortKept.refl s
      · split
        · exact PortKept.refl s
        · split
          · exact PortKept.refl s
          · dsimp only
            split
            · exact PortKept.refl s
            · split
              · exact PortKept.refl s
              · split
                · exact PortKept.refl s
                · split
                  · exact PortKept.refl s
                  · exact placeHost_port s _ _ _
    · exact PortKept.refl s
  · exact PortKept.refl s

theorem insertEntry_port (b : List Byte) (s : State) : PortKept s (insertEntry b s).1 := by
  unfold insertEntry
  split
  · split
    · split
      · exact PortKept.refl s
      · split
        · exact PortKept.refl s
        · split
          · exact PortKept.refl s
          · split
            · exact PortKept.refl s
            · exact placeHost_port s _ _ _
    · exact PortKept.refl s
  · exact PortKept.refl s

theorem removeEntry_port (b : List Byte) (s : State) : PortKept s (removeEntry b s).1 := by
  unfold removeEntry
  (repeat' split) <;> constructor <;> rfl

theorem amendEntry_port (b : List Byte) (s : State) : PortKept s (amendEntry b s).1 := by
  unfold amendEntry
  split
  · split
    · exact PortKept.refl s
    · split
      · split
        · exact PortKept.refl s
        · dsimp only
          split
          · exact PortKept.refl s
          · split
            · split
              · exact PortKept.refl s
              · constructor <;> rfl
            · split
              · exact PortKept.refl s
              · constructor <;> rfl
      · exact PortKept.refl s
  · exact PortKept.refl s

theorem onJunction_port (f : JIdx → State → State × Answer) (hf : ∀ j s, PortKept s (f j s).1) (b : List Byte) (s : State) :
    PortKept s (onJunction f b s).1 := by
  unfold onJunction
  split
  · split
    · exact hf _ _
    · exact PortKept.refl s
  · exact PortKept.refl s

theorem repairJunction_port (b : List Byte) (s : State) : PortKept s (repairJunction b s).1 := by
  refine onJunction_port _ (fun j s => ?_) b s
  split <;> constructor <;> rfl

theorem rejoinJunction_port (b : List Byte) (s : State) : PortKept s (rejoinJunction b s).1 := by
  refine onJunction_port _ (fun j s => ?_) b s
  (repeat' split) <;> constructor <;> rfl

theorem takeMap_port (j m s) : PortKept s (takeMap j m s).1 := by
  unfold takeMap; split <;> constructor <;> rfl

theorem mapDetectors_port (b : List Byte) (s : State) : PortKept s (mapDetectors b s).1 := by
  unfold mapDetectors
  split
  · exact PortKept.refl s
  · split
    · exact PortKept.refl s
    · split
      · exact PortKept.refl s
      · split
        · dsimp only
          split
          · exact takeMap_port _ _ s
          · exact PortKept.refl s
        · exact PortKept.refl s

theorem takeGuard_port (j m s) : PortKept s (takeGuard j m s).1 := by
  unfold takeGuard; split <;> constructor <;> rfl

theorem setGuard_port (b : List Byte) (s : State) : PortKept s (setGuard b s).1 := by
  unfold setGuard
  split
  · split
    · split
      · exact takeGuard_port _ _ s
      · exact PortKept.refl s
    · exact PortKept.refl s
  · exact PortKept.refl s

theorem raisedAnswer_port (s a r) : PortKept s (raisedAnswer s a r).1 := by
  unfold raisedAnswer; dsimp only; split <;> constructor <;> rfl

theorem raiseRequest_port (b : List Byte) (s : State) : PortKept s (raiseRequest b s).1 := by
  unfold raiseRequest
  split
  · split
    · split
      · exact PortKept.refl s
      · split
        · exact PortKept.refl s
        · split
          · exact PortKept.refl s
          · exact raisedAnswer_port s _ _
    · exact PortKept.refl s
  · exact PortKept.refl s

theorem cancelRequest_port (b : List Byte) (s : State) : PortKept s (cancelRequest b s).1 := by
  unfold cancelRequest
  (repeat' split) <;> constructor <;> rfl

theorem loadStep_port (s q h ts) : PortKept s (loadStep s q h ts).1 := by
  unfold loadStep
  (repeat' split) <;> constructor <;> rfl

theorem loadStepBody_port (b : List Byte) (s : State) : PortKept s (loadStepBody b s).1 := by
  unfold loadStepBody
  split
  · split
    · exact PortKept.refl s
    · split
      · split
        · exact loadStep_port s _ _ _
        · exact PortKept.refl s
      · exact PortKept.refl s
  · exact PortKept.refl s

theorem closeGroup_port (b : List Byte) (s : State) : PortKept s (closeGroup b s).1 := by
  unfold closeGroup
  (repeat' split) <;> constructor <;> rfl

theorem dropScripts_port (b : List Byte) (s : State) : PortKept s (dropScripts b s).1 := by
  unfold dropScripts
  (repeat' split) <;> constructor <;> rfl

theorem armNotices_port (b : List Byte) (s : State) : PortKept s (armNotices b s).1 := by
  unfold armNotices
  (repeat' split) <;> constructor <;> rfl

theorem pauseNotices_port (b : List Byte) (s : State) : PortKept s (pauseNotices b s).1 := by
  unfold pauseNotices
  (repeat' split) <;> constructor <;> rfl

theorem resumeNotices_port (b : List Byte) (s : State) : PortKept s (resumeNotices b s).1 := by
  unfold resumeNotices
  (repeat' split) <;> constructor <;> rfl

theorem fetchRecords_port (b : List Byte) (s : State) : PortKept s (fetchRecords b s).1 := by
  unfold fetchRecords
  (repeat' split) <;> constructor <;> rfl

/-! ## Capacities of the host port -/
/-- The capacities of the host port and the settled line are kept, and the queue of commands is as it was. -/
def Port (s t : State) : Prop := (s.host.InRange → t.host.InRange) ∧ (s.Settled → t.Settled) ∧ t.pending = s.pending

theorem frames_congr (h g : HostPort) (a : h.queue = g.queue) (b : h.leaving = g.leaving) : h.frames = g.frames := by
  simp [HostPort.frames, a, b]

theorem directives_congr (h g : HostPort) (a : h.intake = g.intake) : h.directives = g.directives := by
  simp [HostPort.directives, a]

theorem busyMarks_congr (h g : HostPort) (a : h.intake = g.intake) : h.busyMarks = g.busyMarks := by
  simp [HostPort.busyMarks, directives_congr h g a, a]

theorem tail_le (h : HostPort) (d : h.directives ≤ 4) (b : h.busyMarks ≤ 8) :
   ({h with intake := h.intake.tail} : HostPort).directives ≤ 4 ∧
      ({h with intake := h.intake.tail} : HostPort).busyMarks ≤ 8 := by
  cases hi : h.intake with
  | nil => simp [HostPort.directives, HostPort.busyMarks]
  | cons x xs =>
    cases x <;> simp [HostPort.directives, HostPort.busyMarks, hi, List.countP_cons] at d b ⊢ <;> constructor <;> omega

theorem foldl_resume_le (set : BitVec 8) (l : List NoticeClass) (s : State) (h : s.host.frames ≤ 16) :
   let t := l.foldl (fun s c => if hasClass set c && s.report.catchable c && s.host.room 0 then s.catchUp c else s) s
   t.host.frames ≤ 16 ∧ t.host.intake = s.host.intake ∧ t.plant = s.plant ∧ t.pending = s.pending := by
  induction l generalizing s with
  | nil => exact ⟨h, rfl, rfl, rfl⟩
  | cons c l ih =>
    simp only [List.foldl_cons]
    split
    · rename_i hc
      simp [HostPort.room, Config.outgoing] at hc
      have := ih (s.catchUp c) (by simp; omega)
      exact this
    · exact ih s h

theorem resumeCatchUps_le (b : List Byte) (s : State) (h : s.host.frames ≤ 16) :
   (resumeCatchUps b s).host.frames ≤ 16 ∧ (resumeCatchUps b s).host.intake = s.host.intake ∧
      (resumeCatchUps b s).plant = s.plant ∧ (resumeCatchUps b s).pending = s.pending := by
  unfold resumeCatchUps
  split
  · exact foldl_resume_le _ _ s h
  · exact ⟨h, rfl, rfl, rfl⟩

/-- R185: taking a directive keeps the capacities and leaves a settled line. -/
theorem takeThen_port (s : State) (code : Byte) (h : Handler) (after : List Byte → State → State)
   (hh : ∀ b s, PortKept s (h b s).1)
   (ha : ∀ b (s : State), s.host.frames ≤ 16 → (after b s).host.frames ≤ 16 ∧
      (after b s).host.intake = s.host.intake ∧ (after b s).plant = s.plant ∧ (after b s).pending = s.pending) :
   Port s (s.takeThen code h after) := by
  unfold takeThen
  split
  · rename_i tag c body rest hi
    split
    · rename_i hc
      have hroom : s.host.frames < 16 := by
        have := hc.2
        simp [canTake, HostPort.room, Config.outgoing] at this
        exact this.1
      unfold handle
      dsimp only
      generalize hr : h body s.popIntake = r
      have hp := hh body s.popIntake
      rw [hr] at hp
      have hf : r.1.host.frames = s.host.frames := frames_congr _ _ hp.queue hp.leaving
      have h1 := offerAll_frames_le 1 r.1 (by simp [Config.outgoing]; omega)
      have h2 := offerAll_frame 1 r.1
      simp [Config.outgoing] at h1
      have hpl : (r.1.offerAll 1).plant.raised = [] := by simp
      generalize hu : r.1.offerAll 1 = u at *
      have hA := ha body (u.answer tag c r.2.body) (by simp; omega)
      generalize hw : after body (u.answer tag c r.2.body) = w at *
      have hint : w.host.intake = s.host.intake.tail := by
        rw [hA.2.1]; simp [h2.intake, hp.intake]
      refine ⟨fun x => ⟨?_, ?_, ?_⟩, fun x => ⟨?_, ?_⟩, ?_⟩
      · simp; exact hA.1
      · simp;
        rw [directives_congr w.host {s.host with intake := s.host.intake.tail} hint]
        exact (tail_le s.host x.2.1 x.2.2).1
      · simp;
        rw [busyMarks_congr w.host {s.host with intake := s.host.intake.tail} hint]
        exact (tail_le s.host x.2.1 x.2.2).2
      · show w.plant.raised = []
        rw [hA.2.2.1]; exact hpl
      · simp
      · show w.pending = s.pending
        rw [hA.2.2.2]; simp [h2.pending, hp.pending]
    · exact ⟨id, id, rfl⟩
  · exact ⟨id, id, rfl⟩

theorem take_port (s : State) (code : Byte) (h : Handler) (hh : ∀ b s, PortKept s (h b s).1) : Port s (s.take code h) :=
  takeThen_port s code h (fun _ s => s) hh (fun _ s hf => ⟨hf, rfl, rfl, rfl⟩)

/-- The end of a command keeps the capacities and leaves a settled line. -/
theorem finish_port (s t : State) (h : t.host = s.host) (hp : t.pending = s.pending) : Port s t.finish := by
  have f := finish_eventFrame t
  refine ⟨fun x => ⟨?_, ?_, ?_⟩, fun _ => settled_finish t, f.pending.trans hp⟩
  · have := offerAll_frames_le 0 t (by rw [h]; exact x.1)
    simp [finish]
    simpa using this
  · rw [directives_congr _ _ f.intake, h]; exact x.2.1
  · rw [busyMarks_congr _ _ f.intake, h]; exact x.2.2

/-! ## Operations that raise no notice -/

theorem frameSent_raised (e : Env) (p : Plant) (j) : (p.frameSent e j).raised = p.raised := by
  unfold Plant.frameSent; split <;> rfl

theorem keepDue_raised (e : Env) (p : Plant) (j) : (p.keepDue e j).raised = p.raised := by
  unfold Plant.keepDue; dsimp only; split <;> rfl

theorem releaseDue_raised (e : Env) (p : Plant) (j) : (p.releaseDue e j).raised = p.raised := by
  unfold Plant.releaseDue; dsimp only; split <;> rfl

theorem onPlant_port (s : State) (f) (h : (f s.env s.plant).raised = s.plant.raised) : Port s (s.onPlant f) :=
  ⟨id, fun x => ⟨h.trans x.1, x.2⟩, rfl⟩

theorem arriveDirective_port (h : HostPort) (b) :
    (h.InRange → (h.arriveDirective b).InRange) ∧ (h.arriveDirective b).queue = h.queue ∧
      (h.arriveDirective b).leaving = h.leaving ∧ (h.arriveDirective b).restart = h.restart := by
  unfold HostPort.arriveDirective
  split
  · split
    · exact ⟨id, rfl, rfl, rfl⟩
    · split
      · rename_i hd
        refine ⟨fun x => ⟨x.1, ?_, ?_⟩, rfl, rfl, rfl⟩
        · simp [HostPort.directives, Config.intakeDirectives] at hd ⊢
          exact hd
        · have := x.2.2
          simp [HostPort.directives, HostPort.busyMarks] at this ⊢
          omega
      · split
        · rename_i hb
          refine ⟨fun x => ⟨x.1, ?_, ?_⟩, rfl, rfl, rfl⟩
          · have := x.2.1
            simp [HostPort.directives] at this ⊢
            exact this
          · have hle : List.countP (fun i => match i with | IntakeItem.directive _ _ _ => true | IntakeItem.busy _ _ => false) h.intake ≤ h.intake.length := List.countP_le_length
            simp [HostPort.directives, HostPort.busyMarks, Config.intakeBusy] at hb ⊢
            omega
        · exact ⟨id, rfl, rfl, rfl⟩
  · exact ⟨id, rfl, rfl, rfl⟩

theorem foldl_arriveDirective_port (l : List (List Byte)) (h : HostPort) :
    (h.InRange → (l.foldl HostPort.arriveDirective h).InRange) ∧
      (l.foldl HostPort.arriveDirective h).queue = h.queue ∧
      (l.foldl HostPort.arriveDirective h).leaving = h.leaving ∧
      (l.foldl HostPort.arriveDirective h).restart = h.restart := by
  induction l generalizing h with
  | nil => exact ⟨id, rfl, rfl, rfl⟩
  | cons b l ih =>
    have a := arriveDirective_port h b
    have c := ih (h.arriveDirective b)
    exact ⟨fun x => c.1 (a.1 x), c.2.1.trans a.2.1, c.2.2.1.trans a.2.2.1, c.2.2.2.trans a.2.2.2⟩

theorem pick_congr (h g : HostPort) (a : g.queue = h.queue) (b : g.leaving = h.leaving) (c : g.restart = h.restart) (e : h.pick = h) :
    g.pick = g := by
  unfold HostPort.pick at e ⊢
  rw [a, b, c]
  split
  · rfl
  · rfl
  · rename_i hl hr
    rw [hl] at e
    split at e
    · contradiction
    · rename_i x; exact (hr x).elim
    · split at e
      · have := congrArg HostPort.leaving e; simp [hl] at this
      · split at e
        · rename_i h1 _ h2
          simp only [h1, h2]
        · have := congrArg HostPort.leaving e; simp [hl] at this

/-- A port that has nothing to choose has nothing to choose after more items have come into its intake either. -/
theorem choose_congr (h g : HostPort) (a : g.queue = h.queue) (b : g.leaving = h.leaving) (c : g.restart = h.restart)
    (d : h.intake ≠ [] → g.intake ≠ []) (e : h.choose = h) : g.choose = g := by
  obtain ⟨hi, -⟩ | ⟨-, e'⟩ := h.choose_cases
  · apply HostPort.choose_of_itemFirst
    have hf : g.frames = h.frames := by simp only [HostPort.frames, a, b]
    simp only [HostPort.itemFirst, hf, c, Bool.and_eq_true, Bool.not_eq_true', List.isEmpty_eq_false_iff] at hi ⊢
    exact ⟨⟨hi.1.1, d hi.1.2⟩, hi.2⟩
  · exact HostPort.choose_of_pick g (pick_congr h g a b c (e'.symm.trans e))

/-- R184: no item leaves the intake when directives arrive. -/
theorem foldl_arriveDirective_intake (l : List (List Byte)) (h : HostPort) (hi : h.intake ≠ []) :
    (l.foldl HostPort.arriveDirective h).intake ≠ [] := by
  induction l generalizing h with
  | nil => exact hi
  | cons b l ih =>
    apply ih
    unfold HostPort.arriveDirective
    (repeat' split) <;> simp [hi]

/-- R184: arriving directives keep the capacities. -/
theorem arrivals_port (s : State) (l : List (List Byte)) (rx : List Byte) :
    Port s { s with host := (l.foldl HostPort.arriveDirective { s.host with rx := rx }) } := by
  have a := foldl_arriveDirective_port l { s.host with rx := rx }
  refine ⟨fun x => a.1 x, fun x => ⟨x.1, choose_congr s.host _ a.2.1 a.2.2.1 a.2.2.2
    (foldl_arriveDirective_intake l { s.host with rx := rx }) x.2⟩, rfl⟩

theorem Port.refl (s : State) : Port s s := ⟨id, id, rfl⟩

theorem read_port (s : State) (code) (h : Handler) (e : ∀ b s, (h b s).1 = s) : Port s (s.take code h) :=
  take_port s code h (fun b s => by rw [e]; exact PortKept.refl s)

theorem reply_port (s : State) (tag c : Byte) (body) (hc : s.canTake = true) :
   Port s { s.popIntake.answer tag c body with host := (s.popIntake.answer tag c body).host.choose } := by
  simp [canTake, HostPort.room, Config.outgoing] at hc
  refine ⟨fun x => ⟨?_, ?_, ?_⟩, fun x => ⟨x.1, by simp⟩, rfl⟩
  · simp [Config.outgoing]
    have := hc.1
    simp [HostPort.frames] at this ⊢
    omega
  · simp; exact (tail_le s.host x.2.1 x.2.2).1
  · simp; exact (tail_le s.host x.2.1 x.2.2).2

theorem foldl_catchUp_le (l : List NoticeClass) (s : State) (h : s.host.frames + l.length ≤ 16) :
   let t := l.foldl (fun s c => if s.report.catchable c then s.catchUp c else s) s
   t.host.frames ≤ 16 ∧ t.host.intake = s.host.intake ∧ t.plant = s.plant ∧ t.pending = s.pending := by
  induction l generalizing s with
  | nil => exact ⟨by simpa using h, rfl, rfl, rfl⟩
  | cons c l ih =>
    simp only [List.foldl_cons]
    simp at h
    split
    · have := ih (s.catchUp c) (by simp; omega)
      exact this
    · exact ih s (by omega)

/-- R187, R191: a frame leaving keeps the capacities. -/
theorem frameLeft_port (s : State) : Port s s.frameLeft := by
  unfold frameLeft
  split
  · exact Port.refl s
  · rename_i f hf
    dsimp only
    split
    · refine ⟨fun x => ⟨?_, x.2⟩, fun x => ⟨x.1, ?_⟩, rfl⟩
      · have := x.1
        simp [HostPort.frames, hf] at this ⊢
        omega
      · exact HostPort.choose_of_left _ rfl
    · split
      · rename_i hq
        have hq' : s.host.queue = [] := by simpa using hq
        have := foldl_catchUp_le NoticeClass.all { s with host := { s.host with leaving := none } } (by simp [HostPort.frames, hq', NoticeClass.all])
        refine ⟨fun x => ⟨?_, ?_, ?_⟩, fun x => ⟨?_, ?_⟩, ?_⟩
        · simp; exact this.1
        · simp; exact (directives_congr _ s.host this.2.1).le.trans x.2.1
        · simp; exact (busyMarks_congr _ s.host this.2.1).le.trans x.2.2
        · exact (congrArg Plant.raised this.2.2.1).trans x.1
        · simp
        · exact this.2.2.2
      · refine ⟨fun x => ⟨?_, ?_, ?_⟩, fun x => ⟨x.1, by simp⟩, rfl⟩
        · have := x.1
          show (HostPort.choose _).frames ≤ _
          rw [HostPort.choose_frames]
          simp [HostPort.frames, hf] at this ⊢
          omega
        · simp; exact x.2.1
        · simp; exact x.2.2

/-- The host port and the queue of commands are as they were. -/
def PortSame (s t : State) : Prop := t.host = s.host ∧ t.pending = s.pending

theorem PortSame.trans {s t u : State} (h : PortSame s t) (g : PortSame t u) :
    PortSame s u := ⟨g.1.trans h.1, g.2.trans h.2⟩

theorem PortSame.refl (s) : PortSame s s := ⟨rfl, rfl⟩

theorem finishCheck_same (s : State) : PortSame s s.finishCheck := by
  unfold finishCheck; split <;> exact ⟨rfl, rfl⟩

theorem tryStart_same (s : State) : PortSame s s.tryStart := by
  unfold tryStart
  split
  · exact PortSame.refl s
  · split
    · exact PortSame.trans (t := ({ s with script := s.script.startGroup } : State).raise _) ⟨rfl, rfl⟩ (finishCheck_same _)
    · exact PortSame.refl s

theorem tryStep_same (s : State) (q) (b) : PortSame s (s.tryStep q b).1 := by
  unfold tryStep
  split
  · unfold tryJunction; split <;> exact ⟨rfl, rfl⟩
  · unfold tryMaster; dsimp only; split <;> exact ⟨rfl, rfl⟩

theorem scriptFaulted_same (s : State) (q p r j) : PortSame s (s.scriptFaulted q p r j) := by
  unfold scriptFaulted
  exact PortSame.trans (t := ({ s with script := (s.script.updQueue q dropGroup).endQueue q } : State).raise _) ⟨rfl, rfl⟩ (finishCheck_same _)

theorem readItem_same (s : State) (q) : PortSame s (s.readItem q) := by
  unfold readItem
  split
  · exact PortSame.refl s
  · exact PortSame.trans (t := { s with script := _ }) ⟨rfl, rfl⟩ (finishCheck_same _)
  · rename_i hold blocks rest hs
    dsimp only
    have k1 : PortSame s { s with script :=
        { s.script.updQueue q (fun _ => rest) with place := s.script.place.set q (s.script.place[q] + 1) } } := ⟨rfl, rfl⟩
    generalize ({ s with script :=
        { s.script.updQueue q (fun _ => rest) with place := s.script.place.set q (s.script.place[q] + 1) } } : State) = u at k1 ⊢
    have k2 := k1.trans (tryStep_same u q blocks)
    generalize u.tryStep q blocks = r at k2 ⊢
    split
    · exact k2
    · exact k2.trans (scriptFaulted_same _ _ _ _ _)

theorem countDown_same (s : State) (q) : PortSame s (s.countDown q) := by
  unfold countDown
  split
  · dsimp only
    split
    · exact PortSame.trans (t := { s with script := _ }) ⟨rfl, rfl⟩ (readItem_same _ q)
    · exact ⟨rfl, rfl⟩
  · exact PortSame.refl s

theorem stagedCorridorStep_same (s : State) : PortSame s s.stagedCorridorStep := by
  unfold stagedCorridorStep
  split
  · exact PortSame.refl s
  · dsimp only
    split <;> exact ⟨rfl, rfl⟩

theorem masterZeroWork_same (s : State) : PortSame s s.masterZeroWork :=
  ((stagedCorridorStep_same s).trans (tryStart_same _)).trans (countDown_same _ _)

theorem tenth_same (s : State) : PortSame s s.tenth := by
  unfold tenth
  dsimp only
  split
  · exact PortSame.trans (t := { s with now := _, plant := _, tb := _ }) ⟨rfl, rfl⟩ (masterZeroWork_same _)
  · exact ⟨rfl, rfl⟩

theorem storeRecord_same (s : State) (c) : PortSame s (s.storeRecord c) := by
  unfold storeRecord; dsimp only; split <;> exact ⟨rfl, rfl⟩

theorem recordStep_same (s : State) (j) : PortSame s (s.recordStep j) := by
  unfold recordStep
  dsimp only
  have k1 : PortSame s (if s.plant.jn[j].state = .inStep then s.storeRecord (s.formRecord j) else s) := by
    split
    · exact storeRecord_same _ _
    · exact PortSame.refl s
  generalize (if s.plant.jn[j].state = .inStep then s.storeRecord (s.formRecord j) else s) = u at k1 ⊢
  have k2 : PortSame s (if s.plant.jn[j].completions ≠ [] ∨ s.plant.jn[j].overflow = true then
      u.raise (.completions j s.plant.jn[j].overflow s.plant.jn[j].completions) else u) := by
    split
    · exact k1
    · exact k1
  exact k2

theorem localCycleStart_same (s : State) (j) : PortSame s (s.localCycleStart j) := by
  unfold localCycleStart
  dsimp only
  split
  · have k1 : PortSame s { s with plant := s.plant.upd j fun J => startCycle J s.tb.c } := ⟨rfl, rfl⟩
    generalize ({ s with plant := s.plant.upd j fun J => startCycle J s.tb.c } : State) = u at k1 ⊢
    have k2 := k1.trans (recordStep_same u j)
    generalize u.recordStep j = v at k2 ⊢
    have k3 := k2.trans (t := v) (u := v.onPlant (fun e p => stagedStep e p j)) ⟨rfl, rfl⟩
    generalize v.onPlant (fun e p => stagedStep e p j) = w at k3 ⊢
    have k4 := k3.trans (countDown_same w (junctionQueue j))
    generalize w.countDown (junctionQueue j) = x at k4 ⊢
    exact k4
  · exact PortSame.refl s

theorem plantEvent_port (s : State) (f) : Port s (s.plantEvent f) := finish_port s (s.onPlant f) rfl rfl

theorem junctionEvent_port (s : State) (j f) : Port s (s.junctionEvent j f) := finish_port s (s.onPlant _) rfl rfl

theorem raised_fold {α} (f : Plant → α → Plant) (hf : ∀ p a, (f p a).raised = p.raised) (l : List α) (p : Plant) :
    (l.foldl f p).raised = p.raised := by
  induction l generalizing p with
  | nil => rfl
  | cons a l ih => exact (ih _).trans (hf p a)

theorem retire_raised (p : Plant) (j n) : (p.retire j n none).raised = p.raised := by
  unfold Plant.retire
  dsimp only
  have a : (p.stopGapOf j n).raised = p.raised := by unfold Plant.stopGapOf; split <;> rfl
  have b : ∀ q : Plant, (q.release j n).raised = q.raised := by
    intro q; unfold Plant.release; split <;> rfl
  rw [b, a]

theorem warmEntries_raised (p : Plant) : ((List.finRange 12).foldl
    (fun p j => p.jn[j].chain.foldl (fun p n => p.updEnt n warmEntry) p) p : Plant).raised = p.raised :=
  raised_fold (fun p (j : JIdx) => p.jn[j].chain.foldl (fun p n => p.updEnt n warmEntry) p)
    (fun p j => raised_fold (fun p n => p.updEnt n warmEntry) (fun _ _ => rfl) _ p) _ p

theorem retireServices_raised (p : Plant) (j) : (p.retireServices j).raised = p.raised :=
  raised_fold (fun p n => p.retire j n none) (fun p n => retire_raised p j n) _ p

theorem retireAll_raised (p : Plant) : (retireAllServices p).raised = p.raised :=
  raised_fold (fun p (j : JIdx) => p.retireServices j) (fun p j => retireServices_raised p j) (List.finRange 12) p

theorem warm_raised (c) (p : Plant) : (warmPlant c p).raised = p.raised := by
  unfold warmPlant
  dsimp only
  exact (warmEntries_raised _).trans (retireAll_raised p)

theorem empty_inRange : HostPort.empty.InRange := ⟨by decide, by decide, by decide⟩

end State

end Sys2Proof.Machine
end

