-- ==== Sys2Proof/Laws/Commands.lean ====
section
/-! SUPPORT. What any command can do to the ranges, the record queue, the pool, the host port and the queue of commands. -/

namespace Sys2Proof.Machine

open Sys2Proof

namespace State.Kept

/-! ## Warm start (R21, R42) -/

theorem retireAll_moves (p : Plant) : Plant.Moves Plant.anyJ p (retireAllServices p) :=
  Plant.Moves.foldl (fun p j => (Plant.retireServices_moves p j).any) _ p

theorem warmJunction_chain (c : Nat) (J : Junction) : (warmJunction c J).chain = J.chain := by
  unfold warmJunction
  dsimp only
  split
  · rfl
  · rfl

theorem warmEntries_moves (p : Plant) : Plant.Moves Plant.anyJ p ((List.finRange 12).foldl
    (fun p j => p.jn[j].chain.foldl (fun p n => p.updEnt n warmEntry) p) p) :=
  Plant.Moves.foldl (f := fun p (j : JIdx) => p.jn[j].chain.foldl (fun p n => p.updEnt n warmEntry) p)
    (fun p j => Plant.Moves.foldl (f := fun p n => p.updEnt n warmEntry) (fun p n => Plant.Moves.ent p n warmEntry) _ p) _ p

theorem warmMap_pool (c : Nat) (p : Plant) (req : Vector (Option Request) 24) (arrivals : List SlotNo) (h : p.PoolWhole) :
    ({ p with jn := p.jn.map (warmJunction c), req := req, arrivals := arrivals } : Plant).PoolWhole :=
  Plant.poolWhole_congr (p := p) rfl (fun j => by
    show (p.jn.map (warmJunction c))[j.val].chain = _
    rw [Vector.getElem_map]
    exact warmJunction_chain c _) h

theorem warmPlant_pool (c : Nat) (p : Plant) (h : p.PoolWhole) : (warmPlant c p).PoolWhole := by
  unfold warmPlant
  exact warmMap_pool c _ _ _ ((warmEntries_moves _).poolWhole ((retireAll_moves p).poolWhole h))

theorem cold_records (a b : BitVec 8) :
    ReportBlock.Whole { ReportBlock.cold with armed := a, paused := b } := by
  intro i hi
  simp [ReportBlock.held, ReportBlock.cold] at hi

theorem scripts_empty_inRange : ScriptUnit.empty.InRange := by
  refine ⟨fun q i hi => ?_, by decide, by decide, fun q => ?_⟩
  · simp [ScriptUnit.empty] at hi
  · simp [ScriptUnit.empty]

theorem warm (s : State) : s.Kept s.warm := by
  refine ⟨fun x => ⟨⟨x.1.1, x.1.2.1, ?_, x.1.2.2.2.1, fun _ h => by cases h⟩, scripts_empty_inRange⟩, fun _ => cold_records _ _, warmPlant_pool _ _⟩
  have := x.1.1
  show 0 < 10 * s.tb.c
  omega

theorem plantEvent (s : State) (f : Env → Plant → Plant) (h : ∀ e p, Plant.Moves Plant.anyJ p (f e p)) : s.Kept (s.plantEvent f) := by
  exact (onPlant s f (h _ _)).trans (finish _)

theorem junctionEvent (s : State) (j : JIdx) (f : Env → Plant → Plant) (h : ∀ e p, Plant.Moves Plant.anyJ p (f e p)) : s.Kept (s.junctionEvent j f) := by
  exact (onPlant s (fun e p => (f e p).attempts e j) ((h _ _).trans (Plant.attempts_moves _ _ _))).trans (finish _)

/-- A command keeps the ranges, the record queue and the pool, or is the cold start. -/
theorem exec_kept (c : Instr) (s t : State) (h : exec c s = .next t) :
    s.Kept t ∨ t = { State.reset with pending := s.pending } := by
  cases c <;> (simp only [exec] at h; cases h)
  case coldStart => exact Or.inr rfl
  all_goals left
  case warmStart => split; exacts [warm s, refl s]
  case masterPositionAdvance => exact (tenth s).trans (finish _)
  case masterZero => split; exacts [(tenth s).trans (finish _), refl s]
  case clockAdvance => exact clockTick s
  case configureCorridor => exact take s _ _ configureCorridor
  case configureJunction => exact take s _ _ configureJunction
  case run => exact take s _ _ run
  case stop => exact take s _ _ stop
  case restart => exact take s _ _ restart
  case setClock => exact take s _ _ setClock
  case localCycleStart j => exact (localCycleStart s j).trans (finish _)
  case appendEntry => exact take s _ _ appendEntry
  case insertEntry => exact take s _ _ insertEntry
  case amendEntry => exact take s _ _ amendEntry
  case removeEntry => exact take s _ _ removeEntry
  case readChain => exact take s _ _ fun b s => by rw [readChain]; exact refl s
  case bandEndPoint j => exact junctionEvent s j _ fun e p => (Plant.bandEndPoint_moves e p j).any
  case bandCallPoint j => exact junctionEvent s j _ fun e p => (Plant.bandCallPoint_moves e p j).any
  case minimumExpiry j => exact junctionEvent s j _ fun e p => (Plant.minimumExpiry_moves e p j).any
  case splitExpiry j => exact junctionEvent s j _ fun e p => (Plant.splitExpiry_moves e p j).any
  case allowanceExpiry j => exact junctionEvent s j _ fun e p => (Plant.allowanceExpiry_moves e p j).any
  case minimumWaitEnd j => exact junctionEvent s j _ fun e p => (Plant.minimumWaitEnd_moves e p j).any
  case confirmTimeout j => exact plantEvent s _ fun e p => Plant.confirmTimeout_moves e p j
  case reportReceived j f b => exact plantEvent s _ fun e p => Plant.corridorBytes_moves e p j f b
  case repairJunction => exact take s _ _ repairJunction
  case rejoinJunction => exact take s _ _ rejoinJunction
  case readJunction => exact take s _ _ fun b s => by rw [readJunction]; exact refl s
  case mapDetectors => exact take s _ _ mapDetectors
  case readDetectors => exact take s _ _ fun b s => by rw [readDetectors]; exact refl s
  case gapExpiry j st =>
    split
    · exact junctionEvent s j _ fun e p => (Plant.gapExpiry_moves e p j _).any
    · exact refl s
  case stuckDetected j d => exact plantEvent s _ fun e p => Plant.stuckDetected_moves e p j d
  case raiseRequest => exact take s _ _ raiseRequest
  case cancelRequest => exact take s _ _ cancelRequest
  case readRequests => exact take s _ _ fun b s => by rw [readRequests]; exact refl s
  case waitExpiry k => exact plantEvent s _ fun e p => Plant.waitExpiry_moves e p k
  case serviceEnd k => exact plantEvent s _ fun e p => Plant.serviceEnd_moves e p k
  case holdEnd k => exact plantEvent s _ fun e p => Plant.holdEnd_moves e p k
  case setGuard => exact take s _ _ setGuard
  case spillDue j => exact plantEvent s _ fun e p => Plant.spillDue_moves e p j
  case loadStep => exact take s _ _ loadStepBody
  case closeGroup => exact take s _ _ closeGroup
  case dropScripts => exact take s _ _ dropScripts
  case scriptSpace => exact take s _ _ fun b s => by rw [scriptSpace]; exact refl s
  case corridorFrameSent j => exact onPlant s _ (Plant.frameSent_moves _ _ j)
  case keepDue j => exact onPlant s _ (Plant.keepDue_moves _ _ j)
  case releaseDue j => exact onPlant s _ (Plant.releaseDue_moves _ _ j)
  case corridorFrameDiscard j f b => exact plantEvent s _ fun e p => Plant.corridorBytes_moves e p j f b
  case corridorByteGapExpiry j f => exact plantEvent s _ fun e p => Plant.corridorGap_moves e p j f
  case lineSilence j => exact plantEvent s _ fun e p => (Plant.lineSilence_moves e p j).any
  case directiveArrival b => exact host s _
  case hostFrameDiscard b => exact host s _
  case hostByteGapExpiry => exact host s _
  case busyAnswer =>
    unfold State.takeBusy
    (repeat' split) <;> first | exact refl s | exact ⟨id, id, id⟩
  case unknownDirective =>
    unfold State.takeUnknown
    (repeat' split) <;> first | exact refl s | exact ⟨id, id, id⟩
  case hostFrameSent =>
    unfold State.frameLeft
    split
    · exact refl s
    · dsimp only
      split
      · exact ⟨id, id, id⟩
      · split
        · exact ((host s _).trans (catchUpAll _)).trans (host _ _)
        · exact ⟨id, id, id⟩
  case armNotices => exact take s _ _ armNotices
  case pauseNotices => exact take s _ _ pauseNotices
  case resumeNotices => exact takeThen s _ _ _ resumeNotices resumeCatchUps
  case fetchRecords => exact take s _ _ fetchRecords
  case readStatus => exact take s _ _ fun b s => by rw [readStatus]; exact refl s

end State.Kept

namespace State

/-- No command breaks a capacity of the host port or leaves a notice unoffered, and none touches the queue. -/
theorem exec_port (c : Instr) (s t : State) (h : exec c s = .next t) : Port s t := by
  cases c <;> (simp only [exec] at h; cases h)
  case coldStart =>
    refine ⟨fun _ => ?_, fun _ => ?_, rfl⟩
    · exact empty_inRange
    · refine ⟨?_, ?_⟩
      · show State.reset.plant.raised = []
        decide
      · show HostPort.empty.choose = HostPort.empty
        decide
  case warmStart =>
    split
    · refine ⟨fun _ => empty_inRange, fun x => ⟨?_, ?_⟩, rfl⟩
      · exact (warm_raised _ _).trans x.1
      · show HostPort.empty.choose = HostPort.empty
        decide
    · exact Port.refl s
  case masterPositionAdvance => exact finish_port s _ (tenth_same s).1 (tenth_same s).2
  case masterZero => split; exacts [finish_port s _ (tenth_same s).1 (tenth_same s).2, Port.refl s]
  case clockAdvance =>
    unfold clockTick
    split
    · exact Port.refl s
    · split
      · exact ⟨id, id, rfl⟩
      · exact Port.refl s
  case configureCorridor => exact take_port s _ _ configureCorridor_port
  case configureJunction => exact take_port s _ _ configureJunction_port
  case run => exact take_port s _ _ run_port
  case stop => exact take_port s _ _ stop_port
  case restart => exact take_port s _ _ restart_port
  case setClock => exact take_port s _ _ setClock_port
  case localCycleStart j => exact finish_port s _ (localCycleStart_same s j).1 (localCycleStart_same s j).2
  case appendEntry => exact take_port s _ _ appendEntry_port
  case insertEntry => exact take_port s _ _ insertEntry_port
  case amendEntry => exact take_port s _ _ amendEntry_port
  case removeEntry => exact take_port s _ _ removeEntry_port
  case readChain => exact read_port s _ _ Kept.readChain
  case bandEndPoint j => exact junctionEvent_port s j _
  case bandCallPoint j => exact junctionEvent_port s j _
  case minimumExpiry j => exact junctionEvent_port s j _
  case splitExpiry j => exact junctionEvent_port s j _
  case allowanceExpiry j => exact junctionEvent_port s j _
  case minimumWaitEnd j => exact junctionEvent_port s j _
  case confirmTimeout j => exact plantEvent_port s _
  case reportReceived j f b => exact plantEvent_port s _
  case repairJunction => exact take_port s _ _ repairJunction_port
  case rejoinJunction => exact take_port s _ _ rejoinJunction_port
  case readJunction => exact read_port s _ _ Kept.readJunction
  case mapDetectors => exact take_port s _ _ mapDetectors_port
  case readDetectors => exact read_port s _ _ Kept.readDetectors
  case gapExpiry j st =>
    split
    · exact junctionEvent_port s j _
    · exact Port.refl s
  case stuckDetected j d => exact plantEvent_port s _
  case raiseRequest => exact take_port s _ _ raiseRequest_port
  case cancelRequest => exact take_port s _ _ cancelRequest_port
  case readRequests => exact read_port s _ _ Kept.readRequests
  case waitExpiry k => exact plantEvent_port s _
  case serviceEnd k => exact plantEvent_port s _
  case holdEnd k => exact plantEvent_port s _
  case setGuard => exact take_port s _ _ setGuard_port
  case spillDue j => exact plantEvent_port s _
  case loadStep => exact take_port s _ _ loadStepBody_port
  case closeGroup => exact take_port s _ _ closeGroup_port
  case dropScripts => exact take_port s _ _ dropScripts_port
  case scriptSpace => exact read_port s _ _ Kept.scriptSpace
  case corridorFrameSent j => exact onPlant_port s _ (frameSent_raised _ _ j)
  case keepDue j => exact onPlant_port s _ (keepDue_raised _ _ j)
  case releaseDue j => exact onPlant_port s _ (releaseDue_raised _ _ j)
  case corridorFrameDiscard j f b => exact plantEvent_port s _
  case corridorByteGapExpiry j f => exact plantEvent_port s _
  case lineSilence j => exact plantEvent_port s _
  case directiveArrival b => exact arrivals_port s _ _
  case hostFrameDiscard b => exact arrivals_port s _ _
  case hostByteGapExpiry => exact arrivals_port s _ _
  case busyAnswer =>
    unfold State.takeBusy
    split
    · split
      · rename_i hc; exact reply_port s _ _ _ hc
      · exact Port.refl s
    · exact Port.refl s
  case unknownDirective =>
    unfold State.takeUnknown
    split
    · split
      · rename_i hc; exact reply_port s _ _ _ hc.2
      · exact Port.refl s
    · exact Port.refl s
  case hostFrameSent => exact frameLeft_port s
  case armNotices => exact take_port s _ _ armNotices_port
  case pauseNotices => exact take_port s _ _ pauseNotices_port
  case resumeNotices => exact takeThen_port s _ _ _ resumeNotices_port (fun b s h => resumeCatchUps_le b s h)
  case fetchRecords => exact take_port s _ _ fetchRecords_port
  case readStatus => exact read_port s _ _ Kept.readStatus

end State

end Sys2Proof.Machine
end

