-- ==== Sys2Proof/Laws/Frames.lean ====
section
/-! SUPPORT. What a receiver makes of one whole frame, and the arrival of a report (R170, R183). -/

namespace Sys2Proof.Machine

open Sys2Proof

theorem toNat_byte (n : Nat) (h : n < 256) : (byte n).toNat = n := by
  simp [byte, Nat.mod_eq_of_lt h]

@[simp] theorem length_be16 (v : BitVec 16) : (be16 v).length = 2 := rfl

/-- The bytes behind a start byte give the payload of a frame whose length is in range. -/
theorem assemble_frame (form : FrameForm) (payload rest : List Byte) (h : payload.length < 256)
    (hmin : form.minLen ≤ payload.length) (hmax : payload.length ≤ form.maxLen) :
    assemble form (byte payload.length :: payload ++ be16 (crc (byte payload.length :: payload)) ++ rest) =
      .whole payload rest := by
  simp only [List.cons_append, assemble, toNat_byte _ h]
  rw [if_neg (by omega), if_neg (by simp; omega)]
  have h1 : (payload ++ be16 (crc (byte payload.length :: payload)) ++ rest).take payload.length = payload := by
    simp
  have h2 : (payload ++ be16 (crc (byte payload.length :: payload)) ++ rest).drop payload.length =
      be16 (crc (byte payload.length :: payload)) ++ rest := by
    simp
  have h3 : (payload ++ be16 (crc (byte payload.length :: payload)) ++ rest).drop (payload.length + 2) = rest := by
    rw [← List.drop_drop, h2]
    rfl
  rw [h1, h2, h3]
  exact if_pos rfl

/-- A hunt takes a good frame whole, with nothing behind it. -/
theorem hunt_frame (form : FrameForm) (payload : List Byte) (h : payload.length < 256)
    (hmin : form.minLen ≤ payload.length) (hmax : payload.length ≤ form.maxLen) (ha : form.accept payload = true) (k : Nat) :
    hunt form (k + 1) (frame form.start payload) = ([{ payload := payload, behind := 0 }], []) := by
  have g := assemble_frame form payload [] h hmin hmax
  rw [List.append_nil] at g
  have e : hunt form (k + 1) (frame form.start payload) =
      ({ payload := payload, behind := 0 } :: (hunt form k []).1, (hunt form k []).2) := by
    simp only [frame, List.cons_append, hunt, if_true]
    simp only [List.cons_append] at g
    rw [g]
    simp [ha]
  rw [e]
  cases k <;> rfl

/-- A receiver that hunts takes a good frame whole. -/
theorem receive_frame (form : FrameForm) (payload : List Byte) (h : payload.length < 256)
    (hmin : form.minLen ≤ payload.length) (hmax : payload.length ≤ form.maxLen) (ha : form.accept payload = true) :
    receive form [] (frame form.start payload) = ([payload], []) := by
  have e := hunt_frame form payload h hmin hmax ha ((frame form.start payload).length - 1)
  rw [Nat.sub_add_cancel (by simp [frame])] at e
  simp only [receive, List.nil_append, e]
  rfl

/-- What a hunt keeps is the end of what it was given. -/
theorem hunt_suffix (form : FrameForm) (k : Nat) (buf : List Byte) : (hunt form k buf).2 <:+ buf := by
  induction k generalizing buf with
  | zero => exact List.suffix_refl _
  | succ k ih =>
    cases buf with
    | nil => exact List.suffix_refl _
    | cons b rest =>
      have skip : ∀ l : List Byte, l <:+ rest → (hunt form k l).2 <:+ b :: rest :=
        fun l h => ((ih l).trans h).trans (List.suffix_cons _ _)
      have tail : ∀ payload behind, assemble form rest = .whole payload behind → behind <:+ rest := by
        intro payload behind h
        unfold assemble at h
        split at h
        · cases h
        · dsimp only at h
          (repeat' split at h) <;> first
            | cases h; exact (List.drop_suffix _ _).trans (List.suffix_cons _ _)
            | cases h
      simp only [hunt]
      split
      · split
        · exact List.suffix_refl _
        · exact skip _ (List.suffix_refl _)
        · rename_i payload behind h
          split
          · exact skip _ (tail _ _ h)
          · split
            · exact skip _ (tail _ _ h)
            · exact skip _ (List.suffix_refl _)
      · exact skip _ (List.suffix_refl _)

/-- A good report that meets an idle receiver arrives with the command that brings it (R170). -/
theorem Plant.corridorBytes_report (s : State) (j : JIdx) (first : TakeOrder) (body : List Byte)
    (idle : s.plant.jn[j].line.rx = []) (good : reportBodyGood body = true) (short : body.length < 30) :
    s.plant.corridorBytes s.env j first (reportWire body) =
      (s.plant.upd j fun J => { J with line := { J.line with rx := [] } }).takeReport s.env j first body := by
  have accept : corridorForm.accept (4 :: body) = true := by simp [corridorForm, good]
  have e := hunt_frame corridorForm (4 :: body) (by simp; omega) (by simp [corridorForm])
    (by simp [corridorForm]; omega) accept ((reportWire body).length - 1)
  rw [Nat.sub_add_cancel (by simp [reportWire, frame])] at e
  change hunt corridorForm (reportWire body).length (reportWire body) = _ at e
  have bytes : ((reportWire body).map fun b => ({ byte := b, time := s.env.now, tod := s.env.tod } : Received)).map Received.byte =
      reportWire body := by
    rw [List.map_map]
    exact List.map_id' _
  have last : ∀ f : Found, f.behind = 0 →
      arrivalEnv s.env ((reportWire body).map fun b => { byte := b, time := s.env.now, tod := s.env.tod }) f = s.env := by
    intro f hf
    unfold arrivalEnv
    split
    · rename_i b h
      have m := List.mem_of_getElem? h
      simp only [List.mem_reverse, List.mem_map] at m
      obtain ⟨_, _, rfl⟩ := m
      rfl
    · rfl
  unfold Plant.corridorBytes Plant.takeFound
  simp only [idle, List.nil_append, bytes, List.length_map, e, List.foldl_cons, List.foldl_nil, last, List.tail_cons,
    List.length_nil, Nat.sub_zero]
  rw [List.drop_of_length_le (by simp)]

end Sys2Proof.Machine
end

