-- ==== Sys2Proof/WellFormed.lean ====
section
/-! DEFINITION. Which commands are well formed: a reception brings at least one byte, and a stage is 1 to 8. Every other
operand is bounded by its type. -/

namespace Sys2Proof

/-- A command's operands lie within what the manual gives them. -/
def Instr.wellFormed : Instr → Bool
  | .directiveArrival bytes => !bytes.isEmpty
  | .hostFrameDiscard bytes => !bytes.isEmpty
  | .reportReceived _ _ bytes => !bytes.isEmpty
  | .corridorFrameDiscard _ _ bytes => !bytes.isEmpty
  | .gapExpiry _ stage => decide (1 ≤ stage) && decide (stage ≤ 8)
  | .coldStart | .warmStart | .hostByteGapExpiry | .busyAnswer | .unknownDirective | .hostFrameSent
  | .configureCorridor | .configureJunction | .run | .stop | .restart | .setClock | .clockAdvance | .masterZero
  | .localCycleStart _ | .bandEndPoint _ | .bandCallPoint _ | .minimumExpiry _ | .splitExpiry _ | .allowanceExpiry _
  | .minimumWaitEnd _ | .confirmTimeout _ | .waitExpiry _ | .serviceEnd _ | .holdEnd _ | .stuckDetected _ _ | .spillDue _
  | .corridorByteGapExpiry _ _ | .lineSilence _ | .corridorFrameSent _ | .keepDue _ | .releaseDue _
  | .appendEntry | .insertEntry | .amendEntry | .removeEntry | .readChain | .repairJunction | .rejoinJunction
  | .readJunction | .mapDetectors | .readDetectors | .raiseRequest | .cancelRequest | .readRequests | .setGuard
  | .loadStep | .closeGroup | .dropScripts | .scriptSpace | .armNotices | .pauseNotices | .resumeNotices
  | .fetchRecords | .readStatus | .masterPositionAdvance => true

end Sys2Proof
end

