-- ==== Sys2Proof/Tests/Slice0.lean ====
section
/-! SUPPORT. Tests: ill-formed terms the check refuses, small facts about single commands, and, for every obligation with
hypotheses, a state and operands that meet them. -/

namespace Sys2Proof.Tests

open Sys2Proof Sys2Proof.Machine

/-! ## Ill-formed commands -/

theorem test_illFormed_directiveArrival : (Instr.directiveArrival []).wellFormed = false := by decide
theorem test_illFormed_hostFrameDiscard : (Instr.hostFrameDiscard []).wellFormed = false := by decide
theorem test_illFormed_reportReceived : (Instr.reportReceived 3 .detectorFirst []).wellFormed = false := by decide
theorem test_illFormed_corridorFrameDiscard : (Instr.corridorFrameDiscard 3 .sequencerFirst []).wellFormed = false := by
  decide
theorem test_illFormed_gapExpiry_low : (Instr.gapExpiry 0 0).wellFormed = false := by decide
theorem test_illFormed_gapExpiry_high : (Instr.gapExpiry 0 9).wellFormed = false := by decide
theorem test_wellFormed_gapExpiry : (Instr.gapExpiry 0 1).wellFormed = true ∧ (Instr.gapExpiry 0 8).wellFormed = true := by
  decide
theorem test_wellFormed_directiveArrival : (Instr.directiveArrival [0xC5]).wellFormed = true := by decide

/-! ## The table's words -/

/-- No row of the table has bits: no word spells a command. -/
theorem test_noWord : decodeTableWord 16 0 = none := by decide

theorem test_withFetchWord : State.reset.withFetchWord 16 0 = State.reset := rfl

/-! ## Small states -/

/-- A state with one directive in the intake, tag 7. -/
def asked (code : Byte) (body : List Byte) (s : State) : State :=
  { s with host := { s.host with intake := [.directive 7 code body] } }

theorem asked_takes (s : State) (code : Byte) (body : List Byte) (hf : s.host.frames < 16) (hr : s.host.restart = .none)
    (hq : s.plant.raised = []) : (asked code body s).Takes 7 code body := ⟨rfl, hf, hr, hq⟩

/-- A RECALL SIDE entry of stage 3. -/
def side : Entry := { Entry.clear with stage := 2, kind := .recurring, minimum := 10, split := 20, passage := 30 }

/-- A BAND entry of stage 1. -/
def band : Entry :=
  { Entry.clear with stage := 0, role := .band, kind := .recurring, minimum := 10, split := 30, passage := 30 }

/-- An entry that has been SERVING for a number of tenths. -/
def served (x : Entry) (e : Nat) : Entry := { x with status := .serving, elapsed := some e }

/-- Junction 0 with entries 1 and 2 in its chain, cycle of 90 s, line UP in mode COORD_READY. -/
def coordinated : Junction :=
  { Junction.cold with
    state := .inStep, chain := [1, 2], span := 900, p := 400
    line := { Line.cold with up := true, upAt := some 10, mode := some .coordReady, silence := some 1005 } }

/-- A COORDINATING corridor at part time 100.0 s whose junction 0 and entries 1 and 2 are given. -/
def corridor (J : Junction) (x y : Entry) : State :=
  { State.reset with
    now := 1000
    tb := { Timebase.cold with corridor := .coordinating, m := 400 }
    plant := { Plant.cold with
      jn := Plant.cold.jn.set 0 J, pool := (Plant.cold.pool.set 1 x).set 2 y, free := (List.finRange 128).drop 3 } }

/-- The same with one request record, in slot 0. -/
def withRequest (r : Request) (s : State) : State :=
  { s with plant := { s.plant with req := s.plant.req.set 0 (some r), arrivals := [0] } }

theorem settled_of {s : State} (h1 : s.plant.raised = []) (h2 : s.host.choose = s.host) : s.Settled := ⟨h1, h2⟩

theorem corridor_settled (J : Junction) (x y : Entry) : (corridor J x y).Settled :=
  ⟨rfl, show HostPort.empty.choose = HostPort.empty by decide⟩

/-- An empty table has no record. -/
theorem noRecord {p : Plant} (h : p.req = Vector.replicate 24 none) (i : SlotNo) (r : Request) : p.req[i] ≠ some r := by
  rw [h]
  simp

theorem corridor_noRecord (J : Junction) (x y : Entry) (i : SlotNo) (r : Request) : (corridor J x y).plant.req[i] ≠ some r :=
  noRecord rfl i r

theorem corridor_noCandidate (J : Junction) (x y : Entry) (j : JIdx) : (corridor J x y).plant.NoCandidate j :=
  fun i r h => absurd h (corridor_noRecord J x y i r)

/-- With one record, only slot 0 holds one. -/
theorem oneRecord {J : Junction} {x y : Entry} {q : Request} {i : SlotNo} {r : Request}
    (h : (withRequest q (corridor J x y)).plant.req[i] = some r) : i = 0 ∧ r = q := by
  have e : (withRequest q (corridor J x y)).plant.req = (Vector.replicate 24 none).set 0 (some q) := rfl
  rw [e] at h
  by_cases hi : i = 0
  · subst hi
    simp at h
    exact ⟨rfl, h.symm⟩
  · have : i.val ≠ 0 := fun c => hi (Fin.ext c)
    simp only [Fin.getElem_fin] at h
    rw [Vector.getElem_set_ne (h := fun c => this c.symm)] at h
    simp at h

theorem oneRecord_noCandidateBut (J : Junction) (x y : Entry) (q : Request) (j : JIdx) :
    (withRequest q (corridor J x y)).plant.NoCandidateBut j 0 :=
  fun _ hi _ h _ => absurd (oneRecord h).1 hi

/-! ## Steps and invariants -/

theorem witness_idle : State.reset.pending = [] := rfl

theorem witness_SettledIsKept : ∃ s t : State, s.Settled ∧ step s = .next t :=
  ⟨{ State.reset with pending := [.clockAdvance] }, _, ⟨by decide, by decide⟩, rfl⟩

/-- The corridor at rest is in range. -/
theorem corridor_inRange (J : Junction) (x y : Entry) : (corridor J x y).InRange := by
  refine ⟨⟨show 40 ≤ 90 by decide, show 90 ≤ 200 by decide, show 400 < 900 by decide, ?_, ?_⟩,
    show ScriptUnit.empty.InRange from ⟨fun q i h => by simp [ScriptUnit.empty] at h, by decide, by decide, by simp [ScriptUnit.empty]⟩,
    show HostPort.empty.frames ≤ 16 ∧ HostPort.empty.directives ≤ 4 ∧ HostPort.empty.busyMarks ≤ 8 by decide, ?_⟩
  · intro d h; cases h
  · intro v h; cases h
  · intro i h
    have e : ReportBlock.cold.held = 0 := by decide
    have h' : i < ReportBlock.cold.held := h
    omega

theorem witness_RangesAreKept : ∃ s t : State, s.InRange ∧ step s = .next t :=
  ⟨corridor coordinated band side, _, corridor_inRange _ _ _, rfl⟩

theorem witness_PoolStaysWhole : ∃ s t : State, s.plant.PoolWhole ∧ step s = .next t := by
  refine ⟨{ corridor { coordinated with chain := [0, 1, 2] } band side with pending := [.masterPositionAdvance] }, _, ?_, rfl⟩
  unfold Plant.PoolWhole
  decide +kernel

/-! ## Frames -/

theorem test_crc : crc [0x31, 0x32, 0x33, 0x34, 0x35, 0x36, 0x37, 0x38, 0x39] = 0x29B1#16 := by decide +kernel

theorem test_order_bytes : (LineFrame.order 2 5).wire.take 5 = [0x5A, 3, 1, 3, 5] := by decide +kernel

theorem witness_FramesAreReadBack : ([] : List Byte).length ≤ 247 ∧ reportBodyGood [1, 0, 15, 0, 0, 0, 0, 0] = true := by
  decide

/-! ## Host line and intake -/

theorem witness_Arriving_kept :
    State.reset.host.rx = [] ∧ State.reset.host.restart = .none ∧ State.reset.host.directives < 4 := by decide

/-- Four directives and three BUSY marks in the intake. -/
def crowded : State :=
  { State.reset with
    host := { HostPort.empty with
      intake := List.replicate 4 (.directive 1 0x74 []) ++ List.replicate 3 (.busy 2 0x74) } }

theorem witness_Arriving_busy :
    crowded.host.rx = [] ∧ crowded.host.restart = .none ∧ crowded.host.directives = 4 ∧ crowded.host.busyMarks < 8 := by
  decide

theorem witness_Arriving_discarded :
    (∃ s : State, s.host.rx = [] ∧ s.host.restart ≠ .none) ∧
      ∃ s : State, s.host.rx = [] ∧ 4 ≤ s.host.directives ∧ 8 ≤ s.host.busyMarks :=
  ⟨⟨{ State.reset with host := { HostPort.empty with restart := .answering } }, by decide⟩,
    ⟨{ State.reset with
        host := { HostPort.empty with
          intake := List.replicate 4 (.directive 1 0x74 []) ++ List.replicate 8 (.busy 2 0x74) } }, by decide⟩⟩

theorem witness_BadHostFrame_length : ((2 : Byte).toNat < 3) ∧ 250 < (251 : Byte).toNat := by decide

theorem witness_BadHostFrame_check : ∃ (n : Byte) (payload : List Byte) (c1 c2 : Byte),
    3 ≤ n.toNat ∧ n.toNat ≤ 250 ∧ payload.length = n.toNat ∧ be16 (crc (n :: payload)) ≠ [c1, c2] ∧
      (0xC5 : Byte) ∉ n :: (payload ++ [c1, c2]) :=
  ⟨3, [1, 7, 0x74], 0, 0, by decide +kernel⟩

theorem witness_BadHostFrame_gap : ∃ (s : State) (got : List Byte), s.host.rx = 0xC5 :: got ∧ (0xC5 : Byte) ∉ got :=
  ⟨{ State.reset with host := { HostPort.empty with rx := [0xC5, 3, 1] } }, [3, 1], by decide⟩

theorem witness_Busy : ∃ (s : State) (tag code : Byte), s.host.frames < 16 ∧ s.host.restart = .none ∧
    s.host.intake.head? = some (.busy tag code) :=
  ⟨{ State.reset with host := { HostPort.empty with intake := [.busy 2 0x74] } }, 2, 0x74, by decide⟩

theorem witness_Unknown : ∃ (s : State) (tag code : Byte) (body : List Byte), s.host.frames < 16 ∧ s.host.restart = .none ∧
    s.host.intake.head? = some (.directive tag code body) ∧ ∀ c : Instr, directiveCode c ≠ some code :=
  ⟨asked 0x75 [] State.reset, 7, 0x75, [], by decide, rfl, rfl, fun c => by cases c <;> simp [directiveCode]⟩

theorem witness_Malformed_length : directiveCode .run = some 0x03 ∧ (asked 0x03 [0] State.reset).Takes 7 0x03 [0] ∧
    ([0] : List Byte).length ≠ bodyLength .run [0] := ⟨rfl, asked_takes _ _ _ (by decide) rfl rfl, by decide⟩

theorem witness_Malformed_count : directiveCode .loadStep = some 0x60 ∧
    (asked 0x60 (12 :: 63 :: List.replicate 22 7) State.reset).Takes 7 0x60 (12 :: 63 :: List.replicate 22 7) ∧
    6 < ((12 :: 63 :: List.replicate 22 7 : List Byte).getD 2 0).toNat :=
  ⟨rfl, asked_takes _ _ _ (by decide) rfl rfl, by decide⟩

theorem witness_RowsWait : directiveCode .run = some 0x03 ∧
    (∀ tag body, State.reset.host.intake.head? ≠ some (.directive tag 0x03 body)) ∧
    (∃ s : State, 16 ≤ s.host.frames) ∧ ∃ s : State, s.host.restart ≠ .none :=
  ⟨rfl, fun _ _ h => (by cases h),
    ⟨{ State.reset with host := { HostPort.empty with queue := List.replicate 16 (catchUpFrame .entry) } }, by decide⟩,
    ⟨{ State.reset with host := { HostPort.empty with restart := .answerLeft } }, by decide⟩⟩

/-- A state with a frame leaving and a queue. -/
def sending (q : List OutFrame) : State :=
  { State.reset with
    host := { HostPort.empty with leaving := some (catchUpFrame .spill), queue := q }
    report := { ReportBlock.cold with armed := 0xFF, paused := 0x02, pend := 0x07 } }

theorem witness_NextFrame_answer : ∃ (older : List OutFrame) (g : OutFrame) (newer : List OutFrame),
    (sending [catchUpFrame .entry, answerFrame 1 0x74 [1], catchUpFrame .script]).host.queue = older ++ g :: newer ∧
      (∀ x ∈ older, x.kind = .notice) ∧ g.kind = .answer :=
  ⟨[catchUpFrame .entry], answerFrame 1 0x74 [1], [catchUpFrame .script], rfl, by decide, rfl⟩

theorem witness_NextFrame_notice : (sending [catchUpFrame .entry]).host.leaving = some (catchUpFrame .spill) ∧
    (sending [catchUpFrame .entry]).host.restart = .none ∧
    (sending [catchUpFrame .entry]).host.queue = [catchUpFrame .entry] ∧
    ∀ x ∈ [catchUpFrame .entry], x.kind = OutKind.notice := ⟨rfl, rfl, rfl, by decide⟩

theorem witness_NextFrame_chosen : (sending [catchUpFrame .entry]).host.intake = [] ∧
    (sending [answerFrame 1 0x74 [1]]).host.queue.length ≠ 15 := by decide

/-- The burst of section 10.7: a notice leaving or the line idle, 15 notices queued, and an item in the intake. -/
def burst (line : Option OutFrame) (item : IntakeItem) : State :=
  { State.reset with
    host := { HostPort.empty with leaving := line, queue := List.replicate 15 (catchUpFrame .entry), intake := [item] } }

theorem witness_NextFrame_itemFirst :
    (burst (some (catchUpFrame .spill)) (.busy 5 0x42)).host.leaving = some (catchUpFrame .spill) ∧
      (burst (some (catchUpFrame .spill)) (.busy 5 0x42)).host.restart = .none ∧
      (burst (some (catchUpFrame .spill)) (.busy 5 0x42)).host.intake ≠ [] ∧
      (burst (some (catchUpFrame .spill)) (.busy 5 0x42)).host.queue.length = 15 := by decide

theorem burst_idle (item : IntakeItem) : (burst none item).host.leaving = none ∧ (burst none item).host.restart = .none ∧
    (burst none item).host.queue.length = 15 ∧ ∀ x ∈ (burst none item).host.queue, x.kind = .notice :=
  ⟨rfl, rfl, rfl, show ∀ x ∈ List.replicate 15 (catchUpFrame .entry), x.kind = .notice by decide⟩

theorem witness_NextFrame_busy : ∃ tag code rest, (burst none (.busy 5 0x42)).host.intake = .busy tag code :: rest :=
  ⟨5, 0x42, [], rfl⟩

theorem witness_NextFrame_unknown :
    (∃ tag body rest, (burst none (.directive 5 0x75 [])).host.intake = .directive tag 0x75 body :: rest) ∧
      ∀ c : Instr, directiveCode c ≠ some 0x75 :=
  ⟨⟨5, [], [], rfl⟩, fun c => by cases c <;> simp [directiveCode]⟩

theorem witness_NextFrame_directive : directiveCode .readStatus = some 0x74 ∧
    (burst none (.directive 1 0x74 [])).Takes 1 0x74 [] :=
  ⟨rfl, rfl, show (burst none (.directive 1 0x74 [])).host.frames < 16 by decide, rfl, rfl⟩

/-- "The leaving notice completes": the line waits for D1, so that "Answer D1 takes the line next" (worked burst, section 10.7). -/
theorem test_burst_itemFirst :
    (burst (some (catchUpFrame .spill)) (.directive 1 0x74 [])).frameLeft.host = (burst none (.directive 1 0x74 [])).host := by
  decide

/-- The BUSY answer of the burst goes ahead of the 15 queued notices (section 10.7). -/
theorem test_burst_busyAnswer : (burst none (.busy 5 0x42)).takeBusy.host.leaving = some (answerFrame 5 0x42 []) := by decide

theorem witness_NextFrame_empty : (sending []).host.leaving = some (catchUpFrame .spill) ∧
    (sending []).host.restart = .none ∧ (sending []).host.queue = [] := ⟨rfl, rfl, rfl⟩

theorem witness_Notice_unarmed : hasClass State.reset.report.armed (Notice.recordCount 24).cls = false := by decide

theorem witness_Notice_queued : hasClass (sending []).report.armed (Notice.recordCount 24).cls = true ∧
    hasClass (sending []).report.paused (Notice.recordCount 24).cls = false ∧ (sending []).host.frames < 16 := by decide

theorem witness_Notice_pending : (hasClass (sending []).report.armed (Notice.linkUp 0 .fault).cls = true ∧
      hasClass (sending []).report.paused (Notice.linkUp 0 .fault).cls = true) ∧
    hasClass (sending (List.replicate 15 (catchUpFrame .entry))).report.armed (Notice.recordCount 24).cls = true ∧
    16 ≤ (sending (List.replicate 15 (catchUpFrame .entry))).host.frames := by decide

theorem witness_Notice_reserved : (sending (List.replicate 14 (catchUpFrame .entry))).host.frames + 1 = 16 := by decide

theorem witness_Notice_several : (State.reset.raise (.recordCount 24)).plant.raised = [] ++ [.recordCount 24] ∧
    State.reset.plant.raised = [] := ⟨rfl, rfl⟩

/-! ## Restart and starts -/

theorem witness_Restart_taken : (asked 0x05 [] State.reset).Takes 7 0x05 [] := asked_takes _ _ _ (by decide) rfl rfl

theorem witness_Restart_form : ([0] : List Byte) ≠ [] ∧ (asked 0x05 [0] State.reset).Takes 7 0x05 [0] :=
  ⟨by decide, asked_takes _ _ _ (by decide) rfl rfl⟩

/-- The RESTART answer leaves. -/
def restarting : State :=
  { State.reset with
    host := { HostPort.empty with restart := .answering, leaving := some (answerFrame 7 0x05 [1]), queue := [catchUpFrame .entry] } }

theorem witness_Restart_left : restarting.host.restart = .answering ∧
    restarting.host.leaving = some (answerFrame 7 0x05 [1]) := ⟨rfl, rfl⟩

theorem witness_WarmStart : ({ corridor coordinated band side with
    host := { HostPort.empty with restart := .answerLeft } } : State).host.restart = .answerLeft := rfl

/-! ## Timebase -/

theorem witness_Clock_set : (asked 0x06 [1, 81, 127] State.reset).Takes 7 0x06 [1, 81, 127] ∧
    65536 * (1 : Byte).toNat + 256 * (81 : Byte).toNat + (127 : Byte).toNat < 86400 :=
  ⟨asked_takes _ _ _ (by decide) rfl rfl, by decide⟩

theorem witness_Clock_range : (asked 0x06 [1, 81, 128] State.reset).Takes 7 0x06 [1, 81, 128] ∧
    86400 ≤ 65536 * (1 : Byte).toNat + 256 * (81 : Byte).toNat + (128 : Byte).toNat :=
  ⟨asked_takes _ _ _ (by decide) rfl rfl, by decide⟩

theorem witness_Clock_form : (asked 0x06 [1, 81] State.reset).Takes 7 0x06 [1, 81] ∧ ([1, 81] : List Byte).length ≠ 3 :=
  ⟨asked_takes _ _ _ (by decide) rfl rfl, by decide⟩

/-- A state whose time of day is set and due at a part time. -/
def clocked (tod due : Nat) : State := { State.reset with now := 50, tb := { Timebase.cold with tod := some tod, todDue := due } }

theorem witness_ClockAdvance : ((clocked 86398 50).tb.tod = some 86398 ∧ (86398 : Nat) < 86399 ∧
      (clocked 86398 50).tb.todDue ≤ (clocked 86398 50).now) ∧
    ((clocked 86399 50).tb.tod = some 86399 ∧ (clocked 86399 50).tb.todDue ≤ (clocked 86399 50).now) ∧
    State.reset.tb.tod = none ∧ (clocked 5 51).now < (clocked 5 51).tb.todDue := by decide

theorem witness_Tenth : (corridor coordinated (served band 5) side).Settled ∧
    (corridor coordinated (served band 5) side).tb.m + 1 < 10 * (corridor coordinated (served band 5) side).tb.c ∧
    (corridor coordinated (served band 5) side).plant.pool[(1 : EntryNo)].status = .serving ∧
    (corridor coordinated (served band 5) side).plant.pool[(2 : EntryNo)].status ≠ .serving ∧
    (corridor coordinated (served band 5) side).plant.jn[(1 : JIdx)].state = .absent ∧
    (corridor coordinated (served band 5) side).plant.jn[(0 : JIdx)].state ≠ .absent ∧
    (corridor coordinated (served band 5) side).plant.jn[(0 : JIdx)].minWait = none :=
  ⟨corridor_settled _ _ _, by decide +kernel⟩

/-- The last tenth of a master cycle, with a staged set. -/
def wrapping (v : Option CorridorSet) : State :=
  { corridor coordinated (served band 5) side with
    tb := { Timebase.cold with corridor := .coordinating, m := 899, staged := v } }

theorem witness_MasterZero : (10 * (wrapping none).tb.c ≤ (wrapping none).tb.m + 1 ∧ (wrapping none).script.notBefore = [] ∧
      (wrapping none).script.running[masterQueue] = false ∧ (wrapping none).tb.staged = none) ∧
    (∀ j : JIdx, ¬((wrapping (some { c := 100, dir := .outbound, wait := 9 })).plant.jn[j].state ≠ .absent ∧
      ((100 % 2 = 1 ∧ (wrapping none).plant.jn[j].plan.mult = 2) ∨
        100 ≤ (wrapping none).plant.jn[j].plan.offset * (wrapping none).plant.jn[j].plan.mult ∨
        100 < feasibilitySum ((wrapping none).plant.chainEntries j) (wrapping none).plant.jn[j].plan.a *
          (wrapping none).plant.jn[j].plan.mult))) ∧
    40 < feasibilitySum ((wrapping none).plant.chainEntries 0) (wrapping none).plant.jn[(0 : JIdx)].plan.a *
          (wrapping none).plant.jn[(0 : JIdx)].plan.mult := by decide +kernel

/-! ## Configuration -/

/-- A READY corridor with junction 0 LOCAL NOT_RUNNING. -/
def ready (J : Junction) : State :=
  let s := corridor J band side
  { s with tb := { s.tb with corridor := .ready } }

/-- The values in force fit a C at every present junction. -/
def FitsEverywhere (s : State) (c : Nat) : Prop :=
  ∀ j : JIdx, s.plant.jn[j].state ≠ .absent → s.plant.jn[j].stagedPlan = none ∧
    ¬(c % 2 = 1 ∧ s.plant.jn[j].plan.mult = 2) ∧ s.plant.jn[j].plan.offset * s.plant.jn[j].plan.mult < c ∧
    feasibilitySum (s.plant.chainEntries j) s.plant.jn[j].plan.a * s.plant.jn[j].plan.mult ≤ c

theorem witness_Corridor_staged :
    (asked 0x01 [100, 2, 9] (corridor coordinated band side)).Takes 7 0x01 [100, 2, 9] ∧ Direction.outbound.code = 2 ∧
      FitsEverywhere (asked 0x01 [100, 2, 9] (corridor coordinated band side)) 100 ∧
      (asked 0x01 [100, 2, 9] (corridor coordinated band side)).tb.corridor = .coordinating :=
  ⟨asked_takes _ _ _ (by decide) rfl rfl, rfl, by unfold FitsEverywhere; decide +kernel, rfl⟩

theorem witness_Corridor_now :
    (asked 0x01 [100, 2, 9] (ready { coordinated with state := .loc .notRunning })).Takes 7 0x01 [100, 2, 9] ∧
      FitsEverywhere (asked 0x01 [100, 2, 9] (ready { coordinated with state := .loc .notRunning })) 100 ∧
      (asked 0x01 [100, 2, 9] (ready { coordinated with state := .loc .notRunning })).tb.corridor ≠ .coordinating :=
  ⟨asked_takes _ _ _ (by decide) rfl rfl, by unfold FitsEverywhere; decide +kernel, by decide⟩

theorem witness_Corridor_range : (asked 0x01 [39, 2, 9] State.reset).Takes 7 0x01 [39, 2, 9] ∧
    ¬(40 ≤ (39 : Byte).toNat ∧ (39 : Byte).toNat ≤ 200 ∧ 5 ≤ (9 : Byte).toNat) :=
  ⟨asked_takes _ _ _ (by decide) rfl rfl, by decide⟩

/-- Plan values with multiple 2 and offset 10. -/
def plan : Plan := { mult := 2, offset := 10, a := 5, ext := 30, hold := 240, wait := 255, stuck := 900 }

/-- Their CONFIGURE JUNCTION body for junction 0. -/
def planBody : List Byte := [0, 1, 2, 10, 5, 30, 240, 255, 3, 132]

theorem witness_Junction_values : plan.stuck = 256 * (3 : Byte).toNat + (132 : Byte).toNat ∧ 1 ≤ plan.mult ∧ plan.mult ≤ 2 ∧
    3 ≤ plan.a ∧ plan.a ≤ 12 ∧ plan.ext ≤ 30 ∧ 30 ≤ plan.hold ∧ plan.hold ≤ 240 ∧ 5 ≤ plan.wait ∧ plan.wait ≤ 255 ∧
    (plan.stuck = 0 ∨ 60 ≤ plan.stuck ∧ plan.stuck ≤ 900) ∧ plan.offset * plan.mult < 90 ∧ (90 : Nat) ≤ 200 ∧
    (plan.mult = 2 → 90 % 2 = 0) ∧ planBody = [byte (0 : JIdx).val, 1, byte plan.mult, byte plan.offset, byte plan.a,
      byte plan.ext, byte plan.hold, byte plan.wait, 3, 132] := by decide

theorem witness_Junction_present : (asked 0x02 planBody State.reset).Takes 7 0x02 planBody ∧
    (asked 0x02 planBody State.reset).tb.staged = none ∧ (asked 0x02 planBody State.reset).tb.c = 90 ∧
    (asked 0x02 planBody State.reset).plant.jn[(0 : JIdx)].state = .absent ∧
    (asked 0x02 planBody State.reset).tb.corridor ≠ .coordinating ∧
    (asked 0x02 planBody State.reset).plant.jn[(0 : JIdx)].line.mode = none :=
  ⟨asked_takes _ _ _ (by decide) rfl rfl, by decide +kernel⟩

theorem witness_Junction_staged : (asked 0x02 planBody (corridor coordinated band side)).Takes 7 0x02 planBody ∧
    (asked 0x02 planBody (corridor coordinated band side)).plant.jn[(0 : JIdx)].state = .inStep :=
  ⟨asked_takes _ _ _ (by decide) rfl rfl, by decide +kernel⟩

/-- A CONFIGURE JUNCTION body with the present flag clear. -/
def absentBody : List Byte := [0, 0, 1, 0, 5, 10, 120, 60, 0, 0]

theorem witness_Absent_done : (asked 0x02 absentBody State.reset).Takes 7 0x02 absentBody ∧
    (asked 0x02 absentBody State.reset).plant.jn[(0 : JIdx)].state = .absent :=
  ⟨asked_takes _ _ _ (by decide) rfl rfl, by decide +kernel⟩

theorem witness_Absent_state : (asked 0x02 absentBody (corridor coordinated band side)).Takes 7 0x02 absentBody ∧
    (asked 0x02 absentBody (corridor coordinated band side)).plant.jn[(0 : JIdx)].state ≠ .absent ∧
    (asked 0x02 absentBody (corridor coordinated band side)).tb.corridor = .coordinating :=
  ⟨asked_takes _ _ _ (by decide) rfl rfl, by decide +kernel⟩

theorem witness_Absent_inUse :
    (asked 0x02 absentBody (ready { coordinated with state := .loc .notRunning })).Takes 7 0x02 absentBody ∧
    (asked 0x02 absentBody (ready { coordinated with state := .loc .notRunning })).plant.jn[(0 : JIdx)].state ≠ .absent ∧
    (asked 0x02 absentBody (ready { coordinated with state := .loc .notRunning })).tb.corridor ≠ .coordinating ∧
    (asked 0x02 absentBody (ready { coordinated with state := .loc .notRunning })).plant.jn[(0 : JIdx)].chain ≠ [] :=
  ⟨asked_takes _ _ _ (by decide) rfl rfl, by decide +kernel⟩

theorem witness_Absent_made :
    (asked 0x02 absentBody (ready { coordinated with state := .loc .notRunning, chain := [] })).Takes 7 0x02 absentBody ∧
    (ready { coordinated with state := .loc .notRunning, chain := [] }).plant.jn[(0 : JIdx)].state ≠ .absent ∧
    (ready { coordinated with state := .loc .notRunning, chain := [] }).tb.corridor ≠ .coordinating ∧
    (ready { coordinated with state := .loc .notRunning, chain := [] }).plant.jn[(0 : JIdx)].chain = [] ∧
    ∀ i ∈ (ready { coordinated with state := .loc .notRunning, chain := [] }).script.queues[junctionQueue 0],
      i = Item.endMark := ⟨asked_takes _ _ _ (by decide) rfl rfl, by decide +kernel⟩

theorem witness_Run : (asked 0x03 [] (ready { coordinated with state := .loc .notRunning })).Takes 7 0x03 [] ∧
    (asked 0x03 [] (ready { coordinated with state := .loc .notRunning })).tb.corridor = .ready ∧
    (asked 0x03 [] (ready { coordinated with state := .loc .notRunning })).plant.jn[(0 : JIdx)].state = .loc .notRunning ∧
    (asked 0x03 [] (ready { coordinated with state := .loc .notRunning })).plant.jn[(0 : JIdx)].line.mode =
      some .coordReady ∧
    (asked 0x03 [] (ready { coordinated with state := .loc .notRunning })).plant.jn[(1 : JIdx)].state ≠ .loc .notRunning :=
  ⟨asked_takes _ _ _ (by decide) rfl rfl, by decide +kernel⟩

theorem witness_Run_refused : (asked 0x03 [] State.reset).Takes 7 0x03 [] ∧ (asked 0x03 [] State.reset).tb.corridor ≠ .ready :=
  ⟨asked_takes _ _ _ (by decide) rfl rfl, by decide⟩

theorem witness_Stop : (asked 0x04 [] (corridor coordinated band side)).Takes 7 0x04 [] ∧
    (asked 0x04 [] (corridor coordinated band side)).tb.corridor = .coordinating ∧
    (asked 0x04 [] (corridor coordinated band side)).plant.jn[(0 : JIdx)].state.coordinated = true ∧
    (asked 0x04 [] (corridor coordinated band side)).plant.jn[(0 : JIdx)].line.mode = some .coordReady ∧
    (corridor { coordinated with state := .solo .link } band side).plant.jn[(0 : JIdx)].state = .solo .link ∧
    (corridor { coordinated with state := .loc .noBand } band side).plant.jn[(0 : JIdx)].state = .loc .noBand :=
  ⟨asked_takes _ _ _ (by decide) rfl rfl, by decide +kernel⟩

theorem witness_Stop_refused : (asked 0x04 [] State.reset).Takes 7 0x04 [] ∧
    (asked 0x04 [] State.reset).tb.corridor ≠ .coordinating := ⟨asked_takes _ _ _ (by decide) rfl rfl, by decide⟩

theorem witness_BandStartError : 2 * 449 < 900 ∧ 900 ≤ 2 * 450 ∧ 450 ≤ 900 := by decide

/-- A local cycle ends while the BAND entry is green. -/
def cycleEnding : State := corridor { coordinated with p := 900 } (served band 100) side

theorem witness_CycleStart : cycleEnding.plant.jn[(0 : JIdx)].state = .inStep ∧
    cycleEnding.plant.jn[(0 : JIdx)].p = cycleEnding.plant.jn[(0 : JIdx)].span ∧
    cycleEnding.plant.jn[(0 : JIdx)].level = 0 ∧ cycleEnding.plant.jn[(0 : JIdx)].chain = 1 :: [2] ∧
    cycleEnding.plant.pool[(1 : EntryNo)].role = .band ∧ cycleEnding.plant.pool[(1 : EntryNo)].status = .serving ∧
    cycleEnding.plant.jn[(0 : JIdx)].stagedPlan = none ∧
    (∀ i ∈ cycleEnding.plant.jn[(0 : JIdx)].chain, cycleEnding.plant.pool[i].staged = none) ∧
    cycleEnding.plant.jn[(0 : JIdx)].guard.staged = none ∧ cycleEnding.plant.jn[(0 : JIdx)].det.stagedMap = none ∧
    cycleEnding.script.running[junctionQueue 0] = false ∧ cycleEnding.plant.raised = [] ∧
    cycleEnding.plant.planFeasible 0 cycleEnding.tb.c = true ∧
    10 * cycleEnding.plant.jn[(0 : JIdx)].plan.a <
      cycleTenths cycleEnding.tb.c cycleEnding.plant.jn[(0 : JIdx)].plan.mult ∧
    cycleEnding.report.held < 47 := by decide +kernel

theorem witness_CycleStart_quiet : cycleEnding.plant.NoCandidate 0 := corridor_noCandidate _ _ _ 0

/-! ## Chains -/

/-- An APPEND ENTRY body for junction 0: a RECALL SIDE entry of stage 5 with the least minimum, split and passage. -/
def appendBody : List Byte := [0, 5, 2, 1, 1, 4, 4, 10, 3, 1]

theorem appendBody_eq : appendBody = [byte (0 : JIdx).val, byte ((4 : Stage).val + 1), Role.side.code, EntryKind.recurring.code,
    Demand.recall.code, byte 4, byte 4, byte 10, byte 3, if true then 1 else 0] := by decide

theorem witness_Append_absent : (asked 0x10 appendBody State.reset).Takes 7 0x10 appendBody ∧
    (asked 0x10 appendBody State.reset).plant.jn[(0 : JIdx)].state = .absent :=
  ⟨asked_takes _ _ _ (by decide) rfl rfl, by decide +kernel⟩

/-- An APPEND ENTRY body for junction 0: a BAND entry of stage 5. -/
def bandBody : List Byte := [0, 5, 1, 1, 1, 60, 150, 99, 0, 0]

theorem witness_Append_band : (asked 0x10 bandBody (corridor coordinated band side)).Takes 7 0x10 bandBody ∧
    bandBody = [byte (0 : JIdx).val, byte ((4 : Stage).val + 1), Role.band.code, EntryKind.recurring.code,
      Demand.recall.code, byte 60, byte 150, byte 99, byte 0, if false then 1 else 0] ∧
    (asked 0x10 bandBody (corridor coordinated band side)).plant.jn[(0 : JIdx)].state ≠ .absent ∧
    ∃ x ∈ (asked 0x10 bandBody (corridor coordinated band side)).plant.chainEntries 0, x.role = .band :=
  ⟨asked_takes _ _ _ (by decide) rfl rfl, by decide +kernel⟩

theorem witness_Append_placed : (asked 0x10 appendBody (corridor coordinated band side)).Takes 7 0x10 appendBody ∧
    (corridor coordinated band side).plant.jn[(0 : JIdx)].state ≠ .absent ∧
    (corridor coordinated band side).plant.hostCount 0 < 14 ∧ (corridor coordinated band side).plant.hostTotal < 104 ∧
    (corridor coordinated band side).plant.free = 3 :: (List.finRange 128).drop 4 ∧
    (3 : EntryNo) ∉ (corridor coordinated band side).plant.jn[(0 : JIdx)].chain ∧
    (feasibilitySum ((corridor coordinated band side).plant.chainEntries 0) 5 + 5 + 4) * 1 ≤ 90 ∧
    (corridor coordinated band side).plant.jn[(0 : JIdx)].plan.a = 5 ∧
    (corridor coordinated band side).plant.jn[(0 : JIdx)].plan.mult = 1 ∧
    (corridor coordinated band side).plant.jn[(0 : JIdx)].dwell = false :=
  ⟨asked_takes _ _ _ (by decide) rfl rfl, by decide +kernel⟩

/-- An INSERT ENTRY body for junction 0: a CALL entry of stage 5. -/
def insertBody : List Byte := [0, 5, 2, 4, 4, 10, 3, 1]

theorem insertBody_eq : insertBody = [byte (0 : JIdx).val, byte ((4 : Stage).val + 1), Demand.call.code, byte 4, byte 4,
    byte 10, byte 3, if true then 1 else 0] := by decide

theorem witness_Insert_behindTop : (asked 0x11 insertBody (corridor coordinated band side)).Takes 7 0x11 insertBody ∧
    (corridor coordinated band side).plant.jn[(0 : JIdx)].chain = [1] ++ [2] ∧
    (corridor coordinated band side).plant.jn[(0 : JIdx)].stack = [] ∧ ([1] : List EntryNo).length = 1 :=
  ⟨asked_takes _ _ _ (by decide) rfl rfl, by decide +kernel⟩

theorem witness_Insert_empty :
    (asked 0x11 insertBody (ready { coordinated with state := .loc .notRunning, chain := [] })).Takes 7 0x11 insertBody ∧
    (ready { coordinated with state := .loc .notRunning, chain := [] }).plant.jn[(0 : JIdx)].chain = [] ++ [] :=
  ⟨asked_takes _ _ _ (by decide) rfl rfl, by decide +kernel⟩

/-- A service entry stands over the interrupted entry 1. -/
def interrupted : Junction :=
  { coordinated with
    level := 5, chain := [3, 1, 2], stack := [{ slot := 0, entry := 1, saved := 120, minReached := true, prior := 0 }] }

theorem witness_Insert_behindInterrupted :
    (asked 0x11 insertBody (corridor interrupted side side)).Takes 7 0x11 insertBody ∧
    (corridor interrupted side side).plant.jn[(0 : JIdx)].chain = [3, 1] ++ [2] ∧
    (corridor interrupted side side).plant.jn[(0 : JIdx)].stack =
      [] ++ [({ slot := 0, entry := 1, saved := 120, minReached := true, prior := 0 } : Context)] ∧
    ([3, 1] : List EntryNo) = [3] ++ [1] ∧ (1 : EntryNo) ∉ ([3] : List EntryNo) :=
  ⟨asked_takes _ _ _ (by decide) rfl rfl, by decide +kernel⟩

theorem witness_Remove_noSuch : (asked 0x13 [0, 9] (corridor coordinated band side)).Takes 7 0x13 [0, 9] ∧
    (9 : EntryNo) ∉ (corridor coordinated band side).plant.jn[(0 : JIdx)].chain :=
  ⟨asked_takes _ _ _ (by decide) rfl rfl, by decide +kernel⟩

theorem witness_Remove_inUse : (asked 0x13 [0, 1] (corridor coordinated (served band 5) side)).Takes 7 0x13 [0, 1] ∧
    (1 : EntryNo) ∈ (corridor coordinated (served band 5) side).plant.jn[(0 : JIdx)].chain ∧
    (corridor coordinated (served band 5) side).plant.pool[(1 : EntryNo)].status = .serving :=
  ⟨asked_takes _ _ _ (by decide) rfl rfl, by decide +kernel⟩

theorem witness_Remove_band : (asked 0x13 [0, 1] (corridor coordinated band side)).Takes 7 0x13 [0, 1] ∧
    (1 : EntryNo) ∈ (corridor coordinated band side).plant.jn[(0 : JIdx)].chain ∧
    (corridor coordinated band side).plant.pool[(1 : EntryNo)].origin = .host ∧
    (corridor coordinated band side).plant.pool[(1 : EntryNo)].status ≠ .serving ∧
    (corridor coordinated band side).plant.jn[(0 : JIdx)].order = none ∧
    (corridor coordinated band side).plant.jn[(0 : JIdx)].stack = [] ∧
    (corridor coordinated band side).plant.pool[(1 : EntryNo)].role = .band ∧
    (corridor coordinated band side).plant.jn[(0 : JIdx)].state.coordinated = true :=
  ⟨asked_takes _ _ _ (by decide) rfl rfl, by decide +kernel⟩

theorem witness_Remove_done : (asked 0x13 [0, 2] (corridor coordinated band side)).Takes 7 0x13 [0, 2] ∧
    (2 : EntryNo) ∈ (corridor coordinated band side).plant.jn[(0 : JIdx)].chain ∧
    (corridor coordinated band side).plant.pool[(2 : EntryNo)].origin = .host ∧
    (corridor coordinated band side).plant.pool[(2 : EntryNo)].role = .side ∧
    (corridor coordinated band side).plant.pool[(2 : EntryNo)].status ≠ .serving ∧
    (corridor coordinated band side).plant.jn[(0 : JIdx)].dwell = false :=
  ⟨asked_takes _ _ _ (by decide) rfl rfl, by decide +kernel⟩

/-- An AMEND ENTRY body for entry 2 of junction 0 with values for all six fields. -/
def amendBody (demand : Demand) (split minimum : Nat) : List Byte :=
  [0, 2, 0x3F, byte split, byte minimum, 45, demand.code, 1, 3]

/-- The amendment it carries. -/
def amendment (demand : Demand) (split minimum : Nat) : Amendment :=
  { split := some split, minimum := some minimum, passage := some 45, demand := some demand, notify := some true
    allowance := some 3 }

theorem amendBody_eq : amendBody .call 150 60 = [byte (0 : JIdx).val, byte (2 : EntryNo).val,
    State.amendMarks (amendment .call 150 60), byte 150, byte 60, byte 45, Demand.call.code, 1, byte 3] := by decide

/-- An AMEND ENTRY body with a value for the split of entry 2 alone. -/
def amendSplit (split : Nat) : List Byte := [0, 2, 1, byte split, 0, 0, 0, 0, 0]

theorem amendSplit_eq : amendSplit 9 = [byte (0 : JIdx).val, byte (2 : EntryNo).val,
    State.amendMarks ⟨some 9, none, none, none, none, none⟩, byte 9, 0, 0, 0, 0, 0] := by decide

/-- Entry 2 with a staged amendment of its minimum. -/
def amended : Entry := { side with staged := some ⟨none, some 30, none, none, none, none⟩ }

theorem witness_Amend_noSuch : (asked 0x12 (amendSplit 9) State.reset).Takes 7 0x12 (amendSplit 9) ∧
    (2 : EntryNo) ∉ State.reset.plant.jn[(0 : JIdx)].chain := ⟨asked_takes _ _ _ (by decide) rfl rfl, by decide +kernel⟩

theorem witness_Amend_inUse :
    (asked 0x12 (amendSplit 20) (corridor coordinated band { side with origin := .service })).Takes 7 0x12 (amendSplit 20) ∧
    (2 : EntryNo) ∈ (corridor coordinated band { side with origin := .service }).plant.jn[(0 : JIdx)].chain ∧
    (corridor coordinated band { side with origin := .service }).plant.pool[(2 : EntryNo)].origin = .service :=
  ⟨asked_takes _ _ _ (by decide) rfl rfl, by decide +kernel⟩

/-- The staged minimum of 30 s decides: a split of 29 s is refused, all six values are staged in place of it. -/
theorem witness_Amend_staged :
    ((asked 0x12 (amendBody .call 150 60) (corridor coordinated band amended)).Takes 7 0x12 (amendBody .call 150 60) ∧
      (asked 0x12 (amendSplit 29) (corridor coordinated band amended)).Takes 7 0x12 (amendSplit 29)) ∧
    (2 : EntryNo) ∈ (corridor coordinated band amended).plant.jn[(0 : JIdx)].chain ∧
    (corridor coordinated band amended).plant.pool[(2 : EntryNo)].origin = .host ∧
    (corridor coordinated band amended).plant.jn[(0 : JIdx)].state.coordinated = true ∧
    (((corridor coordinated band amended).plant.pool[(2 : EntryNo)].staged.bind Amendment.minimum).getD
      (corridor coordinated band amended).plant.pool[(2 : EntryNo)].minimum) = 30 ∧
    (corridor coordinated band amended).plant.pool[(2 : EntryNo)].role = .side :=
  ⟨⟨asked_takes _ _ _ (by decide) rfl rfl, asked_takes _ _ _ (by decide) rfl rfl⟩, by decide +kernel⟩

/-- Outside coordination the staged minimum does not count: the split of 29 s is taken. -/
theorem witness_Amend_now : ((asked 0x12 (amendSplit 29) (corridor { coordinated with state := .loc .noBand } band amended)).Takes
      7 0x12 (amendSplit 29)) ∧
    (2 : EntryNo) ∈ (corridor { coordinated with state := .loc .noBand } band amended).plant.jn[(0 : JIdx)].chain ∧
    (corridor { coordinated with state := .loc .noBand } band amended).plant.jn[(0 : JIdx)].state.coordinated = false ∧
    (corridor { coordinated with state := .loc .noBand } band amended).plant.pool[(2 : EntryNo)].minimum ≤ 29 ∧
    (corridor { coordinated with state := .loc .noBand } band amended).plant.pool[(2 : EntryNo)].origin = .host :=
  ⟨asked_takes _ _ _ (by decide) rfl rfl, by decide +kernel⟩

/-- CALL for a BAND entry is out of range. -/
theorem witness_Amend_range : (asked 0x12 (amendBody .call 150 60) (corridor coordinated side band)).Takes 7 0x12
      (amendBody .call 150 60) ∧
    (corridor coordinated side band).plant.pool[(2 : EntryNo)].role = .band ∧ (amendment .call 150 60).demand = some .call ∧
    ¬(4 ≤ (3 : Nat)) ∧ 60 < (61 : Nat) ∧ 150 < (151 : Nat) ∧ 99 < (100 : Nat) ∧ 3 < (4 : Nat) ∧ (255 : Nat) ≤ 255 :=
  ⟨asked_takes _ _ _ (by decide) rfl rfl, by decide +kernel⟩

/-! ## Reading -/

theorem witness_Reads : (asked 0x14 [11, 15] State.reset).Takes 7 0x14 [byte (11 : JIdx).val, byte 15] ∧
    (asked 0x22 [11] State.reset).Takes 7 0x22 [byte (11 : JIdx).val] ∧
    (asked 0x31 [11] State.reset).Takes 7 0x31 [byte (11 : JIdx).val] ∧
    (asked 0x42 [23] State.reset).Takes 7 0x42 [byte 23] ∧ (asked 0x63 [] State.reset).Takes 7 0x63 [] ∧
    (asked 0x74 [] State.reset).Takes 7 0x74 [] :=
  ⟨asked_takes _ _ _ (by decide) rfl rfl, asked_takes _ _ _ (by decide) rfl rfl, asked_takes _ _ _ (by decide) rfl rfl,
    asked_takes _ _ _ (by decide) rfl rfl, asked_takes _ _ _ (by decide) rfl rfl, asked_takes _ _ _ (by decide) rfl rfl⟩

theorem witness_Reads_refused : (asked 0x14 [12, 15] State.reset).Takes 7 0x14 [12, 15] ∧ 11 < (12 : Byte).toNat ∧
    (asked 0x14 [11, 16] State.reset).Takes 7 0x14 [11, 16] ∧ 15 < (16 : Byte).toNat ∧
    (asked 0x22 [12] State.reset).Takes 7 0x22 [12] ∧ (asked 0x31 [12] State.reset).Takes 7 0x31 [12] ∧
    (asked 0x42 [24] State.reset).Takes 7 0x42 [byte 24] :=
  ⟨asked_takes _ _ _ (by decide) rfl rfl, by decide, asked_takes _ _ _ (by decide) rfl rfl, by decide,
    asked_takes _ _ _ (by decide) rfl rfl, asked_takes _ _ _ (by decide) rfl rfl, asked_takes _ _ _ (by decide) rfl rfl⟩

/-- The lengths section 11.4 gives: 98 bytes for READ JUNCTION, 26 for an entry, 20 for a request. -/
theorem test_layout_lengths : (Layout.junction 1000 (corridor coordinated band side).plant 0).length = 98 ∧
    (Layout.entries (corridor coordinated band side).plant 0 0).length = 52 ∧
    (Layout.detectors 1000 Detectors.cold).length = 117 := by decide +kernel

/-! ## Recovery, detectors, guard -/

theorem witness_Repair : ((asked 0x20 [0] State.reset).Takes 7 0x20 [byte (0 : JIdx).val] ∧
      (asked 0x20 [0] State.reset).plant.jn[(0 : JIdx)].state ≠ .solo .stall) ∧
    (asked 0x20 [0] (corridor { coordinated with state := .solo .stall } band { side with status := .stalled })).Takes 7 0x20
      [byte (0 : JIdx).val] ∧
    (corridor { coordinated with state := .solo .stall } band { side with status := .stalled }).plant.jn[(0 : JIdx)].state =
      .solo .stall ∧
    (corridor { coordinated with state := .solo .stall } band { side with status := .stalled }).plant.jn[(0 : JIdx)].line.mode =
      some .coordReady :=
  ⟨⟨asked_takes _ _ _ (by decide) rfl rfl, by decide +kernel⟩, asked_takes _ _ _ (by decide) rfl rfl, by decide +kernel⟩

theorem witness_Rejoin_infeasible :
    (asked 0x21 [0] (corridor { coordinated with state := .solo .plan } band { side with minimum := 90 })).Takes 7 0x21
      [byte (0 : JIdx).val] ∧
    (corridor { coordinated with state := .solo .plan } band { side with minimum := 90 }).plant.jn[(0 : JIdx)].state =
      .solo .plan ∧
    90 < feasibilitySum ((corridor { coordinated with state := .solo .plan } band
      { side with minimum := 90 }).plant.chainEntries 0) 5 * 1 :=
  ⟨asked_takes _ _ _ (by decide) rfl rfl, by decide +kernel⟩

theorem witness_Rejoin_done :
    (asked 0x21 [0] (corridor { coordinated with state := .solo .plan } band side)).Takes 7 0x21 [byte (0 : JIdx).val] ∧
    (corridor { coordinated with state := .solo .plan } band side).plant.jn[(0 : JIdx)].state = .solo .plan ∧
    feasibilitySum ((corridor { coordinated with state := .solo .plan } band side).plant.chainEntries 0) 5 * 1 ≤ 90 ∧
    (corridor { coordinated with state := .solo .plan } band side).plant.jn[(0 : JIdx)].line.mode = some .coordReady :=
  ⟨asked_takes _ _ _ (by decide) rfl rfl, by decide +kernel⟩

/-- A map of every function, stage 1 and stage 8 among them. -/
def allFunctions : Vector DetFn 24 :=
  ((((Detectors.cold.map.set 0 (.call 0)).set 1 (.extend 7)).set 2 (.callExtend 2)).set 3 .exitIn).set 23 .exitOut

/-- The MAP DETECTORS body for junction 0 that carries a map, with spare bytes of FFh. -/
def mapBody (m : Vector DetFn 24) : List Byte :=
  byte (0 : JIdx).val :: (List.finRange 24).flatMap fun d => m[d].mapBytes (Vector.replicate 24 0xFF)[d]

/-- A LOCAL junction with detector 4 STUCK, its rows valid, detector 5 and 1 occupied, and DETECTOR notices ARMED. -/
def stuckLocal : State :=
  let s := corridor { coordinated with
    state := .loc .noBand
    det := { Detectors.cold with
      map := Detectors.cold.map.set 4 (.call 3), stuck := Detectors.cold.stuck.set 4 true, rowsValid := true
      rows := Detectors.cold.rows.set 1 true, timers := Detectors.cold.timers.set 4 (some 5) } } band side
  { s with report := { s.report with armed := NoticeClass.detector.mask } }

theorem witness_Map : ((asked 0x30 (mapBody allFunctions) (corridor coordinated band side)).Takes 7 0x30 (mapBody allFunctions) ∧
      (corridor coordinated band side).plant.jn[(0 : JIdx)].state.coordinated = true) ∧
    ((asked 0x30 (mapBody allFunctions) State.reset).Takes 7 0x30 (mapBody allFunctions) ∧
      State.reset.plant.jn[(0 : JIdx)].state = .absent) ∧
    (asked 0x30 (mapBody allFunctions) stuckLocal).Takes 7 0x30 (mapBody allFunctions) ∧
    (∀ d e : DetIdx, d ≠ e → ¬(allFunctions[d] = .exitIn ∧ allFunctions[e] = .exitIn) ∧
      ¬(allFunctions[d] = .exitOut ∧ allFunctions[e] = .exitOut)) ∧
    (asked 0x30 (mapBody (allFunctions.set 22 .exitIn)) State.reset).Takes 7 0x30 (mapBody (allFunctions.set 22 .exitIn)) ∧
    (allFunctions.set 22 .exitIn)[(22 : DetIdx)] = .exitIn ∧ (allFunctions.set 22 .exitIn)[(3 : DetIdx)] = .exitIn ∧
    (asked 0x30 (mapBody (allFunctions.set 22 .exitOut)) State.reset).Takes 7 0x30 (mapBody (allFunctions.set 22 .exitOut)) ∧
    (allFunctions.set 22 .exitOut)[(22 : DetIdx)] = .exitOut ∧ (allFunctions.set 22 .exitOut)[(23 : DetIdx)] = .exitOut :=
  ⟨⟨asked_takes _ _ _ (by decide) rfl rfl, by decide +kernel⟩, ⟨asked_takes _ _ _ (by decide) rfl rfl, by decide +kernel⟩,
    asked_takes _ _ _ (by decide) rfl rfl, by decide +kernel, asked_takes _ _ _ (by decide) rfl rfl, by decide, by decide,
    asked_takes _ _ _ (by decide) rfl rfl, by decide, by decide⟩

/-- The detectors of that LOCAL junction under the map: 4 drops its function and was STUCK, 1 takes one up while occupied; the one
notice has room. -/
theorem witness_Map_applied : stuckLocal.plant.jn[(0 : JIdx)].state.coordinated = false ∧
    stuckLocal.plant.jn[(0 : JIdx)].det.map[(4 : DetIdx)] ≠ .none ∧ allFunctions[(4 : DetIdx)] = .none ∧
    stuckLocal.plant.jn[(0 : JIdx)].det.stuck[(4 : DetIdx)] = true ∧
    stuckLocal.plant.jn[(0 : JIdx)].det.map[(1 : DetIdx)] = .none ∧ allFunctions[(1 : DetIdx)] ≠ .none ∧
    stuckLocal.plant.jn[(0 : JIdx)].det.rowsValid = true ∧ stuckLocal.plant.jn[(0 : JIdx)].det.rows[(1 : DetIdx)] = true ∧
    hasClass stuckLocal.report.armed .detector = true ∧ hasClass stuckLocal.report.paused .detector = false ∧
    stuckLocal.host.frames + 1 < 16 ∧ stuckLocal.plant.jn[(0 : JIdx)].guard.probe.active = false := by decide +kernel

/-- R78, R87: a STUCK detector whose function becomes NONE ceases to be STUCK, with a CLEARED notice of reason MAP. -/
theorem test_map_clearsStuck : ∃ t, exec .mapDetectors (asked 0x30 (mapBody allFunctions) stuckLocal) = .next t ∧
    t.plant.jn[(0 : JIdx)].det.stuck[(4 : DetIdx)] = false ∧
    t.host.notices = [{ kind := .notice, tag := 0, code := 4, body := [2, 0, 4, 2] }] := ⟨_, rfl, by decide +kernel⟩

/-- Bodies that MAP DETECTORS refuses: 50 bytes, junction 12, code 6; stage 0 and stage 9 of a function that carries one. -/
theorem witness_Map_refused :
    (asked 0x30 (List.replicate 50 0) State.reset).Takes 7 0x30 (List.replicate 50 0) ∧
    (asked 0x30 (12 :: List.replicate 48 0) State.reset).Takes 7 0x30 (12 :: List.replicate 48 0) ∧
    (asked 0x30 (11 :: 6 :: List.replicate 47 0) State.reset).Takes 7 0x30 (11 :: 6 :: List.replicate 47 0) ∧
    (5 < ((11 :: 6 :: List.replicate 47 0 : List Byte).getD (2 * (0 : DetIdx).val + 1) 0).toNat) ∧
    (asked 0x30 (11 :: 1 :: List.replicate 47 0) State.reset).Takes 7 0x30 (11 :: 1 :: List.replicate 47 0) ∧
    (asked 0x30 (11 :: 3 :: 9 :: List.replicate 46 0) State.reset).Takes 7 0x30 (11 :: 3 :: 9 :: List.replicate 46 0) ∧
    (∀ d : DetIdx, ((11 :: 3 :: 9 :: List.replicate 46 0 : List Byte).getD (2 * d.val + 1) 0).toNat ≤ 5) ∧
    (11 :: 3 :: 9 :: List.replicate 46 0 : List Byte).length = 49 :=
  ⟨asked_takes _ _ _ (by decide) rfl rfl, asked_takes _ _ _ (by decide) rfl rfl, asked_takes _ _ _ (by decide) rfl rfl,
    by decide, asked_takes _ _ _ (by decide) rfl rfl, asked_takes _ _ _ (by decide) rfl rfl, by decide, by decide⟩

theorem witness_Guard : ((asked 0x50 [0, 1, 60, 15, 30] (corridor coordinated band side)).Takes 7 0x50
        [byte (0 : JIdx).val, if true then 1 else 0, 60, 15, 30] ∧
      (corridor coordinated band side).plant.jn[(0 : JIdx)].state.coordinated = true) ∧
    ((asked 0x50 [0, 1, 5, 1, 5] State.reset).Takes 7 0x50 [byte (0 : JIdx).val, if true then 1 else 0, 5, 1, 5] ∧
      State.reset.plant.jn[(0 : JIdx)].state.coordinated = false ∧
      State.reset.plant.jn[(0 : JIdx)].guard.probe = .off) ∧
    (asked 0x50 [0, 1, 4, 1, 5] State.reset).Takes 7 0x50 [byte (0 : JIdx).val, if true then 1 else 0, 4, 1, 5] ∧
      ¬(5 ≤ (4 : Byte).toNat) :=
  ⟨⟨asked_takes _ _ _ (by decide) rfl rfl, by decide +kernel⟩, ⟨asked_takes _ _ _ (by decide) rfl rfl, by decide +kernel⟩,
    asked_takes _ _ _ (by decide) rfl rfl, by decide +kernel⟩

/-! ## Requests -/

/-- A RAISE REQUEST body for junction 0: id 255, level, action, stage 3, service time 120 s, wait limit. -/
def raiseBody (level action wait : Byte) : List Byte := [0, 255, level, action, 3, 120, wait]

theorem raiseBody_eq : raiseBody 15 1 5 = [byte (0 : JIdx).val, byte 255, byte 15, Action.extend.code,
    byte ((2 : Stage).val + 1), byte 120, byte 5] := by decide

theorem witness_Raise_state : (asked 0x40 (raiseBody 16 2 5) State.reset).Takes 7 0x40 (raiseBody 16 2 5) ∧
    State.reset.plant.jn[(0 : JIdx)].state.coordinated = false :=
  ⟨asked_takes _ _ _ (by decide) rfl rfl, by decide +kernel⟩

theorem witness_Raise_call :
    (asked 0x40 (raiseBody 0 1 5) (corridor coordinated band side)).Takes 7 0x40 (raiseBody 0 1 5) ∧
    (corridor coordinated band side).plant.jn[(0 : JIdx)].state.coordinated = true ∧
    (corridor coordinated band side).plant.jn[(0 : JIdx)].dwell = false :=
  ⟨asked_takes _ _ _ (by decide) rfl rfl, by decide +kernel⟩

theorem witness_Raise_new :
    (asked 0x40 (raiseBody 16 2 255) (corridor { coordinated with state := .joining } band side)).Takes 7 0x40
      (raiseBody 16 2 255) ∧
    (corridor { coordinated with state := .joining } band side).plant.jn[(0 : JIdx)].state = .joining ∧
    (corridor { coordinated with state := .joining } band side).plant.req[(0 : SlotNo)] = none ∧
    ∀ i : SlotNo, i < 0 → (corridor { coordinated with state := .joining } band side).plant.req[i] ≠ none :=
  ⟨asked_takes _ _ _ (by decide) rfl rfl, by decide +kernel⟩

/-- A PENDING record of junction 0 for stage 3, wait limit 60 s. -/
def pendingRequest : Request :=
  { junction := 0, source := .central, id := 255, level := 5, action := .insert, stage := 2, time := 10, wait := 60
    arrived := 400, state := .pending }

/-- A JOINING junction with that record. -/
def waiting : State := withRequest pendingRequest (corridor { coordinated with state := .joining } band side)

theorem witness_Refresh : (asked 0x40 (raiseBody 16 2 0) waiting).Takes 7 0x40 (raiseBody 16 2 0) ∧
    (waiting.plant.jn[(0 : JIdx)].state = .joining ∧ waiting.plant.req[(0 : SlotNo)] = some pendingRequest ∧
      pendingRequest.state = .pending ∧ pendingRequest.key = { junction := 0, source := .central, id := 255 }) ∧
    ∀ i : SlotNo, i ≠ 0 → ∀ q, waiting.plant.req[i] = some q → q.key ≠ pendingRequest.key :=
  ⟨asked_takes _ _ _ (by decide) rfl rfl, by decide +kernel, fun _ hi _ h => absurd (oneRecord h).1 hi⟩

theorem witness_Candidate : waiting.plant.candidate? 0 = some { slot := 0, req := pendingRequest } ∧
    waiting.plant.acceptable 0 pendingRequest = false := by decide +kernel

theorem witness_Candidate_none : State.reset.plant.candidate? 0 = none := by decide +kernel

theorem witness_Acceptable : (withRequest pendingRequest (corridor coordinated band side)).plant.acceptable 0 pendingRequest =
      true ∧
    (withRequest pendingRequest (corridor coordinated band side)).plant.candidate? 0 =
      some { slot := 0, req := pendingRequest } := by decide +kernel

/-- Junction 0 serving entry 1, of stage 3, with its green confirmed. -/
def servingTop (e : Nat) : State := corridor { coordinated with green := some 2 } (served side e) side

theorem witness_Extend : (asked 0x40 (raiseBody 15 1 5) (servingTop 120)).Takes 7 0x40 (raiseBody 15 1 5) ∧
    (servingTop 120).plant.jn[(0 : JIdx)].state = .inStep ∧ (servingTop 120).plant.jn[(0 : JIdx)].level = 0 ∧
    (servingTop 120).plant.jn[(0 : JIdx)].stack = [] ∧ (servingTop 120).plant.jn[(0 : JIdx)].order = none ∧
    (servingTop 120).plant.jn[(0 : JIdx)].chain = 1 :: [2] ∧
    (servingTop 120).plant.pool[(1 : EntryNo)].origin = .host ∧
    (servingTop 120).plant.pool[(1 : EntryNo)].status = .serving ∧ (servingTop 120).plant.pool[(1 : EntryNo)].stage = 2 ∧
    1 ≤ (servingTop 120).plant.jn[(0 : JIdx)].plan.ext ∧ (servingTop 120).plant.req[(0 : SlotNo)] = none ∧
    (∀ i : SlotNo, i < 0 → (servingTop 120).plant.req[i] ≠ none) ∧ ∀ i ∈ (servingTop 120).plant.arrivals, i ≠ 0 :=
  ⟨asked_takes _ _ _ (by decide) rfl rfl, by decide +kernel⟩

/-- The same junction serving stage 1, past its minimum. -/
def servingOther : State := corridor { coordinated with green := some 0 } (served { side with stage := 0 } 100) side

theorem witness_Insert_accepted : (asked 0x40 (raiseBody 15 2 5) servingOther).Takes 7 0x40 (raiseBody 15 2 5) ∧
    servingOther.plant.jn[(0 : JIdx)].minWait = none ∧ servingOther.plant.free = 3 :: (List.finRange 128).drop 4 ∧
    servingOther.plant.pool[(1 : EntryNo)].status = .serving ∧
    10 * servingOther.plant.pool[(1 : EntryNo)].minimum ≤ servingOther.plant.pool[(1 : EntryNo)].elapsed.getD 0 ∧
    servingOther.plant.jn[(0 : JIdx)].green ≠ some 2 :=
  ⟨asked_takes _ _ _ (by decide) rfl rfl, by decide +kernel⟩

theorem witness_Cancel_noSuch : (asked 0x41 [0, 3, 11] State.reset).Takes 7 0x41
      [byte (0 : JIdx).val, SourceKind.guard.code, byte 11] ∧
    ∀ i : SlotNo, ∀ r, State.reset.plant.req[i] = some r → r.key ≠ { junction := 0, source := .guard, id := 11 } :=
  ⟨asked_takes _ _ _ (by decide) rfl rfl, fun i r h => absurd h (noRecord rfl i r)⟩

theorem witness_Cancel_pending : (asked 0x41 [0, 2, 255] waiting).Takes 7 0x41
      [byte (0 : JIdx).val, SourceKind.central.code, byte 255] ∧
    waiting.plant.req[(0 : SlotNo)] = some pendingRequest ∧ waiting.plant.NoCandidateBut 0 0 :=
  ⟨asked_takes _ _ _ (by decide) rfl rfl, by decide +kernel, oneRecord_noCandidateBut _ _ _ _ 0⟩

theorem witness_WaitExpiry : pendingRequest.arrived + 10 * pendingRequest.wait ≤ waiting.now ∧
    waiting.plant.NoCandidateBut pendingRequest.junction 0 := ⟨by decide, oneRecord_noCandidateBut _ _ _ _ 0⟩

theorem witness_WaitNotExpired : ({ waiting with now := 999 } : State).Settled ∧
    999 < pendingRequest.arrived + 10 * pendingRequest.wait :=
  ⟨settled_of rfl (show HostPort.empty.choose = HostPort.empty by decide), by decide⟩

/-- The ACTIVE record of an INSERT whose service end comes at a part time, its hold end at another. -/
def activeRequest (svc hold : Nat) : Active :=
  { accepted := 500, svcEnd := .due svc, started := true, cap := none, holdEnd := hold }

/-- Junction 0 serving the service entry 2 over the interrupted entry 1. -/
def inserted (svc hold : Nat) : State :=
  withRequest { pendingRequest with state := .active (activeRequest svc hold) }
    (corridor { interrupted with chain := [2, 1], green := some 4, level := 5 } side
      (served { side with stage := 4, origin := .service, kind := .once, slot := some 0 } 50))

theorem witness_InsertEnds : (inserted 1000 1200).plant.raised = [] ∧
    (inserted 1000 1200).plant.jn[(0 : JIdx)].state = .inStep ∧
    (inserted 1000 1200).plant.jn[(0 : JIdx)].stack = [{ slot := 0, entry := 1, saved := 120, minReached := true, prior := 0 }] ∧
    (inserted 1000 1200).plant.jn[(0 : JIdx)].chain = 2 :: 1 :: [] ∧ (2 : EntryNo) ≠ 1 ∧
    (inserted 1000 1200).plant.pool[(2 : EntryNo)].origin = .service ∧
    (inserted 1000 1200).plant.pool[(2 : EntryNo)].slot = some 0 ∧
    (inserted 1000 1200).plant.pool[(2 : EntryNo)].status = .serving ∧
    (inserted 1000 1200).plant.pool[(2 : EntryNo)].notify = false ∧
    (inserted 1000 1200).plant.pool[(1 : EntryNo)].origin = .host ∧
    (inserted 1000 1200).plant.pool[(1 : EntryNo)].role = .side ∧
    (inserted 1000 1200).plant.pool[(1 : EntryNo)].status = .waiting ∧
    (inserted 1000 1200).plant.jn[(0 : JIdx)].order = none ∧ (inserted 1000 1200).plant.jn[(0 : JIdx)].minWait = none ∧
    (inserted 1000 1200).plant.jn[(0 : JIdx)].callReached = false ∧
    (inserted 1000 1200).plant.jn[(0 : JIdx)].green ≠ some (inserted 1000 1200).plant.pool[(1 : EntryNo)].stage := by
  decide +kernel

theorem witness_InsertEnds_served : (inserted 1000 1200).plant.NoCandidateBut 0 0 ∧
    ∃ d, (activeRequest 1000 1200).svcEnd = .due d ∧ d ≤ (inserted 1000 1200).now :=
  ⟨oneRecord_noCandidateBut _ _ _ _ 0, 1000, rfl, by decide⟩

theorem witness_InsertEnds_expired : (activeRequest 1001 1000).holdEnd ≤ (inserted 1001 1000).now ∧
    ∀ d, (activeRequest 1001 1000).svcEnd = .due d → (activeRequest 1001 1000).holdEnd < d :=
  ⟨by decide, fun d h => by cases h; decide⟩

/-! ## Scripts -/

theorem witness_LoadStep : ((asked 0x60 [12, 64, 0] State.reset).Takes 7 0x60 [byte (12 : QueueNo).val, byte 64, 0] ∧
      63 < 64) ∧
    ((asked 0x60 [0, 1, 0] State.reset).Takes 7 0x60 [byte (0 : QueueNo).val, byte 1, 0] ∧
      ∃ j : JIdx, j.val = (0 : QueueNo).val ∧ State.reset.plant.jn[j].state = .absent) ∧
    (asked 0x60 [12, 63, 0] State.reset).Takes 7 0x60 [byte (12 : QueueNo).val, byte 63, 0] ∧
      (∀ j : JIdx, j.val = (12 : QueueNo).val → State.reset.plant.jn[j].state ≠ .absent) ∧ State.reset.script.held < 256 :=
  ⟨⟨asked_takes _ _ _ (by decide) rfl rfl, by decide⟩,
    ⟨asked_takes _ _ _ (by decide) rfl rfl, 0, rfl, by decide +kernel⟩,
    asked_takes _ _ _ (by decide) rfl rfl, fun j h => absurd h (by have := j.isLt; show j.val ≠ 12; omega), by decide +kernel⟩

/-- Four groups wait. -/
def fourGroups : State := { State.reset with script := { ScriptUnit.empty with notBefore := [none, none, none, some 5] } }

theorem witness_CloseGroup : ((asked 0x61 [1, 1, 81, 127] State.reset).Takes 7 0x61 [1, 1, 81, 127] ∧
      65536 * (1 : Byte).toNat + 256 * (81 : Byte).toNat + (127 : Byte).toNat < 86400 ∧
      State.reset.script.notBefore.length < 4 ∧ State.reset.script.held + 13 ≤ 256) ∧
    (asked 0x61 [1, 0, 0, 0] fourGroups).Takes 7 0x61 [1, 0, 0, 0] ∧ 4 ≤ fourGroups.script.notBefore.length :=
  ⟨⟨asked_takes _ _ _ (by decide) rfl rfl, by decide +kernel⟩, asked_takes _ _ _ (by decide) rfl rfl, by decide⟩

theorem witness_DropScripts : (asked 0x62 [] fourGroups).Takes 7 0x62 [] ∧
    ∀ q : QueueNo, fourGroups.script.running[q] = false := ⟨asked_takes _ _ _ (by decide) rfl rfl, by decide +kernel⟩

/-! ## Report block -/

theorem witness_Marks : ((0xFF : Byte) ≠ 0 ∧ (asked 0x70 [0xFF, 1] State.reset).Takes 7 0x70 [0xFF, 1]) ∧
    (asked 0x70 [0xFF, 0] State.reset).Takes 7 0x70 [0xFF, 0] ∧ (asked 0x71 [0xFF] State.reset).Takes 7 0x71 [0xFF] ∧
    ((asked 0x72 [0xFF] State.reset).Takes 7 0x72 [0xFF] ∧ State.reset.report.pend = 0) ∧
    (asked 0x71 [0] State.reset).Takes 7 0x71 [0] ∧ (asked 0x72 [0] State.reset).Takes 7 0x72 [0] :=
  ⟨⟨by decide, asked_takes _ _ _ (by decide) rfl rfl⟩, asked_takes _ _ _ (by decide) rfl rfl,
    asked_takes _ _ _ (by decide) rfl rfl, ⟨asked_takes _ _ _ (by decide) rfl rfl, rfl⟩,
    asked_takes _ _ _ (by decide) rfl rfl, asked_takes _ _ _ (by decide) rfl rfl⟩

theorem witness_Marks_form : ((asked 0x70 [0xFF] State.reset).Takes 7 0x70 [0xFF] ∧ ([0xFF] : List Byte).length ≠ 2) ∧
    ((asked 0x70 [0, 5] State.reset).Takes 7 0x70 [0, 5] ∧ ∃ act : Byte, ([0, 5] : List Byte) = [0, act]) ∧
    ((asked 0x70 [1, 2] State.reset).Takes 7 0x70 [1, 2] ∧
      ∃ cls act : Byte, ([1, 2] : List Byte) = [cls, act] ∧ act ≠ 0 ∧ act ≠ 1) :=
  ⟨⟨asked_takes _ _ _ (by decide) rfl rfl, by decide⟩, ⟨asked_takes _ _ _ (by decide) rfl rfl, 5, rfl⟩,
    ⟨asked_takes _ _ _ (by decide) rfl rfl, 1, 2, rfl, by decide, by decide⟩⟩

/-- A cycle record queue that holds one record, in its last slot. -/
def oneCycle : State :=
  { State.reset with
    report := { ReportBlock.cold with
      slots := ReportBlock.cold.slots.set 47
        (some { junction := 3, count := 9, tod := some 5, tally := .clear, gap := true })
      rd := 47, wr := 0, armed := 0xFF } }

theorem witness_Fetch : ((asked 0x73 [5] State.reset).Takes 7 0x73 [byte 5] ∧ 4 < 5) ∧
    (asked 0x73 [4] oneCycle).Takes 7 0x73 [byte 4] ∧ (asked 0x73 [4] oneCycle).report.Whole := by
  refine ⟨⟨asked_takes _ _ _ (by decide) rfl rfl, by decide⟩, asked_takes _ _ _ (by decide) rfl rfl, ?_⟩
  intro i hi
  have h1 : (asked 0x73 [4] oneCycle).report.held = 1 := by decide +kernel
  have h2 : i = 0 := by omega
  subst h2
  decide +kernel

theorem witness_Fetch_form : (asked 0x73 [] State.reset).Takes 7 0x73 [] ∧ ([] : List Byte).length ≠ 1 :=
  ⟨asked_takes _ _ _ (by decide) rfl rfl, by decide⟩

/-! ## Events -/

theorem witness_EventsTouch : ∃ t, exec (.lineSilence 3) State.reset = .next t := ⟨_, rfl⟩

/-- Junction 0 serving the SIDE entry 1, entry 2 behind it. -/
def turning (J : Junction) (e : Nat) (y : Entry) : State := corridor J (served side e) y

theorem turning_of (J : Junction) (e : Nat) (y : Entry) (h1 : J.chain = [1, 2]) (h2 : J.state = .inStep) (h3 : J.level = 0)
    (h4 : J.order = none) (h5 : y.role = .band ∨ y.demand = .recall) (h6 : J.green ≠ some y.stage) :
    (turning J e y).Turning 0 1 2 [] :=
  { settled := corridor_settled _ _ _, chain := h1, distinct := by decide, inStep := h2, level := h3, idle := h4
    side := rfl, recurring := rfl, origin := rfl, serving := rfl, servable := h5, fresh := h6
    noRequest := corridor_noCandidate _ _ _ _ }

/-- Junction 0 with stage 3 green. -/
def greenSide : Junction := { coordinated with green := some 2 }

theorem witness_Side_split : (turning greenSide 200 { side with stage := 5 }).Turning 0 1 2 [] ∧
    (turning greenSide 200 { side with stage := 5 }).plant.jn[(0 : JIdx)].force = false ∧
    (turning greenSide 200 { side with stage := 5 }).plant.jn[(0 : JIdx)].allowance = none ∧
    10 * (turning greenSide 200 { side with stage := 5 }).plant.pool[(1 : EntryNo)].split ≤
      (turning greenSide 200 { side with stage := 5 }).plant.pool[(1 : EntryNo)].elapsed.getD 0 ∧
    10 * (turning greenSide 200 { side with stage := 5 }).plant.pool[(1 : EntryNo)].minimum ≤
      (turning greenSide 200 { side with stage := 5 }).plant.pool[(1 : EntryNo)].elapsed.getD 0 ∧
    (turning greenSide 200 { side with stage := 5 }).plant.pool[(1 : EntryNo)].demand ≠ .call :=
  ⟨turning_of _ _ _ rfl rfl rfl rfl (Or.inr rfl) (by decide), by decide +kernel⟩

/-- A SIDE top of split 20 s whose minimum an amendment has raised to 30 s, with its elapsed (R37, R39, R57). -/
def raisedMinimum (e : Nat) : State := corridor greenSide (served { side with minimum := 30 } e) { side with stage := 5 }

theorem raisedMinimum_turning (e : Nat) : (raisedMinimum e).Turning 0 1 2 [] :=
  { settled := corridor_settled _ _ _, chain := rfl, distinct := by decide, inStep := rfl, level := rfl, idle := rfl
    side := rfl, recurring := rfl, origin := rfl, serving := rfl, servable := Or.inr rfl
    fresh := show (some 2 : Option Stage) ≠ some 5 by decide, noRequest := corridor_noCandidate _ _ _ _ }

theorem witness_Side_raisedMinimum : (raisedMinimum 299).plant.jn[(0 : JIdx)].allowance = none ∧
    10 * (raisedMinimum 299).plant.pool[(1 : EntryNo)].split ≤ (raisedMinimum 299).plant.pool[(1 : EntryNo)].elapsed.getD 0 ∧
    (raisedMinimum 299).plant.pool[(1 : EntryNo)].elapsed.getD 0 < 10 * (raisedMinimum 299).plant.pool[(1 : EntryNo)].minimum := by
  decide +kernel

/-- R57: the split is passed at 29.9 s and nothing ends; at the minimum, 30.0 s, the entry ends SERVED. -/
theorem test_raisedMinimum : exec (.splitExpiry 0) (raisedMinimum 299) = .next (raisedMinimum 299) ∧
    ∃ t, exec (.minimumExpiry 0) (raisedMinimum 300) = .next t ∧ t.plant.pool[(1 : EntryNo)].outcome = .served :=
  ⟨rfl, _, rfl, by decide +kernel⟩

theorem witness_Side_allowance : (turning { greenSide with allowance := some 30 } 30 { side with stage := 5 }).Turning 0 1 2 [] ∧
    (turning { greenSide with allowance := some 30 } 30 { side with stage := 5 }).plant.jn[(0 : JIdx)].allowance = some 30 ∧
    30 ≤ (turning { greenSide with allowance := some 30 } 30 { side with stage := 5 }).plant.pool[(1 : EntryNo)].elapsed.getD 0 :=
  ⟨turning_of _ _ _ rfl rfl rfl rfl (Or.inr rfl) (by decide), by decide +kernel⟩

/-- The same with a CALL entry at the top, its gap timer as given. -/
def gapping (g : GapTimer) : State :=
  corridor { greenSide with det := { Detectors.cold with gap := Detectors.cold.gap.set 2 g } }
    (served { side with demand := .call } 100) { side with stage := 5 }

theorem gapping_turning (g : GapTimer) : (gapping g).Turning 0 1 2 [] :=
  { settled := corridor_settled _ _ _, chain := rfl, distinct := by decide, inStep := rfl, level := rfl, idle := rfl
    side := rfl, recurring := rfl, origin := rfl, serving := rfl, servable := Or.inr rfl
    fresh := show (some 2 : Option Stage) ≠ some 5 by decide, noRequest := corridor_noCandidate _ _ _ _ }

theorem witness_Side_gap : (gapping .expired).plant.pool[(1 : EntryNo)].demand = .call ∧
    10 * (gapping .expired).plant.pool[(1 : EntryNo)].minimum ≤ (gapping .expired).plant.pool[(1 : EntryNo)].elapsed.getD 0 ∧
    (gapping .expired).plant.jn[(0 : JIdx)].det.gap[(gapping .expired).plant.pool[(1 : EntryNo)].stage] = .expired ∧
    (gapping (.running 1000)).plant.jn[(0 : JIdx)].det.gap[(gapping (.running 1000)).plant.pool[(1 : EntryNo)].stage] =
      .running 1000 ∧ 1000 ≤ (gapping (.running 1000)).now := by decide +kernel

theorem witness_Force_pending : (turning { greenSide with force := true } 100 band).Turning 0 1 2 [] ∧
    (turning { greenSide with force := true } 100 band).plant.pool[(2 : EntryNo)].role = .band ∧
    (turning { greenSide with force := true } 100 band).plant.jn[(0 : JIdx)].force = true ∧
    10 * (turning { greenSide with force := true } 100 band).plant.pool[(1 : EntryNo)].minimum ≤
      (turning { greenSide with force := true } 100 band).plant.pool[(1 : EntryNo)].elapsed.getD 0 :=
  ⟨turning_of _ _ _ rfl rfl rfl rfl (Or.inl rfl) (by decide), by decide +kernel⟩

/-- Junction 0 at its band call point, its band end point behind it. -/
def atCall : Junction := { greenSide with p := 850, endDone := true, endPassed := true }

theorem witness_Force_call : (turning atCall 100 band).Turning 0 1 2 [] ∧
    (turning atCall 100 band).plant.jn[(0 : JIdx)].callDone = false ∧
    (turning atCall 100 band).plant.jn[(0 : JIdx)].span ≤
      (turning atCall 100 band).plant.jn[(0 : JIdx)].p + 10 * (turning atCall 100 band).plant.jn[(0 : JIdx)].plan.a ∧
    (turning atCall 100 band).plant.jn[(0 : JIdx)].endDone = true ∧
    (turning atCall 99 band).plant.pool[(1 : EntryNo)].elapsed.getD 0 <
      10 * (turning atCall 99 band).plant.pool[(1 : EntryNo)].minimum :=
  ⟨turning_of _ _ _ rfl rfl rfl rfl (Or.inl rfl) (by decide), by decide +kernel⟩

/-- A JOINING junction at its band call point. -/
def joining : State := corridor { atCall with state := .joining, green := none } side band

theorem witness_Joining : joining.Settled ∧ joining.plant.jn[(0 : JIdx)].state = .joining ∧
    joining.plant.jn[(0 : JIdx)].order = none ∧ joining.plant.jn[(0 : JIdx)].chain = [1] ++ 2 :: [] ∧
    ([1, 2] : List EntryNo).Nodup ∧
    (∀ n ∈ ([1] : List EntryNo), joining.plant.pool[n].role = .side ∧ joining.plant.pool[n].status = .waiting ∧
      joining.plant.pool[n].elapsed = none) ∧
    joining.plant.pool[(2 : EntryNo)].role = .band ∧ joining.plant.jn[(0 : JIdx)].callDone = false ∧
    joining.plant.jn[(0 : JIdx)].endDone = true ∧
    joining.plant.jn[(0 : JIdx)].span ≤ joining.plant.jn[(0 : JIdx)].p + 10 * joining.plant.jn[(0 : JIdx)].plan.a :=
  ⟨corridor_settled _ _ _, by decide +kernel⟩

/-- The BAND entry 1 is SERVING when its band end point is reached. -/
def bandEnding (e : Nat) (y : Entry) : State := corridor { coordinated with green := some 0 } (served band e) y

theorem witness_BandEnd : (bandEnding 99 side).Settled ∧ (bandEnding 99 side).plant.NoCandidate 0 ∧
    (bandEnding 99 side).plant.jn[(0 : JIdx)].chain = 1 :: [2] ∧ (bandEnding 99 side).plant.jn[(0 : JIdx)].state = .inStep ∧
    (bandEnding 99 side).plant.pool[(1 : EntryNo)].role = .band ∧
    (bandEnding 99 side).plant.pool[(1 : EntryNo)].status = .serving ∧
    (bandEnding 99 side).plant.jn[(0 : JIdx)].endDone = false ∧ (bandEnding 99 side).plant.jn[(0 : JIdx)].moved = none ∧
    10 * (bandEnding 99 side).plant.pool[(1 : EntryNo)].split ≤ (bandEnding 99 side).plant.jn[(0 : JIdx)].p ∧
    10 * (bandEnding 99 side).plant.pool[(1 : EntryNo)].split + 10 * (bandEnding 99 side).plant.jn[(0 : JIdx)].plan.a ≤
      (bandEnding 99 side).plant.jn[(0 : JIdx)].span ∧
    (bandEnding 99 side).plant.pool[(1 : EntryNo)].elapsed.getD 0 <
      10 * (bandEnding 99 side).plant.pool[(1 : EntryNo)].minimum :=
  ⟨corridor_settled _ _ _, corridor_noCandidate _ _ _ _, by decide +kernel⟩

theorem witness_BandEnd_dwell : (bandEnding 100 { side with demand := .call }).plant.jn[(0 : JIdx)].level = 0 ∧
    10 * (bandEnding 100 { side with demand := .call }).plant.pool[(1 : EntryNo)].minimum ≤
      (bandEnding 100 { side with demand := .call }).plant.pool[(1 : EntryNo)].elapsed.getD 0 ∧
    ∀ i ∈ (bandEnding 100 { side with demand := .call }).plant.jn[(0 : JIdx)].chain,
      (bandEnding 100 { side with demand := .call }).plant.pool[i].role = .side →
      (bandEnding 100 { side with demand := .call }).plant.pool[i].demand = .call ∧
        (bandEnding 100 { side with demand := .call }).plant.jn[(0 : JIdx)].det.flags[
          (bandEnding 100 { side with demand := .call }).plant.pool[i].stage] = false := by decide +kernel

/-- The same with an entry 3 without a call between the BAND entry and a RECALL entry. -/
def bandEndingSkip : State :=
  let s := corridor { coordinated with green := some 0, chain := [1, 3, 2] } (served band 100) side
  { s with plant := { s.plant with pool := s.plant.pool.set 3 { side with stage := 6, demand := .call } } }

theorem witness_BandEnd_walk : bandEndingSkip.Settled ∧ bandEndingSkip.plant.NoCandidate 0 ∧
    bandEndingSkip.plant.jn[(0 : JIdx)].chain = 1 :: ([3] ++ 2 :: []) ∧ (1 :: ([3] ++ 2 :: []) : List EntryNo).Nodup ∧
    10 * bandEndingSkip.plant.pool[(1 : EntryNo)].minimum ≤ bandEndingSkip.plant.pool[(1 : EntryNo)].elapsed.getD 0 ∧
    (∀ i ∈ ([3] : List EntryNo), bandEndingSkip.plant.pool[i].role = .side ∧
      bandEndingSkip.plant.pool[i].kind = .recurring ∧ bandEndingSkip.plant.pool[i].demand = .call ∧
      bandEndingSkip.plant.jn[(0 : JIdx)].det.flags[bandEndingSkip.plant.pool[i].stage] = false ∧
      bandEndingSkip.plant.pool[i].status = .waiting) ∧
    bandEndingSkip.plant.pool[(2 : EntryNo)].demand = .recall ∧
    bandEndingSkip.plant.jn[(0 : JIdx)].green ≠ some bandEndingSkip.plant.pool[(2 : EntryNo)].stage :=
  ⟨settled_of rfl (show HostPort.empty.choose = HostPort.empty by decide), fun i r h => absurd h (noRecord rfl i r), by decide +kernel⟩

/-- The service entry 2 at the top waits for the minimum of entry 1. -/
def minimumWaiting : State :=
  corridor { interrupted with
    chain := [2, 1], minWait := some 1, green := some 2
    stack := [{ slot := 0, entry := 1, saved := 100, minReached := false, prior := 0 }] } side { side with stage := 4 }

theorem witness_MinimumWait : minimumWaiting.Settled ∧ minimumWaiting.plant.NoCandidate 0 ∧
    minimumWaiting.plant.jn[(0 : JIdx)].minWait = some 1 ∧
    minimumWaiting.plant.jn[(0 : JIdx)].stack = [{ slot := 0, entry := 1, saved := 100, minReached := false, prior := 0 }] ∧
    10 * minimumWaiting.plant.pool[(1 : EntryNo)].minimum ≤ 100 ∧
    minimumWaiting.plant.jn[(0 : JIdx)].chain = 2 :: [1] ∧ minimumWaiting.plant.jn[(0 : JIdx)].order = none ∧
    minimumWaiting.plant.jn[(0 : JIdx)].green ≠ some minimumWaiting.plant.pool[(2 : EntryNo)].stage :=
  ⟨corridor_settled _ _ _, corridor_noCandidate _ _ _ _, by decide +kernel⟩

/-- The order of entry 1 with tag 15 and its deadline at a part time. -/
def orderOf (d : Option Nat) : OrderInFlight := { entry := 1, live := true, stage := 2, tag := 15, deadline := d }

/-- Junction 0 with that order in flight. -/
def ordered (allowance retries : Nat) : State :=
  corridor { coordinated with order := some (orderOf (some 1000)), line := { coordinated.line with lastTag := 15 } }
    { side with allowance := allowance, retries := retries } band

theorem witness_Missed : ((ordered 3 1).Settled ∧ (ordered 3 1).plant.NoCandidate 0) ∧
    (ordered 3 1).plant.jn[(0 : JIdx)].chain = 1 :: [2] ∧ 1000 ≤ (ordered 3 1).now ∧
    (ordered 3 1).plant.jn[(0 : JIdx)].order = some (orderOf (some 1000)) ∧
    (ordered 3 1).plant.jn[(0 : JIdx)].green = none ∧ 0 < (ordered 3 1).plant.pool[(1 : EntryNo)].retries ∧
    (ordered 0 0).plant.pool[(1 : EntryNo)].allowance = 0 ∧ (ordered 3 0).plant.pool[(1 : EntryNo)].allowance ≠ 0 ∧
    (ordered 3 0).plant.pool[(1 : EntryNo)].retries = 0 ∧
    ∀ i ∈ (ordered 3 0).plant.jn[(0 : JIdx)].chain, (ordered 3 0).plant.pool[i].origin = .host :=
  ⟨⟨corridor_settled _ _ _, corridor_noCandidate _ _ _ _⟩, by decide +kernel⟩

/-- A REPORT body: COORD_READY, stage 3, tag 15, detector 23 occupied, no request record. -/
def reportBody : List Byte := [1, 3, 15, 0, 0, 0, 0x80, 0]

/-- Junction 0 with an order in flight and the same rows reported before. -/
def confirming : State :=
  corridor { coordinated with
    order := some (orderOf none), det := { Detectors.cold with rows := reportRows reportBody, rowsValid := true } } side band

theorem witness_Report : (confirming.Settled ∧ confirming.plant.NoCandidate 0) ∧
    confirming.plant.jn[(0 : JIdx)].line.rx = [] ∧ reportBodyGood reportBody = true ∧
    reportMode reportBody = .coordReady ∧ reportLamp reportBody = false ∧ reportBody.getD 7 0 = 0 ∧
    reportTag reportBody = (orderOf none).tag.val ∧ reportGreen reportBody = some (orderOf none).stage ∧
    confirming.plant.jn[(0 : JIdx)].state = .inStep ∧ confirming.plant.jn[(0 : JIdx)].line.up = true ∧
    confirming.plant.jn[(0 : JIdx)].line.mode = some .coordReady ∧
    confirming.plant.jn[(0 : JIdx)].det.rowsValid = true ∧
    confirming.plant.jn[(0 : JIdx)].det.rows = reportRows reportBody ∧
    confirming.plant.jn[(0 : JIdx)].order = some (orderOf none) ∧
    confirming.plant.jn[(0 : JIdx)].chain = 1 :: [2] ∧ (orderOf none).stage = confirming.plant.pool[(1 : EntryNo)].stage ∧
    confirming.plant.pool[(1 : EntryNo)].role = .side ∧ confirming.plant.pool[(1 : EntryNo)].demand = .recall ∧
    confirming.plant.pool[(1 : EntryNo)].slot = none ∧ confirming.plant.jn[(0 : JIdx)].force = false ∧
    confirming.plant.jn[(0 : JIdx)].resuming = none ∧ confirming.plant.jn[(0 : JIdx)].dwell = false :=
  ⟨⟨corridor_settled _ _ _, corridor_noCandidate _ _ _ _⟩, by decide +kernel⟩

/-! ## Detectors and guard -/

/-- A running gap timer of stage 3 while the top's minimum is still to come. -/
def gapBefore : State :=
  corridor { greenSide with det := { Detectors.cold with gap := Detectors.cold.gap.set 2 (.running 1000) } }
    (served { side with demand := .call } 99) band

theorem witness_Gap : (gapBefore.Settled ∧ gapBefore.plant.NoCandidate 0) ∧
    gapBefore.plant.jn[(0 : JIdx)].det.gap[(2 : Stage)] = .running 1000 ∧ 1000 ≤ gapBefore.now ∧
    gapBefore.plant.jn[(0 : JIdx)].chain = 1 :: [2] ∧
    gapBefore.plant.pool[(1 : EntryNo)].elapsed.getD 0 < 10 * gapBefore.plant.pool[(1 : EntryNo)].minimum :=
  ⟨⟨corridor_settled _ _ _, corridor_noCandidate _ _ _ _⟩, by decide +kernel⟩

/-- Detector 4 has been occupied for 60 s, the stuck limit. -/
def occupied : State :=
  corridor { coordinated with
    plan := { Plan.cold with stuck := 60 }
    det := { Detectors.cold with
      map := Detectors.cold.map.set 4 (.callExtend 2), timers := Detectors.cold.timers.set 4 (some 400) } } band side

theorem witness_Stuck : occupied.plant.NoCandidate 0 ∧ occupied.plant.jn[(0 : JIdx)].state ≠ .absent ∧
    occupied.plant.jn[(0 : JIdx)].dwell = false ∧ occupied.plant.jn[(0 : JIdx)].det.stuck[(4 : DetIdx)] = false ∧
    occupied.plant.jn[(0 : JIdx)].plan.stuck ≠ 0 ∧
    occupied.plant.jn[(0 : JIdx)].det.timers[(4 : DetIdx)] = some 400 ∧
    400 + 10 * occupied.plant.jn[(0 : JIdx)].plan.stuck ≤ occupied.now :=
  ⟨corridor_noCandidate _ _ _ _, by decide +kernel⟩

/-- Junction 0 above level 0, measuring on detector 5 until now; junction 1 in a given state with chain [2]. -/
def spilling (st : JState) (settings : GuardSettings) : State :=
  let s := corridor { interrupted with
    guard := { Guard.cold with settings := settings, probe := .measuring 5 800 1000 } } side band
  { s with plant := { s.plant with jn := s.plant.jn.set 1 { coordinated with state := st, chain := [2] } } }

/-- Enabled settings with the least flush level. -/
def guardOn : GuardSettings := { enable := true, threshold := 20, flushLevel := 1, flushTime := 10 }

theorem witness_Spill_none : (spilling (.loc .noBand) guardOn).plant.raised = [] ∧
    (spilling (.loc .noBand) guardOn).plant.jn[(0 : JIdx)].guard.probe = .measuring 5 800 1000 ∧
    1000 ≤ (spilling (.loc .noBand) guardOn).now ∧ 0 < (spilling (.loc .noBand) guardOn).plant.jn[(0 : JIdx)].level ∧
    downstream (spilling (.loc .noBand) guardOn).tb.dir 0 = some 1 ∧
    (spilling (.loc .noBand) guardOn).plant.jn[(1 : JIdx)].state.coordinated = false := by decide +kernel

theorem witness_Spill_posted : downstream (spilling .joining guardOn).tb.dir 0 = some 1 ∧
    (spilling .joining guardOn).plant.jn[(1 : JIdx)].state = .joining ∧
    (spilling .joining guardOn).plant.jn[(1 : JIdx)].chain = [] ++ 2 :: [] ∧
    (spilling .joining guardOn).plant.pool[(2 : EntryNo)].role = .band ∧
    1 ≤ (spilling .joining guardOn).plant.jn[(0 : JIdx)].guard.settings.flushLevel ∧
    (spilling .joining guardOn).plant.req[(0 : SlotNo)] = none ∧
    ∀ i : SlotNo, i < 0 → (spilling .joining guardOn).plant.req[i] ≠ none := by decide +kernel

theorem witness_Spill_key (i : SlotNo) (r : Request) (h : (spilling .joining guardOn).plant.req[i] = some r) :
    r.key ≠ { junction := 1, source := .guard, id := 0 } := absurd h (noRecord rfl i r)

theorem witness_Probe : ({ Junction.cold with guard := { Guard.cold with probe := .armed 5 } } : Junction).guard.probe =
      .armed 5 ∧ (5 : DetIdx) ∈ ([5, 6] : List DetIdx) ∧
    ({ Junction.cold with guard := { Guard.cold with probe := .measuring 5 800 1000 } } : Junction).guard.probe =
      .measuring 5 800 1000 ∧
    (∀ g f, ({ Junction.cold with guard := { Guard.cold with probe := .measuring 5 800 1000 } } : Junction).tally.probe ≠
      .spilled g f) ∧
    ({ Junction.cold with
      guard := { Guard.cold with probe := .measuring 5 800 1000 }
      tally := { Tally.clear with probe := .spilled .idle .dropped } } : Junction).tally.probe = .spilled .idle .dropped :=
  ⟨rfl, by decide, rfl, fun _ _ h => (by cases h), rfl⟩

/-! ## Corridor lines -/

theorem witness_Line_absent : State.reset.Settled ∧ State.reset.plant.jn[(11 : JIdx)].state = .absent ∧
    State.reset.plant.jn[(11 : JIdx)].line.rx = [] ∧ reportBodyGood reportBody = true :=
  ⟨settled_of rfl (by decide), by decide +kernel⟩

theorem witness_Line_check : ∃ (n : Byte) (payload : List Byte) (c1 c2 : Byte), 1 ≤ n.toNat ∧ n.toNat ≤ 30 ∧
    payload.length = n.toNat ∧ be16 (crc (n :: payload)) ≠ [c1, c2] ∧ (0x5A : Byte) ∉ n :: (payload ++ [c1, c2]) :=
  ⟨1, [4], 0, 0, by decide +kernel⟩

/-- A frame is being assembled on line 0. -/
def assembling : State :=
  corridor { coordinated with line := { coordinated.line with rx := [⟨0x5A, 999, none⟩, ⟨8, 999, none⟩, ⟨4, 1000, none⟩] } } band side

theorem witness_Line_gap : assembling.Settled ∧ assembling.plant.jn[(0 : JIdx)].line.rx.map Received.byte = 0x5A :: [8, 4] ∧
    (0x5A : Byte) ∉ ([8, 4] : List Byte) := ⟨corridor_settled _ _ _, by decide +kernel⟩

/-- The bytes of a frame still being assembled, with a good report in them, that arrived at 990. -/
def embeddedBytes : List Received := (0x5A :: 13 :: reportWire reportBody).map fun b => { byte := b, time := 990, tod := none }

/-- They arrived 1.0 s ago. -/
def embedded (st : JState) : State :=
  corridor { coordinated with
    state := st, det := { Detectors.cold with rowsValid := true, map := Detectors.cold.map.set 23 (.call 2) }
    line := { coordinated.line with rx := embeddedBytes } } band side

theorem witness_Embedded (st : JState) : (embedded st).Settled ∧
    (embedded st).plant.jn[(0 : JIdx)].line.rx.map Received.byte = 0x5A :: (13 : Byte) :: reportWire reportBody ∧
    ((embedded st).plant.jn[(0 : JIdx)].line.rx.getLast?.map Received.time) = some 990 ∧ (13 : Byte).toNat ≤ 30 ∧
    reportBodyGood reportBody = true ∧ (reportWire reportBody).length + [7, 7].length = (13 : Byte).toNat + 2 ∧
    (0x5A : Byte) ∉ ([7, 7] : List Byte) ∧
    be16 (crc (13 :: (reportWire reportBody ++ [7, 7]).take 13)) ≠ (reportWire reportBody ++ [7, 7]).drop 13 ∧
    (embedded st).plant.jn[(0 : JIdx)].state = st ∧ (embedded st).plant.jn[(0 : JIdx)].line.up = true ∧
    (embedded st).plant.jn[(0 : JIdx)].det.rowsValid = true ∧ reportRecords reportBody = [] ∧
    (embedded st).plant.jn[(0 : JIdx)].det.rows[(23 : DetIdx)] = false ∧ (reportRows reportBody)[(23 : DetIdx)] = true ∧
    (embedded st).plant.jn[(0 : JIdx)].det.map[(23 : DetIdx)].timed = true :=
  ⟨corridor_settled _ _ _, show embeddedBytes.map Received.byte = 0x5A :: (13 : Byte) :: reportWire reportBody by decide +kernel,
    show embeddedBytes.getLast?.map Received.time = some 990 by decide +kernel, by decide, by decide, by decide, by decide,
    by decide +kernel, rfl, rfl, rfl, by decide +kernel, rfl, by decide +kernel, rfl⟩

/-- R170: the report counts from its last byte, not from the gap that sets it free. -/
theorem test_embeddedReport : ∃ t, exec (.corridorByteGapExpiry 0 .detectorFirst) (embedded (.solo .stall)) = .next t ∧
    t.plant.jn[(0 : JIdx)].line.silence = some 1010 ∧ t.plant.jn[(0 : JIdx)].det.timers[(23 : DetIdx)] = some 990 :=
  ⟨_, rfl, by decide +kernel⟩

/-- The silence of line 0 has lasted 2.0 s. -/
def silent (st : JState) : State :=
  corridor { coordinated with state := st, line := { coordinated.line with silence := some 1000 } } band side

theorem witness_Silence : (silent .inStep).Settled ∧ (silent .inStep).plant.jn[(0 : JIdx)].line.up = true ∧
    (silent .inStep).plant.jn[(0 : JIdx)].line.silence = some 1000 ∧ 1000 ≤ (silent .inStep).now ∧
    (silent .absent).plant.jn[(0 : JIdx)].state = .absent ∧
    (silent (.solo .plan)).plant.jn[(0 : JIdx)].state.coordinated = false ∧
    (silent .inStep).plant.jn[(0 : JIdx)].state.coordinated = true := ⟨corridor_settled _ _ _, by decide +kernel⟩

/-- A frame leaves on line 0 while an order is in flight or not. -/
def leaving (f : LineFrame) (o : Option OrderInFlight) : State :=
  corridor { coordinated with order := o, line := { coordinated.line with leaving := some f, waiting := some .release } }
    band side

theorem witness_FrameSent_order : (leaving (.order 2 15) (some (orderOf none))).plant.jn[(0 : JIdx)].line.leaving =
      some (.order 2 15) ∧
    (leaving (.order 2 15) (some (orderOf none))).plant.jn[(0 : JIdx)].order = some (orderOf none) ∧
    LineFrame.order 2 15 = .order 2 (orderOf none).tag := by decide +kernel

theorem witness_FrameSent_other : (leaving .release (some (orderOf none))).plant.jn[(0 : JIdx)].line.leaving = some .release ∧
    (∀ st tag, LineFrame.release ≠ .order st tag) ∧ (leaving (.order 2 15) none).plant.jn[(0 : JIdx)].order = none :=
  ⟨by decide +kernel, fun _ _ h => (by cases h), by decide +kernel⟩

/-- An idle line that has been UP, and without a frame, for 500 ms. -/
def idleLine (st : JState) (o : Option OrderInFlight) (g : Option Stage) : State :=
  corridor { coordinated with state := st, order := o, green := g
                              line := { coordinated.line with upAt := some 995, lastSent := some 995, lastTag := 9 } } band side

theorem witness_Keep : (idleLine .inStep none none).plant.jn[(0 : JIdx)].line.up = true ∧
    (idleLine .inStep none none).plant.jn[(0 : JIdx)].line.leaving = none ∧
    (∀ t, (idleLine .inStep none none).plant.jn[(0 : JIdx)].line.lastSent = some t → t + 5 ≤ 1000) ∧
    (∀ t, (idleLine .inStep none none).plant.jn[(0 : JIdx)].line.upAt = some t → t + 5 ≤ 1000) ∧
    (idleLine .inStep none none).plant.jn[(0 : JIdx)].state = .inStep ∧
    (idleLine (.loc .manual) none none).plant.jn[(0 : JIdx)].state = .loc .manual :=
  ⟨by decide +kernel, by decide +kernel, fun t h => by cases h; decide, fun t h => by cases h; decide, by decide +kernel,
    by decide +kernel⟩

/-! ## Wider clauses: starts, corridor, junctions -/

/-- The RESTART answer has left a part with a whole pool, a host entry and a service entry in the chain of junction 0. -/
def restartedWhole : State :=
  { corridor { coordinated with chain := [0, 1, 2] } band { side with origin := .service } with
    host := { HostPort.empty with restart := .answerLeft } }

theorem witness_WarmStart_pool : restartedWhole.host.restart = .answerLeft ∧ restartedWhole.plant.PoolWhole ∧
    (1 : EntryNo) ∈ restartedWhole.plant.jn[(0 : JIdx)].chain ∧ restartedWhole.plant.pool[(1 : EntryNo)].origin = .host ∧
    (2 : EntryNo) ∈ restartedWhole.plant.jn[(0 : JIdx)].chain ∧ restartedWhole.plant.pool[(2 : EntryNo)].origin = .service := by
  unfold Plant.PoolWhole
  decide +kernel

/-- A READY corridor whose junction 0 has a multiple and an offset. -/
def readyPlan (mult offset : Nat) : State :=
  ready { coordinated with state := .loc .notRunning, plan := { Plan.cold with mult := mult, offset := offset } }

theorem witness_Corridor_realigns : ((asked 0x01 [100, 2, 9] (readyPlan 2 10)).Takes 7 0x01 [100, 2, 9] ∧
      (asked 0x01 [90, 2, 9] (readyPlan 1 10)).Takes 7 0x01 [90, 2, 9]) ∧
    Direction.outbound.code = 2 ∧ (readyPlan 2 10).tb.corridor ≠ .coordinating ∧ (readyPlan 2 10).tb.c = 90 ∧
    (∀ j : JIdx, (readyPlan 2 10).plant.jn[j].state ≠ .absent → 1 ≤ (readyPlan 2 10).plant.jn[j].plan.mult ∧
      (readyPlan 2 10).plant.jn[j].plan.mult ≤ 2) ∧
    FitsEverywhere (readyPlan 2 10) 100 ∧ FitsEverywhere (readyPlan 1 10) 90 ∧
    (readyPlan 2 10).plant.jn[(0 : JIdx)].state ≠ .absent :=
  ⟨⟨asked_takes _ _ _ (by decide) rfl rfl, asked_takes _ _ _ (by decide) rfl rfl⟩, by
    unfold FitsEverywhere
    decide +kernel⟩

theorem witness_Corridor_form : (asked 0x01 [100, 3, 9] State.reset).Takes 7 0x01 [100, 3, 9] ∧ (3 : Byte) ≠ 1 ∧ (3 : Byte) ≠ 2 :=
  ⟨asked_takes _ _ _ (by decide) rfl rfl, by decide⟩

theorem witness_Corridor_unfit : (asked 0x01 [99, 2, 9] (readyPlan 2 10)).Takes 7 0x01 [99, 2, 9] ∧
    (99 % 2 = 1 ∧ (readyPlan 2 10).plant.jn[(0 : JIdx)].plan.mult = 2) ∧
    (asked 0x01 [40, 2, 9] (readyPlan 1 40)).Takes 7 0x01 [40, 2, 9] ∧
    40 ≤ (readyPlan 1 40).plant.jn[(0 : JIdx)].plan.offset * (readyPlan 1 40).plant.jn[(0 : JIdx)].plan.mult ∧
    (readyPlan 1 40).plant.jn[(0 : JIdx)].state ≠ .absent :=
  ⟨asked_takes _ _ _ (by decide) rfl rfl, by decide +kernel, asked_takes _ _ _ (by decide) rfl rfl, by decide +kernel⟩

theorem witness_Corridor_unfitStaged :
    (asked 0x01 [41, 2, 9] (corridor { coordinated with stagedPlan := some { Plan.cold with mult := 2 } } band side)).Takes
      7 0x01 [41, 2, 9] ∧
    (corridor { coordinated with stagedPlan := some { Plan.cold with mult := 2 } } band side).plant.jn[(0 : JIdx)].stagedPlan =
      some { Plan.cold with mult := 2 } ∧ 41 % 2 = 1 :=
  ⟨asked_takes _ _ _ (by decide) rfl rfl, by decide +kernel⟩

theorem witness_Corridor_infeasible :
    (asked 0x01 [40, 2, 9] (corridor coordinated band { side with minimum := 60 })).Takes 7 0x01 [40, 2, 9] ∧
    (∀ j : JIdx, (corridor coordinated band { side with minimum := 60 }).plant.jn[j].state ≠ .absent →
      (corridor coordinated band { side with minimum := 60 }).plant.jn[j].stagedPlan = none ∧
      (corridor coordinated band { side with minimum := 60 }).plant.jn[j].plan.mult ≠ 2 ∧
      (corridor coordinated band { side with minimum := 60 }).plant.jn[j].plan.offset *
        (corridor coordinated band { side with minimum := 60 }).plant.jn[j].plan.mult < 40) ∧
    40 < feasibilitySum ((corridor coordinated band { side with minimum := 60 }).plant.chainEntries 0) 5 * 1 :=
  ⟨asked_takes _ _ _ (by decide) rfl rfl, by decide +kernel⟩

theorem witness_Junction_now : (asked 0x02 planBody (readyPlan 1 0)).Takes 7 0x02 planBody ∧
    (readyPlan 1 0).plant.jn[(0 : JIdx)].state = .loc .notRunning ∧ (readyPlan 1 0).tb.corridor ≠ .coordinating ∧
    (readyPlan 1 0).tb.c = 90 ∧ (readyPlan 1 0).tb.staged = none ∧
    plan.offset ≠ (readyPlan 1 0).plant.jn[(0 : JIdx)].plan.offset ∧
    (asked 0x02 planBody (corridor { coordinated with state := .solo .stall, plan := plan } band side)).Takes 7 0x02 planBody ∧
    (corridor { coordinated with state := .solo .stall, plan := plan } band side).plant.jn[(0 : JIdx)].state = .solo .stall ∧
    plan.offset = (corridor { coordinated with state := .solo .stall, plan := plan } band side).plant.jn[(0 : JIdx)].plan.offset :=
  ⟨asked_takes _ _ _ (by decide) rfl rfl, by decide +kernel, by decide +kernel, by decide +kernel, by decide +kernel,
    by decide +kernel, asked_takes _ _ _ (by decide) rfl rfl, by decide +kernel⟩

/-- A state with a staged C. -/
def stagedC (c : Nat) : State :=
  { State.reset with tb := { Timebase.cold with staged := some { c := c, dir := .inbound, wait := 60 } } }

theorem witness_Junction_range : (asked 0x02 [0, 1, 3, 0, 5, 10, 120, 60, 0, 0] State.reset).Takes 7 0x02
      [byte (0 : JIdx).val, 1, 3, 0, 5, 10, 120, 60, 0, 0] ∧ ¬((3 : Byte).toNat ≤ 2) ∧
    (asked 0x02 [0, 1, 1, 90, 5, 10, 120, 60, 0, 0] State.reset).Takes 7 0x02
      [byte (0 : JIdx).val, 1, 1, 90, 5, 10, 120, 60, 0, 0] ∧ State.reset.tb.c ≤ (90 : Byte).toNat * (1 : Byte).toNat ∧
    (asked 0x02 [0, 1, 2, 0, 5, 10, 120, 60, 0, 0] (stagedC 91)).Takes 7 0x02
      [byte (0 : JIdx).val, 1, 2, 0, 5, 10, 120, 60, 0, 0] ∧
    (stagedC 91).tb.staged = some { c := 91, dir := .inbound, wait := 60 } ∧ (2 : Byte).toNat = 2 ∧ 91 % 2 = 1 :=
  ⟨asked_takes _ _ _ (by decide) rfl rfl, by decide, asked_takes _ _ _ (by decide) rfl rfl, by decide,
    asked_takes _ _ _ (by decide) rfl rfl, by decide +kernel⟩

/-- A local cycle ends with everything staged: a junction set with an approach time of 6 s, an amendment of the split of entry 2, guard
settings and a map. -/
def stagedCycle (minimum : Nat) : State :=
  corridor { coordinated with
    p := 900, stagedPlan := some { Plan.cold with a := 6 }
    guard := { Guard.cold with staged := some { enable := true, threshold := 5, flushLevel := 1, flushTime := 5 } }
    det := { Detectors.cold with stagedMap := some (Vector.replicate 24 (.call 2)) } } (served band 100)
    { side with minimum := minimum, staged := some ⟨some 60, none, none, none, none, none⟩ }

theorem witness_CycleStart_staged : (stagedCycle 10).plant.NoCandidate 0 ∧
    (stagedCycle 10).plant.jn[(0 : JIdx)].state = .inStep ∧
    (stagedCycle 10).plant.jn[(0 : JIdx)].p = (stagedCycle 10).plant.jn[(0 : JIdx)].span ∧
    (stagedCycle 10).plant.jn[(0 : JIdx)].level = 0 ∧ (stagedCycle 10).plant.jn[(0 : JIdx)].chain = 1 :: [2] ∧
    (stagedCycle 10).plant.pool[(1 : EntryNo)].role = .band ∧ (stagedCycle 10).plant.pool[(1 : EntryNo)].status = .serving ∧
    (∀ i ∈ (stagedCycle 10).plant.jn[(0 : JIdx)].chain, (stagedCycle 10).plant.pool[i].origin = .host) ∧
    (stagedCycle 10).script.running[junctionQueue 0] = false ∧
    (stagedCycle 10).plant.jn[(0 : JIdx)].stagedPlan = some { Plan.cold with a := 6 } ∧
    0 * 1 < (stagedCycle 10).tb.c ∧ 20 * 6 < cycleTenths (stagedCycle 10).tb.c 1 :=
  ⟨corridor_noCandidate _ _ _ _, by decide +kernel⟩

theorem test_cycleStart_feasible : ∃ t, exec (.localCycleStart 0) (stagedCycle 10) = .next t ∧
    t.plant.jn[(0 : JIdx)].state = .inStep ∧ t.plant.pool[(2 : EntryNo)].split = 60 := ⟨_, rfl, by decide +kernel⟩

theorem test_cycleStart_infeasible : ∃ t, exec (.localCycleStart 0) (stagedCycle 70) = .next t ∧
    t.plant.jn[(0 : JIdx)].state = .solo .plan := ⟨_, rfl, by decide +kernel⟩

/-- A staged multiple of 2 whose offset is not below L under the C in force: the set is discarded (R18). -/
theorem test_cycleStart_discards : ¬(plan.offset * plan.mult < 20) ∧
    ∃ t, exec (.localCycleStart 0) (corridor { coordinated with p := 900, stagedPlan := some { plan with offset := 45 } }
      (served band 100) side) = .next t ∧ t.plant.jn[(0 : JIdx)].plan = Plan.cold := ⟨by decide, _, rfl, by decide +kernel⟩

/-! ## Wider clauses: requests -/

/-- A junction with valid rows that match a REPORT body. -/
def reported (body : List Byte) (J : Junction) : Junction :=
  { J with det := { J.det with rows := reportRows body, rowsValid := true } }

/-- A plant change keeps a corridor at rest settled. -/
theorem corridor_plant_settled (J : Junction) (x y : Entry) (p : Plant) (h : p.raised = []) :
    ({ corridor J x y with plant := p } : State).Settled := ⟨h, show HostPort.empty.choose = HostPort.empty by decide⟩

theorem corridor_fresh {s : State} {body : List Byte} {records : List (List Byte)} (h : s.Settled)
    (c : s.plant.jn[(0 : JIdx)].line.rx = [] ∧ reportBodyGood body = true ∧ reportRecords body = records ∧
      s.plant.jn[(0 : JIdx)].line.up = true ∧ s.plant.jn[(0 : JIdx)].det.rowsValid = true ∧
      s.plant.jn[(0 : JIdx)].dwell = false) : s.FreshReport 0 body records :=
  ⟨h, c.1, c.2.1, c.2.2.1, c.2.2.2.1, c.2.2.2.2.1, c.2.2.2.2.2⟩

theorem corridor_ready {s : State} {body : List Byte} (c : s.plant.jn[(0 : JIdx)].line.mode = some .coordReady ∧
    reportMode body = .coordReady ∧ reportLamp body = false) : s.ReadyUnit 0 body := ⟨c.1, c.2.1, c.2.2⟩

/-- A REPORT body with one request record. -/
def recordBody (rec : List Byte) : List Byte := [1, 3, 15, 0, 0, 0, 0x80, 1] ++ rec

/-- A JOINING junction that reports one request record. -/
def recording (rec : List Byte) : State := corridor (reported (recordBody rec) { coordinated with state := .joining }) band side

theorem recording_quiet (rec : List Byte) (h : reportBodyGood (recordBody rec) = true ∧ reportRecords (recordBody rec) = [rec]) :
    (recording rec).QuietReport 0 (recordBody rec) [rec] :=
  ⟨corridor_fresh (corridor_settled _ _ _) ⟨rfl, h.1, h.2, rfl, rfl, rfl⟩, rfl⟩

theorem recording_at (rec : List Byte) : (recording rec).plant.jn[(0 : JIdx)].state = .joining ∧
    (recording rec).plant.jn[(0 : JIdx)].order = none ∧ (recording rec).plant.jn[(0 : JIdx)].green = none ∧
    (recording rec).plant.req[(0 : SlotNo)] = none := ⟨rfl, rfl, rfl, rfl⟩

/-- A new key at level 5, a call for stage 3, and a record with identifier 0. -/
theorem witness_Record : (recording [7, 5, 3, 2, 10, 60, 0]).QuietReport 0 (recordBody [7, 5, 3, 2, 10, 60, 0])
      [[7, 5, 3, 2, 10, 60, 0]] ∧
    [7, 5, 3, 2, 10, 60, 0] = [byte 7, byte 5, byte ((2 : Stage).val + 1), Action.insert.code, byte 10, byte 60, 0] ∧
    (recording [7, 0, 3, 1, 0, 0, 0]).QuietReport 0 (recordBody [7, 0, 3, 1, 0, 0, 0]) [[7, 0, 3, 1, 0, 0, 0]] ∧
    [7, 0, 3, 1, 0, 0, 0] = [byte 7, 0, byte ((2 : Stage).val + 1), Action.extend.code, 0, 0, 0] ∧
    (recording [0, 5, 3, 2, 10, 60, 0]).QuietReport 0 (recordBody [0, 5, 3, 2, 10, 60, 0]) [[0, 5, 3, 2, 10, 60, 0]] ∧
    (recording [7, 5, 3, 2, 10, 60, 0]).ReadyUnit 0 (recordBody [7, 5, 3, 2, 10, 60, 0]) :=
  ⟨recording_quiet _ (by decide +kernel), by decide, recording_quiet _ (by decide +kernel), by decide,
    recording_quiet _ (by decide +kernel), corridor_ready ⟨rfl, by decide, by decide⟩⟩

theorem witness_Record_key (rec : List Byte) (i : SlotNo) (r : Request) (h : (recording rec).plant.req[i] = some r) :
    r.key ≠ { junction := 0, source := .unit, id := 7 } := absurd h (corridor_noRecord _ _ _ i r)

/-- A PENDING record of the unit of junction 0. -/
def unitRequest : Request := { pendingRequest with source := .unit, id := 7 }

theorem witness_Record_checkOut :
    (withRequest unitRequest (recording [7, 0, 0, 0, 0, 0, 1])).QuietReport 0 (recordBody [7, 0, 0, 0, 0, 0, 1])
      [[7, 0, 0, 0, 0, 0, 1]] ∧
    (withRequest unitRequest (recording [7, 0, 0, 0, 0, 0, 1])).plant.req[(0 : SlotNo)] = some unitRequest ∧
    unitRequest.state = .pending ∧ unitRequest.key = { junction := 0, source := .unit, id := 7 } :=
  ⟨⟨corridor_fresh (corridor_plant_settled _ _ _ _ rfl) ⟨rfl, by decide +kernel, by decide +kernel, rfl, rfl, rfl⟩, rfl⟩,
    by decide +kernel⟩

/-- A record of junction 5 that is ACTIVE. -/
def activeAtFive : Request := { unitRequest with junction := 5, state := .active (activeRequest 1000 1200) }

/-- The table is full: a PENDING record of junction 5 in slot 0, ACTIVE ones elsewhere. -/
def fullTable (rec : List Byte) : State :=
  { recording rec with
    plant := { (recording rec).plant with
      req := (Vector.replicate 24 (some activeAtFive)).set 0 (some { activeAtFive with state := .pending }), arrivals := [0] } }

theorem fullTable_at (rec : List Byte) (i : SlotNo) : (fullTable rec).plant.req[i] =
    if i = 0 then some { activeAtFive with state := .pending } else some activeAtFive := by
  change ((Vector.replicate 24 (some activeAtFive)).set 0 (some { activeAtFive with state := .pending }))[i] = _
  split
  · subst i
    rfl
  · rename_i hi
    have : ¬ 0 = i.val := fun c => hi (Fin.ext c.symm)
    simp [this]

theorem witness_Record_full (rec : List Byte) (h : reportBodyGood (recordBody rec) = true ∧ reportRecords (recordBody rec) = [rec]) :
    (fullTable rec).QuietReport 0 (recordBody rec) [rec] ∧ (∀ i : SlotNo, (fullTable rec).plant.req[i] ≠ none) ∧
    (∀ i : SlotNo, ∀ r, (fullTable rec).plant.req[i] = some r → r.key ≠ { junction := 0, source := .unit, id := 7 }) ∧
    (fullTable rec).plant.arrivals = [] ++ 0 :: [] ∧ (fullTable rec).plant.NoCandidateBut 5 0 := by
  refine ⟨⟨corridor_fresh (corridor_plant_settled _ _ _ _ rfl) ⟨rfl, h.1, h.2, rfl, rfl, rfl⟩, rfl⟩, ?_, ?_, rfl, ?_⟩
  · intro i
    rw [fullTable_at]
    split <;> simp
  · intro i r e
    rw [fullTable_at] at e
    split at e <;> cases e <;> decide
  · intro i hi r e _
    rw [fullTable_at, if_neg hi] at e
    cases e
    rfl

/-- Such records at level 5 and at level 16, and one that is bad by its level. -/
theorem witness_Record_forms :
    (reportBodyGood (recordBody [7, 5, 3, 2, 10, 60, 0]) = true ∧
      reportRecords (recordBody [7, 5, 3, 2, 10, 60, 0]) = [[7, 5, 3, 2, 10, 60, 0]]) ∧
    (reportBodyGood (recordBody [7, 16, 3, 2, 10, 60, 0]) = true ∧
      reportRecords (recordBody [7, 16, 3, 2, 10, 60, 0]) = [[7, 16, 3, 2, 10, 60, 0]]) ∧
    (recording [7, 17, 3, 2, 10, 60, 0]).QuietReport 0 (recordBody [7, 17, 3, 2, 10, 60, 0]) [[7, 17, 3, 2, 10, 60, 0]] ∧
    16 < (([7, 17, 3, 2, 10, 60, 0] : List Byte).getD 1 0).toNat :=
  ⟨by decide +kernel, by decide +kernel, recording_quiet _ (by decide +kernel), by decide⟩

/-- R101: the new request at level 16 takes slot 0 from the PENDING record of junction 5. -/
theorem test_slotTake : ∃ t, exec (.reportReceived 0 .detectorFirst (reportWire (recordBody [7, 16, 3, 2, 10, 60, 0])))
      (fullTable [7, 16, 3, 2, 10, 60, 0]) = .next t ∧
    (t.plant.req[(0 : SlotNo)].map Request.level) = some 16 := ⟨_, rfl, by decide +kernel⟩

/-- A CENTRAL arrival that refreshes the PENDING record of an IN_STEP junction. -/
def refreshing : Arrival :=
  { junction := 0, source := .central, id := 255, level := 16, action := .insert, stage := 2, time := 10, wait := 0 }

theorem witness_Refresh_plant :
    (withRequest pendingRequest (corridor coordinated band side)).plant.jn[refreshing.junction].state.coordinated = true ∧
    1 ≤ refreshing.level ∧
    (withRequest pendingRequest (corridor coordinated band side)).plant.req[(0 : SlotNo)] = some pendingRequest ∧
    pendingRequest.state = .pending ∧ pendingRequest.key = refreshing.key := by decide +kernel

theorem witness_Insert_level16 : (asked 0x40 (raiseBody 16 2 5) (servingTop 50)).Takes 7 0x40 (raiseBody 16 2 5) ∧
    (asked 0x40 [0, 255, 16, 2, 5, 120, 5] (servingTop 50)).Takes 7 0x40
      [byte (0 : JIdx).val, byte 255, byte 16, 2, byte ((4 : Stage).val + 1), byte 120, byte 5] ∧
    (servingTop 50).plant.jn[(0 : JIdx)].state = .inStep ∧ (servingTop 50).plant.jn[(0 : JIdx)].level = 0 ∧
    (servingTop 50).plant.jn[(0 : JIdx)].stack = [] ∧ (servingTop 50).plant.jn[(0 : JIdx)].chain = 1 :: [2] ∧
    (servingTop 50).plant.free = 3 :: (List.finRange 128).drop 4 ∧ (servingTop 50).plant.pool[(1 : EntryNo)].origin = .host ∧
    (servingTop 50).plant.jn[(0 : JIdx)].green ≠ some 4 ∧ (servingTop 50).plant.jn[(0 : JIdx)].order = none ∧
    (servingTop 50).plant.pool[(1 : EntryNo)].status = .serving ∧ (servingTop 50).plant.req[(0 : SlotNo)] = none :=
  ⟨asked_takes _ _ _ (by decide) rfl rfl, asked_takes _ _ _ (by decide) rfl rfl, by decide +kernel⟩

theorem witness_Insert_level16_order :
    (asked 0x40 [0, 255, 16, 2, 5, 120, 5] (ordered 3 1)).Takes 7 0x40
      [byte (0 : JIdx).val, byte 255, byte 16, 2, byte ((4 : Stage).val + 1), byte 120, byte 5] ∧
    (ordered 3 1).plant.jn[(0 : JIdx)].state = .inStep ∧ (ordered 3 1).plant.jn[(0 : JIdx)].level = 0 ∧
    (ordered 3 1).plant.jn[(0 : JIdx)].chain = 1 :: [2] ∧ (ordered 3 1).plant.pool[(1 : EntryNo)].origin = .host ∧
    (ordered 3 1).plant.jn[(0 : JIdx)].order = some (orderOf (some 1000)) ∧
    (ordered 3 1).plant.pool[(1 : EntryNo)].status = .waiting ∧ (ordered 3 1).plant.free = 3 :: (List.finRange 128).drop 4 :=
  ⟨asked_takes _ _ _ (by decide) rfl rfl, by decide +kernel⟩

/-- A service entry with its slot. -/
def serviceEntry (k : SlotNo) : Entry := { side with stage := 4, origin := .service, kind := .once, slot := some k, notify := false }

/-- The two records of a full stack, over entry 3 and the service entry 2. -/
def stackTop : Context := { slot := 1, entry := 2, saved := 100, minReached := true, prior := 3 }
def stackBottom : Context := { slot := 0, entry := 3, saved := 120, minReached := false, prior := 0 }

/-- Junction 0 at level 5 with two INSERT requests: entry 1, of slot 1, serves over entry 2, of slot 0, and the host entry 3. -/
def fullStack (svc : Nat) : State :=
  let s := corridor { coordinated with level := 5, green := some 4, chain := [1, 2, 3], stack := [stackTop, stackBottom] }
    (served (serviceEntry 1) 50) (serviceEntry 0)
  { s with plant := { s.plant with
      pool := s.plant.pool.set 3 side
      free := (List.finRange 128).drop 4
      req := (s.plant.req.set 0 (some { pendingRequest with state := .active (activeRequest svc 1200) })).set 1
        (some { pendingRequest with id := 254, state := .active (activeRequest 1100 1200) }) } }

theorem fullStack_settled (svc : Nat) : (fullStack svc).Settled := corridor_plant_settled _ _ _ _ rfl

/-- The only records of the full stack. -/
theorem fullStack_records {svc : Nat} {i : SlotNo} {r : Request} (h : (fullStack svc).plant.req[i] = some r) :
    r = { pendingRequest with id := 254, state := .active (activeRequest 1100 1200) } ∨
      r = { pendingRequest with state := .active (activeRequest svc 1200) } := by
  have e : (fullStack svc).plant.req = ((Vector.replicate 24 none).set 0
    (some { pendingRequest with state := .active (activeRequest svc 1200) })).set 1
      (some { pendingRequest with id := 254, state := .active (activeRequest 1100 1200) }) := rfl
  rw [e] at h
  simp only [Fin.getElem_fin, Vector.getElem_set, Vector.getElem_replicate] at h
  split at h
  · exact Or.inl (Option.some.inj h).symm
  · split at h
    · exact Or.inr (Option.some.inj h).symm
    · cases h

theorem fullStack_active (svc : Nat) : (fullStack svc).plant.NoCandidate 0 := fun _ _ h _ => by
  rcases fullStack_records h with e | e <;> rw [e] <;> rfl

theorem fullStack_key (svc : Nat) (i : SlotNo) (r : Request) (h : (fullStack svc).plant.req[i] = some r) :
    r.key ≠ { junction := 0, source := .central, id := 1 } := by
  rcases fullStack_records h with e | e <;> rw [e] <;> simp [Request.key, pendingRequest]

theorem witness_Insert_displaces : (asked 0x40 [0, 1, 16, 2, 3, 120, 5] (fullStack 1000)).Takes 7 0x40
      [byte (0 : JIdx).val, byte 1, byte 16, 2, byte ((2 : Stage).val + 1), byte 120, byte 5] ∧
    (fullStack 1000).plant.jn[(0 : JIdx)].state = .inStep ∧ (fullStack 1000).plant.jn[(0 : JIdx)].level < 16 ∧
    (fullStack 1000).plant.jn[(0 : JIdx)].stack = [stackTop, stackBottom] ∧ stackBottom.slot = 0 ∧ stackTop.slot ≠ 0 ∧
    (fullStack 1000).plant.jn[(0 : JIdx)].chain = 1 :: 2 :: [3] ∧ (1 :: 2 :: [3] : List EntryNo).Nodup ∧
    (1 : EntryNo) ≠ stackBottom.entry ∧ (fullStack 1000).plant.pool[(2 : EntryNo)].origin = .service ∧
    (fullStack 1000).plant.pool[(2 : EntryNo)].slot = some 0 ∧ (fullStack 1000).plant.pool[(1 : EntryNo)].slot ≠ some 0 ∧
    (fullStack 1000).plant.pool[(1 : EntryNo)].origin = .service ∧
    (fullStack 1000).plant.pool[(1 : EntryNo)].status = .serving ∧
    (fullStack 1000).plant.free = 4 :: (List.finRange 128).drop 5 ∧ (4 : EntryNo) ∉ (1 :: 2 :: [3] : List EntryNo) ∧
    (fullStack 1000).plant.pool[(2 : EntryNo)].notify = false ∧ (fullStack 1000).plant.jn[(0 : JIdx)].order = none ∧
    (fullStack 1000).plant.jn[(0 : JIdx)].green ≠ some 2 ∧
    (fullStack 1000).plant.req[(0 : SlotNo)] = some { pendingRequest with state := .active (activeRequest 1000 1200) } ∧
    (∀ i ∈ (fullStack 1000).plant.arrivals, i ≠ 2) ∧ (fullStack 1000).plant.req[(2 : SlotNo)] = none ∧
    ∀ i : SlotNo, i < 2 → (fullStack 1000).plant.req[i] ≠ none :=
  ⟨asked_takes _ _ _ (by decide) rfl rfl, by decide +kernel⟩

theorem witness_Fold : (fullStack 1000).plant.raised = [] ∧ (activeRequest 1000 1200).svcEnd = .due 1000 ∧
    1000 ≤ (fullStack 1000).now ∧ (fullStack 1000).plant.jn[(0 : JIdx)].chain = [1] ++ 2 :: [3] ∧
    (2 : EntryNo) ∉ ([1] : List EntryNo) ∧ (∀ i ∈ ([1] : List EntryNo), (fullStack 1000).plant.pool[i].slot ≠ some 0) ∧
    (fullStack 1000).plant.jn[(0 : JIdx)].order = none := by decide +kernel

/-- The same with the order of the entry beneath still in flight. -/
def fullStackOrdered : State :=
  let s := fullStack 1000
  { s with plant := s.plant.upd 0 fun J => { J with green := none, order := some { orderOf none with entry := 2 } } }

theorem witness_Fold_order : fullStackOrdered.plant.raised = [] ∧
    fullStackOrdered.plant.jn[(0 : JIdx)].order = some { orderOf none with entry := 2 } ∧
    fullStackOrdered.plant.jn[(0 : JIdx)].stack = [stackTop, stackBottom] ∧
    fullStackOrdered.plant.jn[(0 : JIdx)].chain = [1] ++ 2 :: [3] ∧ fullStackOrdered.plant.NoCandidateBut 0 0 :=
  ⟨rfl, rfl, rfl, rfl, fun _ _ _ h _ => fullStack_active 1000 _ _ h (by rcases fullStack_records h with e | e <;> rw [e] <;> rfl)⟩

theorem witness_InsertEnds_cancel : (asked 0x41 [0, 2, 255] (inserted 1001 1200)).Takes 7 0x41
      [byte (0 : JIdx).val, SourceKind.central.code, byte 255] ∧
    pendingRequest.key = { junction := 0, source := .central, id := 255 } ∧ (inserted 1001 1200).plant.NoCandidateBut 0 0 :=
  ⟨asked_takes _ _ _ (by decide) rfl rfl, by decide, oneRecord_noCandidateBut _ _ _ _ 0⟩

/-- An INSERT over the interrupted BAND entry 1, the call point reached. -/
def insertedBand : State :=
  withRequest { pendingRequest with state := .active (activeRequest 1000 1200) }
    (corridor { interrupted with chain := [2, 1], green := some 4, level := 5, callReached := true } band
      (served { side with stage := 4, origin := .service, kind := .once, slot := some 0 } 50))

theorem witness_InsertEnds_band : insertedBand.plant.raised = [] ∧ insertedBand.plant.jn[(0 : JIdx)].state = .inStep ∧
    insertedBand.plant.jn[(0 : JIdx)].stack = [{ slot := 0, entry := 1, saved := 120, minReached := true, prior := 0 }] ∧
    insertedBand.plant.jn[(0 : JIdx)].chain = 2 :: 1 :: [] ∧ insertedBand.plant.pool[(2 : EntryNo)].origin = .service ∧
    insertedBand.plant.pool[(2 : EntryNo)].slot = some 0 ∧ insertedBand.plant.pool[(2 : EntryNo)].status = .serving ∧
    insertedBand.plant.pool[(2 : EntryNo)].notify = false ∧ insertedBand.plant.pool[(1 : EntryNo)].origin = .host ∧
    insertedBand.plant.pool[(1 : EntryNo)].role = .band ∧ insertedBand.plant.pool[(1 : EntryNo)].status = .waiting ∧
    insertedBand.plant.jn[(0 : JIdx)].order = none ∧ insertedBand.plant.jn[(0 : JIdx)].minWait = none ∧
    insertedBand.plant.jn[(0 : JIdx)].green ≠ some insertedBand.plant.pool[(1 : EntryNo)].stage ∧
    (activeRequest 1000 1200).svcEnd = .due 1000 ∧ 1000 ≤ insertedBand.now := by decide +kernel

theorem witness_InsertEnds_band_quiet : insertedBand.plant.NoCandidateBut 0 0 := oneRecord_noCandidateBut _ _ _ _ 0

/-- An EXTEND over the top x, entry 2 behind it. -/
def extended (passed : Bool) (g : GapTimer) (x : Entry) : State :=
  withRequest { pendingRequest with action := .extend, state := .active (activeRequest 1000 1200) }
    (corridor { coordinated with
      level := 5, green := some x.stage, endPassed := passed
      stack := [{ slot := 0, entry := 1, saved := 120, minReached := true, prior := 0 }]
      det := { Detectors.cold with gap := Detectors.cold.gap.set x.stage g } } x { side with stage := 6 })

theorem extended_premises (passed : Bool) (g : GapTimer) (x : Entry) (h : x.origin = .host ∧ x.kind = .recurring ∧
      x.status = .serving ∧ x.stage ≠ 6 ∧ x.slot = none) :
    (extended passed g x).plant.raised = [] ∧ (extended passed g x).plant.jn[(0 : JIdx)].state = .inStep ∧
    (extended passed g x).plant.jn[(0 : JIdx)].stack = [{ slot := 0, entry := 1, saved := 120, minReached := true, prior := 0 }] ∧
    (extended passed g x).plant.jn[(0 : JIdx)].chain = 1 :: 2 :: [] ∧ (extended passed g x).plant.pool[(1 : EntryNo)] = x ∧
    (extended passed g x).plant.jn[(0 : JIdx)].order = none ∧ (extended passed g x).plant.jn[(0 : JIdx)].minWait = none ∧
    (extended passed g x).plant.jn[(0 : JIdx)].force = false ∧ (extended passed g x).plant.jn[(0 : JIdx)].callReached = false ∧
    (extended passed g x).plant.jn[(0 : JIdx)].dwell = false ∧ (extended passed g x).plant.jn[(0 : JIdx)].allowance = none ∧
    (extended passed g x).plant.pool[(2 : EntryNo)].role = .side ∧ (extended passed g x).plant.pool[(2 : EntryNo)].demand = .recall ∧
    (extended passed g x).plant.jn[(0 : JIdx)].green ≠ some (extended passed g x).plant.pool[(2 : EntryNo)].stage ∧
    (extended passed g x).plant.jn[(0 : JIdx)].endPassed = passed ∧
    (extended passed g x).plant.jn[(0 : JIdx)].det.gap[x.stage] = g ∧ (extended passed g x).plant.NoCandidateBut 0 0 := by
  refine ⟨rfl, rfl, rfl, rfl, rfl, rfl, rfl, rfl, rfl, rfl, rfl, rfl, rfl, ?_, rfl, ?_, oneRecord_noCandidateBut _ _ _ _ 0⟩
  · show some x.stage ≠ some 6
    simpa using h.2.2.2.1
  · show (Detectors.cold.gap.set x.stage g)[x.stage] = g
    simp

/-- The five tops: split passed, gap expired, neither, BAND with its end passed, BAND before its minimum. -/
theorem witness_Extend_ends : (10 * (served side 200).split ≤ (served side 200).elapsed.getD 0 ∧
      10 * (served side 200).minimum ≤ (served side 200).elapsed.getD 0 ∧ (served side 200).role = .side) ∧
    ¬(10 * (served { side with minimum := 30 } 299).minimum ≤ (served { side with minimum := 30 } 299).elapsed.getD 0) ∧
    ((served { side with demand := .call } 100).elapsed.getD 0 < 10 * (served { side with demand := .call } 100).split ∧
      10 * (served { side with demand := .call } 100).minimum ≤ (served { side with demand := .call } 100).elapsed.getD 0) ∧
    (served side 100).elapsed.getD 0 < 10 * (served side 100).split ∧ (served side 100).demand ≠ .call ∧
    10 * (served band 100).minimum ≤ (served band 100).elapsed.getD 0 ∧ (served band 100).role = .band ∧
    ¬(10 * (served band 99).minimum ≤ (served band 99).elapsed.getD 0) := by decide

theorem witness_Extend_noService : ∀ i : EntryNo, (extended false .expired (served side 200)).plant.pool[i].origin = .service →
    (extended false .expired (served side 200)).plant.pool[i].slot ≠ some 0 := by decide +kernel

/-- Split passed and gap expired together: the outcome is SERVED (assumption log 57). -/
theorem test_extend_servedFirst : ∃ t, exec (.serviceEnd 0) (extended false .expired (served { side with demand := .call } 200)) =
    .next t ∧ t.plant.pool[(1 : EntryNo)].outcome = .served := ⟨_, rfl, by decide +kernel⟩

/-! ## Wider clauses: scripts and notices -/

/-- Two master blocks, and the three kinds of junction block. -/
def masterBlocks : List (Block × Byte) := [(.cycle 100, 0), (.direction .outbound, 9)]
def junctionBlocks : List (Block × Byte) := [(.offset (-5), 0), (.split 2 30, 0), (.guard 20 10, 0)]

/-- Their LOAD STEP bodies. -/
def masterBody : List Byte := [12, 63, 2, 1, 100, 0, 2, 2, 9]
def junctionBody : List Byte := [0, 1, 3, 3, 251, 0, 4, 3, 30, 5, 20, 10]

theorem loadBodies_eq : masterBody = byte (12 : QueueNo).val :: byte 63 :: byte masterBlocks.length ::
      masterBlocks.flatMap (fun b => b.1.bytes b.2) ∧
    junctionBody = byte (0 : QueueNo).val :: byte 1 :: byte junctionBlocks.length ::
      junctionBlocks.flatMap (fun b => b.1.bytes b.2) ∧
    ([0, 1, 1, 1, 100, 0] : List Byte) = byte (0 : QueueNo).val :: byte 1 :: byte 1 :: (Block.cycle 100).bytes 0 ∧
    ([12, 1, 1, 1, 39, 0] : List Byte) = byte (12 : QueueNo).val :: byte 1 :: byte 1 :: (Block.cycle 39).bytes 0 := by decide

theorem loadBlocks_fit : (∀ b ∈ masterBlocks, b.1.fits) ∧ ∀ b ∈ junctionBlocks, b.1.fits := by
  simp [masterBlocks, junctionBlocks, Block.fits]

theorem witness_LoadStep_good : (asked 0x60 masterBody State.reset).Takes 7 0x60 masterBody ∧
    (∀ b ∈ masterBlocks, (b.1.isMaster = true ↔ (12 : QueueNo) = masterQueue) ∧ b.1.inRange = true) ∧
    (asked 0x60 junctionBody (corridor coordinated band side)).Takes 7 0x60 junctionBody ∧
    (∀ b ∈ junctionBlocks, (b.1.isMaster = true ↔ (0 : QueueNo) = masterQueue) ∧ b.1.inRange = true) ∧
    (∀ j : JIdx, j.val = (0 : QueueNo).val → (corridor coordinated band side).plant.jn[j].state ≠ .absent) ∧
    (asked 0x60 junctionBody State.reset).Takes 7 0x60 junctionBody ∧
    ∃ j : JIdx, j.val = (0 : QueueNo).val ∧ State.reset.plant.jn[j].state = .absent :=
  ⟨asked_takes _ _ _ (by decide) rfl rfl, by decide, asked_takes _ _ _ (by decide) rfl rfl, by decide, by decide +kernel,
    asked_takes _ _ _ (by decide) rfl rfl, 0, rfl, by decide +kernel⟩

theorem witness_LoadStep_bad : (asked 0x60 [0, 1, 1, 1, 100, 0] State.reset).Takes 7 0x60 [0, 1, 1, 1, 100, 0] ∧
    ¬((Block.cycle 100).isMaster = true ↔ (0 : QueueNo) = masterQueue) ∧
    (asked 0x60 [12, 1, 1, 1, 39, 0] State.reset).Takes 7 0x60 [12, 1, 1, 1, 39, 0] ∧ (Block.cycle 39).inRange ≠ true :=
  ⟨asked_takes _ _ _ (by decide) rfl rfl, by decide, asked_takes _ _ _ (by decide) rfl rfl, by decide⟩

/-- A store without a free slot. -/
def fullStore : State :=
  { State.reset with
    script := { ScriptUnit.empty with queues := (Vector.replicate 13 []).set 12 (List.replicate 256 .endMark) } }

theorem witness_LoadStep_full : (asked 0x60 masterBody fullStore).Takes 7 0x60 masterBody ∧ 256 ≤ fullStore.script.held :=
  ⟨asked_takes _ _ _ (by decide) rfl rfl, by decide +kernel⟩

/-- A COORDINATING corridor in the last tenth of its cycle with a group that waits: a step for junction 0, end marks elsewhere. -/
def groupWaiting (nb tod : Option Nat) : State :=
  let s := wrapping none
  { s with
    tb := { s.tb with tod := tod }
    script := { ScriptUnit.empty with
      queues := (Vector.replicate 13 [.endMark]).set 0 [.step 1 [], .endMark], notBefore := [nb] } }

theorem groupWaiting_settled (nb tod : Option Nat) : (groupWaiting nb tod).Settled :=
  ⟨rfl, show HostPort.empty.choose = HostPort.empty by decide⟩

theorem witness_GroupStart : (∀ q : QueueNo, (groupWaiting (some 86399) (some 100)).script.running[q] = false) ∧
    10 * (groupWaiting (some 86399) (some 100)).tb.c ≤ (groupWaiting (some 86399) (some 100)).tb.m + 1 ∧
    (groupWaiting (some 86399) (some 100)).tb.staged = none ∧
    (groupWaiting (some 86399) (some 100)).tb.corridor = .coordinating ∧
    (groupWaiting (some 86399) (some 100)).script.notBefore = some 86399 :: [] ∧ (100 + 86400 - 86399) % 86400 < 43200 ∧
    ¬((86398 + 86400 - 86399) % 86400 < 43200) ∧ (groupWaiting (some 5) none).tb.tod = none ∧
    (groupWaiting none none).script.notBefore = [none] ∧
    (groupWaiting none none).script.queues[(1 : QueueNo)] = .endMark :: [] ∧ (0 : QueueNo) ≠ masterQueue ∧
    (groupWaiting none none).script.queues[(0 : QueueNo)].head? ≠ some .endMark := by decide +kernel

/-- A state whose queue q runs, with a hold and items. -/
def counting (q : QueueNo) (hold : Nat) (items : List Item) (s : State) : State :=
  { s with script := { ScriptUnit.empty with
      queues := (Vector.replicate 13 []).set q items, running := (Vector.replicate 13 false).set q true
      hold := (Vector.replicate 13 0).set q hold } }

theorem witness_CycleStart_counts : (counting 0 1 [.step 2 [.offset 4]] cycleEnding).script.running[junctionQueue 0] = true ∧
    (counting 0 1 [.step 2 [.offset 4]] cycleEnding).plant.jn[(0 : JIdx)].state ≠ .absent ∧
    (counting 0 1 [.step 2 [.offset 4]] cycleEnding).plant.jn[(0 : JIdx)].span ≤
      (counting 0 1 [.step 2 [.offset 4]] cycleEnding).plant.jn[(0 : JIdx)].p ∧
    (counting 12 1 [.step 2 [.cycle 100]] (wrapping none)).script.running[masterQueue] = true ∧
    10 * (counting 12 1 [.step 2 [.cycle 100]] (wrapping none)).tb.c ≤
      (counting 12 1 [.step 2 [.cycle 100]] (wrapping none)).tb.m + 1 ∧
    (counting 12 1 [.step 2 [.cycle 100]] (wrapping none)).tb.staged = none := by decide +kernel

theorem witness_CountDown : State.reset.script.running[masterQueue] = false ∧
    ((counting 12 2 [] State.reset).script.running[masterQueue] = true ∧ 2 ≤ (counting 12 2 [] State.reset).script.hold[masterQueue]) ∧
    ((counting 12 1 [.endMark] State.reset).script.hold[masterQueue] = 1 ∧
      (counting 12 1 [.endMark] State.reset).script.queues[masterQueue] = .endMark :: [] ∧
      ¬∃ r : QueueNo, r ≠ masterQueue ∧ (counting 12 1 [.endMark] State.reset).script.running[r] = true) ∧
    (counting 12 1 [.step 2 [.cycle 100]] State.reset).script.queues[masterQueue] = .step 2 [.cycle 100] :: [] ∧
    ((counting 12 1 [.step 2 [.cycle 100]] State.reset).tryStep masterQueue [.cycle 100]).2 = none ∧
    ((counting 12 1 [.step 2 [.cycle 41]] (readyPlan 2 10)).tryStep masterQueue [.cycle 41]).2 = some (.range, some 0) := by
  decide +kernel

/-- R158, R16: a step that leaves C as it is passes, though a plan is infeasible; a changed C is checked. -/
theorem test_masterStep : (corridor coordinated band { side with minimum := 90 }).plant.planFeasible 0 90 = false ∧
    ((corridor coordinated band { side with minimum := 90 }).tryStep masterQueue [.direction .outbound]).2 = none ∧
    ((corridor coordinated band { side with minimum := 90 }).tryStep masterQueue [.cycle 90]).2 = none ∧
    ((corridor coordinated band { side with minimum := 90 }).tryStep masterQueue [.cycle 91]).2 = some (.infeasible, some 0) := by
  decide +kernel

theorem witness_JunctionStep : (90 / 1 / 5 < (19 : Int).natAbs ∧ (-18 : Int).natAbs ≤ 90 / 1 / 5) ∧
    (corridor coordinated band side).tb.c / (corridor coordinated band side).plant.jn[(0 : JIdx)].plan.mult = 90 ∧
    feasibilitySum ((corridor coordinated band side).plant.chainEntries 0) 5 * 1 ≤ 90 ∧
    90 < feasibilitySum ((corridor coordinated band { side with minimum := 90 }).plant.chainEntries 0) 5 * 1 ∧
    (∃ x ∈ (corridor coordinated band side).plant.chainEntries 0,
      x.origin = .host ∧ x.kind = .recurring ∧ x.stage = 2 ∧ 9 < x.minimum) ∧
    (∀ x ∈ (corridor coordinated band side).plant.chainEntries 0, x.stage = 2 → x.minimum ≤ 10) := by decide +kernel

/-- A junction step at the local cycle start of a junction that runs with the master cycle. -/
def aligned : State :=
  let s := corridor { coordinated with p := 0 } band side
  { s with tb := { s.tb with m := 0 } }

theorem witness_OffsetStep : aligned.plant.jn[(0 : JIdx)].p = 0 ∧ aligned.tb.c = 90 * aligned.plant.jn[(0 : JIdx)].plan.mult ∧
    (aligned.tb.m : Int) % (10 * 90 : Nat) = 10 * aligned.plant.jn[(0 : JIdx)].plan.offset ∧
    aligned.plant.jn[(0 : JIdx)].plan.offset < 90 ∧
    (aligned.tryStep (junctionQueue 0) [.offset (-18)]).1.plant.jn[(0 : JIdx)].span = 720 ∧
    (aligned.tryStep (junctionQueue 0) [.offset 18]).1.plant.jn[(0 : JIdx)].span = 1080 := by decide +kernel

theorem witness_Resume_pending : (asked 0x72 [0xFF] (sending [])).Takes 7 0x72 [0xFF] ∧ (sending []).report.pend = 7 :=
  ⟨asked_takes _ _ _ (by decide) rfl rfl, rfl⟩

theorem witness_Notices_form : (asked 0x71 [] State.reset).Takes 7 0x71 [] ∧ (asked 0x72 [1, 2] State.reset).Takes 7 0x72 [1, 2] ∧
    ([] : List Byte).length ≠ 1 ∧ ([1, 2] : List Byte).length ≠ 1 :=
  ⟨asked_takes _ _ _ (by decide) rfl rfl, asked_takes _ _ _ (by decide) rfl rfl, by decide⟩

/-! ## Wider clauses: reports, guard, lines -/

theorem witness_MinimumWait_counts : minimumWaiting.tb.m + 1 < 10 * minimumWaiting.tb.c ∧
    minimumWaiting.plant.jn[(0 : JIdx)].state ≠ .absent ∧ minimumWaiting.plant.jn[(0 : JIdx)].minWait = some 1 := by
  decide +kernel

theorem corridor_junction (J : Junction) (x y : Entry) : (corridor J x y).plant.jn[(0 : JIdx)] = J := by simp [corridor]

/-- A state at rest whose junction 0 receives a report without edges. -/
theorem reported_quiet {s : State} {J : Junction} {body : List Byte} {records : List (List Byte)} (h : s.Settled)
    (e : s.plant.jn[(0 : JIdx)] = reported body J) (c : J.line.rx = [] ∧ reportBodyGood body = true ∧
      reportRecords body = records ∧ J.line.up = true ∧ J.dwell = false) : s.QuietReport 0 body records := by
  refine ⟨corridor_fresh h ?_, ?_⟩ <;> rw [e] <;> simp only [reported]
  exact ⟨c.1, c.2.1, c.2.2.1, c.2.2.2.1, trivial, c.2.2.2.2⟩

/-- The same for a corridor at rest. -/
theorem corridor_quiet {J : Junction} {x y : Entry} {body : List Byte} {records : List (List Byte)} (c : J.line.rx = [] ∧
      reportBodyGood body = true ∧ reportRecords body = records ∧ J.line.up = true ∧ J.dwell = false) :
    (corridor (reported body J) x y).QuietReport 0 body records :=
  reported_quiet (corridor_settled _ _ _) (corridor_junction _ _ _) c

/-- A REPORT body with a mode, a green stage, a tag and a lamp mark, without requests. -/
def plainBody (mode green tag lamp : Byte) : List Byte := [mode, green, tag, lamp, 0, 0, 0x80, 0]

/-- The order of entry 1 is in flight and stage 5 is reported green. -/
def mistaken (allowance retries : Nat) : State :=
  corridor (reported (plainBody 1 5 15 0) { coordinated with order := some (orderOf (some 2000)) })
    { side with allowance := allowance, retries := retries } band

theorem witness_WrongStage : (mistaken 3 1).QuietReport 0 (plainBody 1 5 15 0) [] ∧
    (mistaken 3 1).ReadyUnit 0 (plainBody 1 5 15 0) ∧ (mistaken 3 1).plant.NoCandidate 0 ∧
    (mistaken 3 1).plant.jn[(0 : JIdx)].state.coordinated = true ∧ (mistaken 3 1).plant.jn[(0 : JIdx)].chain = 1 :: [2] ∧
    (mistaken 3 1).plant.jn[(0 : JIdx)].green = none ∧
    (mistaken 3 1).plant.jn[(0 : JIdx)].order = some (orderOf (some 2000)) ∧
    reportTag (plainBody 1 5 15 0) = (15 : Tag).val ∧
    reportGreen (plainBody 1 5 15 0) ≠ some (mistaken 3 1).plant.pool[(1 : EntryNo)].stage ∧
    0 < (mistaken 3 1).plant.pool[(1 : EntryNo)].retries ∧ (mistaken 0 0).plant.pool[(1 : EntryNo)].allowance = 0 ∧
    (mistaken 3 0).plant.pool[(1 : EntryNo)].allowance ≠ 0 ∧ (mistaken 3 0).plant.pool[(1 : EntryNo)].retries = 0 ∧
    ∀ i ∈ (mistaken 3 0).plant.jn[(0 : JIdx)].chain, (mistaken 3 0).plant.pool[i].origin = .host :=
  ⟨corridor_quiet (by decide +kernel), corridor_ready (by decide +kernel), corridor_noCandidate _ _ _ _, by decide +kernel⟩

/-- The order of the top x, for its stage 3, is in flight and the report shows that stage green. -/
def answering (J : Junction) (x : Entry) : State :=
  corridor (reported (plainBody 1 3 15 0) { J with order := some (orderOf (some 2000)) }) x side

theorem answering_premises (J : Junction) (x : Entry) (c : J.line.rx = [] ∧ J.line.up = true ∧ J.dwell = false ∧
      J.line.mode = some .coordReady ∧ J.chain = [1, 2] ∧ x.stage = 2) :
    (answering J x).QuietReport 0 (plainBody 1 3 15 0) [] ∧ (answering J x).ReadyUnit 0 (plainBody 1 3 15 0) ∧
      (answering J x).plant.NoCandidate 0 ∧ (answering J x).Confirms 0 (plainBody 1 3 15 0) 1 [2] := by
  refine ⟨corridor_quiet ⟨c.1, by decide +kernel, by decide +kernel, c.2.1, c.2.2.1⟩, corridor_ready ?_,
    corridor_noCandidate _ _ _ _, ?_, ⟨15, some 2000, ?_, by decide⟩, ?_⟩
  · rw [answering, corridor_junction]
    exact ⟨c.2.2.2.1, by decide, by decide⟩
  · rw [answering, corridor_junction]
    exact c.2.2.2.2.1
  · rw [answering, corridor_junction]
    show some (orderOf (some 2000)) = some { entry := 1, live := true, stage := x.stage, tag := 15, deadline := some 2000 }
    rw [c.2.2.2.2.2]
    rfl
  · show reportGreen (plainBody 1 3 15 0) = some x.stage
    rw [c.2.2.2.2.2]
    decide

/-- A BAND entry of stage 3. -/
def band3 : Entry := { band with stage := 2 }

theorem witness_Confirm_band : (answering { coordinated with state := .joining, p := 449 } band3).Confirms 0 (plainBody 1 3 15 0) 1 [2] ∧
    (answering { coordinated with state := .joining, p := 449 } band3).plant.jn[(0 : JIdx)].state.coordinated = true ∧
    (answering { coordinated with p := 450 } band3).plant.pool[(1 : EntryNo)].role = .band ∧
    (answering { coordinated with p := 450 } band3).plant.pool[(1 : EntryNo)].origin = .host ∧
    (answering { coordinated with p := 450 } band3).plant.pool[(1 : EntryNo)].demand = .recall ∧
    (answering { coordinated with p := 450 } band3).plant.pool[(1 : EntryNo)].slot = none ∧
    2 * (answering { coordinated with p := 449 } band3).plant.jn[(0 : JIdx)].p < 900 ∧
    900 ≤ 2 * (answering { coordinated with p := 450 } band3).plant.jn[(0 : JIdx)].p ∧
    (answering { coordinated with p := 450 } band3).plant.jn[(0 : JIdx)].guard.probe.active = false :=
  ⟨(answering_premises _ _ (by decide)).2.2.2, by decide +kernel⟩

/-- Enabled guard settings, detector 7 mapped with a function. -/
def guarded (f : DetFn) : Junction :=
  { coordinated with
    guard := { Guard.cold with settings := guardOn }, det := { Detectors.cold with map := Detectors.cold.map.set 7 f } }

/-- The guard of a confirmed BAND entry: a probe already active, and enabled settings with and without the exit detector 7. -/
theorem witness_Confirm_band_guard :
    (answering { coordinated with guard := { Guard.cold with probe := .armed 5 } } band3).Confirms 0 (plainBody 1 3 15 0) 1 [2] ∧
    (answering { coordinated with guard := { Guard.cold with probe := .armed 5 } } band3).plant.jn[(0 : JIdx)].guard.probe.active =
      true ∧
    (answering (guarded .exitIn) band3).Confirms 0 (plainBody 1 3 15 0) 1 [2] ∧
    (answering (guarded .exitIn) band3).plant.jn[(0 : JIdx)].guard.probe.active = false ∧
    (answering (guarded .exitIn) band3).plant.jn[(0 : JIdx)].guard.settings.enable = true ∧
    (answering (guarded .exitIn) band3).plant.jn[(0 : JIdx)].det.map[(7 : DetIdx)] =
      exitFn (answering (guarded .exitIn) band3).tb.dir ∧
    (∀ i : DetIdx, i < 7 → (answering (guarded .exitIn) band3).plant.jn[(0 : JIdx)].det.map[i] ≠
      exitFn (answering (guarded .exitIn) band3).tb.dir) ∧
    (answering (guarded .exitOut) band3).plant.jn[(0 : JIdx)].guard.settings.enable = true ∧
    ∀ i : DetIdx, (answering (guarded .exitOut) band3).plant.jn[(0 : JIdx)].det.map[i] ≠
      exitFn (answering (guarded .exitOut) band3).tb.dir :=
  ⟨(answering_premises _ _ (by decide)).2.2.2, by decide +kernel, (answering_premises _ _ (by decide)).2.2.2, by decide +kernel⟩

/-- A late confirmation replaces the error its cycle already has (assumption logs 25 and 63). -/
theorem test_lateConfirmation : ∃ t, exec (.reportReceived 0 .detectorFirst (reportWire (plainBody 1 3 15 0)))
    (answering { coordinated with p := 300, tally := { Tally.clear with bandError := some (-5) } } band3) = .next t ∧
    t.plant.jn[(0 : JIdx)].tally.bandError = some 300 := ⟨_, rfl, by decide +kernel⟩

theorem witness_Confirm_call : (answering coordinated { side with demand := .call }).Confirms 0 (plainBody 1 3 15 0) 1 [2] ∧
    (answering coordinated { side with demand := .call }).plant.jn[(0 : JIdx)].state = .inStep ∧
    (answering coordinated { side with demand := .call }).plant.jn[(0 : JIdx)].force = false ∧
    (answering coordinated { side with demand := .call }).plant.jn[(0 : JIdx)].resuming = none :=
  ⟨(answering_premises _ _ (by decide)).2.2.2, by decide +kernel⟩

/-- An INSERT whose service has not started. -/
def unstarted : Active := { accepted := 500, svcEnd := .notStarted, started := false, cap := none, holdEnd := 1200 }

theorem witness_Confirm_service :
    (withRequest { pendingRequest with state := .active unstarted }
      (answering { coordinated with level := 5, stack := [stackBottom] } { serviceEntry 0 with stage := 2 })).QuietReport 0
        (plainBody 1 3 15 0) [] ∧
    (withRequest { pendingRequest with state := .active unstarted }
      (answering { coordinated with level := 5, stack := [stackBottom] } { serviceEntry 0 with stage := 2 })).plant.req[(0 : SlotNo)] =
        some { pendingRequest with state := .active unstarted } ∧ unstarted.started = false ∧
    (answering { coordinated with level := 5, stack := [stackBottom] } { serviceEntry 0 with stage := 2 }).Confirms 0
      (plainBody 1 3 15 0) 1 [2] :=
  ⟨⟨corridor_fresh (corridor_plant_settled _ _ _ _ rfl) (by decide +kernel), rfl⟩, by decide +kernel, by decide,
    (answering_premises _ _ (by decide)).2.2.2⟩

/-- R82: at the confirmation of stage 3 its called detector rises in the same report: the call is clear under either order. -/
theorem test_callAtConfirmation (first : TakeOrder) (h : first = .sequencerFirst ∨ first = .detectorFirst) :
    ∃ t, exec (.reportReceived 0 first (reportWire (plainBody 1 3 15 0)))
      (corridor { coordinated with
        order := some (orderOf (some 2000))
        det := { Detectors.cold with map := Detectors.cold.map.set 23 (.call 2), rowsValid := true } } side band) = .next t ∧
      t.plant.jn[(0 : JIdx)].det.flags[(2 : Stage)] = false := by
  rcases h with e | e <;> subst e <;> exact ⟨_, rfl, by decide +kernel⟩

/-- Detector 23, which calls and extends stage 3, is occupied in the report and was not before; detector 0 was and is not. -/
def edges (st : JState) : State :=
  corridor { greenSide with
    state := st
    det := { Detectors.cold with
      map := (Detectors.cold.map.set 23 (.callExtend 2)).set 0 (.call 5), rows := Detectors.cold.rows.set 0 true, rowsValid := true
      gap := Detectors.cold.gap.set 2 .expired } } (served { side with demand := .call } 50) band

theorem witness_Edges : (edges .inStep).FreshReport 0 reportBody [] ∧ (edges .inStep).ReadyUnit 0 reportBody ∧
    (edges .inStep).plant.NoCandidate 0 ∧ (edges .inStep).plant.jn[(0 : JIdx)].state.coordinated = true ∧
    (edges .inStep).plant.jn[(0 : JIdx)].order = none ∧ (edges .inStep).plant.jn[(0 : JIdx)].det.rows[(23 : DetIdx)] = false ∧
    (reportRows reportBody)[(23 : DetIdx)] = true ∧ (edges .inStep).plant.jn[(0 : JIdx)].chain = 1 :: [2] ∧
    (edges .inStep).plant.pool[(1 : EntryNo)].demand = .call ∧ (edges .inStep).plant.pool[(1 : EntryNo)].status = .serving ∧
    (edges .inStep).plant.jn[(0 : JIdx)].det.gap[(edges .inStep).plant.pool[(1 : EntryNo)].stage] ≠ .stopped ∧
    (edges .inStep).plant.jn[(0 : JIdx)].det.map[(23 : DetIdx)] = .callExtend 2 ∧
    (edges (.solo .plan)).FreshReport 0 reportBody [] ∧ (edges (.solo .plan)).plant.jn[(0 : JIdx)].state = .solo .plan :=
  ⟨corridor_fresh (corridor_settled _ _ _) (by decide +kernel), corridor_ready (by decide +kernel), corridor_noCandidate _ _ _ _,
    by decide +kernel, by decide +kernel, by decide +kernel, by decide +kernel, by decide +kernel, by decide +kernel,
    by decide +kernel, by decide +kernel, by decide +kernel, corridor_fresh (corridor_settled _ _ _) (by decide +kernel),
    by decide +kernel⟩

/-- Junction 0 at level 0 whose measurement reaches its threshold; junction 1 is ABSENT. -/
def gating (x y : Entry) : State :=
  corridor { coordinated with green := some 0, guard := { Guard.cold with settings := guardOn, probe := .measuring 5 800 1000 } } x y

theorem witness_Gate : ((gating side band).plant.raised = [] ∧ (gating side band).plant.NoCandidate 0 ∧
      ∀ d, downstream (gating side band).tb.dir 0 = some d → (gating side band).plant.jn[d].state.coordinated = false) ∧
    (gating side band).plant.jn[(0 : JIdx)].guard.probe = .measuring 5 800 1000 ∧ 1000 ≤ (gating side band).now ∧
    (gating side band).plant.jn[(0 : JIdx)].state = .inStep ∧ (gating side band).plant.jn[(0 : JIdx)].level = 0 ∧
    (gating side band).plant.pool[(1 : EntryNo)].role ≠ .band ∧
    ((gating (served band 99) side).plant.pool[(1 : EntryNo)].role = .band ∧
      (gating (served band 99) side).plant.pool[(1 : EntryNo)].status = .serving ∧
      (gating (served band 99) side).plant.jn[(0 : JIdx)].dwell = false ∧
      (gating (served band 99) side).plant.jn[(0 : JIdx)].chain = 1 :: 2 :: [] ∧
      (gating (served band 99) side).plant.pool[(2 : EntryNo)].role = .side ∧
      (gating (served band 99) side).plant.pool[(2 : EntryNo)].demand = .recall ∧
      (served band 99).elapsed.getD 0 < 10 * band.minimum) ∧
    10 * band.minimum ≤ (served band 100).elapsed.getD 0 ∧
    (gating (served band 100) side).plant.pool[(1 : EntryNo)].kind = .recurring ∧
    (gating (served band 100) side).plant.jn[(0 : JIdx)].order = none ∧
    (gating (served band 100) side).plant.jn[(0 : JIdx)].green ≠ some side.stage := by
  refine ⟨⟨rfl, corridor_noCandidate _ _ _ _, ?_⟩, by decide +kernel⟩
  decide +kernel

/-- The table is full when the guard of junction 0 posts its flush. -/
def flushing : State :=
  let s := spilling .joining guardOn
  { s with plant := { s.plant with req := Vector.replicate 24 (some { pendingRequest with junction := 5 }) } }

theorem witness_Flush_dropped : flushing.plant.raised = [] ∧ 0 < flushing.plant.jn[(0 : JIdx)].level ∧
    flushing.plant.jn[(0 : JIdx)].guard.probe = .measuring 5 800 1000 ∧ 1000 ≤ flushing.now ∧
    downstream flushing.tb.dir 0 = some 1 ∧ flushing.plant.jn[(1 : JIdx)].state.coordinated = true ∧
    flushing.plant.jn[(1 : JIdx)].chain = [] ++ 2 :: [] ∧ flushing.plant.pool[(2 : EntryNo)].role = .band ∧
    1 ≤ flushing.plant.jn[(0 : JIdx)].guard.settings.flushLevel ∧ flushing.plant.jn[(0 : JIdx)].guard.settings.flushLevel ≤ 15 ∧
    ∀ i : SlotNo, flushing.plant.req[i] ≠ none := by decide +kernel

theorem witness_Flush_key (i : SlotNo) (r : Request) (h : flushing.plant.req[i] = some r) :
    r.key ≠ { junction := 1, source := .guard, id := (0 : JIdx).val } := by
  have e : flushing.plant.req = Vector.replicate 24 (some { pendingRequest with junction := 5 }) := rfl
  rw [e] at h
  simp only [Fin.getElem_fin, Vector.getElem_replicate] at h
  rw [← Option.some.inj h]
  decide

/-- R143, R12: the junction leaves coordination before its moved band end point: the point of this cycle stays reached. -/
theorem test_gateThenLeave :
    ((Plant.leaveValues { coordinated with endDone := false, endPassed := true, moved := some 500 }).endDone,
      (Plant.leaveValues { coordinated with endDone := false, moved := none }).endDone) = (true, false) := by decide +kernel

/-- A DOWN line in SOLO LINK. -/
def lineDown (st : JState) : State :=
  corridor { coordinated with state := st, line := { coordinated.line with up := false, silence := none, mode := none } } band side

theorem witness_LinkUp : (lineDown (.solo .link)).Settled ∧ (lineDown (.solo .link)).plant.jn[(0 : JIdx)].line.rx = [] ∧
    reportBodyGood (plainBody 2 0 0 0) = true ∧ (plainBody 2 0 0 0).getD 7 0 = 0 ∧ reportLamp (plainBody 2 0 0 0) = false ∧
    (lineDown (.solo .link)).plant.jn[(0 : JIdx)].line.up = false ∧
    (lineDown (.solo .link)).plant.jn[(0 : JIdx)].state = .solo .link ∧
    (lineDown (.loc .noBand)).plant.jn[(0 : JIdx)].state = .loc .noBand ∧
    reportMode (plainBody 1 0 0 0) = .coordReady ∧ reportMode (plainBody 2 0 0 0) = .localManual ∧
    reportMode (plainBody 3 0 0 0) = .fault ∧ (lineDown (.loc .noBand)).tb.corridor = .coordinating ∧
    ((((lineDown (.solo .link)).plant.chainEntries 0).filter fun x => x.role == .band).length = 1 ∧
      feasibilitySum ((lineDown (.solo .link)).plant.chainEntries 0) 5 * 1 ≤ (lineDown (.solo .link)).tb.c) :=
  ⟨corridor_settled _ _ _, by decide +kernel⟩

/-- An UP line whose unit is in a mode and reports a body. -/
def modeChange (st : JState) (m : UnitMode) (body : List Byte) : State :=
  corridor (reported body { coordinated with state := st, line := { coordinated.line with mode := some m } }) band side

theorem witness_ModeChange (st : JState) (m : UnitMode) :
    (modeChange st m (plainBody 2 0 0 0)).QuietReport 0 (plainBody 2 0 0 0) [] ∧
    (modeChange st m (plainBody 2 0 0 0)).plant.NoCandidate 0 ∧
    (modeChange st m (plainBody 2 0 0 0)).plant.jn[(0 : JIdx)].line.mode = some m ∧
    (modeChange st m (plainBody 2 0 0 0)).plant.jn[(0 : JIdx)].state = st ∧
    reportMode (plainBody 2 0 0 0) = .localManual ∧ reportLamp (plainBody 2 0 0 0) = false :=
  ⟨corridor_quiet ⟨rfl, by decide +kernel, by decide +kernel, rfl, rfl⟩, corridor_noCandidate _ _ _ _, rfl, rfl, by decide, by decide⟩

theorem witness_LampFault (st : JState) : (modeChange st .coordReady (plainBody 1 0 0 1)).QuietReport 0 (plainBody 1 0 0 1) [] ∧
    (modeChange st .coordReady (plainBody 1 0 0 1)).plant.NoCandidate 0 ∧
    (modeChange st .coordReady (plainBody 1 0 0 1)).plant.jn[(0 : JIdx)].state = st ∧
    (modeChange st .coordReady (plainBody 1 0 0 1)).plant.jn[(0 : JIdx)].chain = 1 :: [2] ∧
    reportMode (plainBody 1 0 0 1) = .coordReady ∧ reportLamp (plainBody 1 0 0 1) = true ∧
    ∀ i ∈ [1, 2], (modeChange .inStep .coordReady (plainBody 1 0 0 1)).plant.pool[(i : EntryNo)].origin = .host :=
  ⟨corridor_quiet ⟨rfl, by decide +kernel, by decide +kernel, rfl, rfl⟩, corridor_noCandidate _ _ _ _, rfl, rfl, by decide, by decide,
    by decide +kernel⟩

/-! ## Wider clauses: refreshes, resumes and orders without their entry -/

/-- The ACTIVE record of an action and a level, its cap at 130.0 s. -/
def activeRecord (action : Action) (level : Nat) (started : Bool) : Request :=
  { pendingRequest with
    action := action, level := level
    state := .active { activeRequest 1000 1200 with started := started, cap := some 1300 } }

/-- Every form of R99: an EXTEND below and beyond its cap, an INSERT started and not, and service time 0 of each. -/
theorem witness_RefreshedTo :
    (∃ q, (activeRecord .extend 5 true).RefreshedTo { activeRequest 1000 1200 with cap := some 1300 } 29 1000 q) ∧
    (∃ q, (activeRecord .extend 5 true).RefreshedTo { activeRequest 1000 1200 with cap := some 1300 } 31 1000 q) ∧
    (∃ q, (activeRecord .insert 5 true).RefreshedTo { activeRequest 1000 1200 with cap := some 1300 } 1 1000 q) ∧
    (∃ q, (activeRecord .insert 5 false).RefreshedTo { activeRequest 1000 1200 with started := false, cap := some 1300 } 1 1000 q) ∧
    (∃ q, (activeRecord .insert 16 true).RefreshedTo { activeRequest 1000 1200 with cap := some 1300 } 0 1000 q) ∧
    (activeRecord .insert 15 true).RefreshedTo { activeRequest 1000 1200 with cap := some 1300 } 0 1000 (activeRecord .insert 15 true) ∧
    (activeRecord .extend 16 true).RefreshedTo { activeRequest 1000 1200 with cap := some 1300 } 0 1000 (activeRecord .extend 16 true) :=
  ⟨⟨_, .inl ⟨rfl, by decide, _, rfl, rfl⟩⟩, ⟨_, .inl ⟨rfl, by decide, _, rfl, rfl⟩⟩, ⟨_, .inr (.inl ⟨rfl, by decide, rfl⟩)⟩,
    ⟨_, .inr (.inl ⟨rfl, by decide, rfl⟩)⟩, ⟨_, .inr (.inr (.inl ⟨rfl, rfl, rfl, rfl⟩))⟩,
    .inr (.inr (.inr ⟨rfl, by decide, rfl⟩)), .inr (.inr (.inr ⟨rfl, by decide, rfl⟩))⟩

/-- The junction of that record, which holds the level of an EXTEND over its top. -/
def refreshingActive : State :=
  withRequest (activeRecord .extend 5 true) (corridor { coordinated with
    level := 5, green := some 0, stack := [{ slot := 0, entry := 1, saved := 120, minReached := true, prior := 0 }] }
    (served band 120) side)

theorem witness_Refresh_active : (asked 0x40 [0, 255, 16, 2, 1, 0, 0] refreshingActive).Takes 7 0x40 [0, 255, 16, 2, 1, 0, 0] ∧
    (asked 0x40 [0, 255, 1, 1, 8, 120, 255] refreshingActive).Takes 7 0x40 [0, 255, 1, 1, 8, 120, 255] ∧
    refreshingActive.plant.jn[(0 : JIdx)].state.coordinated = true ∧
    refreshingActive.plant.req[(0 : SlotNo)] = some (activeRecord .extend 5 true) ∧
    (activeRecord .extend 5 true).key = { junction := 0, source := .central, id := 255 } ∧
    (activeRecord .extend 5 true).key = refreshing.key ∧
    (∀ i : SlotNo, i ≠ 0 → ∀ q, refreshingActive.plant.req[i] = some q → q.key ≠ (activeRecord .extend 5 true).key) ∧
    refreshingActive.plant.NoCandidate 0 :=
  ⟨asked_takes _ _ _ (by decide) rfl rfl, asked_takes _ _ _ (by decide) rfl rfl, rfl, rfl, rfl, rfl,
    fun _ hi _ h => absurd (oneRecord h).1 hi, fun _ _ h _ => by rw [(oneRecord h).2]; rfl⟩

/-- R99: the service end of a refreshed EXTEND stops at its cap. -/
theorem test_refresh_cap : ∃ t, exec .raiseRequest (asked 0x40 [0, 255, 1, 1, 8, 120, 255] refreshingActive) = .next t ∧
    t.plant.req[(0 : SlotNo)] = some { activeRecord .extend 5 true with
      time := 120, state := .active { activeRequest 1000 1200 with svcEnd := .due 1300, cap := some 1300 } } :=
  ⟨_, rfl, by decide +kernel⟩

/-- An INSERT with its service entry 2 over the SIDE or BAND entry 1; behind stand the SIDE entry 4 and the BAND entry 3; the call point
is reached. -/
def resuming (svc hold : Nat) (x : Entry) (green : Option Stage) (minReached : Bool) (order : Option OrderInFlight) : State :=
  let s := withRequest { pendingRequest with state := .active (activeRequest svc hold) }
    (corridor { coordinated with
      chain := [2, 1, 4, 3], green := green, level := 5, callReached := true, order := order
      stack := [{ slot := 0, entry := 1, saved := 120, minReached := minReached, prior := 0 }] } x (serviceEntry 0))
  { s with plant := { s.plant with pool := (s.plant.pool.set 3 band).set 4 { side with stage := 7 }, free := (List.finRange 128).drop 5 } }

theorem resuming_records {svc hold : Nat} {x : Entry} {green : Option Stage} {m : Bool} {o : Option OrderInFlight} {i : SlotNo}
    {r : Request} (h : (resuming svc hold x green m o).plant.req[i] = some r) :
    i = 0 ∧ r = { pendingRequest with state := .active (activeRequest svc hold) } :=
  oneRecord (J := coordinated) (x := x) (y := side) h

theorem resuming_insertOver (svc hold : Nat) (x : Entry) (green : Option Stage) (m : Bool) (o : Option OrderInFlight)
    (hx : x.origin = .host ∧ x.slot = none ∧ x.status = .waiting) :
    (resuming svc hold x green m o).InsertOver 0 0 { pendingRequest with state := .active (activeRequest svc hold) }
      (activeRequest svc hold) 2 1 [4, 3] { slot := 0, entry := 1, saved := 120, minReached := m, prior := 0 } :=
  ⟨rfl, rfl, rfl, rfl, rfl, rfl, rfl, ⟨rfl, rfl, rfl⟩, rfl, by decide, ⟨rfl, rfl, rfl⟩, hx, .inl rfl,
    fun _ hi _ h _ => absurd (resuming_records h).1 hi⟩

/-- The three ways the request ends. -/
theorem witness_EndsBy (s : State) (h : s.now = 1000 ∧ s.host.frames < 16 ∧ s.host.restart = .none ∧ s.plant.raised = [] ∧
      ∀ i : SlotNo, i ≠ 0 → ∀ q, s.plant.req[i] = some q → q.key ≠ pendingRequest.key) :
    s.EndsBy 0 { pendingRequest with state := .active (activeRequest 1000 1200) } (activeRequest 1000 1200) (.serviceEnd 0) .served ∧
    s.EndsBy 0 { pendingRequest with state := .active (activeRequest 1001 1000) } (activeRequest 1001 1000) (.holdEnd 0) .expired ∧
    (asked 0x41 [0, 2, 255] s).EndsBy 0 { pendingRequest with state := .active (activeRequest 1001 1200) }
      (activeRequest 1001 1200) .cancelRequest .cancelled :=
  ⟨.inl ⟨rfl, rfl, 1000, rfl, by omega⟩,
    .inr (.inl ⟨rfl, rfl, by rw [h.1]; decide, fun d e => by cases e; decide⟩),
    .inr (.inr ⟨rfl, rfl, ⟨7, asked_takes _ _ _ (show s.host.queue.length + _ < 16 from h.2.1) h.2.2.1 h.2.2.2.1⟩, by decide,
      fun _ => by decide, (fun e => nomatch e), h.2.2.2.2⟩)⟩

/-- What the clauses on the end of that INSERT ask for: taken over, being ordered, an order in flight, over SIDE and over BAND. -/
theorem witness_Resume_forced :
    (resuming 1000 1200 side (some 2) true none).BandBehind 1 3 [4] [] ∧
    (resuming 1000 1200 side (some 2) false none).plant.jn[(0 : JIdx)].green =
      some (resuming 1000 1200 side (some 2) false none).plant.pool[(1 : EntryNo)].stage ∧
    (resuming 1000 1200 side (some 4) false none).plant.jn[(0 : JIdx)].green ≠
      some (resuming 1000 1200 side (some 4) false none).plant.pool[(1 : EntryNo)].stage ∧
    (resuming 1000 1200 side (some 4) false none).plant.jn[(0 : JIdx)].callReached = true ∧
    (resuming 1000 1200 side none true (some { orderOf none with entry := 2 })).plant.jn[(0 : JIdx)].order =
      some { orderOf none with entry := 2 } ∧
    (resuming 1000 1200 band none true (some (orderOf none))).plant.pool[(1 : EntryNo)].role = .band :=
  ⟨⟨rfl, by decide +kernel, rfl, by decide, by decide, by decide +kernel⟩, by decide +kernel⟩

/-- R130: the resumed top, taken over with its minimum reached, ends FORCED, and the BAND stage is ordered. -/
theorem test_resume_forced : ∃ t, exec (.serviceEnd 0) (resuming 1000 1200 side (some 2) true none) = .next t ∧
    t.plant.jn[(0 : JIdx)].chain = [3, 1, 4] ∧ t.plant.pool[(1 : EntryNo)].outcome = .forced :=
  ⟨_, rfl, by decide +kernel⟩

/-- R131: the order in flight of the retired service entry goes on, and nothing is ordered. -/
theorem test_resume_orderInFlight : ∃ t,
    exec (.serviceEnd 0) (resuming 1000 1200 side none true (some { orderOf none with entry := 2 })) = .next t ∧
    t.plant.jn[(0 : JIdx)].order = some { orderOf none with entry := 2, live := false } ∧
    t.plant.jn[(0 : JIdx)].line.lastTag = 0 := ⟨_, rfl, by decide +kernel⟩

/-- An EXTEND over the SIDE entry 1, served for e tenths, the call point reached; the BAND entry 2 behind it. -/
def extendedAtCall (e : Nat) : State :=
  withRequest { pendingRequest with action := .extend, state := .active (activeRequest 1000 1200) }
    (corridor { coordinated with
      level := 5, green := some 2, callReached := true
      stack := [{ slot := 0, entry := 1, saved := 120, minReached := true, prior := 0 }] } (served side e) band)

theorem witness_Extend_atCall : (extendedAtCall 100).BandBehind 1 2 [] [] ∧ (extendedAtCall 100).plant.NoCandidateBut 0 0 ∧
    (extendedAtCall 100).plant.jn[(0 : JIdx)].chain = 1 :: ([] ++ 2 :: []) ∧
    (extendedAtCall 100).plant.jn[(0 : JIdx)].green = some (extendedAtCall 100).plant.pool[(1 : EntryNo)].stage ∧
    (extendedAtCall 100).plant.pool[(1 : EntryNo)].status = .serving ∧
    10 * (extendedAtCall 100).plant.pool[(1 : EntryNo)].minimum ≤ (extendedAtCall 100).plant.pool[(1 : EntryNo)].elapsed.getD 0 ∧
    (extendedAtCall 99).plant.pool[(1 : EntryNo)].elapsed.getD 0 < 10 * (extendedAtCall 99).plant.pool[(1 : EntryNo)].minimum ∧
    ∀ i : EntryNo, (extendedAtCall 99).plant.pool[i].origin = .service → (extendedAtCall 99).plant.pool[i].slot ≠ some 0 :=
  ⟨⟨rfl, by decide, rfl, by decide, by decide, by decide +kernel⟩, oneRecord_noCandidateBut _ _ _ _ 0, by decide +kernel⟩

/-- An order whose entry, 9, has left the chain; entry 1 of stage 3 is the top. -/
def orphaned (stage : Stage) (d : Option Nat) : OrderInFlight :=
  { entry := 9, live := false, stage := stage, tag := 15, deadline := d }

def orphan (stage : Stage) (body : List Byte) : State :=
  corridor (reported body { coordinated with order := some (orphaned stage (some 1000)) }) side band

/-- Its deadline, a wrong stage, and its confirmation with the top's stage and with another. -/
theorem witness_Orphan (stage : Stage) (green : Byte) (h : reportBodyGood (plainBody 1 green 15 0) = true ∧
      reportRecords (plainBody 1 green 15 0) = []) :
    (orphan stage (plainBody 1 green 15 0)).Settled ∧
    (orphan stage (plainBody 1 green 15 0)).QuietReport 0 (plainBody 1 green 15 0) [] ∧
    (orphan stage (plainBody 1 green 15 0)).ReadyUnit 0 (plainBody 1 green 15 0) ∧
    (orphan stage (plainBody 1 green 15 0)).plant.NoCandidate 0 ∧
    (orphan stage (plainBody 1 green 15 0)).plant.jn[(0 : JIdx)].order = some (orphaned stage (some 1000)) ∧
    1000 ≤ (orphan stage (plainBody 1 green 15 0)).now ∧
    (orphan stage (plainBody 1 green 15 0)).plant.jn[(0 : JIdx)].green = none ∧
    (orphan stage (plainBody 1 green 15 0)).plant.pool[(1 : EntryNo)] = side ∧
    reportTag (plainBody 1 green 15 0) = (orphaned stage (some 1000)).tag.val :=
  ⟨corridor_settled _ _ _, corridor_quiet ⟨rfl, h.1, h.2, rfl, rfl⟩,
    corridor_ready ⟨rfl, rfl, by show (0 : Byte).getLsbD 0 = false; decide⟩,
    corridor_noCandidate _ _ _ _, rfl, Nat.le_refl _, rfl, rfl, rfl⟩

theorem witness_Orphan_stages : (reportBodyGood (plainBody 1 3 15 0) = true ∧ reportRecords (plainBody 1 3 15 0) = []) ∧
    reportGreen (plainBody 1 3 15 0) = some (orphaned 2 none).stage ∧ side.stage = (orphaned 2 none).stage ∧
    (reportBodyGood (plainBody 1 8 15 0) = true ∧ reportRecords (plainBody 1 8 15 0) = []) ∧
    reportGreen (plainBody 1 8 15 0) = some (orphaned 7 none).stage ∧ side.stage ≠ (orphaned 7 none).stage ∧
    reportGreen (plainBody 1 8 15 0) ≠ some (orphaned 2 none).stage := by decide +kernel

/-- The order of the resumed SIDE entry 1 is confirmed under a PENDING force, the BAND entry 2 behind it. -/
def confirmingResumed (minReached : Bool) : State :=
  corridor (reported (plainBody 1 3 15 0) { coordinated with
    order := some (orderOf (some 2000)), force := true, callReached := true
    resuming := some { saved := 120, minReached := minReached } }) side band

theorem witness_Confirm_resumed (m : Bool) : (confirmingResumed m).QuietReport 0 (plainBody 1 3 15 0) [] ∧
    (confirmingResumed m).ReadyUnit 0 (plainBody 1 3 15 0) ∧ (confirmingResumed m).plant.NoCandidate 0 ∧
    (confirmingResumed m).Confirms 0 (plainBody 1 3 15 0) 1 ([] ++ 2 :: []) ∧ (confirmingResumed m).BandBehind 1 2 [] [] ∧
    (confirmingResumed m).plant.jn[(0 : JIdx)].resuming = some { saved := 120, minReached := m } ∧
    (confirmingResumed m).plant.jn[(0 : JIdx)].force = true :=
  ⟨corridor_quiet ⟨rfl, by decide +kernel, by decide +kernel, rfl, rfl⟩, corridor_ready ⟨rfl, by decide, by decide⟩,
    corridor_noCandidate _ _ _ _, ⟨rfl, ⟨15, some 2000, rfl, by decide⟩, by show reportGreen (plainBody 1 3 15 0) = some 2; decide⟩,
    ⟨rfl, (fun i hi => nomatch hi), rfl, by decide, by decide, by show (0 : Stage) ≠ 2; decide⟩, rfl, rfl⟩

end Sys2Proof.Tests
end

section
/-! SUPPORT. The refresh of a PENDING request record (R98): what RAISE REQUEST reads from its body (R102), the record an arrival finds
by its key (R92), and the acceptance attempt at a junction that is not IN_STEP (R104). -/

namespace Sys2Proof.Machine

open Sys2Proof

/-! ## Codes of a RAISE REQUEST body (R199, R200) -/

@[simp] theorem idx?_val {n : Nat} (i : Fin n) : idx? n i.val = some i := by
  simp [idx?]

@[simp] theorem stageOfNum?_succ (st : Stage) : Stage.ofNum? (st.val + 1) = some st := by
  have h : 1 ≤ st.val + 1 ∧ st.val + 1 ≤ 8 := by omega
  simp [Stage.ofNum?, h]

@[simp] theorem Plant.actionOf?_code (ac : Action) : Plant.actionOf? ac.code.toNat = some ac := by
  cases ac <;> rfl

/-! ## Acceptance attempts -/

namespace Plant

/-- R104: nothing is acceptable at a junction that is not IN_STEP. -/
theorem acceptable_of_not_inStep (p : Plant) (j : JIdx) (r : Request) (h : p.jn[j].state ≠ .inStep) :
    p.acceptable j r = false := by
  have hb : (p.jn[j].state == JState.inStep) = false := beq_eq_false_iff_ne.mpr h
  simp only [acceptable, hb, Bool.false_and]

/-- R104, R105: the acceptance attempts at a junction that is not IN_STEP change nothing. -/
theorem attempts_of_not_inStep (e : Env) (p : Plant) (j : JIdx) (h : p.jn[j].state ≠ .inStep) : p.attempts e j = p := by
  have hnone : p.attempt? e j = none := by
    unfold attempt?
    cases p.candidate? j with
    | none => rfl
    | some c => simp only [acceptable_of_not_inStep p j c.req h, Bool.false_eq_true, if_false]
  simp only [attempts, attemptLoop, hnone]

/-! ## The record an arrival refreshes -/

/-- R92: the only record with a key is the one found by it. -/
theorem slotOf?_eq_of_unique (p : Plant) (k : SlotNo) (r : Request) (hk : p.req[k] = some r)
    (only : ∀ i : SlotNo, i ≠ k → ∀ q, p.req[i] = some q → q.key ≠ r.key) : p.slotOf? r.key = some k := by
  have holds : ∀ i : SlotNo, ((p.req[i]).any fun q => q.key == r.key) = true ↔ i = k := by
    intro i
    constructor
    · intro h
      obtain ⟨q, hq, hkey⟩ := Option.any_eq_true _ _ |>.mp h
      by_contra hi
      exact only i hi q hq (beq_iff_eq.mp hkey)
    · rintro rfl
      rw [hk]
      exact beq_self_eq_true r.key
  unfold slotOf?
  cases hf : (List.finRange 24).find? fun i => (p.req[i]).any fun q => q.key == r.key with
  | none => exact absurd ((holds k).mpr rfl) (List.find?_eq_none.mp hf k (List.mem_finRange k))
  | some i =>
    have hi := List.find?_some hf
    rw [(holds i).mp hi]

/-- The plant in which the arrival stands as a new PENDING request in a slot it already held, last in the arrival order (R98). -/
def rewritten (e : Env) (p : Plant) (k : SlotNo) (a : Arrival) : Plant :=
  { p with
    req := p.req.set k (some (newRequest e p.jn[a.junction] a))
    arrivals := (p.arrivals.filter fun i => i != k) ++ [k] }

@[simp] theorem rewritten_jn (e : Env) (p : Plant) (k : SlotNo) (a : Arrival) : (p.rewritten e k a).jn = p.jn := rfl
@[simp] theorem rewritten_req_self (e : Env) (p : Plant) (k : SlotNo) (a : Arrival) :
    (p.rewritten e k a).req[k.val] = some (newRequest e p.jn[a.junction] a) := by
  simp [rewritten]

/-- R98: a refresh of a PENDING record writes the arrival in its place. -/
theorem refresh_pending (e : Env) (p : Plant) (k : SlotNo) (r : Request) (a : Arrival) (h : r.state = .pending) :
    p.refresh e k r a = p.rewritten e k a := by
  unfold refresh
  rw [h]
  rfl

/-- R92, R98, R99: an arrival at a coordinated junction whose key one record holds refreshes it, and the attempt follows. -/
theorem arrive_eq_refresh (e : Env) (p : Plant) (a : Arrival) (k : SlotNo) (r : Request)
    (coordinated : p.jn[a.junction].state.coordinated = true) (level : 1 ≤ a.level) (hk : p.req[k] = some r)
    (key : r.key = a.key) (only : ∀ i : SlotNo, i ≠ k → ∀ q, p.req[i] = some q → q.key ≠ r.key) :
    p.arrive e a = ((p.refresh e k r a).attempts e a.junction, .refreshed k) := by
  have found : p.slotOf? a.key = some k := key ▸ p.slotOf?_eq_of_unique k r hk only
  have notCall : a.level ≠ 0 := by omega
  simp only [arrive, coordinated, if_true, notCall, if_false, found, hk]

/-- R94: the limits a request with a service time meets. -/
theorem limitsGood_of_time (level : Nat) (ac : Action) (time wait : Nat) (h1 : 1 ≤ time) (h2 : time ≤ 120)
    (hw : wait = 0 ∨ 5 ≤ wait) : limitsGood level ac time wait = true := by
  have h0 : time ≠ 0 := by omega
  simp [limitsGood, h0, h2, hw]

end Plant

/-! ## RAISE REQUEST -/

/-- The arrival that a RAISE REQUEST makes: one of source CENTRAL (R102). -/
def centralArrival (j : JIdx) (id level time wait : Nat) (ac : Action) (st : Stage) : Arrival :=
  { junction := j, source := .central, id := id, level := level, action := ac, stage := st, time := time, wait := wait }

/-- R102: a RAISE REQUEST body whose values are in range is an arrival of source CENTRAL. -/
theorem State.raiseRequest_eq_arrive (s : State) (j : JIdx) (id level time wait : Nat) (ac : Action) (st : Stage)
    (hid1 : 1 ≤ id) (hid : id ≤ 255) (hlevel : level ≤ 16) (htime : time < 256) (hwait : wait < 256)
    (good : Plant.limitsGood level ac time wait = true) :
    State.raiseRequest [byte j.val, byte id, byte level, ac.code, byte (st.val + 1), byte time, byte wait] s =
      s.raisedAnswer (centralArrival j id level time wait ac st)
        (s.plant.arrive s.env (centralArrival j id level time wait ac st)) := by
  have nats : bodyNats [byte j.val, byte id, byte level, ac.code, byte (st.val + 1), byte time, byte wait] =
      [j.val, id, level, ac.code.toNat, st.val + 1, time, wait] := by
    simp only [bodyNats, List.map_cons, List.map_nil]
    rw [toNat_byte j.val (by omega), toNat_byte id (by omega), toNat_byte level (by omega),
      toNat_byte (st.val + 1) (by omega), toNat_byte time htime, toNat_byte wait hwait]
  have inRange : ¬(id = 0 ∨ 16 < level) := by omega
  simp only [State.raiseRequest, nats, idx?_val, Plant.actionOf?_code, stageOfNum?_succ, inRange, good, if_false,
    Bool.true_eq_false, and_false, centralArrival]

/-- R102: RAISE REQUEST takes the directive 40h at the head of the intake. -/
theorem exec_raiseRequest_eq_take (s : State) : exec .raiseRequest s = .next (s.take 0x40 State.raiseRequest) := rfl

/-- R102: the answer to a refresh that leaves a PENDING record with the key of the arrival in its slot. -/
theorem State.raisedAnswer_refreshed_pending (s : State) (a : Arrival) (p : Plant) (k : SlotNo) (q : Request)
    (hq : p.req[k] = some q) (key : q.key = a.key) (pending : q.state = .pending) :
    s.raisedAnswer a (p, .refreshed k) = ({ s with plant := p }, .done [3, byte k.val, 1]) := by
  simp [State.raisedAnswer, State.raisedState, hq, key, Request.isActive, pending, reqStateCode]

end Sys2Proof.Machine
end

section
/-! The statement on the refresh of a PENDING record, O37: for an arrival of any source, and for RAISE REQUEST at a JOINING junction. -/

namespace Sys2Proof.Machine

open Sys2Proof

/-- R98: an arrival with the key of a PENDING record replaces it; the acceptance attempt sees the new values. -/
theorem Plant.arrive_refreshes_pending (e : Env) (p : Plant) (a : Arrival) (k : SlotNo) (r : Request)
    (coordinated : p.jn[a.junction].state.coordinated = true) (level : 1 ≤ a.level) (hk : p.req[k] = some r)
    (pending : r.state = .pending) (key : r.key = a.key)
    (only : ∀ i : SlotNo, i ≠ k → ∀ q, p.req[i] = some q → q.key ≠ r.key) :
    p.arrive e a = ((p.rewritten e k a).attempts e a.junction, .refreshed k) := by
  rw [p.arrive_eq_refresh e a k r coordinated level hk key only, p.refresh_pending e k r a pending]

/-- R98, R104: at a JOINING junction nothing is accepted, so that the refresh is all that such an arrival does. -/
theorem Plant.arrive_refreshes_joining (e : Env) (p : Plant) (a : Arrival) (k : SlotNo) (r : Request)
    (joining : p.jn[a.junction].state = .joining) (level : 1 ≤ a.level) (hk : p.req[k] = some r)
    (pending : r.state = .pending) (key : r.key = a.key)
    (only : ∀ i : SlotNo, i ≠ k → ∀ q, p.req[i] = some q → q.key ≠ r.key) :
    p.arrive e a = (p.rewritten e k a, .refreshed k) := by
  have coordinated : p.jn[a.junction].state.coordinated = true := by rw [joining]; rfl
  have notInStep : (p.rewritten e k a).jn[a.junction].state ≠ .inStep := by rw [Plant.rewritten_jn, joining]; decide
  rw [p.arrive_refreshes_pending e a k r coordinated level hk pending key only,
    (p.rewritten e k a).attempts_of_not_inStep e a.junction notInStep]

/-- R98, R102: an arrival with the key of a PENDING record at a JOINING junction is answered with its slot and PENDING. -/
theorem State.raisedAnswer_refreshes_joining (s : State) (a : Arrival) (k : SlotNo) (r : Request)
    (joining : s.plant.jn[a.junction].state = .joining) (level : 1 ≤ a.level) (hk : s.plant.req[k] = some r)
    (pending : r.state = .pending) (key : r.key = a.key)
    (only : ∀ i : SlotNo, i ≠ k → ∀ q, s.plant.req[i] = some q → q.key ≠ r.key) :
    s.raisedAnswer a (s.plant.arrive s.env a) =
      ({ s with plant := s.plant.rewritten s.env k a }, .done [3, byte k.val, 1]) := by
  rw [s.plant.arrive_refreshes_joining s.env a k r joining level hk pending key only]
  exact s.raisedAnswer_refreshed_pending a _ k _ (Plant.rewritten_req_self ..) rfl rfl

/-- Settles O37: RAISE REQUEST is the arrival of its record, and at a JOINING junction the attempt accepts nothing. -/
theorem pendingRequestIsRefreshed : Obligations.PendingRequestIsRefreshed := by
  unfold Obligations.PendingRequestIsRefreshed
  constructor
  · intro s tag j id level time wait ac st k r takes hid1 hid hlevel1 hlevel htime1 htime hwait0 hwait joining hk pending
      key only
    have handled := s.popIntake.raiseRequest_eq_arrive j id level time wait ac st hid1 hid hlevel (by omega) (by omega)
      (Plant.limitsGood_of_time level ac time wait htime1 htime hwait0)
    have answered := s.popIntake.raisedAnswer_refreshes_joining (centralArrival j id level time wait ac st) k r joining hlevel1 hk
      pending key only
    rw [answered] at handled
    rw [exec_raiseRequest_eq_take, takes.take_quiet State.raiseRequest (by rw [handled]; exact takes.quiet), handled]
    rfl
  · intro e p a k r coordinated level hk pending key only
    exact p.arrive_refreshes_pending e a k r coordinated level hk pending key only

end Sys2Proof.Machine
end

section
/-! SUPPORT. The cycle record queue as FETCH RECORDS reads it (R195, R196): the record at the read position, what a fetch of up to n
records returns and leaves, and what the directive makes of its body. -/

namespace Sys2Proof.Machine

open Sys2Proof

/-! ## The cycle record queue -/

namespace ReportBlock

/-- The queue once the record at the read position has been removed (R196). -/
def advanced (r : ReportBlock) : ReportBlock := { r with slots := r.slots.set r.rd none, rd := r.rd + 1 }

@[simp] theorem advanced_wr (r : ReportBlock) : r.advanced.wr = r.wr := rfl

theorem advanced_rd_val (r : ReportBlock) : r.advanced.rd.val = (r.rd.val + 1) % 48 := Fin.val_add r.rd 1

theorem advanced_held (r : ReportBlock) (h : r.held ≠ 0) : r.advanced.held = r.held - 1 := by
  have hw := r.wr.isLt
  have hd := r.rd.isLt
  simp only [held, advanced_wr, advanced_rd_val] at h ⊢
  omega

/-- Every slot but that at the read position is as it was. -/
theorem advanced_slots_of_ne (r : ReportBlock) (k : Nat) (hk : k < 48) (h : k ≠ r.rd.val) : r.advanced.slots[k] = r.slots[k] :=
  Vector.getElem_set_ne r.rd.isLt hk h.symm

theorem fetchOne_of_empty (r : ReportBlock) (h : r.held = 0) : r.fetchOne = (r, none) := if_pos h

theorem fetchOne_of_held (r : ReportBlock) (h : r.held ≠ 0) : r.fetchOne = (r.advanced, r.slots[r.rd]) := if_neg h

/-- R195: where records are held, the slot at the read position holds one. -/
theorem Whole.oldest {r : ReportBlock} (w : r.Whole) (h : r.held ≠ 0) : ∃ c, r.slots[r.rd.val] = some c := by
  have first : (r.rd.val + 0) % 48 = r.rd.val := Nat.mod_eq_of_lt r.rd.isLt
  have full := w 0 (Nat.pos_of_ne_zero h)
  simp only [first] at full
  exact Option.isSome_iff_exists.mp full

theorem Whole.advanced {r : ReportBlock} (w : r.Whole) (h : r.held ≠ 0) : r.advanced.Whole := by
  have one := whole_fetchOne r w
  rwa [r.fetchOne_of_held h] at one

/-- R196: nothing is fetched from an empty queue. -/
theorem fetch_of_empty (n : Nat) (r : ReportBlock) (h : r.held = 0) : fetch n r = (r, []) := by
  cases n with
  | zero => rfl
  | succ n => simp only [fetch, r.fetchOne_of_empty h]

/-- R196: a fetch of one record more returns the oldest record, then what is fetched behind it. -/
theorem fetch_succ_of_held (n : Nat) (r : ReportBlock) (c : CycleRecord) (h : r.held ≠ 0) (oldest : r.slots[r.rd.val] = some c) :
    fetch (n + 1) r = ((fetch n r.advanced).1, c :: (fetch n r.advanced).2) := by
  have one : r.fetchOne = (r.advanced, some c) := by rw [r.fetchOne_of_held h, Fin.getElem_fin, oldest]
  simp only [fetch, one]

/-- The oldest records of r are rs, oldest first, and t is the queue with the read position past them (R196). -/
structure Fetched (r t : ReportBlock) (rs : List CycleRecord) : Prop where
  bound : rs.length ≤ r.held
  records : ∀ i (hi : i < rs.length), r.slots[(r.rd.val + i) % 48]'(Nat.mod_lt _ (by decide)) = some rs[i]
  held : t.held = r.held - rs.length
  rd : t.rd.val = (r.rd.val + rs.length) % 48
  wr : t.wr = r.wr
  gap : t.gap = r.gap
  armed : t.armed = r.armed
  paused : t.paused = r.paused
  pend : t.pend = r.pend

theorem Fetched.none (r : ReportBlock) : Fetched r r [] where
  bound := Nat.zero_le _
  records := fun i hi => absurd hi (Nat.not_lt_zero i)
  held := rfl
  rd := (Nat.mod_eq_of_lt r.rd.isLt).symm
  wr := rfl
  gap := rfl
  armed := rfl
  paused := rfl
  pend := rfl

/-- The oldest record and those fetched behind it: the read position comes back to the emptied slot for none of them, since fewer than 48
are held. -/
theorem Fetched.cons {r t : ReportBlock} {c : CycleRecord} {rs : List CycleRecord} (h : r.held ≠ 0)
    (oldest : r.slots[r.rd.val] = some c) (f : Fetched r.advanced t rs) : Fetched r t (c :: rs) where
  bound := by
    have bound := f.bound
    rw [r.advanced_held h] at bound
    rw [List.length_cons]
    omega
  records := by
    intro i hi
    cases i with
    | zero =>
      have first : (r.rd.val + 0) % 48 = r.rd.val := Nat.mod_eq_of_lt r.rd.isLt
      simpa only [first, List.getElem_cons_zero] using oldest
    | succ i =>
      have behind : i < rs.length := Nat.lt_of_succ_lt_succ hi
      have bound := f.bound
      have few := r.held_lt
      rw [r.advanced_held h] at bound
      have shift : (r.advanced.rd.val + i) % 48 = (r.rd.val + (i + 1)) % 48 := by
        rw [r.advanced_rd_val]
        omega
      have other : (r.rd.val + (i + 1)) % 48 ≠ r.rd.val := by omega
      have record := f.records i behind
      simp only [shift] at record
      rwa [r.advanced_slots_of_ne _ _ other] at record
  held := by
    rw [f.held, r.advanced_held h, List.length_cons]
    omega
  rd := by
    rw [f.rd, r.advanced_rd_val, List.length_cons]
    omega
  wr := f.wr
  gap := f.gap
  armed := f.armed
  paused := f.paused
  pend := f.pend

/-- R196: a fetch of up to n records from a whole queue takes the oldest ones, as the recursion of the fetch does: one by one. -/
theorem fetched_fetch (n : Nat) (r : ReportBlock) (w : r.Whole) : Fetched r (fetch n r).1 (fetch n r).2 := by
  induction n generalizing r with
  | zero => exact .none r
  | succ n ih =>
    by_cases h : r.held = 0
    · rw [fetch_of_empty _ r h]
      exact .none r
    · obtain ⟨c, oldest⟩ := w.oldest h
      rw [fetch_succ_of_held n r c h oldest]
      exact .cons h oldest (ih r.advanced (w.advanced h))

/-- R196: a fetch returns n records, or as many as are held. -/
theorem length_fetch (n : Nat) (r : ReportBlock) (w : r.Whole) : (fetch n r).2.length = min n r.held := by
  induction n generalizing r with
  | zero => exact (Nat.zero_min _).symm
  | succ n ih =>
    by_cases h : r.held = 0
    · rw [fetch_of_empty _ r h, h]
      exact (Nat.min_zero _).symm
    · obtain ⟨c, oldest⟩ := w.oldest h
      rw [fetch_succ_of_held n r c h oldest, List.length_cons, ih r.advanced (w.advanced h), r.advanced_held h]
      omega

end ReportBlock

/-! ## FETCH RECORDS -/

/-- R196: FETCH RECORDS takes the directive 73h at the head of the intake. -/
theorem exec_fetchRecords_eq_take (s : State) : exec .fetchRecords s = .next (s.take 0x73 State.fetchRecords) := rfl

theorem bodyNats_singleton (n : Nat) (h : n ≤ 255) : bodyNats [byte n] = [n] := by
  rw [bodyNats, List.map_singleton, toNat_byte n (by omega)]

namespace State

/-- R196: a number outside 1 to 4 is refused. -/
theorem fetchRecords_outOfRange (n : Nat) (s : State) (h : n ≤ 255) (out : n = 0 ∨ 4 < n) :
    fetchRecords [byte n] s = (s, .refused .range) := by
  have outside : within 1 4 n = false := by
    rcases out with out | out <;> simp [within, out]
  simp only [fetchRecords, bodyNats_singleton n h, outside, refuse, Bool.false_eq_true, if_false]

/-- R196: a number of 1 to 4 fetches up to so many records, and answers with the count left, the number returned and the records. -/
theorem fetchRecords_inRange (n : Nat) (s : State) (h1 : 1 ≤ n) (h4 : n ≤ 4) :
    fetchRecords [byte n] s =
      ({ s with report := (ReportBlock.fetch n s.report).1 },
        .done (byte (ReportBlock.fetch n s.report).1.held :: byte (ReportBlock.fetch n s.report).2.length ::
          (ReportBlock.fetch n s.report).2.flatMap recordForm)) := by
  have inside : within 1 4 n = true := by simp [within, h1, h4]
  simp only [fetchRecords, bodyNats_singleton n (by omega), inside, if_true]
  rfl

/-- R196: a body of another length than 1 is refused. -/
theorem fetchRecords_badLength (body : List Byte) (s : State) (h : body.length ≠ 1) :
    fetchRecords body s = (s, .refused .form) := by
  match body with
  | [] => rfl
  | [_] => exact absurd rfl h
  | _ :: _ :: _ => rfl

/-- R185: FETCH RECORDS with n in range, taken from the head: the fetch is all that it changes but for the host port, where its answer
stands. -/
theorem Takes.fetch {s : State} {tag : Byte} {n : Nat} (takes : s.Takes tag 0x73 [byte n]) (h1 : 1 ≤ n) (h4 : n ≤ 4) :
    ∃ t : State, exec .fetchRecords s = .next t ∧ t.report = (ReportBlock.fetch n s.report).1 ∧ t.tb = s.tb ∧
      t.plant = s.plant ∧ t.script = s.script ∧
      s.Answered t tag 0x73
        (1 :: byte (ReportBlock.fetch n s.report).1.held :: byte (ReportBlock.fetch n s.report).2.length ::
          (ReportBlock.fetch n s.report).2.flatMap recordForm) := by
  have handled := s.popIntake.fetchRecords_inRange n h1 h4
  have taken := takes.take_quiet fetchRecords (by rw [handled]; exact takes.quiet)
  obtain ⟨-, -, -, -, -, answered⟩ := takes.take_answered fetchRecords (by rw [handled])
  rw [handled] at taken answered
  refine ⟨_, exec_fetchRecords_eq_take s, ?_, ?_, ?_, ?_, answered⟩ <;> rw [taken] <;> rfl

end State

end Sys2Proof.Machine
end

section
/-! The statement on FETCH RECORDS, O46. -/

namespace Sys2Proof.Machine

open Sys2Proof

/-- Settles O46: the fetch takes the oldest records one by one, and the refusals are read off the body. -/
theorem recordsAreFetched : Obligations.RecordsAreFetched := by
  unfold Obligations.RecordsAreFetched
  refine ⟨fun s tag n takes hn => ⟨fun out => ?_, fun h1 h4 whole => ?_⟩, fun s tag body takes hlen => ?_⟩
  · rw [exec_fetchRecords_eq_take,
      takes.take_same State.fetchRecords _ (s.popIntake.fetchRecords_outOfRange n hn out)]
    rfl
  · obtain ⟨t, next, report, tb, plant, script, answered⟩ := State.Takes.fetch takes h1 h4
    have fetched := s.report.fetched_fetch n whole
    rw [← report] at fetched answered
    rw [fetched.held] at answered
    exact ⟨t, _, next, s.report.length_fetch n whole, fetched.records, fetched.held, fetched.rd, fetched.wr, fetched.gap,
      fetched.armed, fetched.pend, tb, plant, script, answered⟩
  · rw [exec_fetchRecords_eq_take, takes.take_same State.fetchRecords _ (s.popIntake.fetchRecords_badLength body hlen)]
    rfl

end Sys2Proof.Machine
end

section
/-! The statements on the step, on the invariants that every command keeps, and on the reset state: O1 to O7. -/

namespace Sys2Proof.Machine

open Sys2Proof

/-! ## Commands and steps -/

/-- Every command answers a next state: no arm of `exec` faults or refuses. -/
theorem exec_completes (c : Instr) (s : State) : ∃ t, exec c s = .next t := by
  cases c <;> exact ⟨_, rfl⟩

theorem step_of_empty (s : State) (h : s.pending = []) : step s = .next s := by
  simp only [step, h]

/-- A step idles on an empty queue, or does the command at its front on the state with the queue's rest. -/
theorem step_cases {s t : State} (h : step s = .next t) :
    (s.pending = [] ∧ t = s) ∨ ∃ c rest, s.pending = c :: rest ∧ exec c { s with pending := rest } = .next t := by
  cases hp : s.pending with
  | nil =>
    rw [step_of_empty s hp] at h
    cases h
    exact .inl ⟨rfl, rfl⟩
  | cons c rest =>
    simp only [step, hp] at h
    exact .inr ⟨c, rest, rfl, h⟩

/-- Settles O1: both clauses are the two cases of `step`. -/
theorem stepRunsFrontCommand : Obligations.StepRunsFrontCommand :=
  ⟨fun _ _ _ => rfl, step_of_empty⟩

/-- Settles O2: every arm of `exec` completes, and no command touches the queue. -/
theorem everyCommandCompletes : Obligations.EveryCommandCompletes := by
  intro c s
  obtain ⟨t, h⟩ := exec_completes c s
  have port := State.exec_port c s t h
  exact ⟨t, h, port.2.2⟩

/-- Settles O3: the cold values, read off `State.reset`. -/
theorem coldStartResets : Obligations.ColdStartResets := by
  unfold Obligations.ColdStartResets
  refine ⟨fun s => rfl, rfl, rfl, rfl, rfl, rfl, rfl, rfl, rfl, rfl, by decide, fun j => ?_, by decide, rfl, rfl, rfl, rfl,
    rfl, rfl, rfl, rfl, rfl, rfl, rfl, rfl⟩
  have cold : State.reset.plant.jn[j] = Junction.cold := Vector.getElem_replicate ..
  rw [cold]
  decide

/-! ## Invariants -/

theorem timebase_cold_inRange : Timebase.cold.InRange :=
  ⟨by decide, by decide, by decide, nofun, nofun⟩

/-- Every command keeps the ranges and capacities. -/
theorem exec_keeps_inRange (c : Instr) (s t : State) (h : exec c s = .next t) (hs : s.InRange) : t.InRange := by
  obtain ⟨tb, script, host, report⟩ := hs
  have host' := (State.exec_port c s t h).1 host
  rcases State.Kept.exec_kept c s t h with kept | rfl
  · obtain ⟨tb', script'⟩ := kept.ranges ⟨tb, script⟩
    exact ⟨tb', script', host', kept.records report⟩
  · exact ⟨timebase_cold_inRange, State.Kept.scripts_empty_inRange, host', State.Kept.cold_records 0 0⟩

/-- The reset pool: all entries on the free list. -/
theorem poolWhole_cold : Plant.cold.PoolWhole := by
  unfold Plant.PoolWhole
  decide

/-- Every command keeps the pool whole. -/
theorem exec_keeps_poolWhole (c : Instr) (s t : State) (h : exec c s = .next t) (hs : s.plant.PoolWhole) :
    t.plant.PoolWhole := by
  rcases State.Kept.exec_kept c s t h with kept | rfl
  · exact kept.pool hs
  · exact poolWhole_cold

/-- Settles O4: the end of every command offers its notices and lets an idle line choose. -/
theorem settledIsKept : Obligations.SettledIsKept := by
  intro s t hs h
  rcases step_cases h with ⟨-, rfl⟩ | ⟨c, rest, -, done⟩
  · exact hs
  · exact (State.exec_port c _ t done).2.1 hs

/-- Settles O5: each block's ranges are kept by every command, the host port's capacities among them. -/
theorem rangesAreKept : Obligations.RangesAreKept := by
  intro s t hs h
  rcases step_cases h with ⟨-, rfl⟩ | ⟨c, rest, -, done⟩
  · exact hs
  · exact exec_keeps_inRange c _ t done hs

/-- Settles O6: every command is made of moves of the pool, or makes the reset pool. -/
theorem poolStaysWhole : Obligations.PoolStaysWhole := by
  intro s t hs h
  rcases step_cases h with ⟨-, rfl⟩ | ⟨c, rest, -, done⟩
  · exact hs
  · exact exec_keeps_poolWhole c _ t done hs

theorem reset_settled : State.reset.Settled := ⟨rfl, rfl⟩

theorem reset_inRange : State.reset.InRange :=
  ⟨timebase_cold_inRange, State.Kept.scripts_empty_inRange, State.empty_inRange, State.Kept.cold_records 0 0⟩

/-- Settles O7. -/
theorem invariantsHoldAtReset : Obligations.InvariantsHoldAtReset := ⟨reset_settled, reset_inRange, poolWhole_cold⟩

end Sys2Proof.Machine
end

section
/-! The statements on frames and on the receivers of both lines: O8 to O11, and O26. -/

namespace Sys2Proof.Machine

open Sys2Proof

/-! ## Frames (R182, R199, R203) -/

/-- Settles O8: a sent frame is its start byte, its covered bytes and their check. -/
theorem sentFrameBytes : Obligations.SentFrameBytes := by
  unfold Obligations.SentFrameBytes
  refine ⟨⟨fun f _ => ?_, fun _ _ => rfl, fun _ _ => rfl, fun _ => rfl, rfl⟩, by decide +kernel⟩
  have len : f.payload.length = 3 + f.body.length := by
    simp only [OutFrame.payload, List.length_cons]
    omega
  simp only [OutFrame.wire, frame, len]
  rfl

/-- R170: a good REPORT body holds at most three records. -/
theorem length_of_reportBodyGood {body : List Byte} (h : reportBodyGood body = true) : body.length < 30 := by
  unfold reportBodyGood at h
  split at h
  · rename_i mode green tag b3 b4 b5 b6 count records
    simp only [Bool.and_eq_true, decide_eq_true_eq] at h
    obtain ⟨⟨-, count3⟩, records7⟩ := h
    simp only [List.length_cons]
    omega
  · cases h

/-- R183: the host receiver takes back a directive frame whole. -/
theorem receive_directiveWire (tag code : Byte) (body : List Byte) (h : body.length ≤ 247) :
    receive hostForm [] (directiveWire tag code body) = ([1 :: tag :: code :: body], []) :=
  receive_frame hostForm (1 :: tag :: code :: body) (by simp only [List.length_cons]; omega)
    (by simp [hostForm]) (by simp only [hostForm, List.length_cons]; omega) rfl

/-- Settles O9: both receivers take a frame of their own form whole. -/
theorem framesAreReadBack : Obligations.FramesAreReadBack := by
  refine ⟨receive_directiveWire, fun body good => ?_⟩
  have short := length_of_reportBodyGood good
  exact receive_frame corridorForm (4 :: body) (by simp only [List.length_cons]; omega) (by simp [corridorForm])
    (by simp only [corridorForm, List.length_cons]; omega) (by simp [corridorForm, good])

/-! ## Arrivals (R183, R184) -/

/-- The bytes of one directive frame, on a receiver that assembles none, are one arrival (R183). -/
theorem HostPort.hostBytes_directiveWire (h : HostPort) (tag code : Byte) (body : List Byte) (idle : h.rx = [])
    (len : body.length ≤ 247) : h.hostBytes (directiveWire tag code body) = h.arriveDirective (1 :: tag :: code :: body) := by
  obtain ⟨rx, intake, queue, leaving, restart⟩ := h
  obtain rfl : rx = [] := idle
  simp only [HostPort.hostBytes, receive_directiveWire tag code body len, List.foldl_cons, List.foldl_nil]

/-- Settles O10: the three clauses are the branches of an arrival. -/
theorem arrivingDirectiveIsPlaced : Obligations.ArrivingDirectiveIsPlaced := by
  intro s tag code body idle len
  have arrives : exec (.directiveArrival (directiveWire tag code body)) s =
      .next { s with host := s.host.arriveDirective (1 :: tag :: code :: body) } := by
    rw [← s.host.hostBytes_directiveWire tag code body idle len]
    rfl
  rw [arrives]
  refine ⟨fun free few => ?_, fun free full marks => ?_, fun out => ?_⟩
  · simp [HostPort.arriveDirective, free, Config.intakeDirectives, few]
  · simp [HostPort.arriveDirective, free, Config.intakeDirectives, full, Config.intakeBusy, marks]
  · rcases out with busy | ⟨full, marks⟩
    · simp [HostPort.arriveDirective, busy]
    · have h1 : ¬s.host.directives < 4 := by omega
      have h2 : ¬s.host.busyMarks < 8 := by omega
      simp [HostPort.arriveDirective, Config.intakeDirectives, h1, Config.intakeBusy, h2]

/-- R170, R183: a hunt through bytes without a start byte finds nothing and keeps nothing. -/
theorem hunt_of_no_start (form : FrameForm) (buf : List Byte) (none : form.start ∉ buf) (k : Nat) (fuel : buf.length ≤ k) :
    hunt form k buf = ([], []) := by
  induction buf generalizing k with
  | nil => cases k <;> rfl
  | cons b rest ih =>
    obtain ⟨hb, hrest⟩ := not_or.mp (List.mem_cons.not.mp none)
    cases k with
    | zero => simp at fuel
    | succ k =>
      simp only [hunt, Ne.symm hb, if_false]
      exact ih hrest k (by simpa using fuel)

/-- R170, R183: a frame that is discarded leaves nothing, unless a start byte stands in it. -/
theorem hunt_of_bad (form : FrameForm) (rest : List Byte) (bad : assemble form rest = .bad) (none : form.start ∉ rest) :
    hunt form (form.start :: rest).length (form.start :: rest) = ([], []) := by
  simp only [List.length_cons, hunt, if_true, bad]
  exact hunt_of_no_start form rest none _ (Nat.le_refl _)

/-- A length byte outside the form's range. -/
theorem assemble_badLength (form : FrameForm) (n : Byte) (rest : List Byte)
    (h : n.toNat < form.minLen ∨ form.maxLen < n.toNat) : assemble form (n :: rest) = .bad := by
  simp only [assemble, h, if_true]

/-- A frame whose check is not that of its covered bytes. -/
theorem assemble_badCheck (form : FrameForm) (n : Byte) (payload check : List Byte) (hmin : form.minLen ≤ n.toNat)
    (hmax : n.toNat ≤ form.maxLen) (len : payload.length = n.toNat) (two : check.length = 2)
    (wrong : be16 (crc (n :: payload)) ≠ check) : assemble form (n :: (payload ++ check)) = .bad := by
  have inRange : ¬(n.toNat < form.minLen ∨ form.maxLen < n.toNat) := by omega
  have whole : ¬(payload ++ check).length < n.toNat + 2 := by rw [List.length_append]; omega
  have taken : (payload ++ check).take n.toNat = payload := by rw [← len]; exact List.take_left
  have behind : ((payload ++ check).drop n.toNat).take 2 = check := by
    rw [← len, List.drop_left, ← two, List.take_length]
  simp only [assemble, inRange, whole, taken, behind, wrong, if_false]

/-- R183: bytes that a receiver assembling no frame finds nothing in, and keeps nothing of, change nothing. -/
theorem hostFrameDiscard_of_hunt (s : State) (bytes : List Byte) (idle : s.host.rx = [])
    (h : hunt hostForm bytes.length bytes = ([], [])) : exec (.hostFrameDiscard bytes) s = .next s := by
  have kept : s.host.hostBytes bytes = s.host := by
    simp only [HostPort.hostBytes, receive, idle, List.nil_append, h, List.map_nil, List.foldl_nil]
    rw [← idle]
  show Host.Outcome.next { s with host := s.host.hostBytes bytes } = .next s
  rw [kept]

/-- R183: a byte gap in a frame that holds no further start byte only discards it. -/
theorem huntGap_of_no_start (form : FrameForm) (k : Nat) (b : Byte) (got : List Byte) (none : form.start ∉ got) :
    huntGap form k (b :: got) = [] := by
  cases k with
  | zero => rfl
  | succ k =>
    simp only [huntGap, hunt_of_no_start form got none _ (Nat.le_refl _), List.nil_append]
    cases k <;> rfl

/-- Settles O11: a bad length or a wrong check discards the frame, and nothing else is found in its bytes. -/
theorem badHostFrameIsDropped : Obligations.BadHostFrameIsDropped := by
  refine ⟨fun s idle => ⟨fun n out => ?_, fun n payload c1 c2 hmin hmax len wrong none => ?_⟩, fun s got rx none => ?_⟩
  · have notStart : hostForm.start ∉ [n] := by
      rw [List.mem_singleton]
      rintro rfl
      simp [hostForm] at out
    exact hostFrameDiscard_of_hunt s _ idle (hunt_of_bad hostForm [n] (assemble_badLength hostForm n [] out) notStart)
  · exact hostFrameDiscard_of_hunt s _ idle
      (hunt_of_bad hostForm _ (assemble_badCheck hostForm n payload [c1, c2] hmin hmax len rfl wrong) none)
  · show Host.Outcome.next { s with host := s.host.hostGap } = _
    simp only [HostPort.hostGap, receiveGap, rx, huntGap_of_no_start hostForm _ _ got none, List.map_nil, List.foldl_nil]

/-! ## Band start error (R13) -/

/-- Settles O26: the two halves of the span. -/
theorem bandStartErrorIsSigned : Obligations.BandStartErrorIsSigned := by
  intro p span
  refine ⟨fun first => if_pos first, fun second => if_neg (by omega), fun within => ?_⟩
  unfold bandStartError
  split <;> omega

end Sys2Proof.Machine
end

section
/-! SUPPORT. The rows of the directive table as one kind of command: the owner of each, what every owner leaves of the host port, and what
it answers to a body of the wrong length (R185, R200). -/

namespace Sys2Proof.Machine

open Sys2Proof

/-! ## Fields of a body (R199, R200) -/

@[simp] theorem bodyNats_nil : bodyNats [] = [] := rfl
@[simp] theorem bodyNats_cons (b : Byte) (bs : List Byte) : bodyNats (b :: bs) = b.toNat :: bodyNats bs := rfl
@[simp] theorem length_bodyNats (bs : List Byte) : (bodyNats bs).length = bs.length := List.length_map ..

/-- An index of at most 256 values fits its byte. -/
@[simp] theorem toNat_byte_val {n : Nat} (i : Fin n) (h : n ≤ 256) : (byte i.val).toNat = i.val :=
  toNat_byte i.val (by omega)

@[simp] theorem toNat_byte_stage (st : Stage) : (byte (st.val + 1)).toNat = st.val + 1 := toNat_byte _ (by omega)

@[simp] theorem flag?_mark (b : Bool) : flag? (if b then 1 else 0 : Byte).toNat = some b := by cases b <;> rfl
@[simp] theorem direction?_code (d : Direction) : direction? d.code.toNat = some d := by cases d <;> rfl
@[simp] theorem role?_code (r : Role) : role? r.code.toNat = some r := by cases r <;> rfl
@[simp] theorem kind?_code (k : EntryKind) : kind? k.code.toNat = some k := by cases k <;> rfl
@[simp] theorem demand?_code (d : Demand) : demand? d.code.toNat = some d := by cases d <;> rfl
@[simp] theorem source?_code (k : SourceKind) : source? k.code.toNat = some k := by cases k <;> rfl

theorem within_eq_true (lo hi n : Nat) : within lo hi n = true ↔ lo ≤ n ∧ n ≤ hi := by simp [within]

/-! ## The owners of the directives -/

/-- The owner of a directive's row. -/
def directiveHandler : Instr → Handler
  | .configureCorridor => State.configureCorridor
  | .configureJunction => State.configureJunction
  | .run => State.run
  | .stop => State.stop
  | .restart => State.restart
  | .setClock => State.setClock
  | .appendEntry => State.appendEntry
  | .insertEntry => State.insertEntry
  | .amendEntry => State.amendEntry
  | .removeEntry => State.removeEntry
  | .readChain => State.readChain
  | .repairJunction => State.repairJunction
  | .rejoinJunction => State.rejoinJunction
  | .readJunction => State.readJunction
  | .mapDetectors => State.mapDetectors
  | .readDetectors => State.readDetectors
  | .raiseRequest => State.raiseRequest
  | .cancelRequest => State.cancelRequest
  | .readRequests => State.readRequests
  | .setGuard => State.setGuard
  | .loadStep => State.loadStepBody
  | .closeGroup => State.closeGroup
  | .dropScripts => State.dropScripts
  | .scriptSpace => State.scriptSpace
  | .armNotices => State.armNotices
  | .pauseNotices => State.pauseNotices
  | .resumeNotices => State.resumeNotices
  | .fetchRecords => State.fetchRecords
  | .readStatus => State.readStatus
  | _ => fun _ s => refuse s .unknown

/-- What follows a directive's answer: the CATCH-UPs of a RESUME NOTICES (R193). -/
def directiveAfter : Instr → List Byte → State → State
  | .resumeNotices => State.resumeCatchUps
  | _ => fun _ s => s

/-- R185: a directive's row takes the directive with its code. -/
theorem exec_eq_takeThen {c : Instr} {code : Byte} (h : directiveCode c = some code) (s : State) :
    exec c s = .next (s.takeThen code (directiveHandler c) (directiveAfter c)) := by
  cases c <;> cases h <;> rfl

/-- A command that is no row of the directive table has no code. -/
theorem directiveCode_mem {c : Instr} {code : Byte} (h : directiveCode c = some code) : code ∈ directiveCodes := by
  cases c <;> cases h <;> decide

/-- Every code of the table belongs to a row. -/
theorem exists_of_mem_directiveCodes {code : Byte} (h : code ∈ directiveCodes) : ∃ c, directiveCode c = some code := by
  simp only [directiveCodes, List.cons_append, List.nil_append, List.mem_cons, List.not_mem_nil, or_false] at h
  rcases h with rfl | rfl | rfl | rfl | rfl | rfl | rfl | rfl | rfl | rfl | rfl | rfl | rfl | rfl | rfl | rfl | rfl | rfl |
    rfl | rfl | rfl | rfl | rfl | rfl | rfl | rfl | rfl | rfl | rfl
  exacts [⟨.configureCorridor, rfl⟩, ⟨.configureJunction, rfl⟩, ⟨.run, rfl⟩, ⟨.stop, rfl⟩, ⟨.restart, rfl⟩, ⟨.setClock, rfl⟩,
    ⟨.appendEntry, rfl⟩, ⟨.insertEntry, rfl⟩, ⟨.amendEntry, rfl⟩, ⟨.removeEntry, rfl⟩, ⟨.readChain, rfl⟩,
    ⟨.repairJunction, rfl⟩, ⟨.rejoinJunction, rfl⟩, ⟨.readJunction, rfl⟩, ⟨.mapDetectors, rfl⟩, ⟨.readDetectors, rfl⟩,
    ⟨.raiseRequest, rfl⟩, ⟨.cancelRequest, rfl⟩, ⟨.readRequests, rfl⟩, ⟨.setGuard, rfl⟩, ⟨.loadStep, rfl⟩, ⟨.closeGroup, rfl⟩,
    ⟨.dropScripts, rfl⟩, ⟨.scriptSpace, rfl⟩, ⟨.armNotices, rfl⟩, ⟨.pauseNotices, rfl⟩, ⟨.resumeNotices, rfl⟩,
    ⟨.fetchRecords, rfl⟩, ⟨.readStatus, rfl⟩]

/-! ## Taking a directive -/

namespace State

/-- R185: the part may take an item. -/
theorem canTake_iff (s : State) : s.canTake = true ↔ s.host.frames < 16 ∧ s.host.restart = .none := by
  simp [canTake, HostPort.room, Config.outgoing]

/-- R185: the directive at the head is handled. -/
theorem Takes.takeThen_eq {s : State} {tag code : Byte} {body : List Byte} (h : s.Takes tag code body) (f : Handler)
    (after : List Byte → State → State) : s.takeThen code f after = s.handle tag code body f (after body) := by
  obtain ⟨head, room, free, -⟩ := h
  obtain ⟨rest, hi⟩ := List.head?_eq_some_iff.mp head
  simp only [takeThen, hi, (canTake_iff s).mpr ⟨room, free⟩, and_self, if_true]

/-- R185: a directive that is refused, or only read, and whose answer nothing follows. -/
theorem Takes.takeThen_same {s : State} {tag code : Byte} {body : List Byte} (h : s.Takes tag code body) (f : Handler)
    (after : List Byte → State → State) (a : Answer) (hf : f body s.popIntake = (s.popIntake, a))
    (nothing : ∀ u : State, after body u = u) : s.takeThen code f after = { s with host := s.host.replied tag code a.body } := by
  have quiet : s.popIntake.plant.raised = [] := h.quiet
  simp only [h.takeThen_eq, handle, hf, nothing, offerAll_quiet 1 _ quiet]
  rfl

/-- R185: a row waits until its directive stands at the head, with room and without a RESTART being answered. -/
theorem takeThen_waits (s : State) (code : Byte) (f : Handler) (after : List Byte → State → State)
    (waits : (∀ tag body, s.host.intake.head? ≠ some (.directive tag code body)) ∨ 16 ≤ s.host.frames ∨ s.host.restart ≠ .none) :
    s.takeThen code f after = s := by
  unfold takeThen
  split
  · rename_i tag c body rest hi
    refine if_neg fun ⟨same, can⟩ => ?_
    obtain ⟨room, free⟩ := (canTake_iff s).mp can
    rcases waits with other | full | restarting
    · exact other tag body (by rw [hi, same]; rfl)
    · omega
    · exact restarting free
  · rfl

end State

/-! ## Bodies of another length (R200) -/

/-- A body that does not spell as many bytes as a row reads. -/
theorem ne_of_length {body : List Byte} {l : List Nat} (h : body.length ≠ l.length) : bodyNats body ≠ l := by
  rintro rfl
  exact h (length_bodyNats body).symm

/-- R150: a LOAD STEP carries as many blocks as its count says. -/
theorem blockTriples_of_length (n : Nat) (l : List Nat) (h : l.length ≠ 3 * n) : State.blockTriples n l = none := by
  induction n generalizing l with
  | zero =>
    cases l with
    | nil => simp at h
    | cons => rfl
  | succ n ih =>
    match l with
    | [] => rfl
    | [_] => rfl
    | [_, _] => rfl
    | k :: v :: w :: rest =>
      simp only [State.blockTriples, ih rest (by simp only [List.length_cons] at h; omega), Option.map_none]

end Sys2Proof.Machine
end

section
/-! SUPPORT. What the owners of the directives do with a body of the wrong length, and with the host port (R185, R188, R200). -/

namespace Sys2Proof.Machine

open Sys2Proof

/-- R200: a body of another length than its row's is refused with FORM, and so is a LOAD STEP with more than 6 blocks. -/
theorem directiveHandler_malformed {c : Instr} {code : Byte} (h : directiveCode c = some code) (body : List Byte) (s : State)
    (bad : body.length ≠ bodyLength c body ∨ (c = .loadStep ∧ 6 < (body.getD 2 0).toNat)) :
    directiveHandler c body s = refuse s .form := by
  cases c <;> cases h
  case loadStep =>
    replace bad : body.length ≠ 3 + 3 * (body.getD 2 0).toNat ∨ 6 < (body.getD 2 0).toNat := by simpa [bodyLength] using bad
    simp only [directiveHandler, State.loadStepBody]
    match body, bad with
    | [], _ => rfl
    | [_], _ => rfl
    | [_, _], _ => rfl
    | q :: hold :: count :: rest, bad =>
      simp only [bodyNats_cons, List.getD_cons_succ, List.getD_cons_zero, List.length_cons] at bad ⊢
      by_cases many : 6 < count.toNat
      · simp only [many, if_true]
      · have len : (bodyNats rest).length ≠ 3 * count.toNat := by rw [length_bodyNats]; omega
        simp only [many, if_false, blockTriples_of_length _ _ len]
        cases idx? 13 q.toNat <;> rfl
  case mapDetectors =>
    replace bad : body.length ≠ 49 := by simpa [bodyLength] using bad
    simp only [directiveHandler, State.mapDetectors]
    match body, bad with
    | [], _ => rfl
    | jb :: rest, bad =>
      have len : (bodyNats rest).length ≠ 48 := by
        rw [length_bodyNats]
        simp only [List.length_cons] at bad
        omega
      simp only [bodyNats_cons, len, ne_eq, not_false_eq_true, true_or, if_true]
      split <;> rfl
  all_goals
    simp only [bodyLength, reduceCtorEq, false_and, or_false] at bad
    simp only [directiveHandler, State.configureCorridor, State.configureJunction, State.run, State.stop, State.restart,
      State.setClock, State.appendEntry, State.insertEntry, State.amendEntry, State.removeEntry, State.readChain,
      State.repairJunction, State.rejoinJunction, State.readJunction, State.readDetectors, State.onJunction,
      State.raiseRequest, State.cancelRequest, State.readRequests, State.setGuard, State.closeGroup, State.dropScripts,
      State.scriptSpace, State.armNotices, State.pauseNotices, State.resumeNotices, State.fetchRecords, State.readStatus]
    split
    · first
      | exact absurd ‹_› (ne_of_length bad)
      | exact absurd rfl bad
    · rfl

/-! ## The host port under the owners -/

namespace State

theorem placeHost_host (s : State) (j : JIdx) (pos : Nat) (x : Entry) : (s.placeHost j pos x).1.host = s.host := by
  unfold placeHost
  dsimp only
  split <;> rfl

theorem raisedAnswer_host (s : State) (a : Arrival) (r : Plant × ArrivalResult) : (s.raisedAnswer a r).1.host = s.host := by
  unfold raisedAnswer
  dsimp only
  split <;> rfl

theorem takeMap_host (j : JIdx) (m : Vector DetFn 24) (s : State) : (takeMap j m s).1.host = s.host := by
  unfold takeMap
  split <;> rfl

theorem takeGuard_host (j : JIdx) (g : GuardSettings) (s : State) : (takeGuard j g s).1.host = s.host := by
  unfold takeGuard
  split <;> rfl

theorem loadStep_host (s : State) (q : QueueNo) (hold : Nat) (ts : List (Nat × Nat × Nat)) :
    (s.loadStep q hold ts).1.host = s.host := by
  unfold loadStep
  (repeat' split) <;> rfl

end State

namespace State

theorem onJunction_host (f : JIdx → State → State × Answer) (hf : ∀ j s, (f j s).1.host = s.host) (b : List Byte) (s : State) :
    (onJunction f b s).1.host = s.host := by
  unfold onJunction
  (repeat' split) <;> first
    | rfl
    | exact hf _ _

theorem configureCorridor_host (b : List Byte) (s : State) : (configureCorridor b s).1.host = s.host := by
  unfold configureCorridor
  (repeat' split) <;> first
    | rfl
    | exact (applyCorridorNow_port _ _).1

theorem configureJunction_host (b : List Byte) (s : State) : (configureJunction b s).1.host = s.host := by
  unfold configureJunction
  split
  · split
    · exact (makeAbsent_port _ _).1
    · dsimp only
      (repeat' split) <;> first
        | exact (makePresent_port _ _ _).1
        | rfl
    · rfl
  · rfl

theorem run_host (b : List Byte) (s : State) : (run b s).1.host = s.host := by
  unfold run
  split
  · split
    · exact (settleNotRunning_host _).trans (setCorridorState_host _ _)
    · rfl
  · rfl

theorem stop_host (b : List Byte) (s : State) : (stop b s).1.host = s.host := by
  unfold stop
  split
  · split
    · exact (abandonGroup_host _).trans ((stopPlant_host _).trans (setCorridorState_host _ _))
    · rfl
  · rfl

theorem setClock_host (b : List Byte) (s : State) : (setClock b s).1.host = s.host := by
  unfold setClock
  (repeat' split) <;> rfl

theorem readChain_host (b : List Byte) (s : State) : (readChain b s).1.host = s.host := by
  unfold readChain
  (repeat' split) <;> rfl

theorem removeEntry_host (b : List Byte) (s : State) : (removeEntry b s).1.host = s.host := by
  unfold removeEntry
  (repeat' split) <;> rfl

theorem amendEntry_host (b : List Byte) (s : State) : (amendEntry b s).1.host = s.host := by
  unfold amendEntry
  dsimp only
  (repeat' split) <;> rfl

theorem cancelRequest_host (b : List Byte) (s : State) : (cancelRequest b s).1.host = s.host := by
  unfold cancelRequest
  (repeat' split) <;> rfl

theorem readRequests_host (b : List Byte) (s : State) : (readRequests b s).1.host = s.host := by
  unfold readRequests
  (repeat' split) <;> rfl

theorem closeGroup_host (b : List Byte) (s : State) : (closeGroup b s).1.host = s.host := by
  unfold closeGroup
  (repeat' split) <;> rfl

theorem dropScripts_host (b : List Byte) (s : State) : (dropScripts b s).1.host = s.host := by
  unfold dropScripts
  (repeat' split) <;> rfl

theorem scriptSpace_host (b : List Byte) (s : State) : (scriptSpace b s).1.host = s.host := by
  unfold scriptSpace
  (repeat' split) <;> rfl

theorem armNotices_host (b : List Byte) (s : State) : (armNotices b s).1.host = s.host := by
  unfold armNotices
  (repeat' split) <;> rfl

theorem pauseNotices_host (b : List Byte) (s : State) : (pauseNotices b s).1.host = s.host := by
  unfold pauseNotices
  (repeat' split) <;> rfl

theorem resumeNotices_host (b : List Byte) (s : State) : (resumeNotices b s).1.host = s.host := by
  unfold resumeNotices
  (repeat' split) <;> rfl

theorem fetchRecords_host (b : List Byte) (s : State) : (fetchRecords b s).1.host = s.host := by
  unfold fetchRecords
  (repeat' split) <;> rfl

theorem readStatus_host (b : List Byte) (s : State) : (readStatus b s).1.host = s.host := by
  unfold readStatus
  (repeat' split) <;> rfl

theorem appendEntry_host (b : List Byte) (s : State) : (appendEntry b s).1.host = s.host := by
  unfold appendEntry
  dsimp only
  (repeat' split) <;> first
    | rfl
    | exact placeHost_host _ _ _ _

theorem insertEntry_host (b : List Byte) (s : State) : (insertEntry b s).1.host = s.host := by
  unfold insertEntry
  (repeat' split) <;> first
    | rfl
    | exact placeHost_host _ _ _ _

theorem mapDetectors_host (b : List Byte) (s : State) : (mapDetectors b s).1.host = s.host := by
  unfold mapDetectors
  dsimp only
  (repeat' split) <;> first
    | rfl
    | exact takeMap_host _ _ _

theorem setGuard_host (b : List Byte) (s : State) : (setGuard b s).1.host = s.host := by
  unfold setGuard
  (repeat' split) <;> first
    | rfl
    | exact takeGuard_host _ _ _

theorem raiseRequest_host (b : List Byte) (s : State) : (raiseRequest b s).1.host = s.host := by
  unfold raiseRequest
  (repeat' split) <;> first
    | rfl
    | exact raisedAnswer_host _ _ _

theorem loadStepBody_host (b : List Byte) (s : State) : (loadStepBody b s).1.host = s.host := by
  unfold loadStepBody
  (repeat' split) <;> first
    | rfl
    | exact loadStep_host _ _ _ _

theorem repairJunction_host (b : List Byte) (s : State) : (repairJunction b s).1.host = s.host :=
  onJunction_host _ (fun _ _ => by (repeat' split) <;> rfl) b s

theorem rejoinJunction_host (b : List Byte) (s : State) : (rejoinJunction b s).1.host = s.host :=
  onJunction_host _ (fun _ _ => by (repeat' split) <;> rfl) b s

theorem readJunction_host (b : List Byte) (s : State) : (readJunction b s).1.host = s.host :=
  onJunction_host _ (fun _ _ => by (repeat' split) <;> rfl) b s

theorem readDetectors_host (b : List Byte) (s : State) : (readDetectors b s).1.host = s.host :=
  onJunction_host _ (fun _ _ => by (repeat' split) <;> rfl) b s

end State

/-- R188: no owner but that of RESTART touches the host port. -/
theorem directiveHandler_host {c : Instr} (other : c ≠ .restart) (body : List Byte) (s : State) :
    (directiveHandler c body s).1.host = s.host := by
  cases c
  case restart => exact absurd rfl other
  case configureCorridor => exact State.configureCorridor_host body s
  case configureJunction => exact State.configureJunction_host body s
  case run => exact State.run_host body s
  case stop => exact State.stop_host body s
  case setClock => exact State.setClock_host body s
  case appendEntry => exact State.appendEntry_host body s
  case insertEntry => exact State.insertEntry_host body s
  case amendEntry => exact State.amendEntry_host body s
  case removeEntry => exact State.removeEntry_host body s
  case readChain => exact State.readChain_host body s
  case repairJunction => exact State.repairJunction_host body s
  case rejoinJunction => exact State.rejoinJunction_host body s
  case readJunction => exact State.readJunction_host body s
  case mapDetectors => exact State.mapDetectors_host body s
  case readDetectors => exact State.readDetectors_host body s
  case raiseRequest => exact State.raiseRequest_host body s
  case cancelRequest => exact State.cancelRequest_host body s
  case readRequests => exact State.readRequests_host body s
  case setGuard => exact State.setGuard_host body s
  case loadStep => exact State.loadStepBody_host body s
  case closeGroup => exact State.closeGroup_host body s
  case dropScripts => exact State.dropScripts_host body s
  case scriptSpace => exact State.scriptSpace_host body s
  case armNotices => exact State.armNotices_host body s
  case pauseNotices => exact State.pauseNotices_host body s
  case resumeNotices => exact State.resumeNotices_host body s
  case fetchRecords => exact State.fetchRecords_host body s
  case readStatus => exact State.readStatus_host body s
  all_goals rfl

/-- R188: an owner leaves RESTART as it is, or begins to answer it. -/
theorem directiveHandler_restart (c : Instr) (body : List Byte) (s : State) :
    (directiveHandler c body s).1.host.restart = s.host.restart ∨
      (directiveHandler c body s).1.host.restart = .answering := by
  by_cases other : c = .restart
  · subst other
    cases body with
    | nil => exact .inr rfl
    | cons => exact .inl rfl
  · exact .inl (by rw [directiveHandler_host other])

/-- R185: an owner leaves the queue of frames and the frame that leaves. -/
theorem directiveHandler_frames (c : Instr) (body : List Byte) (s : State) :
    (directiveHandler c body s).1.host.queue = s.host.queue ∧ (directiveHandler c body s).1.host.leaving = s.host.leaving ∧
      (directiveHandler c body s).1.host.intake = s.host.intake := by
  by_cases other : c = .restart
  · subst other
    cases body <;> exact ⟨rfl, rfl, rfl⟩
  · rw [directiveHandler_host other]
    exact ⟨rfl, rfl, rfl⟩

end Sys2Proof.Machine
end

section
/-! The statements on the intake, the answers and the notices: O12, O13, O15, O16 and O18. -/

namespace Sys2Proof.Machine

open Sys2Proof

/-! ## BUSY marks, undefined codes and malformed bodies (R185, R200) -/

/-- R185: a BUSY mark at the head is answered. -/
theorem State.takeBusy_answers (s : State) (tag code : Byte) (room : s.host.frames < 16) (free : s.host.restart = .none)
    (head : s.host.intake.head? = some (.busy tag code)) :
    s.takeBusy = { s with host := s.host.replied tag code [] } := by
  obtain ⟨rest, hi⟩ := List.head?_eq_some_iff.mp head
  simp only [State.takeBusy, hi, (State.canTake_iff s).mpr ⟨room, free⟩, if_true]
  rfl

/-- R185: a directive with an undefined code at the head is answered UNKNOWN. -/
theorem State.takeUnknown_answers (s : State) (tag code : Byte) (body : List Byte) (room : s.host.frames < 16)
    (free : s.host.restart = .none) (head : s.host.intake.head? = some (.directive tag code body))
    (undefined : ∀ c : Instr, directiveCode c ≠ some code) :
    s.takeUnknown = { s with host := s.host.replied tag code [2, 9] } := by
  obtain ⟨rest, hi⟩ := List.head?_eq_some_iff.mp head
  have unlisted : directiveCodes.contains code = false := by
    rw [Bool.eq_false_iff]
    intro listed
    obtain ⟨c, hc⟩ := exists_of_mem_directiveCodes (List.contains_iff_mem.mp listed)
    exact undefined c hc
  simp only [State.takeUnknown, hi, unlisted, (State.canTake_iff s).mpr ⟨room, free⟩, and_self, if_true]
  rfl

/-- R193: no CATCH-UP follows a directive whose body has a wrong length. -/
theorem directiveAfter_malformed {c : Instr} (body : List Byte) (s : State)
    (bad : body.length ≠ bodyLength c body ∨ (c = .loadStep ∧ 6 < (body.getD 2 0).toNat)) : directiveAfter c body s = s := by
  cases c <;> try rfl
  simp only [bodyLength, reduceCtorEq, false_and, or_false] at bad
  simp only [directiveAfter, State.resumeCatchUps]
  split
  · exact absurd rfl bad
  · rfl

/-- Settles O12. -/
theorem busyUnknownAndMalformedAreAnswered : Obligations.BusyUnknownAndMalformedAreAnswered := by
  refine ⟨fun c s tag code body hc takes bad => ?_, fun s tag code room free => ⟨fun head => ?_, fun body head undefined => ?_⟩⟩
  · rw [exec_eq_takeThen hc, takes.takeThen_same _ _ (.refused .form) (directiveHandler_malformed hc body _ bad)
      fun u => directiveAfter_malformed body u bad]
    rfl
  · exact congrArg Host.Outcome.next (s.takeBusy_answers tag code room free head)
  · exact congrArg Host.Outcome.next (s.takeUnknown_answers tag code body room free head undefined)

/-- Settles O13: every row of the directive table takes the head of the intake in the same way. -/
theorem directiveRowsWaitTheirTurn : Obligations.DirectiveRowsWaitTheirTurn := by
  intro c code s hc waits
  rw [exec_eq_takeThen hc, s.takeThen_waits code _ _ waits]

/-! ## Offering (R190) -/

/-- Settles O15: an offer's three outcomes, and the fold over the notices in the order raised. -/
theorem noticeIsOffered : Obligations.NoticeIsOffered := by
  refine ⟨fun s n reserved => ⟨fun off => ?_, fun on unpaused room => ?_, fun on out => ?_⟩, fun s reserved => ⟨fun quiet =>
    State.offerAll_quiet reserved s quiet, fun older n raised => ?_⟩⟩
  · simp only [State.offer, off, Bool.false_eq_true, if_false]
  · simp only [State.offer, on, unpaused, HostPort.room, Config.outgoing, room, decide_true, Bool.not_false, Bool.and_self,
      if_true]
    rfl
  · have shut : (!hasClass s.report.paused n.cls && s.host.room reserved) = false := by
      rcases out with paused | full
      · rw [paused, Bool.not_true, Bool.false_and]
      · have noRoom : ¬s.host.frames + reserved < 16 := by omega
        simp only [HostPort.room, Config.outgoing, noRoom, decide_false, Bool.and_false]
    simp only [State.offer, on, shut, Bool.false_eq_true, if_true, if_false]
  · simp only [State.offerAll, raised, List.foldl_append, List.foldl_cons, List.foldl_nil]

/-! ## RESTART (R21, R188) -/

/-- Settles O16. -/
theorem restartIsAnsweredThenWaits : Obligations.RestartIsAnsweredThenWaits := by
  refine ⟨fun s tag takes => ?_, fun s tag body full takes => ?_, fun s tag answering leaving => ?_⟩
  · show Host.Outcome.next (s.take 0x05 State.restart) = _
    rw [takes.take_quiet State.restart takes.quiet]
    rfl
  · have refused : State.restart body s.popIntake = (s.popIntake, .refused .form) := by
      cases body with
      | nil => exact absurd rfl full
      | cons => rfl
    show Host.Outcome.next (s.take 0x05 State.restart) = _
    rw [takes.take_same State.restart _ refused]
    rfl
  · show Host.Outcome.next s.frameLeft = _
    have restart : isRestartAnswer (answerFrame tag 0x05 [1]) = true := rfl
    simp only [State.frameLeft, leaving, answering, restart, and_self, if_true]

/-! ## The clock (R19) -/

/-- R19: SET CLOCK with three bytes. -/
theorem State.setClock_bytes (a b c : Byte) (s : State) : State.setClock [a, b, c] s =
    if 65536 * a.toNat + 256 * b.toNat + c.toNat < 86400
    then ({ s with tb := { s.tb with tod := some (65536 * a.toNat + 256 * b.toNat + c.toNat), todDue := s.now + 10 } }, .done [])
    else refuse s .range := rfl

/-- R19: an advance that is due. -/
theorem State.clockTick_due (s : State) (d : Nat) (set : s.tb.tod = some d) (due : s.tb.todDue ≤ s.now) :
    s.clockTick = { s with tb := { s.tb with tod := some ((d + 1) % 86400), todDue := s.tb.todDue + 10 } } := by
  simp only [State.clockTick, set, due, if_true, Config.day]

/-- Settles O18. -/
theorem clockIsSetAndAdvances : Obligations.ClockIsSetAndAdvances := by
  have taken : ∀ s, exec .setClock s = .next (s.take 0x06 State.setClock) := fun _ => rfl
  have ticks : ∀ s, exec .clockAdvance s = .next s.clockTick := fun _ => rfl
  refine ⟨fun s tag body takes => ⟨?_, ?_, fun len => ?_⟩, fun s => ⟨fun d set day due => ?_, fun set due => ?_, fun out => ?_⟩⟩
  · rintro a b c rfl inDay
    have handled := State.setClock_bytes a b c s.popIntake
    rw [if_pos inDay] at handled
    rw [taken, takes.take_quiet State.setClock (by rw [handled]; exact takes.quiet), handled]
    rfl
  · rintro a b c rfl late
    have handled := State.setClock_bytes a b c s.popIntake
    rw [if_neg (by omega)] at handled
    rw [taken, takes.take_same State.setClock _ handled]
    rfl
  · have refused := directiveHandler_malformed (c := .setClock) rfl body s.popIntake (.inl len)
    rw [taken, takes.take_same State.setClock _ refused]
    rfl
  · rw [ticks, s.clockTick_due d set due, Nat.mod_eq_of_lt (by omega)]
  · rw [ticks, s.clockTick_due _ set due]
  · rw [ticks, State.clockTick]
    rcases out with unset | early
    · rw [unset]
    · have notDue : ¬s.tb.todDue ≤ s.now := by omega
      simp only [notDue, if_false]
      split <;> rfl

end Sys2Proof.Machine
end

section
/-! SUPPORT. The choice of the next frame and the CATCH-UPs (R187, R191): which frame an idle line takes, and what a run of CATCH-UPs
leaves behind. -/

namespace Sys2Proof.Machine

open Sys2Proof

/-! ## The frame an idle line takes (R187) -/

namespace HostPort

/-- The oldest answer goes next. -/
theorem pick_answer (h : HostPort) {older newer : List OutFrame} {g : OutFrame} (idle : h.leaving = none)
    (staying : h.restart ≠ .answerLeft) (queued : h.queue = older ++ g :: newer) (notices : ∀ x ∈ older, x.kind = .notice)
    (answer : g.kind = .answer) : h.pick = { h with leaving := some g, queue := older ++ newer } := by
  have skipped : ∀ x ∈ older, ¬(x.kind == OutKind.answer) = true := fun x hx => by simp [notices x hx]
  have found : h.queue.find? (fun f => f.kind == .answer) = some g := by
    rw [queued, List.find?_append, List.find?_eq_none.mpr skipped, Option.none_or, List.find?_cons_of_pos (by simp [answer])]
  have rest : h.queue.eraseP (fun f => f.kind == .answer) = older ++ newer := by
    rw [queued, List.eraseP_append_right _ skipped, List.eraseP_cons_of_pos (by simp [answer])]
  unfold pick
  split
  · simp_all
  · simp_all
  · rw [found, rest]

/-- Without an answer the oldest notice goes next. -/
theorem pick_notice (h : HostPort) {newer : List OutFrame} {g : OutFrame} (idle : h.leaving = none)
    (staying : h.restart ≠ .answerLeft) (queued : h.queue = g :: newer) (notices : ∀ x ∈ g :: newer, x.kind = .notice) :
    h.pick = { h with leaving := some g, queue := newer } := by
  have none : h.queue.find? (fun f => f.kind == .answer) = Option.none := by
    rw [queued]
    exact List.find?_eq_none.mpr fun x hx => by simp [notices x hx]
  unfold pick
  split
  · simp_all
  · simp_all
  · rw [none, queued]

/-- Whatever goes next, the frames on the line and in the queue stay in order where no answer stands among them. -/
theorem pick_notices (h : HostPort) (idle : h.leaving = none) (staying : h.restart ≠ .answerLeft)
    (notices : ∀ x ∈ h.queue, x.kind = .notice) : h.pick.leaving.toList ++ h.pick.queue = h.queue := by
  cases queued : h.queue with
  | nil => rw [pick_of_empty h queued, idle, queued]; rfl
  | cons g newer =>
    rw [queued] at notices
    rw [h.pick_notice idle staying queued notices]
    rfl

end HostPort

/-! ## Marks of one class (R189) -/

theorem hasClass_eq (m : BitVec 8) (c : NoticeClass) : hasClass m c = m.getLsbD c.bit := by
  have inByte : c.bit < 8 := by cases c <;> decide
  rw [hasClass, NoticeClass.mask, ← BitVec.twoPow_eq, BitVec.and_twoPow]
  cases m.getLsbD c.bit with
  | false => rfl
  | true => cases c <;> decide

theorem bit_injective {c d : NoticeClass} (h : c.bit = d.bit) : c = d := by
  have place (c : NoticeClass) : NoticeClass.all[c.bit]? = some c := by cases c <;> rfl
  exact Option.some.inj ((place c).symm.trans (h ▸ place d))

/-- The mark of a class that is cleared. -/
theorem hasClass_clear (m : BitVec 8) (c d : NoticeClass) : hasClass (m &&& ~~~c.mask) d = (hasClass m d && d != c) := by
  have inByte : d.bit < 8 := by cases d <;> decide
  rw [hasClass_eq, hasClass_eq, NoticeClass.mask, ← BitVec.twoPow_eq, BitVec.getLsbD_and, BitVec.getLsbD_not,
    BitVec.getLsbD_twoPow]
  by_cases same : d = c
  · subst same
    simp [inByte]
  · have apart : c.bit ≠ d.bit := fun h => same (bit_injective h.symm)
    simp [inByte, apart, same]

/-! ## A run of CATCH-UPs (R191) -/

namespace State

/-- The CATCH-UPs of a list of classes are queued in order, and their PENDING marks clear. -/
theorem foldl_catchUp (l : List NoticeClass) (s : State) :
    let t := l.foldl catchUp s
    t = { s with
      host := { s.host with queue := s.host.queue ++ l.map catchUpFrame }
      report := { s.report with pend := t.report.pend } } ∧
    ∀ c, hasClass t.report.pend c = (hasClass s.report.pend c && !l.contains c) := by
  induction l generalizing s with
  | nil => simp
  | cons d l ih =>
    obtain ⟨same, marks⟩ := ih (s.catchUp d)
    refine ⟨?_, fun c => ?_⟩
    · rw [List.foldl_cons]
      refine same.trans ?_
      simp only [catchUp, HostPort.enqueue, List.append_assoc, List.map_cons, List.singleton_append]
    · rw [List.foldl_cons, marks c, catchUp, hasClass_clear, List.contains_cons, Bool.and_assoc, Bool.not_or]
      rfl

/-- A CATCH-UP leaves what may be delivered of every other class. -/
theorem catchable_catchUp (s : State) {c d : NoticeClass} (other : d ≠ c) :
    (s.catchUp c).report.catchable d = s.report.catchable d := by
  have apart : (d != c) = true := bne_iff_ne.mpr other
  simp only [ReportBlock.catchable, catchUp, hasClass_clear, apart, Bool.and_true]

theorem filter_catchable_catchUp (s : State) {c : NoticeClass} {l : List NoticeClass} (new : c ∉ l) (P : NoticeClass → Bool) :
    l.filter (fun d => P d && (s.catchUp c).report.catchable d) = l.filter fun d => P d && s.report.catchable d :=
  List.filter_congr fun d hd => by rw [s.catchable_catchUp (ne_of_mem_of_not_mem hd new)]

/-- R191: the classes that may be delivered are delivered. -/
theorem catchUpAll_eq (s : State) : s.catchUpAll = (NoticeClass.all.filter s.report.catchable).foldl catchUp s := by
  have run : ∀ (l : List NoticeClass), l.Nodup → ∀ s : State,
      l.foldl (fun s c => if s.report.catchable c then s.catchUp c else s) s = (l.filter s.report.catchable).foldl catchUp s := by
    intro l distinct
    induction distinct with
    | nil => exact fun _ => rfl
    | @cons c l new _ ih =>
      intro s
      rw [List.foldl_cons, ih]
      by_cases due : s.report.catchable c
      · have later := s.filter_catchable_catchUp (fun h => new c h rfl) fun _ => true
        simp only [Bool.true_and] at later
        rw [if_pos due, List.filter_cons_of_pos due, List.foldl_cons, later]
      · rw [if_neg due, List.filter_cons_of_neg due]
  exact run _ (by decide) s

/-- R191, R193: the classes of a set that may be delivered are delivered, as far as the queue has room. -/
theorem resumeCatchUps_eq (set : Byte) (s : State) : resumeCatchUps [set] s =
    ((NoticeClass.all.filter fun c => hasClass set c && s.report.catchable c).take (16 - s.host.frames)).foldl catchUp s := by
  have run : ∀ (l : List NoticeClass), l.Nodup → ∀ s : State,
      l.foldl (fun s c => if hasClass set c && s.report.catchable c && s.host.room 0 then s.catchUp c else s) s =
        ((l.filter fun c => hasClass set c && s.report.catchable c).take (16 - s.host.frames)).foldl catchUp s := by
    intro l distinct
    induction distinct with
    | nil => exact fun _ => by simp
    | @cons c l new _ ih =>
      intro s
      have room : s.host.room 0 = decide (s.host.frames < 16) := rfl
      rw [List.foldl_cons, ih]
      cases due : hasClass set c && s.report.catchable c with
      | false =>
        have stays : ¬(hasClass set c && s.report.catchable c) = true := by simp [due]
        rw [List.filter_cons_of_neg (p := fun d => hasClass set d && s.report.catchable d) stays, Bool.false_and,
          if_neg Bool.false_ne_true]
      | true =>
        rw [List.filter_cons_of_pos (p := fun d => hasClass set d && s.report.catchable d) due, room, Bool.true_and]
        by_cases free : s.host.frames < 16
        · have fewer : 16 - s.host.frames = (16 - (s.catchUp c).host.frames) + 1 := by
            rw [catchUp_host, HostPort.enqueue_frames]
            omega
          rw [if_pos (decide_eq_true free), fewer, List.take_succ_cons, List.foldl_cons,
            s.filter_catchable_catchUp (fun h => new c h rfl) (hasClass set)]
        · have full : 16 - s.host.frames = 0 := by omega
          rw [if_neg (by simp [free]), full, List.take_zero, List.take_zero]
  exact run _ (by decide) s

end State

end Sys2Proof.Machine
end

section
/-! The statements on the frames sent and the notice marks: O14, O45 and O47. -/

namespace Sys2Proof.Machine

open Sys2Proof

/-! ## The next frame (R185, R187, R191) -/

namespace HostPort

theorem frames_eq_length (h : HostPort) (idle : h.leaving = none) : h.frames = h.queue.length := by
  simp [frames, idle]

/-- The line once its frame has left. -/
def idled (h : HostPort) : HostPort := { h with leaving := none }

theorem idled_frames (h : HostPort) : h.idled.frames = h.queue.length := h.idled.frames_eq_length rfl

/-- R187: a reply behind 15 notices goes ahead of them. -/
theorem choose_reply (h : HostPort) (f : OutFrame) (idle : h.leaving = none) (staying : h.restart ≠ .answerLeft)
    (full : h.queue.length = 15) (notices : ∀ x ∈ h.queue, x.kind = .notice) (answer : f.kind = .answer) :
    (h.enqueue f).choose = { h with leaving := some f } := by
  have count : (h.enqueue f).frames ≠ 15 := by
    rw [enqueue_frames, h.frames_eq_length idle, full]
    decide
  rw [choose_of_not_itemFirst _ (itemFirst_eq_false _ (.inr count)),
    (h.enqueue f).pick_answer (older := h.queue) (newer := []) idle staying rfl notices answer, List.append_nil]
  rfl

end HostPort

namespace State

/-- R187: a frame leaves a queue that holds more, and no item is taken first. -/
theorem frameLeft_picks (s : State) (f : OutFrame) (leaving : s.host.leaving = some f) (free : s.host.restart = .none)
    (more : s.host.queue ≠ []) (choose : s.host.intake = [] ∨ s.host.queue.length ≠ 15) :
    s.frameLeft = { s with host := s.host.idled.pick } := by
  have notFirst := s.host.idled.itemFirst_eq_false (by rw [HostPort.idled_frames]; exact choose)
  exact (frameLeft_queued s f leaving free more).trans
    (congrArg (fun h => { s with host := h }) (HostPort.choose_of_not_itemFirst _ notFirst))

/-- R191: a frame leaves the queue empty. -/
theorem frameLeft_empties (s : State) (f : OutFrame) (leaving : s.host.leaving = some f) (free : s.host.restart = .none)
    (empty : s.host.queue = []) :
    let t := s.frameLeft
    t.host.leaving.toList ++ t.host.queue = (NoticeClass.all.filter s.report.catchable).map catchUpFrame ∧
      (∀ c : NoticeClass, hasClass t.report.pend c = (hasClass s.report.pend c && !s.report.catchable c)) ∧
      t.report.armed = s.report.armed ∧ t.report.paused = s.report.paused ∧ t.plant = s.plant ∧ t.tb = s.tb := by
  let idle : State := { s with host := s.host.idled }
  let due := NoticeClass.all.filter s.report.catchable
  have left : s.frameLeft = { idle.catchUpAll with host := idle.catchUpAll.host.choose } := by
    have staying : ¬(s.host.restart = .answering ∧ isRestartAnswer f = true) := by rw [free]; simp
    unfold frameLeft
    rw [leaving]
    refine (if_neg staying).trans ?_
    rw [if_pos (by rw [empty]; rfl)]
    rfl
  obtain ⟨run, marks⟩ := foldl_catchUp due idle
  rw [← idle.catchUpAll_eq] at run marks
  have queued : idle.catchUpAll.host = { idle.host with queue := due.map catchUpFrame } := by
    have nothing : idle.host.queue = [] := empty
    rw [run, nothing]
    rfl
  have few : due.length ≤ 8 := List.length_filter_le _ _
  have count : idle.catchUpAll.host.frames ≠ 15 := by
    have length : idle.catchUpAll.host.frames = due.length := by
      rw [queued, HostPort.frames_eq_length _ rfl, List.length_map]
    omega
  have notices : ∀ x ∈ idle.catchUpAll.host.queue, x.kind = .notice := by
    rw [queued]
    intro x hx
    obtain ⟨c, -, rfl⟩ := List.mem_map.mp hx
    rfl
  have chosen := idle.catchUpAll.host.pick_notices (by rw [queued]; rfl) (by rw [queued, show idle.host.restart = .none from free]; decide)
    notices
  have listed (c : NoticeClass) : due.contains c = s.report.catchable c := by
    have every : c ∈ NoticeClass.all := by cases c <;> decide
    rw [Bool.eq_iff_iff, List.contains_iff_mem, List.mem_filter]
    exact ⟨And.right, And.intro every⟩
  simp only [left]
  refine ⟨?_, fun c => ?_, ?_, ?_, ?_, ?_⟩
  · rw [HostPort.choose_of_not_itemFirst _ (HostPort.itemFirst_eq_false _ (.inr count)), chosen, queued]
  · rw [marks c, listed c]
  all_goals rw [run]

/-- R185, R187: a directive that finds one free place is answered ahead of the queued notices. -/
theorem Takes.leaves {s : State} {tag code : Byte} {body : List Byte} (takes : s.Takes tag code body) {c : Instr}
    (row : directiveCode c = some code) (idle : s.host.leaving = none) (full : s.host.queue.length = 15)
    (notices : ∀ x ∈ s.host.queue, x.kind = .notice) :
    ∃ (t : State) (answer : List Byte), exec c s = .next t ∧ t.host.leaving = some (answerFrame tag code answer) ∧
      t.host.queue = s.host.queue ∧ t.host.intake = s.host.intake.tail := by
  obtain ⟨queue, leaving, intake⟩ := directiveHandler_frames c body s.popIntake
  have staying : (directiveHandler c body s.popIntake).1.host.restart ≠ .answerLeft := by
    rcases directiveHandler_restart c body s.popIntake with same | answering
    · rw [same, popIntake_host, takes.free]; decide
    · rw [answering]; decide
  generalize ht : directiveHandler c body s.popIntake = r at queue leaving intake staying
  rw [popIntake_host] at queue leaving intake
  have count : r.1.host.frames = 15 := by rw [HostPort.frames_eq_length _ (leaving.trans idle), queue, full]
  let frame := answerFrame tag code r.2.body
  let answered := (r.1.offerAll 1).answer tag code r.2.body
  have host : answered.host = r.1.host.enqueue frame := by
    rw [answer_host, offerAll_full r.1 (by rw [count]; rfl)]
  have after : (directiveAfter c body answered).host = answered.host := by
    cases c <;> try rfl
    simp only [directiveAfter]
    match body with
    | [] => rfl
    | _ :: _ :: _ => rfl
    | [set] =>
      have none : 16 - answered.host.frames = 0 := by rw [host, HostPort.enqueue_frames, count]
      rw [resumeCatchUps_eq, none, List.take_zero]
      rfl
  have sent : (answered.host).choose = { r.1.host with leaving := some frame } := by
    rw [host]
    exact HostPort.choose_reply _ frame (leaving.trans idle) staying (by rw [queue, full]) (by rw [queue]; exact notices) rfl
  refine ⟨_, r.2.body, by rw [exec_eq_takeThen row, takes.takeThen_eq], ?_⟩
  simp only [handle, ht]
  rw [after, sent]
  exact ⟨rfl, queue, intake⟩

end State

/-- Settles O14. -/
theorem nextFrameIsChosen : Obligations.NextFrameIsChosen := by
  have sent (s : State) : exec .hostFrameSent s = .next s.frameLeft := rfl
  refine ⟨fun s f leaving free => ⟨fun older g newer queued notices answer choose => ?_,
    fun g newer queued notices choose => ?_, fun items full => ?_, fun empty => ?_⟩, fun s idle free full notices =>
      ⟨fun tag code rest head => ?_, fun tag code body rest head undefined => ?_, fun c tag code body row takes => ?_⟩⟩
  · have staying : s.host.restart ≠ .answerLeft := by rw [free]; decide
    rw [sent, s.frameLeft_picks f leaving free (by simp [queued]) choose,
      s.host.idled.pick_answer rfl staying queued notices answer]
    rfl
  · have staying : s.host.restart ≠ .answerLeft := by rw [free]; decide
    rw [sent, s.frameLeft_picks f leaving free (by simp [queued]) choose,
      s.host.idled.pick_notice rfl staying queued notices]
    rfl
  · have more : s.host.queue ≠ [] := by rintro h; simp [h] at full
    have first : ({ s.host with leaving := none } : HostPort).itemFirst = true := by
      simp [HostPort.itemFirst, HostPort.frames, free, full, items, Config.outgoing]
    rw [sent, State.frameLeft_queued s f leaving free more, HostPort.choose_of_itemFirst _ first]
  · exact ⟨_, sent s, s.frameLeft_empties f leaving free empty⟩
  · have room : s.host.frames < 16 := by rw [HostPort.frames_eq_length _ idle, full]; decide
    have answered := s.takeBusy_answers tag code room free (by rw [head]; rfl)
    have staying : s.host.restart ≠ .answerLeft := by rw [free]; decide
    have next := HostPort.choose_reply { s.host with intake := rest } (answerFrame tag code []) idle staying full notices rfl
    show Host.Outcome.next s.takeBusy = _
    rw [answered, HostPort.replied, head]
    exact congrArg (fun h => Host.Outcome.next { s with host := h }) next
  · have room : s.host.frames < 16 := by rw [HostPort.frames_eq_length _ idle, full]; decide
    have answered := s.takeUnknown_answers tag code body room free (by rw [head]; rfl) undefined
    have staying : s.host.restart ≠ .answerLeft := by rw [free]; decide
    have next := HostPort.choose_reply { s.host with intake := rest } (answerFrame tag code [2, 9]) idle staying full notices rfl
    show Host.Outcome.next s.takeUnknown = _
    rw [answered, HostPort.replied, head]
    exact congrArg (fun h => Host.Outcome.next { s with host := h }) next
  · exact takes.leaves row idle full notices

/-! ## Events (R190) -/

/-- A change of the plant alone leaves everything an event leaves. -/
theorem onPlant_eventFrame (s : State) (f : Env → Plant → Plant) : s.EventFrame (s.onPlant f) := by
  constructor <;> rfl

/-- Settles O47: every event is a change of the plant, with the offer of its notices. -/
theorem eventsTouchOnlyThePlant : Obligations.EventsTouchOnlyThePlant := by
  intro c s t event run
  cases c <;> try exact event.elim
  case gapExpiry j stage =>
    cases run
    show s.EventFrame (match Stage.ofNum? stage with
      | some st => s.junctionEvent j fun e p => p.gapExpiry e j st
      | none => s)
    cases Stage.ofNum? stage with
    | some st => exact State.finish_onPlant_eventFrame s _
    | none => exact onPlant_eventFrame s fun _ p => p
  case corridorFrameSent j => cases run; exact onPlant_eventFrame s _
  case keepDue j => cases run; exact onPlant_eventFrame s _
  case releaseDue j => cases run; exact onPlant_eventFrame s _
  all_goals
    cases run
    exact State.finish_onPlant_eventFrame s _

/-! ## ARM, PAUSE and RESUME NOTICES (R192, R193) -/

namespace State

/-- R185: a directive whose effect and answer are known, and that raises no notice. -/
theorem Takes.handle_of {s : State} {tag code : Byte} {body : List Byte} (_ : s.Takes tag code body) (f : Handler)
    (after : State → State) {u : State} {a : Answer} (handled : f body s.popIntake = (u, a)) (quiet : u.plant.raised = []) :
    s.handle tag code body f after =
      { after (u.answer tag code a.body) with host := (after (u.answer tag code a.body)).host.choose } := by
  simp only [handle, handled, offerAll_quiet 1 u quiet]

/-- R185: the same of a row that nothing follows and whose owner leaves the host port. -/
theorem Takes.take_of {s : State} {tag code : Byte} {body : List Byte} (takes : s.Takes tag code body) {f : Handler} {u : State}
    {a : Answer} (handled : f body s.popIntake = (u, a)) (quiet : u.plant.raised = []) (host : u.host = s.popIntake.host) :
    s.take code f = { u with host := s.host.replied tag code a.body } := by
  rw [take, takes.takeThen_eq]
  exact (takes.handle_of f id handled quiet).trans (by rw [id, answer_host, host]; rfl)

theorem resumeNotices_set (set : Byte) (some : set ≠ 0) (s : State) : resumeNotices [set] s =
    ({ s with report := { s.report with paused := s.report.paused &&& ~~~set } },
      .done [s.report.armed, s.report.paused &&& ~~~set, s.report.pend]) := by
  simp only [resumeNotices, some, if_false]
  rfl

/-- The state once a RESUME NOTICES has been answered, before its CATCH-UPs. -/
def unpaused (s : State) (tag set : Byte) : State := { s with
  report := { s.report with paused := s.report.paused &&& ~~~set }
  host := { s.host with
    intake := s.host.intake.tail
    queue := s.host.queue ++ [answerFrame tag 0x72 [1, s.report.armed, s.report.paused &&& ~~~set, s.report.pend]] } }

/-- The classes of a set that a RESUME NOTICES finds ARMED and PENDING. -/
def resumed (s : State) (set : Byte) : List NoticeClass :=
  NoticeClass.all.filter fun c => hasClass set c && hasClass s.report.armed c && hasClass s.report.pend c

/-- A class of a set is unpaused when the set is. -/
theorem hasClass_unpause (m set : BitVec 8) (c : NoticeClass) (listed : hasClass set c = true) :
    hasClass (m &&& ~~~set) c = false := by
  rw [hasClass_eq] at listed ⊢
  simp [listed]

theorem resumed_eq (s : State) (tag set : Byte) :
    (NoticeClass.all.filter fun c => hasClass set c && (s.unpaused tag set).report.catchable c) = s.resumed set := by
  refine List.filter_congr fun c _ => ?_
  cases listed : hasClass set c with
  | false => rfl
  | true => simp [ReportBlock.catchable, unpaused, hasClass_unpause _ _ _ listed]

/-- R193: RESUME NOTICES, and the CATCH-UPs that follow its answer. -/
theorem Takes.resume {s : State} {tag set : Byte} (takes : s.Takes tag 0x72 [set]) (some : set ≠ 0) :
    let t := ((s.resumed set).take (15 - s.host.frames)).foldl catchUp (s.unpaused tag set)
    exec .resumeNotices s = .next { t with host := t.host.choose } := by
  have count : (s.unpaused tag set).host.frames = s.host.frames + 1 := s.host.enqueue_frames _
  have left : 16 - (s.unpaused tag set).host.frames = 15 - s.host.frames := by omega
  have after := resumeCatchUps_eq set (s.unpaused tag set)
  rw [resumed_eq, left] at after
  rw [exec_eq_takeThen (c := .resumeNotices) rfl, takes.takeThen_eq,
    takes.handle_of (directiveHandler .resumeNotices) _ (resumeNotices_set set some s.popIntake) takes.quiet, ← after]
  rfl

end State

/-- Settles O45. -/
theorem noticeMarksAreSet : Obligations.NoticeMarksAreSet := by
  refine ⟨fun s tag set some => ⟨fun takes => ?_, fun takes => ?_, fun takes => ?_, fun takes quiet => ?_, fun body takes bad => ?_,
    fun takes => ?_, fun takes => ?_⟩, fun s tag set some takes => ?_, fun s tag body bad => ⟨fun takes => ?_, fun takes => ?_⟩⟩
  · exact congrArg Host.Outcome.next (takes.take_of (f := State.armNotices) (if_neg some) takes.quiet rfl)
  · exact congrArg Host.Outcome.next (takes.take_of (f := State.armNotices) (if_neg some) takes.quiet rfl)
  · exact congrArg Host.Outcome.next (takes.take_of (f := State.pauseNotices) (if_neg some) takes.quiet rfl)
  · have nothing : s.resumed set = [] := List.filter_eq_nil_iff.mpr fun c _ => by simp [quiet, hasClass_eq]
    rw [takes.resume some, nothing, List.take_nil]
    rfl
  · have refused : State.armNotices body s.popIntake = (s.popIntake, .refused .form) := by
      rcases bad with long | ⟨act, rfl⟩ | ⟨cls, act, rfl, not0, not1⟩
      · exact directiveHandler_malformed (c := .armNotices) rfl body _ (.inl long)
      · simp only [State.armNotices]
        cases flag? act.toNat <;> rfl
      · have undefined : flag? act.toNat = Option.none := by
          unfold flag?
          split
          · rename_i h; exact absurd (BitVec.eq_of_toNat_eq h) not0
          · rename_i h; exact absurd (BitVec.eq_of_toNat_eq h) not1
          · rfl
        simp only [State.armNotices, undefined]
        rfl
    show Host.Outcome.next (s.take 0x70 State.armNotices) = _
    rw [takes.take_same _ _ refused]
    rfl
  · show Host.Outcome.next (s.take 0x71 State.pauseNotices) = _
    rw [takes.take_same _ (.refused .form) rfl]
    rfl
  · rw [exec_eq_takeThen (c := .resumeNotices) rfl, takes.takeThen_same _ _ (.refused .form) rfl fun u => ?_]
    · rfl
    · have empty (c : NoticeClass) : hasClass 0 c = false := by rw [hasClass_eq]; exact BitVec.getLsbD_zero
      rw [directiveAfter, State.resumeCatchUps_eq, List.filter_eq_nil_iff.mpr fun c _ => by simp only [empty c, Bool.false_and, Bool.false_eq_true, not_false_eq_true],
        List.take_nil]
      rfl
  · intro due sent
    obtain ⟨run, marks⟩ := State.foldl_catchUp sent (s.unpaused tag set)
    refine ⟨_, takes.resume some, ?_, ?_, marks, ?_, ?_, ?_, ?_⟩
    · exact (congrArg (fun t : State => t.report.armed) run :)
    · exact (congrArg (fun t : State => t.report.paused) run :)
    · refine (congrArg (fun t : State => t.host.choose) run).trans ?_
      simp only [State.unpaused, List.append_assoc, List.singleton_append]
    · exact (congrArg State.plant run :)
    · exact (congrArg State.tb run :)
    · exact (congrArg State.script run :)
  · exact busyUnknownAndMalformedAreAnswered.1 .pauseNotices s tag 0x71 body rfl takes (.inl bad)
  · exact busyUnknownAndMalformedAreAnswered.1 .resumeNotices s tag 0x72 body rfl takes (.inl bad)

end Sys2Proof.Machine
end

section
/-! The statements on the tenth and on the frames of a corridor line: O19 and O60. -/

namespace Sys2Proof.Machine

open Sys2Proof

/-! ## Changes of one junction -/

namespace Plant

/-- What a change of a junction writes depends on the junction it is made of alone. -/
theorem upd_congr (p : Plant) (j : JIdx) {f g : Junction → Junction} (h : f p.jn[j] = g p.jn[j]) : p.upd j f = p.upd j g := by
  rw [upd, upd, h]

end Plant

/-! ## The tenth (R1, R11, R22) -/

/-- R1: a tenth that does not reach master zero. -/
theorem State.tenth_of_not_wrap (s : State) (h : s.tb.m + 1 < 10 * s.tb.c) :
    s.tenth = { s with now := s.now + 1, plant := s.plant.tick, tb := { s.tb with m := s.tb.m + 1 } } := by
  have stays : ¬10 * s.tb.c ≤ s.tb.m + 1 := by omega
  simp only [State.tenth, stays, decide_false, Bool.false_eq_true, if_false]

/-- R1, R190: in a settled state such a tenth is the whole of the command. -/
theorem State.Settled.advances {s : State} (settled : s.Settled) (h : s.tb.m + 1 < 10 * s.tb.c) :
    exec .masterPositionAdvance s =
      .next { s with now := s.now + 1, plant := s.plant.tick, tb := { s.tb with m := s.tb.m + 1 } } := by
  refine congrArg Host.Outcome.next ?_
  rw [s.tenth_of_not_wrap h]
  exact State.finish_settled _ settled

theorem Plant.tick_pool (p : Plant) (n : EntryNo) : p.tick.pool[n] = p.pool[n].tick := by simp [Plant.tick]

theorem Plant.tick_jn (p : Plant) (j : JIdx) : p.tick.jn[j] = p.jn[j].tick p.pool := by simp [Plant.tick]

/-- R11, R63, R123: a present junction's tenth. -/
theorem Junction.tick_of_present (J : Junction) (pool : Vector Entry 128) (h : J.state ≠ .absent) : J.tick pool = { J with
    p := J.p + 1
    tally := { J.tally with
      bandGreen := J.tally.bandGreen + if ∃ n ∈ J.chain, pool[n].role = .band ∧ pool[n].status = .serving then 1 else 0 }
    stack := match J.minWait with
      | some h => J.stack.map fun c => c.tick h pool[h].minimum
      | none => J.stack } := by
  have present : J.state.present = true := by
    cases state : J.state with
    | absent => exact absurd state h
    | _ => rfl
  have green : (J.chain.any fun n => pool[n].role == .band && pool[n].status == .serving) =
      decide (∃ n ∈ J.chain, pool[n].role = .band ∧ pool[n].status = .serving) := by
    rw [Bool.eq_iff_iff]
    simp
  unfold Junction.tick
  rw [if_pos present, green]
  by_cases served : ∃ n ∈ J.chain, pool[n].role = .band ∧ pool[n].status = .serving
  · rw [decide_eq_true served, if_pos served]
    rfl
  · rw [decide_eq_false served, if_neg served]
    rfl

theorem Junction.tick_of_absent (J : Junction) (pool : Vector Entry 128) (h : J.state = .absent) : J.tick pool = J := by
  simp [Junction.tick, h, JState.present]

/-- Settles O19. -/
theorem tenthAdvances : Obligations.TenthAdvances := by
  intro s settled early
  refine ⟨_, settled.advances early, rfl, rfl, rfl, rfl, rfl, rfl, rfl, rfl, rfl, fun n => ?_, fun j => ?_⟩
  · rw [Plant.tick_pool]
    exact ⟨fun serving => by simp only [Entry.tick, serving, if_true]; rfl, fun other => if_neg other⟩
  · rw [Plant.tick_jn]
    refine ⟨fun absent => Junction.tick_of_absent _ _ absent, fun present plain => ?_⟩
    rw [Junction.tick_of_present _ _ present]
    simp only [plain]

/-! ## Frames of a corridor line (R51, R175, R177, R178) -/

theorem Plant.frameSent_leaving (e : Env) (p : Plant) (j : JIdx) {f : LineFrame} (h : p.jn[j].line.leaving = some f) :
    p.frameSent e j = p.upd j fun J => { J.startDeadline e.now with line := J.line.sent e.now } := by
  simp only [Plant.frameSent, h, Option.isSome_some, if_true]

/-- R51: the ORDER in flight has been sent. -/
theorem Junction.startDeadline_order (J : Junction) (now : Nat) {st : Stage} {o : OrderInFlight} (order : J.order = some o)
    (leaving : J.line.leaving = some (.order st o.tag)) :
    J.startDeadline now = { J with order := some { o with deadline := some (now + 10 * J.plan.a + 10) } } := by
  simp only [Junction.startDeadline, leaving, order, if_true]

/-- R51: another frame has been sent, or no order is in flight. -/
theorem Junction.startDeadline_other (J : Junction) (now : Nat) {f : LineFrame} (leaving : J.line.leaving = some f)
    (other : (∀ st tag, f ≠ .order st tag) ∨ J.order = none) : J.startDeadline now = J := by
  unfold Junction.startDeadline
  split
  · rename_i st tag o hl ho
    rcases other with no | none
    · exact absurd (Option.some.inj (leaving.symm.trans hl)) (no st tag)
    · rw [none] at ho
      exact absurd ho (by simp)
  · rfl

/-- R177: the 500 ms have passed since the last frame and since the line came UP. -/
theorem Line.quietSince_le (l : Line) (now : Nat) (sent : ∀ t, l.lastSent = some t → t + 5 ≤ now)
    (up : ∀ t, l.upAt = some t → t + 5 ≤ now) (late : 5 ≤ now) : l.quietSince + Config.keepInterval ≤ now := by
  have since (t : Option Nat) (h : ∀ v, t = some v → v + 5 ≤ now) : t.getD 0 + 5 ≤ now := by
    cases t with
    | none => simpa using late
    | some v => exact h v rfl
  have := since _ sent
  have := since _ up
  simp only [Line.quietSince, Config.keepInterval]
  omega

/-- R175: an idle UP line sends a frame at once. -/
theorem Line.decide_idle (l : Line) (f : LineFrame) (up : l.up = true) (idle : l.leaving = none) :
    l.decide f = { l with leaving := some f } := by
  simp only [Line.decide, up, if_true, idle]

/-- Settles O60. -/
theorem lineFramesAreSent : Obligations.LineFramesAreSent := by
  refine ⟨fun s j f leaving => ⟨fun st o order frame => ?_, fun other => ?_⟩, fun s j up idle sent came late =>
    ⟨fun coordinated => ?_, fun other => ?_⟩⟩
  · show Host.Outcome.next { s with plant := s.plant.frameSent s.env j } = _
    rw [Plant.frameSent_leaving _ _ _ leaving]
    refine congrArg (fun p => Host.Outcome.next { s with plant := p }) (Plant.upd_congr _ _ ?_)
    simp only [Junction.startDeadline_order _ _ order (frame ▸ leaving)]
    rfl
  · show Host.Outcome.next { s with plant := s.plant.frameSent s.env j } = _
    rw [Plant.frameSent_leaving _ _ _ leaving]
    refine congrArg (fun p => Host.Outcome.next { s with plant := p }) (Plant.upd_congr _ _ ?_)
    simp only [Junction.startDeadline_other _ _ leaving other]
    rfl
  · have runs : s.plant.jn[j].state.coordinated = true := by rcases coordinated with h | h <;> rw [h] <;> rfl
    have due := s.plant.jn[j].line.quietSince_le s.now sent came late
    show Host.Outcome.next { s with plant := s.plant.keepDue s.env j } = _
    simp only [Plant.keepDue, runs, up, State.env, due, decide_true, Bool.and_self, if_true, Plant.decideFrame]
    refine congrArg (fun p => Host.Outcome.next { s with plant := p }) (Plant.upd_congr _ _ ?_)
    simp only [Line.decide_idle _ _ up idle, Junction.keepFrame]
    cases s.plant.jn[j].order <;> cases s.plant.jn[j].green <;> rfl
  · have apart : (s.plant.jn[j].state.isLocal || s.plant.jn[j].state.isSolo) = true := by
      rcases other with ⟨c, h⟩ | ⟨c, h⟩ <;> rw [h] <;> rfl
    have due := s.plant.jn[j].line.quietSince_le s.now sent came late
    show Host.Outcome.next { s with plant := s.plant.releaseDue s.env j } = _
    simp only [Plant.releaseDue, apart, up, State.env, due, decide_true, Bool.and_self, if_true, Plant.decideFrame]
    refine congrArg (fun p => Host.Outcome.next { s with plant := p }) (Plant.upd_congr _ _ ?_)
    simp only [Line.decide_idle _ _ up idle]

end Sys2Proof.Machine
end

section
/-! The candidate of an acceptance attempt and its conditions: O38 (R101, R103 to R106). The two searches over the arrival order, for the
PENDING record of the highest level (R103) and for that of the lowest (R101), are one search by a rank. -/

namespace Sys2Proof.Machine

open Sys2Proof

/-! ## The search of the arrival order -/

/-- A record takes the place of the best so far where it stands above it. -/
def preferred (rank : Request → Int) (best : Option Candidate) (k : SlotNo) (r : Request) : Option Candidate :=
  match best with
  | some b => if rank b.req < rank r then some { slot := k, req := r } else some b
  | none => some { slot := k, req := r }

/-- The next slot of the search. -/
def searchStep (found : SlotNo → Option Request) (rank : Request → Int) (best : Option Candidate) (k : SlotNo) : Option Candidate :=
  match found k with
  | none => best
  | some r => preferred rank best k r

/-- The best of the records found in a list of slots: that of the highest rank, the oldest among equals. -/
def bestOf (found : SlotNo → Option Request) (rank : Request → Int) (l : List SlotNo) : Option Candidate :=
  l.foldl (searchStep found rank) none

section
variable (found : SlotNo → Option Request) (rank : Request → Int)

theorem bestOf_append (l : List SlotNo) (k : SlotNo) :
    bestOf found rank (l ++ [k]) = searchStep found rank (bestOf found rank l) k := by
  rw [bestOf, List.foldl_append]
  rfl

theorem bestOf_append_none {l : List SlotNo} {k : SlotNo} (h : found k = none) :
    bestOf found rank (l ++ [k]) = bestOf found rank l := by
  rw [bestOf_append, searchStep, h]

theorem bestOf_append_some {l : List SlotNo} {k : SlotNo} {r : Request} (h : found k = some r) :
    bestOf found rank (l ++ [k]) = preferred rank (bestOf found rank l) k r := by
  rw [bestOf_append, searchStep, h]

/-- Nothing is best where nothing is found. -/
theorem bestOf_eq_none_iff (l : List SlotNo) : bestOf found rank l = none ↔ ∀ k ∈ l, found k = none := by
  induction l using List.reverseRecOn with
  | nil => simp [bestOf]
  | append_singleton l k ih =>
    cases h : found k with
    | none => simp [bestOf_append_none found rank h, ih, or_imp, forall_and, h]
    | some r =>
      rw [bestOf_append_some found rank h]
      have here : ¬∀ i ∈ l ++ [k], found i = none := fun all => by
        rw [all k (by simp)] at h
        exact absurd h (by simp)
      cases bestOf found rank l with
      | none => simp only [here, iff_false, preferred]; simp
      | some b => simp only [here, iff_false, preferred]; split <;> simp

/-- The best stands above all older ones and below no younger one. -/
theorem bestOf_spec (l : List SlotNo) (c : Candidate) (h : bestOf found rank l = some c) : found c.slot = some c.req ∧
    ∃ older younger, l = older ++ c.slot :: younger ∧ (∀ k ∈ older, ∀ r, found k = some r → rank r < rank c.req) ∧
      ∀ k ∈ younger, ∀ r, found k = some r → rank r ≤ rank c.req := by
  induction l using List.reverseRecOn generalizing c with
  | nil => simp [bestOf] at h
  | append_singleton l k ih =>
    cases hk : found k with
    | none =>
      rw [bestOf_append_none found rank hk] at h
      obtain ⟨at', older, younger, rfl, above, notBelow⟩ := ih c h
      refine ⟨at', older, younger ++ [k], by simp, above, fun i hi r hr => ?_⟩
      rcases List.mem_append.mp hi with hi | hi
      · exact notBelow i hi r hr
      · rw [List.mem_singleton.mp hi, hk] at hr
        exact absurd hr (by simp)
    | some r =>
      rw [bestOf_append_some found rank hk] at h
      cases hb : bestOf found rank l with
      | none =>
        simp only [hb, preferred, Option.some.injEq] at h
        subst h
        have none := (bestOf_eq_none_iff found rank l).mp hb
        refine ⟨hk, l, [], rfl, fun i hi q hq => ?_, by simp⟩
        rw [none i hi] at hq
        exact absurd hq (by simp)
      | some b =>
        simp only [hb, preferred] at h
        obtain ⟨atB, older, younger, split, above, notBelow⟩ := ih b hb
        by_cases better : rank b.req < rank r
        · rw [if_pos better, Option.some.injEq] at h
          subst h
          refine ⟨hk, l, [], rfl, fun i hi q hq => ?_, by simp⟩
          rw [split] at hi
          rcases List.mem_append.mp hi with hi | hi
          · exact (above i hi q hq).trans better
          · rcases List.mem_cons.mp hi with rfl | hi
            · rw [atB, Option.some.injEq] at hq
              exact hq ▸ better
            · exact (notBelow i hi q hq).trans_lt better
        · rw [if_neg better, Option.some.injEq] at h
          subst h
          refine ⟨atB, older, younger ++ [k], by simp [split], above, fun i hi q hq => ?_⟩
          rcases List.mem_append.mp hi with hi | hi
          · exact notBelow i hi q hq
          · rw [List.mem_singleton.mp hi, hk, Option.some.injEq] at hq
            exact hq ▸ not_lt.mp better

/-- A record above all older ones and below no younger one is the best. -/
theorem bestOf_eq_some {older younger : List SlotNo} {k : SlotNo} {r : Request} (at' : found k = some r)
    (above : ∀ i ∈ older, ∀ q, found i = some q → rank q < rank r)
    (notBelow : ∀ i ∈ younger, ∀ q, found i = some q → rank q ≤ rank r) :
    bestOf found rank (older ++ k :: younger) = some { slot := k, req := r } := by
  induction younger using List.reverseRecOn with
  | nil =>
    rw [bestOf_append_some found rank at']
    cases hb : bestOf found rank older with
    | none => rfl
    | some b =>
      obtain ⟨atB, o, y, split, -, -⟩ := bestOf_spec found rank older b hb
      exact if_pos (above b.slot (by simp [split]) b.req atB)
  | append_singleton l i ih =>
    rw [← List.cons_append, ← List.append_assoc, bestOf_append, ih fun a ha => notBelow a (by simp [ha]), searchStep]
    cases hi : found i with
    | none => rfl
    | some q => exact if_neg (not_lt.mpr (notBelow i (by simp) q hi))

end

namespace Plant

/-! ## The candidate (R103) and the record displaced (R101) -/

/-- The record of a slot that is a PENDING one of a junction. -/
def pendingOf (p : Plant) (j : JIdx) (k : SlotNo) : Option Request :=
  (p.req[k]).filter fun r => decide (r.junction = j) && !r.isActive

theorem pendingOf_eq_some_iff (p : Plant) (j : JIdx) (k : SlotNo) (r : Request) :
    p.pendingOf j k = some r ↔ p.req[k] = some r ∧ r.junction = j ∧ r.isActive = false := by
  simp [pendingOf, Option.filter_eq_some_iff]

theorem pendingOf_eq_none_iff (p : Plant) (j : JIdx) (k : SlotNo) :
    p.pendingOf j k = none ↔ ∀ r, p.req[k] = some r → r.junction = j → r.isActive = true := by
  simp [pendingOf, Option.filter_eq_none_iff]

/-- R103: the candidate is the best PENDING record of the junction by level. -/
theorem candidate?_eq_bestOf (p : Plant) (j : JIdx) :
    p.candidate? j = bestOf (p.pendingOf j) (fun r => (r.level : Int)) p.arrivals := by
  unfold candidate? bestOf
  refine congrFun (congrFun (congrArg _ (funext fun best => funext fun k => ?_)) _) _
  unfold searchStep
  cases hk : p.req[k] with
  | none => simp only [pendingOf, hk, Option.filter_none]
  | some r =>
    by_cases cand : r.junction = j ∧ r.isActive = false
    · have found := (p.pendingOf_eq_some_iff j k r).mpr ⟨hk, cand⟩
      simp only [cand, found, and_self, if_true, preferred]
      cases best with
      | none => rfl
      | some b => simp only [Int.ofNat_lt]
    · have missed : p.pendingOf j k = none := (p.pendingOf_eq_none_iff j k).mpr fun q hq at' => by
        rw [hk, Option.some.injEq] at hq
        subst hq
        by_contra passive
        exact cand ⟨at', Bool.eq_false_iff.mpr passive⟩
      simp only [cand, missed, if_false]

theorem candidate?_eq_none_iff (p : Plant) (j : JIdx) :
    p.candidate? j = none ↔ ∀ k ∈ p.arrivals, ∀ r, p.req[k] = some r → r.junction = j → r.isActive = true := by
  simp only [candidate?_eq_bestOf, bestOf_eq_none_iff, pendingOf_eq_none_iff]

/-- R105: a junction without a PENDING record has no candidate. -/
theorem NoCandidate.candidate?_eq_none {p : Plant} {j : JIdx} (h : p.NoCandidate j) : p.candidate? j = none :=
  (p.candidate?_eq_none_iff j).mpr fun k _ => h k

/-- R103: what the candidate is. -/
theorem candidate?_spec (p : Plant) (j : JIdx) (c : Candidate) (h : p.candidate? j = some c) :
    p.req[c.slot] = some c.req ∧ c.req.junction = j ∧ c.req.isActive = false ∧
      ∃ older younger, p.arrivals = older ++ c.slot :: younger ∧
        (∀ k ∈ older, ∀ r, p.req[k] = some r → r.junction = j → r.isActive = false → r.level < c.req.level) ∧
        ∀ k ∈ younger, ∀ r, p.req[k] = some r → r.junction = j → r.isActive = false → r.level ≤ c.req.level := by
  rw [candidate?_eq_bestOf] at h
  obtain ⟨at', older, younger, order, above, notBelow⟩ := bestOf_spec _ _ _ _ h
  obtain ⟨hreq, hj, passive⟩ := (p.pendingOf_eq_some_iff j c.slot c.req).mp at'
  have found (k : SlotNo) (r : Request) (hr : p.req[k] = some r) (hj : r.junction = j) (passive : r.isActive = false) :=
    (p.pendingOf_eq_some_iff j k r).mpr ⟨hr, hj, passive⟩
  exact ⟨hreq, hj, passive, older, younger, order,
    fun k hk r hr hj hp => Int.ofNat_lt.mp (above k hk r (found k r hr hj hp)),
    fun k hk r hr hj hp => Int.ofNat_le.mp (notBelow k hk r (found k r hr hj hp))⟩

/-! ## The attempts (R104 to R106) -/

theorem attempts_of_attempt?_none (e : Env) (p : Plant) (j : JIdx) (h : p.attempt? e j = none) : p.attempts e j = p := by
  simp only [attempts, attemptLoop, h]

theorem attempts_of_candidate?_none (e : Env) (p : Plant) (j : JIdx) (h : p.candidate? j = none) : p.attempts e j = p :=
  attempts_of_attempt?_none e p j (by simp only [attempt?, h])

/-- R105: without a PENDING record nothing is accepted. -/
theorem NoCandidate.attempts {p : Plant} {j : JIdx} (h : p.NoCandidate j) (e : Env) : p.attempts e j = p :=
  attempts_of_candidate?_none e p j h.candidate?_eq_none

theorem attempts_of_not_acceptable (e : Env) (p : Plant) (j : JIdx) (c : Candidate) (h : p.candidate? j = some c)
    (not : p.acceptable j c.req = false) : p.attempts e j = p :=
  attempts_of_attempt?_none e p j (by simp only [attempt?, h, not, Bool.false_eq_true, if_false])

theorem attempts_of_acceptable (e : Env) (p : Plant) (j : JIdx) (c : Candidate) (h : p.candidate? j = some c)
    (acc : p.acceptable j c.req = true) : p.attempts e j = attemptLoop e j 24 (p.accept e j c) := by
  have attempt : p.attempt? e j = some (p.accept e j c) := by simp only [attempt?, h, acc, if_true]
  show attemptLoop e j (24 + 1) p = _
  rw [attemptLoop, attempt]

theorem topEntry?_cons {p : Plant} {j : JIdx} {n : EntryNo} {rest : List EntryNo} (h : p.jn[j].chain = n :: rest) :
    p.topEntry? j = some p.pool[n] := by
  simp only [topEntry?, top?, h, List.head?_cons, Option.map_some]

theorem topEntry?_nil {p : Plant} {j : JIdx} (h : p.jn[j].chain = []) : p.topEntry? j = none := by
  simp only [topEntry?, top?, h, List.head?_nil, Option.map_none]

/-- R104: the conditions of acceptance. -/
theorem acceptable_iff (p : Plant) (j : JIdx) (r : Request) : p.acceptable j r = true ↔
    p.jn[j].state = .inStep ∧ p.jn[j].level < r.level ∧
      (r.level ≠ 16 → p.jn[j].order = none ∧ p.jn[j].stack.length < 2) ∧
      (r.action = .extend → ∃ n rest, p.jn[j].chain = n :: rest ∧ p.pool[n].origin = .host ∧
        p.pool[n].status = .serving ∧ p.pool[n].stage = r.stage) := by
  have top : (r.action == .insert ||
      (p.topEntry? j).any fun x => x.origin == .host && x.status == .serving && x.stage == r.stage) = true ↔
      (r.action = .extend → ∃ n rest, p.jn[j].chain = n :: rest ∧ p.pool[n].origin = .host ∧
        p.pool[n].status = .serving ∧ p.pool[n].stage = r.stage) := by
    cases r.action with
    | insert => simp
    | extend =>
      cases chain : p.jn[j].chain with
      | nil => simp [topEntry?_nil chain]
      | cons n rest => simp [topEntry?_cons chain, and_assoc]
  have room : (decide (r.level = 16) || (p.jn[j].order.isNone && decide (p.jn[j].stack.length < 2))) = true ↔
      (r.level ≠ 16 → p.jn[j].order = none ∧ p.jn[j].stack.length < 2) := by
    by_cases h : r.level = 16 <;> simp [h]
  simp only [acceptable, Bool.and_eq_true, beq_iff_eq, decide_eq_true_eq, top, room, and_assoc]

end Plant

/-- Settles O38. -/
theorem candidateAndConditions : Obligations.CandidateAndConditions := by
  refine ⟨fun e p j => ⟨fun none => ⟨p.attempts_of_candidate?_none e j none, (p.candidate?_eq_none_iff j).mp none⟩,
    fun c cand => ⟨p.candidate?_spec j c cand, p.attempts_of_not_acceptable e j c cand, p.attempts_of_acceptable e j c cand⟩⟩,
    Plant.acceptable_iff⟩

end Sys2Proof.Machine
end

section
/-! SUPPORT. The steps of the sequencer, each as one equation (R27, R28, R51, R58, R59, R64): what the end of an entry records, the rotation
and the retirement of the top, an ORDER, and the passing of the entries ahead of one. -/

namespace Sys2Proof.Machine

open Sys2Proof

namespace Plant

/-! ## Reading after a change -/

theorem upd_at (p : Plant) (j : JIdx) (f : Junction → Junction) : (p.upd j f).jn[j] = f p.jn[j] := by simp

theorem upd_elsewhere (p : Plant) {i j : JIdx} (f : Junction → Junction) (h : i ≠ j) : (p.upd j f).jn[i] = p.jn[i] := by
  simp [h]

theorem updEnt_at (p : Plant) (n : EntryNo) (f : Entry → Entry) : (p.updEnt n f).pool[n] = f p.pool[n] := by simp

theorem updEnt_elsewhere (p : Plant) {i n : EntryNo} (f : Entry → Entry) (h : i ≠ n) : (p.updEnt n f).pool[i] = p.pool[i] := by
  simp [h]

theorem updEnt_junction (p : Plant) (n : EntryNo) (f : Entry → Entry) (j : JIdx) : (p.updEnt n f).jn[j] = p.jn[j] := rfl

theorem upd_entry (p : Plant) (j : JIdx) (f : Junction → Junction) (n : EntryNo) : (p.upd j f).pool[n] = p.pool[n] := rfl

theorem othersSame_upd (p : Plant) (j : JIdx) (f : Junction → Junction) : p.OthersSame (p.upd j f) j :=
  fun _ h => p.upd_elsewhere f h

theorem entriesSame_updEnt (p : Plant) (n : EntryNo) (f : Entry → Entry) : p.EntriesSame (p.updEnt n f) [n] :=
  fun _ h => p.updEnt_elsewhere f fun same => h (List.mem_singleton.mpr same)

theorem OthersSame.trans {p q r : Plant} {j : JIdx} (h : p.OthersSame q j) (g : q.OthersSame r j) : p.OthersSame r j :=
  fun i hi => (g i hi).trans (h i hi)

theorem EntriesSame.trans {p q r : Plant} {ns ms : List EntryNo} (h : p.EntriesSame q ns) (g : q.EntriesSame r ms) :
    p.EntriesSame r (ns ++ ms) := fun i hi =>
  (g i fun h => hi (List.mem_append_right ns h)).trans (h i fun h => hi (List.mem_append_left ms h))

theorem EntriesSame.mono {p q : Plant} {ns ms : List EntryNo} (h : p.EntriesSame q ns) (sub : ∀ i ∈ ns, i ∈ ms) :
    p.EntriesSame q ms := fun i hi => h i fun hn => hi (sub i hn)

/-- Every operation at a junction leaves the others. -/
theorem Moves.othersSame {p q : Plant} {j : JIdx} (h : At j p q) : p.OthersSame q j := fun i hi => h.others i hi

theorem NoCandidate.of_req {p q : Plant} {j : JIdx} (h : p.NoCandidate j) (same : q.req = p.req) : q.NoCandidate j := by
  intro k r hr
  rw [same] at hr
  exact h k r hr

end Plant

/-! ## Events in a settled state (R190) -/

/-- A command that ends in a plant without notices, begun between commands, offers none. -/
theorem State.Settled.finish_plant {s : State} (settled : s.Settled) {q : Plant} (quiet : q.raised = s.plant.raised) :
    ({ s with plant := q } : State).finish = { s with plant := q } :=
  State.finish_settled _ ⟨quiet.trans settled.1, settled.2⟩

theorem State.Settled.plantEvent {s : State} (settled : s.Settled) {f : Env → Plant → Plant} {q : Plant}
    (made : f s.env s.plant = q) (quiet : q.raised = s.plant.raised) : s.plantEvent f = { s with plant := q } := by
  rw [State.plantEvent, State.onPlant, made]
  exact settled.finish_plant quiet

/-- An event of a junction where no request waits, begun between commands. -/
theorem State.Settled.junctionEvent {s : State} (settled : s.Settled) {j : JIdx} (none : s.plant.NoCandidate j)
    {f : Env → Plant → Plant} {q : Plant} (made : f s.env s.plant = q) (quiet : q.raised = s.plant.raised)
    (table : q.req = s.plant.req) : s.junctionEvent j f = { s with plant := q } := by
  refine settled.plantEvent (f := fun e p => (f e p).attempts e j) ?_ quiet
  simp only [made]
  exact (none.of_req table).attempts s.env

/-- Everything but the plant is as it was. -/
theorem State.plantOnly (s : State) (q : Plant) : s.PlantOnly { s with plant := q } := ⟨rfl, rfl, rfl, rfl, rfl, rfl⟩

/-! ## The end of an entry (R27, R28) -/

/-- The completion list once an end or a pass of an entry has been marked, where its notify is on (R32). -/
def Junction.listed (J : Junction) (n : EntryNo) (x : Entry) (out : Option EntryOutcome) : Junction :=
  match out with
  | some o => if x.notify then J.markCompletion { entry := n, stage := x.stage, outcome := o } else J
  | none => J

/-- The tally once an end or a pass of an entry has been noted (R68). -/
def Tally.noted (t : Tally) (x : Entry) : Option EntryOutcome → Tally
  | some o => t.addServed { stage := x.stage, outcome := o, duration := x.elapsed.getD 0 }
  | none => t

/-- What the end or the pass of an entry records at its junction, an outcome given or not. -/
def Junction.noted (J : Junction) (n : EntryNo) (x : Entry) (out : Option EntryOutcome) : Junction :=
  { J with
    det := { J.det with gap := if x.status = .serving then J.det.gap.set x.stage .stopped else J.det.gap }
    tally := J.tally.noted x out
    completions := (J.listed n x out).completions
    overflow := (J.listed n x out).overflow }

/-- The gap timer of an entry that was SERVING has stopped (R85). -/
def Junction.gapStopped (J : Junction) (x : Entry) : Junction :=
  { J with det := { J.det with gap := if x.status = .serving then J.det.gap.set x.stage .stopped else J.det.gap } }

/-- An outcome is noted in the tally and, where the notify is on, in the completion list. -/
theorem Junction.noted_some (J : Junction) (n : EntryNo) (x : Entry) (o : EntryOutcome) :
    (let K := { J.gapStopped x with
        tally := J.tally.addServed { stage := x.stage, outcome := o, duration := x.elapsed.getD 0 } }
     if x.notify then K.markCompletion { entry := n, stage := x.stage, outcome := o } else K) = J.noted n x (some o) := by
  cases notify : x.notify with
  | false => simp only [Bool.false_eq_true, if_false, noted, listed, notify]; rfl
  | true =>
    by_cases known : (J.completions.any fun i => i.entry == n) = true
    · simp only [if_true, noted, listed, notify, markCompletion, gapStopped, known]
      rfl
    · by_cases room : J.completions.length < Config.completions
      · simp only [if_true, noted, listed, notify, markCompletion, gapStopped, known, room, Bool.false_eq_true, if_false]
        rfl
      · simp only [if_true, noted, listed, notify, markCompletion, gapStopped, known, room, Bool.false_eq_true, if_false]
        rfl

namespace Plant

/-- R27, R28, R85: the gap timer stops and the outcome is noted. -/
theorem stopGapOf_noted (p : Plant) (j : JIdx) (n : EntryNo) (out : Option EntryOutcome) :
    (match out with
      | none => p.stopGapOf j n
      | some o => (p.stopGapOf j n).noteOutcome j n o) = p.upd j fun J => J.noted n p.pool[n] out := by
  have stopped : p.stopGapOf j n = p.upd j fun J => J.gapStopped p.pool[n] := by
    unfold stopGapOf Junction.gapStopped
    by_cases serving : p.pool[n].status = .serving
    · simp only [serving, if_true]
    · simp only [serving, if_false]
      exact (p.upd_id j _ rfl).symm
  rw [stopped]
  cases out with
  | none => rfl
  | some o =>
    simp only [noteOutcome, upd_upd, upd_pool]
    exact p.upd_congr j (Junction.noted_some p.jn[j] n p.pool[n] o)

/-- R27: rotate top. -/
theorem rotateTop_eq (p : Plant) (j : JIdx) (out : Option EntryOutcome) {n : EntryNo} {rest : List EntryNo}
    (chain : p.jn[j].chain = n :: rest) : p.rotateTop j out =
      (p.upd j fun J => { J.noted n p.pool[n] out with chain := rest ++ [n] }).updEnt n fun x => rotated x out := by
  have noted := p.stopGapOf_noted j n out
  simp only [rotateTop, chain]
  cases out with
  | none => simp only at noted ⊢; rw [noted, upd_upd]
  | some o => simp only at noted ⊢; rw [noted, upd_upd]

/-- An order in flight that names an entry goes on without it (R131). -/
def without (n : EntryNo) (o : OrderInFlight) : OrderInFlight := if o.entry = n then { o with live := false } else o

/-- R28: retire. -/
theorem retire_eq (p : Plant) (j : JIdx) (n : EntryNo) (out : Option EntryOutcome) (stands : n ∈ p.jn[j].chain) :
    p.retire j n out = { ((p.upd j fun J => { J.noted n p.pool[n] out with
      chain := J.chain.erase n, order := J.order.map (without n) }).updEnt n fun _ => Entry.clear) with
        free := p.free ++ [n] } := by
  have noted := p.stopGapOf_noted j n out
  have there : n ∈ (p.upd j fun J => J.noted n p.pool[n] out).jn[j].chain := by rw [upd_at]; exact stands
  cases out with
  | none =>
    simp only at noted
    simp only [retire, noted, release, there, if_true, upd_upd]
    rfl
  | some o =>
    simp only at noted
    simp only [retire, noted, release, there, if_true, upd_upd]
    rfl

/-- R58: a RECURRING top ends. -/
theorem endTop_recurring (p : Plant) (j : JIdx) (out : EntryOutcome) {n : EntryNo} {rest : List EntryNo}
    (chain : p.jn[j].chain = n :: rest) (kind : p.pool[n].kind = .recurring) : p.endTop j out =
      (p.upd j fun J => { J.noted n p.pool[n] (some out) with chain := rest ++ [n], allowance := none, resuming := none }).updEnt
        n fun x => rotated x (some out) := by
  simp only [endTop, top?, chain, List.head?_cons, kind, rotateTop_eq p j _ chain]
  show (Plant.updEnt _ n _).upd j _ = _
  simp only [upd, updEnt, Fin.getElem_fin, Vector.getElem_set_self, Vector.set_set]

/-! ## Orders (R51) -/

end Plant

theorem Line.decide_lastTag (l : Line) (f : LineFrame) : (l.decide f).lastTag = l.lastTag := by
  unfold Line.decide
  split
  · split <;> rfl
  · rfl

/-- R51, R176: an ORDER for an entry's stage has been handed to the line controller. -/
def Junction.ordered (J : Junction) (n : EntryNo) (stage : Stage) : Junction :=
  { J with
    line := ({ J.line with lastTag := J.line.lastTag + 1 } : Line).decide (.order stage (J.line.lastTag + 1))
    order := some { entry := n, live := true, stage := stage, tag := J.line.lastTag + 1, deadline := none }
    green := none
    dwell := false }

@[simp] theorem Junction.ordered_lastTag (J : Junction) (n : EntryNo) (stage : Stage) :
    (J.ordered n stage).line.lastTag = J.line.lastTag + 1 := Line.decide_lastTag _ _

namespace Plant

theorem sendOrder_eq (p : Plant) (j : JIdx) (n : EntryNo) : p.sendOrder j n = p.upd j fun J => J.ordered n p.pool[n].stage := rfl

/-- R51: the top's stage is ordered. -/
theorem orderTop_sends (e : Env) (p : Plant) (j : JIdx) {n : EntryNo} {rest : List EntryNo} (chain : p.jn[j].chain = n :: rest)
    (idle : p.jn[j].order = none) (apart : p.jn[j].state = .inStep → p.jn[j].green ≠ some p.pool[n].stage) :
    p.orderTop e j = p.upd j fun J => J.ordered n p.pool[n].stage := by
  have greenElse : ¬(p.jn[j].state = .inStep ∧ p.jn[j].green = some p.pool[n].stage) := fun ⟨hs, hg⟩ => apart hs hg
  simp only [orderTop, top?, chain, List.head?_cons, idle, Option.isSome_none, Bool.false_eq_true, greenElse, if_false, sendOrder_eq]

/-- R51: nothing is ordered while an order is in flight. -/
theorem orderTop_inFlight (e : Env) (p : Plant) (j : JIdx) {o : OrderInFlight} (order : p.jn[j].order = some o) :
    p.orderTop e j = p := by
  unfold orderTop
  split
  · rfl
  · simp only [order, Option.isSome_some, if_true]

/-- R51: the top's stage is green already, and is taken over. -/
theorem orderTop_takesOver (e : Env) (p : Plant) (j : JIdx) {n : EntryNo} {rest : List EntryNo} (chain : p.jn[j].chain = n :: rest)
    (idle : p.jn[j].order = none) (inStep : p.jn[j].state = .inStep) (green : p.jn[j].green = some p.pool[n].stage) :
    p.orderTop e j = p.serveTop e j := by
  simp only [orderTop, top?, chain, List.head?_cons, idle, Option.isSome_none, Bool.false_eq_true, if_false, inStep, green, and_self,
    if_true]

/-! ## The walk (R59) and the passing of entries (R50, R64) -/

/-- R59: the walk ends at the BAND entry and at a servable one. -/
theorem walk_stops (e : Env) (j : JIdx) (k : Nat) (p : Plant) {n : EntryNo} {rest : List EntryNo}
    (chain : p.jn[j].chain = n :: rest) (stops : p.pool[n].role = .band ∨ p.servable j p.pool[n] = true) :
    walk e j (k + 1) p = p.orderTop e j := by
  simp only [walk, topEntry?_cons chain, stops, if_true]

theorem passToBand_stops (j : JIdx) (k : Nat) (p : Plant) {n : EntryNo} {rest : List EntryNo}
    (chain : p.jn[j].chain = n :: rest) (band : p.pool[n].role = .band) : passToBand j (k + 1) p = p := by
  simp only [passToBand, topEntry?_cons chain, band, if_true]

theorem rotateToBand_stops (j : JIdx) (k : Nat) (p : Plant) {n : EntryNo} {rest : List EntryNo}
    (chain : p.jn[j].chain = n :: rest) (band : p.pool[n].role = .band) : rotateToBand j (k + 1) p = p := by
  simp only [rotateToBand, topEntry?_cons chain, band, if_true]

theorem passTop_recurring (p : Plant) (j : JIdx) {n : EntryNo} {rest : List EntryNo}
    (chain : p.jn[j].chain = n :: rest) (kind : p.pool[n].kind = .recurring) : p.passTop j = p.rotateTop j (some .passed) := by
  simp only [passTop, top?, chain, List.head?_cons, kind]

end Plant

/-- What the rotation of entries leaves of a junction: all but its chain, its gap timers, its served and its completion list. -/
def Junction.TurnFrame (J K : Junction) : Prop :=
  K = { J with
    chain := K.chain
    det := { J.det with gap := K.det.gap }
    tally := { J.tally with served := K.tally.served }
    completions := K.completions
    overflow := K.overflow }

theorem Tally.noted_eq (t : Tally) (x : Entry) (out : Option EntryOutcome) :
    t.noted x out = { t with served := (t.noted x out).served } := by
  cases out with
  | none => rfl
  | some o =>
    simp only [Tally.noted, Tally.addServed]
    split <;> rfl

theorem Junction.TurnFrame.trans {J K L : Junction} (h : J.TurnFrame K) (g : K.TurnFrame L) : J.TurnFrame L := by
  unfold TurnFrame at *
  rw [g, h]

theorem Junction.noted_turnFrame (J : Junction) (n : EntryNo) (x : Entry) (out : Option EntryOutcome) (l : List EntryNo) :
    J.TurnFrame { J.noted n x out with chain := l } := by
  unfold TurnFrame noted
  simp only
  rw [← Tally.noted_eq]

namespace Plant

/-- The entries of a list, the first ones of the chain of j, have been rotated with an outcome. -/
structure TurnedBy (p q : Plant) (j : JIdx) (out : Option EntryOutcome) (ns : List EntryNo) : Prop where
  chain : ∀ rest, p.jn[j].chain = ns ++ rest → q.jn[j].chain = rest ++ ns
  ended : ∀ i ∈ ns, q.pool[i] = rotated p.pool[i] out
  frame : p.jn[j].TurnFrame q.jn[j]
  entries : p.EntriesSame q ns
  others : p.OthersSame q j
  free : q.free = p.free
  req : q.req = p.req
  arrivals : q.arrivals = p.arrivals
  raised : q.raised = p.raised
  plain : out = none → q.jn[j].tally = p.jn[j].tally ∧ q.jn[j].completions = p.jn[j].completions

theorem TurnedBy.none (p : Plant) (j : JIdx) (out : Option EntryOutcome) : p.TurnedBy p j out [] where
  chain _ h := by rw [h, List.nil_append, List.append_nil]
  ended _ h := absurd h (by simp)
  frame := rfl
  entries _ _ := rfl
  others _ _ := rfl
  free := rfl
  req := rfl
  arrivals := rfl
  raised := rfl
  plain _ := ⟨rfl, rfl⟩

/-- One more rotation, of an entry that has not been rotated yet. -/
theorem TurnedBy.cons {p q r : Plant} {j : JIdx} {out : Option EntryOutcome} {n : EntryNo} {ns : List EntryNo}
    (h : p.TurnedBy q j out [n]) (g : q.TurnedBy r j out ns) (new : n ∉ ns) : p.TurnedBy r j out (n :: ns) where
  chain rest hc := by
    rw [g.chain (rest ++ [n]) (by rw [h.chain (ns ++ rest) hc, List.append_assoc]), List.append_assoc, List.singleton_append]
  ended i hi := by
    rcases List.mem_cons.mp hi with rfl | hi
    · rw [g.entries i new, h.ended i (List.mem_singleton.mpr rfl)]
    · rw [g.ended i hi, h.entries i fun same => new (List.mem_singleton.mp same ▸ hi)]
  frame := h.frame.trans g.frame
  entries := h.entries.trans g.entries
  others := h.others.trans g.others
  free := g.free.trans h.free
  req := g.req.trans h.req
  arrivals := g.arrivals.trans h.arrivals
  raised := g.raised.trans h.raised
  plain no := ⟨(g.plain no).1.trans (h.plain no).1, (g.plain no).2.trans (h.plain no).2⟩

/-- R27: rotate top, as one such change. -/
theorem rotateTop_turnedBy (p : Plant) (j : JIdx) (out : Option EntryOutcome) {n : EntryNo} {rest : List EntryNo}
    (chain : p.jn[j].chain = n :: rest) : p.TurnedBy (p.rotateTop j out) j out [n] := by
  rw [rotateTop_eq p j out chain]
  have junction : ((p.upd j fun J => { J.noted n p.pool[n] out with chain := rest ++ [n] }).updEnt n fun x => rotated x out).jn[j] =
      { p.jn[j].noted n p.pool[n] out with chain := rest ++ [n] } := by rw [updEnt_junction, upd_at]
  exact {
    chain := fun l hl => by
      rw [junction]
      exact congrArg (· ++ [n]) (List.cons.inj (chain.symm.trans hl)).2
    ended := fun i hi => by rw [List.mem_singleton.mp hi, updEnt_at]; rfl
    frame := by rw [junction]; exact Junction.noted_turnFrame ..
    entries := fun i hi => by rw [updEnt_elsewhere _ _ fun same => hi (List.mem_singleton.mpr same)]; rfl
    others := fun i hi => by rw [updEnt_junction, upd_elsewhere _ _ hi]
    free := rfl
    req := rfl
    arrivals := rfl
    raised := rfl
    plain := fun no => by subst no; rw [junction]; exact ⟨rfl, rfl⟩ }

/-- The top is rotated a number of times. -/
def rotations (j : JIdx) (out : Option EntryOutcome) : Nat → Plant → Plant
  | 0, p => p
  | k + 1, p => rotations j out k (p.rotateTop j out)

theorem rotations_turnedBy (j : JIdx) (out : Option EntryOutcome) {ns rest : List EntryNo} (p : Plant)
    (chain : p.jn[j].chain = ns ++ rest) (distinct : ns.Nodup) : p.TurnedBy (rotations j out ns.length p) j out ns := by
  induction ns generalizing p rest with
  | nil => exact TurnedBy.none p j out
  | cons n ns ih =>
    obtain ⟨new, distinct⟩ := List.nodup_cons.mp distinct
    have first := p.rotateTop_turnedBy j out (rest := ns ++ rest) chain
    have next := first.chain (ns ++ rest) chain
    rw [List.append_assoc] at next
    exact first.cons (ih (p.rotateTop j out) next distinct) new

/-- The entries of a plant that are passed: SIDE, RECURRING ones. -/
def Sides (p : Plant) (ns : List EntryNo) : Prop := ∀ i ∈ ns, p.pool[i].role = .side ∧ p.pool[i].kind = .recurring

theorem rotated_role (x : Entry) (out : Option EntryOutcome) : (rotated x out).role = x.role := by
  cases out with
  | none => rfl
  | some o => cases o <;> rfl

/-- R64: SIDE entries ahead of another are passed. -/
theorem passToBand_sides (j : JIdx) {ns rest : List EntryNo} (k : Nat) (p : Plant) (chain : p.jn[j].chain = ns ++ rest)
    (distinct : ns.Nodup) (sides : p.Sides ns) :
    passToBand j (ns.length + k) p = passToBand j k (rotations j (some .passed) ns.length p) := by
  induction ns generalizing p rest with
  | nil => rw [List.length_nil, Nat.zero_add]; rfl
  | cons n ns ih =>
    obtain ⟨new, distinct⟩ := List.nodup_cons.mp distinct
    obtain ⟨role, kind⟩ := sides n (List.mem_cons_self ..)
    have first := p.rotateTop_turnedBy j (some .passed) (rest := ns ++ rest) chain
    have next := first.chain (ns ++ rest) chain
    rw [List.append_assoc] at next
    have others : (p.rotateTop j (some .passed)).Sides ns := fun i hi => by
      rw [first.entries i fun same => new (List.mem_singleton.mp same ▸ hi)]
      exact sides i (List.mem_cons_of_mem n hi)
    have step : passToBand j (ns.length + k + 1) p = passToBand j (ns.length + k) (p.rotateTop j (some .passed)) := by
      simp only [passToBand, topEntry?_cons chain, role, reduceCtorEq, if_false, passTop_recurring p j chain kind]
    rw [List.length_cons, Nat.add_right_comm, step, ih _ next distinct others]
    rfl

/-- R50: entries ahead of another that are not the BAND entry are rotated. -/
theorem rotateToBand_sides (j : JIdx) {ns rest : List EntryNo} (k : Nat) (p : Plant) (chain : p.jn[j].chain = ns ++ rest)
    (distinct : ns.Nodup) (sides : ∀ i ∈ ns, p.pool[i].role = .side) :
    rotateToBand j (ns.length + k) p = rotateToBand j k (rotations j none ns.length p) := by
  induction ns generalizing p rest with
  | nil => rw [List.length_nil, Nat.zero_add]; rfl
  | cons n ns ih =>
    obtain ⟨new, distinct⟩ := List.nodup_cons.mp distinct
    have role := sides n (List.mem_cons_self ..)
    have first := p.rotateTop_turnedBy j Option.none (rest := ns ++ rest) chain
    have next := first.chain (ns ++ rest) chain
    rw [List.append_assoc] at next
    have others : ∀ i ∈ ns, (p.rotateTop j Option.none).pool[i].role = .side := fun i hi => by
      rw [first.entries i fun same => new (List.mem_singleton.mp same ▸ hi)]
      exact sides i (List.mem_cons_of_mem n hi)
    have step : rotateToBand j (ns.length + k + 1) p = rotateToBand j (ns.length + k) (p.rotateTop j Option.none) := by
      simp only [rotateToBand, topEntry?_cons chain, role, reduceCtorEq, if_false]
    rw [List.length_cons, Nat.add_right_comm, step, ih _ next distinct others]
    rfl

/-- R59: SIDE entries that are not servable are passed by the walk. -/
theorem walk_sides (e : Env) (j : JIdx) {ns rest : List EntryNo} (k : Nat) (p : Plant) (chain : p.jn[j].chain = ns ++ rest)
    (distinct : ns.Nodup) (sides : p.Sides ns) (idle : ∀ i ∈ ns, p.servable j p.pool[i] = false) :
    walk e j (ns.length + k) p = walk e j k (rotations j (some .passed) ns.length p) := by
  induction ns generalizing p rest with
  | nil => rw [List.length_nil, Nat.zero_add]; rfl
  | cons n ns ih =>
    obtain ⟨new, distinct⟩ := List.nodup_cons.mp distinct
    obtain ⟨role, kind⟩ := sides n (List.mem_cons_self ..)
    have first := p.rotateTop_turnedBy j (some .passed) (rest := ns ++ rest) chain
    have next := first.chain (ns ++ rest) chain
    rw [List.append_assoc] at next
    have entry (i : EntryNo) (hi : i ∈ ns) : (p.rotateTop j (some .passed)).pool[i] = p.pool[i] :=
      first.entries i fun same => new (List.mem_singleton.mp same ▸ hi)
    have flags : (p.rotateTop j (some .passed)).jn[j].det.flags = p.jn[j].det.flags :=
      (congrArg (fun J : Junction => J.det.flags) first.frame :)
    have others : (p.rotateTop j (some .passed)).Sides ns := fun i hi => by
      rw [entry i hi]
      exact sides i (List.mem_cons_of_mem n hi)
    have still : ∀ i ∈ ns, (p.rotateTop j (some .passed)).servable j (p.rotateTop j (some .passed)).pool[i] = false := fun i hi => by
      have before := idle i (List.mem_cons_of_mem n hi)
      rw [entry i hi]
      simp only [servable, flags] at before ⊢
      exact before
    have step : walk e j (ns.length + k + 1) p = walk e j (ns.length + k) (p.rotateTop j (some .passed)) := by
      simp only [walk, topEntry?_cons chain, role, idle n (List.mem_cons_self ..), reduceCtorEq, Bool.false_eq_true, or_self,
        if_false, passTop_recurring p j chain kind]
    rw [List.length_cons, Nat.add_right_comm, step, ih _ next distinct others still]
    rfl

end Plant

end Sys2Proof.Machine
end

section
/-! SUPPORT. The ends of a host top at level 0 (R57 to R65): how the top is found, what its end makes of the chain, and the order of the
entry that follows. -/

namespace Sys2Proof.Machine

open Sys2Proof

namespace Plant

/-- R57: the host top of an IN_STEP junction at level 0. -/
theorem plainTop?_eq {p : Plant} {j : JIdx} {n : EntryNo} {rest : List EntryNo} (inStep : p.jn[j].state = .inStep)
    (level : p.jn[j].level = 0) (chain : p.jn[j].chain = n :: rest) (host : p.pool[n].origin = .host) :
    p.plainTop? j = some p.pool[n] := by
  simp only [plainTop?, inStep, level, and_self, if_true, topEntry?_cons chain, Option.filter_some, host, beq_self_eq_true]

/-- R57: above level 0 there is none. -/
theorem plainTop?_level {p : Plant} {j : JIdx} (above : 0 < p.jn[j].level) : p.plainTop? j = none := by
  have level : p.jn[j].level ≠ 0 := by omega
  simp only [plainTop?, level, and_false, if_false]

theorem minDone_iff (x : Entry) (serving : x.status = .serving) : x.minDone = true ↔ 10 * x.minimum ≤ x.elapsed.getD 0 := by
  simp [Entry.minDone, serving]

/-- The end of a RECURRING top: its rotation, and no resume allowance. -/
theorem endTop_turnedBy {p : Plant} {j : JIdx} (out : EntryOutcome) {n : EntryNo} {rest : List EntryNo}
    (chain : p.jn[j].chain = n :: rest) (kind : p.pool[n].kind = .recurring) :
    let q := p.endTop j out
    q.jn[j] = { p.jn[j].noted n p.pool[n] (some out) with chain := rest ++ [n], allowance := none, resuming := none } ∧
      q.pool[n] = rotated p.pool[n] (some out) ∧ p.EntriesSame q [n] ∧ p.OthersSame q j ∧ q.free = p.free ∧ q.req = p.req ∧
      q.raised = p.raised := by
  simp only [endTop_recurring p j out chain kind]
  refine ⟨?_, ?_, fun i hi => ?_, fun i hi => ?_, rfl, rfl, rfl⟩
  · rw [updEnt_junction, upd_at]
  · rw [updEnt_at, upd_entry]
  · rw [updEnt_elsewhere _ _ fun same => hi (List.mem_singleton.mpr same), upd_entry]
  · rw [updEnt_junction, upd_elsewhere _ _ hi]

end Plant

/-- An outcome with which an entry ends: all but PASSED, which is given to one that is not served. -/
def EntryOutcome.ends : EntryOutcome → Bool
  | .served | .gapped | .forced | .cut => true
  | .none | .passed => false

theorem rotated_ends (x : Entry) {out : EntryOutcome} (h : out.ends = true) : Plant.rotated x (some out) =
    { x with status := .waiting, elapsed := none, outcome := out, retries := x.allowance, error := .none } := by
  cases out with
  | none => exact nomatch h
  | passed => exact nomatch h
  | _ => rfl

/-! ## A SIDE top turns to the next entry -/

section
variable {s : State} {j : JIdx} {n m : EntryNo} {rest : List EntryNo}

theorem State.Turning.plainTop? (h : s.Turning j n m rest) : s.plant.plainTop? j = some s.plant.pool[n] :=
  Plant.plainTop?_eq h.inStep h.level h.chain h.origin

/-- R59: after the end of the top the walk ends at once, with the ORDER of the next entry. -/
theorem State.Turning.orderTop (h : s.Turning j n m rest) (e : Env) (out : EntryOutcome) :
    (s.plant.endTop j out).orderTop e j = (s.plant.endTop j out).sendOrder j m := by
  obtain ⟨junction, -, entries, -⟩ := Plant.endTop_turnedBy out h.chain h.recurring
  have next : (s.plant.endTop j out).pool[m] = s.plant.pool[m] := entries m (by simpa using h.distinct.symm)
  refine Plant.orderTop_sends e _ j (rest := rest ++ [n]) ?_ ?_ fun _ => ?_
  · rw [junction]; rfl
  · rw [junction]; exact h.idle
  · rw [junction, next]; exact h.fresh

theorem State.Turning.voluntaryEnd (h : s.Turning j n m rest) (e : Env) (out : EntryOutcome) :
    s.plant.voluntaryEnd e j out = (s.plant.endTop j out).sendOrder j m := by
  obtain ⟨junction, -, entries, -⟩ := Plant.endTop_turnedBy out h.chain h.recurring
  have next : (s.plant.endTop j out).pool[m] = s.plant.pool[m] := entries m (by simpa using h.distinct.symm)
  have chain : (s.plant.endTop j out).jn[j].chain = m :: (rest ++ [n]) := by rw [junction]; rfl
  rw [Plant.voluntaryEnd, Plant.chainFuel, Plant.walk_stops e j 16 _ chain, h.orderTop]
  rw [next]
  exact h.servable.imp id fun called => by simp only [Plant.servable, called, beq_self_eq_true, Bool.true_or]

/-- R64: a force-off with the BAND entry next passes nothing. -/
theorem State.Turning.forceOff (h : s.Turning j n m rest) (band : s.plant.pool[m].role = .band) (e : Env) :
    s.plant.forceOff e j = ((s.plant.endTop j .forced).sendOrder j m).upd j fun J => { J with force := false } := by
  obtain ⟨junction, -, entries, -⟩ := Plant.endTop_turnedBy .forced h.chain h.recurring
  have next : (s.plant.endTop j .forced).pool[m] = s.plant.pool[m] := entries m (by simpa using h.distinct.symm)
  have chain : (s.plant.endTop j .forced).jn[j].chain = m :: (rest ++ [n]) := by rw [junction]; rfl
  rw [Plant.forceOff, Plant.chainFuel, Plant.passToBand_stops j 16 _ chain (by rw [next]; exact band), h.orderTop]

/-- What the end and the ORDER make of the junction. -/
theorem State.Turning.turned (h : s.Turning j n m rest) {out : EntryOutcome} (ends : out.ends = true) (force : Bool) :
    let t : State := { s with plant := ((s.plant.endTop j out).sendOrder j m).upd j fun J => { J with force := force } }
    s.Turned t j n m rest out ∧ t.plant.jn[j].force = force ∧ t.plant.jn[j].callReached = s.plant.jn[j].callReached ∧
      t.plant.req = s.plant.req ∧ t.plant.raised = s.plant.raised := by
  obtain ⟨junction, ended, entries, others, free, req, raised⟩ := Plant.endTop_turnedBy out h.chain h.recurring
  have next : (s.plant.endTop j out).pool[m] = s.plant.pool[m] := entries m (by simpa using h.distinct.symm)
  have made : (((s.plant.endTop j out).sendOrder j m).upd j fun J => { J with force := force }).jn[j] =
      { Junction.ordered { s.plant.jn[j].noted n s.plant.pool[n] (some out) with
          chain := m :: (rest ++ [n]), allowance := none, resuming := none } m s.plant.pool[m].stage with force := force } := by
    rw [Plant.upd_at, Plant.sendOrder_eq, Plant.upd_at, junction, next]
    rfl
  have gap : (s.plant.jn[j].noted n s.plant.pool[n] (some out)).det.gap =
      s.plant.jn[j].det.gap.set s.plant.pool[n].stage .stopped := if_pos h.serving
  refine ⟨⟨s.plantOnly _, ?_, ?_, entries, ?_, ?_, ?_, ?_, ?_, ?_, ?_, ?_, fun i hi => ?_, free, req⟩, ?_, ?_, req, raised⟩
  · rw [made]; rfl
  · exact ended.trans (rotated_ends _ ends)
  · rw [made]; rfl
  · rw [made]; exact Junction.ordered_lastTag _ m _
  · rw [made]; rfl
  · rw [made]; exact gap
  · rw [made]; rfl
  · rw [made]; exact h.inStep
  · rw [made]; exact h.level
  · rw [made]; rfl
  · rw [Plant.upd_elsewhere _ _ hi, Plant.sendOrder_eq, Plant.upd_elsewhere _ _ hi, others i hi]
  · rw [made]
  · rw [made]; rfl

theorem Junction.force_self {J : Junction} {force : Bool} (h : J.force = force) : { J with force := force } = J := by rw [← h]

/-- The same of an end without a force-off, under no force. -/
theorem State.Turning.turned_voluntary (h : s.Turning j n m rest) {out : EntryOutcome} (ends : out.ends = true)
    (calm : s.plant.jn[j].force = false) (e : Env) :
    let t : State := { s with plant := s.plant.voluntaryEnd e j out }
    s.Turned t j n m rest out ∧ t.plant.req = s.plant.req ∧ t.plant.raised = s.plant.raised := by
  obtain ⟨junction, -⟩ := Plant.endTop_turnedBy out h.chain h.recurring
  obtain ⟨turned, -, -, req, raised⟩ := h.turned ends false
  have same : ((s.plant.endTop j out).sendOrder j m).upd j (fun J => { J with force := false }) =
      (s.plant.endTop j out).sendOrder j m := by
    have made : ((s.plant.endTop j out).sendOrder j m).jn[j].force = false := by
      rw [Plant.sendOrder_eq, Plant.upd_at, junction]
      exact calm
    exact Plant.upd_id _ j _ (Junction.force_self made)
  rw [same, ← h.voluntaryEnd e out] at turned req raised
  exact ⟨turned, req, raised⟩

end

end Sys2Proof.Machine
end

section
/-! The statements on the events of the sequencer at level 0: O48, O50, O51, O52 and O53. -/

namespace Sys2Proof.Machine

open Sys2Proof

/-- An event of a junction that changes nothing. -/
theorem State.Settled.junctionEvent_same {s : State} (settled : s.Settled) {j : JIdx} (none : s.plant.NoCandidate j)
    {f : Env → Plant → Plant} (made : f s.env s.plant = s.plant) : s.junctionEvent j f = s :=
  settled.junctionEvent none made rfl rfl

/-! ## The ends of a SIDE top (R57, R58, R85, R128) -/

namespace Plant

/-- R58, R128: a SIDE top has been served for its split, or for its resume allowance. -/
theorem splitDone_iff {J : Junction} {x : Entry} (side : x.role = .side) (serving : x.status = .serving) :
    splitDone J x = true ↔
      match J.allowance with
      | some a => a ≤ x.elapsed.getD 0
      | none => 10 * x.minimum ≤ x.elapsed.getD 0 ∧ 10 * x.split ≤ x.elapsed.getD 0 := by
  cases allowance : J.allowance <;> simp [splitDone, side, serving, allowance, minDone_iff x serving]

/-- R58: a CALL SIDE top is to gap out. -/
theorem gapDone_iff {J : Junction} {x : Entry} (side : x.role = .side) (serving : x.status = .serving) :
    gapDone J x = true ↔ x.demand = .call ∧ 10 * x.minimum ≤ x.elapsed.getD 0 ∧ J.det.gap[x.stage] = .expired := by
  simp [gapDone, side, minDone_iff x serving, and_assoc]

end Plant

section
variable {s : State} {j : JIdx} {n m : EntryNo} {rest : List EntryNo}

/-- R58: an event that ends the top without a force. -/
theorem State.Turning.ends (h : s.Turning j n m rest) (calm : s.plant.jn[j].force = false) {out : EntryOutcome}
    (ends : out.ends = true) {f : Env → Plant → Plant} (made : f s.env s.plant = s.plant.voluntaryEnd s.env j out) :
    s.Turned (s.junctionEvent j f) j n m rest out := by
  obtain ⟨turned, req, raised⟩ := h.turned_voluntary ends calm s.env
  rw [h.settled.junctionEvent h.noRequest made raised req]
  exact turned

theorem State.Turning.sideEnd (_ : s.Turning j n m rest) (calm : s.plant.jn[j].force = false) (e : Env) (out : EntryOutcome) :
    s.plant.sideEnd e j out = s.plant.voluntaryEnd e j out := by
  simp only [Plant.sideEnd, calm, Bool.false_eq_true, if_false]

theorem State.Turning.splitDone_iff (h : s.Turning j n m rest) : Plant.splitDone s.plant.jn[j] s.plant.pool[n] = true ↔
    match s.plant.jn[j].allowance with
    | some a => a ≤ s.plant.pool[n].elapsed.getD 0
    | none => 10 * s.plant.pool[n].minimum ≤ s.plant.pool[n].elapsed.getD 0 ∧
        10 * s.plant.pool[n].split ≤ s.plant.pool[n].elapsed.getD 0 :=
  Plant.splitDone_iff h.side h.serving

theorem State.Turning.gapDone_iff (h : s.Turning j n m rest) : Plant.gapDone s.plant.jn[j] s.plant.pool[n] = true ↔
    s.plant.pool[n].demand = .call ∧ 10 * s.plant.pool[n].minimum ≤ s.plant.pool[n].elapsed.getD 0 ∧
      s.plant.jn[j].det.gap[s.plant.pool[n].stage] = .expired :=
  Plant.gapDone_iff h.side h.serving

theorem State.Turning.splitExpiry_ends (h : s.Turning j n m rest) (calm : s.plant.jn[j].force = false) (e : Env)
    (none : s.plant.jn[j].allowance = none) (done : Plant.splitDone s.plant.jn[j] s.plant.pool[n] = true) :
    s.plant.splitExpiry e j = s.plant.voluntaryEnd e j .served := by
  simp only [Plant.splitExpiry, h.plainTop?, none, Option.isNone_none, done, Bool.and_self, if_true, h.sideEnd calm]

/-- R57, R58: what the expiry of the minimum does without a force. -/
theorem State.Turning.minimumExpiry_calm (h : s.Turning j n m rest) (calm : s.plant.jn[j].force = false) (e : Env)
    (done : 10 * s.plant.pool[n].minimum ≤ s.plant.pool[n].elapsed.getD 0) : s.plant.minimumExpiry e j =
      if Plant.gapDone s.plant.jn[j] s.plant.pool[n] then s.plant.voluntaryEnd e j .gapped else s.plant.splitExpiry e j := by
  simp only [Plant.minimumExpiry, h.plainTop?, (Plant.minDone_iff _ h.serving).mpr done, if_true, h.side, calm,
    Bool.false_eq_true, if_false]

theorem State.Turning.minimumExpiry_early (h : s.Turning j n m rest) (e : Env)
    (early : s.plant.pool[n].elapsed.getD 0 < 10 * s.plant.pool[n].minimum) : s.plant.minimumExpiry e j = s.plant := by
  have waits : s.plant.pool[n].minDone = false := by
    rw [Bool.eq_false_iff]
    exact fun done => absurd ((Plant.minDone_iff _ h.serving).mp done) (by omega)
  simp only [Plant.minimumExpiry, h.plainTop?, waits, Bool.false_eq_true, if_false]

/-- R85: the gap timer of a stage is EXPIRED, and nothing else has changed. -/
def State.gapExpired (s : State) (j : JIdx) (st : Stage) : State := { s with
  plant := s.plant.updDet j fun D => { D with gap := D.gap.set st .expired } }

theorem State.gapExpired_jn (s : State) (j : JIdx) (st : Stage) : (s.gapExpired j st).plant.jn[j] =
    { s.plant.jn[j] with det := { s.plant.jn[j].det with gap := s.plant.jn[j].det.gap.set st .expired } } :=
  Plant.upd_at ..

theorem State.Turning.gapExpired (h : s.Turning j n m rest) (st : Stage) : (s.gapExpired j st).Turning j n m rest := by
  have junction := s.gapExpired_jn j st
  exact
    { h with
      chain := by rw [junction]; exact h.chain
      inStep := by rw [junction]; exact h.inStep
      level := by rw [junction]; exact h.level
      idle := by rw [junction]; exact h.idle
      fresh := by rw [junction]; exact h.fresh }

/-- The end of the top clears whatever its gap timer was. -/
theorem State.Turned.of_gapExpired {t : State} {out : EntryOutcome}
    (h : (s.gapExpired j s.plant.pool[n].stage).Turned t j n m rest out) : s.Turned t j n m rest out := by
  have junction := s.gapExpired_jn j s.plant.pool[n].stage
  obtain ⟨only, chain, ended, entries, order, tag, green, gap, served, state, level, stack, others, free, req⟩ := h
  rw [junction] at order tag gap served stack
  refine ⟨⟨only.now, only.tb, only.script, only.host, only.report, only.pending⟩, chain, ended, entries, order, tag, green, ?_,
    served, state, level, stack, fun i hi => ?_, free, req⟩
  · rw [gap]
    exact Vector.set_set ..
  · rw [others i hi]
    exact Plant.upd_elsewhere _ _ hi

/-- R85, R58: the gap timer of the top's stage expires, and the top gaps out. -/
theorem State.Turning.gapExpiry_ends (h : s.Turning j n m rest) (calm : s.plant.jn[j].force = false)
    (call : s.plant.pool[n].demand = .call) (done : 10 * s.plant.pool[n].minimum ≤ s.plant.pool[n].elapsed.getD 0) {d : Nat}
    (running : s.plant.jn[j].det.gap[s.plant.pool[n].stage] = .running d) (due : d ≤ s.now) :
    s.plant.gapExpiry s.env j s.plant.pool[n].stage =
      (s.gapExpired j s.plant.pool[n].stage).plant.voluntaryEnd s.env j .gapped := by
  have after := h.gapExpired s.plant.pool[n].stage
  have junction := s.gapExpired_jn j s.plant.pool[n].stage
  have gapped : Plant.gapDone (s.gapExpired j s.plant.pool[n].stage).plant.jn[j] s.plant.pool[n] = true := by
    refine after.gapDone_iff.mpr ⟨call, done, ?_⟩
    rw [junction]
    exact Vector.getElem_set_self _
  have top : (s.gapExpired j s.plant.pool[n].stage).plant.plainTop? j = some s.plant.pool[n] := after.plainTop?
  have force : (s.gapExpired j s.plant.pool[n].stage).plant.jn[j].force = false := by rw [junction]; exact calm
  simp only [Plant.gapExpiry, running, State.env, due, if_true]
  rw [show (s.plant.updDet j fun D => { D with gap := D.gap.set s.plant.pool[n].stage .expired }) =
    (s.gapExpired j s.plant.pool[n].stage).plant from rfl]
  simp only [top, gapped, and_self, if_true, after.sideEnd force]

end

/-- Settles O48. -/
theorem sideEntryEndsAndTurns : Obligations.SideEntryEndsAndTurns := by
  intro s j n m rest h calm
  refine ⟨fun plain past => ⟨fun done => ⟨_, rfl, ?_⟩, fun early => ⟨?_, ?_⟩, fun done ungapped => ⟨_, rfl, ?_⟩⟩,
    fun a resumed past => ⟨_, rfl, ?_⟩, fun call done => ⟨fun expired => ⟨_, rfl, ?_⟩, fun d running due => ⟨_, rfl, ?_⟩⟩⟩
  · have split := h.splitDone_iff.mpr (by rw [plain]; exact ⟨done, past⟩)
    exact h.ends calm rfl (h.splitExpiry_ends calm _ plain split)
  · have waits : Plant.splitDone s.plant.jn[j] s.plant.pool[n] = false := by
      rw [Bool.eq_false_iff, Ne, h.splitDone_iff, plain]
      exact fun both => absurd both.1 (by omega)
    refine congrArg Host.Outcome.next (h.settled.junctionEvent_same h.noRequest ?_)
    simp only [Plant.splitExpiry, h.plainTop?, waits, Bool.and_false, Bool.false_eq_true, if_false]
  · exact congrArg Host.Outcome.next (h.settled.junctionEvent_same h.noRequest (h.minimumExpiry_early _ early))
  · have split := h.splitDone_iff.mpr (by rw [plain]; exact ⟨done, past⟩)
    have noGap : ¬Plant.gapDone s.plant.jn[j] s.plant.pool[n] = true := fun gapped => by
      obtain ⟨call, -, expired⟩ := h.gapDone_iff.mp gapped
      rcases ungapped with other | running
      · exact other call
      · exact running expired
    refine h.ends calm rfl ?_
    rw [h.minimumExpiry_calm calm _ done, if_neg noGap, h.splitExpiry_ends calm _ plain split]
  · have split := h.splitDone_iff.mpr (by rw [resumed]; exact past)
    refine h.ends calm rfl ?_
    simp only [Plant.allowanceExpiry, h.plainTop?, resumed, Option.isSome_some, split, Bool.and_self, if_true, h.sideEnd calm]
  · refine h.ends calm rfl ?_
    rw [h.minimumExpiry_calm calm _ done, if_pos (h.gapDone_iff.mpr ⟨call, done, expired⟩)]
  · have after := h.gapExpired s.plant.pool[n].stage
    have force : (s.gapExpired j s.plant.pool[n].stage).plant.jn[j].force = false := by rw [s.gapExpired_jn]; exact calm
    obtain ⟨turned, req, raised⟩ := after.turned_voluntary (out := .gapped) rfl force s.env
    rw [stageOfNum?_succ]
    simp only
    rw [h.settled.junctionEvent h.noRequest (h.gapExpiry_ends calm call done running due) raised req]
    exact turned.of_gapExpired

end Sys2Proof.Machine
end

section
/-! The statements on the band points and the minimum wait: O50, O51, O52 and O53. -/

namespace Sys2Proof.Machine

open Sys2Proof

namespace Plant

/-! ## The BAND entry of a chain (R12) -/

/-- The first BAND entry of a chain. -/
theorem bandEntry?_eq {p : Plant} {j : JIdx} {ahead behind : List EntryNo} {b : EntryNo}
    (chain : p.jn[j].chain = ahead ++ b :: behind) (sides : ∀ i ∈ ahead, p.pool[i].role = .side) (band : p.pool[b].role = .band) :
    p.bandEntry? j = some p.pool[b] := by
  have skipped : ∀ x ∈ ahead.map fun n => p.pool[n], ¬(x.role == Role.band) = true := by
    intro x hx
    obtain ⟨i, hi, rfl⟩ := List.mem_map.mp hx
    rw [sides i hi]
    decide
  rw [bandEntry?, chainEntries, chain, List.map_append, List.find?_append, List.find?_eq_none.mpr skipped, Option.none_or,
    List.map_cons, List.find?_cons_of_pos (by rw [band]; rfl)]

/-- R12, R143: a band end point that has been reached is not due. -/
theorem bandEndPoint_done (e : Env) (p : Plant) (j : JIdx) (done : p.jn[j].endDone = true) : p.bandEndPoint e j = p := by
  simp only [bandEndPoint, bandEndDue, done, Bool.not_true, Bool.false_and, Bool.and_false, Bool.false_eq_true, if_false]

theorem bandCallPoint_due (e : Env) (p : Plant) (j : JIdx) (present : p.jn[j].state.present = true)
    (ahead : p.jn[j].callDone = false) (due : p.jn[j].span ≤ p.jn[j].p + 10 * p.jn[j].plan.a) :
    p.bandCallPoint e j = (p.bandEndPoint e j).reachCall e j := by
  simp only [bandCallPoint, present, ahead, Junction.callDue, due, decide_true, Bool.not_false, Bool.and_self, if_true]

/-- R12: the band end point of a BAND top is due. -/
theorem bandEndDue_top {p : Plant} {j : JIdx} {n : EntryNo} {rest : List EntryNo} (chain : p.jn[j].chain = n :: rest)
    (band : p.pool[n].role = .band) (ahead : p.jn[j].endDone = false) (unmoved : p.jn[j].moved = none)
    (reached : 10 * p.pool[n].split ≤ p.jn[j].p) (before : 10 * p.pool[n].split + 10 * p.jn[j].plan.a ≤ p.jn[j].span) :
    p.bandEndDue j = true := by
  have entry := bandEntry?_eq (ahead := []) chain (by simp) band
  simp only [bandEndDue, ahead, unmoved, bandEndPos, entry, Option.map_some, reached, before, decide_true, Bool.not_false,
    Bool.and_self]

theorem bandEndPoint_due (e : Env) (p : Plant) (j : JIdx) (present : p.jn[j].state.present = true) (due : p.bandEndDue j = true) :
    p.bandEndPoint e j = (p.upd j fun J => { J with endDone := true, endPassed := true }).takeBandEnd e j := by
  simp only [bandEndPoint, present, due, Bool.and_self, if_true]

/-- R61: whether a chain holds a servable SIDE entry. -/
theorem sideServable_iff (p : Plant) (j : JIdx) : p.sideServable j = true ↔
    ∃ i ∈ p.jn[j].chain, p.pool[i].role = .side ∧ p.servable j p.pool[i] = true := by
  simp only [sideServable, chainEntries, List.any_map, List.any_eq_true, Function.comp, Bool.and_eq_true, beq_iff_eq]

theorem servable_iff (p : Plant) (j : JIdx) (x : Entry) :
    p.servable j x = true ↔ x.demand = .recall ∨ p.jn[j].det.flags[x.stage] = true := by
  simp only [servable, Bool.or_eq_true, beq_iff_eq]

theorem servable_eq_false_iff (p : Plant) (j : JIdx) (x : Entry) :
    p.servable j x = false ↔ x.demand = .call ∧ p.jn[j].det.flags[x.stage] = false := by
  simp only [servable, Bool.or_eq_false_iff]
  cases x.demand <;> simp

/-- R59: the walk passes the SIDE entries that are not servable, and orders the first entry that is. -/
theorem walk_to_servable (e : Env) (j : JIdx) {q : Plant} {ns rest : List EntryNo} {m : EntryNo} (chain : q.jn[j].chain = ns ++ m :: rest)
    (distinct : ns.Nodup) (new : m ∉ ns) (bound : ns.length ≤ 16) (sides : q.Sides ns)
    (skips : ∀ i ∈ ns, q.servable j q.pool[i] = false) (serves : q.servable j q.pool[m] = true) (idle : q.jn[j].order = none)
    (fresh : q.jn[j].green ≠ some q.pool[m].stage) :
    walk e j chainFuel q = (rotations j (some .passed) ns.length q).upd j fun J => J.ordered m q.pool[m].stage := by
  have turned := rotations_turnedBy j (some .passed) q chain distinct
  let r := rotations j (some .passed) ns.length q
  have chainR : r.jn[j].chain = m :: (rest ++ ns) := turned.chain _ chain
  have entryM : r.pool[m] = q.pool[m] := turned.entries m new
  have frame : r.jn[j].order = q.jn[j].order ∧ r.jn[j].green = q.jn[j].green ∧ r.jn[j].det.flags = q.jn[j].det.flags := by
    rw [turned.frame]
    exact ⟨rfl, rfl, rfl⟩
  obtain ⟨order, green, flags⟩ := frame
  have servable : r.servable j r.pool[m] = true := by
    rw [servable_iff] at serves ⊢
    rw [flags, entryM]
    exact serves
  have fuel : chainFuel = ns.length + ((16 - ns.length) + 1) := by
    rw [chainFuel]
    omega
  rw [fuel, walk_sides e j _ q chain distinct sides skips, walk_stops _ _ _ _ chainR (.inr servable),
    orderTop_sends _ _ _ chainR (order.trans idle) fun _ => by rw [green, entryM]; exact fresh, entryM]

end Plant

/-- An event of a junction after which the attempts accept nothing. -/
theorem State.Settled.junctionEvent_still {s : State} (settled : s.Settled) {j : JIdx} {f : Env → Plant → Plant} {q : Plant}
    (made : f s.env s.plant = q) (still : q.attempts s.env j = q) (quiet : q.raised = s.plant.raised) :
    s.junctionEvent j f = { s with plant := q } :=
  settled.plantEvent (f := fun e p => (f e p).attempts e j) (by simp only [made]; exact still) quiet

/-! ## JOINING (R50) -/

/-- The band call point is reached. -/
def Junction.called (J : Junction) : Junction := { J with callDone := true, callReached := true }

theorem Plant.reachCall_joining (e : Env) (p : Plant) (j : JIdx) (joining : p.jn[j].state = .joining) :
    p.reachCall e j = (p.upd j Junction.called).joinTakeUp e j := by
  have state : (p.upd j Junction.called).jn[j].state = .joining := by rw [upd_at]; exact joining
  simp only [reachCall]
  rw [show (p.upd j fun J => { J with callDone := true, callReached := true }) = p.upd j Junction.called from rfl]
  simp only [state]

/-- A WAITING entry without an elapsed time is rotated as it is. -/
theorem rotated_none_self {x : Entry} (waiting : x.status = .waiting) (elapsed : x.elapsed = none) : Plant.rotated x none = x := by
  rw [Plant.rotated, ← waiting, ← elapsed]

/-- Settles O50. -/
theorem joiningTakesUpTheBand : Obligations.JoiningTakesUpTheBand := by
  intro s j ahead behind b settled joining idle chain bound distinct waiting band undone endDone due
  obtain ⟨aheadDistinct, -, -⟩ := List.nodup_append.mp distinct
  have present : s.plant.jn[j].state.present = true := by rw [joining]; rfl
  let p := s.plant.upd j Junction.called
  have junction : p.jn[j] = s.plant.jn[j].called := Plant.upd_at ..
  have sides : ∀ i ∈ ahead, p.pool[i].role = .side := fun i hi => (waiting i hi).1
  have chainP : p.jn[j].chain = ahead ++ b :: behind := by rw [junction]; exact chain
  have entry := Plant.bandEntry?_eq chainP sides band
  have turned := Plant.rotations_turnedBy j none p chainP aheadDistinct
  let q := Plant.rotations j none ahead.length p
  have chainQ : q.jn[j].chain = b :: (behind ++ ahead) := turned.chain _ chainP
  have pool : q.pool = s.plant.pool := by
    refine Vector.ext fun i hi => ?_
    by_cases mem : (⟨i, hi⟩ : EntryNo) ∈ ahead
    · exact (turned.ended ⟨i, hi⟩ mem).trans (rotated_none_self (waiting _ mem).2.1 (waiting _ mem).2.2)
    · exact turned.entries ⟨i, hi⟩ mem
  have frame : q.jn[j].order = none ∧ q.jn[j].state = .joining ∧ q.jn[j].callReached = true ∧ q.jn[j].line = s.plant.jn[j].line := by
    rw [turned.frame, junction]
    exact ⟨idle, joining, rfl, rfl⟩
  obtain ⟨order, state, called, line⟩ := frame
  have rotated : Plant.rotateToBand j Plant.chainFuel p = q := by
    have fuel : Plant.chainFuel = ahead.length + ((16 - ahead.length) + 1) := by
      simp only [List.length_append, List.length_cons] at bound
      simp only [Plant.chainFuel]
      omega
    rw [fuel, Plant.rotateToBand_sides j _ p chainP aheadDistinct sides]
    exact Plant.rotateToBand_stops j _ _ chainQ (by rw [pool]; exact band)
  have made : s.plant.bandCallPoint s.env j = q.upd j fun J => J.ordered b s.plant.pool[b].stage := by
    have none : p.jn[j].order = Option.none := by rw [junction]; exact idle
    rw [Plant.bandCallPoint_due _ _ _ present undone due, Plant.bandEndPoint_done _ _ _ endDone,
      Plant.reachCall_joining _ _ _ joining]
    show p.joinTakeUp s.env j = _
    simp only [Plant.joinTakeUp, none, entry, Option.isNone_none, Option.isSome_some, Bool.and_self, if_true, rotated]
    rw [Plant.orderTop_sends _ _ _ chainQ order fun h => absurd (state.symm.trans h) (by decide), pool]
  have final : (q.upd j fun J => J.ordered b s.plant.pool[b].stage).jn[j] = q.jn[j].ordered b s.plant.pool[b].stage :=
    Plant.upd_at ..
  have event := settled.junctionEvent_still (f := fun e p => p.bandCallPoint e j) made
    (Plant.attempts_of_not_inStep _ _ _ (by rw [final]; exact fun h => absurd (state.symm.trans h) (by decide))) turned.raised
  refine ⟨_, congrArg Host.Outcome.next event, s.plantOnly _, ?_, pool, ?_, ?_, ?_, ?_, fun i hi => ?_, turned.free⟩
  · rw [final]; exact chainQ
  · rw [final]; exact state
  · rw [final]; exact called
  · rw [final]; simp only [Junction.ordered, line]
  · rw [final]
    exact (turned.plain rfl).2.trans (by rw [junction]; rfl)
  · rw [Plant.upd_elsewhere _ _ hi, turned.others i hi, Plant.upd_elsewhere _ _ hi]

/-! ## The band end (R12, R59, R60) -/

section
variable {s : State} {j : JIdx} {n : EntryNo} {rest : List EntryNo}

/-- The band end point is marked. -/
def Junction.bandEnded (J : Junction) : Junction := { J with endDone := true, endPassed := true }

/-- Settles O51. -/
theorem bandEndMarksOrDwells : Obligations.BandEndMarksOrDwells := by
  intro s j n rest settled quiet inStep chain band host serving ahead unmoved reached before
  have present : s.plant.jn[j].state.present = true := by rw [inStep]; rfl
  have due := Plant.bandEndDue_top chain band ahead unmoved reached before
  let p := s.plant.upd j Junction.bandEnded
  have junction : p.jn[j] = s.plant.jn[j].bandEnded := Plant.upd_at ..
  have marked : s.plant.bandEndPoint s.env j = p.takeBandEnd s.env j := Plant.bandEndPoint_due _ _ _ present due
  have top (level : s.plant.jn[j].level = 0) : p.plainTop? j = some s.plant.pool[n] :=
    Plant.plainTop?_eq (by rw [junction]; exact inStep) (by rw [junction]; exact level) (rest := rest) (by rw [junction]; exact chain) host
  refine ⟨fun waits => ?_, fun level done noSide => ?_⟩
  · refine congrArg Host.Outcome.next (settled.junctionEvent quiet (f := fun e p => p.bandEndPoint e j) (q := p) (marked.trans ?_) rfl rfl)
    by_cases level : s.plant.jn[j].level = 0
    · have early : s.plant.pool[n].minDone = false := by
        rw [Bool.eq_false_iff, Ne, Plant.minDone_iff _ serving]
        omega
      simp only [Plant.takeBandEnd, top level, early, Bool.false_eq_true, false_and, and_false, if_false]
    · have above : 0 < p.jn[j].level := by rw [junction]; exact Nat.pos_of_ne_zero level
      simp only [Plant.takeBandEnd, Plant.plainTop?_level above]
  · have done := (Plant.minDone_iff _ serving).mpr done
    have passed : p.jn[j].endPassed = true := by rw [junction]; rfl
    have none : p.sideServable j = false := by
      rw [Bool.eq_false_iff, Ne, Plant.sideServable_iff]
      rintro ⟨i, hi, side, serves⟩
      rw [junction] at hi
      obtain ⟨call, flag⟩ := noSide i hi side
      have idle : p.servable j p.pool[i] = false := by
        rw [Plant.servable_eq_false_iff, junction]
        exact ⟨call, flag⟩
      exact absurd serves (by rw [idle]; decide)
    have taken : p.takeBandEnd s.env j = p.upd j fun J => { J with dwell := true } := by
      simp only [Plant.takeBandEnd, top level, band, done, passed, and_self, if_true, Plant.bandEnd, none, Bool.false_eq_true,
        if_false]
    refine congrArg Host.Outcome.next ((settled.junctionEvent quiet (f := fun e p => p.bandEndPoint e j) (marked.trans taken) rfl rfl).trans ?_)
    rw [Plant.upd_upd]
    rfl

/-- Settles O52. -/
theorem bandEndWalksToServableSide : Obligations.BandEndWalksToServableSide := by
  intro s j n m skipped behind settled quiet inStep level idle chain distinct bound band recurring host serving done passed side
    serves fresh ahead unmoved reached before
  have present : s.plant.jn[j].state.present = true := by rw [inStep]; rfl
  have due := Plant.bandEndDue_top chain band ahead unmoved reached before
  let p := s.plant.upd j Junction.bandEnded
  have junction : p.jn[j] = s.plant.jn[j].bandEnded := Plant.upd_at ..
  have chainP := (congrArg Junction.chain junction).trans chain
  obtain ⟨newN, distinct⟩ := List.nodup_cons.mp distinct
  obtain ⟨skippedDistinct, tailDistinct, apart⟩ := List.nodup_append.mp distinct
  have apartM (i : EntryNo) (hi : i ∈ skipped) : i ≠ m := apart i hi m (List.mem_cons_self ..)
  have notM : n ≠ m := fun h => newN (by simp [h])
  have top : p.plainTop? j = some s.plant.pool[n] :=
    Plant.plainTop?_eq (by rw [junction]; exact inStep) (by rw [junction]; exact level) chainP host
  have servableM : p.servable j p.pool[m] = true := by rw [Plant.servable_iff, junction]; exact serves
  have some' : p.sideServable j = true := by
    rw [Plant.sideServable_iff, chainP]
    exact ⟨m, by simp, side, servableM⟩
  obtain ⟨ended, endedN, entries, others, free, req, raised⟩ := Plant.endTop_turnedBy (p := p) .served chainP recurring
  let q := p.endTop j .served
  have chainQ : q.jn[j].chain = skipped ++ m :: (behind ++ [n]) := by
    rw [ended]
    simp only [List.append_assoc, List.cons_append]
  have flags : q.jn[j].det.flags = s.plant.jn[j].det.flags := by rw [ended, junction]; rfl
  have entry (i : EntryNo) (hi : i ≠ n) : q.pool[i] = s.plant.pool[i] := entries i (by simpa using hi)
  have notN (i : EntryNo) (hi : i ∈ skipped) : i ≠ n := fun h => newN (by simp [← h, hi])
  have sides : q.Sides skipped := fun i hi => by
    rw [entry i (notN i hi)]
    exact ⟨(passed i hi).1, (passed i hi).2.1⟩
  have skips : ∀ i ∈ skipped, q.servable j q.pool[i] = false := fun i hi => by
    rw [Plant.servable_eq_false_iff, flags, entry i (notN i hi)]
    obtain ⟨-, -, call, flag, -⟩ := passed i hi
    exact ⟨call, flag⟩
  have turned := Plant.rotations_turnedBy j (some .passed) q chainQ skippedDistinct
  let r := Plant.rotations j (some .passed) skipped.length q
  have chainR : r.jn[j].chain = m :: (behind ++ n :: skipped) := by
    rw [turned.chain _ chainQ]
    simp only [List.append_assoc, List.cons_append, List.nil_append]
  have frame : r.jn[j].line = s.plant.jn[j].line ∧ r.jn[j].endPassed = true := by
    rw [turned.frame, ended, junction]
    exact ⟨rfl, rfl⟩
  obtain ⟨line, endPassed⟩ := frame
  have entryM := entry m notM.symm
  have walked : Plant.walk s.env j Plant.chainFuel q = r.upd j fun J => J.ordered m s.plant.pool[m].stage := by
    rw [← entryM]
    refine Plant.walk_to_servable s.env j chainQ skippedDistinct (fun h => apartM m h rfl) ?_ sides skips ?_ ?_ ?_
    · simp only [List.length_append, List.length_cons] at bound
      omega
    · rw [Plant.servable_iff, flags, entryM]
      exact serves
    · rw [ended, junction]
      exact idle
    · rw [ended, junction, entryM]
      exact fresh
  have made : s.plant.bandEndPoint s.env j = r.upd j fun J => J.ordered m s.plant.pool[m].stage := by
    have minDone := (Plant.minDone_iff _ serving).mpr done
    have endPassedP : p.jn[j].endPassed = true := by rw [junction]; rfl
    rw [Plant.bandEndPoint_due _ _ _ present due]
    show p.takeBandEnd s.env j = _
    simp only [Plant.takeBandEnd, top, band, minDone, endPassedP, and_self, if_true, Plant.bandEnd, some']
    exact walked
  have final := r.upd_at j fun J => J.ordered m s.plant.pool[m].stage
  have reqR : r.req = s.plant.req := turned.req.trans req
  have entryN := (turned.entries n fun h => notN n h rfl).trans endedN
  refine ⟨_, congrArg Host.Outcome.next (settled.junctionEvent quiet (f := fun e p => p.bandEndPoint e j) made
    (turned.raised.trans raised) reqR), s.plantOnly _, ?_, ?_, ?_, ?_, fun i hi => ?_, fun i hi => ?_, ?_, ?_, ?_, fun i hi => ?_,
    turned.free.trans free, reqR⟩
  · rw [final]; exact chainR
  · exact (congrArg Entry.status entryN :)
  · exact (congrArg Entry.elapsed entryN :)
  · exact (congrArg Entry.outcome entryN :)
  · rw [Plant.upd_entry, turned.ended i hi, entry i (notN i hi)]
    rfl
  · rw [Plant.upd_entry, turned.entries i (List.not_mem_of_not_mem_cons hi), entry i (List.ne_of_not_mem_cons hi)]
  · rw [final]; exact endPassed
  · rw [final]; simp only [Junction.ordered, line]
  · rw [final]; rfl
  · rw [Plant.upd_elsewhere _ _ hi, turned.others i hi, others i hi, Plant.upd_elsewhere _ _ hi]

end

/-! ## The minimum wait (R123) -/

/-- Settles O53. -/
theorem minimumWaitEnds : Obligations.MinimumWaitEnds := by
  refine ⟨fun s j h n rest c settled quiet waits stack names counted chain idle fresh => ?_,
    fun s j h settled early present waits => ?_⟩
  · have counts : (s.plant.jn[j].stack.any fun c => c.entry == h && decide (10 * s.plant.pool[h].minimum ≤ c.saved)) = true := by
      rw [stack, List.any_cons, names, beq_self_eq_true, decide_eq_true counted]
      rfl
    let p := s.plant.upd j fun J =>
      { J with minWait := none, stack := J.stack.map fun c => if c.entry = h then { c with minReached := true } else c }
    have junction : p.jn[j] = { s.plant.jn[j] with minWait := none, stack := [{ c with minReached := true }] } := by
      rw [Plant.upd_at, stack]
      simp only [List.map_cons, List.map_nil, names, if_true]
    have made : s.plant.minimumWaitEnd s.env j = p.upd j fun J => J.ordered n s.plant.pool[n].stage := by
      simp only [Plant.minimumWaitEnd, waits, counts, if_true]
      exact Plant.orderTop_sends _ p _ (rest := rest) (by rw [junction]; exact chain) (by rw [junction]; exact idle)
        fun _ => by rw [junction]; exact fresh
    have final : (p.upd j fun J => J.ordered n s.plant.pool[n].stage).jn[j] =
        Junction.ordered { s.plant.jn[j] with minWait := none, stack := [{ c with minReached := true }] } n
          s.plant.pool[n].stage := by rw [Plant.upd_at, junction]
    refine ⟨_, congrArg Host.Outcome.next (settled.junctionEvent quiet (f := fun e p => p.minimumWaitEnd e j) made rfl rfl),
      s.plantOnly _, ?_, ?_, ?_, ?_, ?_, rfl, fun i hi => ?_, rfl, rfl⟩
    · rw [final]; rfl
    · rw [final]; rfl
    · rw [final]; rfl
    · rw [final]; rfl
    · rw [final]; rfl
    · rw [Plant.upd_elsewhere _ _ hi, Plant.upd_elsewhere _ _ hi]
  · have tick := (s.plant.tick_jn j).trans (Junction.tick_of_present _ s.plant.pool present)
    refine ⟨_, settled.advances early, ?_, ?_, ?_, ?_, ?_⟩
    · rw [tick]; exact waits
    · rw [tick]
    · rw [tick]
    · rw [tick]
    · rw [tick, waits]
      rfl

end Sys2Proof.Machine
end

section
/-! The statements on SET GUARD, CANCEL REQUEST and LOAD STEP: O35, O41 and O43. -/

namespace Sys2Proof.Machine

open Sys2Proof

/-! ## SET GUARD (R138) -/

/-- R138: settings applied to a guard whose probe is OFF. -/
theorem Junction.applySettings_off (J : Junction) (g : GuardSettings) (off : J.guard.probe = .off) :
    J.applySettings g = { J with guard := { J.guard with settings := g, staged := none } } := by
  have passive : J.guard.probe.active = false := by rw [off]; rfl
  have unchanged : ({ J with guard := { J.guard with settings := g, staged := none } } : Junction).probeOff =
      { J with guard := { J.guard with settings := g, staged := none } } := if_neg (by simp [passive])
  exact (congrArg (fun K => if J.guard.settings.enable && !g.enable then K else _) unchanged).trans (ite_self _)

/-- R138: SET GUARD with its five fields. -/
theorem State.setGuard_fields (s : State) (j : JIdx) (on : Bool) (th lv ti : Byte) :
    State.setGuard [byte j.val, if on then 1 else 0, th, lv, ti] s =
      if within 5 60 th.toNat && within 1 15 lv.toNat && within 5 30 ti.toNat then
        State.takeGuard j { enable := on, threshold := th.toNat, flushLevel := lv.toNat, flushTime := ti.toNat } s
      else refuse s .range := by
  simp only [State.setGuard, bodyNats_cons, bodyNats_nil, toNat_byte_val j (by decide), idx?_val, flag?_mark]

/-- Settles O35. -/
theorem guardIsSet : Obligations.GuardIsSet := by
  intro s tag j on th lv ti g takes
  have taken : exec .setGuard s = .next (s.take 0x50 State.setGuard) := rfl
  have good : (within 5 60 th.toNat && within 1 15 lv.toNat && within 5 30 ti.toNat) = true ↔
      5 ≤ th.toNat ∧ th.toNat ≤ 60 ∧ 1 ≤ lv.toNat ∧ lv.toNat ≤ 15 ∧ 5 ≤ ti.toNat ∧ ti.toNat ≤ 30 := by
    simp only [Bool.and_eq_true, within_eq_true, and_assoc]
  have handled := s.popIntake.setGuard_fields j on th lv ti
  refine ⟨fun inRange => ⟨fun coordinated => ?_, fun apart off => ?_⟩, fun out => ?_⟩
  · have staged := (handled.trans (if_pos (good.mpr inRange))).trans (if_pos coordinated)
    exact taken.trans (congrArg Host.Outcome.next (takes.take_of staged takes.quiet rfl))
  · have applied := (handled.trans (if_pos (good.mpr inRange))).trans (if_neg (Bool.eq_false_iff.mp apart))
    have plant : (s.plant.upd j fun J => J.applySettings g) =
        s.plant.upd j fun J => { J with guard := { J.guard with settings := g, staged := none } } :=
      s.plant.upd_congr j (Junction.applySettings_off _ g off)
    exact (taken.trans (congrArg Host.Outcome.next (takes.take_of applied takes.quiet rfl))).trans
      (congrArg (fun p => Host.Outcome.next { s with plant := p, host := s.host.replied tag 0x50 [1, 1] }) plant)
  · have refused := handled.trans (if_neg fun h => out (good.mp h))
    exact taken.trans (congrArg Host.Outcome.next (takes.take_same _ _ refused))

/-! ## CANCEL REQUEST and the wait limit (R108, R112, R113) -/

namespace Plant

/-- R92: a key no record carries. -/
theorem slotOf?_eq_none {p : Plant} {k : Key} (absent : ∀ i : SlotNo, ∀ r, p.req[i] = some r → r.key ≠ k) :
    p.slotOf? k = none := by
  refine List.find?_eq_none.mpr fun i _ found => ?_
  obtain ⟨r, hr, same⟩ := (Option.any_eq_true _ _).mp found
  exact absent i r hr (beq_iff_eq.mp same)

/-- R112: a PENDING record ends. -/
theorem endRequest_pending (e : Env) (p : Plant) (k : SlotNo) (out : ReqOutcome) {r : Request} (at' : p.req[k] = some r)
    (pending : r.state = .pending) : p.endRequest e k out =
      { p with
        req := p.req.set k none
        arrivals := p.arrivals.filter fun i => i != k
        raised := p.raised ++ [.ended k r.key r.level r.action false out] } := by
  have passive : r.isActive = false := by simp only [Request.isActive, pending]
  simp only [endRequest, at', passive, Bool.false_eq_true, if_false]
  simp only [raiseEnded, removeRequest, raise, setReq, passive]

/-- Without the record of a slot no request of the junction waits. -/
theorem NoCandidateBut.removed {p q : Plant} {j : JIdx} {k : SlotNo} (h : p.NoCandidateBut j k) (same : q.req = p.req.set k none) :
    q.NoCandidate j := by
  intro i r hr hj
  rw [same] at hr
  by_cases here : i = k
  · subst here
    simp at hr
  · have there : (k : Nat) ≠ i := fun hv => here (Fin.ext hv.symm)
    rw [Fin.getElem_fin, Vector.getElem_set_ne _ _ there] at hr
    exact h i here r hr hj

/-- R108, R112: a PENDING record ends, and nothing else waits at its junction. -/
theorem endAndAttempt_pending (e : Env) (p : Plant) (k : SlotNo) (out : ReqOutcome) {r : Request} (at' : p.req[k] = some r)
    (pending : r.state = .pending) (alone : p.NoCandidateBut r.junction k) : p.endAndAttempt e k out =
      { p with
        req := p.req.set k none
        arrivals := p.arrivals.filter fun i => i != k
        raised := p.raised ++ [.ended k r.key r.level r.action false out] } := by
  simp only [endAndAttempt, at', endRequest_pending e p k out at' pending]
  exact (alone.removed rfl).attempts e

end Plant

/-- R113: a source id within the range of its kind. -/
theorem State.sourceIdGood_of {src : SourceKind} {id : Nat} (good : src ≠ .guard → 1 ≤ id) (guard : src = .guard → id ≤ 11) :
    State.sourceIdGood src id = true := by
  cases src with
  | unit => simpa [State.sourceIdGood] using Nat.one_le_iff_ne_zero.mp (good (by decide))
  | central => simpa [State.sourceIdGood] using Nat.one_le_iff_ne_zero.mp (good (by decide))
  | guard => simpa [State.sourceIdGood] using guard rfl

/-- R108: the wait limit of a PENDING record has passed. -/
theorem Plant.waitExpiry_due (p : Plant) {e : Env} {k : SlotNo} {r : Request} (at' : p.req[k] = some r) (pending : r.state = .pending)
    (due : r.arrived + 10 * r.wait ≤ e.now) : p.waitExpiry e k = p.endAndAttempt e k .expired := by
  simp only [Plant.waitExpiry, at', pending, due, if_true]

/-- R108: the wait limit of a record has not passed. -/
theorem Plant.waitExpiry_early (p : Plant) {e : Env} {k : SlotNo} {r : Request} (at' : p.req[k] = some r)
    (early : e.now < r.arrived + 10 * r.wait) : p.waitExpiry e k = p := by
  have before : ¬r.arrived + 10 * r.wait ≤ e.now := by omega
  simp only [Plant.waitExpiry, at', before, if_false]
  split <;> rfl

/-- R113: CANCEL REQUEST with its three fields. -/
theorem State.cancelRequest_fields (s : State) (j : JIdx) {src : SourceKind} {id : Nat} (fits : id ≤ 255)
    (good : State.sourceIdGood src id = true) : State.cancelRequest [byte j.val, src.code, byte id] s =
      match s.plant.slotOf? { junction := j, source := src, id := id } with
      | none => refuse s .noSuch
      | some k =>
        (s.onPlant fun e p => p.endAndAttempt e k .cancelled,
          .done [byte k.val, reqStateCode ((s.plant.req[k]).any Request.isActive)]) := by
  have small : (byte id).toNat = id := toNat_byte_val ⟨id, by omega⟩ (by decide : 256 ≤ 256)
  simp only [State.cancelRequest, bodyNats_cons, bodyNats_nil, toNat_byte_val j (by decide), idx?_val, source?_code,
    small, good, Bool.not_true, Bool.false_eq_true, if_false] <;> rfl

/-- Settles O41: a record that is PENDING leaves the table alone, as nothing else waits at its junction to be accepted. -/
theorem pendingRequestEnds : Obligations.PendingRequestEnds := by
  refine ⟨fun s tag j src id takes fits good guard => ?_, fun s k r at' pending => ⟨fun due alone => ?_, fun settled early => ?_⟩⟩
  · have taken : exec .cancelRequest s = .next (s.take 0x41 State.cancelRequest) := rfl
    have fields := s.popIntake.cancelRequest_fields j fits (State.sourceIdGood_of good guard)
    refine ⟨fun absent => ?_, fun k r at' pending key only alone => ?_⟩
    · have noSuch : State.cancelRequest [byte j.val, src.code, byte id] s.popIntake = refuse s.popIntake .noSuch := by
        rw [fields, show s.popIntake.plant.slotOf? _ = none from Plant.slotOf?_eq_none absent]
      exact taken.trans (congrArg Host.Outcome.next (takes.take_same _ _ noSuch))
    · have found : s.plant.slotOf? { junction := j, source := src, id := id } = some k :=
        key ▸ s.plant.slotOf?_eq_of_unique k r at' only
      have here : r.junction = j := congrArg Key.junction key
      have passive : r.isActive = false := by simp only [Request.isActive, pending]
      have ended := s.plant.endAndAttempt_pending s.env k .cancelled at' pending (here ▸ alone)
      have handled : State.cancelRequest [byte j.val, src.code, byte id] s.popIntake =
          (s.popIntake.onPlant fun e p => p.endAndAttempt e k .cancelled, .done [byte k.val, 1]) := by
        rw [fields, show s.popIntake.plant.slotOf? _ = some k from found]
        simp only [show s.popIntake.plant.req[k] = some r from at', Option.any_some, passive]
        rfl
      obtain ⟨tb, -, script, plant, -, answered⟩ := takes.take_answered State.cancelRequest (by rw [handled]; rfl)
      rw [handled] at tb script plant answered
      refine ⟨_, taken, answered, ?_, tb, script⟩
      rw [plant]
      refine (congrArg (fun p : Plant => { p with raised := [] }) ended).trans ?_
      show ({ s.plant with
        req := s.plant.req.set k none, arrivals := s.plant.arrivals.filter fun i => i != k, raised := [] } : Plant) =
          { s.plant with
            req := s.plant.req.set k none, arrivals := s.plant.arrivals.filter fun i => i != k, raised := s.plant.raised }
      rw [takes.quiet]
  · have expired : s.plant.waitExpiry s.env k = _ :=
      (s.plant.waitExpiry_due at' pending due).trans (s.plant.endAndAttempt_pending s.env k .expired at' pending alone)
    exact congrArg (fun p => Host.Outcome.next ({ s with plant := p } : State).finish) expired
  · exact congrArg Host.Outcome.next (settled.plantEvent (s.plant.waitExpiry_early at' early) rfl)

end Sys2Proof.Machine
end

section
/-! The statement on LOAD STEP, O43. -/

namespace Sys2Proof.Machine

open Sys2Proof

namespace Block

/-- The three values of a block as a LOAD STEP body carries them (R200). -/
def triple : Block × Byte → Nat × Nat × Nat
  | (.cycle c, second) => (1, c, second.toNat)
  | (.direction d, second) => (2, d.code.toNat, second.toNat)
  | (.offset o, second) => (3, (BitVec.ofInt 8 o).toNat, second.toNat)
  | (.split st v, _) => (4, st.val + 1, v)
  | (.guard threshold time, _) => (5, threshold, time)

/-- R200: a block read back from its bytes. -/
theorem bodyNats_bytes {b : Block} (fits : b.fits) (second : Byte) :
    bodyNats (b.bytes second) = [(triple (b, second)).1, (triple (b, second)).2.1, (triple (b, second)).2.2] := by
  cases b with
  | cycle c => simp [bytes, triple, toNat_byte c (Nat.lt_succ_of_le fits)]
  | direction d => rfl
  | offset o => rfl
  | split st v => simp [bytes, triple, toNat_byte v (Nat.lt_succ_of_le fits)]
  | guard threshold time =>
    obtain ⟨hth, hti⟩ := fits
    simp [bytes, triple, toNat_byte threshold (Nat.lt_succ_of_le hth), toNat_byte time (Nat.lt_succ_of_le hti)]

/-- R200: the blocks of a body, if their number is the count carried. -/
theorem blockTriples_bytes : ∀ bs : List (Block × Byte), (∀ b ∈ bs, b.1.fits) →
    State.blockTriples bs.length (bodyNats (bs.flatMap fun b => b.1.bytes b.2)) = some (bs.map triple)
  | [], _ => rfl
  | b :: bs, fits => by
    have rest := blockTriples_bytes bs fun c hc => fits c (List.mem_cons_of_mem _ hc)
    have first := bodyNats_bytes (fits b List.mem_cons_self) b.2
    simp only [bodyNats] at first rest ⊢
    simp only [List.flatMap_cons, List.map_append, first, List.cons_append, List.nil_append, List.length_cons, State.blockTriples,
      rest, Option.map_some, List.map_cons]

/-- R149: the kind and the direction of a block are defined. -/
theorem blockDefined_triple (b : Block × Byte) : State.blockDefined (triple b).1 (triple b).2.1 = true := by
  obtain ⟨b, second⟩ := b
  cases b with
  | direction d => cases d <;> rfl
  | _ => rfl

/-- R149: which queue a block belongs to. -/
theorem masterKind_triple (b : Block × Byte) : State.masterKind (triple b).1 = b.1.isMaster := by
  obtain ⟨b, second⟩ := b
  cases b <;> rfl

/-- A signed value read back from its byte. -/
theorem signedByte_ofInt {o : Int} (low : -128 ≤ o) (high : o ≤ 127) : signedByte (BitVec.ofInt 8 o).toNat = o := by
  have same : byte (BitVec.ofInt 8 o).toNat = BitVec.ofInt 8 o := BitVec.eq_of_toNat_eq (toNat_byte _ (BitVec.isLt _))
  rw [signedByte, same, BitVec.toInt_ofInt]
  exact Int.bmod_eq_of_le (by omega) (by omega)

/-- R149: a block is read back if it is in range. -/
theorem block?_triple {b : Block × Byte} (fits : b.1.fits) :
    State.block? (triple b).1 (triple b).2.1 (triple b).2.2 = if b.1.inRange then some b.1 else none := by
  obtain ⟨b, second⟩ := b
  cases b with
  | cycle c => rfl
  | direction d => cases d <;> rfl
  | offset o =>
    obtain ⟨low, high⟩ := fits
    simp only [triple, State.block?, inRange, signedByte_ofInt low high, decide_eq_true_eq]
  | split st v =>
    simp only [triple, State.block?, inRange, stageOfNum?_succ, Option.map_some]
    rfl
  | guard threshold time => rfl

/-- R149: the blocks of a step are read back if all are in range. -/
theorem mapM_block?_triple : ∀ bs : List (Block × Byte), (∀ b ∈ bs, b.1.fits) →
    ((bs.map triple).mapM fun t => State.block? t.1 t.2.1 t.2.2) =
      if ∀ b ∈ bs, b.1.inRange = true then some (bs.map Prod.fst) else none
  | [], _ => by simp
  | b :: bs, fits => by
    have rest := mapM_block?_triple bs fun c hc => fits c (List.mem_cons_of_mem _ hc)
    rw [List.map_cons, List.mapM_cons, block?_triple (fits b List.mem_cons_self), rest]
    by_cases first : b.1.inRange = true
    · by_cases others : ∀ c ∈ bs, c.1.inRange = true
      · rw [if_pos first, if_pos others, if_pos (List.forall_mem_cons (p := fun c : Block × Byte => c.1.inRange = true).mpr ⟨first, others⟩)]
        rfl
      · simp only [first, if_true, if_neg others, Option.bind_eq_bind, Option.bind_some, Option.bind_none]
        exact (if_neg fun h => others fun c hc => h c (List.mem_cons_of_mem _ hc)).symm
    · simp only [first, Bool.false_eq_true, if_false, Option.bind_eq_bind, Option.bind_none]
      exact (if_neg fun h => first (h b List.mem_cons_self)).symm

end Block

/-- The store with a step behind the others of its queue. -/
def ScriptUnit.joined (u : ScriptUnit) (q : QueueNo) (hold : Nat) (bs : List (Block × Byte)) : ScriptUnit :=
  u.updQueue q fun items => items ++ [.step hold (bs.map Prod.fst)]

/-- The free slots once a step has joined. -/
theorem ScriptUnit.freeSlots_joined (u : ScriptUnit) (q : QueueNo) (hold : Nat) (bs : List (Block × Byte)) : (u.joined q hold bs).freeSlots = 255 - u.held := by
  rw [ScriptUnit.freeSlots, ScriptUnit.joined, ScriptUnit.held_updQueue_append]
  simp only [Config.scriptSlots]
  omega

namespace State

/-- R150: the queue of an ABSENT junction. -/
theorem queueAbsent_iff (p : Plant) (q : QueueNo) : queueAbsent p q = true ↔ ∃ j : JIdx, j.val = q.val ∧ p.jn[j].state = .absent := by
  by_cases h : q.val < 12
  · have place : idx? 12 q.val = some (⟨q.val, h⟩ : JIdx) := dif_pos h
    simp only [queueAbsent, place, beq_iff_eq]
    exact ⟨fun absent => ⟨⟨q.val, h⟩, rfl, absent⟩, fun ⟨j, hj, absent⟩ => by
      obtain rfl : j = ⟨q.val, h⟩ := Fin.ext hj
      exact absent⟩
  · have place : idx? 12 q.val = none := dif_neg h
    simp only [queueAbsent, place, Bool.false_eq_true, false_iff]
    rintro ⟨j, hj, -⟩
    omega

/-- What R149 and R150 ask of a step for a queue. -/
def StepGood (q : QueueNo) (hold : Nat) (bs : List (Block × Byte)) : Prop :=
  1 ≤ hold ∧ hold ≤ 63 ∧ ∀ b ∈ bs, (b.1.isMaster = true ↔ q = masterQueue) ∧ b.1.inRange = true

variable (s : State) (q : QueueNo) (hold : Nat) (bs : List (Block × Byte))

theorem masterKinds_iff : ((bs.map Block.triple).any fun t => masterKind t.1 != decide (q = masterQueue)) = true ↔
    ¬∀ b ∈ bs, (b.1.isMaster = true ↔ q = masterQueue) := by
  have kind (b : Block × Byte) : (b.1.isMaster != decide (q = masterQueue)) = true ↔ ¬(b.1.isMaster = true ↔ q = masterQueue) := by
    rw [bne_iff_ne, ne_eq, Bool.eq_iff_iff, decide_eq_true_iff]
  simp only [List.any_map, Function.comp_def, Block.masterKind_triple, List.any_eq_true, kind, not_forall, exists_prop]

/-- R149, R150: a hold or a block out of range, or of the other kind of queue. -/
theorem loadStep_bad (fits : ∀ b ∈ bs, b.1.fits) (bad : ¬StepGood q hold bs) :
    s.loadStep q hold (bs.map Block.triple) = refuse s .range := by
  by_cases held : within 1 63 hold = true
  · by_cases kinds : ∀ b ∈ bs, (b.1.isMaster = true ↔ q = masterQueue)
    · have out : ¬∀ b ∈ bs, b.1.inRange = true := fun all =>
        bad ⟨((within_eq_true _ _ _).mp held).1, ((within_eq_true _ _ _).mp held).2, fun b hb => ⟨kinds b hb, all b hb⟩⟩
      have none := (Block.mapM_block?_triple bs fits).trans (if_neg out)
      simp only [loadStep, held, Bool.not_true, Bool.false_eq_true, if_false, if_neg ((masterKinds_iff q bs).not.mpr (not_not.mpr kinds)),
        none]
    · simp only [loadStep, held, Bool.not_true, Bool.false_eq_true, if_false, if_pos ((masterKinds_iff q bs).mpr kinds)]
  · simp only [loadStep, Bool.not_eq_true _ ▸ held, Bool.not_false, if_true]

/-- R149, R150: a step with a hold and blocks in range. -/
theorem loadStep_good (fits : ∀ b ∈ bs, b.1.fits) (good : StepGood q hold bs) :
    s.loadStep q hold (bs.map Block.triple) =
      if queueAbsent s.plant q then refuse s .noSuch
      else if s.script.freeSlots = 0 then refuse s .noRoom
      else ({ s with script := s.script.joined q hold bs },
        .done ([byte q.val, byte (openSteps s.script.queues[q])] ++ be2 (s.script.joined q hold bs).freeSlots)) := by
  obtain ⟨low, high, blocks⟩ := good
  have held : within 1 63 hold = true := (within_eq_true _ _ _).mpr ⟨low, high⟩
  have kinds := (masterKinds_iff q bs).not.mpr (not_not.mpr fun b hb => (blocks b hb).1)
  have read := (Block.mapM_block?_triple bs fits).trans (if_pos fun b hb => (blocks b hb).2)
  simp only [loadStep, held, Bool.not_true, Bool.false_eq_true, if_false, if_neg kinds, read]
  rfl

/-- R150, R200: LOAD STEP with its blocks. -/
theorem loadStepBody_fields (small : hold ≤ 255) (few : bs.length ≤ 6) (fits : ∀ b ∈ bs, b.1.fits) :
    loadStepBody (byte q.val :: byte hold :: byte bs.length :: bs.flatMap fun b => b.1.bytes b.2) s =
      s.loadStep q hold (bs.map Block.triple) := by
  have defined : ((bs.map Block.triple).all fun t => blockDefined t.1 t.2.1) = true := by
    simp only [List.all_map, List.all_eq_true]
    exact fun b _ => Block.blockDefined_triple b
  simp only [loadStepBody, bodyNats_cons, toNat_byte_val q (by decide), toNat_byte hold (by omega), toNat_byte bs.length (by omega),
    idx?_val, Block.blockTriples_bytes bs fits, defined, if_true, if_neg (show ¬6 < bs.length by omega)]

/-- R187: the answer of a directive whose owner leaves the host port. -/
theorem Takes.answers {s : State} {tag code : Byte} {body : List Byte} (takes : s.Takes tag code body) {f : Handler} {u : State}
    {a : Answer} (handled : f body s.popIntake = (u, a)) (host : u.host = s.popIntake.host) :
    s.Answered (s.take code f) tag code a.body := by
  obtain ⟨-, -, -, -, -, answered⟩ := takes.take_answered f (by rw [handled]; exact host)
  rwa [handled] at answered

/-- R187: an answer behind those that wait. -/
theorem Takes.replied {s : State} {tag code : Byte} {body : List Byte} (takes : s.Takes tag code body) (u : State) (d : List Byte)
    (port : u.host = s.host.replied tag code (1 :: d)) : s.Answered u tag code (1 :: d) := by
  have answered := takes.answers (f := fun _ v => (v, .done d)) (u := s.popIntake) (a := .done d) rfl rfl
  rw [takes.take_same _ (.done d) rfl] at answered
  exact ⟨by rw [port]; exact answered.1, by rw [port]; exact answered.2, by rw [port]; exact answered.3⟩

/-- R149, R150: LOAD STEP of a hold and blocks, in its four outcomes. -/
theorem Takes.loadStep {s : State} {tag : Byte} {q : QueueNo} {hold : Nat} {bs : List (Block × Byte)}
    (takes : s.Takes tag 0x60 (byte q.val :: byte hold :: byte bs.length :: bs.flatMap fun b => b.1.bytes b.2)) (small : hold ≤ 255)
    (few : bs.length ≤ 6) (fits : ∀ b ∈ bs, b.1.fits) :
    (¬StepGood q hold bs → exec .loadStep s = .next { s with host := s.host.replied tag 0x60 [2, 2] }) ∧
    (StepGood q hold bs → (∃ j : JIdx, j.val = q.val ∧ s.plant.jn[j].state = .absent) →
      exec .loadStep s = .next { s with host := s.host.replied tag 0x60 [2, 4] }) ∧
    (StepGood q hold bs → (∀ j : JIdx, j.val = q.val → s.plant.jn[j].state ≠ .absent) → 256 ≤ s.script.held →
      exec .loadStep s = .next { s with host := s.host.replied tag 0x60 [2, 5] }) ∧
    (StepGood q hold bs → (∀ j : JIdx, j.val = q.val → s.plant.jn[j].state ≠ .absent) → s.script.held < 256 →
      exec .loadStep s = .next { s with
        script := s.script.joined q hold bs
        host := s.host.replied tag 0x60 ([1, byte q.val, byte (openSteps s.script.queues[q])] ++ be2 (255 - s.script.held)) }) := by
  have taken : exec .loadStep s = .next (s.take 0x60 State.loadStepBody) := rfl
  have body := s.popIntake.loadStepBody_fields q hold bs small few fits
  have read (good : StepGood q hold bs) := body.trans (s.popIntake.loadStep_good q hold bs fits good)
  have present (all : ∀ j : JIdx, j.val = q.val → s.plant.jn[j].state ≠ .absent) : ¬queueAbsent s.popIntake.plant q = true :=
    (queueAbsent_iff _ _).not.mpr fun ⟨j, hj, absent⟩ => all j hj absent
  have free : s.script.freeSlots = 256 - s.script.held := rfl
  refine ⟨fun bad => ?_, fun good absent => ?_, fun good all full => ?_, fun good all room => ?_⟩
  · exact taken.trans (congrArg Host.Outcome.next (takes.take_same _ _ (body.trans (s.popIntake.loadStep_bad q hold bs fits bad))))
  · exact taken.trans (congrArg Host.Outcome.next
      (takes.take_same _ _ ((read good).trans (if_pos ((queueAbsent_iff _ _).mpr absent)))))
  · have none : s.popIntake.script.freeSlots = 0 := free.trans (by omega)
    exact taken.trans (congrArg Host.Outcome.next
      (takes.take_same _ _ (((read good).trans (if_neg (present all))).trans (if_pos none))))
  · have some : ¬s.popIntake.script.freeSlots = 0 := fun h => by
      have := free.symm.trans h
      omega
    have handled := ((read good).trans (if_neg (present all))).trans (if_neg some)
    rw [taken, takes.take_of handled takes.quiet rfl, ScriptUnit.freeSlots_joined]
    rfl

end State

/-- Settles O43. -/
theorem stepIsLoaded : Obligations.StepIsLoaded := by
  refine ⟨fun s tag q hold takes small => ?_, fun s tag q hold bs takes small few fits => ?_⟩
  · have good (h : 1 ≤ hold ∧ hold ≤ 63) : State.StepGood q hold [] := ⟨h.1, h.2, fun b hb => nomatch hb⟩
    obtain ⟨bad, absent, -, joined⟩ := State.Takes.loadStep (bs := []) takes small (by simp) fun b hb => nomatch hb
    refine ⟨fun out => bad fun ⟨low, high, _⟩ => by omega, fun low high => absent (good ⟨low, high⟩), fun low high all room => ?_⟩
    have next := joined (good ⟨low, high⟩) all room
    exact ⟨_, next, rfl, rfl, rfl, rfl, takes.replied _ _ rfl⟩
  · exact State.Takes.loadStep takes small few fits

end Sys2Proof.Machine
end

section
/-! SUPPORT. The changes of a junction's state (R44, R47, R48, R178): what they keep, and the state they lead to. -/

namespace Sys2Proof.Machine

open Sys2Proof

/-- What a change of state keeps of a junction: all but its state, the frames on its line, and the marks that an entry into JOINING sets
anew. -/
def Junction.StateFrame (J K : Junction) : Prop :=
  K = { J with
    state := K.state
    line := { J.line with leaving := K.line.leaving, waiting := K.line.waiting }
    tally := K.tally
    endPassed := K.endPassed
    callReached := K.callReached
    force := K.force
    callDone := K.callDone
    endDone := K.endDone
    order := K.order
    green := K.green
    dwell := K.dwell
    det := { J.det with flags := K.det.flags } }

theorem Junction.StateFrame.trans {J K L : Junction} (h : J.StateFrame K) (g : K.StateFrame L) : J.StateFrame L := by
  unfold StateFrame at *
  rw [g, h]

/-- R175: a decided frame leaves or waits; the rest of the line stays. -/
theorem Line.decide_frame (l : Line) (f : LineFrame) :
    l.decide f = { l with leaving := (l.decide f).leaving, waiting := (l.decide f).waiting } := by
  unfold Line.decide
  split
  · split <;> rfl
  · rfl

namespace Plant

/-- A junction has changed its state, and nothing else of the plant has moved but notices. -/
structure Restated (p q : Plant) (j : JIdx) : Prop where
  frame : p.jn[j].StateFrame q.jn[j]
  others : p.OthersSame q j
  pool : q.pool = p.pool
  free : q.free = p.free
  req : q.req = p.req
  arrivals : q.arrivals = p.arrivals

section Fields

variable {p q : Plant} {j : JIdx} (h : p.Restated q j)

include h

theorem Restated.chain : q.jn[j].chain = p.jn[j].chain := (congrArg Junction.chain h.frame :)
theorem Restated.plan : q.jn[j].plan = p.jn[j].plan := (congrArg Junction.plan h.frame :)
theorem Restated.position : q.jn[j].p = p.jn[j].p := (congrArg Junction.p h.frame :)
theorem Restated.span : q.jn[j].span = p.jn[j].span := (congrArg Junction.span h.frame :)
theorem Restated.mode : q.jn[j].line.mode = p.jn[j].line.mode := (congrArg (fun J : Junction => J.line.mode) h.frame :)
theorem Restated.lineUp : q.jn[j].line.up = p.jn[j].line.up := (congrArg (fun J : Junction => J.line.up) h.frame :)

theorem Restated.chainEntries : q.chainEntries j = p.chainEntries j := by
  rw [Plant.chainEntries, h.chain, h.pool]
  rfl

/-- R48: the eligibility does not depend on the state. -/
theorem Restated.eligible (e : Env) : q.eligible e j = p.eligible e j := by
  simp only [Plant.eligible, planFeasible, h.chainEntries, h.plan, h.lineUp, h.mode]

theorem Restated.trans {r : Plant} (g : q.Restated r j) : p.Restated r j where
  frame := h.frame.trans g.frame
  others := h.others.trans g.others
  pool := g.pool.trans h.pool
  free := g.free.trans h.free
  req := g.req.trans h.req
  arrivals := g.arrivals.trans h.arrivals

end Fields

theorem Restated.refl (p : Plant) (j : JIdx) : p.Restated p j := ⟨rfl, fun _ _ => rfl, rfl, rfl, rfl, rfl⟩

/-- A change of a junction within its frame. -/
theorem upd_restated (p : Plant) (j : JIdx) {f : Junction → Junction} (frame : p.jn[j].StateFrame (f p.jn[j])) :
    p.Restated (p.upd j f) j where
  frame := by rw [upd_at]; exact frame
  others := othersSame_upd p j f
  pool := rfl
  free := rfl
  req := rfl
  arrivals := rfl

theorem raise_restated (p : Plant) (j : JIdx) (n : Notice) : p.Restated (p.raise n) j := ⟨rfl, fun _ _ => rfl, rfl, rfl, rfl, rfl⟩

/-- R44: a change of state is one of the junction and of the notices. -/
theorem setState_eq (p : Plant) (j : JIdx) (st : JState) :
    ∃ l, p.setState j st = { p.upd j fun J => { J with state := st } with raised := l } := by
  unfold setState
  split
  · rename_i same
    exact ⟨p.raised, (p.upd_id j (fun J => { J with state := st }) (by rw [← same]; rfl)).symm⟩
  · exact ⟨_, rfl⟩

/-- R44: the junctions once one has changed its state. -/
theorem setState_jn (p : Plant) (j : JIdx) (st : JState) : (p.setState j st).jn = (p.upd j fun J => { J with state := st }).jn := by
  obtain ⟨l, made⟩ := p.setState_eq j st
  rw [made]

theorem setState_at (p : Plant) (j : JIdx) (st : JState) : (p.setState j st).jn[j] = { p.jn[j] with state := st } :=
  (congrArg (fun v : Vector Junction 12 => v[j]) (p.setState_jn j st)).trans (p.upd_at j _)

theorem setState_state (p : Plant) (j : JIdx) (st : JState) : (p.setState j st).jn[j].state = st := by rw [setState_at]

theorem setState_restated (p : Plant) (j : JIdx) (st : JState) : p.Restated (p.setState j st) j := by
  unfold setState
  split
  · exact .refl p j
  · exact (p.upd_restated j (f := fun J => { J with state := st }) rfl).trans (raise_restated _ j _)

theorem sendRelease_at (p : Plant) (j : JIdx) :
    (p.sendRelease j).jn[j] = { p.jn[j] with line := p.jn[j].line.decide .release } := p.upd_at j _

theorem sendRelease_restated (p : Plant) (j : JIdx) : p.Restated (p.sendRelease j) j :=
  p.upd_restated j (f := fun J => { J with line := J.line.decide .release })
    (congrArg (fun l => ({ p.jn[j] with line := l } : Junction)) (Line.decide_frame _ _))

theorem enterSolo_at (p : Plant) (j : JIdx) (c : SoloCause) :
    (p.enterSolo j c).jn[j] = { p.jn[j] with line := p.jn[j].line.decide .release, state := .solo c } := by
  rw [enterSolo, setState_at, sendRelease_at]

theorem enterSolo_restated (p : Plant) (j : JIdx) (c : SoloCause) : p.Restated (p.enterSolo j c) j :=
  (p.sendRelease_restated j).trans (setState_restated _ j _)

theorem enterJoining_restated (p : Plant) (j : JIdx) : p.Restated (p.enterJoining j) j :=
  ((p.upd_restated j (f := fun J => joinMarks J (p.bandEndPos j)) rfl).trans (setState_restated _ j _)).trans
    (upd_restated _ j (f := fun J => { J with det := J.det.setFlags J.det.heldStages }) rfl)

theorem enterJoining_state (p : Plant) (j : JIdx) : (p.enterJoining j).jn[j].state = .joining := by
  rw [enterJoining, updDet, upd_at, setState_at]

/-- R47: the settling of a junction keeps its frame. -/
theorem settle_restated (e : Env) (p : Plant) (j : JIdx) : p.Restated (p.settle e j) j := by
  unfold settle
  split
  · split
    · exact setState_restated ..
    · split
      · exact enterSolo_restated ..
      · split
        · exact setState_restated ..
        · split
          · exact enterJoining_restated ..
          · exact setState_restated ..
  all_goals exact .refl p j

/-- R47: what is settled is LOCAL. -/
theorem settle_of_not_local (e : Env) (p : Plant) (j : JIdx) (apart : p.jn[j].state.isLocal = false) : p.settle e j = p := by
  unfold settle
  split
  · rename_i c is
    rw [is] at apart
    exact absurd apart Bool.noConfusion
  all_goals rfl

/-- R47: the state to which a LOCAL junction is settled. -/
def settledState (e : Env) (p : Plant) (j : JIdx) : JState :=
  if p.jn[j].line.mode = some .localManual then .loc .manual
  else if p.jn[j].line.mode = some .fault then .solo .unit
  else if e.coordinating = false then .loc .notRunning
  else if p.eligible e j then .joining
  else .loc .noBand

theorem settle_state (e : Env) (p : Plant) (j : JIdx) {c : LocalCause} (here : p.jn[j].state = .loc c) :
    (p.settle e j).jn[j].state = p.settledState e j := by
  simp only [settle, here, settledState]
  split
  · exact setState_state ..
  · split
    · rw [enterSolo_at]
    · split
      · exact setState_state ..
      · split
        · exact enterJoining_state ..
        · exact setState_state ..

/-- R47: without coordination a LOCAL junction whose unit is neither manual nor at fault is NOT_RUNNING, and nothing else of it changes. -/
theorem settle_stopped (e : Env) (p : Plant) (j : JIdx) {c : LocalCause} (here : p.jn[j].state = .loc c)
    (stopped : e.coordinating = false) (manual : p.jn[j].line.mode ≠ some .localManual) (fault : p.jn[j].line.mode ≠ some .fault) :
    (p.settle e j).jn[j] = { p.jn[j] with state := .loc .notRunning } := by
  simp only [settle, here, manual, fault, stopped, if_true, if_false]
  exact setState_at ..

/-- The plant of a junction that has entered LOCAL, before it is settled. -/
def localEntered (e : Env) (p : Plant) (j : JIdx) : Plant := (p.sendRelease j).setState j (.loc (p.localCause e j))

theorem enterLocal_eq (e : Env) (p : Plant) (j : JIdx) : p.enterLocal e j = (p.localEntered e j).settle e j := rfl

theorem localEntered_restated (e : Env) (p : Plant) (j : JIdx) : p.Restated (p.localEntered e j) j :=
  (p.sendRelease_restated j).trans (setState_restated _ j _)

theorem localEntered_state (e : Env) (p : Plant) (j : JIdx) :
    (p.localEntered e j).jn[j].state = .loc (p.localCause e j) := setState_state _ j _

theorem enterLocal_restated (e : Env) (p : Plant) (j : JIdx) : p.Restated (p.enterLocal e j) j :=
  (p.localEntered_restated e j).trans (settle_restated ..)

theorem Restated.settledState {p q : Plant} {j : JIdx} (h : p.Restated q j) (e : Env) : q.settledState e j = p.settledState e j := by
  simp only [Plant.settledState, h.mode, h.eligible e]

/-- R47: the state of a junction that has entered LOCAL and been settled. -/
theorem enterLocal_state (e : Env) (p : Plant) (j : JIdx) : (p.enterLocal e j).jn[j].state = p.settledState e j := by
  rw [enterLocal_eq, settle_state e _ j (p.localEntered_state e j), (p.localEntered_restated e j).settledState e]

/-- R47: the same without coordination, for a unit that is ready. -/
theorem enterLocal_stopped (e : Env) (p : Plant) (j : JIdx) (stopped : e.coordinating = false)
    (ready : p.jn[j].line.mode = some .coordReady) :
    (p.enterLocal e j).jn[j] = { p.jn[j] with line := p.jn[j].line.decide .release, state := .loc .notRunning } := by
  have mode := (p.localEntered_restated e j).mode.trans ready
  rw [enterLocal_eq, settle_stopped e _ j (p.localEntered_state e j) stopped (by rw [mode]; decide) (by rw [mode]; decide), localEntered,
    setState_at, sendRelease_at]

/-- R47: the state of a ready junction that has entered LOCAL. -/
theorem settledState_ready (e : Env) (p : Plant) (j : JIdx) (ready : p.jn[j].line.mode = some .coordReady) :
    p.settledState e j = if e.coordinating = false then .loc .notRunning else if p.eligible e j then .joining else .loc .noBand := by
  simp only [settledState, ready]
  rfl

end Plant

/-! ## A pass over the junctions -/

/-- A pass over a list keeps what each of its steps keeps. -/
theorem foldl_keeps {α β : Type} {S : α → α → Prop} (refl : ∀ p, S p p) (trans : ∀ {p q r}, S p q → S q r → S p r) {f : α → β → α} :
    ∀ (l : List β), (∀ q, ∀ i ∈ l, S q (f q i)) → ∀ p, S p (l.foldl f p)
  | [], _, p => refl p
  | i :: l, keeps, p => trans (keeps p i List.mem_cons_self)
      (foldl_keeps refl trans l (fun q k hk => keeps q k (List.mem_cons_of_mem i hk)) (f p i))

/-- A pass over a list meets one of its members once, and in between nothing that a relation speaks of changes. -/
theorem foldl_visits {α β : Type} {S : α → α → Prop} (refl : ∀ p, S p p) (trans : ∀ {p q r}, S p q → S q r → S p r) {f : α → β → α}
    {j : β} (away : ∀ q i, i ≠ j → S q (f q i)) : ∀ (l : List β), l.Nodup → j ∈ l → ∀ p,
      ∃ q, S p q ∧ S (f q j) (l.foldl f p)
  | [], _, mem, _ => nomatch mem
  | i :: l, distinct, mem, p => by
    obtain ⟨new, distinct⟩ := List.nodup_cons.mp distinct
    by_cases here : i = j
    · subst here
      exact ⟨p, refl p, foldl_keeps refl trans l (fun q k hk => away q k fun same => new (same ▸ hk)) _⟩
    · obtain ⟨q, before, after⟩ :=
        foldl_visits refl trans away l distinct ((List.mem_cons.mp mem).resolve_left fun same => here same.symm) (f p i)
      exact ⟨q, trans (away p i here) before, after⟩

/-! ## A pass over entries -/

namespace Plant

/-- One change made to each entry of a list. -/
def updEnts (p : Plant) (l : List EntryNo) (g : Entry → Entry) : Plant := l.foldl (fun p n => p.updEnt n g) p

/-- A pass over entries changes the pool only. -/
theorem updEnts_frame (l : List EntryNo) (g : Entry → Entry) (p : Plant) : p.updEnts l g = { p with pool := (p.updEnts l g).pool } := by
  refine foldl_keeps (S := fun p q : Plant => q = { p with pool := q.pool }) (fun _ => rfl) (fun {p q r} h k => ?_) l
    (fun _ _ _ => rfl) p
  rw [k, h]

/-- The entries once each of a list has been changed, a change that is not made twice. -/
theorem updEnts_pool {g : Entry → Entry} (once : ∀ x, g (g x) = g x) (i : EntryNo) : ∀ (l : List EntryNo) (p : Plant),
    (p.updEnts l g).pool[i] = if i ∈ l then g p.pool[i] else p.pool[i]
  | [], p => by rw [if_neg List.not_mem_nil]; rfl
  | n :: l, p => by
    have later := updEnts_pool once i l (p.updEnt n g)
    refine later.trans ?_
    by_cases here : i = n
    · subst here
      rw [updEnt_at, once, ite_self, if_pos List.mem_cons_self]
    · simp only [updEnt_elsewhere p g here, List.mem_cons, here, false_or]

end Plant

/-! ## The state of the corridor (R3) -/

namespace State

theorem setCorridorState_tb (s : State) (c : CorridorState) : (s.setCorridorState c).tb = { s.tb with corridor := c } := by
  unfold setCorridorState
  split
  · rename_i same
    rw [← same]
  · rfl

/-- R3: a change of corridor state leaves all but the corridor state and the notices. -/
theorem setCorridorState_frame (s : State) (c : CorridorState) : ∃ l, s.setCorridorState c =
    { s with tb := { s.tb with corridor := c }, plant := { s.plant with raised := l } } := by
  unfold setCorridorState
  split
  · rename_i same
    exact ⟨s.plant.raised, by rw [← same]⟩
  · exact ⟨_, rfl⟩

/-- R185: what a directive answered DONE leaves: what its owner made, its notices offered, and its answer. -/
theorem Takes.outcome {s : State} {tag code : Byte} {body : List Byte} (takes : s.Takes tag code body) {f : Handler} {u : State}
    {d : List Byte} (handled : f body s.popIntake = (u, .done d)) (host : u.host = s.popIntake.host) :
    s.Answered (s.take code f) tag code (1 :: d) ∧ (s.take code f).plant = { u.plant with raised := [] } ∧
      (s.take code f).tb = u.tb ∧ (s.take code f).script = u.script ∧ (s.take code f).now = u.now := by
  obtain ⟨tb, now, script, plant, -, answered⟩ := takes.take_answered f (by rw [handled]; exact host)
  rw [handled] at tb now script plant answered
  exact ⟨answered, plant, tb, script, now⟩

end State

end Sys2Proof.Machine
end

section
/-! The statements on CONFIGURE JUNCTION with the present flag clear, REPAIR and REJOIN, and RUN: O23, O33 and O24. -/

namespace Sys2Proof.Machine

open Sys2Proof

/-! ## A junction made absent (R3, R17, R46) -/

namespace State

/-- R17: CONFIGURE JUNCTION with the present flag clear. -/
theorem configureJunction_clear (s : State) (j : JIdx) (a b c d e f g h : Byte) :
    State.configureJunction [byte j.val, 0, a, b, c, d, e, f, g, h] s = s.makeAbsent j := by
  have clear : flag? (0 : Byte).toNat = some false := rfl
  simp only [State.configureJunction, bodyNats_cons, bodyNats_nil, toNat_byte_val j (by decide), idx?_val, clear]

/-- R17: a queue that holds end marks only. -/
theorem holdsStep_eq_false {q : List Item} (marks : ∀ i ∈ q, i = .endMark) : holdsStep q = false :=
  List.any_eq_false.mpr fun i hi => by rw [marks i hi]; decide

theorem anyPresent_iff (p : Plant) : p.anyPresent = true ↔ ∃ i : JIdx, p.jn[i].state ≠ .absent := by
  have present (st : JState) : st.present = true ↔ st ≠ .absent := by cases st <;> simp [JState.present]
  simp only [Plant.anyPresent, List.any_eq_true, List.mem_finRange, true_and, present]

/-- R46: the plant of a junction made absent, the notices apart. -/
def withoutJunction (p : Plant) (j : JIdx) (l : List Notice) : Plant :=
  { p.upd j fun J => { absentValues J with state := .absent } with raised := l }

theorem withoutJunction_at (p : Plant) (j : JIdx) (l : List Notice) :
    (withoutJunction p j l).jn[j] = { absentValues p.jn[j] with state := .absent } :=
  p.upd_at j fun J => { absentValues J with state := .absent }

/-- R46: the values and then the state of a junction made absent. -/
theorem setState_absentValues (p : Plant) (j : JIdx) (l : List Notice) :
    ∃ m, ({ p.upd j absentValues with raised := l } : Plant).setState j .absent = withoutJunction p j m := by
  obtain ⟨m, made⟩ := Plant.setState_eq { p.upd j absentValues with raised := l } j .absent
  exact ⟨m, made.trans (congrArg (fun q : Plant => { q with raised := m })
    (Plant.upd_upd { p with raised := l } j absentValues fun J => { J with state := .absent }))⟩

/-- R3: the junctions but one are ABSENT. -/
theorem noOther_iff (p q : Plant) (j : JIdx) (others : p.OthersSame q j) (gone : q.jn[j].state = .absent) :
    (!q.anyPresent) = true ↔ ∀ i : JIdx, i ≠ j → p.jn[i].state = .absent := by
  rw [Bool.not_eq_true', Bool.eq_false_iff, ne_eq, anyPresent_iff, not_exists]
  refine forall_congr' fun i => ?_
  by_cases here : i = j
  · subst here
    exact ⟨fun _ h => absurd rfl h, fun _ => not_not.mpr gone⟩
  · simp only [ne_eq, here, not_false_eq_true, forall_const, not_not, others i here]

/-- R3, R17, R46: a present junction with an empty chain and no step in its queue is made absent. -/
theorem makeAbsent_done (s : State) (j : JIdx) (present : s.plant.jn[j].state ≠ .absent) (stopped : s.tb.corridor ≠ .coordinating)
    (empty : s.plant.jn[j].chain = []) (marks : holdsStep s.script.queues[junctionQueue j] = false) :
    ∃ l, s.makeAbsent j = ({ s with
      tb := { s.tb with corridor := if ∀ i : JIdx, i ≠ j → s.plant.jn[i].state = .absent then .dark else s.tb.corridor }
      plant := withoutJunction s.plant j l }, .done []) := by
  have used : ¬(s.plant.jn[j].chain ≠ [] ∨ holdsStep s.script.queues[junctionQueue j] = true) := by
    rw [empty, marks]
    decide
  have last := noOther_iff s.plant
    { s.plant.upd j absentValues with
      jn := (s.plant.upd j absentValues).jn.set j { (s.plant.upd j absentValues).jn[j] with state := .absent } } j
    (fun i hi => (Plant.upd_elsewhere (s.plant.upd j absentValues) (fun J => { J with state := .absent }) hi).trans
      (Plant.upd_elsewhere s.plant absentValues hi))
    (congrArg Junction.state (Plant.upd_at (s.plant.upd j absentValues) j fun J => { J with state := .absent }))
  unfold makeAbsent
  rw [if_neg present, if_neg stopped, if_neg used]
  simp only []
  by_cases alone : ∀ i : JIdx, i ≠ j → s.plant.jn[i].state = .absent
  · rw [if_pos (last.mpr alone), if_pos alone]
    obtain ⟨l, dark⟩ := setCorridorState_frame { s with plant := s.plant.upd j absentValues } .dark
    obtain ⟨m, made⟩ := setState_absentValues s.plant j l
    rw [dark]
    exact ⟨m, congrArg (fun q => (({ s with tb := { s.tb with corridor := .dark }, plant := q } : State), Answer.done [])) made⟩
  · rw [if_neg (last.not.mpr alone), if_neg alone]
    obtain ⟨m, made⟩ := setState_absentValues s.plant j s.plant.raised
    exact ⟨m, congrArg (fun q => (({ s with plant := q } : State), Answer.done [])) made⟩

end State

/-- Settles O23. -/
theorem junctionIsMadeAbsent : Obligations.JunctionIsMadeAbsent := by
  intro s tag j a b c d e f g h takes
  have taken : exec .configureJunction s = .next (s.take 0x02 State.configureJunction) := rfl
  have body := s.popIntake.configureJunction_clear j a b c d e f g h
  refine ⟨fun absent => ?_, fun present running => ?_, fun present stopped held => ?_, fun present stopped empty marks => ?_⟩
  · exact taken.trans (congrArg Host.Outcome.next (takes.take_same _ (.done []) (body.trans (if_pos absent))))
  · exact taken.trans (congrArg Host.Outcome.next
      (takes.take_same _ (.refused .state) (body.trans ((if_neg present).trans (if_pos running)))))
  · exact taken.trans (congrArg Host.Outcome.next
      (takes.take_same _ (.refused .inUse) (body.trans ((if_neg present).trans ((if_neg stopped).trans (if_pos (.inl held)))))))
  · obtain ⟨l, made⟩ := s.popIntake.makeAbsent_done j present stopped empty (State.holdsStep_eq_false marks)
    have handled := body.trans made
    obtain ⟨answered, plant, tb, -, -⟩ := takes.outcome handled rfl
    have junction := (congrArg (fun p : Plant => p.jn[j]) plant).trans (State.withoutJunction_at s.plant j [])
    refine ⟨_, taken, answered, ?_, ?_, ?_, ?_, ?_, congrArg Timebase.corridor tb⟩
    · exact (congrArg Junction.state junction :)
    · exact (congrArg Junction.plan junction :)
    · exact (congrArg (fun J : Junction => J.det.map) junction :)
    · exact (congrArg (fun J : Junction => J.guard.settings) junction :)
    · rw [plant]
      exact Plant.othersSame_upd s.plant j fun J => { State.absentValues J with state := .absent }

/-! ## REPAIR and REJOIN (R72, R73) -/

namespace State

/-- R200: a directive of one junction index. -/
theorem onJunction_field (f : JIdx → State → State × Answer) (s : State) (j : JIdx) : onJunction f [byte j.val] s = f j s := by
  simp only [onJunction, bodyNats_cons, bodyNats_nil, toNat_byte_val j (by decide), idx?_val]

/-- R72, step 1, for one entry record. -/
def repaired (x : Entry) : Entry := if x.status = .stalled then { x with status := .waiting, retries := x.allowance } else x

theorem repaired_once (x : Entry) : repaired (repaired x) = repaired x := by
  unfold repaired
  split
  · rfl
  · rfl

theorem repairEntry_eq (p : Plant) (n : EntryNo) : repairEntry p n = p.updEnt n repaired := by
  unfold repairEntry
  split
  · rename_i stalled
    exact congrArg (fun x => { p with pool := p.pool.set n x }) (if_pos stalled).symm
  · rename_i sound
    refine (congrArg (fun v => { p with pool := v }) (Vector.set_getElem_self (hi := n.isLt)).symm).trans ?_
    exact congrArg (fun x => { p with pool := p.pool.set n x }) (if_neg sound).symm

/-- R72, step 1. -/
theorem foldl_repairEntry (p : Plant) (l : List EntryNo) : l.foldl repairEntry p = p.updEnts l repaired :=
  congrArg (fun f => l.foldl f p) (funext fun p => funext fun n => repairEntry_eq p n)

/-- R47: a ready junction taken back is NOT_RUNNING, or joins or waits for its band. -/
theorem takenBack_state (e : Env) (p : Plant) (j : JIdx) (ready : p.jn[j].line.mode = some .coordReady) :
    (e.coordinating = false → (p.enterLocal e j).jn[j].state = .loc .notRunning) ∧
      (e.coordinating = true → (p.enterLocal e j).jn[j].state = .joining ∨ (p.enterLocal e j).jn[j].state = .loc .noBand) := by
  rw [Plant.enterLocal_state, Plant.settledState_ready e p j ready]
  refine ⟨fun stopped => if_pos stopped, fun running => ?_⟩
  rw [if_neg (by rw [running]; decide)]
  split
  · exact .inl rfl
  · exact .inr rfl

end State

/-- Settles O33. -/
theorem soloIsTakenBack : Obligations.SoloIsTakenBack := by
  have coordinating (s : State) (h : s.tb.corridor = .coordinating) : s.env.coordinating = true := beq_iff_eq.mpr h
  have notCoordinating (s : State) (h : s.tb.corridor ≠ .coordinating) : s.env.coordinating = false := beq_eq_false_iff_ne.mpr h
  refine ⟨fun s tag j takes => ?_, fun s tag j takes => ?_⟩
  · have taken : exec .repairJunction s = .next (s.take 0x20 State.repairJunction) := rfl
    have body : State.repairJunction [byte j.val] s.popIntake = _ := State.onJunction_field _ s.popIntake j
    refine ⟨fun other => taken.trans (congrArg Host.Outcome.next (takes.take_same _ (.refused .state) (body.trans (if_neg other)))),
      fun stall ready => ?_⟩
    obtain ⟨answered, plant, tb, -, -⟩ := takes.outcome (body.trans (if_pos stall)) rfl
    let p : Plant := { s.plant with pool := (s.plant.updEnts s.plant.jn[j].chain State.repaired).pool }
    have repaired : s.plant.jn[j].chain.foldl State.repairEntry s.plant = p :=
      (State.foldl_repairEntry ..).trans (Plant.updEnts_frame ..)
    have restated := p.enterLocal_restated s.env j
    have made : (s.take 0x20 State.repairJunction).plant = { p.enterLocal s.env j with raised := [] } :=
      plant.trans (congrArg (fun q : Plant => { q.enterLocal s.env j with raised := [] }) repaired)
    have entry (n : EntryNo) : (s.take 0x20 State.repairJunction).plant.pool[n] =
        if n ∈ s.plant.jn[j].chain then State.repaired s.plant.pool[n] else s.plant.pool[n] := by
      rw [made]
      exact (congrArg (fun v : Vector Entry 128 => v[n]) restated.pool).trans (Plant.updEnts_pool State.repaired_once n _ _)
    obtain ⟨halted, running⟩ := State.takenBack_state s.env p j ready
    refine ⟨_, taken, answered, fun n mem stalled => ?_, fun n other => ?_, fun h => ?_, fun h => ?_, ?_, ?_, tb⟩
    · rw [entry, if_pos mem, State.repaired, if_pos stalled]
    · rw [entry]
      split
      · exact if_neg (other.resolve_left (not_not.mpr ‹_›))
      · rfl
    · rw [made]
      exact halted (notCoordinating s h)
    · rw [made]
      exact running (coordinating s h)
    · rw [made]
      exact restated.chain
    · rw [made]
      exact restated.others
  · have taken : exec .rejoinJunction s = .next (s.take 0x21 State.rejoinJunction) := rfl
    have body : State.rejoinJunction [byte j.val] s.popIntake = _ := State.onJunction_field _ s.popIntake j
    have feasible : s.plant.planFeasible j s.tb.c = true ↔
        feasibilitySum (s.plant.chainEntries j) s.plant.jn[j].plan.a * s.plant.jn[j].plan.mult ≤ s.tb.c := decide_eq_true_iff
    refine ⟨fun other => taken.trans (congrArg Host.Outcome.next (takes.take_same _ (.refused .state) (body.trans (if_neg other)))),
      fun plan unfit => ?_, fun plan fits ready => ?_⟩
    · exact taken.trans (congrArg Host.Outcome.next (takes.take_same _ (.refused .infeasible)
        (body.trans ((if_pos plan).trans (if_neg (feasible.not.mpr (by omega)))))))
    · obtain ⟨answered, plant, tb, -, -⟩ := takes.outcome (body.trans ((if_pos plan).trans (if_pos (feasible.mpr fits)))) rfl
      have restated := s.plant.enterLocal_restated s.env j
      have made : (s.take 0x21 State.rejoinJunction).plant = { s.plant.enterLocal s.env j with raised := [] } := plant
      obtain ⟨halted, running⟩ := State.takenBack_state s.env s.plant j ready
      refine ⟨_, taken, answered, fun h => ?_, fun h => ?_, ?_, ?_, ?_, tb⟩ <;> rw [made]
      · exact halted (notCoordinating s h)
      · exact running (coordinating s h)
      · exact restated.pool
      · exact restated.chain
      · exact restated.others

end Sys2Proof.Machine
end

section
/-! The statement on RUN, O24. -/

namespace Sys2Proof.Machine

open Sys2Proof

/-! ## RUN (R4, R49) -/

namespace Plant

/-- Two plants agree on a junction and on the entry pool. -/
def AgreesAt (j : JIdx) (p q : Plant) : Prop := q.jn[j] = p.jn[j] ∧ q.pool = p.pool

theorem AgreesAt.refl {j : JIdx} (p : Plant) : AgreesAt j p p := ⟨rfl, rfl⟩

theorem AgreesAt.trans {j : JIdx} {p q r : Plant} (h : AgreesAt j p q) (g : AgreesAt j q r) : AgreesAt j p r :=
  ⟨g.1.trans h.1, g.2.trans h.2⟩

theorem AgreesAt.chainEntries {j : JIdx} {p q : Plant} (h : AgreesAt j p q) : q.chainEntries j = p.chainEntries j := by
  rw [Plant.chainEntries, h.1, h.2]
  rfl

theorem AgreesAt.settledState {j : JIdx} {p q : Plant} (h : AgreesAt j p q) (e : Env) : q.settledState e j = p.settledState e j := by
  simp only [Plant.settledState, eligible, planFeasible, h.chainEntries, h.1] <;> rfl

theorem Restated.away {i j : JIdx} {p q : Plant} (h : p.Restated q i) (apart : i ≠ j) : AgreesAt j p q :=
  ⟨h.others j fun same => apart same.symm, h.pool⟩

/-- R48: what makes a ready junction eligible. -/
theorem eligible_iff (e : Env) (p : Plant) (j : JIdx) (ready : p.jn[j].line.mode = some .coordReady) : p.eligible e j = true ↔
    ((p.chainEntries j).filter fun x => x.role == .band).length = 1 ∧
      feasibilitySum (p.chainEntries j) p.jn[j].plan.a * p.jn[j].plan.mult ≤ e.c ∧ p.jn[j].line.up = true := by
  simp only [eligible, ready, beq_self_eq_true, Bool.and_true, Bool.and_eq_true, beq_iff_eq, planFeasible, feasible, decide_eq_true_eq,
    List.countP_eq_length_filter, and_assoc]

/-- R49: a junction that is NOT_RUNNING is settled. -/
def settleIfStopped (e : Env) (p : Plant) (j : JIdx) : Plant := if p.jn[j].state = .loc .notRunning then p.settle e j else p

theorem settleIfStopped_restated (e : Env) (p : Plant) (j : JIdx) : p.Restated (p.settleIfStopped e j) j := by
  unfold settleIfStopped
  split
  · exact settle_restated ..
  · exact .refl p j

/-- R49: the plant once every junction that was NOT_RUNNING has been settled. -/
def settledAll (e : Env) (p : Plant) : Plant := (List.finRange 12).foldl (settleIfStopped e) p

/-- R49: what the settling of all junctions keeps. -/
theorem settledAll_frame (e : Env) (p : Plant) : (p.settledAll e).pool = p.pool ∧ (p.settledAll e).req = p.req :=
  foldl_keeps (S := fun p q : Plant => q.pool = p.pool ∧ q.req = p.req) (fun _ => ⟨rfl, rfl⟩)
    (fun h g => ⟨g.1.trans h.1, g.2.trans h.2⟩) _ (fun q i _ => ⟨(settleIfStopped_restated e q i).pool, (settleIfStopped_restated e q i).req⟩) p

/-- R49: a junction once all have been settled is as its own settling leaves it. -/
theorem settledAll_at (e : Env) (p : Plant) (j : JIdx) : ∃ q, AgreesAt j p q ∧ (p.settledAll e).jn[j] = (q.settleIfStopped e j).jn[j] := by
  obtain ⟨q, before, after⟩ := foldl_visits (S := AgreesAt j) AgreesAt.refl AgreesAt.trans
    (fun q i apart => (settleIfStopped_restated e q i).away apart) (List.finRange 12) (List.nodup_finRange 12) (List.mem_finRange j) p
  exact ⟨q, before, after.1⟩

end Plant

theorem State.settleNotRunning_eq (s : State) : s.settleNotRunning = { s with plant := s.plant.settledAll s.env } := rfl

/-- R4, R49: RUN in READY: the junctions that were NOT_RUNNING have been settled. -/
theorem State.run_ready (s : State) (ready : s.tb.corridor = .ready) : ∃ r : Plant,
    State.run [] s = ({ s with tb := { s.tb with corridor := .coordinating }, plant := r }, .done []) ∧
      r.pool = s.plant.pool ∧ r.req = s.plant.req ∧
      ∀ j, ∃ q, Plant.AgreesAt j s.plant q ∧ r.jn[j] = (q.settleIfStopped { s.env with coordinating := true } j).jn[j] := by
  obtain ⟨l, changed⟩ := s.setCorridorState_frame .coordinating
  have settled : State.run [] s = ((s.setCorridorState .coordinating).settleNotRunning, .done []) := if_pos ready
  rw [changed, settleNotRunning_eq] at settled
  have frame := Plant.settledAll_frame { s.env with coordinating := true } { s.plant with raised := l }
  exact ⟨_, settled, frame.1, frame.2, fun j => Plant.settledAll_at _ { s.plant with raised := l } j⟩

/-- Settles O24. -/
theorem runStartsCoordination : Obligations.RunStartsCoordination := by
  intro s tag takes
  have taken : exec .run s = .next (s.take 0x03 State.run) := rfl
  refine ⟨fun ready => ?_, fun other => taken.trans (congrArg Host.Outcome.next (takes.take_same _ (.refused .state) (if_neg other)))⟩
  obtain ⟨r, handled, pool, req, visits⟩ := s.popIntake.run_ready ready
  obtain ⟨answered, plant, tb, script, -⟩ := takes.outcome handled rfl
  let e : Env := { s.env with coordinating := true }
  refine ⟨_, taken, answered, tb, script, (congrArg Plant.pool plant).trans pool, (congrArg Plant.req plant).trans req, fun j => ?_⟩
  obtain ⟨q, agrees, here⟩ : ∃ q, Plant.AgreesAt j s.plant q ∧ r.jn[j] = (q.settleIfStopped e j).jn[j] := visits j
  have junction : (s.take 0x03 State.run).plant.jn[j] = (q.settleIfStopped e j).jn[j] :=
    (congrArg (fun p : Plant => p.jn[j]) plant).trans here
  have same : q.jn[j] = s.plant.jn[j] := agrees.1
  refine ⟨fun other => ?_, fun stopped => ?_⟩
  · rw [junction, Plant.settleIfStopped, if_neg (by rw [same]; exact other), same]
  · have settled : (s.take 0x03 State.run).plant.jn[j] = (q.settle e j).jn[j] := by
      rw [junction, Plant.settleIfStopped, if_pos (by rw [same]; exact stopped)]
    have restated := q.settle_restated e j
    have state : (q.settle e j).jn[j].state = s.plant.settledState e j :=
      (q.settle_state e j (by rw [same]; exact stopped)).trans (agrees.settledState e)
    rw [settled]
    refine ⟨restated.position.trans (congrArg Junction.p same), restated.span.trans (congrArg Junction.span same),
      restated.plan.trans (congrArg Junction.plan same), restated.chain.trans (congrArg Junction.chain same), fun mode => ?_,
      fun mode => ?_, fun mode => ?_, fun mode => ?_⟩ <;> rw [state]
    · exact if_pos mode
    · simp only [Plant.settledState, mode]
      rfl
    · have joins : s.plant.eligible e j = false := by
        rw [Plant.eligible, mode]
        exact Bool.and_false _
      simp only [Plant.settledState, mode, joins]
      rfl
    · rw [Plant.settledState_ready e s.plant j mode]
      simp only [Plant.eligible_iff e s.plant j mode]
      rfl

end Sys2Proof.Machine
end

section
/-! SUPPORT. Leaving coordination (R71, R116, R134) and the stall (R54): what is left of the junction, of its entries and of the request
table. -/

namespace Sys2Proof.Machine

open Sys2Proof

namespace Plant

/-! ## The end of requests without their contexts (R116) -/

/-- R116: the record of a slot ends ABANDONED. -/
theorem abandonSlot_eq (p : Plant) (k : SlotNo) : ∃ a l, p.abandonSlot k = { p with req := p.req.set k none, arrivals := a, raised := l } := by
  unfold abandonSlot
  split
  · rename_i empty
    refine ⟨p.arrivals, p.raised, (congrArg (fun v => { p with req := v }) ?_ : p = _)⟩
    refine (Vector.set_getElem_self (hi := k.isLt)).symm.trans ?_
    exact congrArg (fun r => p.req.set k.val r k.isLt) empty
  · exact ⟨_, _, rfl⟩

/-- What the end of requests without their contexts keeps. -/
def RequestsOnly (p q : Plant) : Prop := q = { p with req := q.req, arrivals := q.arrivals, raised := q.raised }

theorem RequestsOnly.refl (p : Plant) : RequestsOnly p p := rfl

theorem RequestsOnly.trans {p q r : Plant} (h : RequestsOnly p q) (g : RequestsOnly q r) : RequestsOnly p r := by
  unfold RequestsOnly at *
  rw [g, h]

theorem RequestsOnly.junction {p q : Plant} (h : RequestsOnly p q) (j : JIdx) : q.jn[j] = p.jn[j] := by
  rw [show q = { p with req := q.req, arrivals := q.arrivals, raised := q.raised } from h]

theorem RequestsOnly.entries {p q : Plant} (h : RequestsOnly p q) : q.pool = p.pool := by
  rw [show q = { p with req := q.req, arrivals := q.arrivals, raised := q.raised } from h]

theorem abandonSlot_requestsOnly (p : Plant) (k : SlotNo) : RequestsOnly p (p.abandonSlot k) := by
  obtain ⟨a, l, made⟩ := p.abandonSlot_eq k
  rw [made]
  rfl

theorem abandonSlot_at (p : Plant) (k : SlotNo) : (p.abandonSlot k).req[k] = none := by
  obtain ⟨a, l, made⟩ := p.abandonSlot_eq k
  rw [made]
  exact Vector.getElem_set_self ..

theorem abandonSlot_elsewhere (p : Plant) {i k : SlotNo} (apart : i ≠ k) : (p.abandonSlot i).req[k] = p.req[k] := by
  obtain ⟨a, l, made⟩ := p.abandonSlot_eq i
  rw [made]
  exact Vector.getElem_set_ne i.isLt k.isLt fun same => apart (Fin.ext same)

/-- R116: the request of a slot ends if it is one of the junction. -/
def abandonIfOf (j : JIdx) (p : Plant) (k : SlotNo) : Plant :=
  if (p.req[k]).any fun r => r.junction == j then p.abandonSlot k else p

theorem abandonJunction_eq (p : Plant) (j : JIdx) : p.abandonJunction j = (List.finRange 24).foldl (abandonIfOf j) p := rfl

theorem abandonIfOf_requestsOnly (j : JIdx) (p : Plant) (k : SlotNo) : RequestsOnly p (abandonIfOf j p k) := by
  unfold abandonIfOf
  split
  · exact p.abandonSlot_requestsOnly k
  · rfl

theorem abandonJunction_requestsOnly (p : Plant) (j : JIdx) : RequestsOnly p (p.abandonJunction j) :=
  foldl_keeps RequestsOnly.refl RequestsOnly.trans _ (fun q k _ => abandonIfOf_requestsOnly j q k) p

/-- R116: the table once the requests of a junction have ended. -/
theorem abandonJunction_req (p : Plant) (j : JIdx) (k : SlotNo) :
    (p.abandonJunction j).req[k] = (p.req[k]).filter fun r => r.junction != j := by
  have away (q : Plant) (i : SlotNo) (apart : i ≠ k) : (abandonIfOf j q i).req[k] = q.req[k] := by
    unfold abandonIfOf
    split
    · exact q.abandonSlot_elsewhere apart
    · rfl
  obtain ⟨q, before, after⟩ := foldl_visits (S := fun p q : Plant => q.req[k] = p.req[k]) (fun _ => rfl) (fun h g => g.trans h) away
    (List.finRange 24) (List.nodup_finRange 24) (List.mem_finRange k) p
  have here : (abandonIfOf j q k).req[k] = (q.req[k]).filter fun r => r.junction != j := by
    unfold abandonIfOf
    cases found : q.req[k] with
    | none => simp only [Option.any_none, Bool.false_eq_true, if_false, found, Option.filter_none]
    | some r =>
      by_cases of : r.junction = j
      · rw [if_pos (by simpa using of), abandonSlot_at]
        simp [Option.filter, of]
      · rw [if_neg (by simpa using of), found]
        simp [Option.filter, of]
  exact after.trans (here.trans (by rw [before]))

/-- R5, R116: every request ends. -/
theorem abandonAll_req (p : Plant) (k : SlotNo) : ((List.finRange 24).foldl abandonSlot p).req[k] = none := by
  obtain ⟨q, -, after⟩ := foldl_visits (S := fun p q : Plant => q.req[k] = p.req[k]) (fun _ => rfl) (fun h g => g.trans h)
    (fun q i apart => q.abandonSlot_elsewhere apart) (List.finRange 24) (List.nodup_finRange 24) (List.mem_finRange k) p
  exact after.trans (q.abandonSlot_at k)

theorem abandonAll_requestsOnly (p : Plant) : RequestsOnly p ((List.finRange 24).foldl abandonSlot p) :=
  foldl_keeps RequestsOnly.refl RequestsOnly.trans _ (fun q k _ => q.abandonSlot_requestsOnly k) p

/-! ## The service entries (R134) -/

/-- What the retiring of service entries leaves of a junction: all but its chain, its gap timers and its order. -/
def RetireFrame (J K : Junction) : Prop :=
  K = { J with chain := K.chain, order := K.order, det := { J.det with gap := K.det.gap } }

theorem RetireFrame.trans {J K L : Junction} (h : RetireFrame J K) (g : RetireFrame K L) : RetireFrame J L := by
  unfold RetireFrame at *
  rw [g, h]

theorem stopGapOf_eq (p : Plant) (j : JIdx) (n : EntryNo) : p.stopGapOf j n = p.upd j fun J => J.gapStopped p.pool[n] :=
  p.stopGapOf_noted j n none

theorem release_retireFrame (p : Plant) (j : JIdx) (n : EntryNo) : RetireFrame p.jn[j] (p.release j n).jn[j] := by
  unfold release
  split
  · refine (congrArg (RetireFrame p.jn[j]) (upd_at p j fun J => { J with
      chain := J.chain.erase n
      order := J.order.map fun o => if o.entry = n then { o with live := false } else o })).mpr ?_
    rfl
  · rfl

theorem release_req (p : Plant) (j : JIdx) (n : EntryNo) : (p.release j n).req = p.req := by
  unfold release
  split <;> rfl

theorem retire_retireFrame (p : Plant) (j : JIdx) (n : EntryNo) : RetireFrame p.jn[j] (p.retire j n none).jn[j] := by
  have first : RetireFrame p.jn[j] (p.stopGapOf j n).jn[j] := by
    rw [stopGapOf_eq, upd_at]
    rfl
  exact first.trans (release_retireFrame _ j n)

theorem retire_req (p : Plant) (j : JIdx) (n : EntryNo) : (p.retire j n none).req = p.req :=
  (release_req (p.stopGapOf j n) j n).trans (by rw [stopGapOf_eq]; rfl)

theorem retireServices_retireFrame (p : Plant) (j : JIdx) : RetireFrame p.jn[j] (p.retireServices j).jn[j] :=
  foldl_keeps (S := fun p q : Plant => RetireFrame p.jn[j] q.jn[j]) (fun _ => rfl) RetireFrame.trans _
    (fun q n _ => q.retire_retireFrame j n) p

theorem retireServices_req (p : Plant) (j : JIdx) : (p.retireServices j).req = p.req :=
  foldl_keeps (S := fun p q : Plant => q.req = p.req) (fun _ => rfl) (fun h g => g.trans h) _ (fun q n _ => q.retire_req j n) p

/-- R134: a chain of host entries holds no service entry. -/
theorem retireServices_hosts (p : Plant) (j : JIdx) (hosts : ∀ i ∈ p.jn[j].chain, p.pool[i].origin = .host) :
    p.retireServices j = p := by
  have none : (p.jn[j].chain.filter fun n => p.pool[n].origin == .service) = [] :=
    List.filter_eq_nil_iff.mpr fun i hi => by rw [hosts i hi]; decide
  rw [retireServices, none]
  rfl

/-! ## Leaving coordination (R71) -/

/-- R71 for one entry record. -/
def unserved (x : Entry) : Entry := if x.status = .serving then { x with status := .waiting, elapsed := none } else x

theorem unserved_once (x : Entry) : unserved (unserved x) = unserved x := by
  unfold unserved
  split <;> rfl

theorem unserve_eq (p : Plant) (n : EntryNo) : unserve p n = p.updEnt n unserved := by
  unfold unserve
  split
  · rename_i serving
    exact congrArg (fun x => { p with pool := p.pool.set n x }) (if_pos serving).symm
  · rename_i idle
    refine (congrArg (fun v => { p with pool := v }) (Vector.set_getElem_self (hi := n.isLt)).symm).trans ?_
    exact congrArg (fun x => { p with pool := p.pool.set n x }) (if_neg idle).symm

theorem foldl_unserve (p : Plant) (l : List EntryNo) : l.foldl unserve p = p.updEnts l unserved :=
  congrArg (fun f => l.foldl f p) (funext fun p => funext fun n => unserve_eq p n)

/-- R71: leaving coordination, with its entry records as one change. -/
theorem leave_eq (p : Plant) (j : JIdx) : p.leave j =
    (({ p.retireServices j with pool := ((p.retireServices j).updEnts (p.retireServices j).jn[j].chain unserved).pool } : Plant).upd j
      leaveValues).abandonJunction j := by
  rw [leave]
  simp only []
  rw [foldl_unserve, ← updEnts_frame]

/-- R71: the values of a junction that has left coordination; of its chain the service entries are gone. -/
theorem leave_at (p : Plant) (j : JIdx) : (p.leave j).jn[j] = leaveValues { p.jn[j] with chain := (p.retireServices j).jn[j].chain } := by
  have left : (p.leave j).jn[j] = leaveValues (p.retireServices j).jn[j] := by
    rw [leave_eq]
    exact ((abandonJunction_requestsOnly _ j).junction j).trans (upd_at _ j _)
  rw [left, retireServices_retireFrame p j]
  rfl

/-- R116: no request of the junction is left. -/
theorem leave_req (p : Plant) (j : JIdx) (k : SlotNo) : (p.leave j).req[k] = (p.req[k]).filter fun r => r.junction != j := by
  rw [leave_eq, abandonJunction_req]
  exact congrArg (fun v : Vector (Option Request) 24 => (v[k]).filter fun r => r.junction != j) (retireServices_req p j)

theorem leave_noRequest (p : Plant) (j : JIdx) (k : SlotNo) (r : Request) (found : (p.leave j).req[k] = some r) : r.junction ≠ j := by
  rw [leave_req] at found
  simpa using (Option.filter_eq_some_iff.mp found).2

theorem leave_othersSame (p : Plant) (j : JIdx) : p.OthersSame (p.leave j) j := (p.leave_moves j).othersSame

/-- R71: the chain of a junction that has left coordination with host entries only. -/
theorem leave_chain_hosts (p : Plant) (j : JIdx) (hosts : ∀ i ∈ p.jn[j].chain, p.pool[i].origin = .host) :
    (p.leave j).jn[j].chain = p.jn[j].chain := by
  rw [leave_at, retireServices_hosts p j hosts]
  rfl

/-- R71: the entries of a junction that has left coordination with host entries only. -/
theorem leave_pool_hosts (p : Plant) (j : JIdx) (hosts : ∀ i ∈ p.jn[j].chain, p.pool[i].origin = .host) (n : EntryNo) :
    (p.leave j).pool[n] = if n ∈ p.jn[j].chain then unserved p.pool[n] else p.pool[n] := by
  rw [leave_eq, (abandonJunction_requestsOnly _ j).entries, retireServices_hosts p j hosts]
  exact updEnts_pool unserved_once n _ _

/-! ## The stall (R54) -/

/-- R54: a junction whose chain holds host entries only is stalled at its top. -/
theorem stall_hosts (p : Plant) (j : JIdx) (err : EntryError) {n : EntryNo} {rest : List EntryNo} (chain : p.jn[j].chain = n :: rest)
    (hosts : ∀ i ∈ p.jn[j].chain, p.pool[i].origin = .host) :
    p.stall j err = ((p.leave j).updEnt n fun x => { x with status := .stalled, error := err }).enterSolo j .stall := by
  have top : (p.leave j).top? j = some n := by rw [top?, leave_chain_hosts p j hosts, chain]; rfl
  simp only [stall, top]

end Plant

end Sys2Proof.Machine
end

section
/-! The statement on STOP, O25. -/

namespace Sys2Proof.Machine

open Sys2Proof

namespace State

/-! ## One junction (R49, R71) -/

theorem stopJunction_othersSame (e : Env) (p : Plant) (j : JIdx) : p.OthersSame (stopJunction e p j) j := by
  have left : p.OthersSame ((p.leave j).enterLocal e j) j := (p.leave_othersSame j).trans (Plant.enterLocal_restated ..).others
  unfold stopJunction
  split
  · exact left
  · exact left
  · exact (p.settle_restated e j).others
  · exact fun _ _ => rfl

/-- R116: STOP makes no request. -/
theorem stopJunction_req (e : Env) (p : Plant) (j : JIdx) (k : SlotNo) (free : p.req[k] = none) :
    (stopJunction e p j).req[k] = none := by
  have left : ((p.leave j).enterLocal e j).req[k] = none := by
    rw [(Plant.enterLocal_restated ..).req, Plant.leave_req, free]
    rfl
  unfold stopJunction
  split
  · exact left
  · exact left
  · rw [(p.settle_restated e j).req, free]
  · exact free

/-- R49, R71: a coordinated junction leaves and becomes LOCAL. -/
theorem stopJunction_coordinated (e : Env) (p : Plant) (j : JIdx) (coordinated : p.jn[j].state.coordinated = true) :
    stopJunction e p j = (p.leave j).enterLocal e j := by
  unfold stopJunction
  split
  · rfl
  · rfl
  · rename_i is
    rw [is] at coordinated
    exact absurd coordinated Bool.noConfusion
  · rename_i notJoining notInStep _
    cases is : p.jn[j].state with
    | joining => exact absurd is notJoining
    | inStep => exact absurd is notInStep
    | absent => rw [is] at coordinated; exact absurd coordinated Bool.noConfusion
    | loc c => rw [is] at coordinated; exact absurd coordinated Bool.noConfusion
    | solo c => rw [is] at coordinated; exact absurd coordinated Bool.noConfusion

/-- R49, R71: without coordination, and with its unit ready, it is NOT_RUNNING. -/
theorem stopJunction_left (e : Env) (p : Plant) (j : JIdx) (coordinated : p.jn[j].state.coordinated = true)
    (halted : e.coordinating = false) (ready : p.jn[j].line.mode = some .coordReady) :
    ∃ l c, (stopJunction e p j).jn[j] =
      { Plant.leaveValues { p.jn[j] with chain := c } with line := l, state := .loc .notRunning } := by
  have left := p.leave_at j
  rw [stopJunction_coordinated e p j coordinated]
  generalize p.leave j = q at left ⊢
  have mode : q.jn[j].line.mode = some .coordReady := by
    rw [left]
    exact ready
  exact ⟨_, _, (Plant.enterLocal_stopped e q j halted mode).trans (by rw [left])⟩

theorem stopJunction_solo (e : Env) (p : Plant) (j : JIdx) {c : SoloCause} (solo : p.jn[j].state = .solo c) :
    stopJunction e p j = p := by
  simp only [stopJunction, solo]

theorem stopJunction_noBand (e : Env) (p : Plant) (j : JIdx) (noBand : p.jn[j].state = .loc .noBand) :
    stopJunction e p j = p.settle e j := by
  simp only [stopJunction, noBand]

/-! ## The plant and the running group (R5, R165) -/

/-- R49, R71: what STOP does to all junctions. -/
def stoppedAll (e : Env) (p : Plant) : Plant := (List.finRange 12).foldl (stopJunction e) p

theorem stoppedAll_req (e : Env) (p : Plant) (k : SlotNo) (free : p.req[k] = none) : (stoppedAll e p).req[k] = none :=
  foldl_keeps (S := fun p q : Plant => p.req[k] = none → q.req[k] = none) (fun _ h => h) (fun h g f => g (h f)) _
    (fun q i _ => stopJunction_req e q i k) p free

theorem stoppedAll_at (e : Env) (p : Plant) (j : JIdx) : ∃ q : Plant, q.jn[j] = p.jn[j] ∧
    (stoppedAll e p).jn[j] = (stopJunction e q j).jn[j] :=
  foldl_visits (S := fun p q : Plant => q.jn[j] = p.jn[j]) (fun _ => rfl) (fun h g => g.trans h)
    (fun q i apart => stopJunction_othersSame e q i j fun same => apart same.symm) (List.finRange 12) (List.nodup_finRange 12)
    (List.mem_finRange j) p

theorem stopPlant_eq (s : State) :
    s.stopPlant = { s with plant := stoppedAll s.env ((List.finRange 24).foldl Plant.abandonSlot s.plant) } := rfl

/-- R5, R116: the plant after STOP: no request is left, and each junction is as its own part of STOP leaves it. -/
theorem stopPlant_spec (s : State) : ∃ r : Plant, s.stopPlant = { s with plant := r } ∧ (∀ k : SlotNo, r.req[k] = none) ∧
    ∀ j, ∃ q : Plant, q.jn[j] = s.plant.jn[j] ∧ r.jn[j] = (stopJunction s.env q j).jn[j] := by
  have table : Plant.RequestsOnly s.plant _ := Plant.abandonAll_requestsOnly s.plant
  refine ⟨_, s.stopPlant_eq, fun k => stoppedAll_req s.env _ k (Plant.abandonAll_req s.plant k), fun j => ?_⟩
  obtain ⟨q, before, after⟩ := stoppedAll_at s.env ((List.finRange 24).foldl Plant.abandonSlot s.plant) j
  exact ⟨q, before.trans (table.junction j), after⟩

/-- R165: the scripts after a running group is abandoned; where none runs, nothing changes. -/
theorem abandonGroup_spec (s : State) : ∃ l u, s.abandonGroup = { s with script := u, plant := { s.plant with raised := l } } ∧
    u.notBefore = s.script.notBefore ∧ ∀ q : QueueNo, u.running[q] = false ∧
      u.queues[q] = if s.script.running[q] = true then dropGroup s.script.queues[q] else s.script.queues[q] := by
  unfold abandonGroup
  split
  · refine ⟨_, s.script.abandon, rfl, rfl, fun q => ⟨Vector.getElem_replicate q.isLt, ?_⟩⟩
    exact Vector.getElem_ofFn q.isLt
  · rename_i idle
    refine ⟨s.plant.raised, s.script, rfl, rfl, fun q => ?_⟩
    have stopped : s.script.running[q] = false := by
      refine Bool.eq_false_iff.mpr fun runs => idle (List.any_eq_true.mpr ⟨_, ?_, runs⟩)
      exact Vector.mem_toList_iff.mpr (Vector.getElem_mem q.isLt)
    exact ⟨stopped, by rw [stopped]; rfl⟩

end State

/-- R71: what is left of a junction that has left coordination. -/
theorem Plant.leaveValues_cleared (J : Junction) : (leaveValues J).order = none ∧ (leaveValues J).green = none ∧
    (leaveValues J).level = 0 ∧ (leaveValues J).stack = [] ∧ (leaveValues J).guard.probe = .off ∧
    (∀ st : Stage, (leaveValues J).det.flags[st] = false) ∧ ∀ st : Stage, (leaveValues J).det.gap[st] = .stopped :=
  ⟨rfl, rfl, rfl, rfl, rfl, fun st => Vector.getElem_replicate st.isLt, fun st => Vector.getElem_replicate st.isLt⟩

/-- Settles O25. -/
theorem stopEndsCoordination : Obligations.StopEndsCoordination := by
  intro s tag takes
  have taken : exec .stop s = .next (s.take 0x04 State.stop) := rfl
  refine ⟨fun running => ?_, fun other => taken.trans (congrArg Host.Outcome.next (takes.take_same _ (.refused .state) (if_neg other)))⟩
  have handled : State.stop [] s.popIntake = ((s.popIntake.setCorridorState .ready).stopPlant.abandonGroup, .done []) := if_pos running
  obtain ⟨l, changed⟩ := s.popIntake.setCorridorState_frame .ready
  rw [changed] at handled
  obtain ⟨r, stopped, ended, visits⟩ := State.stopPlant_spec { s.popIntake with
    tb := { s.tb with corridor := .ready }, plant := { s.plant with raised := l } }
  obtain ⟨m, u, abandoned, waiting, queues⟩ := State.abandonGroup_spec { s.popIntake with
    tb := { s.tb with corridor := .ready }, plant := r }
  have made := handled.trans (congrArg (fun s => (s, Answer.done []))
    ((congrArg State.abandonGroup stopped).trans abandoned))
  obtain ⟨answered, plant, tb, script, -⟩ := takes.outcome made rfl
  let e : Env := { s.env with coordinating := false }
  have halted : e.coordinating = false := rfl
  have junctions (j : JIdx) : ∃ q : Plant, q.jn[j] = s.plant.jn[j] ∧ (s.take 0x04 State.stop).plant.jn[j] =
      (State.stopJunction e q j).jn[j] := by
    obtain ⟨q, same, here⟩ := visits j
    exact ⟨q, same, (congrArg (fun p : Plant => p.jn[j]) plant).trans here⟩
  refine ⟨_, taken, answered, tb, fun k => (congrArg (fun p : Plant => p.req[k]) plant).trans (ended k), fun j => ?_, fun q => ?_, ?_⟩
  · obtain ⟨q, same, here⟩ := junctions j
    rw [here]
    refine ⟨fun coordinated ready => ?_, fun c solo => ?_, fun noBand manual fault => ?_⟩
    · obtain ⟨l, c, left⟩ := State.stopJunction_left e q j (by rw [same]; exact coordinated) halted (by rw [same]; exact ready)
      obtain ⟨order, green, level, stack, probe, flags, -⟩ := Plant.leaveValues_cleared { q.jn[j] with chain := c }
      rw [left]
      exact ⟨rfl, order, green, level, stack, probe, flags, (congrArg Junction.plan same :)⟩
    · rw [State.stopJunction_solo _ q j (c := c) (by rw [same]; exact solo), same, solo]
    · rw [State.stopJunction_noBand _ q j (by rw [same]; exact noBand),
        Plant.settle_stopped _ q j (c := .noBand) (by rw [same]; exact noBand) rfl (by rw [same]; exact manual)
          (by rw [same]; exact fault)]
  · rw [script]
    exact queues q
  · rw [script]
    exact waiting

end Sys2Proof.Machine
end

section
/-! SUPPORT. The local cycle (R11, R15), the values of a detector unit (R86 to R88), and the band points outside coordination. -/

namespace Sys2Proof.Machine

open Sys2Proof

/-! ## The regular position and realigned spans (R11, R15) -/

/-- R11: L in tenths for a multiple that divides C. -/
theorem cycleTenths_eq {c mult : Nat} (low : 1 ≤ mult) (high : mult ≤ 2) (even : mult = 2 → c % 2 = 0) :
    cycleTenths c mult = 10 * (c / mult) := by
  obtain rfl | rfl : mult = 1 ∨ mult = 2 := by omega
  · simp [cycleTenths]
  · have := even rfl
    simp only [cycleTenths]
    omega

/-- R11: the regular position is congruent to m less the offset. -/
theorem regularPos_eq (m offset : Nat) {len : Nat} (pos : 0 < len) :
    (regularPos m offset len : Int) = ((m : Int) - 10 * offset) % (len : Nat) := by
  have part : 10 * offset % len ≤ len := (Nat.mod_lt _ pos).le
  have whole : (10 * offset : Nat) = len * (10 * offset / len) + 10 * offset % len := (Nat.div_add_mod ..).symm
  rw [regularPos, Int.natCast_emod, Int.natCast_add, Int.natCast_sub part]
  refine Int.emod_eq_emod_iff_emod_sub_eq_zero.mpr (Int.emod_eq_zero_of_dvd ⟨1 + (10 * offset / len : Nat), ?_⟩)
  have whole' : (10 * offset : Int) = len * (10 * offset / len : Nat) + (10 * offset % len : Nat) := by exact_mod_cast whole
  rw [whole', Int.mul_add]
  omega

theorem regularPos_lt (m offset : Nat) {len : Nat} (pos : 0 < len) : regularPos m offset len < len := Nat.mod_lt _ pos

/-- R15: a zero of the regular position, counted from a position of the cycle in progress. -/
theorem zero_iff (m offset p : Nat) {len : Nat} (pos : 0 < len) {x : Nat} (from_ : p ≤ x) :
    ((m : Int) + x - p - 10 * offset) % (len : Nat) = 0 ↔ (regularPos m offset len + (x - p)) % len = 0 := by
  have split : (m : Int) + x - p - 10 * offset = ((m : Int) - 10 * offset) + ((x - p : Nat) : Int) := by omega
  rw [split, Int.add_emod, ← regularPos_eq m offset pos, ← Int.natCast_emod, ← Int.natCast_add, ← Int.natCast_emod, Nat.add_mod_mod]
  exact Int.natCast_eq_zero

/-- R15: the first zero from a regular position below the length on. -/
theorem first_zero {r len : Nat} (below : r < len) {y : Nat} (before : y < (len - r) % len) : (r + y) % len ≠ 0 := by
  rcases Nat.eq_zero_or_pos r with rfl | some
  · simp at before
  · rw [Nat.mod_eq_of_lt (by omega : len - r < len)] at before
    rw [Nat.mod_eq_of_lt (by omega)]
    omega

/-- R15: only that zero lies within one length. -/
theorem only_zero {r len : Nat} (below : r < len) {y : Nat} (within : y < (len - r) % len + len) (zero : (r + y) % len = 0) :
    y = (len - r) % len := by
  rcases Nat.eq_zero_or_pos r with rfl | some
  · simp only [Nat.sub_zero, Nat.mod_self, Nat.zero_add] at within zero ⊢
    rwa [Nat.mod_eq_of_lt within] at zero
  · rw [Nat.mod_eq_of_lt (by omega : len - r < len)] at within ⊢
    obtain ⟨k, hk⟩ := Nat.dvd_of_mod_eq_zero zero
    have low : 0 < k := Nat.pos_of_ne_zero fun none => by subst none; omega
    have high : k < 2 := by
      by_contra many
      have : len * 2 ≤ len * k := Nat.mul_le_mul_left len (by omega)
      omega
    obtain rfl : k = 1 := by omega
    omega

/-- R15: the span a realignment sets is the first one that ends at a zero and is long enough. -/
theorem realignedSpan_cutsAt (m offset p : Nat) {len : Nat} (pos : 0 < len) :
    CutsAt len (fun x => ((m : Int) + x - p - 10 * offset) % (len : Nat) = 0) p (realignedSpan m offset len p) := by
  have below := regularPos_lt m offset pos
  let z := (len - regularPos m offset len) % len
  have ends : (regularPos m offset len + z) % len = 0 := by
    by_contra other
    rcases Nat.eq_zero_or_pos (regularPos m offset len) with none | some
    · exact other (by simp [z, none])
    · have : z = len - regularPos m offset len := Nat.mod_eq_of_lt (by omega)
      exact other (by rw [this, Nat.add_sub_cancel' below.le, Nat.mod_self])
  have span : realignedSpan m offset len p = if len ≤ 2 * (p + z) then p + z else p + z + len := rfl
  by_cases long : len ≤ 2 * (p + z)
  · rw [span, if_pos long]
    refine ⟨by omega, long, (zero_iff m offset p pos (by omega)).mpr ?_, fun x from_ before _ zero => ?_⟩
    · rw [Nat.add_sub_cancel_left]
      exact ends
    · exact first_zero below (y := x - p) (by change x - p < z; omega) ((zero_iff m offset p pos from_).mp zero)
  · rw [span, if_neg long]
    refine ⟨by omega, by omega, (zero_iff m offset p pos (by omega)).mpr ?_, fun x from_ before half zero => ?_⟩
    · rw [show p + z + len - p = z + len by omega, ← Nat.add_assoc, Nat.add_mod_right]
      exact ends
    · have : x - p = z := only_zero below (by change x - p < z + len; omega) ((zero_iff m offset p pos from_).mp zero)
      omega

/-- Two values of a junction share the plan and the cycle in progress. -/
structure Junction.SameCycle (J K : Junction) : Prop where
  plan : K.plan = J.plan
  stagedPlan : K.stagedPlan = J.stagedPlan
  position : K.p = J.p
  span : K.span = J.span

theorem Junction.SameCycle.refl (J : Junction) : J.SameCycle J := ⟨rfl, rfl, rfl, rfl⟩

theorem Junction.SameCycle.trans {J K L : Junction} (h : J.SameCycle K) (g : K.SameCycle L) : J.SameCycle L :=
  ⟨g.plan.trans h.plan, g.stagedPlan.trans h.stagedPlan, g.position.trans h.position, g.span.trans h.span⟩

theorem Junction.StateFrame.sameCycle {J K : Junction} (h : J.StateFrame K) : J.SameCycle K := by
  rw [show K = _ from h]
  exact ⟨rfl, rfl, rfl, rfl⟩

namespace Plant

/-! ## The detector unit's own values -/

/-- Nothing but a junction's detector unit and the notices has changed. -/
structure DetOnly (j : JIdx) (p q : Plant) : Prop where
  junction : q.jn[j] = { p.jn[j] with det := q.jn[j].det }
  others : p.OthersSame q j
  pool : q.pool = p.pool
  free : q.free = p.free
  req : q.req = p.req
  arrivals : q.arrivals = p.arrivals

theorem DetOnly.sameCycle {j : JIdx} {p q : Plant} (h : DetOnly j p q) : p.jn[j].SameCycle q.jn[j] := by
  rw [h.junction]
  exact ⟨rfl, rfl, rfl, rfl⟩

theorem DetOnly.chain {j : JIdx} {p q : Plant} (h : DetOnly j p q) : q.jn[j].chain = p.jn[j].chain := by rw [h.junction]
theorem DetOnly.state {j : JIdx} {p q : Plant} (h : DetOnly j p q) : q.jn[j].state = p.jn[j].state := by rw [h.junction]

theorem DetOnly.refl {j : JIdx} (p : Plant) : DetOnly j p p := ⟨rfl, fun _ _ => rfl, rfl, rfl, rfl, rfl⟩

theorem DetOnly.trans {j : JIdx} {p q r : Plant} (h : DetOnly j p q) (g : DetOnly j q r) : DetOnly j p r where
  junction := by rw [g.junction, h.junction]
  others := h.others.trans g.others
  pool := g.pool.trans h.pool
  free := g.free.trans h.free
  req := g.req.trans h.req
  arrivals := g.arrivals.trans h.arrivals

theorem updDet_detOnly (p : Plant) (j : JIdx) (f : Detectors → Detectors) : DetOnly j p (p.updDet j f) where
  junction := by rw [updDet, upd_at]
  others := othersSame_upd p j _
  pool := rfl
  free := rfl
  req := rfl
  arrivals := rfl

theorem DetOnly.raise {j : JIdx} {p q : Plant} (h : DetOnly j p q) (n : Notice) : DetOnly j p (q.raise n) :=
  ⟨h.junction, h.others, h.pool, h.free, h.req, h.arrivals⟩

theorem becomeStuck_detOnly (p : Plant) (j : JIdx) (d : DetIdx) : DetOnly j p (p.becomeStuck j d) := by
  unfold becomeStuck
  refine DetOnly.raise ?_ _
  split
  · exact (updDet_detOnly p j _).trans (updDet_detOnly _ j _)
  · exact updDet_detOnly p j _

theorem ceaseStuck_detOnly (p : Plant) (j : JIdx) (r : ClearReason) (d : DetIdx) : DetOnly j p (p.ceaseStuck j r d) := by
  unfold ceaseStuck
  split
  · exact (updDet_detOnly p j _).raise _
  · exact .refl p

/-- R88: a stuck limit acts on the detector unit only. -/
theorem applyStuckLimit_detOnly (e : Env) (p : Plant) (j : JIdx) : DetOnly j p (p.applyStuckLimit e j) := by
  unfold applyStuckLimit
  split
  · exact foldl_keeps DetOnly.refl DetOnly.trans _ (fun q d _ => q.ceaseStuck_detOnly j .limit d) p
  · refine foldl_keeps DetOnly.refl DetOnly.trans _ (fun q d _ => ?_) p
    split
    · exact q.becomeStuck_detOnly j d
    · exact .refl q

/-! ## The band points outside coordination (R12) -/

/-- The marks of the band points. -/
def BandMarks (J K : Junction) : Prop :=
  K = { J with endDone := K.endDone, endPassed := K.endPassed, callDone := K.callDone, callReached := K.callReached }

theorem BandMarks.trans {J K L : Junction} (h : BandMarks J K) (g : BandMarks K L) : BandMarks J L := by
  unfold BandMarks at *
  rw [g, h]

theorem BandMarks.sameCycle {J K : Junction} (h : BandMarks J K) : J.SameCycle K := by
  rw [show K = _ from h]
  exact ⟨rfl, rfl, rfl, rfl⟩

theorem BandMarks.chain {J K : Junction} (h : BandMarks J K) : K.chain = J.chain := (congrArg Junction.chain h :)

theorem plainTop?_apart {p : Plant} {j : JIdx} (apart : p.jn[j].state ≠ .inStep) : p.plainTop? j = none :=
  if_neg fun h => apart h.1

/-- R60: outside IN_STEP a band end point is marked only. -/
theorem bandEndPoint_apart (e : Env) (p : Plant) (j : JIdx) (apart : p.jn[j].state ≠ .inStep) :
    ∃ f : Junction → Junction, (∀ J, BandMarks J (f J)) ∧ p.bandEndPoint e j = p.upd j f := by
  unfold bandEndPoint
  split
  · refine ⟨fun J => { J with endDone := true, endPassed := true }, fun _ => rfl, ?_⟩
    have none : (p.upd j fun J => { J with endDone := true, endPassed := true }).plainTop? j = none :=
      plainTop?_apart (by rw [upd_at]; exact apart)
    rw [takeBandEnd, none]
  · exact ⟨id, fun _ => rfl, (p.upd_id j id rfl).symm⟩

/-- R64: at a LOCAL or SOLO junction a band call point is marked only. -/
theorem bandCallPoint_apart (e : Env) (p : Plant) (j : JIdx) (apart : p.jn[j].state.coordinated = false) :
    ∃ f : Junction → Junction, (∀ J, BandMarks J (f J)) ∧ p.bandCallPoint e j = p.upd j f := by
  have notInStep : p.jn[j].state ≠ .inStep := fun same => by rw [same] at apart; exact Bool.noConfusion apart
  unfold bandCallPoint
  split
  · obtain ⟨f, marks, ended⟩ := p.bandEndPoint_apart e j notInStep
    refine ⟨fun J => { f J with callDone := true, callReached := true }, fun J => (marks J).trans rfl, ?_⟩
    · have state : ((p.upd j f).upd j fun J => { J with callDone := true, callReached := true }).jn[j].state = p.jn[j].state := by
        rw [upd_upd, upd_at]
        exact (congrArg Junction.state (marks p.jn[j]) :)
      rw [ended, reachCall]
      simp only []
      rw [state]
      cases is : p.jn[j].state with
      | joining => rw [is] at apart; exact Bool.noConfusion apart
      | inStep => exact absurd is notInStep
      | absent => exact upd_upd ..
      | loc c => exact upd_upd ..
      | solo c => exact upd_upd ..
  · exact ⟨id, fun _ => rfl, (p.upd_id j id rfl).symm⟩

end Plant

end Sys2Proof.Machine
end

section
/-! The statement on CONFIGURE JUNCTION with plan values, O22. -/

namespace Sys2Proof.Machine

open Sys2Proof

/-- The body of CONFIGURE JUNCTION with plan values (R200). -/
def planBody (j : JIdx) (v : Plan) (s1 s2 : Byte) : List Byte :=
  [byte j.val, 1, byte v.mult, byte v.offset, byte v.a, byte v.ext, byte v.hold, byte v.wait, s1, s2]

/-- Plan values in their ranges (R17), the offset in a byte. -/
structure PlanGood (v : Plan) : Prop where
  multLow : 1 ≤ v.mult
  multHigh : v.mult ≤ 2
  aLow : 3 ≤ v.a
  aHigh : v.a ≤ 12
  ext : v.ext ≤ 30
  holdLow : 30 ≤ v.hold
  holdHigh : v.hold ≤ 240
  waitLow : 5 ≤ v.wait
  waitHigh : v.wait ≤ 255
  stuck : v.stuck = 0 ∨ 60 ≤ v.stuck ∧ v.stuck ≤ 900

theorem PlanGood.inRange {v : Plan} (good : PlanGood v) : State.planInRange v = true := by
  obtain ⟨_, _, _, _, _, _, _, _, _, stuck⟩ := good
  simp only [State.planInRange, within, Bool.and_eq_true, Bool.or_eq_true, decide_eq_true_eq]
  omega

namespace State

/-- R17: multiple and offset fit a C. -/
theorem planFits_iff (v : Plan) (c : Nat) : planFits v c = true ↔ (v.mult = 2 → c % 2 = 0) ∧ v.offset * v.mult < c := by
  simp only [planFits, Bool.and_eq_true, Bool.not_eq_true', Bool.and_eq_false_imp, beq_iff_eq, decide_eq_false_iff_not, decide_eq_true_eq]
  exact and_congr_left fun _ => imp_congr_right fun _ => by omega

/-- R17: plan values that pass the checks are taken, as the state of the junction says. -/
def takePlan (s : State) (j : JIdx) (v : Plan) : State × Answer :=
  match s.plant.jn[j].state with
  | .absent => (s.makePresent j v, .done [])
  | .joining | .inStep => ({ s with plant := s.plant.upd j fun J => { J with stagedPlan := some v } }, .done [])
  | .loc _ | .solo _ => (s.applyPlanNow j v, .done [])

theorem takePlan_absent {s : State} {j : JIdx} (v : Plan) (absent : s.plant.jn[j].state = .absent) :
    s.takePlan j v = (s.makePresent j v, .done []) := by
  simp only [takePlan, absent]

theorem takePlan_coordinated {s : State} {j : JIdx} (v : Plan)
    (coordinated : s.plant.jn[j].state = .joining ∨ s.plant.jn[j].state = .inStep) :
    s.takePlan j v = ({ s with plant := s.plant.upd j fun J => { J with stagedPlan := some v } }, .done []) := by
  rcases coordinated with is | is <;> simp only [takePlan, is]

theorem takePlan_apart {s : State} {j : JIdx} (v : Plan)
    (apart : (∃ c, s.plant.jn[j].state = .solo c) ∨ ∃ c, s.plant.jn[j].state = .loc c) :
    s.takePlan j v = (s.applyPlanNow j v, .done []) := by
  rcases apart with ⟨c, is⟩ | ⟨c, is⟩ <;> simp only [takePlan, is]

/-- The plan values a body carries. -/
def bodyPlan (mult offset a ext hold wait s1 s2 : Byte) : Plan :=
  { mult := mult.toNat, offset := offset.toNat, a := a.toNat, ext := ext.toNat, hold := hold.toNat, wait := wait.toNat,
    stuck := nat2 s1.toNat s2.toNat }

/-- R17: CONFIGURE JUNCTION with plan values. -/
theorem configureJunction_present (s : State) (j : JIdx) (mult offset a ext hold wait s1 s2 : Byte) :
    State.configureJunction [byte j.val, 1, mult, offset, a, ext, hold, wait, s1, s2] s =
      if s.planCheckFails (bodyPlan mult offset a ext hold wait s1 s2) then refuse s .range
      else s.takePlan j (bodyPlan mult offset a ext hold wait s1 s2) := by
  have set : flag? (1 : Byte).toNat = some true := rfl
  simp only [State.configureJunction, bodyNats_cons, bodyNats_nil, toNat_byte_val j (by decide), idx?_val, set]
  refine congrArg (ite _ _) ?_
  cases is : s.plant.jn[j].state <;> simp only [takePlan, is] <;> rfl

end State

/-- R200: the plan values of a body are those sent. -/
theorem bodyPlan_eq {v : Plan} {s1 s2 : Byte} (good : PlanGood v) (offset : v.offset ≤ 255)
    (stuck : v.stuck = 256 * s1.toNat + s2.toNat) :
    State.bodyPlan (byte v.mult) (byte v.offset) (byte v.a) (byte v.ext) (byte v.hold) (byte v.wait) s1 s2 = v := by
  obtain ⟨_, multHigh, _, aHigh, ext, _, holdHigh, _, waitHigh, _⟩ := good
  simp only [State.bodyPlan, toNat_byte v.mult (by omega), toNat_byte v.offset (by omega), toNat_byte v.a (by omega),
    toNat_byte v.ext (by omega), toNat_byte v.hold (by omega), toNat_byte v.wait (by omega), nat2, ← stuck]

/-- R17: plan values in range that fit the C in force and a staged one are taken. -/
theorem State.configureJunction_plan (s : State) {j : JIdx} {v : Plan} {s1 s2 : Byte} (good : PlanGood v)
    (stuck : v.stuck = 256 * s1.toNat + s2.toNat) (late : v.offset * v.mult < s.tb.c) (small : s.tb.c ≤ 200)
    (even : v.mult = 2 → s.tb.c % 2 = 0) (staged : ∀ g, s.tb.staged = some g → v.offset * v.mult < g.c ∧ (v.mult = 2 → g.c % 2 = 0)) :
    State.configureJunction (planBody j v s1 s2) s = s.takePlan j v := by
  have offset : v.offset ≤ 255 := by
    have := Nat.le_mul_of_pos_right v.offset (show 0 < v.mult from good.multLow)
    omega
  have passes : s.planCheckFails v = false := by
    have force : planFits v s.tb.c = true := (planFits_iff v _).mpr ⟨even, late⟩
    have ahead : (s.tb.staged.all fun g => planFits v g.c) = true := by
      cases found : s.tb.staged with
      | none => rfl
      | some g => exact (planFits_iff v _).mpr (staged g found).symm
    have all : (planInRange v && planFits v s.tb.c && s.tb.staged.all fun g => planFits v g.c) = true := by
      rw [good.inRange, force, ahead]
      rfl
    exact congrArg not all
  have body := s.configureJunction_present j (byte v.mult) (byte v.offset) (byte v.a) (byte v.ext) (byte v.hold)
    (byte v.wait) s1 s2
  rw [bodyPlan_eq good offset stuck, if_neg (by rw [passes]; decide)] at body
  exact body

/-- R11: a length in which an offset lies. -/
theorem length_pos {c mult : Nat} (low : 1 ≤ mult) (high : mult ≤ 2) (even : mult = 2 → c % 2 = 0) (some : 0 < c) :
    0 < 10 * (c / mult) := by
  obtain rfl | rfl : mult = 1 ∨ mult = 2 := by omega
  · omega
  · have := even rfl
    omega

/-! ## A junction made present (R46, R11) -/

/-- R46: the values of a junction just made present. -/
def Junction.begun (J : Junction) (v : Plan) (c m : Nat) : Junction :=
  { J with plan := v, stagedPlan := none, cycleCount := 0, endPassed := false, callReached := false, endDone := false
           callDone := false }.beginCycle c m

/-- R3, R46: a junction made present while the corridor does not run. -/
theorem State.makePresent_stopped (s : State) (j : JIdx) (v : Plan) (stopped : s.tb.corridor ≠ .coordinating)
    (mode : s.plant.jn[j].line.mode = none) : ∃ q : Plant,
      s.makePresent j v = { s with tb := { s.tb with corridor := .ready }, plant := q } ∧ s.plant.OthersSame q j ∧
        q.jn[j] = { s.plant.jn[j].begun v s.tb.c s.tb.m with
          line := s.plant.jn[j].line.decide .release, state := .loc .notRunning } := by
  obtain ⟨l, ready⟩ : ∃ l, (if s.tb.corridor = .dark then s.setCorridorState .ready else s) =
      { s with tb := { s.tb with corridor := .ready }, plant := { s.plant with raised := l } } := by
    split
    · exact s.setCorridorState_frame .ready
    · rename_i notDark
      have already : s.tb.corridor = .ready := by
        cases is : s.tb.corridor with
        | dark => exact absurd is notDark
        | ready => rfl
        | coordinating => exact absurd is stopped
      exact ⟨s.plant.raised, by rw [← already]⟩
  let e : Env := { s.env with coordinating := false }
  let p := ({ s.plant with raised := l } : Plant).upd j fun J => J.begun v s.tb.c s.tb.m
  let r := (p.sendRelease j).setState j (.loc .notRunning)
  have made : s.makePresent j v = { s with tb := { s.tb with corridor := .ready }, plant := r.settle e j } := by
    rw [makePresent, ready]
    rfl
  have begun : p.jn[j] = s.plant.jn[j].begun v s.tb.c s.tb.m := Plant.upd_at ..
  have here : r.jn[j] = { s.plant.jn[j].begun v s.tb.c s.tb.m with
      line := s.plant.jn[j].line.decide .release, state := .loc .notRunning } := by
    rw [Plant.setState_at, Plant.sendRelease_at, begun]
    rfl
  have quiet : r.jn[j].line.mode = none :=
    ((p.sendRelease_restated j).trans (Plant.setState_restated _ j _)).mode.trans (by rw [begun]; exact mode)
  refine ⟨_, made, ?_, ?_⟩
  · exact (Plant.othersSame_upd { s.plant with raised := l } j fun J => J.begun v s.tb.c s.tb.m).trans
      (((p.sendRelease_restated j).trans (Plant.setState_restated _ j _)).trans (Plant.settle_restated e r j)).others
  · rw [Plant.settle_stopped e r j (Plant.setState_state ..) rfl (by rw [quiet]; decide) (by rw [quiet]; decide), here]

/-! ## Plan values applied at once (R17, R15, R12, R48) -/

/-- R15: a junction with new plan values, its cycle realigned if the offset or the multiple changes. -/
def Junction.replanned (J : Junction) (v : Plan) (c m : Nat) : Junction :=
  if v.offset = J.plan.offset ∧ v.mult = J.plan.mult then { J with plan := v, stagedPlan := none }
  else Junction.realign { J with plan := v, stagedPlan := none } c m

theorem Junction.replanned_keeps (J : Junction) (v : Plan) (c m : Nat) : (J.replanned v c m).plan = v ∧
    (J.replanned v c m).stagedPlan = none ∧ (J.replanned v c m).p = J.p ∧ (J.replanned v c m).chain = J.chain ∧
    (J.replanned v c m).state = J.state := by
  unfold replanned
  split <;> exact ⟨rfl, rfl, rfl, rfl, rfl⟩

theorem Junction.replanned_span_same (J : Junction) (v : Plan) (c m : Nat) (same : v.offset = J.plan.offset ∧ v.mult = J.plan.mult) :
    (J.replanned v c m).span = J.span := by rw [replanned, if_pos same]

theorem Junction.replanned_span_changed (J : Junction) (v : Plan) (c m : Nat)
    (changed : v.offset ≠ J.plan.offset ∨ v.mult ≠ J.plan.mult) :
    (J.replanned v c m).span = realignedSpan m v.offset (cycleTenths c v.mult) J.p := by
  rw [replanned, if_neg (by tauto)]
  rfl

/-- R17: what plan values applied at a LOCAL or SOLO junction leave. -/
theorem Plant.applyPlan_spec (e : Env) (p : Plant) (j : JIdx) (v : Plan) (apart : p.jn[j].state.coordinated = false) :
    let q := ((((p.upd j fun J => J.replanned v e.c e.m).applyStuckLimit e j).bandCallPoint e j).settle e j)
    q.jn[j].plan = v ∧ q.jn[j].stagedPlan = none ∧ q.jn[j].p = p.jn[j].p ∧ q.jn[j].span = (p.jn[j].replanned v e.c e.m).span ∧
      q.jn[j].chain = p.jn[j].chain ∧ q.pool = p.pool ∧ p.OthersSame q j := by
  have planned : (p.upd j fun J => J.replanned v e.c e.m).jn[j] = p.jn[j].replanned v e.c e.m := upd_at ..
  have others := othersSame_upd p j fun J => J.replanned v e.c e.m
  have pool : (p.upd j fun J => J.replanned v e.c e.m).pool = p.pool := rfl
  generalize (p.upd j fun J => J.replanned v e.c e.m) = p1 at planned others pool
  obtain ⟨plan, staged, position, chain, state⟩ := p.jn[j].replanned_keeps v e.c e.m
  rw [← planned] at plan staged position chain state
  have limited := p1.applyStuckLimit_detOnly e j
  generalize p1.applyStuckLimit e j = p2 at limited
  obtain ⟨f, marks, called⟩ := p2.bandCallPoint_apart e j (by rw [limited.state, state]; exact apart)
  have marked : (p2.bandCallPoint e j).jn[j] = f p2.jn[j] := (congrArg (fun q : Plant => q.jn[j]) called).trans (upd_at p2 j f)
  have settled := (p2.bandCallPoint e j).settle_restated e j
  have cycle : p1.jn[j].SameCycle ((p2.bandCallPoint e j).settle e j).jn[j] :=
    limited.sameCycle.trans (Junction.SameCycle.trans (by rw [marked]; exact (marks _).sameCycle) settled.frame.sameCycle)
  refine ⟨cycle.plan.trans plan, cycle.stagedPlan.trans staged, cycle.position.trans position,
    cycle.span.trans (congrArg Junction.span planned), ?_, ?_, ?_⟩
  · rw [settled.chain, marked, (marks _).chain, limited.chain, chain]
  · rw [settled.pool, called]
    exact limited.pool.trans pool
  · have third : p2.OthersSame (p2.bandCallPoint e j) j := by
      rw [called]
      exact othersSame_upd p2 j f
    exact ((others.trans limited.others).trans third).trans settled.others

/-- R17: CONFIGURE JUNCTION at a LOCAL or SOLO junction. -/
theorem State.applyPlanNow_eq (s : State) (j : JIdx) (v : Plan) : s.applyPlanNow j v = { s with
    plant := ((((s.plant.upd j fun J => J.replanned v s.tb.c s.tb.m).applyStuckLimit s.env j).bandCallPoint s.env j).settle
      s.env j) } := rfl

theorem State.applyPlanNow_spec (s : State) (j : JIdx) (v : Plan) (apart : s.plant.jn[j].state.coordinated = false) : ∃ q : Plant,
    s.applyPlanNow j v = { s with plant := q } ∧ q.jn[j].plan = v ∧ q.jn[j].stagedPlan = none ∧ q.jn[j].p = s.plant.jn[j].p ∧
      q.jn[j].span = (s.plant.jn[j].replanned v s.tb.c s.tb.m).span ∧ q.jn[j].chain = s.plant.jn[j].chain ∧
      q.pool = s.plant.pool ∧ s.plant.OthersSame q j :=
  ⟨_, s.applyPlanNow_eq j v, Plant.applyPlan_spec s.env s.plant j v apart⟩

/-- Settles O22. -/
theorem junctionIsConfigured : Obligations.JunctionIsConfigured := by
  refine ⟨?_, ?_, ?_⟩
  · intro s tag j v s1 s2 stuck multLow multHigh aLow aHigh ext holdLow holdHigh waitLow waitHigh limit late small even none takes
    have good : PlanGood v := ⟨multLow, multHigh, aLow, aHigh, ext, holdLow, holdHigh, waitLow, waitHigh, limit⟩
    have taken : exec .configureJunction s = .next (s.take 0x02 State.configureJunction) := rfl
    have body := s.popIntake.configureJunction_plan (j := j) good stuck late small even
      (fun g found => nomatch none.symm.trans found)
    refine ⟨fun absent stopped mode => ?_, fun coordinated => ?_⟩
    · obtain ⟨q, made, others, junction⟩ := s.popIntake.makePresent_stopped j v stopped mode
      have handled := body.trans ((State.takePlan_absent (s := s.popIntake) v absent).trans (congrArg (fun u => (u, Answer.done [])) made))
      obtain ⟨answered, plant, tb, -, -⟩ := takes.outcome handled rfl
      have here := (congrArg (fun p : Plant => p.jn[j]) plant).trans junction
      have len : cycleTenths s.tb.c v.mult = 10 * (s.tb.c / v.mult) := cycleTenths_eq multLow multHigh even
      refine ⟨_, taken, answered, tb, (congrArg Junction.state here :), (congrArg Junction.plan here :),
        (congrArg Junction.span here :).trans len, ?_, ?_⟩
      · have position : (s.take 0x02 State.configureJunction).plant.jn[j].p =
          regularPos s.tb.m v.offset (cycleTenths s.tb.c v.mult) := (congrArg Junction.p here :)
        rw [position, len, regularPos_eq _ _ (length_pos multLow multHigh even (by omega))]
      · rw [plant]
        exact others
    · exact taken.trans (congrArg Host.Outcome.next
        (takes.take_of (body.trans (State.takePlan_coordinated (s := s.popIntake) v coordinated)) takes.quiet rfl))
  · intro s tag j v s1 s2 stuck multLow multHigh aLow aHigh ext holdLow holdHigh waitLow waitHigh limit late small even staged takes apart
    have good : PlanGood v := ⟨multLow, multHigh, aLow, aHigh, ext, holdLow, holdHigh, waitLow, waitHigh, limit⟩
    have taken : exec .configureJunction s = .next (s.take 0x02 State.configureJunction) := rfl
    have body := s.popIntake.configureJunction_plan (j := j) good stuck late small even staged
    have state : (∃ c, s.plant.jn[j].state = .solo c) ∨ ∃ c, s.plant.jn[j].state = .loc c := apart.imp_right And.left
    have notCoordinated : s.plant.jn[j].state.coordinated = false := by
      rcases state with ⟨c, is⟩ | ⟨c, is⟩ <;> rw [is] <;> rfl
    have len : cycleTenths s.tb.c v.mult = 10 * (s.tb.c / v.mult) := cycleTenths_eq multLow multHigh even
    obtain ⟨q, applied, plan, dropped, position, span, chain, pool, others⟩ := s.popIntake.applyPlanNow_spec j v notCoordinated
    have handled := body.trans ((State.takePlan_apart (s := s.popIntake) v state).trans
      (congrArg (fun u => (u, Answer.done [])) applied))
    obtain ⟨answered, plant, tb, -, -⟩ := takes.outcome handled rfl
    have made : (s.take 0x02 State.configureJunction).plant = { q with raised := [] } := plant
    refine ⟨_, taken, answered, tb, ?_⟩
    rw [made]
    refine ⟨plan, dropped, position, fun same => span.trans (Junction.replanned_span_same _ v _ _ same), fun changed => ?_, chain, pool,
      others⟩
    have realigned : q.jn[j].span = realignedSpan s.tb.m v.offset (10 * (s.tb.c / v.mult)) s.plant.jn[j].p := by
      rw [← len]
      exact span.trans (Junction.replanned_span_changed _ v _ _ changed)
    show CutsAt _ _ _ q.jn[j].span
    rw [realigned]
    exact realignedSpan_cutsAt _ _ _ (length_pos multLow multHigh even (Nat.zero_lt_of_lt late))
  · intro s tag j mult offset a ext hold wait s1 s2 takes stuck unfit bad
    have taken : exec .configureJunction s = .next (s.take 0x02 State.configureJunction) := rfl
    have fails : s.popIntake.planCheckFails (State.bodyPlan mult offset a ext hold wait s1 s2) = true := by
      by_contra passes
      obtain ⟨⟨ranges, force⟩, ahead⟩ : (State.planInRange (State.bodyPlan mult offset a ext hold wait s1 s2) = true ∧
          State.planFits (State.bodyPlan mult offset a ext hold wait s1 s2) s.tb.c = true) ∧
          (s.tb.staged.all fun g => State.planFits (State.bodyPlan mult offset a ext hold wait s1 s2) g.c) = true := by
        simpa [State.planCheckFails] using passes
      have fit (c : Nat) (fits : State.planFits (State.bodyPlan mult offset a ext hold wait s1 s2) c = true) : ¬unfit c := by
        obtain ⟨even, late⟩ := (State.planFits_iff _ c).mp fits
        rintro (⟨two, odd⟩ | early)
        · exact absurd (even two) (by omega)
        · exact absurd late (Nat.not_lt.mpr early)
      rcases bad with out | now | ⟨g, found, later⟩
      · refine out ?_
        simp only [State.planInRange, State.bodyPlan, nat2, Bool.and_eq_true, Bool.or_eq_true, within_eq_true] at ranges
        obtain ⟨⟨⟨⟨⟨⟨multLow, multHigh⟩, aLow, aHigh⟩, extent⟩, holdLow, holdHigh⟩, waitLow, -⟩, limit⟩ := ranges
        exact ⟨multLow, multHigh, aLow, aHigh, of_decide_eq_true extent, holdLow, holdHigh, waitLow,
          limit.imp_left of_decide_eq_true⟩
      · exact fit _ force now
      · exact fit _ (by simpa [found] using ahead) later
    exact taken.trans (congrArg Host.Outcome.next (takes.take_same _ (.refused .range)
      ((s.popIntake.configureJunction_present ..).trans (if_pos fails))))

end Sys2Proof.Machine
end

section
/-! SUPPORT. Maps of detectors (R77, R78): how a body is read, and what an applied map leaves of the timers and the STUCK marks. -/

namespace Sys2Proof.Machine

open Sys2Proof

/-! ## The body of MAP DETECTORS (R77, R200) -/

/-- The second byte of a function in a MAP DETECTORS body. -/
def DetFn.mapSecond (f : DetFn) (spare : Byte) : Byte :=
  match f.stage? with
  | some st => byte (st.val + 1)
  | Option.none => spare

theorem DetFn.mapBytes_eq (f : DetFn) (spare : Byte) : f.mapBytes spare = [f.code, f.mapSecond spare] := by cases f <;> rfl

theorem DetFn.code_le (f : DetFn) : f.code.toNat ≤ 5 := by cases f <;> simp [code]

/-- R77: a function is read back from its two bytes. -/
theorem detFn?_bytes (f : DetFn) (spare : Byte) : State.detFn? f.code.toNat (f.mapSecond spare).toNat = some f := by
  have read (st : Stage) : Stage.ofNum? (byte (st.val + 1)).toNat = some st := by rw [toNat_byte_stage, stageOfNum?_succ]
  cases f with
  | none => rfl
  | exitIn => rfl
  | exitOut => rfl
  | call st => exact (congrArg (Option.map (State.stageFn 1)) (read st)).trans rfl
  | extend st => exact (congrArg (Option.map (State.stageFn 2)) (read st)).trans rfl
  | callExtend st => exact (congrArg (Option.map (State.stageFn 3)) (read st)).trans rfl

/-- The members of pairs laid out in a row. -/
theorem getD_pairs {α β : Type} (f g : α → β) (d : β) : ∀ (l : List α) (i : Nat) (h : i < l.length),
    (l.flatMap fun x => [f x, g x]).getD (2 * i) d = f l[i] ∧ (l.flatMap fun x => [f x, g x]).getD (2 * i + 1) d = g l[i]
  | [], _, h => nomatch h
  | x :: l, 0, _ => ⟨rfl, rfl⟩
  | x :: l, i + 1, h => by
    have rest := getD_pairs f g d l i (Nat.lt_of_succ_lt_succ h)
    rw [show 2 * (i + 1) = 2 * i + 1 + 1 by omega]
    exact rest

/-- The fields of a MAP DETECTORS body. -/
def mapFields (m : Vector DetFn 24) (spare : Vector Byte 24) : List Nat :=
  (List.finRange 24).flatMap fun d => [m[d].code.toNat, (m[d].mapSecond spare[d]).toNat]

theorem mapFields_at (m : Vector DetFn 24) (spare : Vector Byte 24) (d : DetIdx) :
    (mapFields m spare).getD (2 * d.val) 0 = m[d].code.toNat ∧
      (mapFields m spare).getD (2 * d.val + 1) 0 = (m[d].mapSecond spare[d]).toNat := by
  have pair := getD_pairs (fun d : DetIdx => m[d].code.toNat) (fun d => (m[d].mapSecond spare[d]).toNat) 0 (List.finRange 24) d.val
    (by simp)
  simpa [mapFields] using pair

theorem bodyNats_map (m : Vector DetFn 24) (spare : Vector Byte 24) :
    bodyNats ((List.finRange 24).flatMap fun d => m[d].mapBytes spare[d]) = mapFields m spare := by
  simp only [bodyNats, List.map_flatMap, DetFn.mapBytes_eq, mapFields, List.map_cons, List.map_nil]

theorem length_mapFields (m : Vector DetFn 24) (spare : Vector Byte 24) : (mapFields m spare).length = 48 := by
  simp [mapFields, List.length_flatMap]

namespace State

theorem mapCodesDefined_iff (fields : List Nat) : mapCodesDefined fields = true ↔ ∀ d : DetIdx, fields.getD (2 * d.val) 0 ≤ 5 := by
  simp only [mapCodesDefined, List.all_eq_true, List.mem_range, decide_eq_true_eq]
  exact ⟨fun h d => h d.val d.isLt, fun h d hd => h ⟨d, hd⟩⟩

/-- R77: the functions of a body. -/
theorem mapBody_fields (m : Vector DetFn 24) (spare : Vector Byte 24) : mapBody (mapFields m spare) = m.map some := by
  refine Vector.ext fun i hi => ?_
  obtain ⟨first, second⟩ := mapFields_at m spare ⟨i, hi⟩
  simp only [mapBody, Vector.getElem_ofFn, Vector.getElem_map]
  exact (congrArg₂ detFn? first second).trans (detFn?_bytes ..)

/-- R77: at most one of a function. -/
theorem countP_le_one_iff (m : Vector DetFn 24) (f : DetFn) : m.toList.countP (fun g => g == f) ≤ 1 ↔
    ¬∃ d e : DetIdx, d ≠ e ∧ m[d] = f ∧ m[e] = f := by
  have all : m.toList = (List.finRange 24).map fun d => m[d] := by
    refine List.ext_getElem (by simp) fun i hi _ => ?_
    simp
  let l := (List.finRange 24).filter fun d => m[d] == f
  have distinct : l.Nodup := (List.nodup_finRange 24).filter _
  have count : m.toList.countP (fun g => g == f) = l.toFinset.card := by
    rw [all, List.countP_map, List.toFinset_card_of_nodup distinct, List.countP_eq_length_filter]
    rfl
  rw [count, Finset.card_le_one]
  simp only [l, List.mem_toFinset, List.mem_filter, List.mem_finRange, true_and, beq_iff_eq]
  exact ⟨fun h ⟨d, e, apart, hd, he⟩ => apart (h d hd e he), fun h d hd e he => by_contra fun apart => h ⟨d, e, apart, hd, he⟩⟩

theorem exitsGood_iff (m : Vector DetFn 24) : exitsGood m = true ↔
    (¬∃ d e : DetIdx, d ≠ e ∧ m[d] = .exitIn ∧ m[e] = .exitIn) ∧ ¬∃ d e : DetIdx, d ≠ e ∧ m[d] = .exitOut ∧ m[e] = .exitOut := by
  rw [exitsGood, Bool.and_eq_true, decide_eq_true_iff, decide_eq_true_iff, countP_le_one_iff, countP_le_one_iff]

/-- R77: MAP DETECTORS with 24 functions. -/
theorem mapDetectors_functions (s : State) (j : JIdx) (m : Vector DetFn 24) (spare : Vector Byte 24) :
    State.mapDetectors (byte j.val :: (List.finRange 24).flatMap fun d => m[d].mapBytes spare[d]) s =
      if exitsGood m then takeMap j m s else refuse s .range := by
  have defined : mapCodesDefined (mapFields m spare) = true :=
    (mapCodesDefined_iff _).mpr fun d => (mapFields_at m spare d).1 ▸ m[d].code_le
  have form : ¬((mapFields m spare).length ≠ 48 ∨ mapCodesDefined (mapFields m spare) = false) := by
    rw [length_mapFields, defined]
    decide
  have read : ((mapBody (mapFields m spare)).toList.all Option.isSome) = true := by
    rw [mapBody_fields]
    simp
  have functions : (mapBody (mapFields m spare)).map (fun f => f.getD .none) = m := by
    rw [mapBody_fields]
    refine Vector.ext fun i hi => ?_
    simp
  simp only [State.mapDetectors, bodyNats_cons, toNat_byte_val j (by decide), idx?_val, bodyNats_map, if_neg form, read, if_true,
    functions]

end State

end Sys2Proof.Machine
end

section
/-! SUPPORT. An applied map (R78): the timers and the STUCK marks of the detectors. The notices offered one behind the other (R190). -/

namespace Sys2Proof.Machine

open Sys2Proof

/-! ## One detector under its new function (R78) -/

/-- A detector that was timed is so no more (R78). -/
def dropsTiming (old map : Vector DetFn 24) (d : DetIdx) : Bool := old[d].timed && !map[d].timed

/-- A detector becomes timed (R78). -/
def gainsTiming (old map : Vector DetFn 24) (d : DetIdx) : Bool := !old[d].timed && map[d].timed

namespace Plant

/-- What becomes of the timer and the STUCK mark of a detector (R78, R79, R87). -/
structure DetectorRemapped (e : Env) (old : Vector DetFn 24) (D K : Detectors) (d : DetIdx) : Prop where
  drops : dropsTiming old D.map d = true → K.timers[d] = none ∧ K.stuck[d] = false
  gains : gainsTiming old D.map d = true →
    K.timers[d] = (if D.rowsValid = true ∧ D.rows[d] = true then some e.now else D.timers[d]) ∧ K.stuck[d] = D.stuck[d]
  keeps : dropsTiming old D.map d = false → gainsTiming old D.map d = false → K.timers[d] = D.timers[d] ∧ K.stuck[d] = D.stuck[d]

/-- A detector of a list ceases to be STUCK by the map. -/
def ceasing (old : Vector DetFn 24) (D : Detectors) (l : List DetIdx) : List DetIdx :=
  l.filter fun d => dropsTiming old D.map d && D.stuck[d]

/-- The detectors of a list have taken their new functions. -/
structure Remapped (e : Env) (j : JIdx) (old : Vector DetFn 24) (l : List DetIdx) (p q : Plant) : Prop where
  only : DetOnly j p q
  frame : q.jn[j].det = { p.jn[j].det with timers := q.jn[j].det.timers, stuck := q.jn[j].det.stuck }
  within : ∀ d ∈ l, DetectorRemapped e old p.jn[j].det q.jn[j].det d
  outside : ∀ d, d ∉ l → q.jn[j].det.timers[d] = p.jn[j].det.timers[d] ∧ q.jn[j].det.stuck[d] = p.jn[j].det.stuck[d]
  raised : q.raised = p.raised ++ (ceasing old p.jn[j].det l).map fun d => .cleared j d .map

/-- A change of the detector unit, as seen at its junction. -/
theorem updDet_at (p : Plant) (j : JIdx) (f : Detectors → Detectors) : (p.updDet j f).jn[j].det = f p.jn[j].det :=
  congrArg Junction.det (upd_at p j fun J => { J with det := f J.det })

/-- R87: a detector ceases to be STUCK. -/
theorem ceaseStuck_det (p : Plant) (j : JIdx) (r : ClearReason) (d : DetIdx) :
    (p.ceaseStuck j r d).jn[j].det = { p.jn[j].det with stuck := p.jn[j].det.stuck.set d false } ∧
      (p.ceaseStuck j r d).raised = p.raised ++ if p.jn[j].det.stuck[d] = true then [.cleared j d r] else [] := by
  unfold ceaseStuck
  split
  · exact ⟨updDet_at p j fun D => { D with stuck := D.stuck.set d false }, rfl⟩
  · rename_i free
    have same : p.jn[j].det.stuck.set d false = p.jn[j].det.stuck := by
      refine (congrArg (fun b => p.jn[j].det.stuck.set d.val b d.isLt) ?_).trans (Vector.set_getElem_self (hi := d.isLt))
      exact (Bool.eq_false_iff.mpr free).symm
    exact ⟨by rw [same], (List.append_nil _).symm⟩

theorem ceasing_none {old : Vector DetFn 24} {D : Detectors} {d : DetIdx} (drops : dropsTiming old D.map d = false) :
    ceasing old D [d] = [] := List.filter_cons_of_neg (by rw [drops]; exact Bool.noConfusion)

theorem Remapped.same (e : Env) (j : JIdx) {old : Vector DetFn 24} (p : Plant) {d : DetIdx}
    (drops : dropsTiming old p.jn[j].det.map d = false) (gains : gainsTiming old p.jn[j].det.map d = false) :
    Remapped e j old [d] p p where
  only := .refl p
  frame := rfl
  within i hi := by
    obtain rfl := List.mem_singleton.mp hi
    exact ⟨fun h => absurd (drops.symm.trans h) Bool.noConfusion, fun h => absurd (gains.symm.trans h) Bool.noConfusion,
      fun _ _ => ⟨rfl, rfl⟩⟩
  outside _ _ := ⟨rfl, rfl⟩
  raised := by rw [ceasing_none drops, List.map_nil, List.append_nil]

/-- R78, R79: a detector becomes timed. -/
theorem Remapped.gained (e : Env) (j : JIdx) {old : Vector DetFn 24} (p : Plant) {d : DetIdx}
    (gains : gainsTiming old p.jn[j].det.map d = true) (drops : dropsTiming old p.jn[j].det.map d = false) :
    Remapped e j old [d] p (if p.jn[j].det.rowsValid && p.jn[j].det.rows[d] then
      p.updDet j fun D => { D with timers := D.timers.set d (some e.now) } else p) := by
  have none : p.raised = p.raised ++ (ceasing old p.jn[j].det [d]).map fun d => .cleared j d .map := by
    rw [ceasing_none drops, List.map_nil, List.append_nil]
  split
  · rename_i occupied
    have det := updDet_at p j fun D => { D with timers := D.timers.set d (some e.now) }
    refine ⟨updDet_detOnly .., by rw [det], fun i hi => ?_, fun i hi => ?_, none⟩
    · obtain rfl := List.mem_singleton.mp hi
      rw [det]
      refine ⟨fun h => absurd (drops.symm.trans h) Bool.noConfusion, fun _ => ⟨?_, rfl⟩,
        fun _ h => absurd (h.symm.trans gains) Bool.noConfusion⟩
      rw [if_pos (by simpa using occupied)]
      exact Vector.getElem_set_self ..
    · rw [det]
      exact ⟨Vector.getElem_set_ne d.isLt i.isLt fun same => hi (List.mem_singleton.mpr (Fin.ext same.symm)), rfl⟩
  · rename_i idle
    refine ⟨.refl p, rfl, fun i hi => ?_, fun _ _ => ⟨rfl, rfl⟩, none⟩
    obtain rfl := List.mem_singleton.mp hi
    refine ⟨fun h => absurd (drops.symm.trans h) Bool.noConfusion, fun _ => ⟨?_, rfl⟩,
      fun _ h => absurd (h.symm.trans gains) Bool.noConfusion⟩
    rw [if_neg (by simpa using idle)]

/-- R78, R87: a detector is timed no more. -/
theorem Remapped.dropped (e : Env) (j : JIdx) {old : Vector DetFn 24} (p : Plant) {d : DetIdx}
    (drops : dropsTiming old p.jn[j].det.map d = true) (gains : gainsTiming old p.jn[j].det.map d = false) :
    Remapped e j old [d] p ((p.updDet j fun D => { D with timers := D.timers.set d none }).ceaseStuck j .map d) := by
  have det := updDet_at p j fun D => { D with timers := D.timers.set d none }
  have only := updDet_detOnly p j fun D => { D with timers := D.timers.set d none }
  have silent : (p.updDet j fun D => { D with timers := D.timers.set d none }).raised = p.raised := rfl
  generalize (p.updDet j fun D => { D with timers := D.timers.set d none }) = q at det only silent ⊢
  obtain ⟨ceased, raised⟩ := q.ceaseStuck_det j .map d
  rw [det] at ceased raised
  refine ⟨only.trans (ceaseStuck_detOnly ..), by rw [ceased], fun i hi => ?_, fun i hi => ?_, ?_⟩
  · obtain rfl := List.mem_singleton.mp hi
    rw [ceased]
    exact ⟨fun _ => ⟨Vector.getElem_set_self .., Vector.getElem_set_self ..⟩,
      fun h => absurd (gains.symm.trans h) Bool.noConfusion, fun h => absurd (h.symm.trans drops) Bool.noConfusion⟩
  · have apart : d.val ≠ i.val := fun same => hi (List.mem_singleton.mpr (Fin.ext same.symm))
    rw [ceased]
    exact ⟨Vector.getElem_set_ne d.isLt i.isLt apart, Vector.getElem_set_ne d.isLt i.isLt apart⟩
  · rw [raised, silent]
    by_cases stuck : p.jn[j].det.stuck[d] = true
    · rw [if_pos stuck, ceasing, List.filter_cons_of_pos (by rw [drops, stuck]; rfl)]
      rfl
    · rw [if_neg stuck, ceasing, List.filter_cons_of_neg (by rw [drops]; simpa using stuck)]
      rfl

theorem remapOne_remapped (e : Env) (j : JIdx) (old : Vector DetFn 24) (p : Plant) (d : DetIdx) :
    Remapped e j old [d] p (remapOne e j old p d) := by
  unfold remapOne
  cases before : old[d].timed <;> cases after : p.jn[j].det.map[d].timed <;> simp only [before, after]
  · exact .same e j p (by rw [dropsTiming, before]; rfl) (by rw [gainsTiming, before, after]; rfl)
  · exact .gained e j p (by rw [gainsTiming, before, after]; rfl) (by rw [dropsTiming, before]; rfl)
  · exact .dropped e j p (by rw [dropsTiming, before, after]; rfl) (by rw [gainsTiming, before]; rfl)
  · exact .same e j p (by rw [dropsTiming, before, after]; rfl) (by rw [gainsTiming, before]; rfl)

/-- One more detector takes its new function. -/
theorem Remapped.cons {e : Env} {j : JIdx} {old : Vector DetFn 24} {d : DetIdx} {l : List DetIdx} {p q r : Plant}
    (h : Remapped e j old [d] p q) (g : Remapped e j old l q r) (new : d ∉ l) : Remapped e j old (d :: l) p r := by
  have map : q.jn[j].det.map = p.jn[j].det.map := (congrArg Detectors.map h.frame :)
  have valid : q.jn[j].det.rowsValid = p.jn[j].det.rowsValid := (congrArg Detectors.rowsValid h.frame :)
  have rows : q.jn[j].det.rows = p.jn[j].det.rows := (congrArg Detectors.rows h.frame :)
  have other (i : DetIdx) (hi : i ∈ l) := h.outside i fun same => new (List.mem_singleton.mp same ▸ hi)
  refine ⟨h.only.trans g.only, ?_, fun i hi => ?_, fun i hi => ?_, ?_⟩
  · rw [g.frame, h.frame]
  · rcases List.mem_cons.mp hi with rfl | hi
    · obtain ⟨drops, gains, keeps⟩ := h.within i (List.mem_singleton.mpr rfl)
      obtain ⟨timer, stuck⟩ := g.outside i new
      exact ⟨fun c => by rw [timer, stuck]; exact drops c, fun c => by rw [timer, stuck]; exact gains c,
        fun c d => by rw [timer, stuck]; exact keeps c d⟩
    · obtain ⟨drops, gains, keeps⟩ := g.within i hi
      obtain ⟨timer, stuck⟩ := other i hi
      rw [map, timer, stuck] at keeps
      rw [map, valid, rows, timer, stuck] at gains
      rw [map] at drops
      exact ⟨drops, gains, keeps⟩
  · obtain ⟨here, there⟩ := not_or.mp fun h => hi (List.mem_cons.mpr h)
    obtain ⟨timer, stuck⟩ := g.outside i there
    obtain ⟨timer', stuck'⟩ := h.outside i fun same => here (List.mem_singleton.mp same)
    exact ⟨timer.trans timer', stuck.trans stuck'⟩
  · have later : ceasing old q.jn[j].det l = ceasing old p.jn[j].det l :=
      List.filter_congr fun i hi => by rw [map, (other i hi).2]
    rw [g.raised, h.raised, later, List.append_assoc, ← List.map_append]
    exact congrArg (fun ds => p.raised ++ List.map (fun d => Notice.cleared j d .map) ds) (List.filter_append [d] l).symm

/-- R78: the detectors of a list take their new functions. -/
theorem remap_remapped (e : Env) (j : JIdx) (old : Vector DetFn 24) : ∀ (l : List DetIdx), l.Nodup → ∀ p : Plant,
    Remapped e j old l p (l.foldl (remapOne e j old) p)
  | [], _, p => ⟨.refl p, rfl, fun _ h => absurd h List.not_mem_nil, fun _ _ => ⟨rfl, rfl⟩, (List.append_nil _).symm⟩
  | d :: l, distinct, p => by
    obtain ⟨new, distinct⟩ := List.nodup_cons.mp distinct
    exact (remapOne_remapped e j old p d).cons (remap_remapped e j old l distinct _) new

/-- R146: the probe after a map is applied. -/
def remappedProbe (old map : Vector DetFn 24) (J : Junction) : Junction :=
  let off := { J with guard := { J.guard with probe := .off } }
  match J.guard.probe with
  | .armed w => if old[w] = map[w] then J else off
  | .measuring w _ _ => if old[w] = map[w] then J else off
  | .off | .done | .spilled => J

theorem remappedProbe_eq (old map : Vector DetFn 24) (J : Junction) :
    remappedProbe old map J = { J with guard := { J.guard with probe := (remappedProbe old map J).guard.probe } } := by
  unfold remappedProbe
  split
  · split <;> rfl
  · split <;> rfl
  all_goals rfl

theorem remappedProbe_passive {old map : Vector DetFn 24} {J : Junction} (passive : J.guard.probe.active = false) :
    remappedProbe old map J = J := by
  unfold remappedProbe
  cases probe : J.guard.probe with
  | armed w => rw [probe] at passive; exact Bool.noConfusion passive
  | measuring w a b => rw [probe] at passive; exact Bool.noConfusion passive
  | off => rfl
  | done => rfl
  | spilled => rfl

/-- R78: a map applied outside coordination. -/
theorem applyMap_apart (e : Env) (p : Plant) (j : JIdx) (m : Vector DetFn 24) (apart : p.jn[j].state.coordinated = false) :
    ∃ q, Remapped e j p.jn[j].det.map (List.finRange 24) (p.updDet j fun D => { D with map := m, stagedMap := none }) q ∧
      p.applyMap e j m = q.upd j (remappedProbe p.jn[j].det.map m) := by
  have remapped := remap_remapped e j p.jn[j].det.map (List.finRange 24) (List.nodup_finRange 24)
    (p.updDet j fun D => { D with map := m, stagedMap := none })
  refine ⟨_, remapped, ?_⟩
  have state : ((List.finRange 24).foldl (remapOne e j p.jn[j].det.map)
      (p.updDet j fun D => { D with map := m, stagedMap := none })).jn[j].state.coordinated = false := by
    rw [remapped.only.state, (updDet_detOnly p j _).state]
    exact apart
  simp only [applyMap, state, Bool.false_eq_true, if_false]
  rfl

end Plant

/-! ## Notices that find room (R190) -/

namespace HostPort

/-- An answer taken out leaves the notices. -/
theorem notices_eraseP : ∀ l : List OutFrame, (l.eraseP fun g => g.kind == .answer).filter (fun g => g.kind == .notice) =
    l.filter fun g => g.kind == .notice
  | [] => rfl
  | f :: l => by
    by_cases answer : f.kind = .answer
    · rw [List.eraseP_cons_of_pos (by simp [answer]), List.filter_cons_of_neg (by simp [answer])]
    · rw [List.eraseP_cons_of_neg (by simp [answer]), List.filter_cons, List.filter_cons, notices_eraseP l]

/-- R187: an idle line takes a frame, and the notices stay in order. -/
theorem pick_notices_same (h : HostPort) : h.pick.notices = h.notices := by
  unfold pick
  split
  · rfl
  · rfl
  · rename_i idle _
    split
    · rename_i f found
      have answer : f.kind = .answer := by simpa using List.find?_some found
      simp [notices, idle, answer, notices_eraseP]
    · split
      · rfl
      · rename_i f rest queued
        simp [notices, idle, queued]

theorem choose_notices_same (h : HostPort) : h.choose.notices = h.notices := by
  rcases h.choose_cases with ⟨-, same⟩ | ⟨-, same⟩ <;> rw [same]
  exact h.pick_notices_same

end HostPort

namespace State

/-- R190: notices of classes that are ARMED and not PAUSED join the queue while there is room. -/
theorem foldl_offer_room (k : Nat) : ∀ (ns : List Notice) (s : State),
    (∀ n ∈ ns, hasClass s.report.armed n.cls = true ∧ hasClass s.report.paused n.cls = false) →
    s.host.frames + ns.length + k ≤ 16 →
    ns.foldl (State.offer k) s = { s with host := { s.host with queue := s.host.queue ++ ns.map noticeFrame } }
  | [], s, _, _ => by rw [List.map_nil, List.append_nil]; rfl
  | n :: ns, s, classes, room => by
    obtain ⟨armed, heard⟩ := classes n List.mem_cons_self
    have here : s.host.room k = true := decide_eq_true (by simp only [List.length_cons] at room; show _ < 16; omega)
    have first : s.offer k n = { s with host := s.host.enqueue (noticeFrame n) } := by
      rw [offer, if_pos armed, if_pos (by rw [heard, here]; rfl)]
    have frames := s.host.enqueue_frames (noticeFrame n)
    have rest := foldl_offer_room k ns { s with host := s.host.enqueue (noticeFrame n) }
      (fun x hx => classes x (List.mem_cons_of_mem n hx)) (by
        rw [List.length_cons] at room
        show (s.host.enqueue (noticeFrame n)).frames + ns.length + k ≤ 16
        omega)
    rw [List.foldl_cons, first, rest]
    simp only [HostPort.enqueue, List.append_assoc, List.map_cons, List.singleton_append]

/-- R190: the same for the notices of a command. -/
theorem offerAll_room (k : Nat) (s : State)
    (classes : ∀ n ∈ s.plant.raised, hasClass s.report.armed n.cls = true ∧ hasClass s.report.paused n.cls = false)
    (room : s.host.frames + s.plant.raised.length + k ≤ 16) : (s.offerAll k).host.queue = s.host.queue ++ s.plant.raised.map noticeFrame ∧
      (s.offerAll k).host.leaving = s.host.leaving := by
  have offered := foldl_offer_room k s.plant.raised { s with plant := { s.plant with raised := [] } } classes room
  rw [offerAll, offered]
  exact ⟨rfl, rfl⟩

end State

end Sys2Proof.Machine
end

section
/-! The statement on MAP DETECTORS, O34. -/

namespace Sys2Proof.Machine

open Sys2Proof

namespace State

/-- R185, R190: the host port after a directive: the notices of its owner, then its answer. -/
theorem Takes.take_host {s : State} {tag code : Byte} {body : List Byte} (takes : s.Takes tag code body) {f : Handler} {u : State}
    {a : Answer} (handled : f body s.popIntake = (u, a)) :
    (s.take code f).host = ((u.offerAll 1).host.enqueue (answerFrame tag code a.body)).choose := by
  rw [take, takes.takeThen_eq]
  simp only [handle, handled]
  rfl

/-- R190: notices of classes that are ARMED and not PAUSED stand in the queue, while there is room. -/
theorem Takes.take_notices {s : State} {tag code : Byte} {body : List Byte} (takes : s.Takes tag code body) {f : Handler} {u : State}
    {a : Answer} (handled : f body s.popIntake = (u, a)) (host : u.host = s.popIntake.host) (report : u.report = s.report)
    (classes : ∀ n ∈ u.plant.raised, hasClass s.report.armed n.cls = true ∧ hasClass s.report.paused n.cls = false)
    (room : s.host.frames + u.plant.raised.length < 16) :
    (s.take code f).host.notices = s.host.notices ++ u.plant.raised.map noticeFrame := by
  have frames : u.host.frames = s.host.frames := by rw [host]; rfl
  obtain ⟨queue, leaving⟩ := offerAll_room 1 u (by rw [report]; exact classes) (by rw [frames]; omega)
  have all : ∀ g ∈ u.plant.raised.map noticeFrame, (g.kind == OutKind.notice) = true := by
    intro g hg
    obtain ⟨n, -, rfl⟩ := List.mem_map.mp hg
    rfl
  have answer : ((answerFrame tag code a.body).kind == OutKind.notice) = false := rfl
  rw [takes.take_host handled, HostPort.choose_notices_same]
  simp only [HostPort.notices, HostPort.enqueue_queue, HostPort.enqueue_leaving, queue, leaving, List.filter_append, host,
    List.filter_eq_self.mpr all, List.filter_cons, answer, Bool.false_eq_true, if_false,
    List.filter_nil, List.append_nil, ← List.append_assoc]
  rfl

end State

theorem DetFn.timed_eq_false_iff (f : DetFn) : f.timed = false ↔ f = .none := by cases f <;> decide +revert

/-- R78: which detectors a map frees of their STUCK mark. -/
theorem dropsTiming_iff (old map : Vector DetFn 24) (d : DetIdx) :
    dropsTiming old map d = true ↔ old[d] ≠ .none ∧ map[d] = .none := by
  rw [dropsTiming, Bool.and_eq_true, Bool.not_eq_true', DetFn.timed_eq_false_iff, ← Bool.not_eq_false, DetFn.timed_eq_false_iff]

theorem gainsTiming_iff (old map : Vector DetFn 24) (d : DetIdx) :
    gainsTiming old map d = true ↔ old[d] = .none ∧ map[d] ≠ .none := by
  rw [gainsTiming, Bool.and_eq_true, Bool.not_eq_true', DetFn.timed_eq_false_iff, ← Bool.not_eq_false, DetFn.timed_eq_false_iff]

/-- R77, R78: MAP DETECTORS at a junction that is not coordinated. -/
theorem State.Takes.mapApplied {s : State} {tag : Byte} {j : JIdx} {body : List Byte} {m : Vector DetFn 24}
    (takes : s.Takes tag 0x30 body) (handled : State.mapDetectors body s.popIntake = State.takeMap j m s.popIntake)
    (apart : s.plant.jn[j].state.coordinated = false) :
    let D := s.plant.jn[j].det
    let drops (d : DetIdx) : Prop := D.map[d] ≠ .none ∧ m[d] = .none
    let takesUp (d : DetIdx) : Prop := D.map[d] = .none ∧ m[d] ≠ .none
    let ceased := (List.finRange 24).filter fun d : DetIdx => decide (D.map[d] ≠ .none ∧ m[d] = .none ∧ D.stuck[d] = true)
    ∃ t, exec .mapDetectors s = .next t ∧ s.Answered t tag 0x30 [1, 1] ∧
      t.plant.jn[j].det =
        { D with map := m, stagedMap := none, timers := t.plant.jn[j].det.timers, stuck := t.plant.jn[j].det.stuck } ∧
      (∀ d : DetIdx,
        (drops d → t.plant.jn[j].det.timers[d] = none ∧ t.plant.jn[j].det.stuck[d] = false) ∧
        (takesUp d → t.plant.jn[j].det.stuck[d] = D.stuck[d] ∧
          t.plant.jn[j].det.timers[d] = if D.rowsValid = true ∧ D.rows[d] = true then some s.now else D.timers[d]) ∧
        (¬drops d → ¬takesUp d → t.plant.jn[j].det.timers[d] = D.timers[d] ∧
          t.plant.jn[j].det.stuck[d] = D.stuck[d])) ∧
      (hasClass s.report.armed .detector = true → hasClass s.report.paused .detector = false →
        s.host.frames + ceased.length < 16 →
        t.host.notices = s.host.notices ++ ceased.map fun d => noticeFrame (.cleared j d .map)) ∧
      (s.plant.jn[j].guard.probe.active = false →
        t.plant.jn[j] = { s.plant.jn[j] with det := t.plant.jn[j].det }) ∧
      t.plant.jn[j].state = s.plant.jn[j].state ∧ s.plant.OthersSame t.plant j ∧ t.plant.pool = s.plant.pool ∧
      t.plant.free = s.plant.free ∧ t.plant.req = s.plant.req ∧ t.plant.arrivals = s.plant.arrivals ∧ t.tb = s.tb ∧
      t.script = s.script ∧ t.now = s.now := by
  intro D drops takesUp ceased
  have taken : exec .mapDetectors s = .next (s.take 0x30 State.mapDetectors) := rfl
  obtain ⟨q, remapped, applied⟩ := s.plant.applyMap_apart s.env j m apart
  let p := s.plant.updDet j fun D => { D with map := m, stagedMap := none }
  have det : p.jn[j].det = { D with map := m, stagedMap := none } := Plant.updDet_at ..
  have first := s.plant.updDet_detOnly j fun D => { D with map := m, stagedMap := none }
  have map : p.jn[j].det.map = m := by rw [det]
  obtain ⟨only, frame, within, -, raised⟩ := remapped
  have all := first.trans only
  let r := q.upd j (Plant.remappedProbe D.map m)
  have probe := Plant.remappedProbe_eq D.map m q.jn[j]
  have here : r.jn[j] = Plant.remappedProbe D.map m q.jn[j] := Plant.upd_at ..
  have made := handled.trans ((if_neg (Bool.eq_false_iff.mp apart)).trans
    (congrArg (fun p => (({ s.popIntake with plant := p } : State), Answer.done [State.appliedCode false])) applied))
  obtain ⟨answered, plant, tb, script, now⟩ := takes.outcome made rfl
  have result : (s.take 0x30 State.mapDetectors).plant = { r with raised := [] } := plant
  have junction : (s.take 0x30 State.mapDetectors).plant.jn[j] = Plant.remappedProbe D.map m q.jn[j] :=
    (congrArg (fun p : Plant => p.jn[j]) result).trans here
  have detectors : (s.take 0x30 State.mapDetectors).plant.jn[j].det = q.jn[j].det :=
    (congrArg Junction.det junction).trans (congrArg Junction.det probe :)
  have notices : r.raised = ceased.map fun d => .cleared j d .map := by
    have same : Plant.ceasing D.map p.jn[j].det (List.finRange 24) = ceased := by
      refine List.filter_congr fun d _ => ?_
      rw [map, Bool.eq_iff_iff, Bool.and_eq_true, dropsTiming_iff, decide_eq_true_iff, and_assoc, det]
    rw [show r.raised = q.raised from rfl, raised, same, show p.raised = [] from takes.quiet]
    rfl
  refine ⟨_, taken, answered, ?_, fun d => ?_, fun armed heard room => ?_, fun passive => ?_, ?_, ?_, ?_, ?_, ?_, ?_, tb, script, now⟩
  · rw [detectors, frame, det]
  · obtain ⟨dropped, gained, kept⟩ := within d (List.mem_finRange d)
    rw [map, dropsTiming_iff] at dropped
    rw [map, gainsTiming_iff, det] at gained
    rw [map, ← Bool.not_eq_true, dropsTiming_iff, ← Bool.not_eq_true, gainsTiming_iff, det] at kept
    rw [detectors]
    exact ⟨dropped, fun h => ⟨(gained h).2, (gained h).1⟩, kept⟩
  · rw [takes.take_notices made rfl rfl ?_ ?_]
    · exact congrArg (s.host.notices ++ ·) ((congrArg (List.map noticeFrame) notices).trans (List.map_map ..))
    · intro n hn
      rw [show _ = ceased.map _ from notices] at hn
      obtain ⟨d, -, rfl⟩ := List.mem_map.mp hn
      exact ⟨armed, heard⟩
    · rw [show _ = ceased.map _ from notices, List.length_map]
      exact room
  · have silent : q.jn[j].guard.probe.active = false :=
      (congrArg (fun J : Junction => J.guard.probe.active) all.junction).trans passive
    rw [junction, Plant.remappedProbe_passive silent]
    exact all.junction
  · exact (congrArg Junction.state junction).trans ((congrArg Junction.state probe :).trans all.state)
  · rw [result]
    exact all.others.trans (Plant.othersSame_upd q j _)
  · exact (congrArg Plant.pool result).trans all.pool
  · exact (congrArg Plant.free result).trans all.free
  · exact (congrArg Plant.req result).trans all.req
  · exact (congrArg Plant.arrivals result).trans all.arrivals

/-- The fields of a body behind its first byte, as numbers. -/
theorem getD_bodyNats (b : Byte) (rest : List Byte) (i : Nat) : ((b :: rest).getD (i + 1) 0).toNat = (bodyNats rest).getD i 0 := by
  rw [List.getD_cons_succ, bodyNats, List.getD_eq_getElem?_getD, List.getD_eq_getElem?_getD, List.getElem?_map]
  cases rest[i]? <;> rfl

namespace State

/-- R77: a wrong length, a junction index above 11 and an undefined function code are refused with FORM. -/
theorem mapDetectors_form (s : State) (body : List Byte) (bad : body.length ≠ 49 ∨ 11 < (body.getD 0 0).toNat ∨
    ∃ d : DetIdx, 5 < (body.getD (2 * d.val + 1) 0).toNat) : State.mapDetectors body s = refuse s .form := by
  cases body with
  | nil => rfl
  | cons b rest =>
    by_cases index : b.toNat < 12
    · have place : idx? 12 b.toNat = some (⟨b.toNat, index⟩ : JIdx) := dif_pos index
      have fields : (bodyNats rest).length ≠ 48 ∨ mapCodesDefined (bodyNats rest) = false := by
        rcases bad with long | high | ⟨d, code⟩
        · exact .inl fun same => long (by rw [bodyNats, List.length_map] at same; rw [List.length_cons, same])
        · exact absurd high (by rw [List.getD_cons_zero]; omega)
        · refine .inr (Bool.eq_false_iff.mpr fun defined => ?_)
          rw [getD_bodyNats] at code
          exact absurd ((mapCodesDefined_iff _).mp defined d) (Nat.not_le.mpr code)
      simp only [State.mapDetectors, bodyNats_cons, place, if_pos fields]
    · have place : idx? 12 b.toNat = (none : Option JIdx) := dif_neg index
      simp only [State.mapDetectors, bodyNats_cons, place]

/-- R77: a stage out of range, of a function that carries one. -/
theorem detFn?_badStage {code stage : Nat} (low : 1 ≤ code) (high : code ≤ 3) (out : ¬(1 ≤ stage ∧ stage ≤ 8)) :
    detFn? code stage = none := by
  have none : Stage.ofNum? stage = Option.none := dif_neg out
  obtain rfl | rfl | rfl : code = 1 ∨ code = 2 ∨ code = 3 := by omega
  all_goals exact (congrArg (Option.map _) none).trans rfl

/-- R77: such a stage is refused with RANGE. -/
theorem mapDetectors_range (s : State) (body : List Byte) (long : body.length = 49) (index : (body.getD 0 0).toNat ≤ 11)
    (defined : ∀ d : DetIdx, (body.getD (2 * d.val + 1) 0).toNat ≤ 5)
    (out : ∃ d : DetIdx, 1 ≤ (body.getD (2 * d.val + 1) 0).toNat ∧ (body.getD (2 * d.val + 1) 0).toNat ≤ 3 ∧
      ¬(1 ≤ (body.getD (2 * d.val + 2) 0).toNat ∧ (body.getD (2 * d.val + 2) 0).toNat ≤ 8)) :
    State.mapDetectors body s = refuse s .range := by
  cases body with
  | nil => exact absurd long (by decide)
  | cons b rest =>
    have place : idx? 12 b.toNat = some (⟨b.toNat, Nat.lt_succ_of_le index⟩ : JIdx) := dif_pos _
    have fields : ¬((bodyNats rest).length ≠ 48 ∨ mapCodesDefined (bodyNats rest) = false) := by
      refine not_or.mpr ⟨not_not.mpr ?_, Bool.not_eq_false _ ▸ (mapCodesDefined_iff _).mpr fun d => ?_⟩
      · rw [bodyNats, List.length_map]
        exact Nat.succ_injective long
      · rw [← getD_bodyNats b]
        exact defined d
    have unread : ¬((mapBody (bodyNats rest)).toList.all Option.isSome) = true := by
      intro all
      obtain ⟨d, low, high, stage⟩ := out
      rw [getD_bodyNats] at low high
      rw [show 2 * d.val + 2 = 2 * d.val + 1 + 1 from rfl, getD_bodyNats] at stage
      have some := List.all_eq_true.mp all _ (Vector.mem_toList_iff.mpr (Vector.getElem_mem d.isLt))
      rw [mapBody, Vector.getElem_ofFn, detFn?_badStage low high stage] at some
      exact Bool.noConfusion some
    simp only [State.mapDetectors, bodyNats_cons, place, if_neg fields, if_neg unread]

end State

/-- Settles O34. -/
theorem detectorMapIsTaken : Obligations.DetectorMapIsTaken := by
  refine ⟨?_, ?_⟩
  · intro s tag j m spare takes twice
    have taken : exec .mapDetectors s = .next (s.take 0x30 State.mapDetectors) := rfl
    have body := s.popIntake.mapDetectors_functions j m spare
    refine ⟨fun exits => ?_, fun entry exit => ?_⟩
    · have bad : ¬State.exitsGood m = true := fun good =>
        exits.elim ((State.exitsGood_iff m).mp good).1 ((State.exitsGood_iff m).mp good).2
      exact taken.trans (congrArg Host.Outcome.next (takes.take_same _ (.refused .range) (body.trans (if_neg bad))))
    · have handled := body.trans (if_pos ((State.exitsGood_iff m).mpr ⟨entry, exit⟩))
      refine ⟨fun coordinated => ?_, fun apart => takes.mapApplied handled apart⟩
      exact taken.trans (congrArg Host.Outcome.next (takes.take_of (handled.trans (if_pos coordinated)) takes.quiet rfl))
  · intro s tag body takes code stage
    have taken : exec .mapDetectors s = .next (s.take 0x30 State.mapDetectors) := rfl
    exact ⟨fun bad => taken.trans (congrArg Host.Outcome.next (takes.take_same _ (.refused .form) (State.mapDetectors_form _ body bad))),
      fun long index defined out => taken.trans (congrArg Host.Outcome.next
        (takes.take_same _ (.refused .range) (State.mapDetectors_range _ body long index defined out)))⟩

end Sys2Proof.Machine
end

section
/-! SUPPORT. The checks of a trial C over the corridor (R6, R8, R16), and master zero (R2). The statement O20. -/

namespace Sys2Proof.Machine

open Sys2Proof

/-! ## The feasibility sum (R16) -/

/-- What the feasibility sum reads of an entry. -/
structure SumSame (x y : Entry) : Prop where
  role : y.role = x.role
  split : y.split = x.split
  minimum : y.minimum = x.minimum
  counts : countsInSum y = countsInSum x

theorem bandSplit_map {g : Entry → Entry} (same : ∀ x, SumSame x (g x)) : ∀ es : List Entry, bandSplit (es.map g) = bandSplit es
  | [] => rfl
  | x :: es => by
    have rest := bandSplit_map same es
    unfold bandSplit at rest ⊢
    by_cases band : x.role = .band
    · rw [List.map_cons, List.find?_cons_of_pos (by rw [(same x).role, band]; rfl), List.find?_cons_of_pos (by rw [band]; rfl)]
      exact (same x).split
    · rw [List.map_cons, List.find?_cons_of_neg (by rw [(same x).role]; simpa using band), List.find?_cons_of_neg (by simpa using band)]
      exact rest

/-- R16: the sum depends on the roles, the splits, the minima and the entries that count. -/
theorem feasibilitySum_map {g : Entry → Entry} (same : ∀ x, SumSame x (g x)) (es : List Entry) (a : Nat) :
    feasibilitySum (es.map g) a = feasibilitySum es a := by
  have counted : (es.map g).filter countsInSum = (es.filter countsInSum).map g := by
    rw [List.filter_map]
    exact congrArg (List.map g) (List.filter_congr fun x _ => (same x).counts)
  simp only [feasibilitySum, bandSplit_map same, counted, List.map_map, Function.comp_def, (same _).minimum]

theorem Entry.tick_sumSame (x : Entry) : SumSame x x.tick := by
  unfold Entry.tick
  split <;> exact ⟨rfl, rfl, rfl, rfl⟩

namespace Plant

theorem tick_chainEntries (p : Plant) (j : JIdx) : p.tick.chainEntries j = (p.chainEntries j).map Entry.tick := by
  have chain : p.tick.jn[j].chain = p.jn[j].chain := by
    rw [tick_jn]
    unfold Junction.tick
    split <;> rfl
  simp only [chainEntries, chain, List.map_map, tick_pool, Function.comp_def]

/-! ## The junctions that fail a test (R6, R8, R158) -/

theorem present_iff (st : JState) : st.present = true ↔ st ≠ .absent := by cases st <;> simp [JState.present]

theorem firstFailing_eq_none_iff (p : Plant) (fails : JIdx → Bool) :
    p.firstFailing fails = none ↔ ∀ j : JIdx, p.jn[j].state ≠ .absent → fails j = false := by
  simp only [firstFailing, List.find?_eq_none, List.mem_finRange, forall_const, Bool.and_eq_true, present_iff, not_and,
    Bool.not_eq_true]

theorem planFeasible_iff (p : Plant) (j : JIdx) (c : Nat) : p.planFeasible j c = true ↔
    feasibilitySum (p.chainEntries j) p.jn[j].plan.a * p.jn[j].plan.mult ≤ c := decide_eq_true_iff

/-- A junction whose plan a trial C does not allow (R6, R158). -/
def TrialFails (p : Plant) (c : Nat) (j : JIdx) : Prop :=
  p.jn[j].state ≠ .absent ∧ ((c % 2 = 1 ∧ p.jn[j].plan.mult = 2) ∨ c ≤ p.jn[j].plan.offset * p.jn[j].plan.mult ∨
    c < feasibilitySum (p.chainEntries j) p.jn[j].plan.a * p.jn[j].plan.mult)

end Plant

/-- R8: a staged set passes its checks if no present junction fails its C. -/
theorem State.corridorFault_eq_none_iff (p : Plant) (c : Nat) : State.corridorFault p c = none ↔ ∀ j, ¬p.TrialFails c j := by
  have parity := p.firstFailing_eq_none_iff fun j => decide (c % 2 = 1) && decide (p.jn[j].plan.mult = 2)
  have offset := p.firstFailing_eq_none_iff fun j => decide (c ≤ p.jn[j].plan.offset * p.jn[j].plan.mult)
  have fits := p.firstFailing_eq_none_iff fun j => !p.planFeasible j c
  simp only [Bool.and_eq_false_imp, decide_eq_true_eq, decide_eq_false_iff_not, Bool.not_eq_false', Plant.planFeasible_iff] at parity offset fits
  have all : (∀ j, ¬p.TrialFails c j) ↔ (∀ j : JIdx, p.jn[j].state ≠ .absent → c % 2 = 1 → ¬p.jn[j].plan.mult = 2) ∧
      (∀ j : JIdx, p.jn[j].state ≠ .absent → ¬c ≤ p.jn[j].plan.offset * p.jn[j].plan.mult) ∧
      ∀ j : JIdx, p.jn[j].state ≠ .absent → feasibilitySum (p.chainEntries j) p.jn[j].plan.a * p.jn[j].plan.mult ≤ c := by
    simp only [Plant.TrialFails, not_and, not_or, Nat.not_lt, ← forall_and, ← imp_and]
  rw [all, ← parity, ← offset, ← fits, corridorFault]
  cases p.firstFailing fun j => decide (c % 2 = 1) && decide (p.jn[j].plan.mult = 2) with
  | some j => exact ⟨fun h => (nomatch h), fun h => (nomatch h.1)⟩
  | none =>
    cases p.firstFailing fun j => decide (c ≤ p.jn[j].plan.offset * p.jn[j].plan.mult) with
    | some j => exact ⟨fun h => (nomatch h), fun h => (nomatch h.2.1)⟩
    | none => exact ⟨fun h => ⟨rfl, rfl, Option.map_eq_none_iff.mp h⟩, fun h => Option.map_eq_none_iff.mpr h.2.2⟩

namespace State

/-! ## Corridor values applied (R6, R8, R9, R10) -/

theorem setCorridor_plan (s : State) (c : Nat) (d : Direction) (j : JIdx) :
    (s.setCorridor c d).plant.jn[j].plan = s.plant.jn[j].plan ∧ (s.setCorridor c d).plant.jn[j].state = s.plant.jn[j].state := by
  have off (J : Junction) : J.probeOff.plan = J.plan ∧ J.probeOff.state = J.state := by
    unfold Junction.probeOff
    split <;> exact ⟨rfl, rfl⟩
  have at_ : s.plant.directionChanged.jn[j] = s.plant.jn[j].probeOff := Vector.getElem_map ..
  unfold setCorridor
  split
  · exact ⟨rfl, rfl⟩
  · rw [show (({ s with tb := { s.tb with c := c, dir := d }, plant := s.plant.directionChanged } : State)).plant.jn[j] =
      s.plant.jn[j].probeOff from at_]
    exact off _

theorem setCorridor_tb (s : State) (c : Nat) (d : Direction) : (s.setCorridor c d).tb = { s.tb with c := c, dir := d } := rfl

theorem writeWait_at (p : Plant) (wait : Nat) (j : JIdx) : (writeWait p wait).jn[j] =
    if p.jn[j].state = .absent then p.jn[j] else { p.jn[j] with plan := { p.jn[j].plan with wait := wait } } := by
  have at_ : (writeWait p wait).jn[j] =
      if p.jn[j].state.present then { p.jn[j] with plan := { p.jn[j].plan with wait := wait } } else p.jn[j] := Vector.getElem_map ..
  rw [at_]
  by_cases absent : p.jn[j].state = .absent
  · rw [if_pos absent, if_neg (by rw [absent]; decide)]
  · rw [if_neg absent, if_pos ((Plant.present_iff _).mpr absent)]

/-- R8: a staged corridor set at master zero. -/
theorem stagedCorridorStep_some (s : State) {v : CorridorSet} (staged : s.tb.staged = some v) :
    ((∀ j, ¬s.plant.TrialFails v.c j) → s.stagedCorridorStep.tb = { s.tb with staged := none, c := v.c, dir := v.dir } ∧
      ∀ j : JIdx, s.stagedCorridorStep.plant.jn[j].plan =
        if s.plant.jn[j].state = .absent then s.plant.jn[j].plan else { s.plant.jn[j].plan with wait := v.wait }) ∧
    ((∃ j, s.plant.TrialFails v.c j) → s.stagedCorridorStep.tb = { s.tb with staged := none } ∧
      s.stagedCorridorStep.plant.jn = s.plant.jn) := by
  have check := corridorFault_eq_none_iff s.plant v.c
  simp only [stagedCorridorStep, staged]
  refine ⟨fun passes => ?_, fun fails => ?_⟩
  · simp only [check.mpr passes]
    refine ⟨rfl, fun j => ?_⟩
    obtain ⟨plan, state⟩ := setCorridor_plan { s with tb := { s.tb with staged := none } } v.c v.dir j
    refine (congrArg Junction.plan (writeWait_at _ v.wait j)).trans ?_
    rw [state]
    split
    · exact plan
    · rw [plan]
  · obtain ⟨f, fault⟩ : ∃ f, corridorFault s.plant v.c = some f := Option.ne_none_iff_exists'.mp fun none =>
      let ⟨j, h⟩ := fails
      check.mp none j h
    simp only [fault]
    exact ⟨rfl, rfl⟩

/-! ## Master zero (R2) -/

/-- The state of a master zero before its work: a tenth has passed and m is 0. -/
def zeroed (s : State) : State := { s with now := s.now + 1, plant := s.plant.tick, tb := { s.tb with m := 0 } }

theorem tenth_wraps (s : State) (wraps : 10 * s.tb.c ≤ s.tb.m + 1) : s.tenth = s.zeroed.masterZeroWork := by
  simp only [tenth, wraps, decide_true, if_true]
  rfl

theorem exec_masterZero (s : State) (wraps : 10 * s.tb.c ≤ s.tb.m + 1) : exec .masterZero s = .next s.zeroed.masterZeroWork.finish := by
  rw [← s.tenth_wraps wraps]
  exact congrArg Host.Outcome.next (if_pos (decide_eq_true wraps))

theorem exec_masterPositionAdvance (s : State) (wraps : 10 * s.tb.c ≤ s.tb.m + 1) :
    exec .masterPositionAdvance s = .next s.zeroed.masterZeroWork.finish := by
  rw [← s.tenth_wraps wraps]
  rfl

theorem tryStart_empty (s : State) (none : s.script.notBefore = []) : s.tryStart = s := by simp only [tryStart, none]

theorem countDown_idle (s : State) (q : QueueNo) (idle : s.script.running[q] = false) : s.countDown q = s := by
  simp only [countDown, idle, Bool.false_eq_true, if_false]

theorem stagedCorridorStep_none (s : State) (none : s.tb.staged = Option.none) : s.stagedCorridorStep = s := by
  simp only [stagedCorridorStep, none]

theorem stagedCorridorStep_script (s : State) : s.stagedCorridorStep.script = s.script ∧ s.stagedCorridorStep.now = s.now ∧
    s.stagedCorridorStep.tb.m = s.tb.m ∧ s.stagedCorridorStep.tb.staged = none ∧ s.stagedCorridorStep.tb.corridor = s.tb.corridor ∧
    s.stagedCorridorStep.tb.tod = s.tb.tod := by
  unfold stagedCorridorStep
  split
  · rename_i none
    exact ⟨rfl, rfl, rfl, none, rfl, rfl⟩
  · simp only []
    split <;> exact ⟨rfl, rfl, rfl, rfl, rfl, rfl⟩

end State

/-- R16: a tenth does not change which junctions fail a trial C. -/
theorem Plant.trialFails_tick (p : Plant) (c : Nat) (j : JIdx) : p.tick.TrialFails c j ↔ p.TrialFails c j := by
  have same : p.tick.jn[j].state = p.jn[j].state ∧ p.tick.jn[j].plan = p.jn[j].plan := by
    rw [tick_jn]
    unfold Junction.tick
    split <;> exact ⟨rfl, rfl⟩
  rw [TrialFails, TrialFails, same.1, same.2, tick_chainEntries, feasibilitySum_map Entry.tick_sumSame]

/-- Settles O20. -/
theorem masterZeroTakesStagedSet : Obligations.MasterZeroTakesStagedSet := by
  intro s wraps none idle
  obtain ⟨script, now, m, unstaged, corridor, tod⟩ := s.zeroed.stagedCorridorStep_script
  have work : s.zeroed.masterZeroWork = s.zeroed.stagedCorridorStep := by
    rw [State.masterZeroWork, State.tryStart_empty _ (by rw [script]; exact none),
      State.countDown_idle _ _ (by rw [script]; exact idle)]
  have zero := s.exec_masterZero wraps
  have advance := s.exec_masterPositionAdvance wraps
  rw [work] at zero advance
  have framed := State.finish_eventFrame s.zeroed.stagedCorridorStep
  have plant := State.finish_plant s.zeroed.stagedCorridorStep
  refine ⟨_, zero, advance, (congrArg Timebase.m framed.tb).trans m, framed.now.trans now, (congrArg Timebase.staged framed.tb).trans unstaged,
    (congrArg Timebase.corridor framed.tb).trans corridor, (congrArg Timebase.tod framed.tb).trans tod, fun staged => ?_, fun v staged => ?_⟩
  · rw [framed.tb, State.stagedCorridorStep_none s.zeroed staged]
    exact ⟨rfl, rfl⟩
  · intro fails
    obtain ⟨applied, discarded⟩ := s.zeroed.stagedCorridorStep_some staged
    have same (j : JIdx) := s.plant.trialFails_tick v.c j
    have kept (j : JIdx) : s.zeroed.plant.jn[j].state = s.plant.jn[j].state ∧ s.zeroed.plant.jn[j].plan = s.plant.jn[j].plan := by
      show s.plant.tick.jn[j].state = _ ∧ s.plant.tick.jn[j].plan = _
      rw [Plant.tick_jn]
      unfold Junction.tick
      split <;> exact ⟨rfl, rfl⟩
    rw [framed.tb, plant]
    refine ⟨fun passes => ?_, fun ⟨j, fault⟩ => ?_⟩
    · obtain ⟨tb, plans⟩ := applied fun j h => passes j ((same j).mp h)
      refine ⟨by rw [tb], by rw [tb], fun j => ?_⟩
      refine (plans j).trans ?_
      rw [(kept j).1, (kept j).2]
    · obtain ⟨tb, junctions⟩ := discarded ⟨j, (same j).mpr fault⟩
      refine ⟨by rw [tb]; rfl, by rw [tb]; rfl, fun i => ?_⟩
      exact (congrArg (fun v : Vector Junction 12 => v[i].plan) junctions).trans (kept i).2

end Sys2Proof.Machine
end

section
/-! SUPPORT. The edits of a chain (R29 to R36). The statements O28, O29. -/

namespace Sys2Proof.Machine

open Sys2Proof

/-! ## A chain edit is handed on (R41, R61) -/

namespace Plant

theorem dwellCheck_of_not_dwell (e : Env) {p : Plant} {j : JIdx} (still : p.jn[j].dwell = false) : p.dwellCheck e j = p :=
  if_neg fun h => Bool.false_ne_true (still.symm.trans h.2.2.1)

theorem enterJoining_dwell (p : Plant) (j : JIdx) : (p.enterJoining j).jn[j].dwell = false := by
  have joined : (p.upd j fun J => joinMarks J (p.bandEndPos j)).jn[j].dwell = false :=
    congrArg Junction.dwell (upd_at p j fun J => joinMarks J (p.bandEndPos j))
  have stated := congrArg Junction.dwell (setState_at (p.upd j fun J => joinMarks J (p.bandEndPos j)) j .joining)
  exact (congrArg Junction.dwell (upd_at _ j fun J => { J with det := J.det.setFlags J.det.heldStages })).trans (stated.trans joined)

theorem settle_not_dwell (e : Env) {p : Plant} {j : JIdx} (still : p.jn[j].dwell = false) : (p.settle e j).jn[j].dwell = false := by
  have stated (st : JState) : (p.setState j st).jn[j].dwell = false := by rw [setState_at]; exact still
  unfold settle
  split
  · split
    · exact stated _
    split
    · rw [enterSolo_at]; exact still
    split
    · exact stated _
    split
    · exact enterJoining_dwell p j
    · exact stated _
  all_goals exact still

/-- R41: with no band held in DWELL and no request to accept, a chain edit only settles a LOCAL junction. -/
theorem chainEdited_restated (e : Env) {p : Plant} {j : JIdx} (still : p.jn[j].dwell = false) (none : p.NoCandidate j) :
    p.Restated (p.chainEdited e j) j := by
  have settled := p.settle_restated e j
  have same : p.chainEdited e j = p.settle e j := by
    rw [chainEdited, dwellCheck_of_not_dwell e (settle_not_dwell e still), (none.of_req settled.req).attempts e]
  rw [same]
  exact settled

/-! ## Placing an entry (R29, R30) -/

/-- The plant with an entry drawn from the free list and written. -/
def drawn (p : Plant) (n : EntryNo) (rest : List EntryNo) (x : Entry) : Plant := { p with free := rest }.updEnt n fun _ => x

/-- The plant with an entry drawn from the free list and placed in a chain. -/
def placed (p : Plant) (j : JIdx) (pos : Nat) (n : EntryNo) (rest : List EntryNo) (x : Entry) : Plant :=
  (p.drawn n rest x).upd j fun J => { J with chain := J.chain.take pos ++ n :: J.chain.drop pos }

theorem place_of_free (p : Plant) (j : JIdx) (pos : Nat) (x : Entry) {n : EntryNo} {rest : List EntryNo} (free : p.free = n :: rest) :
    p.place j pos x = (p.placed j pos n rest x, some n) := by
  simp only [place, free, placed, drawn]

theorem placed_at (p : Plant) (j : JIdx) (pos : Nat) (n : EntryNo) (rest : List EntryNo) (x : Entry) :
    (p.placed j pos n rest x).jn[j] = { p.jn[j] with chain := p.jn[j].chain.take pos ++ n :: p.jn[j].chain.drop pos } :=
  upd_at (p.drawn n rest x) j fun J => { J with chain := J.chain.take pos ++ n :: J.chain.drop pos }

theorem placed_others (p : Plant) (j : JIdx) (pos : Nat) (n : EntryNo) (rest : List EntryNo) (x : Entry) :
    p.OthersSame (p.placed j pos n rest x) j :=
  othersSame_upd (p.drawn n rest x) j fun J => { J with chain := J.chain.take pos ++ n :: J.chain.drop pos }

end Plant

/-- What a placement leaves: the entry in the chain with its values, the free list without it, and the rest as it was. -/
structure Plant.EntryPlaced (p q : Plant) (j : JIdx) (pos : Nat) (n : EntryNo) (rest : List EntryNo) (x : Entry) : Prop where
  chain : q.jn[j].chain = p.jn[j].chain.take pos ++ n :: p.jn[j].chain.drop pos
  free : q.free = rest
  entry : q.pool[n] = x
  entries : p.EntriesSame q [n]
  others : p.OthersSame q j
  req : q.req = p.req

namespace State

theorem placeHost_spec (s : State) (j : JIdx) (pos : Nat) (x : Entry) {n : EntryNo} {rest : List EntryNo}
    (free : s.plant.free = n :: rest) (still : s.plant.jn[j].dwell = false) (none : s.plant.NoCandidate j) :
    ∃ q, s.placeHost j pos x = ({ s with plant := q }, .done [byte n.val, byte pos]) ∧ s.plant.EntryPlaced q j pos n rest x := by
  have made := Plant.chainEdited_restated s.env (p := s.plant.placed j pos n rest x) (j := j)
    (by rw [Plant.placed_at]; exact still) (none.of_req rfl)
  refine ⟨(s.plant.placed j pos n rest x).chainEdited s.env j, ?_, ?_, made.free, ?_, ?_, ?_, made.req⟩
  · simp only [placeHost, Plant.place_of_free _ _ _ _ free]
  · rw [made.chain, Plant.placed_at]
  · rw [made.pool]
    exact Plant.updEnt_at { s.plant with free := rest } n fun _ => x
  · intro i apart
    rw [made.pool]
    exact Plant.entriesSame_updEnt { s.plant with free := rest } n (fun _ => x) i apart
  · exact (s.plant.placed_others j pos n rest x).trans made.others

end State

/-! ## APPEND ENTRY (R34) -/

theorem entryInRange_placed {st minimum split passage allowance : Nat} (stage : 1 ≤ st ∧ st ≤ 8)
    (fits : 4 ≤ minimum ∧ minimum ≤ 60 ∧ minimum ≤ split ∧ split ≤ 150 ∧ 10 ≤ passage ∧ passage ≤ 99 ∧ allowance ≤ 3) :
    entryInRange st minimum split passage allowance = true := by
  simp only [entryInRange, Bool.and_eq_true, within_eq_true, decide_eq_true_eq]
  omega

/-- R16: an entry that counts adds the all-red time and its minimum to the sum; it is no BAND entry. -/
theorem feasibilitySum_append (es : List Entry) (x : Entry) (a : Nat) (counts : countsInSum x = true) :
    feasibilitySum (es ++ [x]) a = feasibilitySum es a + a + x.minimum := by
  have side : x.role = .side := by
    simp only [countsInSum, Bool.and_eq_true, beq_iff_eq] at counts
    exact counts.1.2
  have band : bandSplit (es ++ [x]) = bandSplit es := by
    simp [bandSplit, List.find?_append, side]
  simp only [feasibilitySum, band, List.filter_append, List.filter_cons_of_pos counts, List.filter_nil, List.map_append, List.map_cons,
    List.map_nil, List.sum_append, List.sum_cons, List.sum_nil]
  omega

theorem hostFull_eq_false {p : Plant} {j : JIdx} (here : p.hostCount j < 14) (all : p.hostTotal < 104) : p.hostFull j = false := by
  rw [Plant.hostFull, Config.hostPerChain, Config.hostInAll, decide_eq_false (by omega), decide_eq_false (by omega)]
  rfl

theorem bandEntry?_isSome (p : Plant) (j : JIdx) : (p.bandEntry? j).isSome = true ↔ ∃ x ∈ p.chainEntries j, x.role = .band := by
  simp [Plant.bandEntry?, List.find?_isSome]

namespace State

/-- The order of the checks of R34, for fields in range. -/
theorem appendEntry_fields (s : State) (j : JIdx) (st : Stage) (ro : Role) (ki : EntryKind) (de : Demand)
    {minimum split passage allowance : Nat} (notify : Bool)
    (fits : 4 ≤ minimum ∧ minimum ≤ 60 ∧ minimum ≤ split ∧ split ≤ 150 ∧ 10 ≤ passage ∧ passage ≤ 99 ∧ allowance ≤ 3)
    (plain : ro = .band → ki = .recurring ∧ de = .recall) :
    appendEntry [byte j.val, byte (st.val + 1), ro.code, ki.code, de.code, byte minimum, byte split, byte passage, byte allowance,
      if notify then 1 else 0] s =
      if s.plant.jn[j].state = .absent then refuse s .noSuch
      else if ro = .band ∧ (s.plant.bandEntry? j).isSome = true then refuse s .band
      else if s.plant.hostFull j then refuse s .noRoom
      else if s.appendInfeasible j (hostEntry st ro ki de minimum split passage allowance notify) then refuse s .infeasible
      else s.placeHost j s.plant.jn[j].chain.length (hostEntry st ro ki de minimum split passage allowance notify) := by
  have range := entryInRange_placed (st := st.val + 1) (by omega) fits
  have band : ¬(ro = .band ∧ (ki = .once ∨ de = .call)) := by
    rintro ⟨isBand, odd⟩
    obtain ⟨recurring, recall'⟩ := plain isBand
    simp [recurring, recall'] at odd
  simp only [appendEntry, bodyNats_cons, bodyNats_nil, toNat_byte_val j (by decide), toNat_byte_stage, toNat_byte minimum (by omega),
    toNat_byte split (by omega), toNat_byte passage (by omega), toNat_byte allowance (by omega), idx?_val, role?_code, kind?_code,
    demand?_code, flag?_mark, range, Bool.not_true, Bool.false_eq_true, if_false, if_neg band, stageOfNum?_succ]

/-- R34: an entry that does not count, or one the plan has room for, is no cause to refuse. -/
theorem appendInfeasible_eq_false {s : State} {j : JIdx} {x : Entry}
    (room : s.plant.jn[j].state.coordinated = true → countsInSum x = true →
      (feasibilitySum (s.plant.chainEntries j) s.plant.jn[j].plan.a + s.plant.jn[j].plan.a + x.minimum) * s.plant.jn[j].plan.mult ≤ s.tb.c) :
    s.appendInfeasible j x = false := by
  rw [Bool.eq_false_iff]
  intro refused
  simp only [appendInfeasible, Bool.and_eq_true, Bool.not_eq_true'] at refused
  obtain ⟨⟨coordinated, counts⟩, unfit⟩ := refused
  rw [feasible, feasibilitySum_append _ _ _ counts, decide_eq_false_iff_not] at unfit
  exact unfit (room coordinated counts)

end State

/-- Settles O28. -/
theorem entryIsAppended : Obligations.EntryIsAppended := by
  intro s tag j st ro ki de minimum split passage allowance notify n free takes h4 h60 below h150 h10 h99 retries plain
  have taken : exec .appendEntry s = .next (s.take 0x10 State.appendEntry) := rfl
  have body := State.appendEntry_fields s.popIntake j st ro ki de notify ⟨h4, h60, below, h150, h10, h99, retries⟩ plain
  have holds := bandEntry?_isSome s.plant j
  refine ⟨fun absent => ?_, fun present isBand band => ?_, fun present noBand here all isFree apart room still none => ?_⟩
  · exact taken.trans (congrArg Host.Outcome.next (takes.take_same _ (.refused .noSuch) (body.trans (if_pos absent))))
  · exact taken.trans (congrArg Host.Outcome.next (takes.take_same _ (.refused .band)
      (body.trans ((if_neg present).trans (if_pos ⟨isBand, holds.mpr band⟩)))))
  · have only : ¬(ro = .band ∧ (s.plant.bandEntry? j).isSome = true) := fun ⟨isBand, band⟩ => by
      obtain ⟨x, mem, role⟩ := holds.mp band
      exact noBand isBand x mem role
    have fits : s.popIntake.appendInfeasible j (hostEntry st ro ki de minimum split passage allowance notify) = false := by
      refine State.appendInfeasible_eq_false fun coordinated counts => ?_
      simp only [countsInSum, hostEntry, Bool.and_eq_true, beq_iff_eq] at counts
      exact room coordinated counts.1.1.2 counts.1.2 counts.2
    obtain ⟨q, placed, made⟩ := State.placeHost_spec s.popIntake j s.plant.jn[j].chain.length
      (hostEntry st ro ki de minimum split passage allowance notify) isFree still none
    have handled := body.trans ((if_neg present).trans ((if_neg only).trans ((if_neg (Bool.eq_false_iff.mp (hostFull_eq_false here all))).trans
      ((if_neg (Bool.eq_false_iff.mp fits)).trans placed))))
    obtain ⟨answered, plant, tb, script, -⟩ := takes.outcome handled rfl
    refine ⟨_, taken, answered, ?_, ?_, ?_, ?_, ?_, tb, script, ?_⟩ <;> rw [plant]
    · exact made.chain.trans (by simp [State.popIntake])
    · exact made.free
    · exact made.entry
    · exact made.entries
    · exact made.others
    · exact made.req

/-! ## INSERT ENTRY (R35) -/

/-- R35: the insert point is the end of the entries ahead of it. -/
theorem Plant.insertPos_eq {p : Plant} {j : JIdx} {before behind : List EntryNo} (chain : p.jn[j].chain = before ++ behind)
    (point : (before = [] ∧ behind = []) ∨ (p.jn[j].stack = [] ∧ before.length = 1) ∨
      ∃ pre b front, p.jn[j].stack = pre ++ [b] ∧ before = front ++ [b.entry] ∧ b.entry ∉ front) :
    p.insertPos j = before.length := by
  rcases point with ⟨rfl, rfl⟩ | ⟨flat, one⟩ | ⟨pre, b, front, stack, rfl, first⟩
  · rw [insertPos, chain]
    rfl
  · obtain ⟨n, rfl⟩ := List.length_eq_one_iff.mp one
    rw [insertPos, chain, flat]
    rfl
  · obtain ⟨top, rest, cons⟩ : ∃ top rest, p.jn[j].chain = top :: rest := by
      rw [chain]
      cases front <;> exact ⟨_, _, rfl⟩
    have position : (top :: rest).idxOf b.entry = front.length := by
      rw [← cons, chain, List.append_assoc, List.idxOf_append_of_notMem first]
      simp
    rw [insertPos, cons, stack, List.getLast?_concat]
    simp only [position, List.length_append, List.length_singleton]

theorem State.insertEntry_fields (s : State) (j : JIdx) (st : Stage) (de : Demand)
    {minimum split passage allowance : Nat} (notify : Bool)
    (fits : 4 ≤ minimum ∧ minimum ≤ 60 ∧ minimum ≤ split ∧ split ≤ 150 ∧ 10 ≤ passage ∧ passage ≤ 99 ∧ allowance ≤ 3) :
    insertEntry [byte j.val, byte (st.val + 1), de.code, byte minimum, byte split, byte passage, byte allowance,
      if notify then 1 else 0] s =
      if s.plant.jn[j].state = .absent then refuse s .noSuch
      else if s.plant.hostFull j then refuse s .noRoom
      else s.placeHost j (s.plant.insertPos j) (hostEntry st .side .once de minimum split passage allowance notify) := by
  have range := entryInRange_placed (st := st.val + 1) (by omega) fits
  simp only [insertEntry, bodyNats_cons, bodyNats_nil, toNat_byte_val j (by decide), toNat_byte_stage, toNat_byte minimum (by omega),
    toNat_byte split (by omega), toNat_byte passage (by omega), toNat_byte allowance (by omega), idx?_val, demand?_code, flag?_mark, range,
    Bool.not_true, Bool.false_eq_true, if_false, stageOfNum?_succ]

/-- Settles O29. -/
theorem entryIsInserted : Obligations.EntryIsInserted := by
  intro s tag j st de minimum split passage allowance notify n free before behind takes h4 h60 below h150 h10 h99 retries present here all
    isFree chain apart point still none
  have body := State.insertEntry_fields s.popIntake j st de notify ⟨h4, h60, below, h150, h10, h99, retries⟩
  have position : s.popIntake.plant.insertPos j = before.length := Plant.insertPos_eq chain point
  obtain ⟨q, placed, made⟩ := State.placeHost_spec s.popIntake j before.length
    (hostEntry st .side .once de minimum split passage allowance notify) isFree still none
  rw [position] at body
  have popped : s.popIntake.plant.jn[j].chain = before ++ behind := chain
  have handled := body.trans ((if_neg present).trans ((if_neg (Bool.eq_false_iff.mp (hostFull_eq_false here all))).trans placed))
  obtain ⟨answered, plant, tb, -, -⟩ := takes.outcome handled rfl
  refine ⟨_, rfl, answered, ?_, ?_, ?_, ?_, ?_, tb, ?_⟩ <;> rw [plant]
  · exact made.chain.trans (by rw [popped, List.take_left, List.drop_left])
  · exact made.free
  · exact made.entry
  · exact made.entries
  · exact made.others
  · exact made.req

end Sys2Proof.Machine
end

section
/-! SUPPORT. Removing and amending an entry (R36 to R39). The statements O30, O31. -/

namespace Sys2Proof.Machine

open Sys2Proof

theorem State.entryIn?_of_mem {s : State} {j : JIdx} {n : EntryNo} (mem : n ∈ s.plant.jn[j].chain) : s.entryIn? j n.val = some n := by
  rw [entryIn?, idx?_val]
  exact Option.filter_eq_some_iff.mpr ⟨rfl, List.contains_iff_mem.mpr mem⟩

theorem State.entryIn?_of_notMem {s : State} {j : JIdx} {n : EntryNo} (apart : n ∉ s.plant.jn[j].chain) : s.entryIn? j n.val = none := by
  rw [entryIn?, idx?_val, Option.filter_eq_none_iff]
  rintro _ ⟨⟩
  exact fun holds => apart (List.contains_iff_mem.mp holds)

/-! ## REMOVE ENTRY (R36) -/

namespace Plant

/-- The junction without an entry of its chain, no order being in flight. -/
def withoutEntry (p : Plant) (j : JIdx) (n : EntryNo) : Plant :=
  p.upd j fun J =>
    { J with
      chain := J.chain.erase n
      order := J.order.map fun o => if o.entry = n then { o with live := false } else o }

theorem release_of_mem {p : Plant} {j : JIdx} {n : EntryNo} (mem : n ∈ p.jn[j].chain) :
    p.release j n = { ((p.withoutEntry j n).updEnt n fun _ => Entry.clear) with free := p.free ++ [n] } := by
  rw [release, if_pos mem]
  rfl

theorem withoutEntry_at (p : Plant) (j : JIdx) (n : EntryNo) : (p.withoutEntry j n).jn[j] =
    { p.jn[j] with
      chain := p.jn[j].chain.erase n
      order := p.jn[j].order.map fun o => if o.entry = n then { o with live := false } else o } :=
  upd_at p j fun J =>
    { J with
      chain := J.chain.erase n
      order := J.order.map fun o => if o.entry = n then { o with live := false } else o }

theorem withoutEntry_others (p : Plant) (j : JIdx) (n : EntryNo) : p.OthersSame (p.withoutEntry j n) j :=
  othersSame_upd p j fun J =>
    { J with
      chain := J.chain.erase n
      order := J.order.map fun o => if o.entry = n then { o with live := false } else o }

end Plant

/-- What a removal leaves: the entry cleared at the tail of the free list, its chain without it, and the rest as it was. -/
structure Plant.EntryRemoved (p q : Plant) (j : JIdx) (n : EntryNo) : Prop where
  chain : q.jn[j].chain = p.jn[j].chain.erase n
  completions : q.jn[j].completions = p.jn[j].completions
  free : q.free = p.free ++ [n]
  entry : q.pool[n] = Entry.clear
  entries : p.EntriesSame q [n]
  others : p.OthersSame q j
  req : q.req = p.req

theorem Plant.release_chainEdited_spec (e : Env) {p : Plant} {j : JIdx} {n : EntryNo} (mem : n ∈ p.jn[j].chain)
    (still : p.jn[j].dwell = false) (none : p.NoCandidate j) :
    ∃ q, (p.release j n).chainEdited e j = q ∧ p.EntryRemoved q j n := by
  have made := chainEdited_restated e (p := p.release j n) (j := j)
    (by rw [release_of_mem mem]; exact (congrArg Junction.dwell (p.withoutEntry_at j n)).trans still)
    (none.of_req (by rw [release_of_mem mem]; rfl))
  have others : p.OthersSame (p.release j n) j := by
    rw [release_of_mem mem]
    exact p.withoutEntry_others j n
  have completions := congrArg Junction.completions made.frame
  refine ⟨_, rfl, made.chain.trans ?_, Eq.trans (b := (p.release j n).jn[j].completions) completions ?_, made.free.trans ?_, ?_, ?_,
    others.trans made.others, made.req.trans ?_⟩
  · rw [release_of_mem mem]
    exact congrArg Junction.chain (p.withoutEntry_at j n)
  · rw [release_of_mem mem]
    exact (congrArg Junction.completions (p.withoutEntry_at j n) :)
  · rw [release_of_mem mem]
  · rw [made.pool, release_of_mem mem]
    exact updEnt_at (p.withoutEntry j n) n fun _ => Entry.clear
  · intro i apart
    rw [made.pool, release_of_mem mem]
    exact entriesSame_updEnt (p.withoutEntry j n) n (fun _ => Entry.clear) i apart
  · rw [release_of_mem mem]
    rfl

/-- The order of the checks of R36. -/
theorem State.removeEntry_fields (s : State) (j : JIdx) (n : EntryNo) : removeEntry [byte j.val, byte n.val] s =
    match s.entryIn? j n.val with
    | none => refuse s .noSuch
    | some n =>
      match s.removalRefused j n with
      | some r => refuse s r
      | none => ({ s with plant := (s.plant.release j n).chainEdited s.env j }, .done []) := by
  simp only [removeEntry, bodyNats_cons, bodyNats_nil, toNat_byte_val j (by decide), toNat_byte_val n (by decide), idx?_val] <;> rfl

theorem State.removeEntry_refused {s : State} {j : JIdx} {n : EntryNo} (mem : n ∈ s.plant.jn[j].chain) {r : Reason}
    (refused : s.removalRefused j n = some r) : removeEntry [byte j.val, byte n.val] s = refuse s r := by
  rw [removeEntry_fields, entryIn?_of_mem mem]
  simp only [refused]

theorem State.removeEntry_allowed {s : State} {j : JIdx} {n : EntryNo} (mem : n ∈ s.plant.jn[j].chain)
    (allowed : s.removalRefused j n = none) : removeEntry [byte j.val, byte n.val] s =
      ({ s with plant := (s.plant.release j n).chainEdited s.env j }, .done []) := by
  rw [removeEntry_fields, entryIn?_of_mem mem]
  simp only [allowed]

/-- R36: the checks of a removal that refuse with IN_USE. -/
def Plant.InUse (p : Plant) (j : JIdx) (n : EntryNo) : Prop :=
  p.pool[n].origin = .service ∨ p.pool[n].status = .serving ∨
    (p.jn[j].order ≠ none ∧ p.jn[j].chain.head? = some n) ∨ ∃ c ∈ p.jn[j].stack, c.entry = n

theorem State.removalRefused_of_inUse {s : State} {j : JIdx} {n : EntryNo} (use : s.plant.InUse j n) :
    s.removalRefused j n = some .inUse := by
  have ordered : (s.plant.jn[j].order.isSome = true ∧ s.plant.top? j = some n) ↔
      (s.plant.jn[j].order ≠ none ∧ s.plant.jn[j].chain.head? = some n) := by
    rw [Option.isSome_iff_ne_none, Plant.top?]
  have recorded : (s.plant.jn[j].stack.any fun c => c.entry == n) = true ↔ ∃ c ∈ s.plant.jn[j].stack, c.entry = n := by
    simp only [List.any_eq_true, beq_iff_eq]
  simp only [removalRefused]
  split_ifs with service serving order record
  · rfl
  · rfl
  · rfl
  · rfl
  all_goals
    rcases use with h | h | h | h
    · exact absurd h service
    · exact absurd h serving
    · exact absurd (ordered.mpr h) order
    · exact absurd (recorded.mpr h) record

theorem State.removalRefused_of_not_inUse {s : State} {j : JIdx} {n : EntryNo} (use : ¬s.plant.InUse j n) :
    s.removalRefused j n = if s.plant.pool[n].role = .band ∧ s.plant.jn[j].state.coordinated = true then some .band else none := by
  unfold Plant.InUse at use
  push Not at use
  obtain ⟨host, still, noOrder, unrecorded⟩ := use
  unfold removalRefused
  rw [if_neg host, if_neg still, if_neg, if_neg]
  · intro any
    obtain ⟨c, mem, is⟩ := List.any_eq_true.mp any
    exact unrecorded c mem (beq_iff_eq.mp is)
  · rintro ⟨some, top⟩
    exact noOrder (Option.isSome_iff_ne_none.mp some) top

/-- Settles O30. -/
theorem entryIsRemoved : Obligations.EntryIsRemoved := by
  intro s tag j n takes
  have taken : exec .removeEntry s = .next (s.take 0x13 State.removeEntry) := rfl
  have body := State.removeEntry_fields s.popIntake j n
  refine ⟨fun apart => ?_, fun mem use => ?_, fun mem host notServing noOrder unrecorded => ?_⟩
  · rw [State.entryIn?_of_notMem (s := s.popIntake) apart] at body
    exact taken.trans (congrArg Host.Outcome.next (takes.take_same _ (.refused .noSuch) body))
  · exact taken.trans (congrArg Host.Outcome.next (takes.take_same _ (.refused .inUse)
      (State.removeEntry_refused (s := s.popIntake) mem (State.removalRefused_of_inUse use))))
  · have free : ¬s.plant.InUse j n := by
      rintro (h | h | ⟨h, _⟩ | ⟨c, h, is⟩)
      · exact nomatch host.symm.trans h
      · exact notServing h
      · exact h noOrder
      · exact unrecorded c h is
    have refused := State.removalRefused_of_not_inUse (s := s.popIntake) free
    refine ⟨fun band coordinated => ?_, fun other still none => ?_⟩
    · exact taken.trans (congrArg Host.Outcome.next (takes.take_same _ (.refused .band)
        (State.removeEntry_refused (s := s.popIntake) mem (refused.trans (if_pos ⟨band, coordinated⟩)))))
    · have allowed := refused.trans (if_neg fun ⟨band, coordinated⟩ => by
        rcases other with side | apart
        · exact nomatch side.symm.trans band
        · exact nomatch apart.symm.trans coordinated)
      have handled := State.removeEntry_allowed (s := s.popIntake) mem allowed
      obtain ⟨q, edited, made⟩ := Plant.release_chainEdited_spec s.popIntake.env (p := s.popIntake.plant) mem still none
      simp only [edited] at handled
      obtain ⟨answered, plant, tb, -, -⟩ := takes.outcome handled rfl
      refine ⟨_, taken, answered, ?_, ?_, ?_, ?_, ?_, ?_, tb, ?_⟩ <;> rw [plant]
      · exact made.chain
      · exact made.free
      · exact made.entry
      · exact made.entries
      · exact made.completions
      · exact made.others
      · exact made.req

end Sys2Proof.Machine
end

section
/-! SUPPORT. Amending an entry (R37 to R39). The statement O31. -/

namespace Sys2Proof.Machine

open Sys2Proof

/-! ## The fields of AMEND ENTRY (section 11.4) -/

/-- R200: bit i of a presence mark byte is the i-th mark. -/
theorem markBit_bitsNat (b0 b1 b2 b3 b4 b5 : Bool) :
    let marks := (byte (bitsNat [b0, b1, b2, b3, b4, b5])).toNat
    marks < 64 ∧ (marks = 0 → [b0, b1, b2, b3, b4, b5] = List.replicate 6 false) ∧ State.markBit marks 0 = b0 ∧ State.markBit marks 1 = b1 ∧
      State.markBit marks 2 = b2 ∧ State.markBit marks 3 = b3 ∧ State.markBit marks 4 = b4 ∧ State.markBit marks 5 = b5 := by
  revert b0 b1 b2 b3 b4 b5
  decide

/-- A value that is present and fits its byte is read back from it; an absent one is not read. -/
theorem readBack (o : Option Nat) (u : Byte) (fits : ∀ v, o = some v → v ≤ 255) :
    (if o.isSome then some ((o.map byte).getD u).toNat else none) = o := by
  cases o with
  | none => rfl
  | some v => exact congrArg some (toNat_byte v (Nat.lt_succ_of_le (fits v rfl)))

namespace State

/-- R37: the values that the fields of an amendment carry. -/
theorem amendment?_bytes (a : Amendment) (u1 u2 u3 u4 u5 u6 : Byte)
    (fits : ∀ v, a.split = some v ∨ a.minimum = some v ∨ a.passage = some v ∨ a.allowance = some v → v ≤ 255) :
    amendment? (amendMarks a).toNat ((a.split.map byte).getD u1).toNat ((a.minimum.map byte).getD u2).toNat
      ((a.passage.map byte).getD u3).toNat ((a.demand.map Demand.code).getD u4).toNat
      ((a.notify.map fun b => if b then (1 : Byte) else 0).getD u5).toNat ((a.allowance.map byte).getD u6).toNat = some a := by
  obtain ⟨-, -, split, minimum, passage, demand, notify, allowance⟩ :=
    markBit_bitsNat a.split.isSome a.minimum.isSome a.passage.isSome a.demand.isSome a.notify.isSome a.allowance.isSome
  simp only [amendment?, marked, amendMarks, split, minimum, passage, demand, notify, allowance,
    readBack _ _ fun v h => fits v (.inl h), readBack _ _ fun v h => fits v (.inr (.inl h)),
    readBack _ _ fun v h => fits v (.inr (.inr (.inl h))), readBack _ _ fun v h => fits v (.inr (.inr (.inr h)))]
  clear split minimum passage demand notify allowance fits
  obtain ⟨sp, mi, pa, de, no, al⟩ := a
  cases de with
  | none =>
    cases no with
    | none => simp
    | some b =>
      have read : flag? ((Option.map (fun b => if b then (1 : Byte) else 0) (some b)).getD u5).toNat = some b := flag?_mark b
      simp only [read, Option.isSome_none, Option.isSome_some]
      simp
  | some d =>
    have stated : demand? ((Option.map Demand.code (some d)).getD u4).toNat = some d := demand?_code d
    cases no with
    | none =>
      simp only [stated, Option.isSome_none, Option.isSome_some]
      simp
    | some b =>
      have read : flag? ((Option.map (fun b => if b then (1 : Byte) else 0) (some b)).getD u5).toNat = some b := flag?_mark b
      simp only [stated, read, Option.isSome_some]
      simp

theorem amendMarks_defined (a : Amendment) (some : a ≠ ⟨none, none, none, none, none, none⟩) :
    ¬((amendMarks a).toNat = 0 ∨ 64 ≤ (amendMarks a).toNat) := by
  obtain ⟨below, zero, -⟩ :=
    markBit_bitsNat a.split.isSome a.minimum.isSome a.passage.isSome a.demand.isSome a.notify.isSome a.allowance.isSome
  rintro (empty | large)
  · have absent := zero empty
    simp only [List.replicate, List.cons.injEq, Option.isSome_eq_false_iff, Option.isNone_iff_eq_none, and_true] at absent
    obtain ⟨h1, h2, h3, h4, h5, h6⟩ := absent
    obtain ⟨sp, mi, pa, de, no, al⟩ := a
    subst h1 h2 h3 h4 h5 h6
    exact some rfl
  · exact absurd large (Nat.not_le.mpr below)

/-- The order of the checks of R37. -/
theorem amendEntry_fields (s : State) (j : JIdx) (n : EntryNo) (a : Amendment) (u1 u2 u3 u4 u5 u6 : Byte)
    (some : a ≠ ⟨none, none, none, none, none, none⟩)
    (fits : ∀ v, a.split = .some v ∨ a.minimum = .some v ∨ a.passage = .some v ∨ a.allowance = .some v → v ≤ 255) :
    amendEntry [byte j.val, byte n.val, amendMarks a, (a.split.map byte).getD u1, (a.minimum.map byte).getD u2,
      (a.passage.map byte).getD u3, (a.demand.map Demand.code).getD u4, (a.notify.map fun b => if b then 1 else 0).getD u5,
      (a.allowance.map byte).getD u6] s =
    match s.entryIn? j n.val with
    | none => refuse s .noSuch
    | .some n =>
      if s.plant.pool[n].origin = .service then refuse s .inUse
      else if !amendInRange a s.plant.pool[n] (if s.plant.jn[j].state.coordinated then s.plant.pool[n].staged else none) then
        refuse s .range
      else if s.plant.jn[j].state.coordinated then ({ s with plant := s.plant.updEnt n (amendLater a) }, .done [])
      else ({ s with plant := (s.plant.updEnt n (amendNow a)).chainEdited s.env j }, .done []) := by
  simp only [amendEntry, bodyNats_cons, bodyNats_nil, toNat_byte_val j (by decide), toNat_byte_val n (by decide), idx?_val,
    if_neg (amendMarks_defined a some), amendment?_bytes a u1 u2 u3 u4 u5 u6 fits] <;> rfl

/-- R37: the range checks. -/
theorem amendInRange_iff (a : Amendment) (x : Entry) (old : Option Amendment) : amendInRange a x old = true ↔
    (∀ v, a.split = some v → 4 ≤ v ∧ v ≤ 150) ∧ (∀ v, a.minimum = some v → 4 ≤ v ∧ v ≤ 60) ∧
      (∀ v, a.passage = some v → 10 ≤ v ∧ v ≤ 99) ∧ (∀ v, a.allowance = some v → v ≤ 3) ∧
      a.minimum.getD ((old.bind Amendment.minimum).getD x.minimum) ≤ a.split.getD ((old.bind Amendment.split).getD x.split) ∧
      ¬(x.role = .band ∧ a.demand = some .call) := by
  have all (o : Option Nat) (lo hi : Nat) : o.all (within lo hi) = true ↔ ∀ v, o = some v → lo ≤ v ∧ v ≤ hi := by
    simp only [Option.all_eq_true, within_eq_true]
  have first (o o' : Option Nat) (d : Nat) : (o.or o').getD d = o.getD (o'.getD d) := by cases o <;> rfl
  simp only [amendInRange, Bool.and_eq_true, all, first, Option.all_eq_true, decide_eq_true_eq, Bool.not_eq_true', Bool.and_eq_false_iff,
    beq_eq_false_iff_ne, not_and_or, and_assoc, ne_eq]

/-- R38: the retries left follow a changed allowance. -/
theorem amendNow_eq (a : Amendment) (x : Entry) : amendNow a x =
    { x with
      split := a.split.getD x.split, minimum := a.minimum.getD x.minimum, passage := a.passage.getD x.passage
      demand := a.demand.getD x.demand, notify := a.notify.getD x.notify, allowance := a.allowance.getD x.allowance
      retries := if a.allowance.getD x.allowance = x.allowance then x.retries else a.allowance.getD x.allowance
      staged := none } := by
  obtain ⟨sp, mi, pa, de, no, al⟩ := a
  cases al with
  | none => simp [amendNow]
  | some r => by_cases same : r = x.allowance <;> simp [amendNow, same]

end State

/-! ## A chain edit at a junction out of coordination -/

namespace Plant

theorem settle_state_not_inStep (e : Env) {p : Plant} {j : JIdx} (apart : p.jn[j].state ≠ .inStep) :
    (p.settle e j).jn[j].state ≠ .inStep := by
  cases here : p.jn[j].state with
  | loc c =>
    rw [settle_state e p j here, settledState]
    split_ifs <;> exact JState.noConfusion
  | _ =>
    rw [settle_of_not_local e p j (by rw [here]; rfl)]
    exact apart

/-- R61, R104: DWELL and acceptance are of IN_STEP, so a chain edit elsewhere only settles a LOCAL junction. -/
theorem chainEdited_restated_of_not_inStep (e : Env) {p : Plant} {j : JIdx} (apart : p.jn[j].state ≠ .inStep) :
    p.Restated (p.chainEdited e j) j := by
  have still := settle_state_not_inStep e apart
  have same : p.chainEdited e j = p.settle e j := by
    rw [chainEdited, show (p.settle e j).dwellCheck e j = p.settle e j from if_neg fun h => still h.1, attempts_of_not_inStep e _ j still]
  rw [same]
  exact p.settle_restated e j

end Plant

/-- Settles O31. -/
theorem entryIsAmended : Obligations.EntryIsAmended := by
  intro s tag j n a u1 u2 u3 u4 u5 u6 takes some fits x old split minimum good
  have taken : exec .amendEntry s = .next (s.take 0x12 State.amendEntry) := rfl
  have body := State.amendEntry_fields s.popIntake j n a u1 u2 u3 u4 u5 u6 some fits
  have range : State.amendInRange a x old = true ↔ good := State.amendInRange_iff a x old
  refine ⟨fun apart => ?_, fun mem service => ?_, fun mem host => ?_⟩
  · rw [State.entryIn?_of_notMem (s := s.popIntake) apart] at body
    exact taken.trans (congrArg Host.Outcome.next (takes.take_same _ (.refused .noSuch) body))
  · rw [State.entryIn?_of_mem (s := s.popIntake) mem] at body
    exact taken.trans (congrArg Host.Outcome.next (takes.take_same _ (.refused .inUse) (body.trans (if_pos service))))
  · rw [State.entryIn?_of_mem (s := s.popIntake) mem] at body
    have owned : ¬x.origin = .service := fun service => nomatch host.symm.trans service
    have checked := body.trans (if_neg owned)
    refine ⟨fun bad => ?_, fun fine coordinated => ?_, fun fine apart => ?_⟩
    · refine taken.trans (congrArg Host.Outcome.next (takes.take_same _ (.refused .range) (checked.trans (if_pos ?_))))
      exact Bool.not_eq_true' _ |>.mpr (Bool.eq_false_iff.mpr (range.not.mpr bad))
    · have allowed := checked.trans (if_neg (by rw [Bool.not_eq_true, Bool.not_eq_false']; exact range.mpr fine))
      exact taken.trans (congrArg Host.Outcome.next (takes.take_of (allowed.trans (if_pos coordinated)) takes.quiet rfl))
    · have allowed := checked.trans (if_neg (by rw [Bool.not_eq_true, Bool.not_eq_false']; exact range.mpr fine))
      have handled := allowed.trans (if_neg (Bool.eq_false_iff.mp apart))
      have notInStep : s.plant.jn[j].state ≠ .inStep := fun h => by
        rw [h] at apart
        exact nomatch apart
      have made := Plant.chainEdited_restated_of_not_inStep s.env (p := s.plant.updEnt n (State.amendNow a)) (j := j) notInStep
      obtain ⟨answered, plant, tb, -, -⟩ := takes.outcome handled rfl
      have plant' : (s.take 0x12 State.amendEntry).plant =
          { (s.plant.updEnt n (State.amendNow a)).chainEdited s.env j with raised := [] } := plant
      refine ⟨_, taken, answered, ?_, ?_, ?_, ?_, ?_, tb⟩ <;> rw [plant']
      · exact (congrArg (fun v : Vector Entry 128 => v[n]) made.pool).trans
          ((Plant.updEnt_at s.plant n (State.amendNow a)).trans (State.amendNow_eq a x))
      · intro i apart
        exact (congrArg (fun v : Vector Entry 128 => v[i]) made.pool).trans (Plant.entriesSame_updEnt s.plant n (State.amendNow a) i apart)
      · exact made.chain
      · exact made.others
      · exact made.free

end Sys2Proof.Machine
end

section
/-! SUPPORT. How a good report is taken (R171, R173): a report without edges, at a unit that stays as it is. -/

namespace Sys2Proof.Machine

open Sys2Proof

/-! ## A report without edges (R79) -/

namespace Plant

theorem risingEdges_same (D : Detectors) : risingEdges D D.rows = [] :=
  List.filter_eq_nil_iff.mpr fun d _ => by cases D.rows[d] <;> decide

theorem fallingEdges_same (D : Detectors) : fallingEdges D D.rows = [] :=
  List.filter_eq_nil_iff.mpr fun d _ => by cases D.rows[d] <;> decide

theorem updDet_id (p : Plant) (j : JIdx) {f : Detectors → Detectors} (same : f p.jn[j].det = p.jn[j].det) : p.updDet j f = p :=
  upd_id p j _ (congrArg (fun D => { p.jn[j] with det := D }) same)

theorem extendGap_nil (e : Env) (p : Plant) (j : JIdx) : p.extendGap e j [] = p := by
  unfold extendGap
  split
  · exact if_neg fun h => nomatch h.2.2.2.2
  · rfl

theorem rowEdges_same (e : Env) (p : Plant) (j : JIdx) (c : Option Stage) : p.rowEdges e j c p.jn[j].det.rows = p := by
  have called : p.updDet j (fun D => D.setFlags (calledStages p.jn[j] c [])) = p := updDet_id p j rfl
  have timers (D : Detectors) : ({ D with rows := D.rows, timers := Vector.ofFn fun d : Fin 24 =>
      if (List.contains ([] : List DetIdx) d) then none
      else if (List.contains ([] : List DetIdx) d) && D.map[d].timed then some e.arrived else D.timers[d] } : Detectors) = D := by
    have same : (Vector.ofFn fun d : Fin 24 => D.timers[d]) = D.timers := by
      refine Vector.ext fun i hi => ?_
      rw [Vector.getElem_ofFn]
      rfl
    simp only [List.contains_nil, Bool.false_eq_true, if_false, Bool.false_and]
    rw [same]
  simp only [rowEdges, risingEdges_same, fallingEdges_same, called, extendGap_nil, ite_self, List.foldl_nil]
  exact updDet_id p j (timers _)

end Plant

theorem Junction.exitEdges_nil (J : Junction) (now : Nat) (mayStart : Bool) : J.exitEdges now [] [] mayStart = J := by
  unfold exitEdges
  split
  · exact if_neg (by simp)
  · exact if_neg (by simp)
  all_goals rfl

/-- A junction at which a report makes no edges, and the detector unit hands nothing on that acts: no band is held in DWELL, and an
acceptance attempt accepts nothing. -/
structure Plant.Edgeless (e : Env) (p : Plant) (j : JIdx) (body : List Byte) : Prop where
  valid : p.jn[j].det.rowsValid = true
  rows : p.jn[j].det.rows = reportRows body
  dwell : p.jn[j].dwell = false
  still : p.attempts e j = p

namespace Plant

theorem Edgeless.detectorReport {e : Env} {p : Plant} {j : JIdx} {body : List Byte} (h : p.Edgeless e j body) (mayStart : Bool)
    (c : Option Stage) : p.detectorReport e j mayStart c body = p := by
  have exits : p.upd j (fun J => J.exitEdges e.arrived [] [] mayStart) = p := upd_id p j _ (Junction.exitEdges_nil ..)
  have edges := p.rowEdges_same e j c
  simp only [Plant.detectorReport, ← h.rows, risingEdges_same, fallingEdges_same, show p.jn[j.val].det.rowsValid = true from h.valid,
    if_true, Fin.getElem_fin] at edges ⊢
  simp only [edges, exits, ite_self]
  exact (congrArg (fun q : Plant => q.attempts e j) (dwellCheck_of_not_dwell e h.dwell)).trans h.still

/-! ## The report is recorded (R171) -/

/-- The line that has taken a good report. -/
def recordedLine (e : Env) (l : Line) (body : List Byte) : Line :=
  { l with
    up := true
    upAt := if l.up then l.upAt else some e.now
    mode := some (reportMode body)
    last := some { body := body, arrived := e.arrived, tod := e.tod }
    silence := some (e.arrived + Config.silence) }

theorem recordReport_eq (e : Env) (p : Plant) (j : JIdx) (body : List Byte) :
    p.recordReport e j body = p.upd j fun J => { J with line := recordedLine e J.line body } := rfl

theorem recordReport_at (e : Env) (p : Plant) (j : JIdx) (body : List Byte) :
    (p.recordReport e j body).jn[j] = { p.jn[j] with line := recordedLine e p.jn[j].line body } :=
  upd_at p j fun J => { J with line := recordedLine e J.line body }

theorem recordReport_others (e : Env) (p : Plant) (j : JIdx) (body : List Byte) : p.OthersSame (p.recordReport e j body) j :=
  othersSame_upd p j fun J => { J with line := recordedLine e J.line body }

theorem recordReport_chainEntries (e : Env) (p : Plant) (j : JIdx) (body : List Byte) :
    (p.recordReport e j body).chainEntries j = p.chainEntries j := by
  rw [chainEntries, recordReport_at]
  rfl

/-- R171, R173: a report on an UP line, where the detector unit has nothing to do: before the sequencer in the one order of the two blocks,
and behind it in the other. -/
theorem takeReport_of_edgeless (e : Env) {p : Plant} {j : JIdx} {body : List Byte} (first : TakeOrder) (up : p.jn[j].line.up = true)
    (present : p.jn[j].state.present = true) (before : (p.recordReport e j body).Edgeless e j body) {q : Plant}
    (taken : (p.recordReport e j body).sequencerReport e j true p.jn[j].line.mode body = q) (after : q.Edgeless e j body) :
    p.takeReport e j first body = (reportRecords body).foldl (fun p b => p.unitRecord e j b) q := by
  have here : (p.recordReport e j body).jn[j].state.present = true := by rw [recordReport_at]; exact present
  cases first with
  | detectorFirst =>
    simp only [takeReport, up, if_true]
    rw [if_pos here, before.detectorReport, taken]
  | sequencerFirst =>
    simp only [takeReport, up, if_true]
    rw [if_pos here, taken, after.detectorReport]

theorem present_of_coordinated {st : JState} (h : st.coordinated = true) : st.present = true := by
  cases st with
  | joining => rfl
  | inStep => rfl
  | _ => exact nomatch h

theorem not_isLocal_of_coordinated {st : JState} (h : st.coordinated = true) : st.isLocal = false := by
  cases st with
  | joining => rfl
  | inStep => rfl
  | _ => exact nomatch h

/-- R52, R69, R70: the sequencer takes a report of a unit that stays COORD_READY and shows no lamp fault, at a coordinated junction. -/
theorem sequencerReport_ready (e : Env) {p : Plant} {j : JIdx} {body : List Byte} (coordinated : p.jn[j].state.coordinated = true)
    (lamp : reportLamp body = false) : p.sequencerReport e j true (some (reportMode body)) body = p.compareOrder e j body := by
  have same : p.modeChange e j (some (reportMode body)) (reportMode body) = p := if_pos rfl
  have settled := settle_of_not_local e p j (not_isLocal_of_coordinated coordinated)
  rw [sequencerReport, if_pos rfl, same, settled]
  exact (if_pos coordinated).trans (if_neg (Bool.eq_false_iff.mp lamp))

end Plant

/-- R170: a good report that meets an idle receiver is taken with the command that brings it. -/
theorem exec_reportReceived (s : State) (j : JIdx) (first : TakeOrder) {body : List Byte} (idle : s.plant.jn[j].line.rx = [])
    (good : reportBodyGood body = true) : exec (.reportReceived j first (reportWire body)) s =
      .next (s.plantEvent fun e p => p.takeReport e j first body) := by
  have received := Plant.corridorBytes_report s j first body idle good (length_of_reportBodyGood good)
  rw [Plant.upd_id _ _ _ (congrArg (fun r => { s.plant.jn[j] with line := { s.plant.jn[j].line with rx := r } }) idle.symm)] at received
  exact congrArg (fun q : Plant => Host.Outcome.next ({ s with plant := q } : State).finish) received

namespace State.QuietReport

variable {s : State} {j : JIdx} {body : List Byte} {records : List (List Byte)} (report : s.QuietReport j body records)

include report

theorem exec_eq (first : TakeOrder) : exec (.reportReceived j first (reportWire body)) s =
    .next (s.plantEvent fun e p => p.takeReport e j first body) := exec_reportReceived s j first report.hunting report.good

theorem edgeless (still : (s.plant.recordReport s.env j body).attempts s.env j = s.plant.recordReport s.env j body) :
    (s.plant.recordReport s.env j body).Edgeless s.env j body where
  valid := by rw [Plant.recordReport_at]; exact report.valid
  rows := by rw [Plant.recordReport_at]; exact report.rows
  dwell := by rw [Plant.recordReport_at]; exact report.noDwell
  still := still

/-- R171: a report without edges of a unit that stays COORD_READY is compared with the order in flight; its records follow. -/
theorem takeReport_ready (first : TakeOrder) (ready : s.ReadyUnit j body) (coordinated : s.plant.jn[j].state.coordinated = true)
    (still : (s.plant.recordReport s.env j body).attempts s.env j = s.plant.recordReport s.env j body) {q : Plant}
    (compared : (s.plant.recordReport s.env j body).compareOrder s.env j body = q) (after : q.Edgeless s.env j body) :
    s.plant.takeReport s.env j first body = records.foldl (fun p b => p.unitRecord s.env j b) q := by
  have mode : s.plant.jn[j].line.mode = some (reportMode body) := ready.before.trans (congrArg some ready.mode.symm)
  have taken : (s.plant.recordReport s.env j body).sequencerReport s.env j true s.plant.jn[j].line.mode body = q := by
    rw [mode, Plant.sequencerReport_ready _ (by rw [Plant.recordReport_at]; exact coordinated) ready.lamp]
    exact compared
  rw [Plant.takeReport_of_edgeless s.env first report.up (Plant.present_of_coordinated coordinated) (report.edgeless still) taken after,
    report.carries]

end State.QuietReport

end Sys2Proof.Machine
end

section
/-! SUPPORT. How an arrival is settled (R95 to R101), and the request records of a report (R93, R94, R114). -/

namespace Sys2Proof.Machine

open Sys2Proof

namespace Plant

/-! ## The table (R91, R92, R101) -/

theorem freeSlot?_eq_some {p : Plant} {k : SlotNo} (free : p.req[k] = none) (lower : ∀ i : SlotNo, i < k → p.req[i] ≠ none) :
    p.freeSlot? = some k := by
  rw [freeSlot?, ← Fin.find?_eq_find?_finRange, Fin.find?_eq_some_iff]
  exact ⟨by rw [free]; rfl, fun i below => Option.isNone_eq_false_iff.mpr (Option.isSome_iff_ne_none.mpr (lower i below))⟩

theorem freeSlot?_eq_none {p : Plant} (full : ∀ i : SlotNo, p.req[i] ≠ none) : p.freeSlot? = none := by
  rw [freeSlot?, ← Fin.find?_eq_find?_finRange, Fin.find?_eq_none_iff]
  exact fun i => Option.isNone_eq_false_iff.mpr (Option.isSome_iff_ne_none.mpr (full i))

/-- The record of a slot, if it is PENDING. -/
def anyPending (p : Plant) (k : SlotNo) : Option Request := (p.req[k]).filter fun r => !r.isActive

theorem anyPending_eq_some_iff (p : Plant) (k : SlotNo) (r : Request) :
    p.anyPending k = some r ↔ p.req[k] = some r ∧ r.state = .pending := by
  have passive : r.isActive = false ↔ r.state = .pending := by
    cases h : r.state <;> simp [Request.isActive, h]
  simp [anyPending, Option.filter_eq_some_iff, passive]

/-- R101: the record that a full table gives up is the best PENDING one by descending level. -/
theorem lowestPending?_eq_bestOf (p : Plant) : p.lowestPending? = bestOf p.anyPending (fun r => -(r.level : Int)) p.arrivals := by
  unfold lowestPending? bestOf
  refine congrFun (congrFun (congrArg _ (funext fun best => funext fun k => ?_)) _) _
  unfold searchStep
  cases hk : p.req[k] with
  | none => simp only [anyPending, hk, Option.filter_none]
  | some r =>
    cases active : r.isActive with
    | true => simp only [anyPending, hk, Option.filter_some, active, Bool.not_true, Bool.false_eq_true, if_false, if_true]
    | false =>
      simp only [anyPending, hk, Option.filter_some, active, Bool.not_false, Bool.false_eq_true, if_false, if_true, preferred]
      cases best with
      | none => rfl
      | some b => simp only [Int.neg_lt_neg_iff, Int.ofNat_lt]

theorem lowestPending?_eq_some {p : Plant} {k : SlotNo} {r : Request} {older younger : List SlotNo} (at' : p.req[k] = some r)
    (pending : r.state = .pending) (order : p.arrivals = older ++ k :: younger)
    (above : ∀ i ∈ older, ∀ q, p.req[i] = some q → q.state = .pending → r.level < q.level)
    (notBelow : ∀ i ∈ younger, ∀ q, p.req[i] = some q → q.state = .pending → r.level ≤ q.level) :
    p.lowestPending? = some { slot := k, req := r } := by
  rw [lowestPending?_eq_bestOf, order]
  refine bestOf_eq_some _ _ ((p.anyPending_eq_some_iff k r).mpr ⟨at', pending⟩) (fun i mem q found => ?_) fun i mem q found => ?_
  · obtain ⟨hq, waits⟩ := (p.anyPending_eq_some_iff i q).mp found
    exact Int.neg_lt_neg (Int.ofNat_lt.mpr (above i mem q hq waits))
  · obtain ⟨hq, waits⟩ := (p.anyPending_eq_some_iff i q).mp found
    exact Int.neg_le_neg (Int.ofNat_le.mpr (notBelow i mem q hq waits))

/-! ## An arrival (R95 to R101) -/

/-- Nothing is accepted at a junction: it is not IN_STEP, or no request waits there. -/
def NoAcceptance (p : Plant) (j : JIdx) : Prop := p.jn[j].state ≠ .inStep ∨ p.NoCandidate j

theorem NoAcceptance.attempts {p : Plant} {j : JIdx} (h : p.NoAcceptance j) (e : Env) : p.attempts e j = p := by
  rcases h with apart | none
  · exact p.attempts_of_not_inStep e j apart
  · exact none.attempts e

theorem NoAcceptance.of_same {p q : Plant} {j : JIdx} (h : p.NoAcceptance j) (state : q.jn[j].state = p.jn[j].state)
    (req : q.req = p.req) : q.NoAcceptance j := by
  rcases h with apart | none
  · exact .inl (by rw [state]; exact apart)
  · exact .inr (none.of_req req)

/-- R84: a level-0 call sets the flag of a stage that is not green. -/
def called (p : Plant) (j : JIdx) (st : Stage) : Plant :=
  if p.jn[j].green = some st then p else p.upd j fun J => { J with det := { J.det with flags := J.det.flags.set st true } }

theorem levelZeroCall_eq {p : Plant} {j : JIdx} (st : Stage) (coordinated : p.jn[j].state.coordinated = true) :
    p.levelZeroCall j st = p.called j st := by
  unfold levelZeroCall called
  by_cases green : p.jn[j].green = some st
  · rw [if_neg fun h => h.2 green, if_pos green]
  · rw [if_pos ⟨coordinated, green⟩, if_neg green]
    rfl

theorem called_at (p : Plant) (j : JIdx) (st : Stage) : (p.called j st).jn[j] =
    { p.jn[j] with
      det := { p.jn[j].det with
        flags := (if p.jn[j].green = some st then p.jn[j].det.flags else p.jn[j].det.flags.set st true) } } := by
  unfold called
  split
  · rfl
  · exact upd_at p j fun J => { J with det := { J.det with flags := J.det.flags.set st true } }

theorem called_req (p : Plant) (j : JIdx) (st : Stage) : (p.called j st).req = p.req ∧ (p.called j st).arrivals = p.arrivals ∧
    (p.called j st).pool = p.pool ∧ (p.called j st).free = p.free := by
  unfold called
  split <;> exact ⟨rfl, rfl, rfl, rfl⟩

theorem called_others (p : Plant) (j : JIdx) (st : Stage) : p.OthersSame (p.called j st) j := by
  unfold called
  split
  · exact fun _ _ => rfl
  · exact othersSame_upd p j fun J => { J with det := { J.det with flags := J.det.flags.set st true } }

/-- R95: level 0 is a call. -/
theorem arrive_call (e : Env) {p : Plant} {a : Arrival} (coordinated : p.jn[a.junction].state.coordinated = true) (level : a.level = 0)
    (still : p.jn[a.junction].dwell = false) (none : p.NoAcceptance a.junction) :
    p.arrive e a = (p.called a.junction a.stage, .call) := by
  have made := called_at p a.junction a.stage
  have dwell : (p.called a.junction a.stage).jn[a.junction].dwell = false := by rw [made]; exact still
  have accepts := none.of_same (q := p.called a.junction a.stage) (by rw [made]) (called_req ..).1
  simp only [arrive, coordinated, if_true, level, levelZeroCall_eq _ coordinated]
  rw [dwellCheck_of_not_dwell e dwell, accepts.attempts]

/-- R97, R100, R101: an arrival with a new key. -/
theorem arrive_eq_arriveNew (e : Env) {p : Plant} {a : Arrival} (coordinated : p.jn[a.junction].state.coordinated = true)
    (level : 1 ≤ a.level) (fresh : ∀ i : SlotNo, ∀ r, p.req[i] = some r → r.key ≠ a.key) : p.arrive e a = p.arriveNew e a := by
  have notCall : a.level ≠ 0 := by omega
  simp only [arrive, coordinated, if_true, notCall, if_false, slotOf?_eq_none fresh]

theorem arriveNew_free (e : Env) {p : Plant} {a : Arrival} {k : SlotNo} (apart : p.jn[a.junction].state ≠ .inStep)
    (free : p.req[k] = none) (lower : ∀ i : SlotNo, i < k → p.req[i] ≠ none) :
    p.arriveNew e a = (p.writeNew e k a, .new k none) := by
  simp only [arriveNew, freeSlot?_eq_some free lower]
  rw [attempts_of_not_inStep e (p.writeNew e k a) a.junction apart]

theorem arriveNew_dropped (e : Env) {p : Plant} {a : Arrival} (full : ∀ i : SlotNo, p.req[i] ≠ none) (level : a.level ≤ 15) :
    p.arriveNew e a = (p, .full) := by
  simp only [arriveNew, freeSlot?_eq_none full, show a.level ≠ 16 by omega, if_false]

/-- The plant in which an arrival has taken the slot of a PENDING record that ended DISPLACED. -/
def displaced (e : Env) (p : Plant) (k : SlotNo) (r : Request) (a : Arrival) : Plant :=
  { p with
    req := (p.req.set k none).set k (some (newRequest e p.jn[a.junction] a))
    arrivals := (p.arrivals.filter fun i => i != k) ++ [k]
    raised := p.raised ++ [.ended k r.key r.level r.action false .displaced] }

theorem arriveNew_displaces (e : Env) {p : Plant} {a : Arrival} {k : SlotNo} {r : Request} (apart : p.jn[a.junction].state ≠ .inStep)
    (full : ∀ i : SlotNo, p.req[i] ≠ none) (level : a.level = 16) (at' : p.req[k] = some r) (pending : r.state = .pending)
    (lowest : p.lowestPending? = some { slot := k, req := r }) (alone : p.NoCandidateBut r.junction k) :
    p.arriveNew e a = (p.displaced e k r a, .new k (some r.key)) := by
  simp only [arriveNew, freeSlot?_eq_none full, level, if_true, lowest, endAndAttempt_pending e p k .displaced at' pending alone]
  exact Prod.ext (attempts_of_not_inStep e (p.displaced e k r a) a.junction apart) rfl

/-- R99: what a refresh makes of an ACTIVE record. -/
theorem refreshActive_eq {e : Env} {r q : Request} {x : Active} {time : Nat} (state : r.state = .active x)
    (made : r.RefreshedTo x time e.arrived q) : refreshActive e r x time = q := by
  unfold refreshActive
  rcases made with ⟨action, some, cap, hcap, rfl⟩ | ⟨action, some, rfl⟩ | ⟨action, level, rfl, rfl⟩ | ⟨rfl, other, rfl⟩
  · simp only [action, some, if_false, hcap, Option.getD_some]
  · simp only [action, some, if_false]
  · simp only [action, level, if_true]
  · cases action : q.action with
    | extend => simp only [if_true]
    | insert => simp only [if_true, if_neg fun level => other ⟨action, level⟩]

theorem refreshedTo_same {r q : Request} {x : Active} {time moment : Nat} (state : r.state = .active x)
    (made : r.RefreshedTo x time moment q) : q.key = r.key ∧ q.junction = r.junction ∧ ∃ y, q.state = .active y := by
  rcases made with ⟨-, -, cap, -, rfl⟩ | ⟨-, -, rfl⟩ | ⟨-, -, -, rfl⟩ | ⟨-, -, rfl⟩
  · exact ⟨rfl, rfl, _, rfl⟩
  · exact ⟨rfl, rfl, _, rfl⟩
  · exact ⟨rfl, rfl, _, rfl⟩
  · exact ⟨rfl, rfl, _, state⟩

/-! ## The request records of a report (R94, R114) -/

theorem actionOf?_eq_some {n : Nat} {ac : Action} (h : actionOf? n = some ac) : n = ac.code.toNat := by
  unfold actionOf? at h
  split at h <;> cases h <;> rfl

/-- R94, R102: the time and wait limits. -/
theorem limitsGood_iff (level : Nat) (ac : Action) (time wait : Nat) : limitsGood level ac time wait = true ↔
    time ≤ 120 ∧ (time ≠ 0 ∨ ac = .insert ∧ level = 16) ∧ (wait = 0 ∨ 5 ≤ wait) := by
  simp only [limitsGood, Bool.and_eq_true, Bool.or_eq_true, decide_eq_true_eq, beq_iff_eq, and_assoc]

/-- A bad record (R94). -/
def BadRecord (b : List Byte) : Prop :=
  16 < (b.getD 1 0).toNat ∨ (b.getD 2 0).toNat = 0 ∨ 8 < (b.getD 2 0).toNat ∨
    (b.getD 3 0 ≠ 1 ∧ b.getD 3 0 ≠ 2) ∨
    (b.getD 1 0 ≠ 0 ∧ (120 < (b.getD 4 0).toNat ∨ (b.getD 4 0 = 0 ∧ (b.getD 3 0 ≠ 2 ∨ b.getD 1 0 ≠ 16)) ∨
      (1 ≤ (b.getD 5 0).toNat ∧ (b.getD 5 0).toNat ≤ 4)))

theorem unitArrival?_bad (j : JIdx) {b : List Byte} (bad : BadRecord b) : unitArrival? j b = none := by
  unfold unitArrival?
  split
  · rename_i action stage hac hst
    refine if_neg fun good => ?_
    have code : bodyByte b 3 = action.code.toNat := actionOf?_eq_some hac
    have range : 1 ≤ bodyByte b 2 ∧ bodyByte b 2 ≤ 8 := by
      unfold Stage.ofNum? at hst
      split at hst
      · assumption
      · cases hst
    unfold BadRecord at bad
    simp only [bodyByte] at good code range
    generalize b.getD 1 0 = level at *
    generalize b.getD 2 0 = stage' at *
    generalize b.getD 3 0 = kind at *
    generalize b.getD 4 0 = time at *
    generalize b.getD 5 0 = wait at *
    cases action with
    | extend =>
      have code : kind.toNat = 1 := code
      simp only [limitsGood_iff, reduceCtorEq, false_and, or_false] at good
      bv_omega
    | insert =>
      have code : kind.toNat = 2 := code
      simp only [limitsGood_iff, true_and] at good
      bv_omega
  · rfl

/-- R94: a bad record is noticed and nothing more. -/
theorem unitRecord_bad (e : Env) (p : Plant) (j : JIdx) {b : List Byte}
    (bad : b.getD 0 0 = 0 ∨ 1 < (b.getD 6 0).toNat ∨ (b.getD 6 0 = 0 ∧ BadRecord b)) :
    p.unitRecord e j b = p.raise (.badRecord j (bodyByte b 0)) := by
  unfold unitRecord
  by_cases first : bodyByte b 0 = 0 ∨ 1 < bodyByte b 6
  · exact if_pos first
  · obtain ⟨noCheckOut, noArrival⟩ : ¬bodyByte b 6 = 1 ∧ unitArrival? j b = none := by
      rcases bad with zero | flag | ⟨flag, bad⟩
      · exact absurd (.inl (congrArg BitVec.toNat zero)) first
      · exact absurd (.inr flag) first
      · refine ⟨fun one => ?_, unitArrival?_bad j bad⟩
        rw [bodyByte, flag] at one
        exact absurd one (by decide)
    simp only [if_neg first, if_neg noCheckOut, noArrival]

/-- R114: a check-out ends the PENDING record of its key. -/
theorem unitRecord_checkOut (e : Env) {p : Plant} {j : JIdx} {b : List Byte} {k : SlotNo} {r : Request} (apart : p.jn[j].state ≠ .inStep)
    (source : bodyByte b 0 ≠ 0) (flag : bodyByte b 6 = 1) (at' : p.req[k] = some r) (pending : r.state = .pending)
    (key : r.key = { junction := j, source := .unit, id := bodyByte b 0 })
    (only : ∀ i : SlotNo, i ≠ k → ∀ q, p.req[i] = some q → q.key ≠ r.key) :
    p.unitRecord e j b =
      { p with
        req := p.req.set k none
        arrivals := p.arrivals.filter fun i => i != k
        raised := p.raised ++ [.ended k r.key r.level r.action false .cancelled] } := by
  have here : r.junction = j := congrArg Key.junction key
  have found := p.slotOf?_eq_of_unique k r at' only
  rw [key] at found
  have taken : ¬(bodyByte b 0 = 0 ∨ 1 < 1) := by omega
  simp only [unitRecord, flag, if_neg taken, if_true, found, endAndAttempt, at', endRequest_pending e p k .cancelled at' pending, here]
  exact attempts_of_not_inStep e { p with req := _, arrivals := _, raised := _ } j apart

/-- R93: a record that is no check-out is an arrival of source UNIT. -/
theorem unitRecord_arrival (e : Env) (p : Plant) (j : JIdx) {id level time wait : Nat} (ac : Action) (st : Stage) (hid1 : 1 ≤ id)
    (hid : id ≤ 255) (hlevel : level ≤ 16) (htime : time ≤ 255) (hwait : wait ≤ 255)
    (good : level = 0 ∨ limitsGood level ac time wait = true) {a : Arrival}
    (is : a = { junction := j, source := .unit, id := id, level := level, action := ac, stage := st, time := time, wait := wait }) :
    p.unitRecord e j [byte id, byte level, byte (st.val + 1), ac.code, byte time, byte wait, 0] =
      if (p.arrive e a).2 = .full then (p.arrive e a).1.raise (.tableFull a.key a.level) else (p.arrive e a).1 := by
  have arrival : unitArrival? j [byte id, byte level, byte (st.val + 1), ac.code, byte time, byte wait, 0] = some a := by
    simp only [unitArrival?, bodyByte, List.getD_cons_zero, List.getD_cons_succ, toNat_byte id (by omega), toNat_byte level (by omega),
      toNat_byte_stage, toNat_byte time (by omega), toNat_byte wait (by omega), actionOf?_code, stageOfNum?_succ, is]
    exact if_pos (good.imp_right fun limits => ⟨hlevel, limits⟩)
  have source : bodyByte [byte id, byte level, byte (st.val + 1), ac.code, byte time, byte wait, 0] 0 = id := toNat_byte id (by omega)
  have flag : bodyByte [byte id, byte level, byte (st.val + 1), ac.code, byte time, byte wait, 0] 6 = 0 := rfl
  simp only [unitRecord, source, flag, arrival]
  rw [if_neg (by omega), if_neg (by omega)]

end Plant

end Sys2Proof.Machine
end

section
/-! The statement O36: the arrivals of RAISE REQUEST and of the request records of a report. -/

namespace Sys2Proof.Machine

open Sys2Proof

@[simp] theorem byte_toNat (b : Byte) : byte b.toNat = b := by simp [byte]

namespace Plant

/-! ## The record of a new request -/

theorem newRequest_eq (e : Env) (J : Junction) (a : Arrival) (wait : 5 ≤ a.wait) : newRequest e J a =
    { junction := a.junction, source := a.source, id := a.id, level := a.level, action := a.action, stage := a.stage, time := a.time
      wait := a.wait, arrived := e.arrived, state := .pending } := by
  have given : a.wait ≠ 0 := by omega
  simp only [newRequest, resolveWait, given, if_false]

/-- What the request records of a report at a JOINING junction leave alone. -/
structure RecordFrame (p q : Plant) (j : JIdx) : Prop where
  pool : q.pool = p.pool
  free : q.free = p.free
  state : q.jn[j].state = .joining
  chain : q.jn[j].chain = p.jn[j].chain
  others : p.OthersSame q j

theorem RecordFrame.of_jn {p q : Plant} {j : JIdx} (joining : p.jn[j].state = .joining) (pool : q.pool = p.pool) (free : q.free = p.free)
    (jn : q.jn = p.jn) : p.RecordFrame q j where
  pool := pool
  free := free
  state := by rw [jn]; exact joining
  chain := by rw [jn]
  others := fun _ _ => by rw [jn]

theorem RecordFrame.trans {p q r : Plant} {j : JIdx} (h : p.RecordFrame q j) (g : q.RecordFrame r j) : p.RecordFrame r j where
  pool := g.pool.trans h.pool
  free := g.free.trans h.free
  state := g.state
  chain := g.chain.trans h.chain
  others := h.others.trans g.others

/-- R52: without an order in flight there is nothing to compare. -/
theorem compareOrder_of_idle (e : Env) {p : Plant} {j : JIdx} {body : List Byte} (idle : p.jn[j].order = none) :
    p.compareOrder e j body = p := by
  rw [compareOrder, idle]

theorem recordReport_recordFrame (e : Env) {p : Plant} {j : JIdx} (body : List Byte) (joining : p.jn[j].state = .joining) :
    p.RecordFrame (p.recordReport e j body) j where
  pool := rfl
  free := rfl
  state := by rw [recordReport_at]; exact joining
  chain := by rw [recordReport_at]
  others := recordReport_others e p j body

end Plant

/-! ## RAISE REQUEST (R102) -/

namespace State

/-- R84, R95, R97, R102: the first clause of O36. -/
theorem raiseRequest_spec (s : State) (tag : Byte) (j : JIdx) (id level time wait : Nat) (ac : Action) (st : Stage) (k : SlotNo)
    (takes : s.Takes tag 0x40 [byte j.val, byte id, byte level, ac.code, byte (st.val + 1), byte time, byte wait])
    (hid1 : 1 ≤ id) (hid : id ≤ 255) (hlevel : level ≤ 16) (htime1 : 1 ≤ time) (htime : time ≤ 120) (hwait5 : 5 ≤ wait)
    (hwait : wait ≤ 255) :
    (s.plant.jn[j].state.coordinated = false →
      exec .raiseRequest s = .next { s with host := s.host.replied tag 0x40 [2, 3] }) ∧
    (s.plant.jn[j].state.coordinated = true → level = 0 → s.plant.jn[j].dwell = false → s.plant.NoCandidate j →
      exec .raiseRequest s = .next { s with
        plant := s.plant.called j st
        host := s.host.replied tag 0x40 [1, 1] }) ∧
    (s.plant.jn[j].state = .joining → 1 ≤ level →
      (∀ i : SlotNo, ∀ r, s.plant.req[i] = some r → r.key ≠ { junction := j, source := .central, id := id }) →
      s.plant.req[k] = none → (∀ i : SlotNo, i < k → s.plant.req[i] ≠ none) →
      exec .raiseRequest s = .next { s with
        plant := { s.plant with
          req := s.plant.req.set k (some
            { junction := j, source := .central, id := id, level := level, action := ac, stage := st, time := time
              wait := wait, arrived := s.now, state := .pending })
          arrivals := s.plant.arrivals ++ [k] }
        host := s.host.replied tag 0x40 [1, 2, byte k.val, 1] }) := by
  let a := centralArrival j id level time wait ac st
  have handled := s.popIntake.raiseRequest_eq_arrive j id level time wait ac st hid1 hid hlevel (by omega) (by omega)
    (Plant.limitsGood_of_time level ac time wait htime1 htime (.inr hwait5))
  have taken {u : State} {d : List Byte} (answer : s.popIntake.raisedAnswer a (s.plant.arrive s.env a) = (u, .done d))
      (quiet : u.plant.raised = []) (host : u.host = s.popIntake.host) :
      exec .raiseRequest s = .next { u with host := s.host.replied tag 0x40 (1 :: d) } :=
    congrArg Host.Outcome.next (takes.take_of (handled.trans answer) quiet host)
  refine ⟨fun apart => ?_, fun coordinated zero still none => ?_, fun joining level1 fresh free lower => ?_⟩
  · have answer : s.popIntake.raisedAnswer a (s.plant.arrive s.env a) = (s.popIntake, .refused .state) := by
      have nothing : s.plant.arrive s.env a = (s.plant, .noState) := if_neg (Bool.eq_false_iff.mp apart)
      rw [nothing]
      rfl
    exact congrArg Host.Outcome.next (takes.take_same _ _ (handled.trans answer))
  · have call : s.plant.arrive s.env a = (s.plant.called j st, .call) := Plant.arrive_call s.env coordinated zero still (.inr none)
    have quiet : (s.plant.called j st).raised = [] := by
      unfold Plant.called
      split <;> exact takes.quiet
    exact taken (u := { s.popIntake with plant := s.plant.called j st }) (d := [1]) (by rw [call]; rfl) quiet rfl
  · have coordinated : s.plant.jn[j].state.coordinated = true := by rw [joining]; rfl
    have apart : s.plant.jn[j].state ≠ .inStep := by rw [joining]; exact JState.noConfusion
    have new : s.plant.arrive s.env a = (s.plant.writeNew s.env k a, .new k none) :=
      (Plant.arrive_eq_arriveNew s.env (a := a) coordinated level1 fresh).trans (Plant.arriveNew_free s.env (a := a) apart free lower)
    have request := Plant.newRequest_eq s.env s.plant.jn[j] a hwait5
    have written : s.plant.writeNew s.env k a = { s.plant with
        req := s.plant.req.set k (some
          { junction := j, source := .central, id := id, level := level, action := ac, stage := st, time := time
            wait := wait, arrived := s.now, state := .pending })
        arrivals := s.plant.arrivals ++ [k] } := by
      unfold Plant.writeNew
      exact congrArg (fun r => ({ s.plant with req := s.plant.req.set k (some r), arrivals := s.plant.arrivals ++ [k] } : Plant)) request
    rw [written] at new
    refine taken (u := { s.popIntake with plant := _ }) (d := [2, byte k.val, 1]) ?_ takes.quiet rfl
    rw [new]
    simp [raisedAnswer, raisedState, Request.key, Arrival.key, a, centralArrival, Request.isActive, reqStateCode]

/-- R99, R102: the fourth clause of O36. -/
theorem raiseRequest_refreshes_active (s : State) (tag : Byte) (j : JIdx) (id level time wait : Nat) (ac : Action) (st : Stage)
    (k : SlotNo) (r q : Request) (x : Active)
    (takes : s.Takes tag 0x40 [byte j.val, byte id, byte level, ac.code, byte (st.val + 1), byte time, byte wait])
    (hid1 : 1 ≤ id) (hid : id ≤ 255) (hlevel1 : 1 ≤ level) (hlevel : level ≤ 16) (htime : time ≤ 120)
    (unlimited : time = 0 → ac = .insert ∧ level = 16) (hwait5 : wait = 0 ∨ 5 ≤ wait) (hwait : wait ≤ 255)
    (coordinated : s.plant.jn[j].state.coordinated = true) (at' : s.plant.req[k] = some r) (active : r.state = .active x)
    (key : r.key = { junction := j, source := .central, id := id })
    (only : ∀ i : SlotNo, i ≠ k → ∀ o, s.plant.req[i] = some o → o.key ≠ r.key) (none : s.plant.NoCandidate j)
    (made : r.RefreshedTo x time s.now q) :
    exec .raiseRequest s = .next { s with
      plant := { s.plant with req := s.plant.req.set k (some q) }
      host := s.host.replied tag 0x40 [1, 3, byte k.val, 2] } := by
  let a := centralArrival j id level time wait ac st
  have good : Plant.limitsGood level ac time wait = true := by
    rw [Plant.limitsGood_iff]
    exact ⟨htime, (Nat.eq_zero_or_pos time).symm.imp Nat.pos_iff_ne_zero.mp unlimited, hwait5⟩
  have handled := s.popIntake.raiseRequest_eq_arrive j id level time wait ac st hid1 hid hlevel (by omega) (by omega) good
  obtain ⟨sameKey, here, y, stays⟩ := Plant.refreshedTo_same active made
  have written : s.plant.refresh s.env k r a = { s.plant with req := s.plant.req.set k (some q) } := by
    rw [Plant.refresh]
    simp only [active, Plant.refreshActive_eq (e := s.env) active made, Plant.setReq, a, centralArrival]
  have still : ({ s.plant with req := s.plant.req.set k (some q) } : Plant).NoCandidate j := by
    intro i o ho hj
    by_cases same : i = k
    · subst same
      have is : o = q := by simpa using ho.symm
      simp only [is, Request.isActive, stays]
    · have there : (k : Nat) ≠ i := fun hv => same (Fin.ext hv.symm)
      have before : s.plant.req[i] = some o := by
        rwa [Fin.getElem_fin, Vector.getElem_set_ne _ _ there] at ho
      exact none i o before hj
  have arrived : s.plant.arrive s.env a = ({ s.plant with req := s.plant.req.set k (some q) }, .refreshed k) := by
    rw [s.plant.arrive_eq_refresh s.env a k r coordinated hlevel1 at' key only, written]
    exact Prod.ext (still.attempts s.env) rfl
  have answer : s.popIntake.raisedAnswer a (s.plant.arrive s.env a) =
      ({ s.popIntake with plant := { s.plant with req := s.plant.req.set k (some q) } }, .done [3, byte k.val, 2]) := by
    have named : q.key = a.key := sameKey.trans key
    rw [arrived]
    simp [raisedAnswer, raisedState, named, Request.isActive, stays, reqStateCode]
  exact congrArg Host.Outcome.next (takes.take_of (handled.trans answer) takes.quiet rfl)

end State

/-- Settles O36: a record at a JOINING junction is an arrival to which no acceptance follows. -/
theorem requestIsRaised : Obligations.RequestIsRaised := by
  refine ⟨fun s tag j id level time wait ac st k takes hid1 hid hlevel htime1 htime hwait5 hwait => ?_,
    fun s j first body rec report ready joining idle => ?_, fun e p a k r q x coordinated level at' active key only made => ?_, ?_⟩
  · exact s.raiseRequest_spec tag j id level time wait ac st k takes hid1 hid hlevel htime1 htime hwait5 hwait
  · let p := s.plant.recordReport s.env j body
    have framed : s.plant.RecordFrame p j := Plant.recordReport_recordFrame s.env body joining
    have apart : p.jn[j].state ≠ .inStep := by rw [framed.state]; exact JState.noConfusion
    have coordinated : p.jn[j].state.coordinated = true := by rw [framed.state]; rfl
    have kept : p.jn[j] = { s.plant.jn[j] with line := Plant.recordedLine s.env s.plant.jn[j].line body } := Plant.recordReport_at ..
    have still : p.attempts s.env j = p := p.attempts_of_not_inStep s.env j apart
    have compared : p.compareOrder s.env j body = p := Plant.compareOrder_of_idle s.env ((congrArg Junction.order kept).trans idle)
    have taken := report.takeReport_ready first ready (by rw [joining]; rfl) still compared (report.edgeless still)
    have plant : (s.plantEvent fun e p => p.takeReport e j first body).plant = { p.unitRecord s.env j rec with raised := [] } := by
      rw [State.plantEvent, State.finish_plant]
      exact congrArg (fun q : Plant => { q with raised := [] }) taken
    have files (q : Plant) (made : p.unitRecord s.env j rec = q) (pool : q.pool = p.pool) (free : q.free = p.free) (jn : q.jn = p.jn) :
        s.plant.RecordFrame { p.unitRecord s.env j rec with raised := [] } j ∧
          (p.unitRecord s.env j rec).jn[j].det.flags = s.plant.jn[j].det.flags := by
      rw [made]
      refine ⟨framed.trans (.of_jn framed.state pool free jn), ?_⟩
      rw [jn, kept]
    refine ⟨_, report.exec_eq first, State.finish_onPlant_eventFrame s _, ?_⟩
    rw [plant]
    refine ⟨fun id level time wait ac st is hid1 hid hlevel1 hlevel htime1 htime hwait5 hwait fresh => ?_,
      fun id st ac u v is hid1 hid green => ?_, fun id u1 u2 u3 u4 u5 k r is hid1 hid at' pending key only => ?_, fun bad => ?_⟩
    · let a : Arrival := { junction := j, source := .unit, id := id, level := level, action := ac, stage := st, time := time, wait := wait }
      have made := p.unitRecord_arrival s.env j ac st hid1 hid hlevel (by omega) hwait
        (.inr (Plant.limitsGood_of_time level ac time wait htime1 htime (.inr hwait5))) (a := a) rfl
      rw [← is] at made
      have arrive := Plant.arrive_eq_arriveNew s.env (p := p) (a := a) coordinated hlevel1 fresh
      have request := Plant.newRequest_eq s.env p.jn[j] a hwait5
      refine ⟨fun k free lower => ?_, fun full low => ?_, fun k r older younger full top at' pending order above notBelow alone => ?_⟩
      · rw [arrive, Plant.arriveNew_free s.env (p := p) (a := a) apart free lower, if_neg (fun h => nomatch h)] at made
        obtain ⟨frame, flags⟩ := files _ made rfl rfl rfl
        refine ⟨?_, ?_, flags, frame.pool, frame.free, frame.state, frame.chain, frame.others⟩
        · rw [made]
          exact congrArg (fun r => s.plant.req.set k (some r)) request
        · rw [made]
          rfl
      · rw [arrive, Plant.arriveNew_dropped s.env (p := p) (a := a) full low, if_pos rfl] at made
        obtain ⟨frame, flags⟩ := files _ made rfl rfl rfl
        refine ⟨⟨?_, ?_⟩, flags, frame.pool, frame.free, frame.state, frame.chain, frame.others⟩ <;> rw [made] <;> rfl
      · have lowest := Plant.lowestPending?_eq_some (p := p) at' pending order above notBelow
        rw [arrive, Plant.arriveNew_displaces s.env (p := p) (a := a) apart full top at' pending lowest alone, if_neg (fun h => nomatch h)] at made
        obtain ⟨frame, flags⟩ := files _ made rfl rfl rfl
        refine ⟨?_, ?_, flags, frame.pool, frame.free, frame.state, frame.chain, frame.others⟩
        · rw [made]
          exact (Vector.set_set ..).trans (congrArg (fun r => s.plant.req.set k (some r)) request)
        · rw [made]
          rfl
    · let a : Arrival :=
        { junction := j, source := .unit, id := id, level := 0, action := ac, stage := st, time := u.toNat, wait := v.toNat }
      have made := p.unitRecord_arrival s.env j ac st hid1 hid (Nat.zero_le _) (Nat.lt_succ_iff.mp u.isLt) (Nat.lt_succ_iff.mp v.isLt)
        (.inl rfl) (a := a) rfl
      have bytes : [byte id, byte 0, byte (st.val + 1), ac.code, byte u.toNat, byte v.toNat, 0] = rec := by
        rw [is, byte_toNat, byte_toNat]
        rfl
      have call := Plant.arrive_call s.env (p := p) (a := a) coordinated rfl
        ((congrArg Junction.dwell kept).trans report.noDwell) (.inl apart)
      rw [bytes, call, if_neg (fun h => nomatch h)] at made
      have flagged := p.called_at j st
      obtain ⟨req, arrivals, pool, free⟩ := p.called_req j st
      have fresh : p.jn[j].green ≠ some st := fun h => green ((congrArg Junction.green kept).symm.trans h)
      have frame : p.RecordFrame (p.called j st) j :=
        ⟨pool, free, (congrArg Junction.state flagged).trans framed.state, (congrArg Junction.chain flagged :), p.called_others j st⟩
      obtain ⟨hpool, hfree, hstate, hchain, hothers⟩ := framed.trans frame
      rw [made]
      refine ⟨⟨req, arrivals⟩, ?_, hpool, hfree, hstate, hchain, hothers⟩
      refine (congrArg (fun J : Junction => J.det.flags) flagged).trans ((if_neg fresh).trans ?_)
      rw [kept]
    · have source : bodyByte rec 0 = id := by
        rw [is]
        exact toNat_byte id (by omega)
      have made := Plant.unitRecord_checkOut s.env (p := p) apart (by rw [source]; omega) (by rw [is]; rfl) at' pending
        (by rw [source]; exact key) only
      obtain ⟨frame, flags⟩ := files _ made rfl rfl rfl
      refine ⟨?_, ?_, flags, frame.pool, frame.free, frame.state, frame.chain, frame.others⟩ <;> rw [made] <;> rfl
    · have made := p.unitRecord_bad s.env j bad
      obtain ⟨frame, flags⟩ := files _ made rfl rfl rfl
      refine ⟨⟨?_, ?_⟩, flags, frame.pool, frame.free, frame.state, frame.chain, frame.others⟩ <;> rw [made] <;> rfl
  · rw [p.arrive_eq_refresh e a k r coordinated level at' key only, Plant.refresh]
    simp only [active, Plant.refreshActive_eq active made, Plant.setReq]
  · exact fun s tag j id level time wait ac st k r q x takes hid1 hid hlevel1 hlevel htime unlimited hwait5 hwait coordinated at' active key
      only none made => s.raiseRequest_refreshes_active tag j id level time wait ac st k r q x takes hid1 hid hlevel1 hlevel htime
        unlimited hwait5 hwait coordinated at' active key only none made

end Sys2Proof.Machine
end

section
/-! SUPPORT. The acceptance of a request (R107) and its push (R121, R122). The statement O39. -/

namespace Sys2Proof.Machine

open Sys2Proof

namespace Plant

/-! ## The new request is the candidate (R103) -/

/-- R103: where nothing else of the junction waits, a new record is the candidate. -/
theorem candidate?_of_new {p q : Plant} {j : JIdx} {k : SlotNo} {r : Request} (none : p.NoCandidate j) (apart : ∀ i ∈ p.arrivals, i ≠ k)
    (req : q.req = p.req.set k (some r)) (arrivals : q.arrivals = p.arrivals ++ [k]) (here : r.junction = j)
    (passive : r.isActive = false) : q.candidate? j = some { slot := k, req := r } := by
  have found : q.req[k] = some r := by rw [req]; simp
  rw [candidate?_eq_bestOf, arrivals]
  refine bestOf_eq_some _ _ ((q.pendingOf_eq_some_iff j k r).mpr ⟨found, here, passive⟩) (fun i mem o waits => ?_) fun i mem => nomatch mem
  obtain ⟨ho, hj, waiting⟩ := (q.pendingOf_eq_some_iff j i o).mp waits
  have there : (k : Nat) ≠ i := fun hv => apart i mem (Fin.ext hv.symm)
  rw [req, Fin.getElem_fin, Vector.getElem_set_ne _ _ there] at ho
  exact nomatch waiting.symm.trans (none i o ho hj)

/-- A junction where only one record may wait has none that waits when that record is ACTIVE. -/
theorem NoCandidateBut.of_set_active {p q : Plant} {j : JIdx} {k : SlotNo} {r : Request} (none : p.NoCandidateBut j k)
    (req : q.req = p.req.set k (some r)) (active : r.isActive = true) : q.NoCandidate j := by
  intro i o ho hj
  rw [req] at ho
  by_cases same : i = k
  · subst same
    have is : o = r := by simpa using ho.symm
    rw [is, active]
  · have there : (k : Nat) ≠ i := fun hv => same (Fin.ext hv.symm)
    rw [Fin.getElem_fin, Vector.getElem_set_ne _ _ there] at ho
    exact none i same o ho hj

theorem NoCandidate.but {p : Plant} {j : JIdx} (none : p.NoCandidate j) (k : SlotNo) : p.NoCandidateBut j k :=
  fun i _ r hr hj => none i r hr hj

theorem NoCandidate.but_set {p q : Plant} {j : JIdx} {k : SlotNo} {r : Option Request} (none : p.NoCandidate j)
    (req : q.req = p.req.set k r) : q.NoCandidateBut j k := by
  intro i apart o ho hj
  have there : (k : Nat) ≠ i := fun hv => apart (Fin.ext hv.symm)
  rw [req, Fin.getElem_fin, Vector.getElem_set_ne _ _ there] at ho
  exact none i o ho hj

theorem NoCandidate.of_removed {p q : Plant} {j : JIdx} {k : SlotNo} (none : p.NoCandidate j) (req : q.req = p.req.set k Option.none) :
    q.NoCandidate j := (none.but k).removed req

theorem attemptLoop_of_noCandidate (e : Env) {p : Plant} {j : JIdx} (none : p.NoCandidate j) : ∀ n, attemptLoop e j n p = p
  | 0 => rfl
  | n + 1 => by
    have nothing : p.attempt? e j = Option.none := by simp only [attempt?, none.candidate?_eq_none]
    rw [attemptLoop, nothing]

/-- R97, R107: a new request that is acceptable is accepted at once, and nothing waits behind it. -/
theorem arriveNew_accepts (e : Env) {p w q : Plant} {a : Arrival} {k : SlotNo} {r : Request} (none : p.NoCandidate a.junction)
    (apart : ∀ i ∈ p.arrivals, i ≠ k) (free : p.req[k] = Option.none) (lower : ∀ i : SlotNo, i < k → p.req[i] ≠ Option.none)
    (request : newRequest e p.jn[a.junction] a = r) (written : p.writeNew e k a = w) (acceptable : w.acceptable a.junction r = true)
    (accepted : w.accept e a.junction { slot := k, req := r } = q) (after : q.NoCandidate a.junction) :
    p.arriveNew e a = (q, .new k Option.none) := by
  subst request written
  have candidate : (p.writeNew e k a).candidate? a.junction = some { slot := k, req := newRequest e p.jn[a.junction] a } :=
    candidate?_of_new none apart rfl rfl rfl rfl
  simp only [arriveNew, freeSlot?_eq_some free lower]
  rw [attempts_of_acceptable e _ _ _ candidate acceptable, accepted, attemptLoop_of_noCandidate e after]

/-! ## The push (R121) -/

theorem displaceBottom_of_short (e : Env) {p : Plant} {j : JIdx} (short : p.jn[j].stack.length < 2) :
    p.displaceBottom e j = (p, none) := by
  unfold displaceBottom
  split
  · rename_i is
    rw [show p.jn[j].stack = _ from is] at short
    simp at short
  · rfl

end Plant

/-- R121: the record that is pushed, and the records under it. -/
def Junction.pushed (J : Junction) (c : Context) (level : Nat) : Junction :=
  { J with
    stack := c :: J.stack.map fun b => if b.entry = c.entry then { b with saved := c.saved, minReached := c.minReached } else b
    level := level
    force := false
    resuming := none }

namespace Plant

/-- R121: the record over a SERVING host entry. -/
theorem contextFor_serving {p : Plant} {n : EntryNo} (j : JIdx) (k : SlotNo) (serving : p.pool[n].status = .serving)
    (host : p.pool[n].origin = .host) : p.contextFor j k n =
      { slot := k, entry := n, saved := p.pool[n].elapsed.getD 0
        minReached := decide (10 * p.pool[n].minimum ≤ p.pool[n].elapsed.getD 0), prior := p.jn[j].level } := by
  have notService : (p.pool[n].origin == Origin.service) = false := by rw [host]; rfl
  have status : (p.pool[n].status == EntryStatus.serving) = true := by rw [serving]; rfl
  simp only [contextFor, Entry.minDone, if_pos serving, notService, status, Bool.true_and, Bool.or_false]

theorem push_extend (e : Env) {p : Plant} {j : JIdx} {n : EntryNo} {rest : List EntryNo} (k : SlotNo) {r : Request}
    (chain : p.jn[j].chain = n :: rest) (extend : r.action = .extend) :
    p.push e j k r = p.upd j fun J => Junction.pushed J (p.contextFor j k n) r.level := by
  simp only [push, top?, chain, List.head?_cons, extend]
  rfl

end Plant

/-- R107: the count of accepted requests of the cycle. -/
def Junction.accepting (J : Junction) : Junction := { J with tally := { J.tally with accepts := min 15 (J.tally.accepts + 1) } }

namespace Plant

/-- R107: the acceptance of a request that does not end with it. -/
theorem accept_eq (e : Env) {p d q : Plant} {j : JIdx} {k : SlotNo} {r : Request} {gone : Option Key}
    (displaced : p.displaceBottom e j = (d, gone)) (stays : ¬(r.action = .extend ∧ (activated e p.jn[j] r).svcEnd = .due e.now))
    (pushed : (d.setReq k (some { r with state := .active (activated e p.jn[j] r) })).push e j k r = q) :
    p.accept e j { slot := k, req := r } =
      (q.upd j Junction.accepting).raise (.accepted k r.key r.level r.action r.stage gone) := by
  simp only [accept, displaced]
  rw [if_neg stays]
  exact congrArg (fun q : Plant => (q.upd j Junction.accepting).raise (.accepted k r.key r.level r.action r.stage gone)) pushed

end Plant

namespace State

/-- R102: the answer to a RAISE REQUEST whose record was accepted at once. -/
theorem raisedAnswer_accepted (s : State) (a : Arrival) (p : Plant) {k : SlotNo} {r : Request} (at' : p.req[k] = some r)
    (key : r.key = a.key) (active : r.isActive = true) :
    s.raisedAnswer a (p, .new k none) = ({ s with plant := p }, .done [2, byte k.val, 2]) := by
  simp [raisedAnswer, raisedState, at', key, active, reqStateCode]

/-- R97, R102, R107: a RAISE REQUEST with a new key, accepted at once. -/
theorem Takes.raise_accepted {s : State} {tag : Byte} {j : JIdx} {id level time wait : Nat} {ac : Action} {st : Stage}
    (takes : s.Takes tag 0x40 [byte j.val, byte id, byte level, ac.code, byte (st.val + 1), byte time, byte wait])
    (ids : 1 ≤ id ∧ id ≤ 255) (levels : 1 ≤ level ∧ level ≤ 16) (waits : 5 ≤ wait ∧ wait ≤ 255)
    (good : Plant.limitsGood level ac time wait = true) (inStep : s.plant.jn[j].state = .inStep) (none : s.plant.NoCandidate j)
    (fresh : ∀ i : SlotNo, ∀ r, s.plant.req[i] = some r → r.key ≠ { junction := j, source := .central, id := id })
    {k : SlotNo} (apart : ∀ i ∈ s.plant.arrivals, i ≠ k) (free : s.plant.req[k] = .none)
    (lower : ∀ i : SlotNo, i < k → s.plant.req[i] ≠ .none) {p d q : Plant} {r : Request} {act : Active} {gone : Option Key}
    (request : r = { junction := j, source := .central, id := id, level := level, action := ac, stage := st, time := time
                     wait := wait, arrived := s.now, state := .pending })
    (written : p = { s.plant with req := s.plant.req.set k (some r), arrivals := s.plant.arrivals ++ [k] })
    (active : act = Plant.activated s.env s.plant.jn[j] r) (acceptable : p.acceptable j r = true)
    (displaced : p.displaceBottom s.env j = (d, gone)) (others : d.NoCandidateBut j k)
    (stays : ac = .extend → act.svcEnd ≠ .due s.now)
    (pushed : (d.setReq k (some { r with state := .active act })).push s.env j k r = q)
    (table : q.req = d.req.set k (some { r with state := .active act })) :
    ∃ t, exec .raiseRequest s = .next t ∧ s.Answered t tag 0x40 [1, 2, byte k.val, 2] ∧
      t.plant = { q.upd j Junction.accepting with raised := [] } ∧ t.tb = s.tb ∧ t.script = s.script := by
  let a := centralArrival j id level time wait ac st
  have small : time ≤ 120 := ((Plant.limitsGood_iff ..).mp good).1
  have handled := s.popIntake.raiseRequest_eq_arrive j id level time wait ac st ids.1 ids.2 levels.2 (by omega) (by omega) good
  have new : Plant.newRequest s.env s.plant.jn[j] a = r := (Plant.newRequest_eq s.env s.plant.jn[j] a waits.1).trans request.symm
  have made : s.plant.writeNew s.env k a = p := by
    rw [written, ← new]
    rfl
  have act' : Plant.activated s.env p.jn[j] r = act := by rw [active, written]
  have accepted : p.accept s.env j { slot := k, req := r } = _ := Plant.accept_eq s.env (q := q) displaced
    (by rw [act']; rintro ⟨extend, due⟩; exact stays (by rw [← extend, request]) due) (by rw [act']; exact pushed)
  have filed : ((q.upd j Junction.accepting).raise (.accepted k r.key r.level r.action r.stage gone)).req =
      d.req.set k (some { r with state := .active act }) := table
  have arrived : s.plant.arrive s.env a = (_, .new k .none) :=
    (Plant.arrive_eq_arriveNew s.env (a := a) (by rw [show s.plant.jn[a.junction].state = .inStep from inStep]; rfl) levels.1 fresh).trans
      (Plant.arriveNew_accepts s.env (a := a) none apart free lower new made acceptable accepted (others.of_set_active filed rfl))
  have answer := s.popIntake.raisedAnswer_accepted a _ (k := k) (r := { r with state := .active act })
    (by rw [filed]; simp) (by rw [request]; rfl) rfl
  rw [← arrived] at answer
  obtain ⟨answered, plant, tb, script, -⟩ := takes.outcome (handled.trans answer) rfl
  exact ⟨_, rfl, answered, plant, tb, script⟩

end State

/-- Settles O39. -/
theorem extendIsAcceptedAtOnce : Obligations.ExtendIsAcceptedAtOnce := by
  intro s tag j id level time wait st k n rest takes hid1 hid hlevel1 hlevel htime1 htime hwait5 hwait inStep flat stack idle chain host
    serving stage ext noRequest apart free lower
  let r : Request := { junction := j, source := .central, id := id, level := level, action := .extend, stage := st, time := time
                       wait := wait, arrived := s.now, state := .pending }
  let act := Plant.activated s.env s.plant.jn[j] r
  let p : Plant := { s.plant with req := s.plant.req.set k (some r), arrivals := s.plant.arrivals ++ [k] }
  have none : s.plant.NoCandidate j := fun i o ho hj => absurd hj (noRequest i o ho)
  have empty : p.jn[j].stack = [] := stack
  have acceptable : p.acceptable j r = true := (p.acceptable_iff j r).mpr
    ⟨inStep, by rw [show p.jn[j].level = 0 from flat]; exact hlevel1, fun _ => ⟨idle, by rw [empty]; decide⟩,
      fun _ => ⟨n, rest, chain, host, serving, stage⟩⟩
  have stays : act.svcEnd ≠ .due s.now := fun due => by
    have same : min (s.now + 10 * time) (s.now + 10 * s.plant.jn[j].plan.ext) = s.now := ServiceEnd.due.inj due
    omega
  let m := p.setReq k (some { r with state := .active act })
  let c : Context := { slot := k, entry := n, saved := s.plant.pool[n].elapsed.getD 0
                       minReached := decide (10 * s.plant.pool[n].minimum ≤ s.plant.pool[n].elapsed.getD 0), prior := s.plant.jn[j].level }
  have record : m.contextFor j k n = c := Plant.contextFor_serving (p := m) j k serving host
  have pushed := m.push_extend s.env k (j := j) (r := r) chain rfl
  rw [record] at pushed
  obtain ⟨t, run, answered, plant, tb, script⟩ := takes.raise_accepted ⟨hid1, hid⟩ ⟨hlevel1, by omega⟩ ⟨hwait5, hwait⟩
    (Plant.limitsGood_of_time level .extend time wait htime1 htime (.inr hwait5)) inStep none
    (fun i o ho key => noRequest i o ho (congrArg Key.junction key)) apart free lower (r := r) (p := p) (act := act) rfl rfl rfl acceptable
    (Plant.displaceBottom_of_short s.env (by rw [empty]; decide))
    (none.but_set rfl) (fun _ => stays) pushed rfl
  rw [Plant.upd_upd] at plant
  refine ⟨t, run, answered, ?_, ?_, ?_, ?_, ?_, tb, script⟩ <;> rw [plant]
  · refine (Plant.upd_at m j fun J => (J.pushed c level).accepting).trans ?_
    show (s.plant.jn[j].pushed c level).accepting = _
    have map : s.plant.jn[j].pushed c level = { s.plant.jn[j] with stack := [c], level := level, force := false, resuming := .none } := by
      rw [Junction.pushed, stack]
      rfl
    rw [map]
    simp only [c, flat]
    rfl
  · exact Vector.set_set ..
  · rfl
  · rfl
  · exact Plant.othersSame_upd m j fun J => (J.pushed c level).accepting

end Sys2Proof.Machine
end

section
/-! SUPPORT. The push of an INSERT (R121, R122). -/

namespace Sys2Proof.Machine

open Sys2Proof

/-- R121, R122: the junction once the record c has been pushed over the interrupted top x and the service entry f placed. -/
def Junction.opened (J : Junction) (c : Context) (level : Nat) (x : Entry) (f : EntryNo) : Junction :=
  { (J.pushed c level).gapStopped x with allowance := none, dwell := false, chain := f :: J.chain }

namespace Plant

/-- R121, R122: the plant then. -/
def opened (p : Plant) (j : JIdx) (c : Context) (level : Nat) (n f : EntryNo) (rest : List EntryNo) (x : Entry) : Plant :=
  { ((p.upd j fun J => J.opened c level p.pool[n] f).updEnt n unserved).updEnt f (fun _ => x) with free := rest }

theorem interrupt_eq (p : Plant) (j : JIdx) (n : EntryNo) : p.interrupt j n =
    (p.upd j fun J => { J.gapStopped p.pool[n] with allowance := none, dwell := false }).updEnt n unserved := by
  have same : p.interrupt j n = ((p.stopGapOf j n).unserve n).upd j fun J => { J with allowance := none, dwell := false } := rfl
  rw [same, stopGapOf_eq, unserve_eq]
  exact congrArg (fun q : Plant => q.updEnt n unserved)
    (upd_upd p j (fun J => J.gapStopped p.pool[n]) fun J => { J with allowance := none, dwell := false })

theorem opened_eq (p : Plant) (j : JIdx) (c : Context) (level : Nat) {n f : EntryNo} {rest : List EntryNo} (x : Entry)
    (free : p.free = f :: rest) :
    (((p.upd j fun J => J.pushed c level).interrupt j n).place j 0 x).1 = p.opened j c level n f rest x := by
  have drawn : ((p.upd j fun J => J.pushed c level).interrupt j n).free = f :: rest := by rw [interrupt_eq]; exact free
  rw [place_of_free _ j 0 x drawn, interrupt_eq, upd_upd]
  exact congrArg (fun q : Plant => { (q.updEnt n unserved).updEnt f (fun _ => x) with free := rest })
    (upd_upd p j (fun J => { (J.pushed c level).gapStopped p.pool[n] with allowance := none, dwell := false })
      fun J => { J with chain := J.chain.take 0 ++ f :: J.chain.drop 0 })

theorem opened_at (p : Plant) (j : JIdx) (c : Context) (level : Nat) (n f : EntryNo) (rest : List EntryNo) (x : Entry) :
    (p.opened j c level n f rest x).jn[j] = p.jn[j].opened c level p.pool[n] f :=
  upd_at p j fun J => J.opened c level p.pool[n] f

theorem opened_others (p : Plant) (j : JIdx) (c : Context) (level : Nat) (n f : EntryNo) (rest : List EntryNo) (x : Entry) :
    p.OthersSame (p.opened j c level n f rest x) j := othersSame_upd p j fun J => J.opened c level p.pool[n] f

theorem opened_service (p : Plant) (j : JIdx) (c : Context) (level : Nat) (n f : EntryNo) (rest : List EntryNo) (x : Entry) :
    (p.opened j c level n f rest x).pool[f] = x :=
  updEnt_at ((p.upd j fun J => J.opened c level p.pool[n] f).updEnt n unserved) f fun _ => x

theorem opened_top (p : Plant) (j : JIdx) (c : Context) (level : Nat) {n f : EntryNo} (rest : List EntryNo) (x : Entry) (apart : f ≠ n) :
    (p.opened j c level n f rest x).pool[n] = unserved p.pool[n] :=
  (updEnt_elsewhere ((p.upd j fun J => J.opened c level p.pool[n] f).updEnt n unserved) (fun _ => x) apart.symm).trans
    (updEnt_at p n unserved)

theorem opened_entries (p : Plant) (j : JIdx) (c : Context) (level : Nat) (n f : EntryNo) (rest : List EntryNo) (x : Entry) :
    p.EntriesSame (p.opened j c level n f rest x) [n, f] := by
  intro i apart
  rw [List.mem_cons, List.mem_singleton, not_or] at apart
  exact (updEnt_elsewhere ((p.upd j fun J => J.opened c level p.pool[n] f).updEnt n unserved) (fun _ => x) apart.2).trans
    (updEnt_elsewhere p unserved apart.1)

/-- R122: the service entry of an INSERT is ordered, or waits behind the order in flight. -/
structure InsertBegun (p q : Plant) (j : JIdx) (k : SlotNo) (st : Stage) (raised : Nat) (c : Context) (n f : EntryNo)
    (rest : List EntryNo) : Prop where
  chain : q.jn[j].chain = f :: p.jn[j].chain
  level : q.jn[j].level = raised
  stack : q.jn[j].stack = (p.jn[j].pushed c raised).stack
  tally : q.jn[j].tally = p.jn[j].tally
  free : q.free = rest
  service : q.pool[f] = serviceEntry st k
  top : q.pool[n] = unserved p.pool[n]
  entries : p.EntriesSame q [n, f]
  others : p.OthersSame q j
  req : q.req = p.req
  ordered : p.jn[j].order = none → q.jn[j].green = none ∧ q.jn[j].order =
    some { entry := f, live := true, stage := st, tag := p.jn[j].line.lastTag + 1, deadline := none }
  inFlight : ∀ o, p.jn[j].order = some o → q.jn[j].order = some o ∧ q.jn[j].green = p.jn[j].green

/-- R121, R122: the push of an INSERT whose take-over need not wait. -/
theorem push_insert (e : Env) {p : Plant} {j : JIdx} {n f : EntryNo} {behind rest : List EntryNo} (k : SlotNo) {r : Request} {c : Context}
    (chain : p.jn[j].chain = n :: behind) (free : p.free = f :: rest) (apart : f ≠ n) (insert : r.action = .insert)
    (context : p.contextFor j k n = c) (fresh : p.jn[j].green ≠ some r.stage)
    (atOnce : r.level ≤ 15 → (p.pool[n].origin = .host → p.pool[n].status = .serving → c.minReached = true) ∧ p.jn[j].minWait = none) :
    ∃ q, p.push e j k r = q ∧ p.InsertBegun q j k r.stage r.level c n f rest := by
  let o := p.opened j c r.level n f rest (serviceEntry r.stage k)
  let before := p.pool[n].origin == .host && p.pool[n].status == .serving && !c.minReached
  have at' : o.jn[j] = p.jn[j].opened c r.level p.pool[n] f := p.opened_at ..
  have begun : p.push e j k r = o.beginService e j r n before := by
    have placed := p.opened_eq j c r.level (n := n) (serviceEntry r.stage k) free
    simp only [push, top?, chain, List.head?_cons, insert, context]
    exact congrArg (fun q : Plant => q.beginService e j r n before) placed
  have green : o.jn[j].green = p.jn[j].green := (congrArg Junction.green at' :)
  have order : o.jn[j].order = p.jn[j].order := (congrArg Junction.order at' :)
  have waits : o.jn[j].minWait = p.jn[j].minWait := (congrArg Junction.minWait at' :)
  have notGreen : ¬((o.jn[j].order.isNone = true) ∧ o.jn[j].green = some r.stage) := fun h => fresh (green.symm.trans h.2)
  have noWait : ¬(r.level ≤ 15 ∧ (before = true ∨ o.jn[j].minWait.isSome = true)) := by
    rintro ⟨low, held | waiting⟩
    · simp only [before, Bool.and_eq_true, beq_iff_eq, Bool.not_eq_true'] at held
      exact Bool.false_ne_true (held.2.symm.trans ((atOnce low).1 held.1.1 held.1.2))
    · rw [waits, (atOnce low).2] at waiting
      exact nomatch waiting
  let u := o.upd j fun J => { J with minWait := none }
  have takenUp : o.beginService e j r n before = u.orderTop e j := (if_neg notGreen).trans (if_neg noWait)
  have atU : u.jn[j] = { p.jn[j].opened c r.level p.pool[n] f with minWait := none } :=
    (upd_at o j fun J => { J with minWait := none }).trans (congrArg (fun J : Junction => { J with minWait := none }) at')
  have othersU : p.OthersSame u j := (p.opened_others j c r.level n f rest _).trans (othersSame_upd o j fun J => { J with minWait := none })
  have service : u.pool[f] = serviceEntry r.stage k := p.opened_service j c r.level n f rest _
  have chainU : u.jn[j].chain = f :: p.jn[j].chain := (congrArg Junction.chain atU :)
  cases flight : p.jn[j].order with
  | some old =>
    have orderU : u.jn[j].order = some old := (congrArg Junction.order atU :).trans flight
    exact ⟨u, by rw [begun, takenUp, orderTop_inFlight e u j orderU], {
      chain := chainU
      level := by rw [atU]; rfl
      stack := by rw [atU]; rfl
      tally := by rw [atU]; rfl
      free := rfl
      service := service
      top := p.opened_top j c r.level rest _ apart
      entries := p.opened_entries j c r.level n f rest _
      others := othersU
      req := rfl
      ordered := fun none => nomatch flight.symm.trans none
      inFlight := fun o ho => ⟨by rw [orderU, ← flight, ho], by rw [atU]; rfl⟩ }⟩
  | none =>
    have orderU : u.jn[j].order = none := (congrArg Junction.order atU :).trans flight
    have greenU : u.jn[j].green ≠ some u.pool[f].stage := by rw [atU, service]; exact fresh
    have sent := orderTop_sends e u j chainU orderU fun _ => greenU
    have atS := upd_at u j fun J => J.ordered f u.pool[f].stage
    exact ⟨u.upd j fun J => J.ordered f u.pool[f].stage, by rw [begun, takenUp, sent], {
      chain := by rw [atS, atU]; rfl
      level := by rw [atS, atU]; rfl
      stack := by rw [atS, atU]; rfl
      tally := by rw [atS, atU]; rfl
      free := rfl
      service := service
      top := p.opened_top j c r.level rest _ apart
      entries := p.opened_entries j c r.level n f rest _
      others := othersU.trans (othersSame_upd u j fun J => J.ordered f u.pool[f].stage)
      req := rfl
      ordered := fun _ => ⟨by rw [atS]; rfl, by rw [atS, atU, service]; rfl⟩
      inFlight := fun o ho => nomatch flight.symm.trans ho }⟩

end Plant

end Sys2Proof.Machine
end

section
/-! The statement O40: an INSERT that is accepted at once. -/

namespace Sys2Proof.Machine

open Sys2Proof

/-! ## The push onto a stack of no record and of one -/

theorem Junction.pushed_stack_nil {J : Junction} (c : Context) (level : Nat) (empty : J.stack = []) :
    (J.pushed c level).stack = [c] := by
  rw [Junction.pushed, empty]
  rfl

theorem Junction.pushed_stack_single {J : Junction} {b : Context} (c : Context) (level : Nat) (single : J.stack = [b])
    (apart : b.entry ≠ c.entry) : (J.pushed c level).stack = [c, b] := by
  rw [Junction.pushed, single]
  exact congrArg (fun x => [c, x]) (if_neg apart)

/-! ## RAISE REQUEST of an INSERT -/

/-- R97, R102, R107, R122: a RAISE REQUEST of an INSERT with a new key, accepted at once, after the displacement it makes. -/
theorem State.Takes.raise_insert {s : State} {tag : Byte} {j : JIdx} {id level time wait : Nat} {st : Stage}
    (takes : s.Takes tag 0x40 [byte j.val, byte id, byte level, 2, byte (st.val + 1), byte time, byte wait])
    (ids : 1 ≤ id ∧ id ≤ 255) (levels : 1 ≤ level ∧ level ≤ 16) (waits : 5 ≤ wait ∧ wait ≤ 255)
    (good : Plant.limitsGood level .insert time wait = true) (inStep : s.plant.jn[j].state = .inStep) (none : s.plant.NoCandidate j)
    (fresh : ∀ i : SlotNo, ∀ r, s.plant.req[i] = some r → r.key ≠ { junction := j, source := .central, id := id })
    {k : SlotNo} (apart : ∀ i ∈ s.plant.arrivals, i ≠ k) (free : s.plant.req[k] = .none)
    (lower : ∀ i : SlotNo, i < k → s.plant.req[i] ≠ .none) {p d : Plant} {r : Request} {gone : Option Key} {c : Context}
    {n f : EntryNo} {behind rest : List EntryNo}
    (request : r = { junction := j, source := .central, id := id, level := level, action := .insert, stage := st, time := time
                     wait := wait, arrived := s.now, state := .pending })
    (written : p = { s.plant with req := s.plant.req.set k (some r), arrivals := s.plant.arrivals ++ [k] })
    (above : p.jn[j].level < level) (open' : level ≠ 16 → p.jn[j].order = .none ∧ p.jn[j].stack.length < 2)
    (displaced : p.displaceBottom s.env j = (d, gone)) (others : d.NoCandidateBut j k) (chain : d.jn[j].chain = n :: behind)
    (drawn : d.free = f :: rest) (other : f ≠ n) (context : d.contextFor j k n = c) (stage : d.jn[j].green ≠ some st)
    (atOnce : level ≤ 15 → (d.pool[n].origin = .host → d.pool[n].status = .serving → c.minReached = true) ∧ d.jn[j].minWait = .none) :
    ∃ (t : State) (q : Plant) (o : Option Request), exec .raiseRequest s = .next t ∧ s.Answered t tag 0x40 [1, 2, byte k.val, 2] ∧
      (d.setReq k o).InsertBegun q j k st level c n f rest ∧
      t.plant = { q.upd j Junction.accepting with raised := [] } ∧ t.tb = s.tb ∧ t.script = s.script := by
  let act := Plant.activated s.env s.plant.jn[j] r
  have acceptable : p.acceptable j r = true := (p.acceptable_iff j r).mpr
    ⟨by rw [written]; exact inStep, by rw [request]; exact above, by rw [request]; exact open', by rw [request]; exact fun h => nomatch h⟩
  let m := d.setReq k (some { r with state := .active act })
  obtain ⟨q, pushed, begun⟩ := m.push_insert s.env (j := j) k (r := r) chain drawn other (by rw [request]) context
    (by rw [request]; exact stage) (by rw [request]; exact atOnce)
  have staged : r.stage = st ∧ r.level = level := by rw [request]; exact ⟨rfl, rfl⟩
  rw [staged.1, staged.2] at begun
  obtain ⟨t, run, answered, plant, tb, script⟩ := takes.raise_accepted (ac := .insert) ids levels waits good inStep none fresh apart free
    lower request written (act := act) rfl acceptable displaced others (fun h => nomatch h) pushed begun.req
  exact ⟨t, q, _, run, answered, begun, plant, tb, script⟩

/-! ## The displacement of the bottom request (R107, R132) -/

/-- R132: the junction once the service entry of its bottom record has been retired and that record folded into the one above it. -/
def Junction.folded (J : Junction) (nb : EntryNo) (x : Entry) (o : EntryOutcome) (chain : List EntryNo) (top bottom : Context) : Junction :=
  { J.noted nb x (some o) with
    chain := chain
    order := J.order.map (Plant.without nb)
    stack := [{ slot := top.slot, entry := bottom.entry, saved := bottom.saved, minReached := bottom.minReached, prior := bottom.prior }] }

/-- What the displacement of a bottom request leaves. -/
structure Plant.Displaced (p d : Plant) (j : JIdx) (kb : SlotNo) (n nb : EntryNo) (rest : List EntryNo) (top bottom : Context) :
    Prop where
  req : d.req = p.req.set kb none
  free : d.free = p.free ++ [nb]
  cleared : d.pool[nb] = Entry.clear
  entries : p.EntriesSame d [nb]
  others : p.OthersSame d j
  junction : d.jn[j] = p.jn[j].folded nb p.pool[nb] .cut (n :: rest) top bottom

namespace Plant

section Fold

variable {p : Plant} {j : JIdx} {kb : SlotNo} {nb : EntryNo} {ahead behind : List EntryNo}

/-- R132: the service entry of a request is the first entry of its slot. -/
theorem serviceEntryOf?_eq (chain : p.jn[j].chain = ahead ++ nb :: behind)
    (service : p.pool[nb].origin = .service ∧ p.pool[nb].slot = some kb) (first : ∀ i ∈ ahead, p.pool[i].slot ≠ some kb) :
    p.serviceEntryOf? j kb = some nb := by
  have hit : (p.pool[nb].origin == Origin.service && p.pool[nb].slot == some kb) = true := by
    rw [Bool.and_eq_true, beq_iff_eq, beq_iff_eq]
    exact service
  rw [serviceEntryOf?, chain, List.find?_append, List.find?_eq_none.mpr, Option.none_or]
  · simp only [List.find?_cons, hit]
  · intro i mem found
    rw [Bool.and_eq_true, beq_iff_eq, beq_iff_eq] at found
    exact first i mem found.2

theorem retireService_eq {out : ReqOutcome} (chain : p.jn[j].chain = ahead ++ nb :: behind)
    (service : p.pool[nb].origin = .service ∧ p.pool[nb].slot = some kb) (first : ∀ i ∈ ahead, p.pool[i].slot ≠ some kb) :
    p.retireService j kb out = p.retire j nb (some (retireOutcome out)) := by
  rw [retireService, serviceEntryOf?_eq chain service first]

/-- R132: the fold of the bottom record. -/
theorem fold_eq {out : ReqOutcome} {top bottom : Context} (stack : p.jn[j].stack = [top, bottom]) (names : bottom.slot = kb)
    (chain : p.jn[j].chain = ahead ++ nb :: behind) (distinct : nb ∉ ahead)
    (service : p.pool[nb].origin = .service ∧ p.pool[nb].slot = some kb) (first : ∀ i ∈ ahead, p.pool[i].slot ≠ some kb) :
    p.fold j out =
      { (p.upd j fun J => J.folded nb p.pool[nb] (retireOutcome out) (ahead ++ behind) top bottom).updEnt nb (fun _ => Entry.clear) with
        free := p.free ++ [nb] } := by
  have erased : (ahead ++ nb :: behind).erase nb = ahead ++ behind := by
    rw [List.erase_append_right _ distinct, List.erase_cons_head]
  have stands : nb ∈ p.jn[j].chain := by rw [chain]; simp
  rw [fold, stack]
  simp only [names, retireService_eq chain service first, p.retire_eq j nb (some (retireOutcome out)) stands]
  refine congrArg (fun q : Plant => { q.updEnt nb (fun _ => Entry.clear) with free := p.free ++ [nb] })
    ((upd_upd p j (fun J => { J.noted nb p.pool[nb] (some (retireOutcome out)) with
        chain := J.chain.erase nb, order := J.order.map (without nb) })
      fun J => { J with stack := [{ top with entry := bottom.entry, saved := bottom.saved, minReached := bottom.minReached
                                             prior := bottom.prior }] }).trans (p.upd_congr j ?_))
  rw [chain, erased]
  rfl

end Fold

theorem displaceBottom_folds (e : Env) {p : Plant} {j : JIdx} {kb : SlotNo} {rb : Request} {ab : Active} {top bottom : Context}
    {n nb : EntryNo} {rest : List EntryNo} (stack : p.jn[j].stack = [top, bottom]) (names : bottom.slot = kb) (other : top.slot ≠ kb)
    (at' : p.req[kb] = some rb) (here : rb.junction = j) (active : rb.state = .active ab) (chain : p.jn[j].chain = n :: nb :: rest)
    (distinct : n ≠ nb) (service : p.pool[nb].origin = .service ∧ p.pool[nb].slot = some kb) (notTop : p.pool[n].slot ≠ some kb) :
    ∃ d gone, p.displaceBottom e j = (d, gone) ∧ p.Displaced d j kb n nb rest top bottom := by
  let m := p.removeRequest kb
  have isActive : rb.isActive = true := by rw [Request.isActive, active]
  have folded := fold_eq (p := m) (out := .displaced) (ahead := [n]) stack names chain (by simpa using distinct.symm) service
    (fun i mem => by rw [List.mem_singleton.mp mem]; exact notTop)
  have unwound : m.unwind e j kb .displaced = m.fold j .displaced := by
    rw [unwind, show m.jn[j].stack = _ from stack]
    exact (if_neg other).trans (if_pos names)
  have ended : p.endRequest e kb .displaced = (m.fold j .displaced).raiseEnded kb rb .displaced := by
    rw [endRequest, at']
    simp only [isActive, if_true, here]
    exact congrArg (fun q : Plant => q.raiseEnded kb rb .displaced) unwound
  refine ⟨_, _, by rw [displaceBottom, stack], ?_⟩
  rw [names, ended, folded]
  exact {
    req := rfl
    free := rfl
    cleared := updEnt_at (m.upd j _) nb fun _ => Entry.clear
    entries := fun i apart => entriesSame_updEnt (m.upd j _) nb (fun _ => Entry.clear) i apart
    others := othersSame_upd m j fun J => J.folded nb p.pool[nb] .cut (n :: rest) top bottom
    junction := upd_at m j fun J => J.folded nb p.pool[nb] .cut (n :: rest) top bottom }

section Displaced

variable {p d : Plant} {j : JIdx} {kb : SlotNo} {n nb : EntryNo} {rest : List EntryNo} {top bottom : Context}
  (made : p.Displaced d j kb n nb rest top bottom)

include made

theorem Displaced.level : d.jn[j].level = p.jn[j].level := (congrArg Junction.level made.junction :)

theorem Displaced.green : d.jn[j].green = p.jn[j].green := (congrArg Junction.green made.junction :)

theorem Displaced.chain : d.jn[j].chain = n :: rest := (congrArg Junction.chain made.junction :)

theorem Displaced.idle (idle : p.jn[j].order = none) : d.jn[j].order = none :=
  (congrArg Junction.order made.junction).trans (congrArg (Option.map (without nb)) idle)

theorem Displaced.nextTag : d.jn[j].line.lastTag + 1 = p.jn[j].line.lastTag + 1 :=
  (congrArg (fun J : Junction => J.line.lastTag + 1) made.junction :)

theorem Displaced.stack : d.jn[j].stack =
    [{ slot := top.slot, entry := bottom.entry, saved := bottom.saved, minReached := bottom.minReached, prior := bottom.prior }] :=
  (congrArg Junction.stack made.junction :)

theorem Displaced.served : d.jn[j].tally.served = (p.jn[j].tally.addServed
    { stage := p.pool[nb].stage, outcome := .cut, duration := p.pool[nb].elapsed.getD 0 }).served :=
  (congrArg (fun J : Junction => J.tally.served) made.junction :)

theorem Displaced.removed : d.req[kb] = none := by
  rw [made.req, Fin.getElem_fin, Vector.getElem_set_self]

end Displaced

theorem NoCandidateBut.but_removed {p q : Plant} {j : JIdx} {k i : SlotNo} (none : p.NoCandidateBut j k)
    (req : q.req = p.req.set i Option.none) : q.NoCandidateBut j k := by
  intro l apart o ho hj
  rw [req] at ho
  by_cases same : l = i
  · subst same
    simp at ho
  · have there : (i : Nat) ≠ l := fun hv => same (Fin.ext hv.symm)
    rw [Fin.getElem_fin, Vector.getElem_set_ne _ _ there] at ho
    exact none l apart o ho hj

/-- R121: at level 0 a record over a SERVING host entry that has served its minimum holds the minimum as reached. -/
theorem contextFor_minDone {p : Plant} {n : EntryNo} (j : JIdx) (k : SlotNo) (serving : p.pool[n].status = .serving)
    (host : p.pool[n].origin = .host) (flat : p.jn[j].level = 0) (minDone : 10 * p.pool[n].minimum ≤ p.pool[n].elapsed.getD 0) :
    p.contextFor j k n = { slot := k, entry := n, saved := p.pool[n].elapsed.getD 0, minReached := true, prior := 0 } := by
  rw [contextFor_serving j k serving host, decide_eq_true minDone, flat]

/-- A slot's record stays when another slot is written. -/
theorem setReq_elsewhere (p : Plant) {i k : SlotNo} (o : Option Request) (apart : i ≠ k) : (p.setReq k o).req[i] = p.req[i] :=
  Vector.getElem_set_ne k.isLt i.isLt fun same => apart (Fin.ext same.symm)

/-- R121: a record over a SERVING service entry holds the minimum as reached. -/
theorem contextFor_service {p : Plant} {n : EntryNo} (j : JIdx) (k : SlotNo) (serving : p.pool[n].status = .serving)
    (service : p.pool[n].origin = .service) : p.contextFor j k n =
      { slot := k, entry := n, saved := p.pool[n].elapsed.getD 0, minReached := true, prior := p.jn[j].level } := by
  have origin : (p.pool[n].origin == Origin.service) = true := by rw [service]; rfl
  simp only [contextFor, if_pos serving, origin, Bool.or_true]

/-- R121: a record over a WAITING host entry saves nothing. -/
theorem contextFor_waiting {p : Plant} {n : EntryNo} (j : JIdx) (k : SlotNo) (waiting : p.pool[n].status = .waiting)
    (host : p.pool[n].origin = .host) : p.contextFor j k n =
      { slot := k, entry := n, saved := 0, minReached := false, prior := p.jn[j].level } := by
  have notService : (p.pool[n].origin == Origin.service) = false := by rw [host]; rfl
  have status : (p.pool[n].status == EntryStatus.serving) = false := by rw [waiting]; rfl
  have idle : ¬p.pool[n].status = .serving := by rw [waiting]; exact EntryStatus.noConfusion
  simp only [contextFor, Entry.minDone, if_neg idle, notService, status, Bool.false_and, Bool.or_false]

theorem unserved_serving {x : Entry} (serving : x.status = .serving) : unserved x = { x with status := .waiting, elapsed := none } :=
  if_pos serving

theorem unserved_waiting {x : Entry} (waiting : x.status = .waiting) : unserved x = x :=
  if_neg (by rw [waiting]; exact EntryStatus.noConfusion)

end Plant

/-- R102: the limits of an INSERT at level 16. -/
theorem limitsGood16 {time wait : Nat} (htime : time ≤ 120) (hwait : 5 ≤ wait) : Plant.limitsGood 16 .insert time wait = true :=
  (Plant.limitsGood_iff ..).mpr ⟨htime, .inr ⟨rfl, rfl⟩, .inr hwait⟩

/-- Settles O40: a service entry is placed over the top, and at level 16 the bottom request is displaced first. -/
theorem insertIsAcceptedAtOnce : Obligations.InsertIsAcceptedAtOnce := by
  refine ⟨fun s tag j id level time wait st k n f rest free takes hid1 hid hlevel1 hlevel htime1 htime hwait5 hwait inStep flat stack idle
    noWait chain drawn other host serving minDone green noRequest apart hfree lower => ?_,
    fun s tag j id time wait st k n f rest free takes hid1 hid htime hwait5 hwait inStep flat stack chain drawn other host green noRequest
      apart hfree lower => ?_, ?_⟩
  · let r : Request := { junction := j, source := .central, id := id, level := level, action := .insert, stage := st, time := time
                         wait := wait, arrived := s.now, state := .pending }
    let p : Plant := { s.plant with req := s.plant.req.set k (some r), arrivals := s.plant.arrivals ++ [k] }
    have none : s.plant.NoCandidate j := fun i o ho hj => absurd hj (noRequest i o ho)
    have short := (congrArg List.length stack).trans_lt Nat.zero_lt_two
    have context := Plant.contextFor_minDone (p := p) j k serving host flat minDone
    obtain ⟨t, q, o, run, answered, begun, plant, tb, script⟩ := takes.raise_insert ⟨hid1, hid⟩ ⟨hlevel1, by omega⟩ ⟨hwait5, hwait⟩
      (Plant.limitsGood_of_time level .insert time wait htime1 htime (.inr hwait5)) inStep none
      (fun i o ho key => noRequest i o ho (congrArg Key.junction key)) apart hfree lower (r := r) (p := p) rfl rfl
      (flat.trans_lt hlevel1) (fun _ => ⟨idle, short⟩) (Plant.displaceBottom_of_short (p := p) s.env short)
      (none.but_set rfl) chain drawn other context green (fun _ => ⟨fun _ _ => rfl, noWait⟩)
    have at' := q.upd_at j Junction.accepting
    obtain ⟨noGreen, order⟩ := begun.ordered idle
    refine ⟨t, run, answered, ?_, ?_, ?_, ?_, ?_, ?_, ?_, ?_, ?_, ?_, tb, script⟩ <;> rw [plant]
    · exact (congrArg Junction.chain at').trans (begun.chain.trans (congrArg (f :: ·) chain))
    · exact begun.free
    · exact (congrArg Junction.level at').trans begun.level
    · exact (congrArg Junction.stack at').trans (begun.stack.trans (Junction.pushed_stack_nil _ _ stack))
    · exact begun.service
    · exact begun.top.trans (Plant.unserved_serving serving)
    · exact begun.entries
    · exact (congrArg Junction.order at').trans order
    · exact (congrArg Junction.green at').trans noGreen
    · exact begun.others.trans (q.othersSame_upd j Junction.accepting)
  · let r : Request := { junction := j, source := .central, id := id, level := 16, action := .insert, stage := st, time := time
                         wait := wait, arrived := s.now, state := .pending }
    let p : Plant := { s.plant with req := s.plant.req.set k (some r), arrivals := s.plant.arrivals ++ [k] }
    have none : s.plant.NoCandidate j := fun i o ho hj => absurd hj (noRequest i o ho)
    have short := (congrArg List.length stack).trans_lt Nat.zero_lt_two
    obtain ⟨t, q, o, run, answered, begun, plant, tb, script⟩ := takes.raise_insert ⟨hid1, hid⟩ ⟨by decide, by decide⟩ ⟨hwait5, hwait⟩
      (limitsGood16 htime hwait5) inStep none
      (fun i o ho key => noRequest i o ho (congrArg Key.junction key)) apart hfree lower (r := r) (p := p) rfl rfl
      (flat.trans_lt (by decide)) (fun h => absurd rfl h) (Plant.displaceBottom_of_short (p := p) s.env short)
      (none.but_set rfl) chain drawn other (c := p.contextFor j k n) rfl green (fun h => absurd h (by decide))
    have at' := q.upd_at j Junction.accepting
    have stacked := (congrArg Junction.stack at').trans
      (begun.stack.trans (Junction.pushed_stack_nil _ _ stack))
    refine ⟨t, run, answered, ?_, ?_, ?_, ?_, ?_, ?_, tb, script, fun idle serving => ?_, fun old flight waiting => ?_⟩ <;> rw [plant]
    · exact (congrArg Junction.chain at').trans (begun.chain.trans (congrArg (f :: ·) chain))
    · exact begun.free
    · exact (congrArg Junction.level at').trans begun.level
    · exact begun.service
    · exact begun.entries
    · exact begun.others.trans (q.othersSame_upd j Junction.accepting)
    · obtain ⟨noGreen, order⟩ := begun.ordered idle
      rw [Plant.contextFor_serving (p := p) j k serving host, flat] at stacked
      exact ⟨stacked, begun.top.trans (Plant.unserved_serving serving),
        (congrArg Junction.green at').trans noGreen, (congrArg Junction.order at').trans order⟩
    · obtain ⟨order, sameGreen⟩ := begun.inFlight old flight
      rw [Plant.contextFor_waiting (p := p) j k waiting host, flat] at stacked
      exact ⟨stacked, begun.top.trans (Plant.unserved_waiting waiting),
        (congrArg Junction.order at').trans order, (congrArg Junction.green at').trans sameGreen⟩
  · intro s tag j id time wait st k kb rb ab top bottom n nb f rest free takes hid1 hid htime hwait5 hwait inStep below stack names otherSlot
      atB here active chain nodup notBottom serviceB slotB notTop service serving drawn newEntry quiet idle green none fresh apart hfree lower
    let r : Request := { junction := j, source := .central, id := id, level := 16, action := .insert, stage := st, time := time
                         wait := wait, arrived := s.now, state := .pending }
    let p : Plant := { s.plant with req := s.plant.req.set k (some r), arrivals := s.plant.arrivals ++ [k] }
    have distinct : n ≠ nb := fun same => by simp [same] at nodup
    have slots : kb ≠ k := fun same => by
      rw [same, hfree] at atB
      exact nomatch atB
    have atP := (s.plant.setReq_elsewhere (some r) slots).trans atB
    obtain ⟨d, gone, displaced, made⟩ := p.displaceBottom_folds s.env stack names otherSlot atP here active chain distinct
      ⟨serviceB, slotB⟩ notTop
    have others : d.NoCandidateBut j k := ((none.but_set (q := p) rfl).but_removed made.req)
    have top' := made.entries n (List.mem_singleton.not.mpr distinct)
    obtain ⟨t, q, o, run, answered, begun, plant, tb, script⟩ := takes.raise_insert ⟨hid1, hid⟩ ⟨by decide, by decide⟩ ⟨hwait5, hwait⟩
      (limitsGood16 htime hwait5) inStep none fresh apart hfree lower (r := r) (p := p) rfl rfl below (fun h => absurd rfl h) displaced others
      made.chain (made.free.trans (congrArg (· ++ [nb]) drawn)) (fun same => newEntry (same ▸ List.mem_cons_self ..))
      (d.contextFor_service j k ((congrArg Entry.status top').trans serving) ((congrArg Entry.origin top').trans service))
      (made.green.trans_ne green)
      (fun h => absurd h (by decide))
    have at' := q.upd_at j Junction.accepting
    obtain ⟨noGreen, ordered⟩ := begun.ordered (made.idle idle)
    have notN : nb ∉ [n, f] := by
      rw [List.mem_cons, List.mem_singleton, not_or]
      exact ⟨distinct.symm, fun same => newEntry (by simp [← same])⟩
    refine ⟨t, run, answered, ?_, ?_, ?_, ?_, ?_, ?_, ?_, ?_, ?_, ?_, ?_, ?_, tb, script⟩ <;> rw [plant]
    · exact (congrArg (fun v : Vector (Option Request) 24 => v.get kb) begun.req).trans
        ((d.setReq_elsewhere o slots).trans made.removed)
    · exact (congrArg Junction.chain at').trans (begun.chain.trans (congrArg (f :: ·) made.chain))
    · exact begun.free
    · exact (begun.entries nb notN).trans made.cleared
    · exact begun.service
    · exact begun.top.trans ((congrArg Plant.unserved top').trans (Plant.unserved_serving serving))
    · intro i apart
      simp only [List.mem_cons, List.not_mem_nil, or_false, not_or] at apart
      obtain ⟨notTop, notGone, notNew⟩ := apart
      exact (begun.entries i (List.not_mem_cons_of_ne_of_not_mem notTop (List.mem_singleton.not.mpr notNew))).trans
        (made.entries i (List.mem_singleton.not.mpr notGone))
    · exact (congrArg Junction.level at').trans begun.level
    · rw [← made.level, ← top']
      exact (congrArg Junction.stack at').trans (begun.stack.trans (Junction.pushed_stack_single _ _ made.stack notBottom.symm))
    · rw [← made.nextTag]
      exact (congrArg Junction.order at').trans ordered
    · exact (congrArg (fun J : Junction => J.tally.served) at').trans ((congrArg Tally.served begun.tally).trans made.served)
    · exact made.others.trans (begun.others.trans (q.othersSame_upd j Junction.accepting))

end Sys2Proof.Machine
end

section
/-! SUPPORT. The end of an ACTIVE request: its command, the pop of its record, and the resume of the entry beneath (R109 to R113, R127 to
R131). -/

namespace Sys2Proof.Machine

open Sys2Proof

namespace Plant

/-- R112: an ACTIVE record ends, and nothing else waits at its junction. -/
theorem endAndAttempt_active (e : Env) {p q : Plant} {k : SlotNo} {r : Request} {a : Active} {out : ReqOutcome} (at' : p.req[k] = some r)
    (active : r.state = .active a) (unwound : (p.removeRequest k).unwind e r.junction k out = q)
    (none : p.NoCandidateBut r.junction k) (req : q.req = p.req.set k Option.none) :
    p.endAndAttempt e k out = q.raiseEnded k r out := by
  have isActive : r.isActive = true := by rw [Request.isActive, active]
  have ended : p.endRequest e k out = q.raiseEnded k r out := by
    rw [endRequest, at']
    simp only [isActive, if_true, unwound]
  rw [endAndAttempt, at']
  simp only [ended]
  exact (none.removed (q := q.raiseEnded k r out) req).attempts e

end Plant

/-- The service end or the hold end of the ACTIVE request in slot k is reached, with its outcome (R109 to R111). -/
def State.TimedEnd (s : State) (k : SlotNo) (a : Active) (c : Instr) (out : ReqOutcome) : Prop :=
  (c = .serviceEnd k ∧ out = .served ∧ ∃ d, a.svcEnd = .due d ∧ d ≤ s.now) ∨
    (c = .holdEnd k ∧ out = .expired ∧ a.holdEnd ≤ s.now ∧ ∀ d, a.svcEnd = .due d → a.holdEnd < d)

namespace State

section Ends

variable {s : State} {k : SlotNo} {r : Request} {a : Active} {c : Instr} {out : ReqOutcome} {q : Plant}

theorem TimedEnd.exec_eq (ends : s.TimedEnd k a c out) (at' : s.plant.req[k] = some r) (active : r.state = .active a) :
    exec c s = .next (({ s with plant := s.plant.endAndAttempt s.env k out } : State).finish) := by
  rcases ends with ⟨rfl, rfl, d, svcEnd, due⟩ | ⟨rfl, rfl, due, after⟩
  · have reached : Plant.serviceDue s.env a = true := by
      rw [Plant.serviceDue, svcEnd]
      exact decide_eq_true due
    have ended : s.plant.serviceEnd s.env k = s.plant.endAndAttempt s.env k .served := by
      rw [Plant.serviceEnd, at']
      simp only [active, reached, if_true]
    exact congrArg (fun p => Host.Outcome.next ({ s with plant := p } : State).finish) ended
  · have ended : s.plant.holdEnd s.env k = s.plant.endAndAttempt s.env k .expired := by
      rw [Plant.holdEnd, at']
      simp only [active]
      refine (if_pos due).trans (congrArg (s.plant.endAndAttempt s.env k) ?_)
      cases svcEnd : a.svcEnd with
      | due d => exact if_neg (by simpa using after d svcEnd)
      | notStarted => rfl
      | untilCancelled => rfl
    exact congrArg (fun p => Host.Outcome.next ({ s with plant := p } : State).finish) ended

theorem raiseEnded_quiet (quiet : q.raised = []) : { q.raiseEnded k r out with raised := [] } = q := by
  rw [← quiet]
  rfl

/-- R113: CANCEL REQUEST of a request that is ACTIVE. -/
theorem Takes.cancel_active {tag : Byte} (takes : s.Takes tag 0x41 [byte r.junction.val, r.source.code, byte r.id]) (fits : r.id ≤ 255)
    (good : r.source ≠ .guard → 1 ≤ r.id) (guard : r.source = .guard → r.id ≤ 11) (at' : s.plant.req[k] = some r)
    (only : ∀ i : SlotNo, i ≠ k → ∀ q, s.plant.req[i] = some q → q.key ≠ r.key) (active : r.state = .active a)
    (ended : s.plant.endAndAttempt s.env k .cancelled = q.raiseEnded k r .cancelled) (quiet : q.raised = []) :
    ∃ t, exec .cancelRequest s = .next t ∧ s.Answered t tag 0x41 [1, byte k.val, 2] ∧
      t.plant = q ∧ t.tb = s.tb ∧ t.script = s.script := by
  have isActive : r.isActive = true := by rw [Request.isActive, active]
  have found : s.popIntake.plant.slotOf? { junction := r.junction, source := r.source, id := r.id } = some k :=
    s.plant.slotOf?_eq_of_unique k r at' only
  have handled : State.cancelRequest [byte r.junction.val, r.source.code, byte r.id] s.popIntake =
      (s.popIntake.onPlant fun e p => p.endAndAttempt e k .cancelled, .done [byte k.val, 2]) := by
    rw [s.popIntake.cancelRequest_fields r.junction fits (sourceIdGood_of good guard), found]
    simp only [show s.popIntake.plant.req[k] = some r from at', Option.any_some, isActive]
    rfl
  obtain ⟨answered, plant, tb, script, -⟩ := takes.outcome handled rfl
  refine ⟨_, rfl, answered, plant.trans ?_, tb, script⟩
  exact (congrArg (fun p : Plant => { p with raised := [] }) ended).trans (raiseEnded_quiet quiet)

/-- R112: a command that ends an ACTIVE request, the plant once it is unwound. -/
theorem EndsBy.next (ends : s.EndsBy k r a c out) (at' : s.plant.req[k] = some r) (active : r.state = .active a)
    (unwound : (s.plant.removeRequest k).unwind s.env r.junction k out = q) (none : s.plant.NoCandidateBut r.junction k)
    (req : q.req = s.plant.req.set k Option.none) (quiet : q.raised = []) :
    ∃ t, exec c s = .next t ∧ t.plant = q ∧ t.tb = s.tb ∧ t.script = s.script := by
  have ended := Plant.endAndAttempt_active s.env at' active unwound none req
  have timed (h : s.TimedEnd k a c out) : ∃ t, exec c s = .next t ∧ t.plant = q ∧ t.tb = s.tb ∧ t.script = s.script := by
    have frame := finish_eventFrame ({ s with plant := s.plant.endAndAttempt s.env k out } : State)
    refine ⟨_, h.exec_eq at' active, ?_, frame.tb, frame.script⟩
    rw [finish_plant, ended]
    exact raiseEnded_quiet quiet
  rcases ends with served | expired | ⟨rfl, rfl, ⟨tag, takes⟩, fits, good, guard, only⟩
  · exact timed (.inl served)
  · exact timed (.inr expired)
  · obtain ⟨t, taken, -, rest⟩ := takes.cancel_active fits good guard at' only active ended quiet
    exact ⟨t, taken, rest⟩

theorem TimedEnd.endsBy (ends : s.TimedEnd k a c out) : s.EndsBy k r a c out := ends.imp_right .inl

/-- R112, R190: the ENDED notice is offered. -/
theorem TimedEnd.offers (ends : s.TimedEnd k a c out) (at' : s.plant.req[k] = some r) (active : r.state = .active a)
    (unwound : (s.plant.removeRequest k).unwind s.env r.junction k out = q) (none : s.plant.NoCandidateBut r.junction k)
    (req : q.req = s.plant.req.set k Option.none) (quiet : q.raised = []) (armed : hasClass s.report.armed .priority = true)
    (heard : hasClass s.report.paused .priority = false) (room : s.host.frames < 16) {t : State} (made : exec c s = .next t) :
    t.host.frames = s.host.frames + 1 := by
  let u : State := { s with plant := q.raiseEnded k r out }
  have ended := Plant.endAndAttempt_active s.env at' active unwound none req
  have same : t = u.finish := by
    refine Host.Outcome.next.inj (made.symm.trans ?_)
    rw [ends.exec_eq at' active, ended]
  have one : u.plant.raised = [.ended k r.key r.level r.action r.isActive out] := by
    show q.raised ++ _ = _
    rw [quiet, List.nil_append]
  have offered : u.offerAll 0 = { ({ u with plant := { u.plant with raised := [] } } : State) with
      host := { s.host with queue := s.host.queue ++ [noticeFrame (.ended k r.key r.level r.action r.isActive out)] } } := by
    rw [offerAll, one]
    exact foldl_offer_room 0 [_] ({ u with plant := { u.plant with raised := [] } } : State)
      (fun n mem => by rw [List.mem_singleton.mp mem]; exact ⟨armed, heard⟩) room
  rw [same, finish]
  simp only [HostPort.choose_frames]
  rw [offered]
  exact s.host.enqueue_frames _

end Ends

end State

end Sys2Proof.Machine
end

section
/-! SUPPORT. The pop of a record and the resume of the entry beneath (R127, R128). -/

namespace Sys2Proof.Machine

open Sys2Proof

/-- R127: the junction once a record has been popped with its service entry n. -/
def Junction.popped (J : Junction) (n : EntryNo) (x : Entry) (o : EntryOutcome) (chain : List EntryNo) (level : Nat) : Junction :=
  { J.noted n x (some o) with chain := chain, order := J.order.map (Plant.without n), level := level, stack := [] }

/-- R128: the junction once the entry x beneath a popped record waits to be confirmed. -/
def Junction.resumed (J : Junction) (c : Context) (x : Entry) : Junction :=
  { J with
    minWait := none
    resuming := if x.role = .side then some { saved := c.saved, minReached := c.minReached } else none
    force := J.force || (x.role == .side && J.callReached) }

/-- R127: the plant once the record of an INSERT has been popped. -/
def Plant.popped (p : Plant) (j : JIdx) (k : SlotNo) (n : EntryNo) (o : EntryOutcome) (chain : List EntryNo) (level : Nat) : Plant :=
  { ((p.removeRequest k).upd j fun J => J.popped n p.pool[n] o chain level).updEnt n (fun _ => Entry.clear) with
    free := p.free ++ [n] }

namespace Plant

section Pop

variable {p : Plant} {j : JIdx} {k : SlotNo} {n : EntryNo} {rest : List EntryNo} {c : Context}

/-- R127: the pop of an INSERT that alone holds a junction. -/
theorem unwind_pop (e : Env) (out : ReqOutcome) (stack : p.jn[j].stack = [c]) (names : c.slot = k) (chain : p.jn[j].chain = n :: rest)
    (service : p.pool[n].origin = .service ∧ p.pool[n].slot = some k) :
    (p.removeRequest k).unwind e j k out = (p.popped j k n (retireOutcome out) rest c.prior).resume e j c := by
  let m := p.removeRequest k
  have stackM : m.jn[j].stack = [c] := stack
  have retired := retireService_eq (p := m) (out := out) (ahead := []) chain service (fun i mem => (nomatch mem))
  have stands : n ∈ m.jn[j].chain := by rw [show m.jn[j].chain = n :: rest from chain]; exact List.mem_cons_self
  have erased : m.jn[j].chain.erase n = rest := by rw [show m.jn[j].chain = n :: rest from chain, List.erase_cons_head]
  have same : (m.retireService j k out).upd j (fun J => { J with level := c.prior, stack := [] }) =
      p.popped j k n (retireOutcome out) rest c.prior := by
    rw [retired, m.retire_eq j n _ stands]
    refine congrArg (fun q : Plant => { q.updEnt n (fun _ => Entry.clear) with free := p.free ++ [n] })
      ((upd_upd m j (fun J => { J.noted n m.pool[n] (some (retireOutcome out)) with
        chain := J.chain.erase n, order := J.order.map (without n) })
        fun J => { J with level := c.prior, stack := [] }).trans (m.upd_congr j ?_))
    rw [erased]
    rfl
  rw [unwind, show (p.removeRequest k).jn[j].stack = [c] from stackM]
  refine (if_pos names).trans ?_
  rw [pop, show (p.removeRequest k).jn[j].stack = [c] from stackM]
  simp only [names]
  exact congrArg (fun q : Plant => q.resume e j c) same

theorem popped_at (p : Plant) (j : JIdx) (k : SlotNo) (n : EntryNo) (o : EntryOutcome) (chain : List EntryNo) (level : Nat) :
    (p.popped j k n o chain level).jn[j] = p.jn[j].popped n p.pool[n] o chain level :=
  upd_at (p.removeRequest k) j fun J => J.popped n p.pool[n] o chain level

theorem popped_others (p : Plant) (j : JIdx) (k : SlotNo) (n : EntryNo) (o : EntryOutcome) (chain : List EntryNo) (level : Nat) :
    p.OthersSame (p.popped j k n o chain level) j :=
  othersSame_upd (p.removeRequest k) j fun J => J.popped n p.pool[n] o chain level

theorem popped_entries (p : Plant) (j : JIdx) (k : SlotNo) (n : EntryNo) (o : EntryOutcome) (chain : List EntryNo) (level : Nat) :
    p.EntriesSame (p.popped j k n o chain level) [n] :=
  entriesSame_updEnt ((p.removeRequest k).upd j fun J => J.popped n p.pool[n] o chain level) n fun _ => Entry.clear

theorem popped_cleared (p : Plant) (j : JIdx) (k : SlotNo) (n : EntryNo) (o : EntryOutcome) (chain : List EntryNo) (level : Nat) :
    (p.popped j k n o chain level).pool[n] = Entry.clear :=
  updEnt_at ((p.removeRequest k).upd j fun J => J.popped n p.pool[n] o chain level) n fun _ => Entry.clear

end Pop

section Resume

variable {p : Plant} {j : JIdx} {h : EntryNo} {rest : List EntryNo} {c : Context}

/-- R130: the force of a resumed top that is not confirmed is held. -/
theorem resumeForce_waiting (e : Env) (chain : p.jn[j].chain = h :: rest) (host : p.pool[h].origin = .host)
    (waiting : p.pool[h].status = .waiting) (level : p.jn[j].level = 0) (minReached : Bool) : p.resumeForce e j minReached =
      p.upd j fun J => { J with force := J.force || (p.pool[h].role == .side && J.callReached) } := by
  have notServing : ¬(p.pool[h].status = .serving ∧ minReached = true) := fun both => nomatch waiting.symm.trans both.1
  rw [resumeForce, topEntry?_cons chain]
  simp only [host, level, true_and, and_true]
  by_cases due : p.pool[h].role = .side ∧ p.jn[j].callReached = true
  · refine (if_pos due).trans ((if_neg notServing).trans (p.upd_congr j ?_))
    rw [due.1, due.2, Bool.or_comm]
    rfl
  · have none : (p.pool[h].role == .side && p.jn[j].callReached) = false := by
      rw [Bool.eq_false_iff]
      exact fun both => due ((Bool.and_eq_true _ _ ▸ both).imp_left beq_iff_eq.mp)
    exact (if_neg due).trans (p.upd_id j _ (Junction.force_self ((Bool.or_false _).symm.trans (congrArg (p.jn[j].force || ·) none.symm)))).symm

/-- R128: the resume of an entry that is not SERVING, the junction K once its stage has been ordered, or not. -/
theorem resume_waits (e : Env) {K : Junction} (chain : p.jn[j].chain = h :: rest) (host : p.pool[h].origin = .host)
    (waiting : p.pool[h].status = .waiting) (level : p.jn[j].level = 0) (waits : p.jn[j].minWait = none ∨ p.jn[j].minWait = some h)
    (ordered : (p.upd j fun J => { J with
        minWait := none
        resuming := if p.pool[h].role = .side then some { saved := c.saved, minReached := c.minReached } else none }).orderTop e j =
      p.upd j fun _ => K) (chainK : K.chain = h :: rest) (levelK : K.level = 0) :
    p.resume e j c = p.upd j fun _ => { K with force := K.force || (p.pool[h].role == .side && K.callReached) } := by
  have atK : (p.upd j fun _ => K).jn[j] = K := upd_at p j fun _ => K
  have forced := resumeForce_waiting (p := p.upd j fun _ => K) e (by rw [atK]; exact chainK) host waiting (by rw [atK]; exact levelK)
    c.minReached
  rw [upd_upd, upd_pool] at forced
  have opened : (p.upd j fun J => { J with
        minWait := none
        resuming := if J.level = 0 ∧ p.pool[h].origin = .host ∧ p.pool[h].role = .side
          then some { saved := c.saved, minReached := c.minReached } else none }) =
      p.upd j fun J => { J with
        minWait := none
        resuming := if p.pool[h].role = .side then some { saved := c.saved, minReached := c.minReached } else none } := by
    refine p.upd_congr j ?_
    simp only [level, host, true_and]
  have topF : (p.upd j fun _ => { K with force := K.force || (p.pool[h].role == .side && K.callReached) }).topEntry? j =
      some p.pool[h] := topEntry?_cons (by rw [upd_at]; exact chainK)
  have still : ¬(p.jn[j].minWait.isSome = true ∧ p.jn[j].minWait ≠ some h) := by
    rcases waits with none | held
    · rw [none]; exact fun both => nomatch both.1
    · exact fun both => both.2 held
  have notServing : ¬p.pool[h].status = .serving := fun serving => nomatch waiting.symm.trans serving
  rw [resume, top?, chain]
  simp only [List.head?_cons]
  refine (if_neg still).trans ((if_neg notServing).trans ?_)
  rw [opened, ordered, forced, topF]
  exact if_neg notServing

/-- R128, R131: the order in flight goes on. -/
theorem resume_inFlight (e : Env) {o : OrderInFlight} (chain : p.jn[j].chain = h :: rest) (host : p.pool[h].origin = .host)
    (waiting : p.pool[h].status = .waiting) (level : p.jn[j].level = 0) (waits : p.jn[j].minWait = none ∨ p.jn[j].minWait = some h)
    (order : p.jn[j].order = some o) : p.resume e j c = p.upd j fun J => J.resumed c p.pool[h] := by
  refine (resume_waits e (K := { p.jn[j] with
      minWait := none
      resuming := if p.pool[h].role = .side then some { saved := c.saved, minReached := c.minReached } else none })
    chain host waiting level waits ?_ chain level).trans (p.upd_congr j rfl)
  rw [orderTop_inFlight e _ j (o := o) (by rw [upd_at]; exact order)]
  exact p.upd_congr j rfl

/-- R128: the stage of the entry is ordered again. -/
theorem resume_orders (e : Env) (chain : p.jn[j].chain = h :: rest) (host : p.pool[h].origin = .host)
    (waiting : p.pool[h].status = .waiting) (level : p.jn[j].level = 0) (waits : p.jn[j].minWait = none ∨ p.jn[j].minWait = some h)
    (idle : p.jn[j].order = none) (fresh : p.jn[j].green ≠ some p.pool[h].stage) :
    p.resume e j c = p.upd j fun J => (J.resumed c p.pool[h]).ordered h p.pool[h].stage := by
  let f : Junction → Junction := fun J => { J with
    minWait := none
    resuming := if p.pool[h].role = .side then some { saved := c.saved, minReached := c.minReached } else none }
  have at' : (p.upd j f).jn[j] = f p.jn[j] := upd_at p j f
  refine (resume_waits e (K := (f p.jn[j]).ordered h p.pool[h].stage) chain host waiting level waits ?_ chain level).trans
    (p.upd_congr j rfl)
  rw [orderTop_sends e (p.upd j f) j (n := h) (rest := rest) (by rw [at']; exact chain) (by rw [at']; exact idle)
    fun _ => by rw [at']; exact fresh, upd_upd]
  exact p.upd_congr j rfl

end Resume

end Plant

end Sys2Proof.Machine
end

section
/-! SUPPORT. The end of an INSERT that alone holds a junction, its interrupted entry not SERVING (R127, R128). -/

namespace Sys2Proof.Machine

open Sys2Proof

namespace State

/-- The INSERT in slot k alone holds a junction over the interrupted host entry h (the part of `InsertOver` that its end turns on). -/
structure InsertAlone (s : State) (j : JIdx) (k : SlotNo) (r : Request) (a : Active) (n h : EntryNo) (rest : List EntryNo)
    (ctx : Context) : Prop where
  quiet : s.plant.raised = []
  slot : s.plant.req[k] = some r
  junction : r.junction = j
  active : r.state = .active a
  inStep : s.plant.jn[j].state = .inStep
  stack : s.plant.jn[j].stack = [ctx]
  names : ctx.slot = k
  prior : ctx.prior = 0
  chain : s.plant.jn[j].chain = n :: h :: rest
  apart : n ≠ h
  service : s.plant.pool[n].origin = .service ∧ s.plant.pool[n].slot = some k
  host : s.plant.pool[h].origin = .host
  waiting : s.plant.pool[h].status = .waiting
  waits : s.plant.jn[j].minWait = none ∨ s.plant.jn[j].minWait = some h
  noRequest : s.plant.NoCandidateBut j k

/-- The plant once the INSERT has been popped, before the resume. -/
def unheld (s : State) (j : JIdx) (k : SlotNo) (n : EntryNo) (out : ReqOutcome) (rest : List EntryNo) : Plant :=
  s.plant.popped j k n (retireOutcome out) rest 0

/-- What the end of the INSERT makes of the plant, the resume a change f of the junction. -/
structure Unheld (s t : State) (j : JIdx) (k : SlotNo) (n : EntryNo) (K : Junction) : Prop where
  junction : t.plant.jn[j] = K
  req : t.plant.req = s.plant.req.set k none
  free : t.plant.free = s.plant.free ++ [n]
  cleared : t.plant.pool[n] = Entry.clear
  entries : s.plant.EntriesSame t.plant [n]
  others : s.plant.OthersSame t.plant j
  tb : t.tb = s.tb
  script : t.script = s.script

variable {s : State} {j : JIdx} {k : SlotNo} {r : Request} {a : Active} {n h : EntryNo} {rest : List EntryNo} {ctx : Context}

theorem InsertOver.alone (holds : s.InsertOver j k r a n h rest ctx) : s.InsertAlone j k r a n h rest ctx where
  quiet := holds.quiet
  slot := holds.slot
  junction := holds.junction
  active := holds.active
  inStep := holds.inStep
  stack := holds.stack
  names := holds.names.1
  prior := holds.names.2.2
  chain := holds.chain
  apart := fun same => (List.nodup_cons.mp holds.distinct).1 (same ▸ List.mem_cons_self)
  service := ⟨holds.service.1, holds.service.2.1⟩
  host := holds.host.1
  waiting := holds.host.2.2
  waits := holds.waits
  noRequest := holds.noRequest

namespace InsertAlone

theorem unwound (alone : s.InsertAlone j k r a n h rest ctx) (out : ReqOutcome) :
    (s.plant.removeRequest k).unwind s.env r.junction k out = (s.unheld j k n out (h :: rest)).resume s.env j ctx := by
  rw [alone.junction, Plant.unwind_pop s.env out alone.stack alone.names alone.chain alone.service, alone.prior]
  rfl

/-- The junction once its INSERT has been popped. -/
theorem unheld_at (s : State) (j : JIdx) (k : SlotNo) (n : EntryNo) (out : ReqOutcome) (chain : List EntryNo) :
    (s.unheld j k n out chain).jn[j] = s.plant.jn[j].popped n s.plant.pool[n] (retireOutcome out) chain 0 :=
  s.plant.popped_at j k n _ chain 0

theorem interrupted (alone : s.InsertAlone j k r a n h rest ctx) (out : ReqOutcome) (chain : List EntryNo) :
    (s.unheld j k n out chain).pool[h] = s.plant.pool[h] :=
  s.plant.popped_entries j k n _ chain 0 h fun mem => alone.apart (List.mem_singleton.mp mem).symm

theorem resumes_inFlight (alone : s.InsertAlone j k r a n h rest ctx) (out : ReqOutcome) {o : OrderInFlight}
    (order : s.plant.jn[j].order = some o) : (s.unheld j k n out (h :: rest)).resume s.env j ctx =
      (s.unheld j k n out (h :: rest)).upd j fun J => J.resumed ctx s.plant.pool[h] := by
  have at' := unheld_at s j k n out (h :: rest)
  have same := alone.interrupted out (h :: rest)
  rw [Plant.resume_inFlight s.env (o := Plant.without n o) (by rw [at']; rfl) (by rw [same]; exact alone.host)
    (by rw [same]; exact alone.waiting) (by rw [at']; rfl) (by rw [at']; exact alone.waits)
    (by rw [at']; exact congrArg (Option.map _) order), same]

theorem resumes_ordered (alone : s.InsertAlone j k r a n h rest ctx) (out : ReqOutcome) (idle : s.plant.jn[j].order = none)
    (fresh : s.plant.jn[j].green ≠ some s.plant.pool[h].stage) : (s.unheld j k n out (h :: rest)).resume s.env j ctx =
      (s.unheld j k n out (h :: rest)).upd j fun J => (J.resumed ctx s.plant.pool[h]).ordered h s.plant.pool[h].stage := by
  have at' := unheld_at s j k n out (h :: rest)
  have same := alone.interrupted out (h :: rest)
  rw [Plant.resume_orders s.env (by rw [at']; rfl) (by rw [same]; exact alone.host)
    (by rw [same]; exact alone.waiting) (by rw [at']; rfl) (by rw [at']; exact alone.waits)
    (by rw [at']; exact congrArg (Option.map _) idle) (by rw [same, at']; exact fresh), same]

/-- The end of the INSERT once it is known what the resume makes of the junction. -/
theorem unheld (_ : s.InsertAlone j k r a n h rest ctx) (out : ReqOutcome) {f : Junction → Junction} {t : State}
    (plant : t.plant = (s.unheld j k n out (h :: rest)).upd j f) (tb : t.tb = s.tb) (script : t.script = s.script) :
    s.Unheld t j k n (f (s.plant.jn[j].popped n s.plant.pool[n] (retireOutcome out) (h :: rest) 0)) where
  junction := by rw [plant, Plant.upd_at, unheld_at]
  req := by rw [plant]; rfl
  free := by rw [plant]; rfl
  cleared := by rw [plant]; exact s.plant.popped_cleared j k n _ _ 0
  entries := by rw [plant]; exact s.plant.popped_entries j k n _ _ 0
  others := by rw [plant]; exact (s.plant.popped_others j k n _ _ 0).trans (Plant.othersSame_upd _ j f)
  tb := tb
  script := script

theorem next (alone : s.InsertAlone j k r a n h rest ctx) {c : Instr} {out : ReqOutcome} (ends : s.EndsBy k r a c out)
    {f : Junction → Junction}
    (resumes : (s.unheld j k n out (h :: rest)).resume s.env j ctx = (s.unheld j k n out (h :: rest)).upd j f) :
    ∃ t, exec c s = .next t ∧
      s.Unheld t j k n (f (s.plant.jn[j].popped n s.plant.pool[n] (retireOutcome out) (h :: rest) 0)) := by
  obtain ⟨t, made, plant, tb, script⟩ := ends.next alone.slot alone.active ((alone.unwound out).trans resumes)
    (alone.junction ▸ alone.noRequest) rfl alone.quiet
  exact ⟨t, made, alone.unheld out plant tb script⟩

theorem next_inFlight (alone : s.InsertAlone j k r a n h rest ctx) {c : Instr} {out : ReqOutcome} (ends : s.EndsBy k r a c out)
    {o : OrderInFlight} (order : s.plant.jn[j].order = some o) : ∃ t, exec c s = .next t ∧
      s.Unheld t j k n ((s.plant.jn[j].popped n s.plant.pool[n] (retireOutcome out) (h :: rest) 0).resumed ctx s.plant.pool[h]) :=
  alone.next ends (alone.resumes_inFlight out order)

theorem next_ordered (alone : s.InsertAlone j k r a n h rest ctx) {c : Instr} {out : ReqOutcome} (ends : s.EndsBy k r a c out)
    (idle : s.plant.jn[j].order = none) (fresh : s.plant.jn[j].green ≠ some s.plant.pool[h].stage) : ∃ t, exec c s = .next t ∧
      s.Unheld t j k n (((s.plant.jn[j].popped n s.plant.pool[n] (retireOutcome out) (h :: rest) 0).resumed ctx
        s.plant.pool[h]).ordered h s.plant.pool[h].stage) :=
  alone.next ends (alone.resumes_ordered out idle fresh)

end InsertAlone

/-- The pop of the record, the junction known (R112, R127). -/
theorem Unheld.popped {t : State} {K : Junction} (unheld : s.Unheld t j k n K) (level : K.level = 0) (stack : K.stack = [])
    (minWait : K.minWait = none) (state : K.state = .inStep) : s.Popped t j k n where
  req := unheld.req
  level := by rw [unheld.junction, level]
  stack := by rw [unheld.junction, stack]
  free := unheld.free
  cleared := unheld.cleared
  minWait := by rw [unheld.junction, minWait]
  state := by rw [unheld.junction, state]
  others := unheld.others
  tb := unheld.tb
  script := unheld.script

end State

end Sys2Proof.Machine
end

section
/-! SUPPORT. The end of a RECURRING top (R58, R64), and the end of an EXTEND (R127, R129). -/

namespace Sys2Proof.Machine

open Sys2Proof

namespace Plant

section Ends

variable {p : Plant} {j : JIdx} {n m : EntryNo} {rest : List EntryNo}

/-- The top n has ended, and the entry m behind it has been ordered. -/
structure TurnedTo (p q : Plant) (j : JIdx) (n m : EntryNo) (rest : List EntryNo) (out : EntryOutcome) : Prop where
  junction : q.jn[j] = Junction.ordered { p.jn[j].noted n p.pool[n] (some out) with
    chain := m :: (rest ++ [n]), allowance := none, resuming := none } m p.pool[m].stage
  ended : q.pool[n] = rotated p.pool[n] (some out)
  entries : p.EntriesSame q [n]
  others : p.OthersSame q j
  req : q.req = p.req
  raised : q.raised = p.raised

/-- R58, R59: the top ends, and the walk stops at the next entry. -/
theorem voluntaryEnd_turns (e : Env) (out : EntryOutcome) (chain : p.jn[j].chain = n :: m :: rest)
    (kind : p.pool[n].kind = .recurring) (apart : n ≠ m) (idle : p.jn[j].order = none) (fresh : p.jn[j].green ≠ some p.pool[m].stage)
    (servable : p.servable j p.pool[m] = true) : p.TurnedTo (p.voluntaryEnd e j out) j n m rest out := by
  obtain ⟨junction, ended, entries, others, free, req, raised⟩ := endTop_turnedBy out chain kind
  let q := p.endTop j out
  have next : q.pool[m] = p.pool[m] := entries m fun mem => apart (List.mem_singleton.mp mem).symm
  have chainQ : q.jn[j].chain = m :: (rest ++ [n]) := by rw [junction]; rfl
  have stops : q.servable j q.pool[m] = true := by
    rw [next, servable_iff, junction]
    exact (p.servable_iff j p.pool[m]).mp servable
  have made : p.voluntaryEnd e j out = q.upd j fun J => J.ordered m p.pool[m].stage := by
    rw [voluntaryEnd, chainFuel, walk_stops e j 16 q chainQ (.inr stops),
      orderTop_sends e q j chainQ (by rw [junction]; exact idle) fun _ => by rw [junction, next]; exact fresh, next]
  rw [made]
  exact {
    junction := by rw [upd_at, junction]; rfl
    ended := ended
    entries := entries
    others := others.trans (othersSame_upd q j fun J => J.ordered m p.pool[m].stage)
    req := req
    raised := raised }

/-- R64: the top ends FORCED and the entries up to the BAND entry are passed. -/
structure ForcedTo (p q : Plant) (j : JIdx) (h b : EntryNo) (skipped behind : List EntryNo) : Prop where
  chain : q.jn[j].chain = b :: (behind ++ h :: skipped)
  ended : q.pool[h] = rotated p.pool[h] (some .forced)
  passed : ∀ i ∈ skipped, q.pool[i] = rotated p.pool[i] (some .passed)
  entries : p.EntriesSame q (h :: skipped)
  others : p.OthersSame q j
  order : q.jn[j].order =
    some { entry := b, live := true, stage := p.pool[b].stage, tag := p.jn[j].line.lastTag + 1, deadline := none }
  green : q.jn[j].green = none
  force : q.jn[j].force = false
  allowance : q.jn[j].allowance = none
  resuming : q.jn[j].resuming = none
  minWait : q.jn[j].minWait = p.jn[j].minWait
  level : q.jn[j].level = p.jn[j].level
  stack : q.jn[j].stack = p.jn[j].stack
  state : q.jn[j].state = p.jn[j].state
  dwell : q.jn[j].dwell = false
  rows : q.jn[j].det.rows = p.jn[j].det.rows ∧ q.jn[j].det.rowsValid = p.jn[j].det.rowsValid
  free : q.free = p.free
  req : q.req = p.req
  raised : q.raised = p.raised

theorem forceOff_passes (e : Env) {h b : EntryNo} {skipped behind : List EntryNo}
    (chain : p.jn[j].chain = h :: (skipped ++ b :: behind)) (kind : p.pool[h].kind = .recurring) (sides : p.Sides skipped)
    (band : p.pool[b].role = .band) (distinct : (h :: (skipped ++ b :: behind)).Nodup)
    (bound : (h :: (skipped ++ b :: behind)).length ≤ 16) (idle : p.jn[j].order = none)
    (fresh : p.jn[j].green ≠ some p.pool[b].stage) : p.ForcedTo (p.forceOff e j) j h b skipped behind := by
  obtain ⟨junction, ended, entries, others, free, req, raised⟩ := endTop_turnedBy .forced chain kind
  obtain ⟨hNew, tail⟩ := List.nodup_cons.mp distinct
  obtain ⟨skippedDistinct, -, disjoint⟩ := List.nodup_append.mp tail
  have bApart : b ∉ skipped := fun mem => disjoint b mem b List.mem_cons_self rfl
  have hApart : h ∉ skipped := fun mem => hNew (List.mem_append_left _ mem)
  have away (i : EntryNo) (mem : i ∈ skipped ++ b :: behind) : (p.endTop j .forced).pool[i] = p.pool[i] :=
    entries i fun here => hNew (List.mem_singleton.mp here ▸ mem)
  let q := p.endTop j .forced
  let u := rotations j (some .passed) skipped.length q
  have chainQ : q.jn[j].chain = skipped ++ (b :: (behind ++ [h])) := by
    rw [junction, ← List.cons_append, ← List.append_assoc]
  have turned := rotations_turnedBy j (some .passed) q chainQ skippedDistinct
  have chainU : u.jn[j].chain = b :: (behind ++ h :: skipped) :=
    (turned.chain _ chainQ).trans (by rw [List.cons_append, List.append_assoc, List.singleton_append])
  have bandU : u.pool[b] = p.pool[b] := (turned.entries b bApart).trans (away b (List.mem_append_right _ List.mem_cons_self))
  have frame : u.jn[j].order = none ∧ u.jn[j].green = p.jn[j].green ∧ u.jn[j].line = p.jn[j].line ∧ u.jn[j].allowance = none ∧
      u.jn[j].resuming = none ∧ u.jn[j].minWait = p.jn[j].minWait ∧ u.jn[j].level = p.jn[j].level ∧ u.jn[j].stack = p.jn[j].stack ∧
      u.jn[j].state = p.jn[j].state ∧ u.jn[j].det.rows = p.jn[j].det.rows ∧ u.jn[j].det.rowsValid = p.jn[j].det.rowsValid := by
    rw [turned.frame, junction]
    exact ⟨idle, rfl, rfl, rfl, rfl, rfl, rfl, rfl, rfl, rfl, rfl⟩
  obtain ⟨order, green, line, allowance, resuming, minWait, level, stack, state, rows⟩ := frame
  have fuel : chainFuel = skipped.length + ((16 - skipped.length) + 1) := by
    simp only [List.length_append, List.length_cons] at bound
    rw [chainFuel]
    omega
  have passed : passToBand j chainFuel q = u := by
    rw [fuel, passToBand_sides j _ q chainQ skippedDistinct fun i mem => by
      rw [away i (List.mem_append_left _ mem)]; exact sides i mem]
    exact passToBand_stops j _ u chainU (by rw [bandU]; exact band)
  let f : Junction → Junction := fun J => { J.ordered b p.pool[b].stage with force := false }
  have made : p.forceOff e j = u.upd j f := by
    rw [forceOff, passed, orderTop_sends e u j chainU order fun _ => by rw [green, bandU]; exact fresh, bandU, upd_upd]
  have at' : (u.upd j f).jn[j] = { u.jn[j].ordered b p.pool[b].stage with force := false } := upd_at u j f
  rw [made]
  exact {
    chain := by rw [at']; exact chainU
    ended := (turned.entries h hApart).trans ended
    passed := fun i mem => (turned.ended i mem).trans (congrArg (rotated · (some .passed)) (away i (List.mem_append_left _ mem)))
    entries := entries.trans turned.entries
    others := (others.trans turned.others).trans (othersSame_upd u j f)
    order := by rw [at', Junction.ordered, line]
    green := by rw [at']; rfl
    force := by rw [at']
    allowance := by rw [at']; exact allowance
    resuming := by rw [at']; exact resuming
    minWait := by rw [at']; exact minWait
    level := by rw [at']; exact level
    stack := by rw [at']; exact stack
    state := by rw [at']; exact state
    dwell := by rw [at']; rfl
    rows := by rw [at']; exact rows
    free := turned.free.trans free
    req := turned.req.trans req
    raised := turned.raised.trans raised }

end Ends

section Extend

variable {p : Plant} {j : JIdx} {k : SlotNo} {c : Context}

/-- R127: the plant once the record of an EXTEND has been popped. -/
def extendPopped (p : Plant) (j : JIdx) (k : SlotNo) (level : Nat) : Plant :=
  (p.removeRequest k).upd j fun J => { J with level := level, stack := [] }

theorem extendPopped_at (p : Plant) (j : JIdx) (k : SlotNo) (level : Nat) :
    (p.extendPopped j k level).jn[j] = { p.jn[j] with level := level, stack := [] } :=
  upd_at (p.removeRequest k) j fun J => { J with level := level, stack := [] }

theorem extendPopped_others (p : Plant) (j : JIdx) (k : SlotNo) (level : Nat) : p.OthersSame (p.extendPopped j k level) j :=
  othersSame_upd (p.removeRequest k) j fun J => { J with level := level, stack := [] }

/-- R127: the pop of an EXTEND, which has no service entry. -/
theorem unwind_extend (e : Env) (out : ReqOutcome) (stack : p.jn[j].stack = [c]) (names : c.slot = k)
    (none : ∀ i : EntryNo, p.pool[i].origin = .service → p.pool[i].slot ≠ some k) :
    (p.removeRequest k).unwind e j k out = (p.extendPopped j k c.prior).resume e j c := by
  have absent : (p.removeRequest k).serviceEntryOf? j k = Option.none := by
    refine List.find?_eq_none.mpr fun i _ found => ?_
    rw [Bool.and_eq_true, beq_iff_eq, beq_iff_eq] at found
    exact none i found.1 found.2
  rw [unwind, show (p.removeRequest k).jn[j].stack = [c] from stack]
  refine (if_pos names).trans ?_
  rw [pop, show (p.removeRequest k).jn[j].stack = [c] from stack]
  simp only [names, retireService, absent]
  rfl

/-- R129: the resume of a SERVING top at level 0. -/
theorem resume_serving (e : Env) {n : EntryNo} {rest : List EntryNo} (chain : p.jn[j].chain = n :: rest)
    (serving : p.pool[n].status = .serving) (waits : p.jn[j].minWait = none) (level : p.jn[j].level = 0) : p.resume e j c =
      if p.pool[n].role = .side ∧ p.jn[j].callReached = true then p.resumeForce e j p.pool[n].minDone else p.deferredEnds e j := by
  have still : ¬(p.jn[j].minWait.isSome = true ∧ p.jn[j].minWait ≠ some n) := by
    rw [waits]; exact fun both => nomatch both.1
  rw [resume, top?, chain]
  simp only [List.head?_cons]
  exact (if_neg still).trans ((if_pos serving).trans (if_pos level))

end Extend

end Plant

end Sys2Proof.Machine
end

section
/-! PROOFS. O42: the end of an INSERT or EXTEND and the resume beneath it. -/

namespace Sys2Proof.Machine

open Sys2Proof

namespace Plant

section Deferred

variable {p : Plant} {j : JIdx} {n : EntryNo} {rest : List EntryNo}

/-- R58: a SIDE top that is not resumed has been served for its split. -/
theorem splitDone_iff_unresumed {J : Junction} {x : Entry} (side : x.role = .side) (serving : x.status = .serving)
    (none : J.allowance = none) : splitDone J x = true ↔ 10 * x.split ≤ x.elapsed.getD 0 ∧ 10 * x.minimum ≤ x.elapsed.getD 0 := by
  rw [splitDone_iff side serving]
  simp only [none]
  exact and_comm

/-- R60: the band end with a servable SIDE entry behind the top. -/
theorem bandEnd_ends (e : Env) {m : EntryNo} {behind : List EntryNo} (chain : p.jn[j].chain = n :: m :: behind)
    (side : p.pool[m].role = .side) (servable : p.pool[m].demand = .recall) : p.bandEnd e j = p.voluntaryEnd e j .served :=
  if_pos ((p.sideServable_iff j).mpr ⟨m, by rw [chain]; simp, side, (p.servable_iff j _).mpr (.inl servable)⟩)

/-- R129: the deferred ends of a SIDE top that no force waits for. -/
theorem deferredEnds_side (e : Env) (plain : p.plainTop? j = some p.pool[n]) (side : p.pool[n].role = .side)
    (calm : p.jn[j].force = false) : p.deferredEnds e j =
      if splitDone p.jn[j] p.pool[n] then p.voluntaryEnd e j .served
      else if gapDone p.jn[j] p.pool[n] then p.voluntaryEnd e j .gapped else p := by
  rw [deferredEnds, plain]
  simp only [side]
  rw [if_neg (by rw [calm]; exact Bool.false_ne_true)]

/-- R129: the deferred end of a BAND top not in DWELL. -/
theorem deferredEnds_band (e : Env) (plain : p.plainTop? j = some p.pool[n]) (band : p.pool[n].role = .band)
    (noDwell : p.jn[j].dwell = false) : p.deferredEnds e j =
      if p.pool[n].minDone = true ∧ p.jn[j].endPassed = true then p.bandEnd e j else p := by
  rw [deferredEnds, plain]
  simp only [band]
  rw [if_neg (by rw [noDwell]; exact Bool.false_ne_true), takeBandEnd, plain]
  simp only [band, true_and]

end Deferred

end Plant

namespace State

section Extend

/-- An EXTEND in slot k alone holds a junction over its SERVING host top n (R125). -/
structure ExtendAlone (s : State) (j : JIdx) (k : SlotNo) (r : Request) (a : Active) (n : EntryNo) (rest : List EntryNo)
    (ctx : Context) : Prop where
  quiet : s.plant.raised = []
  slot : s.plant.req[k] = some r
  junction : r.junction = j
  active : r.state = .active a
  inStep : s.plant.jn[j].state = .inStep
  stack : s.plant.jn[j].stack = [ctx]
  names : ctx.slot = k
  prior : ctx.prior = 0
  chain : s.plant.jn[j].chain = n :: rest
  host : s.plant.pool[n].origin = .host
  serving : s.plant.pool[n].status = .serving
  waits : s.plant.jn[j].minWait = none
  bare : ∀ i : EntryNo, s.plant.pool[i].origin = .service → s.plant.pool[i].slot ≠ some k
  noRequest : s.plant.NoCandidateBut j k

variable {s : State} {j : JIdx} {k : SlotNo} {r : Request} {a : Active} {n m : EntryNo} {rest : List EntryNo} {ctx : Context}

namespace ExtendAlone

theorem popped_at (s : State) (j : JIdx) (k : SlotNo) :
    (s.plant.extendPopped j k 0).jn[j] = { s.plant.jn[j] with level := 0, stack := [] } :=
  s.plant.extendPopped_at j k 0

theorem plainTop? (alone : s.ExtendAlone j k r a n rest ctx) :
    (s.plant.extendPopped j k 0).plainTop? j = some s.plant.pool[n] :=
  Plant.plainTop?_eq (p := s.plant.extendPopped j k 0) (by rw [popped_at]; exact alone.inStep) (by rw [popped_at])
    (by rw [popped_at]; exact alone.chain) alone.host

theorem resumes (alone : s.ExtendAlone j k r a n rest ctx) : (s.plant.extendPopped j k 0).resume s.env j ctx =
    if s.plant.pool[n].role = .side ∧ s.plant.jn[j].callReached = true
    then (s.plant.extendPopped j k 0).resumeForce s.env j s.plant.pool[n].minDone
    else (s.plant.extendPopped j k 0).deferredEnds s.env j := by
  have at' := popped_at s j k
  rw [Plant.resume_serving (p := s.plant.extendPopped j k 0) s.env (by rw [at']; exact alone.chain) alone.serving
    (by rw [at']; exact alone.waits) (by rw [at']), at']
  rfl

/-- R112: the end of the EXTEND once it is known what the resume makes of the plant. -/
theorem next (alone : s.ExtendAlone j k r a n rest ctx) {c : Instr} {out : ReqOutcome} (ends : s.EndsBy k r a c out) {q : Plant}
    (resumed : (s.plant.extendPopped j k 0).resume s.env j ctx = q) (req : q.req = (s.plant.extendPopped j k 0).req)
    (raised : q.raised = (s.plant.extendPopped j k 0).raised) :
    ∃ t, exec c s = .next t ∧ t.plant = q ∧ t.tb = s.tb ∧ t.script = s.script := by
  refine ends.next alone.slot alone.active ?_ (alone.junction ▸ alone.noRequest) req (raised.trans alone.quiet)
  rw [alone.junction, Plant.unwind_extend s.env out alone.stack alone.names alone.bare, alone.prior]
  exact resumed

/-- R129: nothing is due, and the top goes on. -/
theorem goesOn (alone : s.ExtendAlone j k r a n rest ctx) {c : Instr} {out : ReqOutcome} (ends : s.EndsBy k r a c out)
    (resumed : (s.plant.extendPopped j k 0).resume s.env j ctx = s.plant.extendPopped j k 0) :
    ∃ t, exec c s = .next t ∧ t.plant.req = s.plant.req.set k none ∧
      t.plant.jn[j] = { s.plant.jn[j] with level := 0, stack := [] } ∧ t.plant.pool = s.plant.pool ∧
      s.plant.OthersSame t.plant j ∧ t.tb = s.tb ∧ t.script = s.script := by
  obtain ⟨t, made, plant, tb, script⟩ := alone.next ends resumed rfl rfl
  exact ⟨t, made, by rw [plant]; rfl, by rw [plant, popped_at], by rw [plant]; rfl,
    by rw [plant]; exact s.plant.extendPopped_others j k 0, tb, script⟩

/-- R129: a deferred end is taken, and the next entry is ordered. -/
theorem endsTop (alone : s.ExtendAlone j k r a n (m :: rest) ctx) {c : Instr} {out : ReqOutcome} (ends : s.EndsBy k r a c out)
    {o : EntryOutcome} (final : o.ends = true) (kind : s.plant.pool[n].kind = .recurring) (apart : n ≠ m)
    (idle : s.plant.jn[j].order = none) (fresh : s.plant.jn[j].green ≠ some s.plant.pool[m].stage)
    (servable : s.plant.pool[m].demand = .recall)
    (resumed : (s.plant.extendPopped j k 0).resume s.env j ctx = (s.plant.extendPopped j k 0).voluntaryEnd s.env j o) :
    ∃ t, exec c s = .next t ∧ t.plant.req = s.plant.req.set k none ∧ t.plant.jn[j].level = 0 ∧ t.plant.jn[j].stack = [] ∧
      t.plant.jn[j].chain = m :: (rest ++ [n]) ∧
      t.plant.pool[n] = { s.plant.pool[n] with
        status := .waiting, elapsed := none, outcome := o, retries := s.plant.pool[n].allowance, error := .none } ∧
      s.plant.EntriesSame t.plant [n] ∧
      t.plant.jn[j].order = some { entry := m, live := true, stage := s.plant.pool[m].stage
                                   tag := s.plant.jn[j].line.lastTag + 1, deadline := none } ∧
      s.plant.OthersSame t.plant j ∧ t.tb = s.tb ∧ t.script = s.script := by
  have at' := popped_at s j k
  have turned := Plant.voluntaryEnd_turns (p := s.plant.extendPopped j k 0) s.env o (by rw [at']; exact alone.chain) kind apart
    (by rw [at']; exact idle) (by rw [at']; exact fresh) ((Plant.servable_iff _ _ _).mpr (.inl servable))
  obtain ⟨t, made, plant, tb, script⟩ := alone.next ends resumed turned.req turned.raised
  have junction := turned.junction
  rw [at'] at junction
  refine ⟨t, made, ?_, ?_, ?_, ?_, ?_, ?_, ?_, ?_, tb, script⟩
  · rw [plant, turned.req]; rfl
  · rw [plant, junction]; rfl
  · rw [plant, junction]; rfl
  · rw [plant, junction]; rfl
  · rw [plant]; exact turned.ended.trans (rotated_ends _ final)
  · rw [plant]; exact turned.entries
  · rw [plant, junction]; rfl
  · rw [plant]; exact (s.plant.extendPopped_others j k 0).trans turned.others

/-- R129: the ends deferred under the EXTEND, no call point reached. -/
theorem resumes_deferred (alone : s.ExtendAlone j k r a n rest ctx)
    (calm : s.plant.jn[j].callReached = false ∨ s.plant.pool[n].role = .band) :
    (s.plant.extendPopped j k 0).resume s.env j ctx = (s.plant.extendPopped j k 0).deferredEnds s.env j := by
  refine alone.resumes.trans (if_neg fun both => ?_)
  rcases calm with before | band
  · exact Bool.false_ne_true (before.symm.trans both.2)
  · exact nomatch band.symm.trans both.1

end ExtendAlone

end Extend

end State

end Sys2Proof.Machine
end

section
/-! PROOFS. O42: the end of an INSERT or EXTEND and the resume beneath it. -/

namespace Sys2Proof.Machine

open Sys2Proof

theorem without_eq (n : EntryNo) (o : OrderInFlight) :
    Plant.without n o = { o with live := if o.entry = n then false else o.live } := by
  rw [Plant.without]
  split <;> rfl

/-- R127: the outcome a request's end gives its service entry. -/
theorem State.EndsBy.retireOutcome {s : State} {k : SlotNo} {r : Request} {a : Active} {c : Instr} {out : ReqOutcome}
    (ends : s.EndsBy k r a c out) : retireOutcome out = if out = .cancelled then .cut else .served := by
  rcases ends with ⟨-, rfl, -⟩ | ⟨-, rfl, -⟩ | ⟨-, rfl, -⟩ <;> rfl

/-- Settles O42. -/
theorem insertEndsAndTopResumes : Obligations.InsertEndsAndTopResumes := by
  refine ⟨?_, ?_, ?_, ?_, ?_, ?_⟩
  · intro s j k r a n h rest ctx slot junction insert active quiet inStep stack names entry prior chain apart hNew nNew origin at' serving
      still host side waiting idle waits call fresh none c out ends
    have alone : s.InsertAlone j k r a n h rest ctx := ⟨quiet, slot, junction, active, inStep, stack, names, prior, chain, apart,
      ⟨origin, at'⟩, host, waiting, .inl waits, none⟩
    have timed : s.TimedEnd k a c out := ends
    obtain ⟨t, made, unheld⟩ := alone.next_ordered timed.endsBy idle fresh
    have at'' := unheld.junction
    refine ⟨t, made, unheld.req, ?_, ?_, ?_, unheld.free, unheld.cleared, unheld.entries, ?_, ?_, unheld.others, unheld.tb,
      unheld.script, fun armed heard room => ?_⟩
    · rw [at'']; rfl
    · rw [at'']; rfl
    · rw [at'']; rfl
    · rw [at'']; rfl
    · rw [at'']; exact if_pos side
    · exact timed.offers slot active ((alone.unwound out).trans (alone.resumes_ordered out idle fresh)) (junction ▸ none) rfl quiet armed
        heard room made
  · intro s tag src id j k r a n h rest ctx takes fits good guard key only slot junction insert active quiet inStep stack names entry prior
      chain apart hNew nNew origin at' serving still host side waiting idle waits call fresh none
    have alone : s.InsertAlone j k r a n h rest ctx := ⟨quiet, slot, junction, active, inStep, stack, names, prior, chain, apart,
      ⟨origin, at'⟩, host, waiting, .inl waits, none⟩
    obtain ⟨rfl, rfl, rfl⟩ : r.junction = j ∧ r.source = src ∧ r.id = id :=
      ⟨congrArg Key.junction key, congrArg Key.source key, congrArg Key.id key⟩
    have ended := Plant.endAndAttempt_active s.env slot active
      ((alone.unwound .cancelled).trans (alone.resumes_ordered .cancelled idle fresh)) none rfl
    obtain ⟨t, made, answered, plant, tb, script⟩ := takes.cancel_active fits good guard slot only active ended quiet
    have unheld := alone.unheld .cancelled plant tb script
    have at'' := unheld.junction
    refine ⟨t, made, answered, unheld.req, ?_, ?_, ?_, unheld.free, unheld.cleared, unheld.entries, ?_, ?_, ?_, unheld.others, tb, script⟩
    · rw [at'']; rfl
    · rw [at'']; rfl
    · rw [at'']; rfl
    · rw [at'']; rfl
    · rw [at'']; exact if_pos side
    · rw [at'']; rfl
  · intro s j k r a n h rest ctx d slot junction insert active quiet inStep stack names entry prior chain apart hNew nNew origin at' serving
      still host band waiting idle waits fresh none svcEnd due
    have alone : s.InsertAlone j k r a n h rest ctx := ⟨quiet, slot, junction, active, inStep, stack, names, prior, chain, apart,
      ⟨origin, at'⟩, host, waiting, .inl waits, none⟩
    have notSide : s.plant.pool[h].role ≠ .side := by rw [band]; decide
    obtain ⟨t, made, unheld⟩ := alone.next_ordered (.inl ⟨rfl, rfl, d, svcEnd, due⟩) idle fresh
    have at'' := unheld.junction
    refine ⟨t, made, unheld.req, ?_, ?_, ?_, unheld.free, unheld.cleared, unheld.entries, ?_, ?_, ?_, unheld.others, unheld.tb,
      unheld.script⟩
    · rw [at'']; rfl
    · rw [at'']; rfl
    · rw [at'']; rfl
    · rw [at'']; rfl
    · rw [at'']
      show (s.plant.jn[j].force || (s.plant.pool[h].role == .side && s.plant.jn[j].callReached)) = s.plant.jn[j].force
      rw [beq_eq_false_iff_ne.mpr notSide, Bool.false_and, Bool.or_false]
    · rw [at'']; exact if_neg notSide
  · intro s j k r a f ahead behind top bottom d quiet slot junction insert active svcEnd due inStep stack names other chain new origin at'
      first none
    let m := s.plant.removeRequest k
    have folded := Plant.fold_eq (p := m) (out := .served) (ahead := ahead) stack names chain new ⟨origin, at'⟩ first
    have unwound : m.unwind s.env r.junction k .served = m.fold j .served := by
      rw [junction, Plant.unwind, show m.jn[j].stack = _ from stack]
      exact (if_neg other).trans (if_pos names)
    let g : Junction → Junction := fun J => J.folded f m.pool[f] (retireOutcome .served) (ahead ++ behind) top bottom
    obtain ⟨t, made, plant, tb, script⟩ := State.EndsBy.next (.inl ⟨rfl, rfl, d, svcEnd, due⟩) slot active (unwound.trans folded)
      (junction ▸ none) rfl quiet
    have at'' : t.plant.jn[j] = g s.plant.jn[j] := by rw [plant]; exact Plant.upd_at m j g
    refine ⟨t, made, by rw [plant]; rfl, ?_, ?_, fun idle => ?_, fun o order => ?_, ?_, ?_, ?_, by rw [plant]; rfl, ?_, ?_, ?_, tb, script⟩
    · rw [at'']; rfl
    · rw [at'']; rfl
    · rw [at'']; exact congrArg (Option.map _) idle
    · rw [at'', ← without_eq]; exact congrArg (Option.map _) order
    · rw [at'']; rfl
    · rw [at'']; rfl
    · rw [at'']; rfl
    · rw [plant]; exact Plant.updEnt_at (m.upd j g) f fun _ => Entry.clear
    · rw [plant]; exact Plant.entriesSame_updEnt (m.upd j g) f fun _ => Entry.clear
    · rw [plant]; exact Plant.othersSame_upd m j g
  · intro s j k r a n m rest ctx d quiet slot junction extend active svcEnd due inStep stack names entry prior chain apart host kind
      serving idle waits calm call noDwell noAllowance next fresh bare none
    have alone : s.ExtendAlone j k r a n (m :: rest) ctx := ⟨quiet, slot, junction, active, inStep, stack, names, prior, chain, host,
      serving, waits, bare, none⟩
    have ends : s.EndsBy k r a (.serviceEnd k) .served := .inl ⟨rfl, rfl, d, svcEnd, due⟩
    have at' := State.ExtendAlone.popped_at s j k
    have resumed := alone.resumes_deferred call
    have plain := alone.plainTop?
    let p := s.plant.extendPopped j k 0
    have side (role : s.plant.pool[n].role = .side) := resumed.trans (Plant.deferredEnds_side s.env plain role (by rw [at']; exact calm))
    have band (role : s.plant.pool[n].role = .band) := resumed.trans (Plant.deferredEnds_band s.env plain role (by rw [at']; exact noDwell))
    have minDone := Plant.minDone_iff s.plant.pool[n] serving
    have splitIff (role : s.plant.pool[n].role = .side) := Plant.splitDone_iff_unresumed (J := p.jn[j]) (x := s.plant.pool[n]) role serving
      (by rw [at']; exact noAllowance)
    have gapIff (role : s.plant.pool[n].role = .side) : Plant.gapDone p.jn[j] s.plant.pool[n] = true ↔
        s.plant.pool[n].demand = .call ∧ 10 * s.plant.pool[n].minimum ≤ s.plant.pool[n].elapsed.getD 0 ∧
          s.plant.jn[j].det.gap[s.plant.pool[n].stage] = .expired := by
      rw [Plant.gapDone_iff role serving, at']
    have turns {o : EntryOutcome} (final : o.ends = true) := alone.endsTop ends final kind apart idle fresh next.2
    refine ⟨fun role due => ?_, fun role early expired => ?_, fun role early running => ?_, fun role passed past => ?_,
      fun role early => ?_⟩
    · exact turns rfl ((side role).trans (if_pos ((splitIff role).mpr due)))
    · exact turns rfl ((side role).trans ((if_neg fun done => early ((splitIff role).mp done)).trans (if_pos ((gapIff role).mpr expired))))
    · exact alone.goesOn ends ((side role).trans ((if_neg fun done => early ((splitIff role).mp done)).trans
        (if_neg fun done => running ((gapIff role).mp done))))
    · exact turns rfl ((band role).trans ((if_pos ⟨minDone.mpr past, by rw [at']; exact passed⟩).trans
        (Plant.bandEnd_ends s.env (by rw [at']; exact chain) next.1 next.2)))
    · refine alone.goesOn ends ((band role).trans (if_neg fun both => ?_))
      rw [at'] at both
      rcases early with notPassed | early
      · exact Bool.false_ne_true (notPassed.symm.trans both.2)
      · exact early (minDone.mp both.1)
  · intro s j k r a n h rest ctx o c out holds ends order
    obtain ⟨t, made, unheld⟩ := holds.alone.next_inFlight ends order
    have at' := unheld.junction
    refine ⟨t, made, unheld.popped (K := Junction.resumed _ ctx _) rfl rfl rfl holds.inStep, ?_, unheld.entries, ?_, ?_, ?_, fun side => ?_,
      fun band => ?_, ?_⟩
    · rw [at']; rfl
    · rw [at', ← without_eq]; exact congrArg (Option.map _) order
    · rw [at']; rfl
    · rw [at']; rfl
    · rw [at']
      refine ⟨if_pos side, ?_⟩
      show (s.plant.jn[j].force || (s.plant.pool[h].role == .side && s.plant.jn[j].callReached)) = _
      rw [side]
      rfl
    · have notSide : s.plant.pool[h].role ≠ .side := by rw [band]; decide
      rw [at']
      refine ⟨if_neg notSide, ?_⟩
      show (s.plant.jn[j].force || (s.plant.pool[h].role == .side && s.plant.jn[j].callReached)) = s.plant.jn[j].force
      rw [beq_eq_false_iff_ne.mpr notSide, Bool.false_and, Bool.or_false]
    · rw [at', ← ends.retireOutcome]; rfl

end Sys2Proof.Machine
end

section
/-! SUPPORT. The confirmation of the top (R52, R63, R83, R85, R128). -/

namespace Sys2Proof.Machine

open Sys2Proof

/-- R52: the entry once it is confirmed. -/
def Entry.served (x : Entry) : Entry := { x with status := .serving, elapsed := some 0 }

/-- R83, R85: the detectors once the entry x is confirmed as the top. -/
def Detectors.serving (D : Detectors) (e : Env) (x : Entry) : Detectors :=
  { D.confirmStage x.stage with
    gap := if x.demand = .call ∧ x.origin = .host then D.gap.set x.stage (.running (e.arrived + x.passage)) else D.gap }

/-- R52: the junction once its top x is confirmed, without what a BAND confirmation gives. -/
def Junction.serving (J : Junction) (e : Env) (x : Entry) : Junction :=
  { J with allowance := Plant.resumeAllowance J x, dwell := false, det := J.det.serving e x }

theorem Detectors.confirmStage_flags (D : Detectors) (st : Stage) :
    (D.confirmStage st).flags = if 0 < D.holdCount st then D.flags else D.flags.set st false := by
  rw [confirmStage]
  split <;> rfl

theorem Detectors.confirmStage_gap (D : Detectors) (st : Stage) : (D.confirmStage st).gap = D.gap := by
  rw [confirmStage]
  split <;> rfl

theorem Detectors.serving_flags (D : Detectors) (e : Env) (x : Entry) :
    (D.serving e x).flags = if 0 < D.holdCount x.stage then D.flags else D.flags.set x.stage false :=
  D.confirmStage_flags x.stage

/-- R85: no gap timer starts but that of a CALL host entry. -/
theorem Detectors.serving_gap_same (D : Detectors) (e : Env) {x : Entry} (other : ¬(x.demand = .call ∧ x.origin = .host)) :
    (D.serving e x).gap = D.gap := if_neg other

theorem Detectors.serving_gap_runs (D : Detectors) (e : Env) {x : Entry} (call : x.demand = .call) (host : x.origin = .host) :
    (D.serving e x).gap = D.gap.set x.stage (.running (e.arrived + x.passage)) := if_pos ⟨call, host⟩

namespace Plant

/-- R128: the resume allowance of a resumed host SIDE entry. -/
theorem resumeAllowance_resumed {J : Junction} {x : Entry} {r : Resume} (resuming : J.resuming = some r) (host : x.origin = .host)
    (side : x.role = .side) (level : J.level = 0) :
    resumeAllowance J x = some (max (10 * x.split - r.saved) (10 * x.minimum)) := by
  rw [resumeAllowance, resuming]
  exact if_pos ⟨host, side, level⟩

theorem resumeAllowance_none {J : Junction} {x : Entry} (resuming : J.resuming = none) : resumeAllowance J x = none := by
  rw [resumeAllowance, resuming]

section Serve

variable {p : Plant} {j : JIdx} {n : EntryNo} {rest : List EntryNo}

/-- R52: the top is confirmed. -/
def confirmed (p : Plant) (e : Env) (j : JIdx) (n : EntryNo) : Plant :=
  (p.updEnt n Entry.served).upd j fun J => J.serving e p.pool[n]

theorem detectorConfirm_serving (e : Env) (chain : p.jn[j].chain = n :: rest) (serving : p.pool[n].status = .serving) :
    p.detectorConfirm e j p.pool[n].stage = p.upd j fun J => { J with det := J.det.serving e p.pool[n] } := by
  let q := p.updDet j fun D => D.confirmStage p.pool[n].stage
  have top : q.topEntry? j = some p.pool[n] := topEntry?_cons (p := q) (by rw [show q.jn[j] = _ from upd_at ..]; exact chain)
  rw [detectorConfirm, show (p.updDet j fun D => D.confirmStage p.pool[n].stage).topEntry? j = some p.pool[n] from top]
  simp only [serving, and_true]
  by_cases starts : p.pool[n].demand = .call ∧ p.pool[n].origin = .host
  · refine (if_pos starts).trans ((upd_upd p j _ _).trans (p.upd_congr j ?_))
    simp only [Detectors.serving, Detectors.confirmStage_gap]
    rw [if_pos starts]
  · refine (if_neg starts).trans (p.upd_congr j ?_)
    simp only [Detectors.serving]
    rw [if_neg starts, ← Detectors.confirmStage_gap _ p.pool[n].stage]

/-- R63, R140: what a BAND confirmation gives its junction. -/
def bandConfirmed (e : Env) (J : Junction) : Junction :=
  let err := some (bandStartError J.p J.span)
  let J := if 2 * J.p < J.span then { J with tally := { J.tally with bandError := err } } else { J with carried := err }
  J.armProbe e.dir

theorem serveTop_eq (e : Env) (chain : p.jn[j].chain = n :: rest) : p.serveTop e j =
    if p.pool[n].role = .band then ((p.confirmed e j n).startService e p.pool[n]).upd j (bandConfirmed e)
    else (p.confirmed e j n).startService e p.pool[n] := by
  let q := (p.updEnt n Entry.served).upd j fun J => { J with allowance := resumeAllowance J p.pool[n], dwell := false }
  have entry : q.pool[n] = Entry.served p.pool[n] := updEnt_at p n Entry.served
  have confirm := detectorConfirm_serving (p := q) (n := n) (rest := rest) e
    (by rw [show q.jn[j] = _ from upd_at ..]; exact chain) (by rw [entry]; rfl)
  rw [entry] at confirm
  have made : q.detectorConfirm e j p.pool[n].stage = p.confirmed e j n :=
    confirm.trans (upd_upd (p.updEnt n Entry.served) j (fun J => { J with allowance := resumeAllowance J p.pool[n], dwell := false })
      fun J => { J with det := J.det.serving e (Entry.served p.pool[n]) })
  rw [serveTop, top?, chain]
  simp only [List.head?_cons]
  exact congrArg (fun q : Plant => if p.pool[n].role = .band then (q.startService e p.pool[n]).bandConfirm e j
    else q.startService e p.pool[n]) made

/-- R52: a SIDE entry that stands for no request. -/
theorem serveTop_side (e : Env) (chain : p.jn[j].chain = n :: rest) (side : p.pool[n].role = .side) (slot : p.pool[n].slot = none) :
    p.serveTop e j = p.confirmed e j n := by
  have notBand : p.pool[n].role ≠ .band := by rw [side]; decide
  rw [serveTop_eq e chain, if_neg notBand, startService, slot]

theorem confirmed_at (p : Plant) (e : Env) (j : JIdx) (n : EntryNo) : (p.confirmed e j n).jn[j] = p.jn[j].serving e p.pool[n] :=
  upd_at (p.updEnt n Entry.served) j fun J => J.serving e p.pool[n]

theorem confirmed_entry (p : Plant) (e : Env) (j : JIdx) (n : EntryNo) : (p.confirmed e j n).pool[n] = Entry.served p.pool[n] :=
  updEnt_at p n Entry.served

theorem confirmed_entries (p : Plant) (e : Env) (j : JIdx) (n : EntryNo) : p.EntriesSame (p.confirmed e j n) [n] :=
  entriesSame_updEnt p n Entry.served

theorem confirmed_others (p : Plant) (e : Env) (j : JIdx) (n : EntryNo) : p.OthersSame (p.confirmed e j n) j :=
  othersSame_upd (p.updEnt n Entry.served) j fun J => J.serving e p.pool[n]

end Serve

end Plant

end Sys2Proof.Machine
end

section
/-! PROOFS. O49: the band call point and a SIDE top (R64, R65, R130). -/

namespace Sys2Proof.Machine

open Sys2Proof

namespace Plant

section Force

variable {p : Plant} {j : JIdx} {h : EntryNo} {rest : List EntryNo} {c : Context}

/-- R130: the force-off of a resumed SIDE top under a reached call point, at once or held. -/
theorem resumeForce_serving (e : Env) (chain : p.jn[j].chain = h :: rest) (host : p.pool[h].origin = .host)
    (side : p.pool[h].role = .side) (serving : p.pool[h].status = .serving) (call : p.jn[j].callReached = true)
    (level : p.jn[j].level = 0) (minReached : Bool) : p.resumeForce e j minReached =
      if minReached = true then p.forceOff e j else p.upd j fun J => { J with force := true } := by
  rw [resumeForce, topEntry?_cons chain]
  refine (if_pos ⟨side, host, call, level⟩).trans ?_
  simp only [serving, true_and]

/-- R128: the record of the resume, as it is written before the top is taken up. -/
def reopened (p : Plant) (j : JIdx) (c : Context) : Plant :=
  p.upd j fun J => { J with minWait := none, resuming := some { saved := c.saved, minReached := c.minReached } }

/-- R128, R130: the interrupted SIDE entry is taken over under a reached call point. -/
structure TakesOver (p : Plant) (j : JIdx) (h : EntryNo) (rest : List EntryNo) : Prop where
  chain : p.jn[j].chain = h :: rest
  host : p.pool[h].origin = .host
  side : p.pool[h].role = .side
  slot : p.pool[h].slot = none
  waiting : p.pool[h].status = .waiting
  level : p.jn[j].level = 0
  waits : p.jn[j].minWait = none ∨ p.jn[j].minWait = some h
  idle : p.jn[j].order = none
  inStep : p.jn[j].state = .inStep
  green : p.jn[j].green = some p.pool[h].stage
  call : p.jn[j].callReached = true

theorem TakesOver.confirmed_at (_ : p.TakesOver j h rest) (e : Env) (c : Context) : ((p.reopened j c).confirmed e j h).jn[j] =
    Junction.serving { p.jn[j] with minWait := none, resuming := some { saved := c.saved, minReached := c.minReached } } e p.pool[h] := by
  rw [Plant.confirmed_at, reopened, upd_at]
  rfl

theorem TakesOver.resume (over' : p.TakesOver j h rest) (e : Env) (c : Context) {v : Plant}
    (forced : (if c.minReached = true then ((p.reopened j c).confirmed e j h).forceOff e j
      else ((p.reopened j c).confirmed e j h).upd j fun J => { J with force := true }) = v)
    {y : Entry} (top : v.topEntry? j = some y) :
    p.resume e j c = if y.status = .serving then v.upd j fun J => { J with resuming := none } else v := by
  obtain ⟨chain, host, side, slot, waiting, level, waits, idle, inStep, green, call⟩ := over'
  have still : ¬(p.jn[j].minWait.isSome = true ∧ p.jn[j].minWait ≠ some h) := by
    rcases waits with none | held
    · rw [none]; exact fun both => nomatch both.1
    · exact fun both => both.2 held
  have notServing : ¬p.pool[h].status = .serving := fun serving => nomatch waiting.symm.trans serving
  have opened : (p.upd j fun J => { J with
        minWait := none
        resuming := if J.level = 0 ∧ p.pool[h].origin = .host ∧ p.pool[h].role = .side
          then some { saved := c.saved, minReached := c.minReached } else none }) = p.reopened j c := by
    refine p.upd_congr j ?_
    rw [if_pos ⟨level, host, side⟩]
  have at' : (p.reopened j c).jn[j] = { p.jn[j] with
      minWait := none, resuming := some { saved := c.saved, minReached := c.minReached } } := upd_at ..
  have served : (p.reopened j c).orderTop e j = (p.reopened j c).confirmed e j h := by
    rw [orderTop_takesOver e (p.reopened j c) j (n := h) (rest := rest) (by rw [at']; exact chain) (by rw [at']; exact idle)
      (by rw [at']; exact inStep) (by rw [at']; exact green)]
    exact serveTop_side e (by rw [at']; exact chain) side slot
  let q := (p.reopened j c).confirmed e j h
  have atQ : q.jn[j] = (p.reopened j c).jn[j].serving e p.pool[h] := Plant.confirmed_at ..
  have entry : q.pool[h] = p.pool[h].served := Plant.confirmed_entry ..
  have force := resumeForce_serving (p := q) (h := h) (rest := rest) e (by rw [atQ, at']; exact chain) (by rw [entry]; exact host)
    (by rw [entry]; exact side) (by rw [entry]; rfl) (by rw [atQ, at']; exact call) (by rw [atQ, at']; exact level) c.minReached
  rw [Plant.resume, top?, chain]
  simp only [List.head?_cons]
  refine (if_neg still).trans ((if_neg notServing).trans ?_)
  rw [opened, served, force, forced, top]

end Force

end Plant

/-- R64: a force-off, seen from the state before the command. -/
theorem Plant.ForcedTo.forcedOff {s t : State} {p : Plant} {j : JIdx} {h b : EntryNo} {skipped behind more : List EntryNo}
    (forced : p.ForcedTo t.plant j h b skipped behind) (entry : ∃ st el, p.pool[h] = { s.plant.pool[h] with status := st, elapsed := el })
    (same : ∀ i ∈ skipped ++ [b], p.pool[i] = s.plant.pool[i]) (line : p.jn[j].line.lastTag = s.plant.jn[j].line.lastTag)
    (entries : s.plant.EntriesSame p (more ++ [h])) (others : s.plant.OthersSame p j) :
    s.ForcedOff t j h b skipped behind more where
  chain := forced.chain
  ended := by
    obtain ⟨st, el, entry⟩ := entry
    rw [forced.ended, entry]
    rfl
  passed := fun i mem => by
    rw [forced.passed i mem, same i (List.mem_append_left _ mem)]
    rfl
  entries := fun i apart => by
    rw [List.mem_append, List.mem_cons, not_or, not_or] at apart
    obtain ⟨notMore, notH, notSkipped⟩ := apart
    rw [forced.entries i (by rw [List.mem_cons, not_or]; exact ⟨notH, notSkipped⟩)]
    refine entries i ?_
    rw [List.mem_append, List.mem_singleton, not_or]
    exact ⟨notMore, notH⟩
  order := by rw [forced.order, line, same b (List.mem_append_right _ (List.mem_singleton.mpr rfl))]
  green := forced.green
  force := forced.force
  allowance := forced.allowance
  resuming := forced.resuming
  others := others.trans forced.others

end Sys2Proof.Machine
end

section
/-! PROOFS. O49: the band call point and a SIDE top (R64, R65, R130). -/

namespace Sys2Proof.Machine

open Sys2Proof

namespace State

section Call

variable {s : State} {j : JIdx} {n m : EntryNo} {rest : List EntryNo}

/-- The band call point is reached, and nothing else has changed. -/
def callReached (s : State) (j : JIdx) : State := { s with plant := s.plant.upd j Junction.called }

theorem callReached_jn (s : State) (j : JIdx) : (s.callReached j).plant.jn[j] = s.plant.jn[j].called := Plant.upd_at ..

theorem Turning.callReached (h : s.Turning j n m rest) : (s.callReached j).Turning j n m rest := by
  have junction := s.callReached_jn j
  exact
    { h with
      chain := by rw [junction]; exact h.chain
      inStep := by rw [junction]; exact h.inStep
      level := by rw [junction]; exact h.level
      idle := by rw [junction]; exact h.idle
      fresh := by rw [junction]; exact h.fresh }

theorem Turned.of_callReached {t : State} {out : EntryOutcome} (h : (s.callReached j).Turned t j n m rest out) :
    s.Turned t j n m rest out := by
  have junction := s.callReached_jn j
  obtain ⟨only, chain, ended, entries, order, tag, green, gap, served, state, level, stack, others, free, req⟩ := h
  rw [junction] at order tag gap served stack
  exact ⟨⟨only.now, only.tb, only.script, only.host, only.report, only.pending⟩, chain, ended, entries, order, tag, green, gap, served,
    state, level, stack, fun i hi => (others i hi).trans (Plant.upd_elsewhere _ _ hi), free, req⟩

/-- R64: the band call point under a SIDE top. -/
theorem Turning.bandCallPoint (h : s.Turning j n m rest) (ahead : s.plant.jn[j].callDone = false)
    (due : s.plant.jn[j].span ≤ s.plant.jn[j].p + 10 * s.plant.jn[j].plan.a) (done : s.plant.jn[j].endDone = true) (e : Env) :
    s.plant.bandCallPoint e j = if s.plant.pool[n].minDone = true then (s.callReached j).plant.forceOff e j
      else (s.callReached j).plant.upd j fun J => { J with force := true } := by
  have present : s.plant.jn[j].state.present = true := by rw [h.inStep]; rfl
  have top : (s.callReached j).plant.plainTop? j = some s.plant.pool[n] := h.callReached.plainTop?
  have inStep : (s.callReached j).plant.jn[j].state = .inStep := h.callReached.inStep
  rw [Plant.bandCallPoint_due _ _ _ present ahead due, Plant.bandEndPoint_done _ _ _ done, Plant.reachCall]
  rw [show (s.plant.upd j fun J => { J with callDone := true, callReached := true }) = (s.callReached j).plant from rfl]
  rw [inStep, top]
  exact if_pos h.side

/-- R64: the force-off of the top, with the BAND entry next. -/
theorem Turning.forces (h : s.Turning j n m rest) (band : s.plant.pool[m].role = .band) :
    ∃ t, s.junctionEvent j (fun e p => p.forceOff e j) = t ∧ s.Turned t j n m rest .forced ∧ t.plant.jn[j].force = false ∧
      t.plant.jn[j].callReached = s.plant.jn[j].callReached := by
  obtain ⟨turned, force, call, req, raised⟩ := h.turned (out := .forced) rfl false
  exact ⟨_, h.settled.junctionEvent h.noRequest (f := fun e p => p.forceOff e j) (h.forceOff band s.env) raised req, turned, force, call⟩

theorem junctionEvent_congr (s : State) (j : JIdx) {f : Env → Plant → Plant} {q : Plant} {g : Env → Plant → Plant}
    (made : f s.env s.plant = g s.env q) : s.junctionEvent j f = ({ s with plant := q } : State).junctionEvent j g :=
  congrArg (fun p : Plant => ({ s with plant := p.attempts s.env j } : State).finish) made

end Call

section Insert

variable {s : State} {j : JIdx} {k : SlotNo} {r : Request} {a : Active} {n h : EntryNo} {rest : List EntryNo} {ctx : Context}

/-- The INSERT has been popped over a SIDE entry whose stage is green, the call point reached. -/
theorem InsertOver.takesOver (holds : s.InsertOver j k r a n h rest ctx) (out : ReqOutcome) (side : s.plant.pool[h].role = .side)
    (call : s.plant.jn[j].callReached = true) (idle : s.plant.jn[j].order = none)
    (green : s.plant.jn[j].green = some s.plant.pool[h].stage) : (s.unheld j k n out (h :: rest)).TakesOver j h rest := by
  have at' := InsertAlone.unheld_at s j k n out (h :: rest)
  have same := holds.alone.interrupted out (h :: rest)
  exact {
    chain := by rw [at']; rfl
    host := by rw [same]; exact holds.host.1
    side := by rw [same]; exact side
    slot := by rw [same]; exact holds.host.2.1
    waiting := by rw [same]; exact holds.host.2.2
    level := by rw [at']; rfl
    waits := by rw [at']; exact holds.waits
    idle := by rw [at']; exact congrArg (Option.map _) idle
    inStep := by rw [at']; exact holds.inStep
    green := by rw [at', same]; exact green
    call := by rw [at']; exact call }

/-- The plant once the interrupted entry has been taken over. -/
def takenOver (s : State) (j : JIdx) (k : SlotNo) (n h : EntryNo) (out : ReqOutcome) (rest : List EntryNo) (ctx : Context) : Plant :=
  ((s.unheld j k n out (h :: rest)).reopened j ctx).confirmed s.env j h

/-- What the take-over of the interrupted entry has made of the plant. -/
structure Taken (s : State) (p : Plant) (j : JIdx) (k : SlotNo) (n h : EntryNo) (rest : List EntryNo) (ctx : Context) : Prop where
  chain : p.jn[j].chain = h :: rest
  level : p.jn[j].level = 0
  stack : p.jn[j].stack = []
  state : p.jn[j].state = .inStep
  minWait : p.jn[j].minWait = none
  order : p.jn[j].order = none
  green : p.jn[j].green = s.plant.jn[j].green
  line : p.jn[j].line = s.plant.jn[j].line
  allowance : p.jn[j].allowance = some (max (10 * s.plant.pool[h].split - ctx.saved) (10 * s.plant.pool[h].minimum))
  served : p.pool[h] = s.plant.pool[h].served
  cleared : p.pool[n] = Entry.clear
  entries : s.plant.EntriesSame p [n, h]
  others : s.plant.OthersSame p j
  req : p.req = s.plant.req.set k none
  free : p.free = s.plant.free ++ [n]
  raised : p.raised = []

theorem InsertOver.taken (holds : s.InsertOver j k r a n h rest ctx) (out : ReqOutcome) (side : s.plant.pool[h].role = .side)
    (call : s.plant.jn[j].callReached = true) (idle : s.plant.jn[j].order = none)
    (green : s.plant.jn[j].green = some s.plant.pool[h].stage) : s.Taken (s.takenOver j k n h out rest ctx) j k n h rest ctx := by
  have unheldAt := InsertAlone.unheld_at s j k n out (h :: rest)
  have same := holds.alone.interrupted out (h :: rest)
  have at' := (holds.takesOver out side call idle green).confirmed_at s.env ctx
  rw [unheldAt, same] at at'
  have entries := (s.plant.popped_entries j k n (retireOutcome out) (h :: rest) 0).trans
    (((s.unheld j k n out (h :: rest)).reopened j ctx).confirmed_entries s.env j h)
  have others := ((s.plant.popped_others j k n (retireOutcome out) (h :: rest) 0).trans
    (Plant.othersSame_upd (s.unheld j k n out (h :: rest)) j _)).trans
    (((s.unheld j k n out (h :: rest)).reopened j ctx).confirmed_others s.env j h)
  exact {
    chain := by rw [takenOver, at']; rfl
    level := by rw [takenOver, at']; rfl
    stack := by rw [takenOver, at']; rfl
    state := by rw [takenOver, at']; exact holds.inStep
    minWait := by rw [takenOver, at']; rfl
    order := by rw [takenOver, at']; exact congrArg (Option.map _) idle
    green := by rw [takenOver, at']; rfl
    line := by rw [takenOver, at']; rfl
    allowance := by
      rw [takenOver, at']
      exact Plant.resumeAllowance_resumed
        (J := { s.plant.jn[j].popped n s.plant.pool[n] (retireOutcome out) (h :: rest) 0 with
          minWait := none, resuming := some { saved := ctx.saved, minReached := ctx.minReached } }) rfl holds.host.1 side rfl
    served := (((s.unheld j k n out (h :: rest)).reopened j ctx).confirmed_entry s.env j h).trans (congrArg Entry.served same)
    cleared := (((s.unheld j k n out (h :: rest)).reopened j ctx).confirmed_entries s.env j h n
      fun mem => holds.alone.apart (List.mem_singleton.mp mem)).trans (s.plant.popped_cleared j k n _ _ 0)
    entries := entries
    others := others
    req := rfl
    free := rfl
    raised := holds.quiet }

end Insert

end State

end Sys2Proof.Machine
end

section
/-! PROOFS. O49: the band call point and a SIDE top (R64, R65, R130). -/

namespace Sys2Proof.Machine

open Sys2Proof

theorem Junction.resuming_self {J : Junction} (h : J.resuming = none) : { J with resuming := none } = J := by rw [← h]

/-- R130: taken over with its minimum reached, the resumed top ends FORCED. -/
theorem State.InsertOver.next_forced {s : State} {j : JIdx} {k : SlotNo} {r : Request} {a : Active} {n h : EntryNo}
    {rest : List EntryNo} {ctx : Context} {c : Instr} {out : ReqOutcome} {b : EntryNo} {skipped behind : List EntryNo}
    (holds : s.InsertOver j k r a n h rest ctx) (ends : s.EndsBy k r a c out) (side : s.plant.pool[h].role = .side)
    (call : s.plant.jn[j].callReached = true) (idle : s.plant.jn[j].order = none) (behindH : rest = skipped ++ b :: behind)
    (band : s.BandBehind h b skipped behind) (green : s.plant.jn[j].green = some s.plant.pool[h].stage)
    (reached : ctx.minReached = true) :
    ∃ t, exec c s = .next t ∧ s.Popped t j k n ∧ s.ForcedOff t j h b skipped behind [n] := by
  have alone := holds.alone
  have distinct := List.nodup_cons.mp holds.distinct
  have taken := holds.taken out side call idle green
  have same (i : EntryNo) (mem : i ∈ skipped ++ b :: behind) : (s.takenOver j k n h out rest ctx).pool[i] = s.plant.pool[i] := by
    refine taken.entries i fun listed => ?_
    rw [← behindH] at mem
    rcases List.mem_cons.mp listed with rfl | listed
    · exact distinct.1 (List.mem_cons_of_mem _ mem)
    · exact (List.nodup_cons.mp distinct.2).1 (List.mem_singleton.mp listed ▸ mem)
  have bMem : b ∈ skipped ++ b :: behind := List.mem_append_right _ List.mem_cons_self
  have forced := Plant.forceOff_passes (p := s.takenOver j k n h out rest ctx) s.env (by rw [taken.chain, behindH])
    (by rw [taken.served]; exact band.recurring)
    (fun i mem => by rw [same i (List.mem_append_left _ mem)]; exact band.sides i mem)
    (by rw [same b bMem]; exact band.band) band.distinct band.bound taken.order
    (by rw [taken.green, green, same b bMem]; exact fun eq => band.stage (Option.some.inj eq).symm)
  let v := (s.takenOver j k n h out rest ctx).forceOff s.env j
  have resumed := (holds.takesOver out side call idle green).resume s.env ctx (v := v) (if_pos reached)
    (Plant.topEntry?_cons forced.chain)
  have final : (s.unheld j k n out (h :: rest)).resume s.env j ctx = v := by
    rw [resumed]
    split
    · exact v.upd_id j _ (Junction.resuming_self forced.resuming)
    · rfl
  obtain ⟨t, made, plant, tb, script⟩ := ends.next alone.slot alone.active ((alone.unwound out).trans final)
    (alone.junction ▸ alone.noRequest) (forced.req.trans taken.req) (forced.raised.trans taken.raised)
  replace forced : (s.takenOver j k n h out rest ctx).ForcedTo t.plant j h b skipped behind := by rw [plant]; exact forced
  refine ⟨t, made, ?_, forced.forcedOff ⟨_, _, taken.served⟩ (fun i mem => same i ?_) (congrArg Line.lastTag taken.line) taken.entries taken.others⟩
  · exact {
      req := forced.req.trans taken.req
      level := forced.level.trans taken.level
      stack := forced.stack.trans taken.stack
      free := forced.free.trans taken.free
      cleared := (forced.entries n fun mem => distinct.1 (by
        rcases List.mem_cons.mp mem with rfl | mem
        · exact List.mem_cons_self
        · exact List.mem_cons_of_mem _ (behindH ▸ List.mem_append_left _ mem))).trans taken.cleared
      minWait := forced.minWait.trans taken.minWait
      state := forced.state.trans taken.state
      others := taken.others.trans forced.others
      tb := tb
      script := script }
  · rcases List.mem_append.mp mem with mem | mem
    · exact List.mem_append_left _ mem
    · exact List.mem_singleton.mp mem ▸ bMem

/-- Settles O49: a force-off of the top; taken over by the resume, before it the force waits. -/
theorem bandCallForcesSideTop : Obligations.BandCallForcesSideTop := by
  refine ⟨fun s j n m rest turning band => ⟨fun force done => ?_, fun ahead due endDone => ⟨fun done => ?_, fun early => ?_⟩⟩, ?_, ?_⟩
  · obtain ⟨t, made, turned, calm, -⟩ := turning.forces band
    have minDone := (Plant.minDone_iff _ turning.serving).mpr done
    have expiry : s.plant.minimumExpiry s.env j = s.plant.forceOff s.env j := by
      rw [Plant.minimumExpiry, turning.plainTop?]
      simp only [minDone, if_true, turning.side]
      exact if_pos force
    exact ⟨t, congrArg Host.Outcome.next ((s.junctionEvent_congr j (f := fun e p => p.minimumExpiry e j) expiry).trans made), turned, calm⟩
  · obtain ⟨t, made, turned, calm, call⟩ := turning.callReached.forces band
    have minDone := (Plant.minDone_iff _ turning.serving).mpr done
    have point := (turning.bandCallPoint ahead due endDone s.env).trans (if_pos minDone)
    refine ⟨t, congrArg Host.Outcome.next ((s.junctionEvent_congr j (f := fun e p => p.bandCallPoint e j) point).trans made),
      turned.of_callReached, calm, ?_⟩
    rw [call, s.callReached_jn]
    rfl
  · have before : ¬s.plant.pool[n].minDone = true := fun done =>
      absurd ((Plant.minDone_iff _ turning.serving).mp done) (Nat.not_le.mpr early)
    have point := (turning.bandCallPoint ahead due endDone s.env).trans (if_neg before)
    refine congrArg Host.Outcome.next (turning.settled.junctionEvent turning.noRequest (f := fun e p => p.bandCallPoint e j)
      (point.trans ?_) rfl rfl)
    exact Plant.upd_upd s.plant j Junction.called fun J => { J with force := true }
  · intro s j k r a n h rest ctx c out holds ends side call idle
    have alone := holds.alone
    refine ⟨fun b skipped behind behindH band green reached => ?_, fun green early => ?_, fun fresh => ?_⟩
    · exact holds.next_forced ends side call idle behindH band green reached
    · have taken := holds.taken out side call idle green
      let p := s.takenOver j k n h out rest ctx
      let f : Junction → Junction := fun J => { J with force := true }
      let g : Junction → Junction := fun J => { J with force := true, resuming := none }
      have resumed := (holds.takesOver out side call idle green).resume s.env ctx (v := p.upd j f)
        (if_neg (by rw [early]; exact Bool.false_ne_true))
        (Plant.topEntry?_cons (p := p.upd j f) (by rw [Plant.upd_at]; exact taken.chain))
      have final : (s.unheld j k n out (h :: rest)).resume s.env j ctx = p.upd j g :=
        resumed.trans ((if_pos (congrArg Entry.status taken.served :)).trans (Plant.upd_upd p j f fun J => { J with resuming := none }))
      obtain ⟨t, made, plant, tb, script⟩ := ends.next alone.slot alone.active ((alone.unwound out).trans final)
        (alone.junction ▸ alone.noRequest) taken.req taken.raised
      have at' : t.plant.jn[j] = g p.jn[j] := by rw [plant, Plant.upd_at]
      have others : s.plant.OthersSame t.plant j := by rw [plant]; exact taken.others.trans (Plant.othersSame_upd p j g)
      refine ⟨t, made, ?_, ?_, ?_, ?_, ?_, ?_, ?_, ?_, ?_⟩
      · exact {
          req := by rw [plant]; exact taken.req
          level := by rw [at']; exact taken.level
          stack := by rw [at']; exact taken.stack
          free := by rw [plant]; exact taken.free
          cleared := by rw [plant]; exact taken.cleared
          minWait := by rw [at']; exact taken.minWait
          state := by rw [at']; exact taken.state
          others := others
          tb := tb
          script := script }
      · rw [at']; exact taken.chain
      · rw [plant]; exact taken.served
      · rw [plant]; exact taken.entries
      · rw [at']; exact taken.order
      · rw [at']; exact taken.green
      · rw [at']
      · rw [at']
      · rw [at']; exact taken.allowance
    · obtain ⟨t, made, unheld⟩ := alone.next_ordered ends idle fresh
      have at' := unheld.junction
      refine ⟨t, made, unheld.popped (K := Junction.ordered (Junction.resumed _ ctx _) h _) rfl rfl rfl holds.inStep, ?_, unheld.entries,
        ?_, ?_, ?_, ?_⟩
      · rw [at']; rfl
      · rw [at']; rfl
      · rw [at']; rfl
      · rw [at']
        show (s.plant.jn[j].force || (s.plant.pool[h].role == .side && s.plant.jn[j].callReached)) = true
        rw [side, call]
        exact Bool.or_true _
      · rw [at']; exact if_pos side
  · intro s j k r a n rest ctx c out quiet slot junction extend active ends inStep stack names entry prior chain host side serving green
      idle waits call bare none
    have alone : s.ExtendAlone j k r a n rest ctx := ⟨quiet, slot, junction, active, inStep, stack, names, prior, chain, host,
      serving, waits, bare, none⟩
    let p := s.plant.extendPopped j k 0
    have at' := State.ExtendAlone.popped_at s j k
    have resumed := (alone.resumes.trans (if_pos ⟨side, call⟩)).trans (Plant.resumeForce_serving (p := p) s.env
      (by rw [at']; exact chain) host side serving (by rw [at']; exact call) (by rw [at']) s.plant.pool[n].minDone)
    have minDone := Plant.minDone_iff _ serving
    refine ⟨fun b skipped behind behindN band past => ?_, fun early => ?_⟩
    · have forced := Plant.forceOff_passes (p := p) s.env (by rw [at']; exact behindN ▸ chain) band.recurring band.sides band.band
        band.distinct band.bound (by rw [at']; exact idle)
        (by rw [at']; exact fun eq => band.stage (Option.some.inj (green.symm.trans eq)).symm)
      obtain ⟨t, made, plant, tb, script⟩ := alone.next ends (resumed.trans (if_pos (minDone.mpr past))) forced.req forced.raised
      rw [← plant] at forced
      refine ⟨t, made, forced.req, ?_, ?_, forced.forcedOff ⟨_, _, rfl⟩ (fun i mem => rfl) (by rw [at']) (fun i mem => rfl)
        (s.plant.extendPopped_others j k 0), forced.free, tb, script⟩
      · rw [forced.level, at']
      · rw [forced.stack, at']
    · let f : Junction → Junction := fun J => { J with force := true }
      obtain ⟨t, made, plant, tb, script⟩ := alone.next ends
        (resumed.trans (if_neg fun done => absurd (minDone.mp done) (Nat.not_le.mpr early))) rfl rfl
      refine ⟨t, made, by rw [plant]; rfl, ?_, by rw [plant]; rfl, ?_, by rw [plant]; rfl, tb, script⟩
      · rw [plant]
        exact (Plant.upd_at p j f).trans (congrArg f at')
      · rw [plant]
        exact (s.plant.extendPopped_others j k 0).trans (Plant.othersSame_upd p j f)

end Sys2Proof.Machine
end

section
/-! PROOFS. O54: the resolution of an order that is not confirmed (R53, R54). -/

namespace Sys2Proof.Machine

open Sys2Proof

/-- R53: the entry once an order error has been charged, with a retry left or without limit. -/
def Entry.charged (x : Entry) (err : EntryError) : Entry :=
  { x with error := err, retries := if x.allowance = 0 then x.retries else x.retries - 1 }

namespace Plant

section Errors

variable {p : Plant} {j : JIdx} {n : EntryNo} {rest : List EntryNo}

/-- R53, R131: the stage of the top is ordered in place of the order in flight. -/
theorem reorder_eq (e : Env) (chain : p.jn[j].chain = n :: rest) (dark : p.jn[j].green = none) :
    p.reorder e j = p.upd j fun J => J.ordered n p.pool[n].stage := by
  let q := p.upd j fun J => { J with order := none }
  have at' : q.jn[j] = { p.jn[j] with order := none } := upd_at p j fun J => { J with order := none }
  have sent := orderTop_sends e q j (n := n) (rest := rest) (by rw [at']; exact chain) (by rw [at']) fun _ => by
    rw [at']; exact fun green => nomatch dark.symm.trans green
  exact sent.trans (upd_upd p j (fun J => { J with order := none }) fun J => J.ordered n p.pool[n].stage)

theorem orderError_gone (e : Env) {o : OrderInFlight} (gone : o.live = false) (err : EntryError) :
    p.orderError e j o err = p.reorder e j := by
  rw [orderError, if_neg (by rw [gone]; exact Bool.false_ne_true)]

/-- R53: an order error of the top is charged, and its stage ordered again. -/
theorem orderError_charged (e : Env) {o : OrderInFlight} (live : o.live = true) (entry : o.entry = n) (err : EntryError)
    (chain : p.jn[j].chain = n :: rest) (dark : p.jn[j].green = none) (left : p.pool[n].allowance = 0 ∨ 0 < p.pool[n].retries) :
    p.orderError e j o err = (p.updEnt n fun x => x.charged err).upd j fun J => J.ordered n p.pool[n].stage := by
  have charge (f : Entry → Entry) (same : f p.pool[n] = p.pool[n].charged err) :
      (p.updEnt n f).reorder e j = (p.updEnt n fun x => x.charged err).upd j fun J => J.ordered n p.pool[n].stage := by
    have changed : p.updEnt n f = p.updEnt n fun x => x.charged err := congrArg (fun x => { p with pool := p.pool.set n x }) same
    have stage : (p.updEnt n fun x => x.charged err).pool[n].stage = p.pool[n].stage := by rw [updEnt_at]; rfl
    rw [changed, reorder_eq (p := p.updEnt n fun x => x.charged err) e chain dark, stage]
  rw [orderError, if_pos live]
  simp only [entry]
  by_cases free : p.pool[n].allowance = 0
  · refine (if_pos free).trans (charge _ ?_)
    rw [Entry.charged, if_pos free]
  · have some' : 0 < p.pool[n].retries := left.resolve_left free
    refine (if_neg free).trans ((if_pos some').trans ?_)
    have once : (p.updEnt n fun x => { x with error := err }).updEnt n (fun x => { x with retries := x.retries - 1 }) =
        p.updEnt n fun x => { x with error := err, retries := x.retries - 1 } := by
      simp only [updEnt, Fin.getElem_fin, Vector.getElem_set_self, Vector.set_set]
    rw [once]
    refine charge _ ?_
    rw [Entry.charged, if_neg free]

/-- R54: the junction stalls at its top n. -/
structure Stalled (p q : Plant) (j : JIdx) (n : EntryNo) (err : EntryError) : Prop where
  state : q.jn[j].state = .solo .stall
  status : q.pool[n].status = .stalled
  error : q.pool[n].error = err
  order : q.jn[j].order = none
  green : q.jn[j].green = none
  level : q.jn[j].level = 0
  stack : q.jn[j].stack = []
  chain : q.jn[j].chain = p.jn[j].chain
  requests : ∀ k : SlotNo, ∀ r, q.req[k] = some r → r.junction ≠ j
  others : p.OthersSame q j
  dwell : q.jn[j].dwell = false
  rows : q.jn[j].det.rows = p.jn[j].det.rows ∧ q.jn[j].det.rowsValid = p.jn[j].det.rowsValid

theorem stall_stalled (err : EntryError) (chain : p.jn[j].chain = n :: rest)
    (hosts : ∀ i ∈ p.jn[j].chain, p.pool[i].origin = .host) : p.Stalled (p.stall j err) j n err := by
  rw [stall_hosts p j err chain hosts]
  have requests := p.leave_noRequest j
  have others := p.leave_othersSame j
  have leftAt : (p.leave j).jn[j] = leaveValues p.jn[j] := by
    rw [p.leave_at j, show (p.retireServices j).jn[j].chain = p.jn[j].chain from (congrArg Junction.chain (p.leave_at j)).symm.trans
      (p.leave_chain_hosts j hosts)]
  generalize p.leave j = l at requests others leftAt
  let q := l.updEnt n fun x => { x with status := .stalled, error := err }
  have kept := q.enterSolo_restated j .stall
  have at' := q.enterSolo_at j .stall
  rw [show q.jn[j] = leaveValues p.jn[j] from leftAt] at at'
  have entry : (q.enterSolo j .stall).pool[n] = { l.pool[n] with status := .stalled, error := err } := by
    rw [kept.pool]
    exact updEnt_at l n fun x => { x with status := .stalled, error := err }
  exact {
    state := by rw [at']
    status := by rw [entry]
    error := by rw [entry]
    order := by rw [at']; rfl
    green := by rw [at']; rfl
    level := by rw [at']; rfl
    stack := by rw [at']; rfl
    chain := by rw [at']; rfl
    requests := fun k r found => requests k r (by rw [kept.req] at found; exact found)
    others := fun i apart => (kept.others i apart).trans (others i apart)
    dwell := by rw [at']; rfl
    rows := by rw [at']; exact ⟨rfl, rfl⟩ }

/-- R53, R54: an order error of the top without a retry left. -/
theorem orderError_stalls (e : Env) {o : OrderInFlight} (live : o.live = true) (entry : o.entry = n) (err : EntryError)
    (chain : p.jn[j].chain = n :: rest) (limited : p.pool[n].allowance ≠ 0) (used : p.pool[n].retries = 0)
    (hosts : ∀ i ∈ p.jn[j].chain, p.pool[i].origin = .host) : p.Stalled (p.orderError e j o err) j n err := by
  let q := p.updEnt n fun x => { x with error := err }
  have stalls : p.orderError e j o err = q.stall j err := by
    rw [orderError, if_pos live]
    simp only [entry]
    exact (if_neg limited).trans (if_neg (by rw [used]; exact Nat.lt_irrefl 0))
  have hostsQ : ∀ i ∈ q.jn[j].chain, q.pool[i].origin = .host := fun i mem => by
    by_cases same : i = n
    · rw [same, updEnt_at]; exact hosts n (by rw [chain]; exact List.mem_cons_self)
    · rw [updEnt_elsewhere p _ same]; exact hosts i mem
  have stalled := stall_stalled (p := q) err chain hostsQ
  rw [stalls]
  exact { stalled with }

end Errors

end Plant

end Sys2Proof.Machine
end

section
/-! PROOFS. O54: the resolution of an order that is not confirmed (R53, R54, R131). -/

namespace Sys2Proof.Machine

open Sys2Proof

namespace Plant

section Reorders

variable {p q : Plant} {j : JIdx} {n : EntryNo} {rest : List EntryNo}

/-- R53, R131: the stage of the top n has been ordered with the next tag. -/
structure Reordered (p q : Plant) (j : JIdx) (n : EntryNo) : Prop where
  order : q.jn[j].order = some { entry := n, live := true, stage := p.pool[n].stage, tag := p.jn[j].line.lastTag + 1, deadline := none }
  tag : q.jn[j].line.lastTag = p.jn[j].line.lastTag + 1
  green : q.jn[j].green = none
  state : q.jn[j].state = p.jn[j].state
  chain : q.jn[j].chain = p.jn[j].chain
  others : p.OthersSame q j
  free : q.free = p.free
  req : q.req = p.req
  raised : q.raised = p.raised
  det : q.jn[j].det = p.jn[j].det
  dwell : q.jn[j].dwell = false

theorem reordered_upd (p : Plant) (j : JIdx) (n : EntryNo) : p.Reordered (p.upd j fun J => J.ordered n p.pool[n].stage) j n := by
  have at' := upd_at p j fun J => J.ordered n p.pool[n].stage
  exact {
    order := by rw [at']; rfl
    tag := by rw [at']; exact Junction.ordered_lastTag ..
    green := by rw [at']; rfl
    state := by rw [at']; rfl
    chain := by rw [at']; rfl
    others := othersSame_upd p j fun J => J.ordered n p.pool[n].stage
    free := rfl
    req := rfl
    raised := rfl
    det := by rw [at']; rfl
    dwell := by rw [at']; rfl }

/-- The same after the charge of the top. -/
theorem Reordered.charged {err : EntryError} (h : (p.updEnt n fun x => x.charged err).Reordered q j n) : p.Reordered q j n :=
  { h with order := by rw [h.order, updEnt_at]; rfl }

theorem Reordered.of_recorded {e : Env} {body : List Byte} (h : (p.recordReport e j body).Reordered q j n) : p.Reordered q j n := by
  have at' := recordReport_at e p j body
  exact {
    order := by rw [h.order, at']; rfl
    tag := by rw [h.tag, at']; rfl
    green := h.green
    state := by rw [h.state, at']
    chain := by rw [h.chain, at']
    others := (recordReport_others e p j body).trans h.others
    free := h.free
    req := h.req
    raised := h.raised
    det := by rw [h.det, at']
    dwell := h.dwell }

theorem Stalled.of_recorded {e : Env} {body : List Byte} {err : EntryError} (h : (p.recordReport e j body).Stalled q j n err) :
    p.Stalled q j n err := by
  have at' := recordReport_at e p j body
  exact { h with
    chain := by rw [h.chain, at']
    others := (recordReport_others e p j body).trans h.others
    rows := by rw [h.rows.1, h.rows.2, at']; exact ⟨rfl, rfl⟩ }

theorem Stalled.attempts {err : EntryError} (h : p.Stalled q j n err) (e : Env) : q.attempts e j = q :=
  attempts_of_not_inStep e q j (by rw [h.state]; exact JState.noConfusion)

theorem Reordered.attempts (h : p.Reordered q j n) (none : p.NoCandidate j) (e : Env) : q.attempts e j = q :=
  (none.of_req h.req).attempts e

/-- R53: an order error with a retry left, or without limit. -/
theorem orderError_reorders (e : Env) {o : OrderInFlight} (live : o.live = true) (entry : o.entry = n) (err : EntryError)
    (chain : p.jn[j].chain = n :: rest) (dark : p.jn[j].green = none) (left : p.pool[n].allowance = 0 ∨ 0 < p.pool[n].retries) :
    ∃ q, p.orderError e j o err = q ∧ p.Reordered q j n ∧ q.pool[n] = p.pool[n].charged err ∧ p.EntriesSame q [n] := by
  have stage : (p.updEnt n fun x => x.charged err).pool[n].stage = p.pool[n].stage := by rw [updEnt_at]; rfl
  have reordered := ((p.updEnt n fun x => x.charged err).reordered_upd j n).charged
  rw [stage] at reordered
  exact ⟨_, orderError_charged e live entry err chain dark left, reordered, updEnt_at p n fun x => x.charged err,
    entriesSame_updEnt p n fun x => x.charged err⟩

theorem confirmTimeout_due (e : Env) {o : OrderInFlight} {d : Nat} (order : p.jn[j].order = some o) (deadline : o.deadline = some d)
    (due : d ≤ e.now) : p.confirmTimeout e j = (p.orderError e j o .confirmTimeout).attempts e j := by
  rw [confirmTimeout, order]
  simp only [deadline]
  exact if_pos due

theorem compareOrder_wrong (e : Env) {o : OrderInFlight} {body : List Byte} (order : p.jn[j].order = some o)
    (tag : reportTag body = o.tag.val) (green : reportGreen body ≠ some o.stage) :
    p.compareOrder e j body = (p.orderError e j o .wrongStage).attempts e j := by
  rw [compareOrder, order]
  exact (if_pos tag).trans (if_neg green)

theorem compareOrder_confirms (e : Env) {o : OrderInFlight} {body : List Byte} (order : p.jn[j].order = some o)
    (tag : reportTag body = o.tag.val) (green : reportGreen body = some o.stage) :
    p.compareOrder e j body = p.confirmOrder e j o := by
  rw [compareOrder, order]
  exact (if_pos tag).trans (if_pos green)

end Reorders

end Plant

namespace State

section Report

variable {s : State} {j : JIdx} {body : List Byte}

/-- A report without edges and without request records, compared with the order in flight, once it is known what the comparison makes of
the plant. -/
theorem QuietReport.exec_compared (report : s.QuietReport j body []) (ready : s.ReadyUnit j body) (none : s.plant.NoCandidate j)
    (coordinated : s.plant.jn[j].state.coordinated = true) (first : TakeOrder) {q : Plant}
    (compared : (s.plant.recordReport s.env j body).compareOrder s.env j body = q) (valid : q.jn[j].det.rowsValid = true)
    (rows : q.jn[j].det.rows = s.plant.jn[j].det.rows) (dwell : q.jn[j].dwell = false) (still : q.attempts s.env j = q) :
    exec (.reportReceived j first (reportWire body)) s = .next (({ s with plant := q } : State).finish) := by
  have calm : (s.plant.recordReport s.env j body).NoCandidate j := none
  have taken := report.takeReport_ready first ready coordinated (calm.attempts s.env) compared
    ⟨valid, rows.trans report.rows, dwell, still⟩
  exact (report.exec_eq first).trans (congrArg (fun p => Host.Outcome.next ({ s with plant := p } : State).finish) taken)

end Report

section Next

variable {s : State} {j : JIdx} {n : EntryNo} {err : EntryError} {c : Instr} {q : Plant}

theorem Settled.next_charged (settled : s.Settled) (made : exec c s = .next (({ s with plant := q } : State).finish))
    (h : s.plant.Reordered q j n) (entry : q.pool[n] = s.plant.pool[n].charged err) (entries : s.plant.EntriesSame q [n]) :
    ∃ t, exec c s = .next t ∧ s.PlantOnly t ∧
      t.plant.pool[n] = { s.plant.pool[n] with
        error := err
        retries := if s.plant.pool[n].allowance = 0 then s.plant.pool[n].retries else s.plant.pool[n].retries - 1 } ∧
      s.plant.EntriesSame t.plant [n] ∧
      t.plant.jn[j].order = some { entry := n, live := true, stage := s.plant.pool[n].stage
                                   tag := s.plant.jn[j].line.lastTag + 1, deadline := none } ∧
      t.plant.jn[j].line.lastTag = s.plant.jn[j].line.lastTag + 1 ∧ t.plant.jn[j].state = s.plant.jn[j].state ∧
      t.plant.jn[j].chain = s.plant.jn[j].chain ∧ s.plant.OthersSame t.plant j ∧ t.plant.free = s.plant.free :=
  ⟨_, made.trans (congrArg Host.Outcome.next (settled.finish_plant h.raised)), s.plantOnly q, entry, entries, h.order, h.tag, h.state,
    h.chain, h.others, h.free⟩

theorem Settled.next_reordered (settled : s.Settled) (made : exec c s = .next (({ s with plant := q } : State).finish))
    (h : s.plant.Reordered q j n) (pool : q.pool = s.plant.pool) :
    ∃ t, exec c s = .next t ∧ s.PlantOnly t ∧ t.plant.pool = s.plant.pool ∧
      t.plant.jn[j].order = some { entry := n, live := true, stage := s.plant.pool[n].stage
                                   tag := s.plant.jn[j].line.lastTag + 1, deadline := none } ∧
      t.plant.jn[j].line.lastTag = s.plant.jn[j].line.lastTag + 1 ∧ t.plant.jn[j].green = none ∧
      t.plant.jn[j].state = s.plant.jn[j].state ∧ t.plant.jn[j].chain = s.plant.jn[j].chain ∧ s.plant.OthersSame t.plant j ∧
      t.plant.free = s.plant.free ∧ t.plant.req = s.plant.req :=
  ⟨_, made.trans (congrArg Host.Outcome.next (settled.finish_plant h.raised)), s.plantOnly q, pool, h.order, h.tag, h.green, h.state,
    h.chain, h.others, h.free, h.req⟩

theorem next_stalled (made : exec c s = .next (({ s with plant := q } : State).finish)) (h : s.plant.Stalled q j n err) :
    ∃ t, exec c s = .next t ∧ t.plant.jn[j].state = .solo .stall ∧
      t.plant.pool[n].status = .stalled ∧ t.plant.pool[n].error = err ∧ t.plant.jn[j].order = none ∧
      t.plant.jn[j].green = none ∧ t.plant.jn[j].level = 0 ∧ t.plant.jn[j].stack = [] ∧
      t.plant.jn[j].chain = s.plant.jn[j].chain ∧
      (∀ k : SlotNo, ∀ r, t.plant.req[k] = some r → r.junction ≠ j) ∧ s.plant.OthersSame t.plant j ∧ t.tb = s.tb := by
  have plant := finish_plant ({ s with plant := q } : State)
  refine ⟨_, made, ?_, ?_, ?_, ?_, ?_, ?_, ?_, ?_, ?_, ?_, (finish_eventFrame _).tb⟩
  · rw [plant]; exact h.state
  · rw [plant]; exact h.status
  · rw [plant]; exact h.error
  · rw [plant]; exact h.order
  · rw [plant]; exact h.green
  · rw [plant]; exact h.level
  · rw [plant]; exact h.stack
  · rw [plant]; exact h.chain
  · rw [plant]; exact h.requests
  · rw [plant]; exact h.others

end Next

end State

/-- Settles O54. -/
theorem missedConfirmationIsCharged : Obligations.MissedConfirmationIsCharged := by
  refine ⟨fun s j n rest tag d settled none chain due order dark => ?_,
    fun s j first body n rest tag deadline report ready none coordinated chain dark order sameTag wrong => ?_,
    fun s j n rest o none chain order gone dark => ?_⟩
  · let o : OrderInFlight := { entry := n, live := true, stage := s.plant.pool[n].stage, tag := tag, deadline := some d }
    have timeout := Plant.confirmTimeout_due (o := o) s.env order rfl due
    have made {q : Plant} (resolved : s.plant.orderError s.env j o .confirmTimeout = q) (still : q.attempts s.env j = q) :
        exec (.confirmTimeout j) s = .next (({ s with plant := q } : State).finish) :=
      congrArg (fun p => Host.Outcome.next ({ s with plant := p } : State).finish)
        (timeout.trans ((congrArg (fun p : Plant => p.attempts s.env j) resolved).trans still))
    refine ⟨fun left => ?_, fun limited used hosts => ?_⟩
    · obtain ⟨q, resolved, reordered, entry, entries⟩ := Plant.orderError_reorders (n := n) (o := o) s.env rfl rfl .confirmTimeout chain dark left
      exact settled.next_charged (made resolved (reordered.attempts none s.env)) reordered entry entries
    · have stalled := Plant.orderError_stalls (n := n) (o := o) s.env rfl rfl .confirmTimeout chain limited used hosts
      exact State.next_stalled (made rfl (stalled.attempts s.env)) stalled
  · let o : OrderInFlight := { entry := n, live := true, stage := s.plant.pool[n].stage, tag := tag, deadline := deadline }
    let p := s.plant.recordReport s.env j body
    have at' : p.jn[j] = _ := Plant.recordReport_at s.env s.plant j body
    have chainP : p.jn[j].chain = n :: rest := by rw [at']; exact chain
    have compared := Plant.compareOrder_wrong (p := p) (o := o) s.env (by rw [at']; exact order) sameTag wrong
    refine ⟨fun left => ?_, fun limited used hosts => ?_⟩
    · obtain ⟨q, resolved, recorded, entry, entries⟩ := Plant.orderError_reorders (p := p) (n := n) (o := o) s.env rfl rfl .wrongStage chainP
        (by rw [at']; exact dark) left
      have reordered := recorded.of_recorded
      have still := reordered.attempts none s.env
      rw [resolved, still] at compared
      exact report.settled.next_charged (report.exec_compared ready none coordinated first compared
        (by rw [reordered.det]; exact report.valid) (by rw [reordered.det]) reordered.dwell still) reordered entry entries
    · have recorded := Plant.orderError_stalls (p := p) (n := n) (o := o) s.env rfl rfl .wrongStage chainP limited used (by rw [at']; exact hosts)
      have stalled := recorded.of_recorded
      have still := stalled.attempts s.env
      rw [still] at compared
      exact State.next_stalled (report.exec_compared ready none coordinated first compared
        (stalled.rows.2.trans report.valid) stalled.rows.1 stalled.dwell still) stalled
  · refine ⟨fun d settled deadline due => ?_, fun first body report ready coordinated sameTag wrong => ?_⟩
    · have resolved := (Plant.orderError_gone (p := s.plant) s.env gone .confirmTimeout).trans (Plant.reorder_eq s.env chain dark)
      have reordered := s.plant.reordered_upd j n
      refine settled.next_reordered ?_ reordered rfl
      exact congrArg (fun p => Host.Outcome.next ({ s with plant := p } : State).finish)
        ((Plant.confirmTimeout_due s.env order deadline due).trans
          ((congrArg (fun p : Plant => p.attempts s.env j) resolved).trans (reordered.attempts none s.env)))
    · let p := s.plant.recordReport s.env j body
      have at' : p.jn[j] = _ := Plant.recordReport_at s.env s.plant j body
      have compared := Plant.compareOrder_wrong (p := p) s.env (by rw [at']; exact order) sameTag wrong
      have resolved := (Plant.orderError_gone (p := p) s.env gone .wrongStage).trans
        (Plant.reorder_eq (n := n) (rest := rest) s.env (by rw [at']; exact chain) (by rw [at']; exact dark))
      have reordered := (p.reordered_upd j n).of_recorded
      have still := reordered.attempts none s.env
      rw [resolved, still] at compared
      exact report.settled.next_reordered (report.exec_compared ready none coordinated first compared
        (by rw [reordered.det]; exact report.valid) (by rw [reordered.det]) reordered.dwell still) reordered rfl

end Sys2Proof.Machine
end

section
/-! SUPPORT. The confirmation of an order by a report (R52, R55, R130, R131). -/

namespace Sys2Proof.Machine

open Sys2Proof

/-- R52: the junction once the stage of its order is green, before its top is served. -/
def Junction.greened (J : Junction) (st : Stage) : Junction := { J with order := none, green := some st, state := .inStep }

namespace Plant

section Confirm

variable {p q : Plant} {j : JIdx} {n : EntryNo} {rest : List EntryNo}

/-- R52, R50: the order in flight is resolved by the confirmation of its stage, and the junction IN_STEP. -/
def greened (p : Plant) (j : JIdx) (st : Stage) : Plant :=
  (p.upd j fun J => { J with order := none, green := some st }).setState j .inStep

theorem greened_at (p : Plant) (j : JIdx) (st : Stage) : (p.greened j st).jn[j] = p.jn[j].greened st := by
  rw [greened, setState_at, upd_at]
  rfl

theorem greened_others (p : Plant) (j : JIdx) (st : Stage) : p.OthersSame (p.greened j st) j :=
  (othersSame_upd p j fun J => { J with order := none, green := some st }).trans (setState_restated _ j .inStep).others

theorem greened_pool (p : Plant) (j : JIdx) (st : Stage) : (p.greened j st).pool = p.pool := (setState_restated _ j .inStep).pool

theorem greened_free (p : Plant) (j : JIdx) (st : Stage) : (p.greened j st).free = p.free := (setState_restated _ j .inStep).free

theorem greened_req (p : Plant) (j : JIdx) (st : Stage) : (p.greened j st).req = p.req := (setState_restated _ j .inStep).req

/-- R44: a junction that was IN_STEP changes its state not. -/
theorem greened_inStep (inStep : p.jn[j].state = .inStep) (st : Stage) :
    p.greened j st = p.upd j fun J => { J with order := none, green := some st } :=
  if_pos (by rw [upd_at]; exact inStep)

/-- R55, R130: what follows the confirmation of an order. -/
def afterConfirm (e : Env) (p : Plant) (j : JIdx) : Plant :=
  (((p.attempts e j).orderWaitingTop e j).forceAtConfirm e j).attempts e j

/-- R52: the confirmation of the order of the top. -/
theorem confirmOrder_top (e : Env) {o : OrderInFlight} (live : o.live = true) (entry : o.entry = n) (chain : p.jn[j].chain = n :: rest)
    (coordinated : p.jn[j].state.coordinated = true) :
    p.confirmOrder e j o = ((p.greened j o.stage).serveTop e j).afterConfirm e j := by
  let u := p.upd j fun J => { J with order := none, green := some o.stage }
  have stateU : u.jn[j].state = p.jn[j].state := by rw [show u.jn[j] = _ from upd_at ..]
  have top : o.live = true ∧ u.top? j = some o.entry := by
    refine ⟨live, ?_⟩
    rw [top?, show u.jn[j] = _ from upd_at .., entry]
    exact congrArg List.head? chain
  have state : (if (p.jn[j].state == .joining) = true then u.setState j .inStep else u) = p.greened j o.stage := by
    split
    · rfl
    · rename_i apart
      refine (if_pos ?_).symm
      rw [stateU]
      cases here : p.jn[j].state with
      | inStep => rfl
      | joining => exact absurd (by rw [here]; rfl) apart
      | absent => rw [here] at coordinated; exact nomatch coordinated
      | loc c => rw [here] at coordinated; exact nomatch coordinated
      | solo c => rw [here] at coordinated; exact nomatch coordinated
  rw [confirmOrder]
  exact congrArg (fun q : Plant => q.afterConfirm e j) ((if_pos top).trans (congrArg (fun q : Plant => q.serveTop e j) state))

/-- R131: the confirmation of an order whose entry has left the chain. -/
theorem confirmOrder_gone (e : Env) {o : OrderInFlight} (gone : o.live = false) : p.confirmOrder e j o =
    ((p.upd j fun J => { J with order := none, green := some o.stage }).detectorConfirm e j o.stage).afterConfirm e j := by
  rw [confirmOrder]
  exact congrArg (fun q : Plant => q.afterConfirm e j) (if_neg fun both => Bool.false_ne_true (gone.symm.trans both.1))

/-- A SERVING top is not ordered. -/
theorem orderWaitingTop_serving (e : Env) {x : Entry} (top : p.topEntry? j = some x) (serving : x.status = .serving) :
    p.orderWaitingTop e j = p := by
  rw [orderWaitingTop, top]
  exact if_neg fun all => absurd (serving.symm.trans all.1) EntryStatus.noConfusion

theorem orderWaitingTop_orders (e : Env) {x : Entry} (top : p.topEntry? j = some x) (waiting : x.status = .waiting)
    (idle : p.jn[j].order = none) (waits : p.jn[j].minWait = none) : p.orderWaitingTop e j = p.orderTop e j := by
  rw [orderWaitingTop, top]
  exact if_pos ⟨waiting, by rw [idle]; rfl, by rw [waits]; rfl⟩

/-- R128: without a force at the confirmation, the record of a resume is dropped at most. -/
theorem forceAtConfirm_calm (e : Env) (calm : p.jn[j].force = false ∨ ∀ x, p.topEntry? j = some x → x.role ≠ .side ∨ x.origin ≠ .host) :
    ∃ r, p.forceAtConfirm e j = p.upd j fun J => { J with resuming := r } := by
  have same : p = p.upd j fun J => { J with resuming := p.jn[j].resuming } := (p.upd_id j _ rfl).symm
  rw [forceAtConfirm]
  cases plain : p.plainTop? j with
  | none => exact ⟨_, same⟩
  | some x =>
    have top : p.topEntry? j = some x ∧ (x.origin == .host) = true := by
      rw [plainTop?] at plain
      by_cases level : p.jn[j].state = .inStep ∧ p.jn[j].level = 0
      · exact Option.filter_eq_some_iff.mp ((if_pos level).symm.trans plain)
      · exact nomatch (if_neg level).symm.trans plain
    by_cases serving : x.status = .serving
    · refine ⟨none, (if_pos serving).trans (if_neg fun force => ?_)⟩
      rcases calm with calm | other
      · exact Bool.false_ne_true (calm.symm.trans force.1)
      · exact (other x top.1).elim (fun apart => apart force.2.1) fun service => service (beq_iff_eq.mp top.2)
    · exact ⟨_, (if_neg serving).trans same⟩

/-- What follows the confirmation of a SERVING top without a force. -/
theorem afterConfirm_calm (e : Env) (none : q.NoCandidate j) {x : Entry} (top : q.topEntry? j = some x) (serving : x.status = .serving)
    (calm : q.jn[j].force = false ∨ x.role ≠ .side ∨ x.origin ≠ .host) :
    ∃ r, q.afterConfirm e j = q.upd j fun J => { J with resuming := r } := by
  obtain ⟨r, forced⟩ := forceAtConfirm_calm (p := q) e (calm.imp_right fun other y found => by
    rw [← Option.some.inj (top.symm.trans found)]; exact other)
  refine ⟨r, ?_⟩
  rw [afterConfirm, none.attempts, orderWaitingTop_serving e top serving, forced]
  exact (none.of_req (q := q.upd j fun J => { J with resuming := r }) rfl).attempts e

/-- What follows the confirmation of a resumed SIDE top under a PENDING force. -/
theorem afterConfirm_forced (e : Env) (none : q.NoCandidate j) (chain : q.jn[j].chain = n :: rest) (inStep : q.jn[j].state = .inStep)
    (level : q.jn[j].level = 0) (host : q.pool[n].origin = .host) (serving : q.pool[n].status = .serving) (side : q.pool[n].role = .side)
    (force : q.jn[j].force = true) {r : Resume} (resuming : q.jn[j].resuming = some r) : q.afterConfirm e j =
      (if r.minReached = true then q.forceOff e j else q.upd j fun J => { J with resuming := Option.none }).attempts e j := by
  have plain := plainTop?_eq inStep level chain host
  rw [afterConfirm, none.attempts, orderWaitingTop_serving e (topEntry?_cons chain) serving, forceAtConfirm, plain]
  refine congrArg (fun p : Plant => p.attempts e j) ((if_pos serving).trans ?_)
  rw [resuming]
  simp only [Option.any_some, force, side, true_and]

end Confirm

end Plant

theorem Detectors.confirmStage_rows (D : Detectors) (st : Stage) :
    (D.confirmStage st).rows = D.rows ∧ (D.confirmStage st).rowsValid = D.rowsValid ∧ ∀ u, (D.confirmStage st).holdCount u = D.holdCount u := by
  rw [confirmStage]
  split <;> exact ⟨rfl, rfl, fun _ => rfl⟩

theorem Detectors.serving_rows (D : Detectors) (e : Env) (x : Entry) :
    (D.serving e x).rows = D.rows ∧ (D.serving e x).rowsValid = D.rowsValid :=
  ⟨(D.confirmStage_rows x.stage).1, (D.confirmStage_rows x.stage).2.1⟩

theorem Detectors.serving_flags_of_confirmed (D : Detectors) (e : Env) {x : Entry} {st : Stage} (same : x.stage = st) :
    ((D.confirmStage st).serving e x).flags = (D.confirmStage st).flags := by
  subst same
  rw [Detectors.serving_flags, (D.confirmStage_rows x.stage).2.2, D.confirmStage_flags]
  split
  · rfl
  · exact Vector.set_set ..

theorem Detectors.serving_map (D : Detectors) (e : Env) (x : Entry) : (D.serving e x).map = D.map := by
  show (D.confirmStage x.stage).map = D.map
  rw [Detectors.confirmStage]
  split <;> rfl

/-- R173: a report without request records. -/
theorem reportRecords_nil {body : List Byte} (none : body.getD 7 0 = 0) : reportRecords body = [] := by
  rw [reportRecords, bodyByte, none]
  rfl

end Sys2Proof.Machine
end

section
/-! SUPPORT. A report that confirms the order of the top (R52, R63, R140, R171). -/

namespace Sys2Proof.Machine

open Sys2Proof

/-! ## The probe at a BAND confirmation (R140) -/

theorem exitDetector_eq_some {D : Detectors} {dir : Direction} {w : DetIdx} (exit : D.map[w] = exitFn dir)
    (lower : ∀ i : DetIdx, i < w → D.map[i] ≠ exitFn dir) : exitDetector D dir = some w := by
  rw [exitDetector, ← Fin.find?_eq_find?_finRange, Fin.find?_eq_some_iff]
  exact ⟨beq_iff_eq.mpr exit, fun i below => beq_eq_false_iff_ne.mpr (lower i below)⟩

theorem exitDetector_eq_none {D : Detectors} {dir : Direction} (none : ∀ i : DetIdx, D.map[i] ≠ exitFn dir) :
    exitDetector D dir = Option.none := by
  rw [exitDetector, ← Fin.find?_eq_find?_finRange, Fin.find?_eq_none_iff]
  exact fun i => beq_eq_false_iff_ne.mpr (none i)

/-- R140: arming touches nothing but the probe. -/
theorem Junction.armProbe_frame (J : Junction) (dir : Direction) :
    J.armProbe dir = { J with guard := { J.guard with probe := (J.armProbe dir).guard.probe } } := by
  rw [armProbe]
  split <;> rfl

theorem Junction.armProbe_active {J : Junction} (dir : Direction) (active : J.guard.probe.active = true) :
    (J.armProbe dir).guard.probe = J.guard.probe := by rw [armProbe, if_pos active]

theorem Junction.armProbe_disabled {J : Junction} (dir : Direction) (idle : J.guard.probe.active = false)
    (disabled : J.guard.settings.enable = false) : (J.armProbe dir).guard.probe = .off := by
  rw [armProbe, if_neg (by rw [idle]; exact Bool.false_ne_true)]
  exact if_neg (by rw [disabled]; exact Bool.false_ne_true)

theorem Junction.armProbe_enabled {J : Junction} (dir : Direction) (idle : J.guard.probe.active = false)
    (enabled : J.guard.settings.enable = true) :
    (J.armProbe dir).guard.probe = match exitDetector J.det dir with
      | some w => .armed w
      | none => .off := by
  rw [armProbe, if_neg (by rw [idle]; exact Bool.false_ne_true)]
  exact if_pos enabled

/-- R63: the tally and the carried error once the band start error has been noted. -/
def Junction.bandNoted (J : Junction) : Junction :=
  if 2 * J.p < J.span then { J with tally := { J.tally with bandError := some (bandStartError J.p J.span) } }
  else { J with carried := some (bandStartError J.p J.span) }

theorem Plant.bandConfirmed_eq (e : Env) (J : Junction) : Plant.bandConfirmed e J = J.bandNoted.armProbe e.dir := rfl

theorem Junction.bandNoted_frame (J : Junction) : J.bandNoted = { J with tally := J.bandNoted.tally, carried := J.bandNoted.carried } := by
  rw [bandNoted]
  split <;> rfl

/-- R63, R140: what a BAND confirmation gives its junction. -/
theorem Plant.bandConfirmed_frame (e : Env) (J : Junction) : Plant.bandConfirmed e J = { J with
    tally := J.bandNoted.tally
    carried := J.bandNoted.carried
    guard := { J.guard with probe := (J.bandNoted.armProbe e.dir).guard.probe } } := by
  rw [Plant.bandConfirmed_eq]
  refine (Junction.armProbe_frame _ _).trans ?_
  exact congrArg (fun K : Junction => { K with guard := { K.guard with probe := (J.bandNoted.armProbe e.dir).guard.probe } })
    J.bandNoted_frame

theorem Junction.bandNoted_early {J : Junction} (early : 2 * J.p < J.span) :
    J.bandNoted.tally.bandError = some (J.p : Int) ∧ J.bandNoted.carried = J.carried := by
  rw [bandNoted, if_pos early, bandStartError, if_pos early]
  exact ⟨rfl, rfl⟩

theorem Junction.bandNoted_late {J : Junction} (late : J.span ≤ 2 * J.p) :
    J.bandNoted.tally.bandError = J.tally.bandError ∧ J.bandNoted.carried = some ((J.p : Int) - J.span) := by
  rw [bandNoted, if_neg (Nat.not_lt.mpr late), bandStartError, if_neg (Nat.not_lt.mpr late)]
  exact ⟨rfl, rfl⟩

/-! ## The record of a report of an UP line (R171) -/

theorem Plant.recordedLine_up (e : Env) {l : Line} {body : List Byte} (up : l.up = true) (mode : l.mode = some (reportMode body)) :
    Plant.recordedLine e l body =
      { l with last := some { body := body, arrived := e.arrived, tod := e.tod }, silence := some (e.arrived + 20) } := by
  rw [Plant.recordedLine, if_pos up, ← mode, ← up]
  rfl

namespace State

/-- The plant once the top n has been confirmed by a report. -/
def confirmedBy (s : State) (j : JIdx) (body : List Byte) (n : EntryNo) : Plant :=
  ((s.plant.recordReport s.env j body).greened j s.plant.pool[n].stage).confirmed s.env j n

/-- Its junction. -/
def confirmedJunction (s : State) (j : JIdx) (body : List Byte) (n : EntryNo) : Junction :=
  Junction.serving (Junction.greened { s.plant.jn[j] with line := Plant.recordedLine s.env s.plant.jn[j].line body }
    s.plant.pool[n].stage) s.env s.plant.pool[n]

section Confirmed

variable (s : State) (j : JIdx) (body : List Byte) (n : EntryNo)

theorem greened_entry (i : EntryNo) :
    ((s.plant.recordReport s.env j body).greened j s.plant.pool[n].stage).pool[i] = s.plant.pool[i] := by
  rw [Plant.greened_pool]
  rfl

theorem confirmedBy_at : (s.confirmedBy j body n).jn[j] = s.confirmedJunction j body n := by
  rw [confirmedBy, Plant.confirmed_at, Plant.greened_at, Plant.recordReport_at, greened_entry]
  rfl

theorem confirmedBy_entry : (s.confirmedBy j body n).pool[n] = s.plant.pool[n].served := by
  rw [confirmedBy, Plant.confirmed_entry, greened_entry]

theorem confirmedBy_entries : s.plant.EntriesSame (s.confirmedBy j body n) [n] := fun i apart =>
  (Plant.confirmed_entries _ s.env j n i apart).trans (s.greened_entry j body n i)

theorem confirmedBy_others : s.plant.OthersSame (s.confirmedBy j body n) j :=
  ((Plant.recordReport_others s.env s.plant j body).trans (Plant.greened_others _ j _)).trans (Plant.confirmed_others _ s.env j n)

theorem confirmedBy_free : (s.confirmedBy j body n).free = s.plant.free := Plant.greened_free _ j _

theorem confirmedBy_req : (s.confirmedBy j body n).req = s.plant.req := Plant.greened_req _ j _

/-- R44: a junction that was IN_STEP raises no notice. -/
theorem confirmedBy_raised (inStep : s.plant.jn[j].state = .inStep) : (s.confirmedBy j body n).raised = s.plant.raised := by
  rw [confirmedBy, Plant.greened_inStep (by rw [Plant.recordReport_at]; exact inStep)]
  rfl

end Confirmed

section Report

variable {s : State} {j : JIdx} {body : List Byte} {n : EntryNo} {rest : List EntryNo}

/-- R52: the report confirms the order of the top, in any of the forms of a service: what serves the top, and what follows. -/
theorem QuietReport.compare_confirms (_ : s.QuietReport j body []) (coordinated : s.plant.jn[j].state.coordinated = true)
    (confirms : s.Confirms j body n rest) : (s.plant.recordReport s.env j body).compareOrder s.env j body =
      (((s.plant.recordReport s.env j body).greened j s.plant.pool[n].stage).serveTop s.env j).afterConfirm s.env j := by
  obtain ⟨chain, ⟨tag, deadline, order, sameTag⟩, green⟩ := confirms
  have at' := Plant.recordReport_at s.env s.plant j body
  let o : OrderInFlight := { entry := n, live := true, stage := s.plant.pool[n].stage, tag := tag, deadline := deadline }
  rw [Plant.compareOrder_confirms (o := o) s.env (by rw [at']; exact order) sameTag green]
  exact Plant.confirmOrder_top (n := n) (o := o) s.env rfl rfl (by rw [at']; exact chain) (by rw [at']; exact coordinated)

theorem Confirms.greened_chain (confirms : s.Confirms j body n rest) :
    ((s.plant.recordReport s.env j body).greened j s.plant.pool[n].stage).jn[j].chain = n :: rest := by
  rw [Plant.greened_at, Plant.recordReport_at]
  exact confirms.chain

/-- R52: the SIDE top that stands for no request. -/
theorem Confirms.serves_side (confirms : s.Confirms j body n rest) (side : s.plant.pool[n].role = .side)
    (slot : s.plant.pool[n].slot = none) :
    ((s.plant.recordReport s.env j body).greened j s.plant.pool[n].stage).serveTop s.env j = s.confirmedBy j body n :=
  Plant.serveTop_side s.env confirms.greened_chain (by rw [greened_entry]; exact side) (by rw [greened_entry]; exact slot)

/-- R63: the BAND top. -/
theorem Confirms.serves_band (confirms : s.Confirms j body n rest) (band : s.plant.pool[n].role = .band)
    (slot : s.plant.pool[n].slot = none) :
    ((s.plant.recordReport s.env j body).greened j s.plant.pool[n].stage).serveTop s.env j =
      (s.confirmedBy j body n).upd j (Plant.bandConfirmed s.env) := by
  rw [Plant.serveTop_eq s.env confirms.greened_chain, if_pos (by rw [greened_entry]; exact band), greened_entry, Plant.startService, slot]
  rfl

/-- R109: the service entry of a request whose service starts. -/
theorem Confirms.serves_request (confirms : s.Confirms j body n rest) (side : s.plant.pool[n].role = .side) {k : SlotNo} {r : Request}
    {a : Active} (slot : s.plant.pool[n].slot = some k) (at' : s.plant.req[k] = some r) (active : r.state = .active a)
    (fresh : a.started = false) :
    ((s.plant.recordReport s.env j body).greened j s.plant.pool[n].stage).serveTop s.env j =
      (s.confirmedBy j body n).setReq k (some { r with
        state := .active { a with
          started := true
          svcEnd := if a.svcEnd = .notStarted then .due (s.now + 10 * r.time) else a.svcEnd } }) := by
  have notBand : s.plant.pool[n].role ≠ .band := by rw [side]; decide
  have record : (s.confirmedBy j body n).req[k] = some r := by rw [confirmedBy_req]; exact at'
  have ending : (match a.svcEnd with
      | .notStarted => ServiceEnd.due (s.env.now + 10 * r.time)
      | other => other) = if a.svcEnd = .notStarted then .due (s.now + 10 * r.time) else a.svcEnd := by
    cases a.svcEnd <;> rfl
  rw [Plant.serveTop_eq s.env confirms.greened_chain, if_neg (by rw [greened_entry]; exact notBand), greened_entry]
  show (s.confirmedBy j body n).startService s.env s.plant.pool[n] = _
  rw [Plant.startService, slot]
  simp only [record, active, fresh, Bool.false_eq_true, if_false]
  exact congrArg (fun d => (s.confirmedBy j body n).setReq k (some { r with state := .active { a with started := true, svcEnd := d } })) ending

/-- A report that confirms the top, once it is known what the service makes of the plant, no force waiting. -/
theorem QuietReport.exec_confirms (report : s.QuietReport j body []) (ready : s.ReadyUnit j body) (none : s.plant.NoCandidate j)
    (coordinated : s.plant.jn[j].state.coordinated = true) (confirms : s.Confirms j body n rest) (first : TakeOrder) {q : Plant}
    (served : ((s.plant.recordReport s.env j body).greened j s.plant.pool[n].stage).serveTop s.env j = q)
    (noneQ : q.NoCandidate j) (entry : q.pool[n] = s.plant.pool[n].served) (chain : q.jn[j].chain = n :: rest)
    (dwell : q.jn[j].dwell = false) (det : q.jn[j].det = s.plant.jn[j].det.serving s.env s.plant.pool[n])
    (calm : q.jn[j].force = false ∨ s.plant.pool[n].role ≠ .side ∨ s.plant.pool[n].origin ≠ .host) :
    ∃ r, exec (.reportReceived j first (reportWire body)) s =
      .next (({ s with plant := q.upd j fun J => { J with resuming := r } } : State).finish) := by
  obtain ⟨r, after⟩ := Plant.afterConfirm_calm s.env noneQ (Plant.topEntry?_cons chain) (by rw [entry]; rfl)
    (calm.imp_right fun other => by rw [entry]; exact other)
  have compared := report.compare_confirms coordinated confirms
  rw [served, after] at compared
  let f : Junction → Junction := fun J => { J with resuming := r }
  have at' : (q.upd j f).jn[j] = f q.jn[j] := Plant.upd_at q j f
  have rows := s.plant.jn[j].det.serving_rows s.env s.plant.pool[n]
  rw [← det] at rows
  exact ⟨r, report.exec_compared ready none coordinated first compared (by rw [at']; exact rows.2.trans report.valid)
    (by rw [at']; exact rows.1) (by rw [at']; exact dwell) ((noneQ.of_req (q := q.upd j f) rfl).attempts s.env)⟩

end Report

end State

end Sys2Proof.Machine
end

section
/-! PROOFS. O55: a report that confirms the order in flight. -/

namespace Sys2Proof.Machine

open Sys2Proof

namespace State

section Gone

variable {s : State} {j : JIdx} {body : List Byte} {n : EntryNo} {rest : List EntryNo} {o : OrderInFlight}

/-- R131: the junction once an order that its entry has left is confirmed, before its top is taken up. -/
def goneJunction (s : State) (j : JIdx) (body : List Byte) (st : Stage) : Junction :=
  { s.plant.jn[j] with
    line := Plant.recordedLine s.env s.plant.jn[j].line body, order := none, green := some st
    det := s.plant.jn[j].det.confirmStage st }

/-- R131: the plant then. -/
def gonePlant (s : State) (j : JIdx) (body : List Byte) (st : Stage) : Plant := s.plant.upd j fun _ => s.goneJunction j body st

theorem gonePlant_at (s : State) (j : JIdx) (body : List Byte) (st : Stage) : (s.gonePlant j body st).jn[j] = s.goneJunction j body st :=
  Plant.upd_at s.plant j fun _ => s.goneJunction j body st

theorem gonePlant_others (s : State) (j : JIdx) (body : List Byte) (st : Stage) : s.plant.OthersSame (s.gonePlant j body st) j :=
  Plant.othersSame_upd s.plant j fun _ => s.goneJunction j body st

/-- R131: a WAITING RECALL top is taken up when the order of an entry that has left the chain is confirmed. -/
theorem compare_gone (chain : s.plant.jn[j].chain = n :: rest) (order : s.plant.jn[j].order = some o) (gone : o.live = false)
    (tag : reportTag body = o.tag.val) (green : reportGreen body = some o.stage) (none : s.plant.NoCandidate j)
    (recalled : s.plant.pool[n].demand = .recall) (waiting : s.plant.pool[n].status = .waiting)
    (waits : s.plant.jn[j].minWait = Option.none) {q : Plant} (taken : (s.gonePlant j body o.stage).orderTop s.env j = q)
    (req : q.req = s.plant.req) (calm : q.jn[j].force = false) :
    ∃ r, (s.plant.recordReport s.env j body).compareOrder s.env j body = q.upd j fun J => { J with resuming := r } := by
  have at' := Plant.recordReport_at s.env s.plant j body
  let g := (s.plant.recordReport s.env j body).upd j fun J => { J with order := Option.none, green := some o.stage }
  have atG : g.jn[j] = { s.plant.jn[j] with
      line := Plant.recordedLine s.env s.plant.jn[j].line body, order := Option.none, green := some o.stage } :=
    (Plant.upd_at _ j _).trans (by rw [at'])
  have detected : g.detectorConfirm s.env j o.stage = s.gonePlant j body o.stage := by
    have top : (g.updDet j fun D => D.confirmStage o.stage).topEntry? j = some s.plant.pool[n] :=
      Plant.topEntry?_cons (p := g.updDet j fun D => D.confirmStage o.stage)
        (by rw [Plant.updDet, Plant.upd_at, atG]; exact chain)
    rw [Plant.detectorConfirm, top]
    refine (if_neg fun starts => absurd (recalled.symm.trans starts.1) Demand.noConfusion).trans ?_
    refine (Plant.upd_upd _ j (fun J => { J with order := Option.none, green := some o.stage })
      fun J => { J with det := J.det.confirmStage o.stage }).trans ?_
    exact Plant.upd_upd s.plant j (fun J => { J with line := Plant.recordedLine s.env J.line body })
      fun J => { J with order := Option.none, green := some o.stage, det := J.det.confirmStage o.stage }
  let u := s.gonePlant j body o.stage
  have atU : u.jn[j] = _ := s.gonePlant_at j body o.stage
  have noneU : u.NoCandidate j := none
  have noneQ : q.NoCandidate j := none.of_req req
  obtain ⟨r, forced⟩ := Plant.forceAtConfirm_calm (p := q) s.env (.inl calm)
  refine ⟨r, ?_⟩
  rw [Plant.compareOrder_confirms (o := o) s.env (by rw [at']; exact order) tag green, Plant.confirmOrder_gone s.env gone]
  rw [show (s.plant.recordReport s.env j body).upd j (fun J => { J with order := Option.none, green := some o.stage }) = g from rfl,
    detected, Plant.afterConfirm, noneU.attempts, Plant.orderWaitingTop_orders (x := s.plant.pool[n]) s.env
      (Plant.topEntry?_cons (p := u) (by rw [atU]; exact chain)) waiting (by rw [atU]; rfl) (by rw [atU]; exact waits), taken, forced]
  exact (noneQ.of_req (q := q.upd j fun J => { J with resuming := r }) rfl).attempts s.env

end Gone

section Resumed

variable {s : State} {j : JIdx} {body : List Byte} {h : EntryNo} {rest : List EntryNo} {r : Resume}

/-- R130: a report that confirms a resumed SIDE top under a PENDING force. -/
theorem QuietReport.exec_resumed (report : s.QuietReport j body []) (ready : s.ReadyUnit j body) (none : s.plant.NoCandidate j)
    (confirms : s.Confirms j body h rest) (inStep : s.plant.jn[j].state = .inStep) (level : s.plant.jn[j].level = 0)
    (resuming : s.plant.jn[j].resuming = some r) (force : s.plant.jn[j].force = true) (side : s.plant.pool[h].role = .side)
    (host : s.plant.pool[h].origin = .host) (slot : s.plant.pool[h].slot = Option.none) (first : TakeOrder) {q : Plant}
    (forced : (if r.minReached = true then (s.confirmedBy j body h).forceOff s.env j
      else (s.confirmedBy j body h).upd j fun J => { J with resuming := Option.none }) = q) (req : q.req = s.plant.req)
    (raised : q.raised = s.plant.raised) (dwell : q.jn[j].dwell = false)
    (rows : q.jn[j].det.rows = s.plant.jn[j].det.rows ∧ q.jn[j].det.rowsValid = s.plant.jn[j].det.rowsValid) :
    exec (.reportReceived j first (reportWire body)) s = .next { s with plant := q } := by
  have coordinated : s.plant.jn[j].state.coordinated = true := by rw [inStep]; rfl
  have at' := s.confirmedBy_at j body h
  have entry := s.confirmedBy_entry j body h
  have compared := report.compare_confirms coordinated confirms
  have still : q.attempts s.env j = q := (none.of_req req).attempts s.env
  rw [confirms.serves_side side slot, Plant.afterConfirm_forced (n := h) (rest := rest) (r := r) s.env
    (none.of_req (s.confirmedBy_req j body h)) (by rw [at']; exact confirms.chain) (by rw [at']; rfl) (by rw [at']; exact level)
    (by rw [entry]; exact host) (by rw [entry]; rfl) (by rw [entry]; exact side) (by rw [at']; exact force)
    (by rw [at']; exact resuming), forced, still] at compared
  exact (report.exec_compared ready none coordinated first compared (rows.2.trans report.valid) rows.1 dwell still).trans
    (congrArg Host.Outcome.next (report.settled.finish_plant raised))

/-- R130: its minimum reached, it ends FORCED at once. -/
theorem QuietReport.exec_resumed_forced (report : s.QuietReport j body []) (ready : s.ReadyUnit j body) (none : s.plant.NoCandidate j)
    (confirms : s.Confirms j body h rest) (inStep : s.plant.jn[j].state = .inStep) (level : s.plant.jn[j].level = 0)
    (resuming : s.plant.jn[j].resuming = some r) (force : s.plant.jn[j].force = true) (side : s.plant.pool[h].role = .side)
    (host : s.plant.pool[h].origin = .host) (slot : s.plant.pool[h].slot = Option.none) (first : TakeOrder) {b : EntryNo}
    {skipped behind : List EntryNo} (behindH : rest = skipped ++ b :: behind) (band : s.BandBehind h b skipped behind)
    (reached : r.minReached = true) :
    ∃ t, exec (.reportReceived j first (reportWire body)) s = .next t ∧ s.PlantOnly t ∧
      s.ForcedOff t j h b skipped behind [] ∧ t.plant.jn[j].state = .inStep ∧ t.plant.free = s.plant.free ∧
      t.plant.req = s.plant.req := by
  have at' := s.confirmedBy_at j body h
  have entry := s.confirmedBy_entry j body h
  have rows := s.plant.jn[j].det.serving_rows s.env s.plant.pool[h]
  have req := s.confirmedBy_req j body h
  have free := s.confirmedBy_free j body h
  have raised := s.confirmedBy_raised j body h inStep
  have entries := s.confirmedBy_entries j body h
  have others := s.confirmedBy_others j body h
  have made (q : Plant) := report.exec_resumed (q := q) ready none confirms inStep level resuming force side host slot first
  generalize s.confirmedBy j body h = u at *
  have distinct := List.nodup_cons.mp band.distinct
  have same (i : EntryNo) (mem : i ∈ skipped ++ b :: behind) : u.pool[i] = s.plant.pool[i] :=
    entries i fun listed => distinct.1 (List.mem_singleton.mp listed ▸ mem)
  have bMem : b ∈ skipped ++ b :: behind := List.mem_append_right _ List.mem_cons_self
  have forced := Plant.forceOff_passes (p := u) (h := h) (b := b) (skipped := skipped) (behind := behind) s.env
    (by rw [at', ← behindH]; exact confirms.chain) (by rw [entry]; exact band.recurring)
    (fun i mem => by rw [same i (List.mem_append_left _ mem)]; exact band.sides i mem) (by rw [same b bMem]; exact band.band)
    band.distinct band.bound (by rw [at']; rfl) (by rw [at', same b bMem]; exact fun eq => band.stage (Option.some.inj eq).symm)
  refine ⟨{ s with plant := u.forceOff s.env j }, made _ (if_pos reached) (forced.req.trans req) (forced.raised.trans raised)
    forced.dwell ?_, s.plantOnly _, forced.forcedOff ⟨_, _, entry⟩ (fun i mem => same i ?_) ?_ entries others, ?_,
    forced.free.trans free, forced.req.trans req⟩
  · rw [forced.rows.1, forced.rows.2, at']
    exact rows
  · rcases List.mem_append.mp mem with mem | mem
    · exact List.mem_append_left _ mem
    · exact List.mem_singleton.mp mem ▸ bMem
  · rw [at']; rfl
  · exact forced.state.trans (by rw [at']; rfl)

/-- R130: its minimum still to come, it is served under the force. -/
theorem QuietReport.exec_resumed_early (report : s.QuietReport j body []) (ready : s.ReadyUnit j body) (none : s.plant.NoCandidate j)
    (confirms : s.Confirms j body h rest) (inStep : s.plant.jn[j].state = .inStep) (level : s.plant.jn[j].level = 0)
    (resuming : s.plant.jn[j].resuming = some r) (force : s.plant.jn[j].force = true) (side : s.plant.pool[h].role = .side)
    (host : s.plant.pool[h].origin = .host) (slot : s.plant.pool[h].slot = Option.none) (first : TakeOrder)
    (early : r.minReached = false) : ∃ t, exec (.reportReceived j first (reportWire body)) s = .next t ∧ s.PlantOnly t ∧
      t.plant.pool[h] = { s.plant.pool[h] with status := .serving, elapsed := some 0 } ∧ s.plant.EntriesSame t.plant [h] ∧
      t.plant.jn[j].chain = s.plant.jn[j].chain ∧ t.plant.jn[j].order = Option.none ∧
      t.plant.jn[j].green = some s.plant.pool[h].stage ∧ t.plant.jn[j].force = true ∧ t.plant.jn[j].resuming = Option.none ∧
      t.plant.jn[j].allowance = some (max (10 * s.plant.pool[h].split - r.saved) (10 * s.plant.pool[h].minimum)) ∧
      s.plant.OthersSame t.plant j ∧ t.plant.free = s.plant.free ∧ t.plant.req = s.plant.req := by
  have at' := s.confirmedBy_at j body h
  have rows := s.plant.jn[j].det.serving_rows s.env s.plant.pool[h]
  have allowance := Plant.resumeAllowance_resumed (J := Junction.greened { s.plant.jn[j] with
    line := Plant.recordedLine s.env s.plant.jn[j].line body } s.plant.pool[h].stage) resuming host side level
  let u := s.confirmedBy j body h
  let f : Junction → Junction := fun J => { J with resuming := Option.none }
  have final : (u.upd j f).jn[j] = f (s.confirmedJunction j body h) := (Plant.upd_at u j f).trans (congrArg f at')
  have made := report.exec_resumed ready none confirms inStep level resuming force side host slot first (q := u.upd j f)
    (if_neg (by rw [early]; exact Bool.false_ne_true)) (s.confirmedBy_req j body h) (s.confirmedBy_raised j body h inStep)
    (by rw [final]; rfl) (by rw [final]; exact rows)
  refine ⟨_, made, s.plantOnly _, s.confirmedBy_entry j body h, s.confirmedBy_entries j body h, ?_, ?_, ?_, ?_, ?_, ?_,
    (s.confirmedBy_others j body h).trans (Plant.othersSame_upd u j f), s.confirmedBy_free j body h, s.confirmedBy_req j body h⟩
  · rw [final]; rfl
  · rw [final]; rfl
  · rw [final]; rfl
  · rw [final]; exact force
  · rw [final]
  · rw [final]; exact allowance

end Resumed

end State

end Sys2Proof.Machine
end

section
/-! PROOFS. O55: a report that confirms the order in flight. -/

namespace Sys2Proof.Machine

open Sys2Proof

namespace State

section Side

variable {s : State} {j : JIdx} {body : List Byte} {n : EntryNo} {rest : List EntryNo}

/-- R52, R85: a report that confirms a SIDE top that stands for no request, no force waiting. -/
theorem QuietReport.exec_side (report : s.QuietReport j body []) (ready : s.ReadyUnit j body) (none : s.plant.NoCandidate j)
    (confirms : s.Confirms j body n rest) (inStep : s.plant.jn[j].state = .inStep) (side : s.plant.pool[n].role = .side)
    (slot : s.plant.pool[n].slot = Option.none) (calm : s.plant.jn[j].force = false) (first : TakeOrder) :
    ∃ t, exec (.reportReceived j first (reportWire body)) s = .next t ∧ s.PlantOnly t ∧
      t.plant.pool[n] = { s.plant.pool[n] with status := .serving, elapsed := some 0 } ∧ s.plant.EntriesSame t.plant [n] ∧
      (∃ r, t.plant.jn[j] = { s.confirmedJunction j body n with resuming := r }) ∧
      s.plant.OthersSame t.plant j ∧ t.plant.free = s.plant.free ∧ t.plant.req = s.plant.req := by
  have at' := s.confirmedBy_at j body n
  let q := s.confirmedBy j body n
  obtain ⟨r, made⟩ := report.exec_confirms ready none (by rw [inStep]; rfl) confirms first (confirms.serves_side side slot)
    (none.of_req (s.confirmedBy_req j body n)) (s.confirmedBy_entry j body n) (by rw [at']; exact confirms.chain) (by rw [at']; rfl)
    (by rw [at']; rfl) (.inl (by rw [at']; exact calm))
  let f : Junction → Junction := fun J => { J with resuming := r }
  refine ⟨{ s with plant := q.upd j f }, made.trans (congrArg Host.Outcome.next (report.settled.finish_plant ?_)), s.plantOnly _,
    s.confirmedBy_entry j body n, s.confirmedBy_entries j body n, ⟨r, ?_⟩,
    (s.confirmedBy_others j body n).trans (Plant.othersSame_upd q j f), s.confirmedBy_free j body n, s.confirmedBy_req j body n⟩
  · exact s.confirmedBy_raised j body n inStep
  · exact (Plant.upd_at q j f).trans (congrArg f at')

end Side

section Rest

variable {s : State} {j : JIdx} {body : List Byte} {n : EntryNo} {rest : List EntryNo}

/-- R63, R140: a report that confirms a BAND top. -/
theorem QuietReport.exec_band (report : s.QuietReport j body []) (ready : s.ReadyUnit j body) (none : s.plant.NoCandidate j)
    (confirms : s.Confirms j body n rest) (coordinated : s.plant.jn[j].state.coordinated = true)
    (band : s.plant.pool[n].role = .band) (slot : s.plant.pool[n].slot = Option.none) (first : TakeOrder) :
    ∃ t, exec (.reportReceived j first (reportWire body)) s = .next t ∧ s.EventFrame t ∧
      t.plant.pool[n] = s.plant.pool[n].served ∧ s.plant.EntriesSame t.plant [n] ∧
      (∃ r, t.plant.jn[j] = { Plant.bandConfirmed s.env (s.confirmedJunction j body n) with resuming := r }) ∧
      s.plant.OthersSame t.plant j ∧ t.plant.free = s.plant.free ∧ t.plant.req = s.plant.req := by
  let u := s.confirmedBy j body n
  let q := u.upd j (Plant.bandConfirmed s.env)
  have atQ : q.jn[j] = Plant.bandConfirmed s.env (s.confirmedJunction j body n) :=
    (Plant.upd_at u j (Plant.bandConfirmed s.env)).trans (congrArg _ (s.confirmedBy_at j body n))
  have frame := Plant.bandConfirmed_frame s.env (s.confirmedJunction j body n)
  obtain ⟨r, made⟩ := report.exec_confirms ready none coordinated confirms first (q := q) (confirms.serves_band band slot)
    (none.of_req (s.confirmedBy_req j body n)) (s.confirmedBy_entry j body n) (by rw [atQ, frame]; exact confirms.chain)
    (by rw [atQ, frame]; rfl) (by rw [atQ, frame]; rfl) (.inr (.inl (by rw [band]; decide)))
  let f : Junction → Junction := fun J => { J with resuming := r }
  have plant := State.finish_plant ({ s with plant := q.upd j f } : State)
  refine ⟨_, made, s.finish_onPlant_eventFrame fun _ _ => q.upd j f, ?_⟩
  rw [plant]
  exact ⟨s.confirmedBy_entry j body n, s.confirmedBy_entries j body n, ⟨r, (Plant.upd_at q j f).trans (congrArg f atQ)⟩,
    ((s.confirmedBy_others j body n).trans (Plant.othersSame_upd u j (Plant.bandConfirmed s.env))).trans (Plant.othersSame_upd q j f),
    s.confirmedBy_free j body n, s.confirmedBy_req j body n⟩

/-- R109: a report that confirms the service entry of a request whose service has not started. -/
theorem QuietReport.exec_request (report : s.QuietReport j body []) (ready : s.ReadyUnit j body) (none : s.plant.NoCandidate j)
    (confirms : s.Confirms j body n rest) (inStep : s.plant.jn[j].state = .inStep) (side : s.plant.pool[n].role = .side)
    (service : s.plant.pool[n].origin = .service) {k : SlotNo} (slot : s.plant.pool[n].slot = some k) {r : Request}
    (record : s.plant.req[k] = some r) {a : Active} (active : r.state = .active a) (fresh : a.started = false) (first : TakeOrder) :
    ∃ t, exec (.reportReceived j first (reportWire body)) s = .next t ∧ s.PlantOnly t ∧
      t.plant.pool[n] = s.plant.pool[n].served ∧ s.plant.EntriesSame t.plant [n] ∧
      (∃ x, t.plant.jn[j] = { s.confirmedJunction j body n with resuming := x }) ∧
      t.plant.req = s.plant.req.set k (some { r with state := .active { a with
        started := true
        svcEnd := (if a.svcEnd = .notStarted then .due (s.now + 10 * r.time) else a.svcEnd) } }) ∧
      s.plant.OthersSame t.plant j ∧ t.plant.free = s.plant.free := by
  let ra : Request := { r with state := .active { a with
    started := true
    svcEnd := if a.svcEnd = .notStarted then .due (s.now + 10 * r.time) else a.svcEnd } }
  let q := (s.confirmedBy j body n).setReq k (some ra)
  have atQ : q.jn[j] = s.confirmedJunction j body n := s.confirmedBy_at j body n
  have reqQ : q.req = s.plant.req.set k (some ra) := congrArg (fun v : Vector (Option Request) 24 => v.set k (some ra))
    (s.confirmedBy_req j body n)
  obtain ⟨x, made⟩ := report.exec_confirms ready none (by rw [inStep]; rfl) confirms first (q := q)
    (confirms.serves_request side slot record active fresh) ((none.but k).of_set_active reqQ rfl) (s.confirmedBy_entry j body n)
    (by rw [atQ]; exact confirms.chain) (by rw [atQ]; rfl) (by rw [atQ]; rfl) (.inr (.inr (by rw [service]; decide)))
  let f : Junction → Junction := fun J => { J with resuming := x }
  exact ⟨{ s with plant := q.upd j f },
    made.trans (congrArg Host.Outcome.next (report.settled.finish_plant (s.confirmedBy_raised j body n inStep))), s.plantOnly _,
    s.confirmedBy_entry j body n, s.confirmedBy_entries j body n, ⟨x, (Plant.upd_at q j f).trans (congrArg f atQ)⟩, reqQ,
    (s.confirmedBy_others j body n).trans (Plant.othersSame_upd q j f), s.confirmedBy_free j body n⟩

/-- R131: the order in flight is that of an entry that has left the chain, and a report confirms it while a host SIDE top waits. -/
structure GoneConfirmed (s : State) (j : JIdx) (body : List Byte) (o : OrderInFlight) (n : EntryNo) (rest : List EntryNo) : Prop where
  report : s.QuietReport j body []
  ready : s.ReadyUnit j body
  none : s.plant.NoCandidate j
  inStep : s.plant.jn[j].state = .inStep
  chain : s.plant.jn[j].chain = n :: rest
  order : s.plant.jn[j].order = some o
  gone : o.live = false
  tag : reportTag body = o.tag.val
  green : reportGreen body = some o.stage
  demand : s.plant.pool[n].demand = .recall
  waiting : s.plant.pool[n].status = .waiting
  waits : s.plant.jn[j].minWait = Option.none
  calm : s.plant.jn[j].force = false

/-- R131: once it is known what the ordering of the top makes of the plant. -/
theorem GoneConfirmed.exec_eq {o : OrderInFlight} (h : s.GoneConfirmed j body o n rest) (first : TakeOrder) {q : Plant}
    (taken : (s.gonePlant j body o.stage).orderTop s.env j = q) (req : q.req = s.plant.req) (raised : q.raised = s.plant.raised)
    (force : q.jn[j].force = false) (dwell : q.jn[j].dwell = false) (rows : q.jn[j].det.rows = s.plant.jn[j].det.rows)
    (valid : q.jn[j].det.rowsValid = s.plant.jn[j].det.rowsValid) :
    ∃ r, exec (.reportReceived j first (reportWire body)) s = .next { s with plant := q.upd j fun J => { J with resuming := r } } := by
  obtain ⟨r, compared⟩ := State.compare_gone h.chain h.order h.gone h.tag h.green h.none h.demand h.waiting h.waits taken req force
  have at' := Plant.upd_at q j fun J => { J with resuming := r }
  have coordinated : s.plant.jn[j].state.coordinated = true := by rw [h.inStep]; rfl
  refine ⟨r, (h.report.exec_compared h.ready h.none coordinated first compared ?_ ?_ ?_ ?_).trans
    (congrArg Host.Outcome.next (h.report.settled.finish_plant raised))⟩
  · rw [at']; exact valid.trans h.report.valid
  · rw [at']; exact rows
  · rw [at']; exact dwell
  · exact Plant.NoCandidate.attempts (h.none.of_req (q := q.upd j fun J => { J with resuming := r }) req) s.env

/-- R131: the stage of the top is the confirmed one and taken over. -/
theorem GoneConfirmed.takesOver {o : OrderInFlight} (h : s.GoneConfirmed j body o n rest) (first : TakeOrder)
    (side : s.plant.pool[n].role = .side) (slot : s.plant.pool[n].slot = Option.none) (same : s.plant.pool[n].stage = o.stage) :
    ∃ t, exec (.reportReceived j first (reportWire body)) s = .next t ∧ s.PlantOnly t ∧
      (∃ r, t.plant.jn[j] = { (s.goneJunction j body o.stage).serving s.env s.plant.pool[n] with resuming := r }) ∧
      t.plant.pool[n] = s.plant.pool[n].served ∧ s.plant.EntriesSame t.plant [n] ∧ t.plant.req = s.plant.req ∧
      s.plant.OthersSame t.plant j ∧ t.plant.free = s.plant.free := by
  let u := s.gonePlant j body o.stage
  have atU : u.jn[j] = s.goneJunction j body o.stage := s.gonePlant_at j body o.stage
  have chainU : u.jn[j].chain = n :: rest := by rw [atU]; exact h.chain
  let q := u.confirmed s.env j n
  have atQ : q.jn[j] = (s.goneJunction j body o.stage).serving s.env s.plant.pool[n] :=
    (u.confirmed_at s.env j n).trans (congrArg (Junction.serving · s.env s.plant.pool[n]) atU)
  have taken : u.orderTop s.env j = q := (Plant.orderTop_takesOver s.env u j chainU (by rw [atU]; rfl) (by rw [atU]; exact h.inStep)
    (by rw [atU]; exact congrArg some same.symm)).trans (Plant.serveTop_side s.env chainU side slot)
  have rows := s.plant.jn[j].det.confirmStage_rows o.stage
  have served := (s.plant.jn[j].det.confirmStage o.stage).serving_rows s.env s.plant.pool[n]
  obtain ⟨r, made⟩ := h.exec_eq first taken rfl rfl (by rw [atQ]; exact h.calm) (by rw [atQ]; rfl)
    (by rw [atQ]; exact served.1.trans rows.1) (by rw [atQ]; exact served.2.trans rows.2.1)
  let f : Junction → Junction := fun J => { J with resuming := r }
  exact ⟨{ s with plant := q.upd j f }, made, s.plantOnly _, ⟨r, (Plant.upd_at q j f).trans (congrArg f atQ)⟩,
    u.confirmed_entry s.env j n, u.confirmed_entries s.env j n, rfl,
    ((s.gonePlant_others j body o.stage).trans (u.confirmed_others s.env j n)).trans (Plant.othersSame_upd q j f), rfl⟩

/-- R131: the stage of the top is another one and ordered. -/
theorem GoneConfirmed.orders {o : OrderInFlight} (h : s.GoneConfirmed j body o n rest) (first : TakeOrder)
    (apart : s.plant.pool[n].stage ≠ o.stage) :
    ∃ t, exec (.reportReceived j first (reportWire body)) s = .next t ∧ s.PlantOnly t ∧
      (∃ r, t.plant.jn[j] = { (s.goneJunction j body o.stage).ordered n s.plant.pool[n].stage with resuming := r }) ∧
      t.plant.pool = s.plant.pool ∧ t.plant.req = s.plant.req ∧ s.plant.OthersSame t.plant j ∧ t.plant.free = s.plant.free := by
  let u := s.gonePlant j body o.stage
  have atU : u.jn[j] = s.goneJunction j body o.stage := s.gonePlant_at j body o.stage
  have chainU : u.jn[j].chain = n :: rest := by rw [atU]; exact h.chain
  let q := u.upd j fun J => J.ordered n s.plant.pool[n].stage
  have atQ : q.jn[j] = (s.goneJunction j body o.stage).ordered n s.plant.pool[n].stage :=
    (Plant.upd_at u j fun J => J.ordered n s.plant.pool[n].stage).trans (congrArg (Junction.ordered · n s.plant.pool[n].stage) atU)
  have taken : u.orderTop s.env j = q := Plant.orderTop_sends s.env u j chainU (by rw [atU]; rfl) fun _ => by
    rw [atU]
    exact fun there => apart (Option.some.inj there).symm
  have rows := s.plant.jn[j].det.confirmStage_rows o.stage
  obtain ⟨r, made⟩ := h.exec_eq first taken rfl rfl (by rw [atQ]; exact h.calm) (by rw [atQ]; rfl) (by rw [atQ]; exact rows.1)
    (by rw [atQ]; exact rows.2.1)
  let f : Junction → Junction := fun J => { J with resuming := r }
  exact ⟨{ s with plant := q.upd j f }, made, s.plantOnly _, ⟨r, (Plant.upd_at q j f).trans (congrArg f atQ)⟩, rfl, rfl,
    ((s.gonePlant_others j body o.stage).trans (Plant.othersSame_upd u j _)).trans (Plant.othersSame_upd q j f), rfl⟩

end Rest

end State

/-- Settles O55. -/
theorem reportConfirmsOrder : Obligations.ReportConfirmsOrder := by
  refine ⟨?_, ?_, ?_, ?_, ?_, ?_⟩
  · intro s j first body n rest o settled none hunting good mode lamp records tag green inStep up modeBefore valid rows order live entry
      chain stage side host demand slot calm resuming noDwell
    have report : s.QuietReport j body [] := ⟨⟨settled, hunting, good, reportRecords_nil records, up, valid, noDwell⟩, rows⟩
    have confirms : s.Confirms j body n rest := by
      refine ⟨chain, ⟨o.tag, o.deadline, order.trans (congrArg some ?_), tag⟩, green.trans (congrArg some stage)⟩
      rw [← stage, ← entry, ← live]
    obtain ⟨t, made, only, served, entries, ⟨r, at'⟩, others, free, req⟩ :=
      report.exec_side ⟨modeBefore, mode, lamp⟩ none confirms inStep side slot calm first
    refine ⟨t, made, only, served, entries, ?_, ?_, ?_, ?_, ?_, ?_, others, free, req⟩
    · rw [at']; rfl
    · rw [at']; rfl
    · rw [at']; rfl
    · rw [at']; rfl
    · rw [at']; exact Detectors.serving_flags ..
    · rw [at']; exact Plant.recordedLine_up s.env up (modeBefore.trans (congrArg some mode.symm))
  · intro s j first body n rest report ready none confirms coordinated band host demand slot
    obtain ⟨t, made, event, entry, entries, ⟨r, at'⟩, others, free, req⟩ :=
      report.exec_band ready none confirms coordinated band slot first
    rw [Plant.bandConfirmed_frame] at at'
    let C := s.confirmedJunction j body n
    have guard : C.bandNoted.guard = s.plant.jn[j].guard := (congrArg Junction.guard C.bandNoted_frame :)
    have map : C.bandNoted.det.map = s.plant.jn[j].det.map :=
      (congrArg (fun J : Junction => J.det.map) C.bandNoted_frame :).trans (Detectors.serving_map ..)
    have idle (off : s.plant.jn[j].guard.probe.active = false) : C.bandNoted.guard.probe.active = false := by rw [guard]; exact off
    refine ⟨t, made, event, entry, entries, ?_⟩
    rw [at']
    refine ⟨rfl, rfl, rfl, rfl, fun early => C.bandNoted_early early, fun late => C.bandNoted_late late, rfl,
      fun active => ?_, fun off => ⟨fun disabled => ?_, fun enabled => ⟨fun w exit lower => ?_, fun nowhere => ?_⟩⟩, others, free, req⟩
    · exact (Junction.armProbe_active _ (by rw [guard]; exact active)).trans (congrArg (fun g => g.probe) guard)
    · exact Junction.armProbe_disabled _ (idle off) (by rw [guard]; exact disabled)
    · rw [← map] at exit lower
      exact (Junction.armProbe_enabled _ (idle off) (by rw [guard]; exact enabled)).trans
        (by rw [exitDetector_eq_some (dir := s.env.dir) exit lower])
    · rw [← map] at nowhere
      exact (Junction.armProbe_enabled _ (idle off) (by rw [guard]; exact enabled)).trans
        (by rw [exitDetector_eq_none (dir := s.env.dir) nowhere])
  · intro s j first body n rest report ready none confirms inStep side host call slot calm resuming
    obtain ⟨t, made, only, served, entries, ⟨r, at'⟩, others, free, req⟩ :=
      report.exec_side ready none confirms inStep side slot calm first
    refine ⟨t, made, only, served, entries, ?_, ?_, ?_, ?_, ?_, ?_, others, free, req⟩
    · rw [at']; rfl
    · rw [at']; rfl
    · rw [at']; rfl
    · rw [at']; rfl
    · rw [at']; exact Detectors.serving_gap_runs _ s.env call host
    · rw [at']; exact Detectors.serving_flags ..
  · intro s j first body n rest k r a report ready none confirms inStep side service slot record active fresh
    obtain ⟨t, made, only, entry, entries, ⟨x, at'⟩, req, others, free⟩ :=
      report.exec_request ready none confirms inStep side service slot record active fresh first
    refine ⟨t, made, only, entry, entries, ?_, ?_, ?_, ?_, req, ?_, ?_, ?_, others, free⟩
    · rw [at']; rfl
    · rw [at']; rfl
    · rw [at']; rfl
    · rw [at']; rfl
    · rw [at']; rfl
    · rw [at']; rfl
    · rw [at']; exact Detectors.serving_gap_same _ s.env fun both => Origin.noConfusion (service.symm.trans both.2)
  · intro s j first body n rest o report ready none inStep chain order gone tag green side host demand slot waiting waits calm cleared
    have h : s.GoneConfirmed j body o n rest :=
      ⟨report, ready, none, inStep, chain, order, gone, tag, green, demand, waiting, waits, calm⟩
    have flags : (s.plant.jn[j].det.confirmStage o.stage).flags = cleared s.plant.jn[j].det.flags := Detectors.confirmStage_flags ..
    by_cases same : s.plant.pool[n].stage = o.stage
    · obtain ⟨t, made, only, ⟨r, at'⟩, entry, entries, req, others, free⟩ := h.takesOver first side slot same
      refine ⟨t, made, only, ?_⟩
      rw [at']
      refine ⟨chain, (Detectors.serving_flags_of_confirmed _ s.env same).trans flags, req, inStep, others, free,
        fun _ => ⟨entry, entries, rfl, rfl, rfl, fun level => ?_⟩, fun apart => absurd same apart⟩
      show Plant.resumeAllowance (s.goneJunction j body o.stage) s.plant.pool[n] = _
      cases resuming : s.plant.jn[j].resuming with
      | none => exact Plant.resumeAllowance_none resuming
      | some x => exact Plant.resumeAllowance_resumed (J := s.goneJunction j body o.stage) resuming host side level
    · obtain ⟨t, made, only, ⟨r, at'⟩, pool, req, others, free⟩ := h.orders first same
      refine ⟨t, made, only, ?_⟩
      rw [at']
      exact ⟨chain, flags, req, inStep, others, free, fun there => absurd there same,
        fun _ => ⟨pool, rfl, rfl, Junction.ordered_lastTag _ n _⟩⟩
  · exact fun s j first body h rest r report ready none confirms inStep level resuming force side host slot =>
      ⟨fun b skipped behind behindH band reached => report.exec_resumed_forced ready none confirms inStep level resuming force side host
        slot first behindH band reached,
      fun early => report.exec_resumed_early ready none confirms inStep level resuming force side host slot first early⟩

end Sys2Proof.Machine
end

section
/-! SUPPORT. The edges of a report (R79 to R81, R141). -/

namespace Sys2Proof.Machine

open Sys2Proof

/-- R83: the call flags once a list of stages has been called. -/
theorem Detectors.setFlags_iff (D : Detectors) (ss : List Stage) (st : Stage) :
    (D.setFlags ss).flags[st] = true ↔ D.flags[st] = true ∨ st ∈ ss := by
  show (ss.foldl (fun f (s : Stage) => f.set s true) D.flags)[st] = true ↔ _
  generalize D.flags = v
  induction ss generalizing v with
  | nil => simp
  | cons s ss ih =>
    rw [List.foldl_cons, ih, List.mem_cons]
    by_cases same : st = s
    · subst same
      simp
    · have there : (s : Nat) ≠ st := fun hv => same (Fin.ext hv.symm)
      rw [Fin.getElem_fin, Vector.getElem_set_ne _ _ there]
      simp [same]

/-- R87: the STUCK marks once the detectors of a list have ceased to be STUCK. -/
def freed (stuck : Vector Bool 24) (ds : List DetIdx) : Vector Bool 24 := ds.foldl (fun v (d : DetIdx) => v.set d false) stuck

theorem freed_at (stuck : Vector Bool 24) (ds : List DetIdx) (d : DetIdx) : (freed stuck ds)[d] = (stuck[d] && !ds.contains d) := by
  induction ds generalizing stuck with
  | nil => simp [freed]
  | cons i ds ih =>
    show (freed (stuck.set i false) ds)[d] = _
    rw [ih, List.contains_cons]
    by_cases same : d = i
    · subst same
      simp
    · have there : (i : Nat) ≠ d := fun hv => same (Fin.ext hv.symm)
      rw [Fin.getElem_fin, Vector.getElem_set_ne _ _ there, beq_eq_false_iff_ne.mpr same, Bool.false_or]
      rfl

namespace Plant

theorem mem_risingEdges (D : Detectors) (rows : Vector Bool 24) (d : DetIdx) :
    d ∈ risingEdges D rows ↔ D.rows[d] = false ∧ rows[d] = true := by
  simp [risingEdges]

theorem mem_fallingEdges (D : Detectors) (rows : Vector Bool 24) (d : DetIdx) :
    d ∈ fallingEdges D rows ↔ D.rows[d] = true ∧ rows[d] = false := by
  simp [fallingEdges]

/-- R81: detectors cease to be STUCK, each with its notice. -/
theorem foldl_ceaseStuck (j : JIdx) (r : ClearReason) (ds : List DetIdx) (p : Plant) :
    ∃ q, ds.foldl (fun p d => p.ceaseStuck j r d) p = q ∧ DetOnly j p q ∧
      q.jn[j].det = { p.jn[j].det with stuck := freed p.jn[j].det.stuck ds } := by
  induction ds generalizing p with
  | nil => exact ⟨p, rfl, .refl p, rfl⟩
  | cons d ds ih =>
    obtain ⟨q, made, only, det⟩ := ih (p.ceaseStuck j r d)
    refine ⟨q, made, (p.ceaseStuck_detOnly j r d).trans only, ?_⟩
    rw [det, (p.ceaseStuck_det j r d).1]
    rfl

/-- R80, R85: what an extension edge makes of the gap timers. -/
theorem extendGap_spec (e : Env) (p : Plant) (j : JIdx) (rising : List DetIdx) : ∃ g,
    p.extendGap e j rising = p.updDet j (fun D => { D with gap := g }) ∧
      (∀ x, p.topEntry? j = some x → x.demand = .call → x.origin = .host → x.status = .serving →
        p.jn[j].det.gap[x.stage] ≠ .stopped → (rising.any fun d => p.jn[j].det.map[d].extends? == some x.stage) = true →
        g = p.jn[j].det.gap.set x.stage (.running (e.arrived + x.passage))) ∧
      ((∀ x, p.topEntry? j = some x → ¬(x.demand = .call ∧ x.origin = .host ∧ x.status = .serving)) → g = p.jn[j].det.gap) := by
  have same : p = p.updDet j (fun D => { D with gap := p.jn[j].det.gap }) := (updDet_id p j rfl).symm
  rw [extendGap]
  cases top : p.topEntry? j with
  | none => exact ⟨_, same, fun x found => (nomatch found), fun _ => rfl⟩
  | some x =>
    by_cases extends' : x.demand = .call ∧ x.origin = .host ∧ x.status = .serving ∧ p.jn[j].det.gap[x.stage] ≠ .stopped ∧
        (rising.any fun d => p.jn[j].det.map[d].extends? == some x.stage) = true
    · refine ⟨p.jn[j].det.gap.set x.stage (.running (e.arrived + x.passage)), (if_pos extends').trans (upd_congr p j rfl),
        fun y found _ _ _ _ _ => ?_, fun none => ?_⟩
      · rw [Option.some.inj found]
      · exact absurd ⟨extends'.1, extends'.2.1, extends'.2.2.1⟩ (none x rfl)
    · refine ⟨_, (if_neg extends').trans same, fun y found call host serving running edge => ?_, fun _ => rfl⟩
      obtain rfl := Option.some.inj found
      exact absurd ⟨call, host, serving, running, edge⟩ extends'

/-- The stuck timers once the edges of a report have been taken (R81, R86). -/
def edgeTimers (e : Env) (D : Detectors) (rows : Vector Bool 24) : Vector (Option Nat) 24 :=
  Vector.ofFn fun d : Fin 24 =>
    if (fallingEdges D rows).contains d then none
    else if (risingEdges D rows).contains d && D.map[d].timed then some e.arrived
    else D.timers[d]

theorem edgeTimers_at (e : Env) (D : Detectors) (rows : Vector Bool 24) (d : DetIdx) : (edgeTimers e D rows)[d] =
    if D.rows[d] = true ∧ rows[d] = false then none
    else if D.rows[d] = false ∧ rows[d] = true ∧ D.map[d] ≠ .none then some e.arrived else D.timers[d] := by
  have timed : D.map[d].timed = true ↔ D.map[d] ≠ .none := by simp [DetFn.timed]
  simp only [edgeTimers, Fin.getElem_fin, Vector.getElem_ofFn, List.contains_iff_mem, mem_fallingEdges, mem_risingEdges,
    Bool.and_eq_true] at timed ⊢
  simp only [timed, and_assoc]

/-- R79, R81: the rows become the previous rows, the stuck timers those of the edges seen from the detectors D. -/
def edgeRows (e : Env) (D : Detectors) (rows : Vector Bool 24) (K : Detectors) : Detectors :=
  { K with
    rows := rows
    timers := Vector.ofFn fun d : Fin 24 =>
      if (fallingEdges D rows).contains d then none
      else if (risingEdges D rows).contains d && K.map[d].timed then some e.arrived
      else K.timers[d] }

/-- What the edges of a report make of the detectors (R80, R81). -/
structure EdgesTaken (e : Env) (p q : Plant) (j : JIdx) (c : Option Stage) (rows : Vector Bool 24) : Prop where
  only : DetOnly j p q
  taken : q.jn[j].det.rows = rows
  valid : q.jn[j].det.rowsValid = p.jn[j].det.rowsValid
  timers : q.jn[j].det.timers = edgeTimers e p.jn[j].det rows
  stuck : q.jn[j].det.stuck = freed p.jn[j].det.stuck (fallingEdges p.jn[j].det rows)
  flags : q.jn[j].det.flags = if p.jn[j].state.coordinated
    then (p.jn[j].det.setFlags (calledStages p.jn[j] c (risingEdges p.jn[j].det rows))).flags else p.jn[j].det.flags
  extended : p.jn[j].state.coordinated = true → ∀ x, p.topEntry? j = some x → x.demand = .call → x.origin = .host →
    x.status = .serving → p.jn[j].det.gap[x.stage] ≠ .stopped →
    ((risingEdges p.jn[j].det rows).any fun d => p.jn[j].det.map[d].extends? == some x.stage) = true →
    q.jn[j].det.gap = p.jn[j].det.gap.set x.stage (.running (e.arrived + x.passage))
  gap : p.jn[j].state.coordinated = false ∨
    (∀ x, p.topEntry? j = some x → ¬(x.demand = .call ∧ x.origin = .host ∧ x.status = .serving)) → q.jn[j].det.gap = p.jn[j].det.gap

theorem rowEdges_taken (e : Env) (p : Plant) (j : JIdx) (c : Option Stage) (rows : Vector Bool 24) :
    p.EdgesTaken e (p.rowEdges e j c rows) j c rows := by
  let D := p.jn[j].det
  let called := p.updDet j fun D => D.setFlags (calledStages p.jn[j] c (risingEdges p.jn[j].det rows))
  have calledAt : called.jn[j].det = D.setFlags (calledStages p.jn[j] c (risingEdges D rows)) := updDet_at ..
  have top : called.topEntry? j = p.topEntry? j := by
    rw [topEntry?, topEntry?, top?, top?, show called.jn[j] = _ from upd_at ..]
    rfl
  obtain ⟨g, extended, runs, still⟩ := called.extendGap_spec e j (risingEdges D rows)
  rw [top, calledAt] at runs still
  obtain ⟨u, hu, only, det, runsU, stillU⟩ : ∃ u, (if p.jn[j].state.coordinated then called.extendGap e j (risingEdges D rows) else p) = u ∧
      DetOnly j p u ∧ u.jn[j].det = { D with flags := if p.jn[j].state.coordinated
        then (D.setFlags (calledStages p.jn[j] c (risingEdges D rows))).flags else D.flags, gap := u.jn[j].det.gap } ∧
      (p.jn[j].state.coordinated = true → u.jn[j].det.gap = g) ∧ (p.jn[j].state.coordinated = false → u.jn[j].det.gap = D.gap) := by
    by_cases coordinated : p.jn[j].state.coordinated = true
    · have at' : (called.updDet j fun D => { D with gap := g }).jn[j].det = { called.jn[j].det with gap := g } := updDet_at ..
      refine ⟨_, (if_pos coordinated).trans extended, (p.updDet_detOnly j _).trans (called.updDet_detOnly j _), ?_, fun _ => ?_,
        fun apart => nomatch coordinated.symm.trans apart⟩
      · rw [at', calledAt, if_pos coordinated]
        rfl
      · rw [at']
    · exact ⟨p, if_neg coordinated, .refl p, by rw [if_neg coordinated], fun here => absurd here coordinated, fun _ => rfl⟩
  obtain ⟨v, ceased, onlyV, detV⟩ := foldl_ceaseStuck j .unoccupied (fallingEdges D rows) u
  have stuckU : u.jn[j].det.stuck = D.stuck := by rw [det]
  have made : p.rowEdges e j c rows = v.updDet j (edgeRows e D rows) := by
    rw [rowEdges]
    exact congrArg (fun w : Plant => w.updDet j (edgeRows e D rows))
      ((congrArg (fun w : Plant => (fallingEdges D rows).foldl (fun p d => p.ceaseStuck j .unoccupied d) w) hu).trans ceased)
  have final : (p.rowEdges e j c rows).jn[j].det = { D with
      flags := if p.jn[j].state.coordinated then (D.setFlags (calledStages p.jn[j] c (risingEdges D rows))).flags else D.flags
      gap := u.jn[j].det.gap
      stuck := freed D.stuck (fallingEdges D rows)
      rows := rows
      timers := edgeTimers e D rows } := by
    rw [made, updDet_at, detV, stuckU, det]
    rfl
  exact {
    only := by rw [made]; exact (only.trans onlyV).trans (v.updDet_detOnly j _)
    taken := by rw [final]
    valid := by rw [final]
    timers := by rw [final]
    stuck := by rw [final]
    flags := by rw [final]
    extended := fun coordinated x topX call host serving running edge => by
      rw [final]
      exact (runsU coordinated).trans (runs x topX call host serving running edge)
    gap := fun quiet => by
      rw [final]
      by_cases coordinated : p.jn[j].state.coordinated = true
      · exact (runsU coordinated).trans (still (quiet.resolve_left (by rw [coordinated]; exact Bool.noConfusion)))
      · exact stillU (Bool.eq_false_iff.mpr coordinated) }

end Plant

end Sys2Proof.Machine
end

section
/-! SUPPORT. A report whose sequencer block does nothing: the detector unit alone (R79, R141, R171). -/

namespace Sys2Proof.Machine

open Sys2Proof

/-- R141: the exit edges touch nothing but the probe, its result and the tally. -/
theorem Junction.exitEdges_frame (J : Junction) (now : Nat) (rising falling : List DetIdx) (mayStart : Bool) :
    J.exitEdges now rising falling mayStart = { J with
      guard := (J.exitEdges now rising falling mayStart).guard, tally := (J.exitEdges now rising falling mayStart).tally } := by
  rw [exitEdges]
  cases J.guard.probe with
  | armed w => simp only []; split <;> rfl
  | measuring w start due => simp only []; split <;> rfl
  | off => rfl
  | done => rfl
  | spilled => rfl

/-- R141: the exit edges act by the guard alone. -/
theorem Junction.exitEdges_guard {J K : Junction} (same : K.guard = J.guard) (now : Nat) (rising falling : List DetIdx) (mayStart : Bool) :
    (K.exitEdges now rising falling mayStart).guard = (J.exitEdges now rising falling mayStart).guard := by
  rw [exitEdges, exitEdges, same]
  cases probe : J.guard.probe with
  | armed w => simp only []; split <;> simp only [same]
  | measuring w start due => simp only []; split <;> simp only [Junction.conclude, same]
  | off => simp only [same]
  | done => simp only [same]
  | spilled => simp only [same]

/-- R141: a probe that is ARMED may start. -/
theorem Junction.exitEdges_active (J : Junction) (now : Nat) (rising falling : List DetIdx) :
    J.exitEdges now rising falling J.guard.probe.active = J.exitEdges now rising falling true := by
  rw [exitEdges, exitEdges]
  cases J.guard.probe <;> rfl

namespace Plant

section Report

variable {p : Plant} {j : JIdx} {body : List Byte}

/-- What the detector unit makes of a report at a junction where no DWELL ends and no request is accepted. -/
structure Detected (e : Env) (p q : Plant) (j : JIdx) (c : Option Stage) (mayStart : Bool) (body : List Byte) (r : Plant) : Prop where
  edges : p.EdgesTaken e r j c (reportRows body)
  plant : q = if p.jn[j].state.coordinated then r.upd j fun J => J.exitEdges e.arrived (risingEdges p.jn[j].det (reportRows body))
    (fallingEdges p.jn[j].det (reportRows body)) mayStart else r

variable {e : Env} {q r : Plant} {c : Option Stage} {mayStart : Bool}

/-- R79: the detector unit takes a report while the rows are valid. -/
theorem detectorReport_detected (e : Env) (mayStart : Bool) (c : Option Stage) (valid : p.jn[j].det.rowsValid = true)
    (noDwell : p.jn[j].dwell = false) (still : ∀ q : Plant, q.req = p.req → q.jn[j].state = p.jn[j].state → q.attempts e j = q) :
    ∃ r, p.Detected e (p.detectorReport e j mayStart c body) j c mayStart body r := by
  have edges := p.rowEdges_taken e j c (reportRows body)
  let r := p.rowEdges e j c (reportRows body)
  let f : Junction → Junction := fun J => J.exitEdges e.arrived (risingEdges p.jn[j].det (reportRows body))
    (fallingEdges p.jn[j].det (reportRows body)) mayStart
  have state : r.jn[j].state = p.jn[j].state := edges.only.state
  have dwell : r.jn[j].dwell = false := by rw [edges.only.junction]; exact noDwell
  refine ⟨r, edges, ?_⟩
  have quiet (u : Plant) (req : u.req = p.req) (dwellU : u.jn[j].dwell = false) (stateU : u.jn[j].state = p.jn[j].state) :
      (u.dwellCheck e j).attempts e j = u := by
    rw [dwellCheck_of_not_dwell e dwellU]
    exact still u req stateU
  have exits : r.jn[j].exitEdges e.arrived (risingEdges p.jn[j].det (reportRows body)) (fallingEdges p.jn[j].det (reportRows body))
      mayStart = _ := Junction.exitEdges_frame ..
  have opened : p.detectorReport e j mayStart c body =
      ((if r.jn[j].state.coordinated then r.upd j f else r).dwellCheck e j).attempts e j := by
    rw [detectorReport]
    exact if_pos valid
  rw [opened, state]
  by_cases coordinated : p.jn[j].state.coordinated = true
  · rw [if_pos coordinated]
    have at' : (r.upd j f).jn[j] = _ := (upd_at r j f).trans exits
    exact quiet _ edges.only.req (by rw [at']; exact dwell) (by rw [at']; exact state)
  · rw [if_neg coordinated]
    exact quiet _ edges.only.req dwell state

/-- What the report leaves: all of the junction but its detectors, its guard and its tally, and all of the plant but the junction and the
notices. -/
theorem Detected.frame (h : p.Detected e q j c mayStart body r) :
    q.jn[j] = { p.jn[j] with det := r.jn[j].det, guard := q.jn[j].guard, tally := q.jn[j].tally } ∧ p.OthersSame q j ∧
      q.pool = p.pool ∧ q.req = p.req := by
  have plant := h.plant
  have only := h.edges.only
  by_cases coordinated : p.jn[j].state.coordinated = true
  · rw [if_pos coordinated] at plant
    subst plant
    refine ⟨?_, only.others.trans (othersSame_upd r j _), only.pool, only.req⟩
    rw [upd_at, Junction.exitEdges_frame, only.junction]
  · rw [if_neg coordinated] at plant
    subst plant
    refine ⟨?_, only.others, only.pool, only.req⟩
    conv => lhs; rw [only.junction]
    rw [only.junction]

/-- R141: the guard has taken the exit edges of a coordinated junction. -/
theorem Detected.guard (h : p.Detected e q j c mayStart body r) (coordinated : p.jn[j].state.coordinated = true) :
    q.jn[j].guard = (p.jn[j].exitEdges e.arrived (risingEdges p.jn[j].det (reportRows body))
      (fallingEdges p.jn[j].det (reportRows body)) mayStart).guard := by
  rw [h.plant, if_pos coordinated, upd_at]
  exact Junction.exitEdges_guard (by rw [h.edges.only.junction]) ..

/-- R141: elsewhere it has not. -/
theorem Detected.guard_apart (h : p.Detected e q j c mayStart body r) (apart : p.jn[j].state.coordinated = false) :
    q.jn[j].guard = p.jn[j].guard := by
  rw [h.plant, if_neg (by rw [apart]; exact Bool.false_ne_true), h.edges.only.junction]

/-- R171, R173: a report of an UP line without request records, whose sequencer block does nothing. -/
theorem takeReport_detected (e : Env) (first : TakeOrder) (up : p.jn[j].line.up = true) (present : p.jn[j].state.present = true)
    (records : reportRecords body = []) (before : (p.recordReport e j body).sequencerReport e j true p.jn[j].line.mode body =
      p.recordReport e j body)
    (after : ((p.recordReport e j body).detectorReport e j true none body).sequencerReport e j true p.jn[j].line.mode body =
      (p.recordReport e j body).detectorReport e j true none body) :
    ∃ mayStart c, (mayStart = true ∨ mayStart = p.jn[j].guard.probe.active) ∧
      (c = none ∨ c = (p.recordReport e j body).confirmedStage? j body) ∧
      p.takeReport e j first body = (p.recordReport e j body).detectorReport e j mayStart c body := by
  have here : (p.recordReport e j body).jn[j].state.present = true := by rw [recordReport_at]; exact present
  cases first with
  | detectorFirst =>
    refine ⟨true, none, .inl rfl, .inl rfl, ?_⟩
    simp only [takeReport, up, if_true]
    rw [if_pos here, after, records]
    rfl
  | sequencerFirst =>
    refine ⟨p.jn[j].guard.probe.active, _, .inr rfl, .inr rfl, ?_⟩
    simp only [takeReport, up, if_true]
    rw [if_pos here, before, records]
    rfl

theorem confirmedStage?_idle (idle : p.jn[j].order = none) : p.confirmedStage? j body = none := by rw [confirmedStage?, idle]

/-- R47, R69: the sequencer takes a report of a unit in the mode it had before, at a SOLO junction. -/
theorem sequencerReport_solo (e : Env) {s : SoloCause} (solo : p.jn[j].state = .solo s) :
    p.sequencerReport e j true (some (reportMode body)) body = p := by
  have same : p.modeChange e j (some (reportMode body)) (reportMode body) = p := if_pos rfl
  have settled := settle_of_not_local e p j (by rw [solo]; rfl)
  rw [sequencerReport, if_pos rfl, same, settled]
  exact if_neg (by rw [solo]; exact Bool.false_ne_true)

end Report

end Plant

end Sys2Proof.Machine
end

section
/-! PROOFS. O56: the gap timers, the stuck timers and the edges of a report. -/

namespace Sys2Proof.Machine

open Sys2Proof

namespace Plant

section Stuck

variable {p : Plant} {j : JIdx}

/-- R86, R87: a detector becomes STUCK. -/
theorem becomeStuck_eq (p : Plant) (j : JIdx) (d : DetIdx) : p.becomeStuck j d = (p.upd j fun J => { J with
    det := { J.det with
      stuck := J.det.stuck.set d true
      flags := match J.state.coordinated, J.det.map[d].stage? with
        | true, some st => J.det.flags.set st true
        | _, _ => J.det.flags } }).raise (.stuck j d p.jn[j].det.map[d]) := by
  have state : (p.updDet j fun D => { D with stuck := D.stuck.set d true }).jn[j].state = p.jn[j].state := by
    rw [updDet, upd_at]
  rw [becomeStuck, state]
  by_cases coordinated : p.jn[j].state.coordinated = true
  · rw [if_pos coordinated]
    refine congrArg (fun q : Plant => q.raise _) ((upd_upd p j _ _).trans (p.upd_congr j ?_))
    simp only [coordinated]
    cases p.jn[j].det.map[d].stage? <;> rfl
  · rw [if_neg coordinated]
    refine congrArg (fun q : Plant => q.raise _) (p.upd_congr j ?_)
    rw [Bool.eq_false_iff.mpr coordinated]

/-- R86: the occupancy of a detector has reached the stuck limit. -/
theorem stuckDue_of (e : Env) {d : DetIdx} {onset : Nat} (present : p.jn[j].state ≠ .absent) (free : p.jn[j].det.stuck[d] = false)
    (limit : p.jn[j].plan.stuck ≠ 0) (timer : p.jn[j].det.timers[d] = some onset) (due : onset + 10 * p.jn[j].plan.stuck ≤ e.now) :
    p.stuckDue e j d = true := by
  have here : p.jn[j].state.present = true := by
    cases state : p.jn[j].state with
    | absent => exact absurd state present
    | _ => rfl
  rw [stuckDue, here, free, timer]
  simp only [Bool.not_false, Bool.and_true, Bool.true_and, decide_eq_true limit]
  exact decide_eq_true due

/-- R85: the gap timer of a stage that the top does not end by, now, is EXPIRED. -/
theorem gapExpiry_expires (e : Env) {st : Stage} {d : Nat} (running : p.jn[j].det.gap[st] = .running d) (due : d ≤ e.now)
    (early : ∀ n rest, p.jn[j].chain = n :: rest → p.pool[n].stage = st → p.pool[n].elapsed.getD 0 < 10 * p.pool[n].minimum) :
    p.gapExpiry e j st = p.updDet j fun D => { D with gap := D.gap.set st .expired } := by
  let q := p.updDet j fun D => { D with gap := D.gap.set st .expired }
  rw [gapExpiry, running]
  refine (if_pos due).trans ?_
  show (match q.plainTop? j with
    | some x => if x.stage = st ∧ gapDone q.jn[j] x = true then q.sideEnd e j .gapped else q
    | none => q) = q
  cases plain : q.plainTop? j with
  | none => rfl
  | some x =>
    refine if_neg fun both => ?_
    have top : q.topEntry? j = some x := by
      rw [plainTop?] at plain
      split at plain
      · exact (Option.filter_eq_some_iff.mp plain).1
      · exact nomatch plain
    have chainQ : q.jn[j].chain = p.jn[j].chain := by rw [show q.jn[j] = _ from upd_at ..]
    cases chain : p.jn[j].chain with
    | nil => exact nomatch (topEntry?_nil (chainQ.trans chain)).symm.trans top
    | cons n rest =>
      have is : x = p.pool[n] := (Option.some.inj ((topEntry?_cons (chainQ.trans chain)).symm.trans top)).symm
      have done : x.minDone = true := by
        have gap := both.2
        simp only [gapDone, Bool.and_eq_true] at gap
        exact gap.1.2
      have past : 10 * x.minimum ≤ x.elapsed.getD 0 := by
        simp only [Entry.minDone, Bool.and_eq_true, decide_eq_true_eq] at done
        exact done.2
      rw [is] at past
      exact absurd past (Nat.not_le.mpr (early n rest chain (is ▸ both.1)))

end Stuck

section Extend

/-- R80: the function of a detector extends a stage. -/
theorem extends?_iff (f : DetFn) (st : Stage) : (f.extends? == some st) = true ↔ f = .extend st ∨ f = .callExtend st := by
  cases f <;> simp [DetFn.extends?]

theorem calls?_eq_some (f : DetFn) (st : Stage) : f.calls? = some st ↔ f = .call st ∨ f = .callExtend st := by
  cases f <;> simp [DetFn.calls?]

/-- R80: the stages that the rising edges of a report call, none of them confirmed from the same report. -/
theorem mem_calledStages (J : Junction) (rising : List DetIdx) (st : Stage) : st ∈ calledStages J none rising ↔
    J.green ≠ some st ∧ ∃ d ∈ rising, J.det.map[d] = .call st ∨ J.det.map[d] = .callExtend st := by
  have apart : ((none : Option Stage) != some st) = true := by simp
  simp only [calledStages, List.mem_filter, List.mem_filterMap, calls?_eq_some, apart, Bool.and_true, bne_iff_ne, ne_eq]
  exact and_comm

end Extend

end Plant

namespace State

/-- What a report makes of the detectors of a junction (R79 to R81). -/
theorem edges_facts {e : Env} {p q : Plant} {j : JIdx} {c : Option Stage} {rows : Vector Bool 24} {D : Detectors}
    (h : p.EdgesTaken e q j c rows) (det : p.jn[j].det = D) (valid : D.rowsValid = true) :
    q.jn[j].det.rows = rows ∧ q.jn[j].det.rowsValid = true ∧
      (∀ d : DetIdx, q.jn[j].det.timers[d] = if D.rows[d] = true ∧ rows[d] = false then none
        else if D.rows[d] = false ∧ rows[d] = true ∧ D.map[d] ≠ .none then some e.arrived else D.timers[d]) ∧
      ∀ d : DetIdx, q.jn[j].det.stuck[d] = (D.stuck[d] && !(D.rows[d] && !rows[d])) := by
  subst det
  refine ⟨h.taken, h.valid.trans valid, fun d => ?_, fun d => ?_⟩
  · rw [h.timers, Plant.edgeTimers_at]
  · have falls : (Plant.fallingEdges p.jn[j].det rows).contains d = (p.jn[j].det.rows[d] && !rows[d]) := by
      rw [Bool.eq_iff_iff, List.contains_iff_mem, Plant.mem_fallingEdges, Bool.and_eq_true, Bool.not_eq_true']
    rw [h.stuck, freed_at, falls]

section Report

variable {s : State} {j : JIdx} {body : List Byte} {first : TakeOrder}

/-- R79, R171: a report that the sequencer does nothing with, taken by the detector unit. -/
theorem FreshReport.exec_detected (report : s.FreshReport j body []) (ready : s.ReadyUnit j body)
    (present : s.plant.jn[j].state.present = true)
    (still : ∀ q : Plant, q.req = s.plant.req → q.jn[j].state = s.plant.jn[j].state → q.attempts s.env j = q)
    (idle : ∀ q : Plant, q.jn[j].state = s.plant.jn[j].state → q.jn[j].order = s.plant.jn[j].order →
      q.sequencerReport s.env j true (some (reportMode body)) body = q) :
    ∃ mayStart c q r, exec (.reportReceived j first (reportWire body)) s = .next (({ s with plant := q } : State).finish) ∧
      (mayStart = true ∨ mayStart = s.plant.jn[j].guard.probe.active) ∧
      (c = none ∨ c = (s.plant.recordReport s.env j body).confirmedStage? j body) ∧
      (s.plant.recordReport s.env j body).Detected s.env q j c mayStart body r := by
  let p := s.plant.recordReport s.env j body
  have at' : p.jn[j] = _ := Plant.recordReport_at s.env s.plant j body
  have mode : s.plant.jn[j].line.mode = some (reportMode body) := ready.before.trans (congrArg some ready.mode.symm)
  have detected (mayStart : Bool) (c : Option Stage) := Plant.detectorReport_detected (p := p) (body := body) s.env mayStart c
    (by rw [at']; exact report.valid) (by rw [at']; exact report.noDwell)
    fun q req state => still q req (state.trans (by rw [at']))
  obtain ⟨_, first'⟩ := detected true none
  obtain ⟨mayStart, c, starts, known, taken⟩ := Plant.takeReport_detected s.env first report.up present report.carries
    (by rw [mode]; exact idle p (by rw [at']) (by rw [at']))
    (by rw [mode]; exact idle _ (by rw [first'.frame.1, at']) (by rw [first'.frame.1, at']))
  obtain ⟨r, last⟩ := detected mayStart c
  exact ⟨mayStart, c, _, r, (exec_reportReceived s j first report.hunting report.good).trans
    (congrArg (fun p => Host.Outcome.next ({ s with plant := p } : State).finish) taken), starts, known, last⟩

end Report

end State

/-- Settles O56. -/
theorem gapAndStuckTimersExpire : Obligations.GapAndStuckTimersExpire := by
  refine ⟨⟨fun s j st d settled none running due early => ?_, fun s j d onset none present noDwell free limit timer due => ?_⟩,
    fun s j first body report ready none coordinated idle => ?_, fun s j first body c report ready solo => ?_⟩
  · have expires := Plant.gapExpiry_expires s.env running due early
    have event : exec (.gapExpiry j (st.val + 1)) s = .next (s.junctionEvent j fun e p => p.gapExpiry e j st) := by
      show execGapExpiry j (st.val + 1) s = _
      rw [execGapExpiry, stageOfNum?_succ]
    exact event.trans (congrArg Host.Outcome.next
      (settled.junctionEvent none (f := fun e p => p.gapExpiry e j st) expires rfl rfl))
  · have due' := Plant.stuckDue_of s.env present free limit timer due
    let q := s.plant.becomeStuck j d
    have only := s.plant.becomeStuck_detOnly j d
    have made : s.plant.stuckDetected s.env j d = q := by
      rw [Plant.stuckDetected, if_pos due', Plant.dwellCheck_of_not_dwell s.env (by rw [only.junction]; exact noDwell)]
      exact Plant.NoCandidate.attempts (none.of_req only.req) s.env
    exact congrArg (fun p => Host.Outcome.next ({ s with plant := p } : State).finish) (made.trans (s.plant.becomeStuck_eq j d))
  · let p := s.plant.recordReport s.env j body
    have at' : p.jn[j] = _ := Plant.recordReport_at s.env s.plant j body
    obtain ⟨mayStart, c, q, r, made, starts, known, detected⟩ := report.exec_detected (first := first) ready
      (Plant.present_of_coordinated coordinated) (fun q req _ => Plant.NoCandidate.attempts (none.of_req req) s.env)
      (fun q state order => (Plant.sequencerReport_ready s.env (by rw [state]; exact coordinated) ready.lamp).trans
        (Plant.compareOrder_of_idle s.env (order.trans idle)))
    obtain rfl : c = Option.none := known.elim id fun stage => stage.trans (Plant.confirmedStage?_idle (p := p) (by rw [at']; exact idle))
    obtain ⟨junction, others, pool, -⟩ := detected.frame
    have guard := detected.guard (by rw [at']; exact coordinated)
    have edges := detected.edges
    have det : q.jn[j].det = r.jn[j].det := by rw [junction]
    obtain ⟨rows, valid, timers, stuck⟩ := State.edges_facts (D := s.plant.jn[j].det) edges (by rw [at']) report.valid
    have flags := edges.flags
    have extended := edges.extended (by rw [at']; exact coordinated)
    have still := edges.gap
    have topP {n : EntryNo} {rest : List EntryNo} (chain : s.plant.jn[j].chain = n :: rest) : p.topEntry? j = some s.plant.pool[n] :=
      Plant.topEntry?_cons (p := p) (by rw [at']; exact chain)
    rw [at'] at junction guard flags extended still
    have plant := State.finish_plant ({ s with plant := q } : State)
    refine ⟨_, made, s.finish_onPlant_eventFrame fun _ _ => q, ?_⟩
    rw [plant]
    show q.jn[j].det.rows = _ ∧ q.jn[j].det.rowsValid = _ ∧ _
    rw [det]
    refine ⟨rows, valid, timers, stuck, fun st => ?_, fun n rest chain call host serving running edge => ?_, fun quiet => ?_, ?_, ?_, ?_,
      ?_, pool, (Plant.recordReport_others s.env s.plant j body).trans others⟩
    · rw [flags, if_pos coordinated, Detectors.setFlags_iff, Plant.mem_calledStages]
      simp only [Plant.mem_risingEdges]
    · refine extended _ (topP chain) call host serving running (List.any_eq_true.mpr ?_)
      obtain ⟨d, rises, extends'⟩ := edge
      exact ⟨d, (Plant.mem_risingEdges _ _ d).mpr rises, (Plant.extends?_iff _ _).mpr extends'⟩
    · refine still (.inr fun x top all => ?_)
      cases chain : s.plant.jn[j].chain with
      | nil => exact nomatch (Plant.topEntry?_nil (p := p) (by rw [at']; exact chain)).symm.trans top
      | cons n rest =>
        rw [Option.some.inj ((topP chain).symm.trans top) |>.symm] at all
        rcases quiet n rest chain with recalled | service | apart
        · exact absurd (recalled.symm.trans all.1) Demand.noConfusion
        · exact absurd (service.symm.trans all.2.1) Origin.noConfusion
        · exact apart all.2.2
    · let K : Junction := { s.plant.jn[j] with line := Plant.recordedLine s.env s.plant.jn[j].line body }
      refine guard.trans ?_
      rcases starts with rfl | rfl
      · exact Junction.exitEdges_guard (J := s.plant.jn[j]) (K := K) rfl ..
      · rw [← Junction.exitEdges_active]
        exact Junction.exitEdges_guard (J := s.plant.jn[j]) (K := K) rfl ..
    · rw [junction]
    · rw [junction]
    · rw [junction]; exact idle
  · let p := s.plant.recordReport s.env j body
    have at' : p.jn[j] = _ := Plant.recordReport_at s.env s.plant j body
    have apart : s.plant.jn[j].state.coordinated = false := by rw [solo]; rfl
    obtain ⟨mayStart, x, q, r, made, starts, known, detected⟩ := report.exec_detected (first := first) ready
      (by rw [solo]; rfl) (fun q _ state => Plant.attempts_of_not_inStep _ _ _ (by rw [state, solo]; exact JState.noConfusion))
      (fun q state _ => Plant.sequencerReport_solo s.env (state.trans solo))
    obtain ⟨junction, others, pool, -⟩ := detected.frame
    have guard := detected.guard_apart (by rw [at']; exact apart)
    have edges := detected.edges
    have det : q.jn[j].det = r.jn[j].det := by rw [junction]
    obtain ⟨rows, valid, timers, stuck⟩ := State.edges_facts (D := s.plant.jn[j].det) edges (by rw [at']) report.valid
    have flags := edges.flags
    have still := edges.gap
    rw [at'] at junction guard flags still
    have plant := State.finish_plant ({ s with plant := q } : State)
    refine ⟨_, made, s.finish_onPlant_eventFrame fun _ _ => q, ?_⟩
    rw [plant]
    show q.jn[j].det.rows = _ ∧ q.jn[j].det.rowsValid = _ ∧ _
    rw [det]
    refine ⟨rows, valid, timers, stuck, flags.trans (if_neg (by rw [apart]; exact Bool.false_ne_true)), still (.inl apart), guard, ?_, pool,
      (Plant.recordReport_others s.env s.plant j body).trans others⟩
    rw [junction]
    exact solo

end Sys2Proof.Machine
end

section
/-! SUPPORT. What the sequencer's own work at a junction leaves: its plan, its cycle, the mode of its unit, the other junctions, and the
absence of a PENDING request. -/

namespace Sys2Proof.Machine

open Sys2Proof

/-- The values of a junction that the sequencer's work does not write. -/
structure Junction.SameValues (J K : Junction) : Prop where
  cycle : J.SameCycle K
  mode : K.line.mode = J.line.mode

theorem Junction.SameValues.of_eq {J K : Junction} (plan : K.plan = J.plan) (staged : K.stagedPlan = J.stagedPlan) (position : K.p = J.p)
    (span : K.span = J.span) (mode : K.line.mode = J.line.mode) : J.SameValues K := ⟨⟨plan, staged, position, span⟩, mode⟩

theorem Junction.SameValues.refl (J : Junction) : J.SameValues J := .of_eq rfl rfl rfl rfl rfl

theorem Junction.SameValues.trans {J K L : Junction} (h : J.SameValues K) (g : K.SameValues L) : J.SameValues L :=
  ⟨h.cycle.trans g.cycle, g.mode.trans h.mode⟩

theorem Junction.SameValues.marked {J K : Junction} (h : J.SameValues K) (c : Completion) : J.SameValues (K.markCompletion c) := by
  refine h.trans ?_
  unfold markCompletion
  split
  · exact .of_eq rfl rfl rfl rfl rfl
  · split <;> exact .of_eq rfl rfl rfl rfl rfl

theorem Line.decide_mode (l : Line) (f : LineFrame) : (l.decide f).mode = l.mode := (congrArg Line.mode (l.decide_frame f) :)

namespace Plant

/-- Work at a junction. -/
structure Worked (j : JIdx) (p q : Plant) : Prop where
  values : p.jn[j].SameValues q.jn[j]
  others : p.OthersSame q j
  calm : p.NoCandidate j → q.NoCandidate j

variable {j : JIdx}

theorem Worked.refl (p : Plant) : Worked j p p := ⟨.refl _, fun _ _ => rfl, id⟩

theorem Worked.trans {p q r : Plant} (h : Worked j p q) (g : Worked j q r) : Worked j p r :=
  ⟨h.values.trans g.values, h.others.trans g.others, fun none => g.calm (h.calm none)⟩

/-- A change of the junction alone, within the values kept. -/
theorem Worked.upd (p : Plant) {f : Junction → Junction} (values : p.jn[j].SameValues (f p.jn[j])) : Worked j p (p.upd j f) :=
  ⟨by rw [upd_at]; exact values, othersSame_upd p j f, id⟩

theorem Worked.updEnt (p : Plant) (n : EntryNo) (f : Entry → Entry) : Worked j p (p.updEnt n f) := ⟨.refl _, fun _ _ => rfl, id⟩

theorem Worked.raise (p : Plant) (n : Notice) : Worked j p (p.raise n) := ⟨.refl _, fun _ _ => rfl, id⟩

theorem Worked.updDet (p : Plant) (f : Detectors → Detectors) : Worked j p (p.updDet j f) := .upd p (.of_eq rfl rfl rfl rfl rfl)

theorem DetOnly.worked {p q : Plant} (h : DetOnly j p q) : Worked j p q where
  values := ⟨h.sameCycle, (congrArg (fun J : Junction => J.line.mode) h.junction :)⟩
  others := h.others
  calm none := none.of_req h.req

theorem Restated.worked {p q : Plant} (h : p.Restated q j) : Worked j p q where
  values := ⟨h.frame.sameCycle, h.mode⟩
  others := h.others
  calm none := none.of_req h.req

/-! ## The chain -/

theorem stopGapOf_worked (p : Plant) (n : EntryNo) : Worked j p (p.stopGapOf j n) := by
  unfold stopGapOf
  split
  · exact .upd p (.of_eq rfl rfl rfl rfl rfl)
  · exact .refl p

theorem noteOutcome_worked (p : Plant) (n : EntryNo) (o : EntryOutcome) : Worked j p (p.noteOutcome j n o) := by
  unfold noteOutcome
  refine Worked.upd p ?_
  dsimp only
  split
  · refine Junction.SameValues.marked ?_ _
    exact .of_eq rfl rfl rfl rfl rfl
  · exact .of_eq rfl rfl rfl rfl rfl

theorem rotateTop_worked (p : Plant) (out : Option EntryOutcome) : Worked j p (p.rotateTop j out) := by
  unfold rotateTop
  split
  · exact .refl p
  · rename_i n rest _
    have turned (q : Plant) : Worked j q ((q.upd j fun J => { J with chain := rest ++ [n] }).updEnt n fun x => rotated x out) :=
      (Worked.upd q (.of_eq rfl rfl rfl rfl rfl)).trans (.updEnt _ n _)
    cases out with
    | none => exact (stopGapOf_worked p n).trans (turned _)
    | some o => exact ((stopGapOf_worked p n).trans (noteOutcome_worked _ n o)).trans (turned _)

theorem release_worked (p : Plant) (n : EntryNo) : Worked j p (p.release j n) := by
  unfold release
  split
  · have left := Worked.upd (j := j) p (f := fun J => { J with
      chain := J.chain.erase n
      order := J.order.map fun o => if o.entry = n then { o with live := false } else o }) (.of_eq rfl rfl rfl rfl rfl)
    exact ⟨left.values, left.others, left.calm⟩
  · exact .refl p

theorem retire_worked (p : Plant) (n : EntryNo) (out : Option EntryOutcome) : Worked j p (p.retire j n out) := by
  cases out with
  | none => exact (stopGapOf_worked p n).trans (release_worked _ n)
  | some o => exact ((stopGapOf_worked p n).trans (noteOutcome_worked _ n o)).trans (release_worked _ n)

theorem endTop_worked (p : Plant) (out : EntryOutcome) : Worked j p (p.endTop j out) := by
  unfold endTop
  split
  · exact .refl p
  · refine Worked.trans ?_ (.upd _ (.of_eq rfl rfl rfl rfl rfl))
    split
    · exact rotateTop_worked p _
    · exact retire_worked p _ _

/-! ## Orders and confirmations -/

theorem detectorConfirm_worked (e : Env) (p : Plant) (st : Stage) : Worked j p (p.detectorConfirm e j st) := by
  unfold detectorConfirm
  refine Worked.trans (.updDet p fun D => D.confirmStage st) ?_
  dsimp only
  split
  · split
    · exact .updDet _ _
    · exact .refl _
  · exact .refl _

/-- R109: the start of a service leaves an ACTIVE request ACTIVE. -/
theorem startService_worked (e : Env) (p : Plant) (x : Entry) : Worked j p (p.startService e x) := by
  unfold startService
  split
  · exact .refl p
  · split
    · exact .refl p
    · split
      · exact .refl p
      · split
        · exact .refl p
        · exact ⟨.refl _, fun _ _ => rfl, fun none => (none.but _).of_set_active rfl rfl⟩

theorem bandConfirm_worked (e : Env) (p : Plant) : Worked j p (p.bandConfirm e j) := by
  have frame := bandConfirmed_frame e p.jn[j]
  have values : p.jn[j].SameValues (bandConfirmed e p.jn[j]) := by rw [frame]; exact .of_eq rfl rfl rfl rfl rfl
  exact .upd p (f := bandConfirmed e) values

theorem serveTop_worked (e : Env) (p : Plant) : Worked j p (p.serveTop e j) := by
  unfold serveTop
  split
  · exact .refl p
  · rename_i n _
    have served := (((Worked.updEnt (j := j) p n fun x => { x with status := .serving, elapsed := some 0 }).trans
      (.upd _ (f := fun J => { J with allowance := resumeAllowance J p.pool[n], dwell := false }) (.of_eq rfl rfl rfl rfl rfl))).trans
      (detectorConfirm_worked e _ p.pool[n].stage)).trans (startService_worked e _ p.pool[n])
    simp only []
    split
    · exact served.trans (bandConfirm_worked e _)
    · exact served

theorem sendOrder_worked (p : Plant) (n : EntryNo) : Worked j p (p.sendOrder j n) :=
  .upd p (.of_eq rfl rfl rfl rfl (Line.decide_mode _ _))

theorem orderTop_worked (e : Env) (p : Plant) : Worked j p (p.orderTop e j) := by
  unfold orderTop
  split
  · exact .refl p
  · simp only []
    split
    · exact .refl p
    · split
      · exact serveTop_worked e p
      · exact sendOrder_worked p _

/-! ## The walk and the ends of the top -/

theorem passTop_worked (p : Plant) : Worked j p (p.passTop j) := by
  unfold passTop
  split
  · exact .refl p
  · split
    · exact rotateTop_worked p _
    · exact retire_worked p _ _

theorem walk_worked (e : Env) : ∀ (k : Nat) (p : Plant), Worked j p (walk e j k p)
  | 0, p => .refl p
  | k + 1, p => by
    unfold walk
    split
    · exact .refl p
    · split
      · exact orderTop_worked e p
      · exact (passTop_worked p).trans (walk_worked e k _)

theorem passToBand_worked : ∀ (k : Nat) (p : Plant), Worked j p (passToBand j k p)
  | 0, p => .refl p
  | k + 1, p => by
    unfold passToBand
    split
    · exact .refl p
    · split
      · exact .refl p
      · exact (passTop_worked p).trans (passToBand_worked k _)

theorem rotateToBand_worked : ∀ (k : Nat) (p : Plant), Worked j p (rotateToBand j k p)
  | 0, p => .refl p
  | k + 1, p => by
    unfold rotateToBand
    split
    · exact .refl p
    · split
      · exact .refl p
      · exact (rotateTop_worked p none).trans (rotateToBand_worked k _)

theorem voluntaryEnd_worked (e : Env) (p : Plant) (out : EntryOutcome) : Worked j p (p.voluntaryEnd e j out) :=
  (endTop_worked p out).trans (walk_worked e _ _)

theorem forceOff_worked (e : Env) (p : Plant) : Worked j p (p.forceOff e j) :=
  (((endTop_worked p .forced).trans (passToBand_worked _ _)).trans (orderTop_worked e _)).trans
    (.upd _ (f := fun J => { J with force := false }) (.of_eq rfl rfl rfl rfl rfl))

theorem bandEnd_worked (e : Env) (p : Plant) : Worked j p (p.bandEnd e j) := by
  unfold bandEnd
  split
  · exact voluntaryEnd_worked e p _
  · exact .upd p (.of_eq rfl rfl rfl rfl rfl)

theorem dwellCheck_worked (e : Env) (p : Plant) : Worked j p (p.dwellCheck e j) := by
  unfold dwellCheck
  simp only []
  split
  · exact voluntaryEnd_worked e p _
  · exact .refl p

/-! ## The band points -/

theorem takeBandEnd_worked (e : Env) (p : Plant) : Worked j p (p.takeBandEnd e j) := by
  unfold takeBandEnd
  split
  · split
    · exact bandEnd_worked e p
    · exact .refl p
  · exact .refl p

theorem bandEndPoint_worked (e : Env) (p : Plant) : Worked j p (p.bandEndPoint e j) := by
  unfold bandEndPoint
  split
  · exact (Worked.upd p (.of_eq rfl rfl rfl rfl rfl)).trans (takeBandEnd_worked e _)
  · exact .refl p

theorem joinTakeUp_worked (e : Env) (p : Plant) : Worked j p (p.joinTakeUp e j) := by
  unfold joinTakeUp
  split
  · exact (rotateToBand_worked _ p).trans (orderTop_worked e _)
  · exact .refl p

theorem reachCall_worked (e : Env) (p : Plant) : Worked j p (p.reachCall e j) := by
  unfold reachCall
  refine Worked.trans (.upd p (f := fun J => { J with callDone := true, callReached := true }) (.of_eq rfl rfl rfl rfl rfl)) ?_
  dsimp only
  split
  · exact joinTakeUp_worked e _
  · split
    · split
      · split
        · exact forceOff_worked e _
        · exact .upd _ (.of_eq rfl rfl rfl rfl rfl)
      · exact .refl _
    · exact .refl _
  all_goals exact .refl _

/-- R12, R64: the band call point. -/
theorem bandCallPoint_worked (e : Env) (p : Plant) : Worked j p (p.bandCallPoint e j) := by
  unfold bandCallPoint
  split
  · exact (bandEndPoint_worked e p).trans (reachCall_worked e _)
  · exact .refl p

end Plant

end Sys2Proof.Machine
end

section
/-! SUPPORT. The work of the sequencer and of the detector unit on a report, no PENDING request standing at the junction. -/

namespace Sys2Proof.Machine

open Sys2Proof

namespace Plant

variable {j : JIdx}

theorem Worked.attempts {p q : Plant} (h : Worked j p q) (none : p.NoCandidate j) (e : Env) : Worked j p (q.attempts e j) := by
  rw [NoCandidate.attempts (h.calm none) e]
  exact h

theorem leave_worked (p : Plant) : Worked j p (p.leave j) where
  values := by
    rw [leave_at]
    exact .of_eq rfl rfl rfl rfl rfl
  others := p.leave_othersSame j
  calm _ := fun k r found here => absurd here (p.leave_noRequest j k r found)

theorem stall_worked (p : Plant) (err : EntryError) : Worked j p (p.stall j err) := by
  unfold stall
  have left := leave_worked (j := j) p
  generalize p.leave j = l at left
  refine left.trans ?_
  dsimp only
  split
  · exact (Worked.updEnt l _ _).trans (enterSolo_restated _ j .stall).worked
  · exact (enterSolo_restated l j .stall).worked

/-! ## The order in flight (R52, R53) -/

theorem orderWaitingTop_worked (e : Env) (p : Plant) : Worked j p (p.orderWaitingTop e j) := by
  unfold orderWaitingTop
  split
  · split
    · exact orderTop_worked e p
    · exact .refl p
  · exact .refl p

theorem forceAtConfirm_worked (e : Env) (p : Plant) : Worked j p (p.forceAtConfirm e j) := by
  unfold forceAtConfirm
  split
  · split
    · split
      · exact forceOff_worked e p
      · exact .upd p (.of_eq rfl rfl rfl rfl rfl)
    · exact .refl p
  · exact .refl p

theorem confirmOrder_worked (e : Env) (p : Plant) (none : p.NoCandidate j) (o : OrderInFlight) : Worked j p (p.confirmOrder e j o) := by
  unfold confirmOrder
  refine Worked.attempts (Worked.trans (Worked.trans (Worked.attempts (Worked.trans
    (.upd p (f := fun J => { J with order := Option.none, green := some o.stage }) (.of_eq rfl rfl rfl rfl rfl)) ?_) none e)
    (orderWaitingTop_worked e _)) (forceAtConfirm_worked e _)) none e
  split
  · split
    · exact (setState_restated _ j .inStep).worked.trans (serveTop_worked e _)
    · exact serveTop_worked e _
  · exact detectorConfirm_worked e _ o.stage

theorem reorder_worked (e : Env) (p : Plant) : Worked j p (p.reorder e j) :=
  (Worked.upd p (f := fun J => { J with order := none }) (.of_eq rfl rfl rfl rfl rfl)).trans (orderTop_worked e _)

theorem orderError_worked (e : Env) (p : Plant) (o : OrderInFlight) (err : EntryError) : Worked j p (p.orderError e j o err) := by
  unfold orderError
  split
  · have noted := Worked.updEnt (j := j) p o.entry fun x => { x with error := err }
    dsimp only
    split
    · exact noted.trans (reorder_worked e _)
    · split
      · exact (noted.trans (.updEnt _ o.entry _)).trans (reorder_worked e _)
      · exact noted.trans (stall_worked _ err)
  · exact reorder_worked e p

theorem compareOrder_worked (e : Env) (p : Plant) (none : p.NoCandidate j) (body : List Byte) : Worked j p (p.compareOrder e j body) := by
  unfold compareOrder
  split
  · exact .refl p
  · split
    · split
      · exact confirmOrder_worked e p none _
      · exact (orderError_worked e p _ _).attempts none e
    · exact .refl p

/-! ## The two blocks -/

theorem modeChange_worked (e : Env) (p : Plant) (earlier : Option UnitMode) (m : UnitMode) : Worked j p (p.modeChange e j earlier m) := by
  unfold modeChange
  split
  · exact .refl p
  · have left := leave_worked (j := j) p
    generalize p.leave j = l at left
    split
    · exact left.trans (enterLocal_restated e l j).worked
    · exact left.trans (enterLocal_restated e l j).worked
    · exact (settle_restated e p j).worked
    · exact (enterLocal_restated e p j).worked
    · exact left.trans (enterSolo_restated l j .unit).worked
    · exact left.trans (enterSolo_restated l j .unit).worked
    · exact (settle_restated e p j).worked
    · exact (settle_restated e p j).worked
    · exact (enterLocal_restated e p j).worked
    · exact .refl p

/-- R171: the sequencer takes a report of an UP line. -/
theorem sequencerReport_worked (e : Env) (p : Plant) (none : p.NoCandidate j) (earlier : Option UnitMode) (body : List Byte) :
    Worked j p (p.sequencerReport e j true earlier body) := by
  have changed := (modeChange_worked (j := j) e p earlier (reportMode body)).trans (settle_restated e _ j).worked
  rw [sequencerReport, if_pos rfl]
  generalize (p.modeChange e j earlier (reportMode body)).settle e j = q at changed
  refine changed.trans ?_
  split
  · split
    · exact stall_worked q .lampFault
    · exact compareOrder_worked e q (changed.calm none) body
  · exact .refl q

/-- R79: a report without edges, at a junction where the check of DWELL and the acceptance attempts change nothing. -/
theorem detectorReport_edgeless (e : Env) {p : Plant} {body : List Byte} (valid : p.jn[j].det.rowsValid = true)
    (rows : p.jn[j].det.rows = reportRows body) (still : (p.dwellCheck e j).attempts e j = p) (mayStart : Bool) (c : Option Stage) :
    p.detectorReport e j mayStart c body = p := by
  have exits : p.upd j (fun J => J.exitEdges e.arrived [] [] mayStart) = p := upd_id p j _ (Junction.exitEdges_nil ..)
  have edges := p.rowEdges_same e j c
  simp only [Plant.detectorReport, ← rows, risingEdges_same, fallingEdges_same, show p.jn[j.val].det.rowsValid = true from valid,
    if_true, Fin.getElem_fin] at edges ⊢
  simp only [edges, exits, ite_self]
  exact still

/-- R79: a junction that is not IN_STEP has no such work. -/
theorem detectorReport_not_inStep (e : Env) {p : Plant} {body : List Byte} (valid : p.jn[j].det.rowsValid = true)
    (rows : p.jn[j].det.rows = reportRows body) (apart : p.jn[j].state ≠ .inStep) (mayStart : Bool) (c : Option Stage) :
    p.detectorReport e j mayStart c body = p := by
  refine detectorReport_edgeless e valid rows ?_ mayStart c
  rw [show p.dwellCheck e j = p from if_neg fun h => apart h.1]
  exact attempts_of_not_inStep e p j apart

/-- R79: the detector unit takes a report. -/
theorem detectorReport_worked (e : Env) (p : Plant) (none : p.NoCandidate j) (mayStart : Bool) (c : Option Stage) (body : List Byte) :
    Worked j p (p.detectorReport e j mayStart c body) := by
  unfold detectorReport
  dsimp only
  split
  · have edges := (p.rowEdges_taken e j c (reportRows body)).only.worked
    generalize p.rowEdges e j c (reportRows body) = q at edges
    refine ((edges.trans ?_).trans (dwellCheck_worked e _)).attempts none e
    split
    · refine .upd q ?_
      rw [Junction.exitEdges_frame]
      exact .of_eq rfl rfl rfl rfl rfl
    · exact .refl q
  · unfold firstRows
    refine Worked.trans ?_ (.updDet _ _)
    refine foldl_keeps Worked.refl Worked.trans _ (fun q d _ => ?_) p
    split
    · exact .refl q
    · exact (q.ceaseStuck_detOnly j .unoccupied d).worked

end Plant

end Sys2Proof.Machine
end

section
/-! SUPPORT. How the state of a junction out of coordination is settled when a report is taken (R47, R69, R70), and what a report leaves
of a junction where neither block has more to do. -/

namespace Sys2Proof.Machine

open Sys2Proof

namespace Plant

variable {p q : Plant} {j : JIdx} {body : List Byte}

/-- R171, R173: a report of an UP line without request records, where the detector unit does nothing before and behind the sequencer. -/
theorem takeReport_silent (e : Env) (first : TakeOrder) (up : p.jn[j].line.up = true) (present : p.jn[j].state.present = true)
    (records : reportRecords body = [])
    (before : ∀ m c, (p.recordReport e j body).detectorReport e j m c body = p.recordReport e j body)
    (taken : (p.recordReport e j body).sequencerReport e j true p.jn[j].line.mode body = q)
    (after : ∀ m c, q.detectorReport e j m c body = q) : p.takeReport e j first body = q := by
  have here : (p.recordReport e j body).jn[j].state.present = true := by rw [recordReport_at]; exact present
  cases first with
  | detectorFirst =>
    simp only [takeReport, up, if_true]
    rw [if_pos here, before, taken, records]
    rfl
  | sequencerFirst =>
    simp only [takeReport, up, if_true]
    rw [if_pos here, taken, after, records]
    rfl

/-- R171: what such a report leaves, whatever the two blocks do. -/
theorem takeReport_worked (e : Env) (first : TakeOrder) (up : p.jn[j].line.up = true) (none : p.NoCandidate j)
    (records : reportRecords body = []) : Worked j (p.recordReport e j body) (p.takeReport e j first body) := by
  let r := p.recordReport e j body
  have calm : r.NoCandidate j := none
  simp only [takeReport, up, if_true, records, List.foldl_nil]
  split
  · cases first with
    | detectorFirst =>
      have detected := detectorReport_worked e r calm true Option.none body
      exact detected.trans (sequencerReport_worked e _ (detected.calm calm) _ body)
    | sequencerFirst =>
      have taken := sequencerReport_worked (j := j) e r calm p.jn[j].line.mode body
      exact taken.trans (detectorReport_worked e _ (taken.calm calm) _ _ body)
  · exact .refl _

/-! ## Notices raised -/

/-- Notices have been added to those raised before. -/
def Raises (p q : Plant) : Prop := p.raised ⊆ q.raised

theorem Raises.refl (p : Plant) : p.Raises p := List.Subset.refl _
theorem Raises.trans {p q r : Plant} (h : p.Raises q) (g : q.Raises r) : p.Raises r := List.Subset.trans h g
theorem raise_raises (p : Plant) (n : Notice) : p.Raises (p.raise n) := List.subset_append_left _ _

theorem setState_raises (p : Plant) (j : JIdx) (st : JState) : p.Raises (p.setState j st) := by
  unfold setState
  split
  · exact .refl p
  · exact raise_raises (p.upd j fun J => { J with state := st }) _

theorem ceaseStuck_raises (p : Plant) (j : JIdx) (r : ClearReason) (d : DetIdx) : p.Raises (p.ceaseStuck j r d) := by
  unfold ceaseStuck
  split
  · exact raise_raises (p.updDet j fun D => { D with stuck := D.stuck.set d false }) _
  · exact .refl p

/-- A change of an entry into JOINING is one of the junction and of its state. -/
theorem enterJoining_raises (p : Plant) (j : JIdx) : p.Raises (p.enterJoining j) :=
  setState_raises (p.upd j fun J => joinMarks J (p.bandEndPos j)) j .joining

theorem enterSolo_raises (p : Plant) (j : JIdx) (c : SoloCause) : p.Raises (p.enterSolo j c) := setState_raises (p.sendRelease j) j (.solo c)

theorem rowEdges_raises (e : Env) (p : Plant) (j : JIdx) (c : Option Stage) (rows : Vector Bool 24) : p.Raises (p.rowEdges e j c rows) := by
  unfold rowEdges
  have called : p.Raises (if p.jn[j].state.coordinated then
      (p.updDet j fun D => D.setFlags (calledStages p.jn[j] c (risingEdges p.jn[j].det rows))).extendGap e j
        (risingEdges p.jn[j].det rows) else p) := by
    split
    · unfold extendGap
      split
      · split <;> exact Raises.refl p
      · exact Raises.refl p
    · exact .refl p
  exact called.trans (foldl_keeps Raises.refl Raises.trans _ (fun q d _ => q.ceaseStuck_raises j .unoccupied d) _)

/-! ## Settling -/

/-- A junction in coordination has just entered JOINING. -/
def Fresh (p : Plant) (j : JIdx) : Prop := p.jn[j].state.coordinated = true → p.jn[j].state = .joining ∧ p.jn[j].order = none

/-- A junction out of coordination has been settled: within the frame of its state, notices added. -/
structure Resettled (p q : Plant) (j : JIdx) : Prop where
  restated : p.Restated q j
  raises : p.Raises q
  fresh : q.Fresh j

theorem Fresh.of_apart (apart : p.jn[j].state.coordinated = false) : p.Fresh j := fun h => nomatch apart.symm.trans h

theorem Resettled.refl (fresh : p.Fresh j) : p.Resettled p j := ⟨.refl p j, .refl p, fresh⟩

theorem Resettled.trans {r : Plant} (h : p.Resettled q j) (g : q.Resettled r j) : p.Resettled r j :=
  ⟨h.restated.trans g.restated, h.raises.trans g.raises, g.fresh⟩

theorem setState_resettled (p : Plant) (j : JIdx) {st : JState} (apart : st.coordinated = false) : p.Resettled (p.setState j st) j :=
  ⟨setState_restated p j st, setState_raises p j st, .of_apart (by rw [setState_state]; exact apart)⟩

theorem enterSolo_resettled (p : Plant) (j : JIdx) (c : SoloCause) : p.Resettled (p.enterSolo j c) j :=
  ⟨enterSolo_restated p j c, enterSolo_raises p j c, .of_apart (by rw [enterSolo_at]; rfl)⟩

theorem enterJoining_order (p : Plant) (j : JIdx) : (p.enterJoining j).jn[j].order = none := by
  rw [enterJoining, updDet, upd_at, setState_at, upd_at]
  rfl

theorem settle_resettled (e : Env) (fresh : p.Fresh j) : p.Resettled (p.settle e j) j := by
  unfold settle
  split
  · split
    · exact setState_resettled p j rfl
    · split
      · exact enterSolo_resettled p j .unit
      · split
        · exact setState_resettled p j rfl
        · split
          · exact ⟨enterJoining_restated p j, enterJoining_raises p j, fun _ => ⟨p.enterJoining_state j, p.enterJoining_order j⟩⟩
          · exact setState_resettled p j rfl
  all_goals exact .refl fresh

theorem enterLocal_resettled (e : Env) (p : Plant) (j : JIdx) : p.Resettled (p.enterLocal e j) j := by
  have apart : (p.localEntered e j).Fresh j := .of_apart (by rw [localEntered_state]; rfl)
  have entered : p.Resettled (p.localEntered e j) j :=
    ⟨localEntered_restated e p j, setState_raises (p.sendRelease j) j _, apart⟩
  rw [enterLocal_eq]
  exact entered.trans (settle_resettled e apart)

theorem lineUp_resettled (e : Env) (fresh : p.Fresh j) : p.Resettled (p.lineUp e j) j := by
  unfold lineUp
  split
  · exact enterLocal_resettled e p j
  · exact settle_resettled e fresh

/-- R69: of a junction in coordination only a unit that stays ready keeps the frame. -/
theorem modeChange_resettled (e : Env) (fresh : p.Fresh j) (earlier : Option UnitMode) {m : UnitMode}
    (ready : p.jn[j].state.coordinated = true → m = .coordReady) : p.Resettled (p.modeChange e j earlier m) j := by
  unfold modeChange
  split
  · exact .refl fresh
  · split
    · rename_i joining _; exact nomatch ready (by rw [joining]; rfl)
    · rename_i inStep _; exact nomatch ready (by rw [inStep]; rfl)
    · exact settle_resettled e fresh
    · exact enterLocal_resettled e p j
    · rename_i joining _; exact nomatch ready (by rw [joining]; rfl)
    · rename_i inStep _; exact nomatch ready (by rw [inStep]; rfl)
    · exact settle_resettled e fresh
    · exact settle_resettled e fresh
    · exact enterLocal_resettled e p j
    · exact .refl fresh

/-- R47: a junction in the state to which it is settled is ready if it is in coordination. -/
theorem ready_of_settledState (e : Env) (settled : p.jn[j].state = p.settledState e j) {m : UnitMode} (mode : p.jn[j].line.mode = some m)
    (coordinated : p.jn[j].state.coordinated = true) : m = .coordReady ∧ p.jn[j].state = .joining := by
  rw [settled, settledState, mode] at coordinated
  rw [settled, settledState, mode]
  cases m with
  | localManual => exact nomatch coordinated
  | fault => exact nomatch coordinated
  | coordReady =>
    refine ⟨rfl, ?_⟩
    revert coordinated
    simp only [Option.some.injEq, reduceCtorEq, if_false]
    split_ifs
    · exact fun h => nomatch h
    · exact fun _ => rfl
    · exact fun h => nomatch h

/-- R47: it stays in it when it is settled again. -/
theorem settle_settled (e : Env) (settled : p.jn[j].state = p.settledState e j) : (p.settle e j).jn[j].state = p.settledState e j := by
  cases here : p.jn[j].state with
  | loc c => exact settle_state e p j here
  | _ => rw [settle_of_not_local e p j (by rw [here]; rfl)]; exact settled

/-- R69: and when its unit's mode acts on it. -/
theorem modeChange_settled (e : Env) (settled : p.jn[j].state = p.settledState e j) (earlier : Option UnitMode) {m : UnitMode}
    (mode : p.jn[j].line.mode = some m) : (p.modeChange e j earlier m).jn[j].state = p.settledState e j := by
  have joins (st : JState) (here : p.jn[j].state = st) (coordinated : st.coordinated = true) : m = .coordReady ∧ st = .joining := by
    subst here
    exact ready_of_settledState e settled mode coordinated
  unfold modeChange
  split
  · exact settled
  · split
    · rename_i here _; exact nomatch (joins _ here rfl).1
    · rename_i here _; exact nomatch (joins _ here rfl).1
    · exact settle_settled e settled
    · exact enterLocal_state e p j
    · rename_i here _; exact nomatch (joins _ here rfl).1
    · rename_i here _; exact nomatch (joins _ here rfl).1
    · exact settle_settled e settled
    · exact settle_settled e settled
    · exact enterLocal_state e p j
    · exact settled

/-- R56, R52: a report that shows no lamp fault, at a junction without an order in flight. -/
theorem sequencerReport_fresh (e : Env) (wasUp : Bool) (earlier : Option UnitMode) (lamp : reportLamp body = false) {q : Plant}
    (made : ((if wasUp then p else p.lineUp e j).modeChange e j earlier (reportMode body)).settle e j = q) (fresh : q.Fresh j) :
    p.sequencerReport e j wasUp earlier body = q := by
  rw [sequencerReport, made]
  split
  · rename_i coordinated
    rw [if_neg (by rw [lamp]; exact Bool.false_ne_true)]
    exact compareOrder_of_idle e (fresh coordinated).2
  · rfl

end Plant

end Sys2Proof.Machine
end

section
/-! SUPPORT. A report that takes a DOWN line UP (R70, R79, R171). -/

namespace Sys2Proof.Machine

open Sys2Proof

namespace Plant

variable {p q : Plant} {j : JIdx} {body : List Byte}

/-- What a report leaves of a junction out of coordination: what its settling depends on, the records, and the other junctions. -/
structure LineKept (p q : Plant) (j : JIdx) : Prop where
  chain : q.jn[j].chain = p.jn[j].chain
  plan : q.jn[j].plan = p.jn[j].plan
  line : q.jn[j].line = { p.jn[j].line with leaving := q.jn[j].line.leaving, waiting := q.jn[j].line.waiting }
  pool : q.pool = p.pool
  req : q.req = p.req
  others : p.OthersSame q j
  raises : p.Raises q

theorem LineKept.trans {r : Plant} (h : p.LineKept q j) (g : q.LineKept r j) : p.LineKept r j where
  chain := g.chain.trans h.chain
  plan := g.plan.trans h.plan
  line := by rw [g.line, h.line]
  pool := g.pool.trans h.pool
  req := g.req.trans h.req
  others := h.others.trans g.others
  raises := h.raises.trans g.raises

theorem LineKept.settledState (h : p.LineKept q j) (e : Env) : q.settledState e j = p.settledState e j := by
  have entries : q.chainEntries j = p.chainEntries j := by
    rw [chainEntries, chainEntries, h.chain, h.pool]
  have mode : q.jn[j].line.mode = p.jn[j].line.mode := by rw [h.line]
  have up : q.jn[j].line.up = p.jn[j].line.up := by rw [h.line]
  rw [Plant.settledState, Plant.settledState, mode, eligible, eligible, planFeasible, planFeasible, entries, h.plan, mode, up]

theorem Resettled.lineKept (h : p.Resettled q j) : p.LineKept q j where
  chain := h.restated.chain
  plan := h.restated.plan
  line := (congrArg Junction.line h.restated.frame :)
  pool := h.restated.pool
  req := h.restated.req
  others := h.restated.others
  raises := h.raises

/-- What the detector unit makes of a report at a junction that is not IN_STEP. -/
structure RowsTaken (p q : Plant) (j : JIdx) (body : List Byte) : Prop where
  junction : q.jn[j] = { p.jn[j] with det := q.jn[j].det, guard := q.jn[j].guard, tally := q.jn[j].tally }
  rows : q.jn[j].det.rows = reportRows body
  valid : q.jn[j].det.rowsValid = true
  pool : q.pool = p.pool
  req : q.req = p.req
  others : p.OthersSame q j
  raises : p.Raises q

theorem RowsTaken.lineKept (h : p.RowsTaken q j body) : p.LineKept q j where
  chain := (congrArg Junction.chain h.junction :)
  plan := (congrArg Junction.plan h.junction :)
  line := by rw [h.junction]
  pool := h.pool
  req := h.req
  others := h.others
  raises := h.raises

theorem RowsTaken.state (h : p.RowsTaken q j body) : q.jn[j].state = p.jn[j].state := (congrArg Junction.state h.junction :)

theorem DetOnly.rowsTaken (h : DetOnly j p q) (raises : p.Raises q) (rows : q.jn[j].det.rows = reportRows body)
    (valid : q.jn[j].det.rowsValid = true) : p.RowsTaken q j body where
  junction := h.junction.trans (by rw [h.junction])
  rows := rows
  valid := valid
  pool := h.pool
  req := h.req
  others := h.others
  raises := raises

/-- R79: rows received while none are valid are set without edges. -/
theorem firstRows_taken (e : Env) (p : Plant) (j : JIdx) (body : List Byte) : p.RowsTaken (p.firstRows e j (reportRows body)) j body := by
  have ceased : DetOnly j p ((List.finRange 24).foldl (fun p d => if (reportRows body)[d] then p else p.ceaseStuck j .unoccupied d) p) :=
    foldl_keeps DetOnly.refl DetOnly.trans _ (fun q d _ => by
      split
      · exact .refl q
      · exact q.ceaseStuck_detOnly j .unoccupied d) p
  have raises : p.Raises ((List.finRange 24).foldl (fun p d => if (reportRows body)[d] then p else p.ceaseStuck j .unoccupied d) p) :=
    foldl_keeps Raises.refl Raises.trans _ (fun q d _ => by
      split
      · exact .refl q
      · exact q.ceaseStuck_raises j .unoccupied d) p
  unfold firstRows
  dsimp only
  generalize (List.finRange 24).foldl (fun p d => if (reportRows body)[d] then p else p.ceaseStuck j .unoccupied d) p = q at ceased raises
  exact (ceased.trans (updDet_detOnly q j _)).rowsTaken raises (by rw [updDet_at]) (by rw [updDet_at])

theorem detectorReport_rowsTaken (e : Env) (apart : p.jn[j].state ≠ .inStep) (mayStart : Bool) (c : Option Stage) :
    p.RowsTaken (p.detectorReport e j mayStart c body) j body := by
  by_cases valid : p.jn[j].det.rowsValid = true
  · have edges := p.rowEdges_taken e j c (reportRows body)
    have raises := p.rowEdges_raises e j c (reportRows body)
    let r := p.rowEdges e j c (reportRows body)
    let f : Junction → Junction := fun J => J.exitEdges e.arrived (risingEdges p.jn[j].det (reportRows body))
      (fallingEdges p.jn[j].det (reportRows body)) mayStart
    have quiet (u : Plant) (state : u.jn[j].state ≠ .inStep) : (u.dwellCheck e j).attempts e j = u := by
      rw [show u.dwellCheck e j = u from if_neg fun h => state h.1]
      exact attempts_of_not_inStep e u j state
    have exits : f r.jn[j] = { r.jn[j] with guard := (f r.jn[j]).guard, tally := (f r.jn[j]).tally } := Junction.exitEdges_frame ..
    have opened : p.detectorReport e j mayStart c body =
        ((if r.jn[j].state.coordinated then r.upd j f else r).dwellCheck e j).attempts e j := by
      rw [detectorReport]
      exact if_pos valid
    have taken : p.RowsTaken r j body := edges.only.rowsTaken raises edges.taken (edges.valid.trans valid)
    rw [opened]
    split
    · have at' : (r.upd j f).jn[j] = _ := (upd_at r j f).trans exits
      rw [quiet _ (by rw [at']; exact fun h => apart (taken.state.symm.trans h))]
      exact {
        junction := by rw [at', taken.junction]
        rows := by rw [at']; exact taken.rows
        valid := by rw [at']; exact taken.valid
        pool := taken.pool
        req := taken.req
        others := taken.others.trans (othersSame_upd r j f)
        raises := taken.raises }
    · rw [quiet r fun h => apart (taken.state.symm.trans h)]
      exact taken
  · have opened : p.detectorReport e j mayStart c body = p.firstRows e j (reportRows body) := by
      rw [detectorReport]
      exact if_neg valid
    rw [opened]
    exact p.firstRows_taken e j body

/-- R69, R70, R171: the sequencer takes a report that takes the line of a junction in SOLO LINK or LOCAL UP. -/
theorem sequencerReport_up (e : Env) (here : p.jn[j].state = .solo .link ∨ ∃ c, p.jn[j].state = .loc c) (earlier : Option UnitMode)
    (mode : p.jn[j].line.mode = some (reportMode body)) (lamp : reportLamp body = false) :
    p.Resettled (p.sequencerReport e j false earlier body) j ∧
      (p.sequencerReport e j false earlier body).jn[j].state = p.settledState e j := by
  have fresh : p.Fresh j := .of_apart (by rcases here with solo | ⟨c, loc⟩ <;> simp only [*] <;> rfl)
  have up := lineUp_resettled e fresh
  have upState : (p.lineUp e j).jn[j].state = (p.lineUp e j).settledState e j := by
    rw [up.lineKept.settledState e]
    rcases here with solo | ⟨c, loc⟩
    · rw [lineUp, solo]
      exact enterLocal_state e p j
    · rw [lineUp, loc]
      exact settle_state e p j loc
  have upMode : (p.lineUp e j).jn[j].line.mode = some (reportMode body) := up.restated.mode.trans mode
  have changed := modeChange_resettled e up.fresh earlier (m := reportMode body)
    fun coordinated => (ready_of_settledState e upState upMode coordinated).1
  have changedState := modeChange_settled e upState earlier upMode
  have settled := settle_resettled e changed.fresh
  have settledAt := settle_settled e (changedState.trans (changed.lineKept.settledState e).symm)
  rw [changed.lineKept.settledState e, up.lineKept.settledState e] at settledAt
  have all := (up.trans changed).trans settled
  rw [sequencerReport_fresh e false earlier lamp rfl all.fresh]
  exact ⟨all, settledAt⟩

/-- A report that takes a DOWN line UP, its request records none. -/
theorem takeReport_up (e : Env) (first : TakeOrder) (here : p.jn[j].state = .solo .link ∨ ∃ c, p.jn[j].state = .loc c)
    (down : p.jn[j].line.up = false) (records : reportRecords body = []) (lamp : reportLamp body = false) :
    ∃ q, p.takeReport e j first body = q ∧ (p.recordReport e j body).LineKept q j ∧
      q.jn[j].state = (p.recordReport e j body).settledState e j ∧ q.jn[j].det.rows = reportRows body ∧
      q.jn[j].det.rowsValid = true ∧ .linkUp j (reportMode body) ∈ q.raised := by
  let r := p.recordReport e j body
  let u := r.raise (.linkUp j (reportMode body))
  have at' : u.jn[j] = _ := recordReport_at e p j body
  have hereU : u.jn[j].state = .solo .link ∨ ∃ c, u.jn[j].state = .loc c := by rw [at']; exact here
  have modeU : u.jn[j].line.mode = some (reportMode body) := by rw [at']; rfl
  have present : r.jn[j].state.present = true := by
    rcases hereU with solo | ⟨c, loc⟩
    · rw [show r.jn[j].state = _ from solo]; rfl
    · rw [show r.jn[j].state = _ from loc]; rfl
  have apart : u.jn[j].state ≠ .inStep := by
    rcases hereU with solo | ⟨c, loc⟩
    · rw [solo]; exact JState.noConfusion
    · rw [loc]; exact JState.noConfusion
  have raised : Notice.linkUp j (reportMode body) ∈ u.raised := List.mem_append_right _ List.mem_cons_self
  have kept : r.LineKept u j := ⟨rfl, rfl, rfl, rfl, rfl, fun _ _ => rfl, raise_raises r _⟩
  cases first with
  | detectorFirst =>
    obtain ⟨v, made, rows⟩ : ∃ v, ((p.recordReport e j body).raise (.linkUp j (reportMode body))).detectorReport e j true none body = v ∧
        u.RowsTaken v j body := ⟨_, rfl, detectorReport_rowsTaken e apart true none⟩
    obtain ⟨settled, state⟩ := sequencerReport_up e (by rw [rows.state]; exact hereU) p.jn[j].line.mode
      ((congrArg Line.mode rows.lineKept.line :).trans modeU) lamp
    have taken : p.takeReport e j .detectorFirst body = v.sequencerReport e j false p.jn[j].line.mode body := by
      simp only [takeReport, down, Bool.false_eq_true, if_false]
      rw [if_pos present, records, made, List.foldl_nil]
    rw [taken]
    generalize v.sequencerReport e j false p.jn[j].line.mode body = q at settled state
    exact ⟨q, rfl, kept.trans (rows.lineKept.trans settled.lineKept),
      state.trans ((rows.lineKept.settledState e).trans (kept.settledState e)),
      (congrArg (fun J : Junction => J.det.rows) settled.restated.frame :).trans rows.rows,
      (congrArg (fun J : Junction => J.det.rowsValid) settled.restated.frame :).trans rows.valid, settled.raises (rows.raises raised)⟩
  | sequencerFirst =>
    obtain ⟨v, made, settled, state⟩ : ∃ v, ((p.recordReport e j body).raise (.linkUp j (reportMode body))).sequencerReport e j false
        p.jn[j].line.mode body = v ∧ u.Resettled v j ∧ v.jn[j].state = u.settledState e j :=
      ⟨_, rfl, sequencerReport_up e hereU p.jn[j].line.mode modeU lamp⟩
    have rows := detectorReport_rowsTaken (p := v) (body := body) e
      (fun inStep => JState.noConfusion ((settled.fresh (by rw [inStep]; rfl)).1.symm.trans inStep)) p.jn[j].guard.probe.active
      (u.confirmedStage? j body)
    have taken : p.takeReport e j .sequencerFirst body =
        v.detectorReport e j p.jn[j].guard.probe.active (u.confirmedStage? j body) body := by
      simp only [takeReport, down, Bool.false_eq_true, if_false]
      rw [if_pos present, records, made, List.foldl_nil]
    rw [taken]
    generalize v.detectorReport e j p.jn[j].guard.probe.active (u.confirmedStage? j body) body = q at rows
    exact ⟨q, rfl, kept.trans (settled.lineKept.trans rows.lineKept), rows.state.trans (state.trans (kept.settledState e)), rows.rows,
      rows.valid, rows.raises (settled.raises raised)⟩

end Plant

end Sys2Proof.Machine
end

section
/-! PROOFS. O59: the line of a junction goes DOWN and comes UP, and the mode and the lamps of its unit (R56, R69, R70, R172). -/

namespace Sys2Proof.Machine

open Sys2Proof

namespace State

/-! ## A notice of a paused class (R190) -/

/-- R190: the PENDING mark of a class, once the mark of another one has been set. -/
theorem hasClass_or (m : BitVec 8) (c d : NoticeClass) : hasClass (m ||| c.mask) d = (hasClass m d || d == c) := by
  have inByte : d.bit < 8 := by cases d <;> decide
  rw [hasClass_eq, hasClass_eq, NoticeClass.mask, ← BitVec.twoPow_eq, BitVec.getLsbD_or, BitVec.getLsbD_twoPow]
  congr 1
  cases c <;> cases d <;> rfl

/-- R190: an offer keeps the marks set by the host, and takes no PENDING mark away. -/
theorem offer_report (r : Nat) (s : State) (n : Notice) : (s.offer r n).report.armed = s.report.armed ∧
    (s.offer r n).report.paused = s.report.paused ∧
    ∀ c, hasClass s.report.pend c = true → hasClass (s.offer r n).report.pend c = true := by
  unfold offer
  split
  · split
    · exact ⟨rfl, rfl, fun _ => id⟩
    · exact ⟨rfl, rfl, fun c pend => by rw [hasClass_or, pend]; rfl⟩
  · exact ⟨rfl, rfl, fun _ => id⟩

/-- R190: a notice of an armed, paused class sets its PENDING mark. -/
theorem foldl_offer_pend {c : NoticeClass} (r : Nat) : ∀ (l : List Notice) (s : State), hasClass s.report.armed c = true →
    hasClass s.report.paused c = true → (hasClass s.report.pend c = true ∨ ∃ n ∈ l, n.cls = c) →
    hasClass (l.foldl (offer r) s).report.pend c = true
  | [], s, _, _, pend => pend.elim id fun ⟨_, mem, _⟩ => nomatch mem
  | n :: l, s, armed, paused, pend => by
    obtain ⟨armed', paused', keeps⟩ := offer_report r s n
    refine foldl_offer_pend r l _ (armed' ▸ armed) (paused' ▸ paused) ?_
    rcases pend with pend | ⟨m, mem, cls⟩
    · exact .inl (keeps c pend)
    · rcases List.mem_cons.mp mem with rfl | later
      · refine .inl ?_
        have set : s.offer r m = { s with report := { s.report with pend := s.report.pend ||| m.cls.mask } } := by
          rw [offer, cls, armed, paused]
          rfl
        rw [set, hasClass_or, cls]
        simp
      · exact .inr ⟨m, later, cls⟩

theorem finish_pend {s : State} {n : Notice} {c : NoticeClass} (raised : n ∈ s.plant.raised) (cls : n.cls = c)
    (armed : hasClass s.report.armed c = true) (paused : hasClass s.report.paused c = true) :
    hasClass s.finish.report.pend c = true :=
  foldl_offer_pend 0 s.plant.raised { s with plant := { s.plant with raised := [] } } armed paused (.inr ⟨n, raised, cls⟩)

end State

/-! ## The line goes DOWN (R172) -/

/-- R172: the line that silence has taken DOWN. -/
def Line.downed (l : Line) : Line := { l with up := false, silence := none, waiting := none }

/-- R178: nothing is decided on a DOWN line. -/
theorem Line.decide_down {l : Line} (down : l.up = false) (f : LineFrame) : l.decide f = l := by
  unfold Line.decide
  exact if_neg (by rw [down]; exact Bool.false_ne_true)

namespace Plant

variable {p : Plant} {j : JIdx} {due : Nat}

theorem lineSilence_due (e : Env) (up : p.jn[j].line.up = true) (silence : p.jn[j].line.silence = some due) (now : due ≤ e.now) :
    p.lineSilence e j =
      if p.jn[j].state.present then
        let q := (p.upd j fun J => { J with line := J.line.downed, det := J.det.lineDown }).raise
          (.linkDown j (p.jn[j].line.last.bind LastReport.tod))
        if p.jn[j].state.coordinated then (q.leave j).enterSolo j .link else q
      else p.upd j fun J => { J with line := J.line.downed } := by
  let q := p.upd j fun J => { J with line := J.line.downed }
  have at' : q.jn[j] = { p.jn[j] with line := p.jn[j].line.downed } := upd_at p j fun J => { J with line := J.line.downed }
  have once : (q.raise (.linkDown j (p.jn[j].line.last.bind LastReport.tod))).updDet j Detectors.lineDown =
      (p.upd j fun J => { J with line := J.line.downed, det := J.det.lineDown }).raise
        (.linkDown j (p.jn[j].line.last.bind LastReport.tod)) :=
    congrArg (fun u : Plant => u.raise _) (upd_upd p j (fun J => { J with line := J.line.downed }) fun J => { J with det := J.det.lineDown })
  have opened : p.lineSilence e j =
      if q.jn[j].state.present then
        if ((q.raise (.linkDown j (p.jn[j].line.last.bind LastReport.tod))).updDet j Detectors.lineDown).jn[j].state.coordinated then
          (((q.raise (.linkDown j (p.jn[j].line.last.bind LastReport.tod))).updDet j Detectors.lineDown).leave j).enterSolo j .link
        else (q.raise (.linkDown j (p.jn[j].line.last.bind LastReport.tod))).updDet j Detectors.lineDown
      else q := by
    rw [lineSilence]
    simp only [silence]
    exact if_pos ⟨up, now⟩
  rw [opened, once, at']
  have state : ((p.upd j fun J => { J with line := J.line.downed, det := J.det.lineDown }).raise
      (.linkDown j (p.jn[j].line.last.bind LastReport.tod))).jn[j].state = p.jn[j].state :=
    (congrArg Junction.state (upd_at p j fun J => { J with line := J.line.downed, det := J.det.lineDown }) :)
  rw [state]

/-- R71: a junction has left coordination for another state. -/
structure Left (p q : Plant) (j : JIdx) (st : JState) : Prop where
  junction : ∃ l, q.jn[j] = { leaveValues { p.jn[j] with chain := l } with line := p.jn[j].line.decide .release, state := st }
  requests : ∀ k : SlotNo, ∀ r, q.req[k] = some r → r.junction ≠ j
  others : p.OthersSame q j

variable {q : Plant} {st : JState}

/-- What is left of it. -/
theorem Left.cleared (h : p.Left q j st) : q.jn[j].state = st ∧ q.jn[j].order = none ∧ q.jn[j].green = none ∧ q.jn[j].level = 0 ∧
    q.jn[j].stack = [] ∧ q.jn[j].guard.probe = .off ∧ ∀ s : Stage, q.jn[j].det.flags[s] = false ∧ q.jn[j].det.gap[s] = .stopped := by
  obtain ⟨l, at'⟩ := h.junction
  obtain ⟨order, green, level, stack, probe, flags, gap⟩ := leaveValues_cleared { p.jn[j] with chain := l }
  rw [at']
  exact ⟨rfl, order, green, level, stack, probe, fun s => ⟨flags s, gap s⟩⟩

theorem Left.rows (h : p.Left q j st) : q.jn[j].det.rows = p.jn[j].det.rows ∧ q.jn[j].det.rowsValid = p.jn[j].det.rowsValid := by
  obtain ⟨l, at'⟩ := h.junction
  rw [at']
  exact ⟨rfl, rfl⟩

theorem Left.line (h : p.Left q j st) : q.jn[j].line = p.jn[j].line.decide .release := by
  obtain ⟨l, at'⟩ := h.junction
  rw [at']

/-- R71: for a state that the junction enters by RELEASE and a change of state. -/
theorem leave_left (p : Plant) (j : JIdx) (st : JState) : p.Left (((p.leave j).sendRelease j).setState j st) j st := by
  have at' := p.leave_at j
  have requests := p.leave_noRequest j
  have others := p.leave_othersSame j
  generalize p.leave j = l at at' requests others
  have kept := (l.sendRelease_restated j).trans (setState_restated _ j st)
  refine ⟨⟨(p.retireServices j).jn[j].chain, ?_⟩, fun k r found => requests k r (by rw [kept.req] at found; exact found),
    others.trans kept.others⟩
  rw [setState_at, sendRelease_at, at']
  rfl

theorem leave_enterSolo (p : Plant) (j : JIdx) (c : SoloCause) : p.Left ((p.leave j).enterSolo j c) j (.solo c) := p.leave_left j (.solo c)

/-- R47, R69: a junction whose unit is in LOCAL_MANUAL. -/
theorem leave_enterLocal_manual (e : Env) (manual : p.jn[j].line.mode = some .localManual) :
    p.Left ((p.leave j).enterLocal e j) j (.loc .manual) := by
  have left := p.leave_left j (.loc .manual)
  have at' := p.leave_at j
  generalize p.leave j = l at left at'
  have mode : l.jn[j].line.mode = some .localManual := by rw [at']; exact manual
  have entered : l.localEntered e j = (l.sendRelease j).setState j (.loc .manual) := by
    rw [localEntered, localCause, if_pos mode]
  have modeE : (l.localEntered e j).jn[j].line.mode = some .localManual := (l.localEntered_restated e j).mode.trans mode
  have state : (l.localEntered e j).jn[j].state = .loc .manual := by rw [entered, setState_state]
  have settled : (l.localEntered e j).settle e j = l.localEntered e j := by
    rw [settle, state]
    simp only [modeE, if_true]
    exact if_pos state
  rw [enterLocal_eq, settled, entered]
  exact left

end Plant

section Mode

variable {s : State} {j : JIdx} {body : List Byte}

/-- R171: a report without edges or records that a junction's sequencer makes something of, after which it is not IN_STEP. -/
theorem State.QuietReport.takeReport_sequenced (report : s.QuietReport j body []) (none : s.plant.NoCandidate j)
    (present : s.plant.jn[j].state.present = true) (first : TakeOrder) {q : Plant}
    (taken : (s.plant.recordReport s.env j body).sequencerReport s.env j true s.plant.jn[j].line.mode body = q)
    (apart : q.jn[j].state ≠ .inStep) (rows : q.jn[j].det.rows = s.plant.jn[j].det.rows)
    (valid : q.jn[j].det.rowsValid = s.plant.jn[j].det.rowsValid) : s.plant.takeReport s.env j first body = q := by
  have calm : (s.plant.recordReport s.env j body).NoCandidate j := none
  exact Plant.takeReport_silent s.env first report.up present report.carries
    (report.edgeless (calm.attempts s.env)).detectorReport taken
    (Plant.detectorReport_not_inStep s.env (valid.trans report.valid) (rows.trans report.rows) apart)

end Mode

end Sys2Proof.Machine
end

section
/-! PROOFS. O59: the four clauses. -/

namespace Sys2Proof.Machine

open Sys2Proof

namespace Plant

variable {p : Plant} {j : JIdx} {body : List Byte}

theorem apart_of_not_absent {st : JState} (here : st ≠ .absent) : st.present = true := by
  cases st with
  | absent => exact absurd rfl here
  | _ => rfl

/-- R47: the state to which a junction of an UP line is settled whose unit is ready. -/
theorem settledState_of_ready {s : State} (ready : p.jn[j].line.mode = some .coordReady) (up : p.jn[j].line.up = true) :
    p.settledState s.env j = if s.tb.corridor ≠ .coordinating then .loc .notRunning
      else if ((p.chainEntries j).filter fun x => x.role == .band).length = 1 ∧
          feasibilitySum (p.chainEntries j) p.jn[j].plan.a * p.jn[j].plan.mult ≤ s.tb.c
        then .joining else .loc .noBand := by
  have running : s.env.coordinating = false ↔ s.tb.corridor ≠ .coordinating := by
    rw [show s.env.coordinating = (s.tb.corridor == .coordinating) from rfl, beq_eq_false_iff_ne]
  have eligible := p.eligible_iff s.env j ready
  rw [up] at eligible
  simp only [settledState_ready s.env p j ready, running, eligible, and_true]
  rfl

/-- R69: a junction in coordination whose unit has gone to LOCAL_MANUAL or is at FAULT. -/
theorem sequencerReport_leaves (e : Env) (coordinated : p.jn[j].state.coordinated = true) {earlier : Option UnitMode}
    (changed : earlier ≠ some (reportMode body)) (mode : p.jn[j].line.mode = some (reportMode body)) :
    (reportMode body = .localManual → p.Left (p.sequencerReport e j true earlier body) j (.loc .manual)) ∧
      (reportMode body = .fault → p.Left (p.sequencerReport e j true earlier body) j (.solo .unit)) := by
  have here : p.jn[j].state = .joining ∨ p.jn[j].state = .inStep := by
    cases st : p.jn[j].state with
    | joining => exact .inl rfl
    | inStep => exact .inr rfl
    | _ => exact nomatch (congrArg JState.coordinated st).symm.trans coordinated
  have ends {q : Plant} {st : JState} (made : p.modeChange e j earlier (reportMode body) = q) (left : p.Left q j st)
      (settled : q.settle e j = q) (apart : st.coordinated = false) : p.Left (p.sequencerReport e j true earlier body) j st := by
    have same : p.sequencerReport e j true earlier body = q := by
      rw [sequencerReport, if_pos rfl, made, settled]
      exact if_neg (by rw [left.cleared.1, apart]; exact Bool.false_ne_true)
    rw [same]
    exact left
  refine ⟨fun manual => ?_, fun fault => ?_⟩
  · rw [manual] at mode changed
    have left := leave_enterLocal_manual (p := p) (j := j) e mode
    refine ends (q := (p.leave j).enterLocal e j) ?_ left ?_ rfl
    · unfold modeChange
      generalize p.leave j = l
      rw [manual, if_neg changed]
      rcases here with here | here <;> simp only [here]
    · generalize (p.leave j).enterLocal e j = q at left
      have modeQ : q.jn[j].line.mode = some .localManual := by rw [left.line, Line.decide_mode]; exact mode
      rw [settle, left.cleared.1]
      simp only [modeQ, if_true]
      exact if_pos left.cleared.1
  · rw [fault] at changed
    have left := p.leave_enterSolo j .unit
    refine ends (q := (p.leave j).enterSolo j .unit) ?_ left ?_ rfl
    · unfold modeChange
      generalize p.leave j = l
      rw [fault, if_neg changed]
      rcases here with here | here <;> simp only [here]
    · generalize (p.leave j).enterSolo j .unit = q at left
      exact settle_of_not_local e q j (by rw [left.cleared.1]; rfl)

/-- R69: the state of a junction out of coordination, once its unit's mode has acted on it. -/
theorem sequencerReport_apart (e : Env) (apart : p.jn[j].state.coordinated = false) {earlier : Option UnitMode}
    (mode : p.jn[j].line.mode = some (reportMode body)) (lamp : reportLamp body = false) :
    p.Resettled (p.sequencerReport e j true earlier body) j ∧
      ((p.modeChange e j earlier (reportMode body)).jn[j].state = p.settledState e j →
        (p.sequencerReport e j true earlier body).jn[j].state = p.settledState e j) ∧
      (p.modeChange e j earlier (reportMode body) = p → p.jn[j].state.isLocal = false →
        (p.sequencerReport e j true earlier body).jn[j].state = p.jn[j].state) := by
  have fresh : p.Fresh j := .of_apart apart
  have changed := modeChange_resettled e fresh earlier (m := reportMode body) fun h => nomatch apart.symm.trans h
  have settled := settle_resettled e changed.fresh
  rw [sequencerReport_fresh e true earlier lamp rfl settled.fresh]
  refine ⟨changed.trans settled, fun state => ?_, fun same notLocal => ?_⟩
  · exact (settle_settled e (state.trans (changed.lineKept.settledState e).symm)).trans (changed.lineKept.settledState e)
  · rw [if_pos rfl, same, settle_of_not_local e p j notLocal]

/-- R47, R69: a junction in LOCAL or in SOLO UNIT whose unit has changed its mode goes to the state to which it is settled. -/
theorem modeChange_settles (e : Env) {earlier : Option UnitMode} {m : UnitMode} (changed : earlier ≠ some m)
    (mode : p.jn[j].line.mode = some m)
    (acts : m = .localManual ∧ ((∃ c, p.jn[j].state = .loc c) ∨ p.jn[j].state = .solo .unit) ∨
      m = .fault ∧ ((∃ c, p.jn[j].state = .loc c) ∨ p.jn[j].state = .solo .unit) ∨
      m = .coordReady ∧ (p.jn[j].state = .loc .manual ∨ p.jn[j].state = .solo .unit)) :
    (p.modeChange e j earlier m).jn[j].state = p.settledState e j := by
  unfold modeChange
  generalize p.leave j = l
  rw [if_neg changed]
  rcases acts with ⟨rfl, ⟨c, here⟩ | here⟩ | ⟨rfl, ⟨c, here⟩ | here⟩ | ⟨rfl, here | here⟩ <;> simp only [here]
  · exact settle_state e p j here
  · exact enterLocal_state e p j
  · exact settle_state e p j here
  · rw [settledState, mode]
    rfl
  · exact settle_state e p j here
  · exact enterLocal_state e p j

end Plant

end Sys2Proof.Machine
end

section
/-! PROOFS. O59: the line of a junction, its unit's mode and its lamps. -/

namespace Sys2Proof.Machine

open Sys2Proof

namespace Plant

variable {p : Plant} {j : JIdx} {body : List Byte}

/-- R56: a lamp fault stalls a junction in coordination. -/
theorem sequencerReport_lamp (e : Env) (coordinated : p.jn[j].state.coordinated = true) (lamp : reportLamp body = true) :
    p.sequencerReport e j true (some (reportMode body)) body = p.stall j .lampFault := by
  have same : p.modeChange e j (some (reportMode body)) (reportMode body) = p := if_pos rfl
  have settled := settle_of_not_local e p j (not_isLocal_of_coordinated coordinated)
  rw [sequencerReport, if_pos rfl, same, settled]
  exact (if_pos coordinated).trans (if_pos lamp)

/-- R71, R83: no call flag is left of a junction that stalls. -/
theorem stall_flags (p : Plant) (j : JIdx) (err : EntryError) (st : Stage) : (p.stall j err).jn[j].det.flags[st] = false := by
  have at' := p.leave_at j
  unfold stall
  generalize p.leave j = l at at'
  have flags : l.jn[j].det.flags[st] = false := by
    rw [at']
    exact (leaveValues_cleared { p.jn[j] with chain := (p.retireServices j).jn[j].chain }).2.2.2.2.2.1 st
  dsimp only
  split
  · rw [enterSolo_at]
    exact flags
  · rw [enterSolo_at]
    exact flags

end Plant

namespace State

variable {s : State} {j : JIdx} {body : List Byte} {first : TakeOrder}

/-- R172: silence at a junction in coordination. -/
theorem lineSilence_leaves {due : Nat} (up : s.plant.jn[j].line.up = true) (silence : s.plant.jn[j].line.silence = some due)
    (now : due ≤ s.now) (coordinated : s.plant.jn[j].state.coordinated = true) :
    ∃ q, exec (.lineSilence j) s = .next (({ s with plant := q } : State).finish) ∧
      ((s.plant.upd j fun J => { J with line := J.line.downed, det := J.det.lineDown }).raise
        (.linkDown j (s.plant.jn[j].line.last.bind LastReport.tod))).Left q j (.solo .link) := by
  have due' := Plant.lineSilence_due (p := s.plant) (j := j) s.env up silence now
  rw [if_pos (Plant.present_of_coordinated coordinated)] at due'
  refine ⟨_, congrArg (fun p => Host.Outcome.next ({ s with plant := p } : State).finish) (due'.trans (if_pos coordinated)), ?_⟩
  exact Plant.leave_enterSolo _ j .link

/-- R172: what is left of its line and of its detectors. -/
theorem left_downed {q : Plant} {n : Notice} {st : JState}
    (left : ((s.plant.upd j fun J => { J with line := J.line.downed, det := J.det.lineDown }).raise n).Left q j st) :
    q.jn[j].line = s.plant.jn[j].line.downed ∧ q.jn[j].det.rowsValid = false ∧ s.plant.OthersSame q j := by
  let f : Junction → Junction := fun J => { J with line := J.line.downed, det := J.det.lineDown }
  let u := (s.plant.upd j f).raise n
  have at' : u.jn[j] = f s.plant.jn[j] := Plant.upd_at s.plant j f
  have line : u.jn[j].line = s.plant.jn[j].line.downed := by rw [at']
  have valid : u.jn[j].det.rowsValid = false := by rw [at']; rfl
  refine ⟨left.line.trans ?_, left.rows.2.trans valid, (Plant.othersSame_upd s.plant j f).trans left.others⟩
  have down : u.jn[j].line.up = false := by rw [line]; rfl
  exact (Line.decide_down down .release).trans line

/-- R56: a report that shows a lamp fault, at a junction in coordination with host entries only. -/
theorem QuietReport.takeReport_lamp (report : s.QuietReport j body []) (none : s.plant.NoCandidate j)
    (before : s.plant.jn[j].line.mode = some .coordReady) (mode : reportMode body = .coordReady) (lamp : reportLamp body = true)
    {n : EntryNo} {rest : List EntryNo} (coordinated : s.plant.jn[j].state.coordinated = true) (chain : s.plant.jn[j].chain = n :: rest)
    (hosts : ∀ i ∈ s.plant.jn[j].chain, s.plant.pool[i].origin = .host) :
    ∃ q, s.plant.takeReport s.env j first body = q ∧ s.plant.Stalled q j n .lampFault ∧ ∀ st : Stage, q.jn[j].det.flags[st] = false := by
  let r := s.plant.recordReport s.env j body
  have at' : r.jn[j] = _ := Plant.recordReport_at s.env s.plant j body
  have stalled : s.plant.Stalled (r.stall j .lampFault) j n .lampFault :=
    (Plant.stall_stalled (p := r) .lampFault (by rw [at']; exact chain) (by rw [at']; exact hosts)).of_recorded
  have flags := r.stall_flags j .lampFault
  have taken : r.sequencerReport s.env j true s.plant.jn[j].line.mode body = r.stall j .lampFault := by
    rw [before.trans (congrArg some mode.symm)]
    exact Plant.sequencerReport_lamp s.env (by rw [at']; exact coordinated) lamp
  generalize r.stall j .lampFault = q at stalled flags taken
  exact ⟨q, report.takeReport_sequenced none (Plant.present_of_coordinated coordinated) first taken
    (by rw [stalled.state]; exact JState.noConfusion) stalled.rows.1 stalled.rows.2, stalled, flags⟩

/-- R56: at a SOLO junction it is recorded only. -/
theorem QuietReport.takeReport_solo (report : s.QuietReport j body []) (none : s.plant.NoCandidate j)
    (before : s.plant.jn[j].line.mode = some (reportMode body)) {c : SoloCause} (solo : s.plant.jn[j].state = .solo c) :
    s.plant.takeReport s.env j first body = s.plant.recordReport s.env j body := by
  have at' := Plant.recordReport_at s.env s.plant j body
  have soloR : (s.plant.recordReport s.env j body).jn[j].state = .solo c := by rw [at']; exact solo
  refine report.takeReport_sequenced none (by rw [solo]; rfl) first ?_ (by rw [soloR]; exact JState.noConfusion) (by rw [at']) (by rw [at'])
  rw [before]
  exact Plant.sequencerReport_solo s.env soloR

/-- R69: a report of a unit that has changed its mode, at a junction in coordination. -/
theorem QuietReport.takeReport_leaves (report : s.QuietReport j body []) (none : s.plant.NoCandidate j)
    (changed : s.plant.jn[j].line.mode ≠ some (reportMode body)) (coordinated : s.plant.jn[j].state.coordinated = true) :
    (reportMode body = .localManual →
      (s.plant.recordReport s.env j body).Left (s.plant.takeReport s.env j first body) j (.loc .manual)) ∧
      (reportMode body = .fault →
        (s.plant.recordReport s.env j body).Left (s.plant.takeReport s.env j first body) j (.solo .unit)) := by
  let r := s.plant.recordReport s.env j body
  have at' : r.jn[j] = _ := Plant.recordReport_at s.env s.plant j body
  obtain ⟨manual, fault⟩ := Plant.sequencerReport_leaves (p := r) (j := j) s.env (by rw [at']; exact coordinated) changed
    (by rw [at']; rfl)
  have ends {st : JState} (left : r.Left (r.sequencerReport s.env j true s.plant.jn[j].line.mode body) j st) (apart : st ≠ .inStep) :
      r.Left (s.plant.takeReport s.env j first body) j st := by
    have rows : r.jn[j].det.rows = s.plant.jn[j].det.rows ∧ r.jn[j].det.rowsValid = s.plant.jn[j].det.rowsValid := by
      rw [at']; exact ⟨rfl, rfl⟩
    rw [report.takeReport_sequenced none (Plant.present_of_coordinated coordinated) first rfl (by rw [left.cleared.1]; exact apart)
      (left.rows.1.trans rows.1) (left.rows.2.trans rows.2)]
    exact left
  exact ⟨fun is => ends (manual is) JState.noConfusion, fun is => ends (fault is) JState.noConfusion⟩

/-- R69: a report of an UP line at a junction out of coordination. -/
theorem QuietReport.takeReport_apart (report : s.QuietReport j body []) (none : s.plant.NoCandidate j) (lamp : reportLamp body = false)
    (apart : s.plant.jn[j].state.coordinated = false) (here : s.plant.jn[j].state ≠ .absent) :
    s.plant.takeReport s.env j first body =
      (s.plant.recordReport s.env j body).sequencerReport s.env j true s.plant.jn[j].line.mode body := by
  let r := s.plant.recordReport s.env j body
  have at' : r.jn[j] = _ := Plant.recordReport_at s.env s.plant j body
  obtain ⟨settled, -, -⟩ := Plant.sequencerReport_apart (p := r) (body := body) (j := j) s.env (by rw [at']; exact apart)
    (earlier := s.plant.jn[j].line.mode) (by rw [at']; rfl) lamp
  refine report.takeReport_sequenced none (Plant.apart_of_not_absent here) first rfl (fun inStep => ?_) ?_ ?_
  · exact JState.noConfusion ((settled.fresh (by rw [inStep]; rfl)).1.symm.trans inStep)
  · exact (congrArg (fun J : Junction => J.det.rows) settled.restated.frame :).trans (by rw [at'])
  · exact (congrArg (fun J : Junction => J.det.rowsValid) settled.restated.frame :).trans (by rw [at'])

end State

end Sys2Proof.Machine
end

section
/-! PROOFS. The statement O59. -/

namespace Sys2Proof.Machine

open Sys2Proof

/-- R69: the mode of a unit acts on the state of a junction out of coordination. -/
def UnitMode.Acts (m : UnitMode) (st : JState) : Prop :=
  m = .localManual ∧ ((∃ c, st = .loc c) ∨ st = .solo .unit) ∨ m = .fault ∧ ((∃ c, st = .loc c) ∨ st = .solo .unit) ∨
    m = .coordReady ∧ (st = .loc .manual ∨ st = .solo .unit)

namespace State

variable {s : State} {j : JIdx} {body : List Byte} {first : TakeOrder}

theorem apart_of_acts {m : UnitMode} {st : JState} (acts : m.Acts st) : st.coordinated = false := by
  rcases acts with ⟨-, ⟨c, rfl⟩ | rfl⟩ | ⟨-, ⟨c, rfl⟩ | rfl⟩ | ⟨-, rfl | rfl⟩ <;> rfl

/-- R70, R71, R172: what silence does. -/
theorem lineSilence_spec (settled : s.Settled) {due : Nat} (up : s.plant.jn[j].line.up = true)
    (silence : s.plant.jn[j].line.silence = some due) (now : due ≤ s.now) :
    (s.plant.jn[j].state = .absent → exec (.lineSilence j) s = .next { s with
      plant := s.plant.upd j fun J => { J with line := J.line.downed } }) ∧
    (s.plant.jn[j].state ≠ .absent → s.plant.jn[j].state.coordinated = false → exec (.lineSilence j) s = .next ({ s with
      plant := (s.plant.upd j fun J => { J with line := J.line.downed, det := J.det.lineDown }).raise
        (.linkDown j (s.plant.jn[j].line.last.bind LastReport.tod)) } : State).finish) := by
  have due' := Plant.lineSilence_due (p := s.plant) (j := j) s.env up silence now
  refine ⟨fun absent => ?_, fun present apart => ?_⟩
  · rw [if_neg (by rw [absent]; exact Bool.false_ne_true)] at due'
    exact congrArg Host.Outcome.next (settled.plantEvent (f := fun e p => p.lineSilence e j) due' rfl)
  · rw [if_pos (Plant.apart_of_not_absent present)] at due'
    exact congrArg (fun p => Host.Outcome.next ({ s with plant := p } : State).finish)
      (due'.trans (if_neg (by rw [apart]; exact Bool.false_ne_true)))

/-- R69, R171: what a report of an UP line whose unit has changed its mode does out of coordination. -/
theorem QuietReport.state_apart (report : s.QuietReport j body []) (none : s.plant.NoCandidate j) (lamp : reportLamp body = false)
    (apart : s.plant.jn[j].state.coordinated = false) (here : s.plant.jn[j].state ≠ .absent)
    (changed : s.plant.jn[j].line.mode ≠ some (reportMode body)) :
    let p := s.plant.recordReport s.env j body
    let q := s.plant.takeReport s.env j first body
    ((reportMode body).Acts s.plant.jn[j].state → q.jn[j].state = p.settledState s.env j) ∧
    (s.plant.jn[j].state = .solo .stall ∨ s.plant.jn[j].state = .solo .plan → q.jn[j].state = s.plant.jn[j].state) := by
  intro p q
  have at' : p.jn[j] = _ := Plant.recordReport_at s.env s.plant j body
  have state : p.jn[j].state = s.plant.jn[j].state := by rw [at']
  have mode : p.jn[j].line.mode = some (reportMode body) := by rw [at']; rfl
  have taken : q = _ := report.takeReport_apart (first := first) none lamp apart here
  obtain ⟨-, settles, stays⟩ := Plant.sequencerReport_apart (p := p) (j := j) s.env (state ▸ apart)
    (earlier := s.plant.jn[j].line.mode) mode lamp
  rw [taken]
  refine ⟨fun acts => settles (Plant.modeChange_settles s.env changed mode (by rw [state]; exact acts)), fun solo => ?_⟩
  have same : p.modeChange s.env j s.plant.jn[j].line.mode (reportMode body) = p := by
    unfold Plant.modeChange
    generalize p.leave j = l
    rw [if_neg changed]
    rcases solo with solo | solo <;> cases reportMode body <;> simp only [state, solo]
  refine (stays same ?_).trans state
  rw [state]
  rcases solo with solo | solo <;> rw [solo] <;> rfl

/-- R69: such a report, whatever the state of the junction. -/
theorem QuietReport.exec_changed (report : s.QuietReport j body []) (none : s.plant.NoCandidate j)
    (changed : s.plant.jn[j].line.mode ≠ some (reportMode body)) (lamp : reportLamp body = false) (here : s.plant.jn[j].state ≠ .absent) :
    ∃ q, exec (.reportReceived j first (reportWire body)) s = .next (({ s with plant := q } : State).finish) ∧
      Plant.Worked j (s.plant.recordReport s.env j body) q ∧
      (s.plant.jn[j].state.coordinated = true →
        (reportMode body = .localManual → (s.plant.recordReport s.env j body).Left q j (.loc .manual)) ∧
        (reportMode body = .fault → (s.plant.recordReport s.env j body).Left q j (.solo .unit))) ∧
      (s.plant.jn[j].state.coordinated = false →
        ((reportMode body).Acts s.plant.jn[j].state → q.jn[j].state = (s.plant.recordReport s.env j body).settledState s.env j) ∧
        (s.plant.jn[j].state = .solo .stall ∨ s.plant.jn[j].state = .solo .plan → q.jn[j].state = s.plant.jn[j].state)) :=
  ⟨_, report.exec_eq first, Plant.takeReport_worked s.env first report.up none report.carries,
    fun coordinated => report.takeReport_leaves none changed coordinated,
    fun apart => report.state_apart none lamp apart here changed⟩

variable {q : Plant}

/-- R70, R47, R171: what the taking of a report on a DOWN line comes to at a junction in SOLO LINK or LOCAL. -/
theorem state_up (kept : (s.plant.recordReport s.env j body).settledState s.env j = q.jn[j].state) :
    (reportMode body = .localManual → q.jn[j].state = .loc .manual) ∧ (reportMode body = .fault → q.jn[j].state = .solo .unit) ∧
      (reportMode body = .coordReady → q.jn[j].state =
        if s.tb.corridor ≠ .coordinating then .loc .notRunning
        else if ((s.plant.chainEntries j).filter fun x => x.role == .band).length = 1 ∧
            feasibilitySum (s.plant.chainEntries j) s.plant.jn[j].plan.a * s.plant.jn[j].plan.mult ≤ s.tb.c
          then .joining else .loc .noBand) := by
  have at' := Plant.recordReport_at s.env s.plant j body
  have entries := Plant.recordReport_chainEntries s.env s.plant j body
  have mode : (s.plant.recordReport s.env j body).jn[j].line.mode = some (reportMode body) := by rw [at']; rfl
  have up : (s.plant.recordReport s.env j body).jn[j].line.up = true := by rw [at']; rfl
  have plan : (s.plant.recordReport s.env j body).jn[j].plan = s.plant.jn[j].plan := by rw [at']
  refine ⟨fun manual => ?_, fun fault => ?_, fun ready => ?_⟩
  · rw [← kept, Plant.settledState, mode, manual]
    rfl
  · rw [← kept, Plant.settledState, mode, fault]
    rfl
  · rw [← kept, Plant.settledState_of_ready (mode.trans (congrArg some ready)) up, entries, plan]

end State

/-- Settles O59. -/
theorem silenceTakesLineDown : Obligations.SilenceTakesLineDown := by
  refine ⟨fun s j due settled up silence now => ?_, fun s j first body settled hunting good noRecords lamp down here => ?_,
    fun s j first body m report none before changed lamp present => ?_, fun s j first body report none before mode lamp => ⟨?_, ?_⟩⟩
  · obtain ⟨absent, apart⟩ := State.lineSilence_spec settled up silence now
    refine ⟨absent, apart, fun coordinated => ?_⟩
    obtain ⟨q, made, left⟩ := State.lineSilence_leaves up silence now coordinated
    obtain ⟨line, valid, others⟩ := State.left_downed left
    obtain ⟨state, order, green, level, stack, probe, det⟩ := left.cleared
    refine ⟨_, made, ?_⟩
    rw [State.finish_plant]
    show q.jn[j].state = _ ∧ q.jn[j].line.up = _ ∧ _
    rw [line]
    exact ⟨state, rfl, rfl, rfl, rfl, valid, order, green, level, stack, probe, det, left.requests, others,
      (State.finish_eventFrame _).tb⟩
  · let r := s.plant.recordReport s.env j body
    have at' : r.jn[j] = _ := Plant.recordReport_at s.env s.plant j body
    obtain ⟨q, taken, kept, state, rows, valid, raised⟩ :=
      Plant.takeReport_up s.env first here down (reportRecords_nil noRecords) lamp
    obtain ⟨manual, fault, ready⟩ := State.state_up (s := s) state.symm
    have line := kept.line
    rw [show r.jn[j].line = _ from congrArg Junction.line at'] at line
    have made := (exec_reportReceived s j first hunting good).trans
      (congrArg (fun p => Host.Outcome.next ({ s with plant := p } : State).finish) taken)
    refine ⟨_, made, s.finish_onPlant_eventFrame fun _ _ => q, ?_⟩
    rw [State.finish_plant]
    show q.jn[j].line.up = _ ∧ q.jn[j].line.upAt = _ ∧ _
    rw [line]
    refine ⟨rfl, if_neg (by rw [down]; exact Bool.false_ne_true), rfl, rfl, rfl, rows, valid, manual, fault, ready,
      kept.chain.trans (by rw [at']), kept.pool, kept.req,
      (Plant.recordReport_others s.env s.plant j body).trans kept.others,
      fun armed paused => State.finish_pend (s := { s with plant := q }) raised rfl armed paused⟩
  · have changes : s.plant.jn[j].line.mode ≠ some (reportMode body) := fun same => changed (Option.some.inj (before.symm.trans same)).symm
    let r := s.plant.recordReport s.env j body
    have at' : r.jn[j] = _ := Plant.recordReport_at s.env s.plant j body
    obtain ⟨q, made, worked, leaves, apart⟩ := report.exec_changed (first := first) none changes lamp present
    have modeR : r.jn[j].line.mode = some (reportMode body) := by rw [at']; rfl
    refine ⟨_, made, s.finish_onPlant_eventFrame fun _ _ => q, ?_⟩
    rw [State.finish_plant]
    show q.jn[j].line.mode = _ ∧ s.plant.OthersSame q j ∧ _
    have changedAt := fun h => State.state_up (s := s) (q := q) (Eq.symm ((apart (State.apart_of_acts h)).1 h))
    refine ⟨worked.values.mode.trans modeR, (Plant.recordReport_others s.env s.plant j body).trans worked.others,
      fun coordinated manual => ?_, fun coordinated fault => ?_, fun here manual => (changedAt (.inl ⟨manual, here⟩)).1 manual,
      fun here fault => (changedAt (.inr (.inl ⟨fault, here⟩))).2.1 fault,
      fun here ready => (changedAt (.inr (.inr ⟨ready, here⟩))).2.2 ready, fun solo => (apart ?_).2 solo⟩
    · have left := (leaves coordinated).1 manual
      obtain ⟨state, order, green, level, stack, -, det⟩ := left.cleared
      exact ⟨state, order, green, level, stack, fun st => (det st).1, left.requests⟩
    · have left := (leaves coordinated).2 fault
      obtain ⟨state, order, green, level, stack, -, det⟩ := left.cleared
      exact ⟨state, order, green, level, stack, fun st => (det st).1, left.requests⟩
    · rcases solo with solo | solo <;> rw [solo] <;> rfl
  · intro n rest coordinated chain hosts
    obtain ⟨q, taken, stalled, flags⟩ := report.takeReport_lamp (first := first) none before mode lamp coordinated chain hosts
    have made := (report.exec_eq first).trans (congrArg (fun p => Host.Outcome.next ({ s with plant := p } : State).finish) taken)
    refine ⟨_, made, s.finish_onPlant_eventFrame fun _ _ => q, ?_⟩
    rw [State.finish_plant]
    exact ⟨stalled.state, stalled.status, stalled.error, stalled.order, stalled.green, stalled.level, stalled.stack, flags,
      stalled.requests, stalled.chain, stalled.others⟩
  · intro c solo
    let r := s.plant.recordReport s.env j body
    have at' : r.jn[j] = _ := Plant.recordReport_at s.env s.plant j body
    have taken : s.plant.takeReport s.env j first body = r :=
      report.takeReport_solo none (before.trans (congrArg some mode.symm)) solo
    have made : exec (.reportReceived j first (reportWire body)) s = .next { s with plant := r } := (report.exec_eq first).trans
      (congrArg Host.Outcome.next (report.settled.plantEvent (f := fun e p => p.takeReport e j first body) taken rfl))
    refine ⟨_, made, s.plantOnly r, ?_⟩
    show r.jn[j].state = _ ∧ r.pool = _ ∧ r.req = _ ∧ r.jn[j].line.last = _ ∧ _
    rw [at']
    exact ⟨solo, rfl, rfl, rfl, Plant.recordReport_others s.env s.plant j body⟩

end Sys2Proof.Machine
end

section
/-! PROOFS. O58: what a corridor line receiver finds in its bytes, and the arrival of a report found in a discarded frame (R169, R170). -/

namespace Sys2Proof.Machine

open Sys2Proof

/-! ## A good report inside a discarded frame -/

/-- R170: a hunt finds a good report with bytes behind it in which no frame starts. -/
theorem hunt_report {body tail : List Byte} (good : reportBodyGood body = true) (none : (0x5A : Byte) ∉ tail) (k : Nat)
    (fuel : (reportWire body ++ tail).length ≤ k) :
    hunt corridorForm k (reportWire body ++ tail) = ([{ payload := 4 :: body, behind := tail.length }], []) := by
  have short := length_of_reportBodyGood good
  have accept : corridorForm.accept (4 :: body) = true := by simp [corridorForm, good]
  have whole := assemble_frame corridorForm (4 :: body) tail (by simp only [List.length_cons]; omega) (by simp [corridorForm])
    (by simp only [corridorForm, List.length_cons]; omega)
  have wire : reportWire body ++ tail = 0x5A :: (byte (4 :: body).length :: (4 :: body) ++
      be16 (crc (byte (4 :: body).length :: (4 :: body))) ++ tail) := rfl
  rw [wire] at fuel ⊢
  cases k with
  | zero => exact absurd fuel (by simp)
  | succ k =>
    have start : (0x5A : Byte) = corridorForm.start := rfl
    have behind : tail.length ≤ k := by
      simp only [List.length_cons, List.length_append] at fuel
      omega
    simp only [hunt, whole, accept, ← start, if_true, hunt_of_no_start corridorForm tail none k behind]

/-- R170: the length byte of a frame is no start byte. -/
theorem hunt_length {n : Byte} (range : n.toNat ≤ 30) (k : Nat) (rest : List Byte) :
    hunt corridorForm (k + 1) (n :: rest) = hunt corridorForm k rest := by
  have apart : n ≠ corridorForm.start := fun same => by
    rw [same] at range
    exact absurd range (by decide)
  simp only [hunt, apart, if_false]

/-- R169, R170: a wrong check discards a frame, and a good report is found in it. -/
theorem hunt_discarded {n : Byte} {body tail : List Byte} (range : n.toNat ≤ 30) (good : reportBodyGood body = true)
    (len : (reportWire body).length + tail.length = n.toNat + 2) (none : (0x5A : Byte) ∉ tail)
    (wrong : be16 (crc (n :: (reportWire body ++ tail).take n.toNat)) ≠ (reportWire body ++ tail).drop n.toNat) :
    let bytes := (0x5A : Byte) :: n :: (reportWire body ++ tail)
    hunt corridorForm bytes.length bytes = ([{ payload := 4 :: body, behind := tail.length }], []) := by
  intro bytes
  have long : 4 ≤ (reportWire body).length := by simp [reportWire, frame]
  have total : (reportWire body ++ tail).length = n.toNat + 2 := by rw [List.length_append]; exact len
  have bad := assemble_badCheck corridorForm n ((reportWire body ++ tail).take n.toNat) ((reportWire body ++ tail).drop n.toNat)
    (show 1 ≤ n.toNat by omega) range (by rw [List.length_take]; omega) (by rw [List.length_drop]; omega) wrong
  rw [List.take_append_drop] at bad
  have start : (0x5A : Byte) = corridorForm.start := rfl
  have skips : hunt corridorForm bytes.length bytes =
      hunt corridorForm ((reportWire body ++ tail).length + 1) (n :: (reportWire body ++ tail)) := by
    simp only [bytes, List.length_cons, hunt, bad, ← start, if_true]
  rw [skips, hunt_length range]
  exact hunt_report good none _ (Nat.le_refl _)

/-- R169, R170: a byte gap discards a frame, and a good report is found in it. -/
theorem huntGap_report {n : Byte} {body : List Byte} (range : n.toNat ≤ 30) (good : reportBodyGood body = true) (k : Nat) :
    huntGap corridorForm (k + 1) (0x5A :: n :: reportWire body) = [{ payload := 4 :: body, behind := 0 }] := by
  have found := hunt_report (tail := []) good List.not_mem_nil (reportWire body).length (by rw [List.append_nil])
  rw [List.append_nil] at found
  simp only [huntGap, List.length_cons, hunt_length range, found]
  cases k <;> rfl

/-! ## The taking of what is found -/

/-- R170: the arrival of the last of the received bytes, a number of bytes standing behind it. -/
theorem Plant.arrivalEnv_last {e : Env} {rx : List Received} {last : Received} (ends : rx.getLast? = some last) (later : List Received)
    (f : Found) (behind : f.behind = later.length) :
    arrivalEnv e (rx ++ later) f = { e with arrived := last.time, tod := last.tod } := by
  have found : (rx ++ later).reverse[f.behind]? = some last := by
    rw [List.reverse_append, behind, List.getElem?_append_right (by rw [List.length_reverse]), List.length_reverse, Nat.sub_self,
      ← List.head?_eq_getElem?, List.head?_reverse, ends]
  rw [arrivalEnv, found]

namespace State

variable {s : State} {j : JIdx} {first : TakeOrder}

/-- A line whose receiver keeps no byte. -/
def idled (s : State) (j : JIdx) : Plant := s.plant.upd j fun J => { J with line := { J.line with rx := [] } }

/-- The bytes a line's receiver holds once bytes have come in. -/
def received (s : State) (j : JIdx) (bytes : List Byte) : List Received :=
  s.plant.jn[j].line.rx ++ bytes.map fun b => { byte := b, time := s.now, tod := s.tb.tod }

theorem received_bytes (s : State) (j : JIdx) (bytes : List Byte) :
    (s.received j bytes).map Received.byte = s.plant.jn[j].line.rx.map Received.byte ++ bytes := by
  rw [received, List.map_append, List.map_map]
  exact congrArg (s.plant.jn[j].line.rx.map Received.byte ++ ·) (List.map_id' _)

/-- R170: the reports found are taken in order. -/
def reports (s : State) (j : JIdx) (first : TakeOrder) (rx : List Received) (found : List Found) : Plant :=
  found.foldl (fun p f => p.takeReport (Plant.arrivalEnv s.env rx f) j first f.payload.tail) (s.idled j)

theorem takeFound_reports (s : State) (j : JIdx) (first : TakeOrder) (rx : List Received) (found : List Found) :
    s.plant.takeFound s.env j first rx found 0 = s.reports j first rx found := by
  have nothing : rx.drop (rx.length - 0) = [] := List.drop_length
  rw [Plant.takeFound, nothing]
  rfl

/-- R170: bytes that a hunt keeps nothing of. -/
theorem exec_frameDiscard (s : State) (j : JIdx) (first : TakeOrder) {bytes all : List Byte} {found : List Found}
    (rx : s.plant.jn[j].line.rx.map Received.byte ++ bytes = all) (hunted : hunt corridorForm all.length all = (found, [])) :
    exec (.corridorFrameDiscard j first bytes) s =
      .next (({ s with plant := s.reports j first (s.received j bytes) found } : State).finish) := by
  have held : (s.received j bytes).map Received.byte = all := (s.received_bytes j bytes).trans rx
  have taken : s.plant.corridorBytes s.env j first bytes = s.reports j first (s.received j bytes) found := by
    rw [← takeFound_reports, Plant.corridorBytes]
    show s.plant.takeFound s.env j first (s.received j bytes)
      (hunt corridorForm (s.received j bytes).length ((s.received j bytes).map Received.byte)).1
      (hunt corridorForm (s.received j bytes).length ((s.received j bytes).map Received.byte)).2.length = _
    rw [← List.length_map (f := Received.byte), held, hunted]
    rfl
  exact congrArg (fun p => Host.Outcome.next ({ s with plant := p } : State).finish) taken

/-- R169: a byte gap. -/
theorem exec_byteGap (s : State) (j : JIdx) (first : TakeOrder) {all : List Byte} {found : List Found}
    (rx : s.plant.jn[j].line.rx.map Received.byte = all) (hunted : huntGap corridorForm (all.length + 1) all = found) :
    exec (.corridorByteGapExpiry j first) s =
      .next (({ s with plant := s.reports j first s.plant.jn[j].line.rx found } : State).finish) := by
  have taken : s.plant.corridorGap s.env j first = s.reports j first s.plant.jn[j].line.rx found := by
    rw [← takeFound_reports, Plant.corridorGap]
    rw [← List.length_map (f := Received.byte), rx, hunted]
  exact congrArg (fun p => Host.Outcome.next ({ s with plant := p } : State).finish) taken

/-- R169, R170: a good report stood in a frame discarded by a byte gap or by a wrong check, and is taken with the arrival of its own last
byte. -/
theorem exec_embedded {n : Byte} {body tail : List Byte} {last : Received} {c : Instr}
    (rx : s.plant.jn[j].line.rx.map Received.byte = 0x5A :: n :: reportWire body) (ends : s.plant.jn[j].line.rx.getLast? = some last)
    (range : n.toNat ≤ 30) (good : reportBodyGood body = true) (len : (reportWire body).length + tail.length = n.toNat + 2)
    (none : (0x5A : Byte) ∉ tail)
    (wrong : be16 (crc (n :: (reportWire body ++ tail).take n.toNat)) ≠ (reportWire body ++ tail).drop n.toNat)
    (brings : c = .corridorByteGapExpiry j first ∨ c = .corridorFrameDiscard j first tail) :
    exec c s = .next (({ s with plant := (s.idled j).takeReport { s.env with arrived := last.time, tod := last.tod } j first body } :
      State).finish) := by
  rcases brings with rfl | rfl
  · rw [exec_byteGap s j first rx (huntGap_report range good _), reports, List.foldl_cons, List.foldl_nil]
    have arrival := Plant.arrivalEnv_last (e := s.env) ends [] { payload := 4 :: body, behind := 0 } rfl
    rw [List.append_nil] at arrival
    rw [arrival]
    rfl
  · rw [exec_frameDiscard s j first (congrArg (· ++ tail) rx) (hunt_discarded range good len none wrong), reports, List.foldl_cons,
      List.foldl_nil, received,
      Plant.arrivalEnv_last ends _ { payload := 4 :: body, behind := tail.length } (by rw [List.length_map])]
    rfl

end State

end Sys2Proof.Machine
end

section
/-! PROOFS. The statement O58. -/

namespace Sys2Proof.Machine

open Sys2Proof

namespace Plant

variable {p : Plant} {j : JIdx} {body : List Byte} {first : TakeOrder}

/-- R174: a report of an ABSENT junction is recorded. -/
theorem takeReport_absent (e : Env) (absent : p.jn[j].state = .absent) : p.takeReport e j first body = p.recordReport e j body := by
  have here : (p.recordReport e j body).jn[j].state = .absent := by rw [recordReport_at]; exact absent
  exact if_neg (by rw [here]; exact Bool.false_ne_true)

/-- R69, R171: the sequencer does nothing with a report at a junction in SOLO STALL. -/
theorem sequencerReport_stall (e : Env) (solo : p.jn[j].state = .solo .stall) (earlier : Option UnitMode) :
    p.sequencerReport e j true earlier body = p := by
  have same : p.modeChange e j earlier (reportMode body) = p := by
    unfold modeChange
    generalize p.leave j = l
    split
    · rfl
    · rw [solo]
      cases reportMode body <;> rfl
  have settled := settle_of_not_local e p j (by rw [solo]; rfl)
  rw [sequencerReport, if_pos rfl, same, settled]
  exact if_neg (by rw [solo]; exact Bool.false_ne_true)

/-- R79, R141: out of coordination the edges of a report act on the detectors only. -/
theorem detectorReport_apart (e : Env) (apart : p.jn[j].state.coordinated = false) (valid : p.jn[j].det.rowsValid = true)
    (mayStart : Bool) (c : Option Stage) : p.detectorReport e j mayStart c body = p.rowEdges e j c (reportRows body) := by
  have only := (p.rowEdges_taken e j c (reportRows body)).only
  have opened : p.detectorReport e j mayStart c body =
      ((if (p.rowEdges e j c (reportRows body)).jn[j].state.coordinated then
        (p.rowEdges e j c (reportRows body)).upd j fun J => J.exitEdges e.arrived (risingEdges p.jn[j].det (reportRows body))
          (fallingEdges p.jn[j].det (reportRows body)) mayStart
        else p.rowEdges e j c (reportRows body)).dwellCheck e j).attempts e j := by
    rw [detectorReport]
    exact if_pos valid
  rw [opened]
  generalize p.rowEdges e j c (reportRows body) = q at only
  have apartQ : q.jn[j].state.coordinated = false := by rw [only.state]; exact apart
  have out : q.jn[j].state ≠ .inStep := fun inStep => by
    rw [inStep] at apartQ
    exact nomatch apartQ
  rw [if_neg (by rw [apartQ]; exact Bool.false_ne_true), show q.dwellCheck e j = q from if_neg fun h => out h.1]
  exact attempts_of_not_inStep e q j out

/-- R79, R171: a report of an UP line at a junction in SOLO STALL: recorded, and taken by the detector unit. -/
theorem takeReport_stall (e : Env) (solo : p.jn[j].state = .solo .stall) (up : p.jn[j].line.up = true)
    (valid : p.jn[j].det.rowsValid = true) (records : reportRecords body = []) :
    ∃ c q, p.takeReport e j first body = q ∧ (p.recordReport e j body).EdgesTaken e q j c (reportRows body) := by
  let r := p.recordReport e j body
  have at' : r.jn[j] = _ := recordReport_at e p j body
  have soloR : r.jn[j].state = .solo .stall := by rw [at']; exact solo
  have detected (m : Bool) (c : Option Stage) : r.detectorReport e j m c body = r.rowEdges e j c (reportRows body) :=
    detectorReport_apart e (by rw [soloR]; rfl) (by rw [at']; exact valid) m c
  have edges (c : Option Stage) := r.rowEdges_taken e j c (reportRows body)
  obtain ⟨m, c, -, -, taken⟩ := takeReport_detected e first up (by rw [solo]; rfl) records (sequencerReport_stall e soloR _)
    (sequencerReport_stall e (by rw [detected]; exact (edges _).only.state.trans soloR) _)
  exact ⟨c, _, taken.trans (detected m c), edges c⟩

end Plant

namespace State

variable {s : State} {j : JIdx}

/-- The line that has taken a report out of a discarded frame. -/
def lateLine (s : State) (j : JIdx) (body : List Byte) (last : Received) : Line :=
  { Plant.recordedLine { s.env with arrived := last.time, tod := last.tod } s.plant.jn[j].line body with rx := [] }

theorem idled_recorded (s : State) (j : JIdx) (body : List Byte) (last : Received) :
    (s.idled j).recordReport { s.env with arrived := last.time, tod := last.tod } j body =
      s.plant.upd j fun J => { J with line := s.lateLine j body last } := by
  rw [Plant.recordReport_eq, idled, Plant.upd_upd]
  exact Plant.upd_congr _ _ rfl

end State

/-- Settles O58. -/
theorem corridorReceiverTakesFrames : Obligations.CorridorReceiverTakesFrames := by
  refine ⟨⟨fun s j first body settled absent idle good => ?_, fun s j first settled => ⟨fun n payload c1 c2 idle hmin hmax len wrong none =>
    ?_, fun got rx none => ?_⟩⟩, ?_⟩
  · exact (exec_reportReceived s j first idle good).trans (congrArg Host.Outcome.next
      (settled.plantEvent (f := fun e p => p.takeReport e j first body) (Plant.takeReport_absent s.env absent) rfl))
  · have bad := assemble_badCheck corridorForm n payload [c1, c2] hmin hmax len rfl wrong
    have all : s.plant.jn[j].line.rx.map Received.byte ++ 0x5A :: n :: (payload ++ [c1, c2]) = 0x5A :: n :: (payload ++ [c1, c2]) := by
      rw [idle]; rfl
    have same : s.idled j = s.plant :=
      Plant.upd_id _ _ _ (congrArg (fun r => { s.plant.jn[j] with line := { s.plant.jn[j].line with rx := r } }) idle.symm)
    rw [State.exec_frameDiscard s j first all (hunt_of_bad corridorForm _ bad none), State.reports, List.foldl_nil, same]
    exact congrArg Host.Outcome.next (settled.finish_plant rfl)
  · rw [State.exec_byteGap s j first rx (huntGap_of_no_start corridorForm _ _ got none), State.reports, List.foldl_nil]
    exact congrArg Host.Outcome.next (settled.finish_plant rfl)
  · intro s j first n body tail last c settled rx ends range good len none wrong brings line
    have made := State.exec_embedded rx ends range good len none wrong brings
    have recorded := s.idled_recorded j body last
    have atI : (s.idled j).jn[j] = _ := Plant.upd_at ..
    refine ⟨fun absent => ?_, fun solo up valid records => ?_⟩
    · rw [made, Plant.takeReport_absent _ (by rw [atI]; exact absent), recorded]
      exact congrArg Host.Outcome.next (settled.finish_plant rfl)
    · obtain ⟨x, q, taken, edges⟩ := Plant.takeReport_stall (p := s.idled j) (first := first)
        { s.env with arrived := last.time, tod := last.tod } (by rw [atI]; exact solo) (by rw [atI]; exact up) (by rw [atI]; exact valid)
        records
      rw [recorded] at edges
      rw [taken] at made
      let f : Junction → Junction := fun J => { J with line := s.lateLine j body last }
      have atR : (s.plant.upd j f).jn[j] = f s.plant.jn[j] := Plant.upd_at ..
      have junction : q.jn[j] = { f s.plant.jn[j] with det := q.jn[j].det } := edges.only.junction.trans (by rw [atR])
      have timers := edges.timers
      rw [atR] at timers
      refine ⟨_, made, s.finish_onPlant_eventFrame fun _ _ => q, ?_⟩
      rw [State.finish_plant]
      refine ⟨(congrArg Junction.line junction :), (congrArg Junction.state junction :).trans solo, edges.taken,
        fun d was now timed => ?_, edges.only.pool, edges.only.req, (Plant.othersSame_upd s.plant j f).trans edges.only.others⟩
      have mapped : s.plant.jn[j].det.map[d] ≠ .none := fun nothing => by
        rw [nothing] at timed
        exact nomatch timed
      show q.jn[j].det.timers[d] = _
      rw [timers, Plant.edgeTimers_at]
      exact (if_neg fun h => Bool.false_ne_true (was.symm.trans h.1)).trans (if_pos ⟨was, now, mapped⟩)

end Sys2Proof.Machine
end

section
/-! PROOFS. O57: the spill of a band (R141 to R145). -/

namespace Sys2Proof.Machine

open Sys2Proof

/-- R9: a junction is not its own downstream neighbour. -/
theorem downstream_ne {dir : Direction} {j d : JIdx} (h : downstream dir j = some d) : d ≠ j := by
  have at' {n : Nat} (found : idx? 12 n = some d) : d.val = n := by
    unfold idx? at found
    split at found
    · exact (congrArg Fin.val (Option.some.inj found)).symm
    · exact nomatch found
  rintro rfl
  unfold downstream at h
  split at h
  · exact absurd (at' h) (Nat.ne_of_lt (Nat.lt_succ_self _))
  · split at h
    · exact nomatch h
    · have := at' h
      omega

/-- R145: the junction that has concluded a spill. -/
def Junction.spillNoted (J : Junction) (g : GateOutcome) (f : FlushDisposition) : Junction :=
  { J with
    guard := { J.guard with probe := .spilled, result := .spilled g f }
    tally := { J.tally with probe := .spilled g f } }

theorem Junction.conclude_spilled (J : Junction) (g : GateOutcome) (f : FlushDisposition) :
    J.conclude .spilled (.spilled g f) = J.spillNoted g f := by
  have noted : J.tally.noteProbe (.spilled g f) = { J.tally with probe := .spilled g f } := by
    unfold Tally.noteProbe
    cases J.tally.probe <;> rfl
  rw [conclude, noted]
  rfl

/-- R145: the result of a measurement does not replace a spill. -/
theorem Tally.noteProbe_done (t : Tally) (v : Nat) :
    ((∀ g f, t.probe ≠ .spilled g f) → t.noteProbe (.done v) = { t with probe := .done v }) ∧
      (∀ g f, t.probe = .spilled g f → t.noteProbe (.done v) = t) := by
  unfold noteProbe
  cases probe : t.probe with
  | spilled g f => exact ⟨fun apart => absurd rfl (apart g f), fun _ _ _ => rfl⟩
  | _ => exact ⟨fun _ => rfl, fun _ _ h => nomatch h⟩

namespace Plant

variable {p : Plant} {j : JIdx} {e : Env}

/-- R142: the probe of a junction is SPILLED. -/
def probeSpilled (p : Plant) (j : JIdx) : Plant := p.upd j fun J => { J with guard := { J.guard with probe := .spilled } }

theorem probeSpilled_at (p : Plant) (j : JIdx) :
    (p.probeSpilled j).jn[j] = { p.jn[j] with guard := { p.jn[j].guard with probe := .spilled } } := upd_at ..

/-- R142 to R145: a spill that is due, once it is known what the gate and the flush come to. -/
theorem spillDue_eq {w : DetIdx} {start due : Nat} (probe : p.jn[j].guard.probe = .measuring w start due) (now : due ≤ e.now)
    {g : Plant} {go : GateOutcome} {f : Plant} {fd : FlushDisposition} (gated : (p.probeSpilled j).gate e j = (g, go))
    (flushed : g.flush e j = (f, fd)) : p.spillDue e j = (f.upd j fun J => J.spillNoted go fd).raise (.spill j w (due - start) go fd) := by
  have opened : p.spillDue e j = ((((p.probeSpilled j).gate e j).1.flush e j).1.upd j fun J => J.conclude .spilled
      (.spilled ((p.probeSpilled j).gate e j).2 (((p.probeSpilled j).gate e j).1.flush e j).2)).raise
        (.spill j w (due - start) ((p.probeSpilled j).gate e j).2 (((p.probeSpilled j).gate e j).1.flush e j).2) := by
    rw [spillDue, probe]
    exact if_pos now
  rw [opened, gated, flushed]
  simp only [Junction.conclude_spilled]

/-! ## The flush (R144) -/

theorem flush_none (apart : ∀ d, downstream e.dir j = some d → p.jn[d].state.coordinated = false) : p.flush e j = (p, .flushNone) := by
  unfold flush
  cases down : downstream e.dir j with
  | none => rfl
  | some d =>
    cases band : p.bandEntry? d with
    | none => simp only [band]
    | some b =>
      have out : (p.jn[d].state.coordinated) = false := apart d down
      simp only [band, arrive, show p.jn[d.val].state.coordinated = false from out, Fin.getElem_fin, Bool.false_eq_true, if_false]

/-- R144: the arrival that the flush of a junction posts. -/
def flushArrival (p : Plant) (j d : JIdx) (b : EntryNo) : Arrival :=
  { junction := d, source := .guard, id := j.val, level := p.jn[j].guard.settings.flushLevel, action := .extend
    stage := p.pool[b].stage, time := p.jn[j].guard.settings.flushTime, wait := 0 }

section Posts

variable {d : JIdx} {b : EntryNo} {ahead behind : List EntryNo} (down : downstream e.dir j = some d)
  (chain : p.jn[d].chain = ahead ++ b :: behind) (sides : ∀ i ∈ ahead, p.pool[i].role = .side) (band : p.pool[b].role = .band)

include down chain sides band

theorem flush_posted {q : Plant} {k : SlotNo} {x : Option Key} (made : p.arrive e (p.flushArrival j d b) = (q, .new k x)) :
    p.flush e j = (q, .posted d k) := by
  unfold flushArrival at made
  simp only [flush, down, bandEntry?_eq chain sides band, made]

theorem flush_dropped (made : p.arrive e (p.flushArrival j d b) = (p, .full)) :
    p.flush e j = (p.raise (.tableFull { junction := d, source := .guard, id := j.val } p.jn[j].guard.settings.flushLevel), .dropped) := by
  unfold flushArrival at made
  simp only [flush, down, bandEntry?_eq chain sides band, made]
  rfl

end Posts

/-! ## The gate (R143) -/

theorem gate_suppressed (above : p.jn[j].level ≠ 0) : p.gate e j = (p, .suppressed) := by
  unfold gate
  exact if_pos above

/-- R143: the BAND entry is SERVING as top, not in DWELL, and a SIDE entry is servable. -/
def Gateable (p : Plant) (j : JIdx) (n : EntryNo) : Prop :=
  p.pool[n].role = .band ∧ p.pool[n].status = .serving ∧ p.jn[j].dwell = false ∧ p.sideServable j = true

theorem gate_idle (level : p.jn[j].level = 0) (closed : ∀ n rest, p.jn[j].chain = n :: rest → ¬p.Gateable j n) :
    p.gate e j = (p, .idle) := by
  unfold gate
  refine (if_neg (not_not.mpr level)).trans ?_
  cases chain : p.jn[j].chain with
  | nil => rw [topEntry?_nil chain]
  | cons n rest =>
    rw [topEntry?_cons chain]
    exact if_neg (closed n rest chain)

/-- R143: the band end point of a junction has been moved. -/
def pointMoved (p : Plant) (j : JIdx) (n : EntryNo) : Plant :=
  p.upd j fun J => { J with
    moved := some (max p.jn[j].p (p.jn[j].p + 10 * p.pool[n].minimum - p.pool[n].elapsed.getD 0)), endDone := false }

variable {n : EntryNo} {rest : List EntryNo}

theorem gate_gated (level : p.jn[j].level = 0) (chain : p.jn[j].chain = n :: rest) (gateable : p.Gateable j n) :
    p.gate e j = (((p.pointMoved j n).bandEndPoint e j).attempts e j, .gated) := by
  unfold gate
  refine (if_neg (not_not.mpr level)).trans ?_
  rw [topEntry?_cons chain]
  exact if_pos gateable

/-- R143: before the minimum the moved point is still to come. -/
theorem gate_waits (level : p.jn[j].level = 0) (chain : p.jn[j].chain = n :: rest) (gateable : p.Gateable j n)
    (early : p.pool[n].elapsed.getD 0 < 10 * p.pool[n].minimum) (none : p.NoCandidate j) : p.gate e j = (p.upd j fun J => { J with
      moved := some (J.p + 10 * p.pool[n].minimum - p.pool[n].elapsed.getD 0), endDone := false }, .gated) := by
  let point := p.jn[j].p + 10 * p.pool[n].minimum - p.pool[n].elapsed.getD 0
  have later : p.jn[j].p < point := by omega
  have moved : p.pointMoved j n = p.upd j fun J => { J with moved := some (J.p + 10 * p.pool[n].minimum - p.pool[n].elapsed.getD 0),
                                                             endDone := false } := by
    refine upd_congr p j ?_
    rw [Nat.max_eq_right (Nat.le_of_lt later)]
  have at' : (p.pointMoved j n).jn[j] = { p.jn[j] with moved := some point, endDone := false } := by
    rw [moved, upd_at]
  have notDue : (p.pointMoved j n).bandEndDue j = false := by
    unfold bandEndDue
    simp only [at', Nat.not_le.mpr later, decide_false, Bool.and_false]
  have still : (p.pointMoved j n).bandEndPoint e j = p.pointMoved j n := by
    unfold bandEndPoint
    exact if_neg (by rw [notDue, Bool.and_false]; exact Bool.false_ne_true)
  rw [gate_gated level chain gateable, still, NoCandidate.attempts (p := p.pointMoved j n) none e, moved]

/-- R143, R60: behind the minimum the band ends at once. -/
theorem gate_ends {m : EntryNo} (level : p.jn[j].level = 0) (chain : p.jn[j].chain = n :: m :: rest) (gateable : p.Gateable j n)
    (reached : 10 * p.pool[n].minimum ≤ p.pool[n].elapsed.getD 0) (none : p.NoCandidate j) (inStep : p.jn[j].state = .inStep)
    (host : p.pool[n].origin = .host) (kind : p.pool[n].kind = .recurring) (apart : n ≠ m) (servable : p.servable j p.pool[m] = true)
    (idle : p.jn[j].order = Option.none) (fresh : p.jn[j].green ≠ some p.pool[m].stage) :
    ∃ x q, p.gate e j = (q, .gated) ∧
      (p.upd j fun J => { J with moved := x, endDone := true, endPassed := true }).TurnedTo q j n m rest .served := by
  let x := some (max p.jn[j].p (p.jn[j].p + 10 * p.pool[n].minimum - p.pool[n].elapsed.getD 0))
  let u := p.pointMoved j n
  let f : Junction → Junction := fun J => { J with moved := x, endDone := true, endPassed := true }
  let v := p.upd j f
  have here : max p.jn[j].p (p.jn[j].p + 10 * p.pool[n].minimum - p.pool[n].elapsed.getD 0) ≤ p.jn[j].p := by omega
  have atU : u.jn[j] = { p.jn[j] with moved := x, endDone := false } := upd_at ..
  have atV : v.jn[j] = f p.jn[j] := upd_at p j f
  have due : u.bandEndDue j = true := by
    unfold bandEndDue
    simp only [atU, x, here, decide_true, Bool.not_false, Bool.and_self]
  have marked : (u.upd j fun J => { J with endDone := true, endPassed := true }) = v := upd_upd p j _ _
  have top : v.plainTop? j = some p.pool[n] :=
    plainTop?_eq (by rw [atV]; exact inStep) (by rw [atV]; exact level) (rest := m :: rest) (by rw [atV]; exact chain) host
  have side : v.sideServable j = true := by
    refine (v.sideServable_iff j).mpr ?_
    obtain ⟨i, mem, role, serves⟩ := (p.sideServable_iff j).mp gateable.2.2.2
    refine ⟨i, by rw [atV]; exact mem, role, ?_⟩
    rw [servable_iff, atV]
    exact (p.servable_iff j p.pool[i]).mp serves
  have done : p.pool[n].minDone = true := (minDone_iff _ gateable.2.1).mpr reached
  have ended : u.bandEndPoint e j = v.voluntaryEnd e j .served := by
    rw [bandEndPoint_due e u j (by rw [atU, inStep]; rfl) due, marked, takeBandEnd, top]
    refine (if_pos ⟨gateable.1, done, by rw [atV]⟩).trans ?_
    exact if_pos side
  have turned : v.TurnedTo (v.voluntaryEnd e j .served) j n m rest .served :=
    voluntaryEnd_turns e .served (by rw [atV]; exact chain) kind apart (by rw [atV]; exact idle) (by rw [atV]; exact fresh)
      (by rw [servable_iff, atV]; exact (p.servable_iff j p.pool[m]).mp servable)
  refine ⟨x, v.voluntaryEnd e j .served, ?_, turned⟩
  rw [gate_gated level chain gateable, show p.pointMoved j n = u from rfl, ended,
    NoCandidate.attempts (none.of_req (q := v.voluntaryEnd e j .served) turned.req) e]

end Plant

end Sys2Proof.Machine
end

section
/-! PROOFS. O57: a spill, and the measurement that leads to it. -/

namespace Sys2Proof.Machine

open Sys2Proof

namespace Plant

variable {p : Plant} {j : JIdx}

/-- R145: the conclusion of a spill covers the mark of R142. -/
theorem probeSpilled_noted (p : Plant) (j : JIdx) (g : GateOutcome) (f : FlushDisposition) :
    ((p.probeSpilled j).upd j fun J => J.spillNoted g f) = p.upd j fun J => J.spillNoted g f := upd_upd ..

theorem probeSpilled_other {dir : Direction} {d : JIdx} (down : downstream dir j = some d) : (p.probeSpilled j).jn[d] = p.jn[d] :=
  othersSame_upd p j _ d (downstream_ne down)

theorem flushArrival_probeSpilled (d : JIdx) (b : EntryNo) : (p.probeSpilled j).flushArrival j d b = p.flushArrival j d b := by
  unfold flushArrival
  rw [probeSpilled_at]
  rfl

/-- R143: the mark of R142 does not touch what opens the gate. -/
theorem gateable_probeSpilled (n : EntryNo) : (p.probeSpilled j).Gateable j n ↔
    p.pool[n].role = .band ∧ p.pool[n].status = .serving ∧ p.jn[j].dwell = false ∧ ∃ i ∈ p.jn[j].chain, p.pool[i].role = .side ∧
      (p.pool[i].demand = .recall ∨ p.jn[j].det.flags[p.pool[i].stage] = true) := by
  unfold Gateable
  simp only [sideServable_iff, servable_iff, probeSpilled_at]
  exact Iff.rfl

variable {d : JIdx} {e : Env} {b : EntryNo}

/-- R97: the arrival of a flush at a junction that has no such request. -/
theorem arrive_flush (down : downstream e.dir j = some d) (coordinated : p.jn[d].state.coordinated = true)
    (level : 1 ≤ p.jn[j].guard.settings.flushLevel)
    (fresh : ∀ i : SlotNo, ∀ r, p.req[i] = some r → r.key ≠ { junction := d, source := .guard, id := j.val }) :
    (p.probeSpilled j).arrive e ((p.probeSpilled j).flushArrival j d b) = (p.probeSpilled j).arriveNew e (p.flushArrival j d b) := by
  have there : (p.probeSpilled j).jn[(p.flushArrival j d b).junction] = p.jn[d] := probeSpilled_other down
  rw [flushArrival_probeSpilled]
  exact arrive_eq_arriveNew e (by rw [there]; exact coordinated) level fresh

end Plant

/-- R142 to R145: the event of a spill. -/
theorem State.exec_spill {s : State} {j : JIdx} {w : DetIdx} {start due : Nat} (probe : s.plant.jn[j].guard.probe = .measuring w start due)
    (now : due ≤ s.now) {g f : Plant} {go : GateOutcome} {fd : FlushDisposition} (gated : (s.plant.probeSpilled j).gate s.env j = (g, go))
    (flushed : g.flush s.env j = (f, fd)) : exec (.spillDue j) s = .next ({ s with
      plant := (f.upd j fun J => J.spillNoted go fd).raise (.spill j w (due - start) go fd) } : State).finish :=
  congrArg (fun q : Plant => Host.Outcome.next ({ s with plant := q } : State).finish)
    (Plant.spillDue_eq (e := s.env) probe now gated flushed)

/-! ## Level above 0 (R143) -/

theorem suppressed_gate {s : State} {j : JIdx} (level : 0 < s.plant.jn[j].level) :
    (s.plant.probeSpilled j).gate s.env j = (s.plant.probeSpilled j, .suppressed) :=
  Plant.gate_suppressed (by rw [Plant.probeSpilled_at]; exact Nat.ne_of_gt level)

section Suppressed

variable {s : State} {j : JIdx} {w : DetIdx} {start due : Nat} (probe : s.plant.jn[j].guard.probe = .measuring w start due)
  (now : due ≤ s.now) (level : 0 < s.plant.jn[j].level)

include probe now level

theorem spill_suppressed (apart : ∀ d, downstream s.tb.dir j = some d → s.plant.jn[d].state.coordinated = false) :
    exec (.spillDue j) s = .next ({ s with
      plant := (s.plant.upd j fun J => J.spillNoted .suppressed .flushNone).raise
        (.spill j w (due - start) .suppressed .flushNone) } : State).finish := by
  rw [State.exec_spill probe now (suppressed_gate level) (Plant.flush_none (e := s.env) fun d down => by
    rw [Plant.probeSpilled_other down]; exact apart d down), Plant.probeSpilled_noted]

variable {d : JIdx} {b : EntryNo} {ahead behind : List EntryNo} (down : downstream s.tb.dir j = some d)
  (chain : s.plant.jn[d].chain = ahead ++ b :: behind) (sides : ∀ i ∈ ahead, s.plant.pool[i].role = .side)
  (band : s.plant.pool[b].role = .band) (flushLevel : 1 ≤ s.plant.jn[j].guard.settings.flushLevel)
  (fresh : ∀ i : SlotNo, ∀ r, s.plant.req[i] = some r → r.key ≠ { junction := d, source := .guard, id := j.val })

include down chain sides band flushLevel fresh

theorem spill_posts {k : SlotNo} (joining : s.plant.jn[d].state = .joining) (free : s.plant.req[k] = none)
    (lower : ∀ i : SlotNo, i < k → s.plant.req[i] ≠ none) : exec (.spillDue j) s = .next ({ s with
      plant := ((((s.plant.probeSpilled j).writeNew s.env k (s.plant.flushArrival j d b))).upd j
        fun J => J.spillNoted .suppressed (.posted d k)).raise (.spill j w (due - start) .suppressed (.posted d k)) } : State).finish := by
  have made := Plant.arrive_flush (e := s.env) (b := b) down (by rw [joining]; rfl) flushLevel fresh
  have there : (s.plant.probeSpilled j).jn[(s.plant.flushArrival j d b).junction] = s.plant.jn[d] := Plant.probeSpilled_other down
  rw [Plant.arriveNew_free (p := s.plant.probeSpilled j) s.env (a := s.plant.flushArrival j d b) (k := k)
    (by rw [there, joining]; exact fun is => nomatch is) free lower] at made
  exact State.exec_spill probe now (suppressed_gate level) (Plant.flush_posted (e := s.env) (p := s.plant.probeSpilled j) down
    (by rw [Plant.probeSpilled_other down]; exact chain) sides band made)

theorem spill_drops (coordinated : s.plant.jn[d].state.coordinated = true) (top : s.plant.jn[j].guard.settings.flushLevel ≤ 15)
    (full : ∀ i : SlotNo, s.plant.req[i] ≠ none) : exec (.spillDue j) s = .next ({ s with
      plant := ((s.plant.upd j fun J => J.spillNoted .suppressed .dropped).raise
        (.tableFull { junction := d, source := .guard, id := j.val } s.plant.jn[j].guard.settings.flushLevel)).raise
        (.spill j w (due - start) .suppressed .dropped) } : State).finish := by
  have made := Plant.arrive_flush (e := s.env) (b := b) down coordinated flushLevel fresh
  rw [Plant.arriveNew_dropped (p := s.plant.probeSpilled j) s.env (a := s.plant.flushArrival j d b) full top] at made
  have kept : (s.plant.probeSpilled j).jn[j].guard.settings.flushLevel = s.plant.jn[j].guard.settings.flushLevel := by
    rw [Plant.probeSpilled_at]
  rw [State.exec_spill probe now (suppressed_gate level) (Plant.flush_dropped (e := s.env) (p := s.plant.probeSpilled j) down
    (by rw [Plant.probeSpilled_other down]; exact chain) sides band made), kept, ← Plant.probeSpilled_noted s.plant]
  rfl

end Suppressed

/-! ## Level 0 (R143) -/

section Level0

variable {s : State} {j : JIdx} {w : DetIdx} {start due : Nat} (probe : s.plant.jn[j].guard.probe = .measuring w start due)
  (now : due ≤ s.now) (level : s.plant.jn[j].level = 0)
  (apart : ∀ d, downstream s.tb.dir j = some d → s.plant.jn[d].state.coordinated = false)

include probe now level apart

theorem spill_idle (closed : ∀ n rest, s.plant.jn[j].chain = n :: rest → ¬(s.plant.probeSpilled j).Gateable j n) :
    exec (.spillDue j) s = .next ({ s with
      plant := (s.plant.upd j fun J => J.spillNoted .idle .flushNone).raise (.spill j w (due - start) .idle .flushNone) } : State).finish := by
  have gated : (s.plant.probeSpilled j).gate s.env j = (s.plant.probeSpilled j, .idle) :=
    Plant.gate_idle (by rw [Plant.probeSpilled_at]; exact level) (by rw [Plant.probeSpilled_at]; exact closed)
  rw [State.exec_spill probe now gated (Plant.flush_none (e := s.env) fun d down => by
    rw [Plant.probeSpilled_other down]; exact apart d down), Plant.probeSpilled_noted]

variable {n : EntryNo} {rest : List EntryNo} (gateable : (s.plant.probeSpilled j).Gateable j n) (none : s.plant.NoCandidate j)

include gateable none

theorem spill_waits (chain : s.plant.jn[j].chain = n :: rest) (early : s.plant.pool[n].elapsed.getD 0 < 10 * s.plant.pool[n].minimum) :
    exec (.spillDue j) s = .next ({ s with
      plant := (s.plant.upd j fun J => ({ J with
        moved := some (J.p + 10 * s.plant.pool[n].minimum - s.plant.pool[n].elapsed.getD 0), endDone := false } : Junction).spillNoted
          .gated .flushNone).raise (.spill j w (due - start) .gated .flushNone) } : State).finish := by
  have gated := Plant.gate_waits (p := s.plant.probeSpilled j) (e := s.env) (by rw [Plant.probeSpilled_at]; exact level)
    (by rw [Plant.probeSpilled_at]; exact chain) gateable early none
  rw [State.exec_spill probe now gated (Plant.flush_none (e := s.env) fun d down => by
    rw [Plant.othersSame_upd _ j _ d (downstream_ne down), Plant.probeSpilled_other down]; exact apart d down), Plant.upd_upd,
    Plant.probeSpilled, Plant.upd_upd]
  rfl

theorem spill_ends {m : EntryNo} (chain : s.plant.jn[j].chain = n :: m :: rest)
    (reached : 10 * s.plant.pool[n].minimum ≤ s.plant.pool[n].elapsed.getD 0) (inStep : s.plant.jn[j].state = .inStep)
    (host : s.plant.pool[n].origin = .host) (kind : s.plant.pool[n].kind = .recurring) (differ : n ≠ m)
    (servable : s.plant.servable j s.plant.pool[m] = true) (idle : s.plant.jn[j].order = Option.none)
    (fresh : s.plant.jn[j].green ≠ some s.plant.pool[m].stage) : ∃ x q,
      ((s.plant.probeSpilled j).upd j fun J => { J with moved := x, endDone := true, endPassed := true }).TurnedTo q j n m rest .served ∧
        exec (.spillDue j) s = .next ({ s with
          plant := (q.upd j fun J => J.spillNoted .gated .flushNone).raise (.spill j w (due - start) .gated .flushNone) } : State).finish := by
  have at' := Plant.probeSpilled_at s.plant j
  obtain ⟨x, q, gated, turned⟩ := Plant.gate_ends (p := s.plant.probeSpilled j) (e := s.env) (by rw [at']; exact level)
    (by rw [at']; exact chain) gateable reached none (by rw [at']; exact inStep) host kind differ
    (by rw [Plant.servable_iff, at']; exact (s.plant.servable_iff j s.plant.pool[m]).mp servable) (by rw [at']; exact idle)
    (by rw [at']; exact fresh)
  refine ⟨x, q, turned, State.exec_spill probe now gated (Plant.flush_none (e := s.env) fun d down => ?_)⟩
  rw [turned.others d (downstream_ne down), Plant.othersSame_upd _ j _ d (downstream_ne down), Plant.probeSpilled_other down]
  exact apart d down

end Level0

/-! ## The measurement (R141, R145) -/

theorem Junction.exitEdges_measures (J : Junction) (now : Nat) (rising falling : List DetIdx) (w : DetIdx) :
    (J.guard.probe = .armed w → w ∈ rising → J.exitEdges now rising falling true =
      { J with guard := { J.guard with probe := .measuring w now (now + 10 * J.guard.settings.threshold) } }) ∧
    (J.guard.probe = .armed w → J.exitEdges now rising falling false = J) ∧
    (∀ start due, J.guard.probe = .measuring w start due → w ∈ falling →
      J.exitEdges now rising falling true = J.conclude .done (.done (now - start))) := by
  refine ⟨fun armed rises => ?_, fun armed => ?_, fun start due measuring falls => ?_⟩
  · simp only [exitEdges, armed, Bool.true_and, List.contains_iff_mem.mpr rises, if_true]
  · simp only [exitEdges, armed, Bool.false_and, Bool.false_eq_true, if_false]
  · simp only [exitEdges, measuring, List.contains_iff_mem.mpr falls, if_true]

/-- Settles O57: the gate and the flush of a spill are decided by the state it finds. -/
theorem probeMeasuresAndSpills : Obligations.ProbeMeasuresAndSpills := by
  refine ⟨⟨fun s j w start due _ probe now level => ⟨spill_suppressed probe now level, ?posts⟩, fun J now rising falling w => ?_⟩,
    fun s j w start due _ probe now inStep level none apart => ?_,
    fun s j d w start due b ahead behind _ probe now level down coordinated chain sides band flushLevel top fresh full =>
      spill_drops probe now level down chain sides band flushLevel fresh coordinated top full⟩
  case posts =>
    intro d b ahead behind k down joining chain sides band flushLevel fresh free lower
    have made := spill_posts probe now level down chain sides band flushLevel fresh joining free lower
    let a := s.plant.flushArrival j d b
    let q := (((s.plant.probeSpilled j).writeNew s.env k a).upd j fun J => J.spillNoted .suppressed (.posted d k)).raise
      (.spill j w (due - start) .suppressed (.posted d k))
    have plant : ({ s with plant := q } : State).finish.plant = { q with raised := [] } := State.finish_plant _
    have record : Plant.newRequest s.env (s.plant.probeSpilled j).jn[d] a = Plant.newRequest s.env s.plant.jn[d] a := by
      rw [Plant.probeSpilled_other down]
    have at' : q.jn[j] = (s.plant.probeSpilled j).jn[j].spillNoted .suppressed (.posted d k) :=
      Plant.upd_at ((s.plant.probeSpilled j).writeNew s.env k a) j fun J => J.spillNoted .suppressed (.posted d k)
    refine ⟨_, made, (congrArg Plant.req plant).trans ?_, congrArg Plant.arrivals plant, ?_⟩
    · exact congrArg (fun r => s.plant.req.set k (some r)) record
    · have junction : ({ s with plant := q } : State).finish.plant.jn[j] = _ := (congrArg (fun p : Plant => p.jn[j]) plant).trans at'
      refine ⟨(congrArg (fun J => J.guard.probe) junction :), (congrArg (fun J => J.guard.result) junction :),
        (congrArg (fun J => J.tally.probe) junction :), fun i hi => ?_, (congrArg Plant.pool plant :), (State.finish_eventFrame _).tb⟩
      exact (congrArg (fun p : Plant => p.jn[i]) plant).trans ((Plant.othersSame_upd ((s.plant.probeSpilled j).writeNew s.env k a) j
        (fun J => J.spillNoted .suppressed (.posted d k)) i hi).trans (Plant.othersSame_upd s.plant j
          (fun J => { J with guard := { J.guard with probe := .spilled } }) i hi))
  · obtain ⟨rises, never, falls⟩ := J.exitEdges_measures now rising falling w
    refine ⟨rises, never, fun start due measuring fallen => ?_⟩
    rw [falls start due measuring fallen]
    exact ⟨rfl, rfl, (J.tally.noteProbe_done (now - start)).1, (J.tally.noteProbe_done (now - start)).2⟩
  · intro servable open'
    refine ⟨fun closed => spill_idle probe now level apart fun n rest chain is =>
        closed n rest chain ((Plant.gateable_probeSpilled n).mp is),
      fun n rest chain gateable early => spill_waits probe now level apart ((Plant.gateable_probeSpilled n).mpr gateable) none chain early,
      fun n m rest chain differ gateable next host kind reached idle fresh => ?_⟩
    obtain ⟨x, q, turned, made⟩ := spill_ends probe now level apart ((Plant.gateable_probeSpilled n).mpr gateable) none chain reached
      inStep host kind differ ((s.plant.servable_iff j s.plant.pool[m]).mpr next.2) idle fresh
    let u := (q.upd j fun J => J.spillNoted .gated .flushNone).raise (.spill j w (due - start) .gated .flushNone)
    have plant : ({ s with plant := u } : State).finish.plant = { u with raised := [] } := State.finish_plant _
    have at' : u.jn[j] = q.jn[j].spillNoted .gated .flushNone :=
      Plant.upd_at q j fun J => J.spillNoted .gated .flushNone
    have junction := turned.junction
    rw [Plant.upd_at, Plant.probeSpilled_at] at junction
    rw [junction] at at'
    have atT := (congrArg (fun p : Plant => p.jn[j]) plant).trans at'
    refine ⟨_, made, State.finish_onPlant_eventFrame s fun _ _ => u, (congrArg Junction.chain atT :), ?_⟩
    refine ⟨(congrArg (fun p : Plant => p.pool[n]) plant).trans turned.ended, fun i hi =>
      (congrArg (fun p : Plant => p.pool[i]) plant).trans (turned.entries i hi), (congrArg Junction.endPassed atT :),
      (congrArg Junction.order atT :), (congrArg (fun J => J.guard.probe) atT :), (congrArg (fun J => J.guard.result) atT :),
      fun i hi => ?_, (congrArg Plant.req plant).trans turned.req⟩
    exact (congrArg (fun p : Plant => p.jn[i]) plant).trans ((Plant.othersSame_upd q j (fun J => J.spillNoted .gated .flushNone) i hi).trans ((turned.others i hi).trans
      ((Plant.othersSame_upd _ j _ i hi).trans (Plant.othersSame_upd _ j _ i hi))))

end Sys2Proof.Machine
end

section
/-! PROOFS. O21: CONFIGURE CORRIDOR (R6, R7, R15). -/

namespace Sys2Proof.Machine

open Sys2Proof

theorem Plant.firstFailing_isSome_iff (p : Plant) (fails : JIdx → Bool) :
    (p.firstFailing fails).isSome = true ↔ ∃ j : JIdx, p.jn[j].state ≠ .absent ∧ fails j = true := by
  rw [← Option.ne_none_iff_isSome, ne_eq, firstFailing_eq_none_iff]
  simp only [not_forall, exists_prop, Bool.not_eq_false]

namespace State

/-! ## The checks (R6) -/

/-- R6: an odd C does not fit a multiple of 2. -/
def OddFor (c : Nat) (v : Plan) : Prop := c % 2 = 1 ∧ v.mult = 2

/-- R6: a plan, in force or staged, does not fit a C. -/
def UnfitFor (s : State) (c : Nat) (j : JIdx) : Prop :=
  OddFor c s.plant.jn[j].plan ∨ c ≤ s.plant.jn[j].plan.offset * s.plant.jn[j].plan.mult ∨
    ∃ v, s.plant.jn[j].stagedPlan = some v ∧ (OddFor c v ∨ c ≤ v.offset * s.plant.jn[j].plan.mult)

theorem corridorCheck_range (s : State) {c wait : Nat} (out : ¬(40 ≤ c ∧ c ≤ 200 ∧ 5 ≤ wait ∧ wait ≤ 255)) :
    s.corridorCheck c wait = some .range := by
  unfold corridorCheck
  refine if_pos ?_
  rw [Bool.not_eq_true', Bool.eq_false_iff, ne_eq, Bool.and_eq_true, within_eq_true, within_eq_true, and_assoc]
  exact out

/-- R6: the checks of values in range. -/
theorem corridorCheck_eq (s : State) {c wait : Nat} (range : 40 ≤ c ∧ c ≤ 200 ∧ 5 ≤ wait ∧ wait ≤ 255) :
    ((∃ j : JIdx, s.plant.jn[j].state ≠ .absent ∧ s.UnfitFor c j) → s.corridorCheck c wait = some .range) ∧
    ((∀ j : JIdx, s.plant.jn[j].state ≠ .absent → ¬s.UnfitFor c j) →
      ((∃ j : JIdx, s.plant.jn[j].state ≠ .absent ∧
        c < feasibilitySum (s.plant.chainEntries j) s.plant.jn[j].plan.a * s.plant.jn[j].plan.mult) →
          s.corridorCheck c wait = some .infeasible) ∧
      ((∀ j : JIdx, s.plant.jn[j].state ≠ .absent →
        feasibilitySum (s.plant.chainEntries j) s.plant.jn[j].plan.a * s.plant.jn[j].plan.mult ≤ c) →
          s.corridorCheck c wait = none)) := by
  let odd : Prop := c % 2 = 1 ∧ (s.plant.firstFailing fun j => (s.plant.jn[j].plan.mult == 2) ||
    s.plant.jn[j].stagedPlan.any fun v => v.mult == 2).isSome = true
  let late : Prop := (s.plant.firstFailing fun j => decide (c ≤ s.plant.jn[j].plan.offset * s.plant.jn[j].plan.mult) ||
    s.plant.jn[j].stagedPlan.any fun v => decide (c ≤ v.offset * s.plant.jn[j].plan.mult)).isSome = true
  let heavy : Prop := (s.plant.firstFailing fun j => !s.plant.planFeasible j c).isSome = true
  have inRange : (!(within 40 200 c && within 5 255 wait)) = false := by
    rw [Bool.not_eq_false', Bool.and_eq_true, within_eq_true, within_eq_true, and_assoc]
    exact range
  have opened : s.corridorCheck c wait = if odd then some .range else if late then some .range else if heavy then some .infeasible
      else none := by
    unfold corridorCheck
    exact if_neg (by rw [inRange]; exact Bool.false_ne_true)
  have odd_iff : odd ↔ ∃ j : JIdx, s.plant.jn[j].state ≠ .absent ∧ (OddFor c s.plant.jn[j].plan ∨
      ∃ v, s.plant.jn[j].stagedPlan = some v ∧ OddFor c v) := by
    simp only [odd, OddFor, Plant.firstFailing_isSome_iff, Bool.or_eq_true, beq_iff_eq, Option.any_eq_true]
    constructor
    · rintro ⟨parity, j, present, mult | ⟨v, staged, mult⟩⟩
      · exact ⟨j, present, .inl ⟨parity, mult⟩⟩
      · exact ⟨j, present, .inr ⟨v, staged, parity, mult⟩⟩
    · rintro ⟨j, present, ⟨parity, mult⟩ | ⟨v, staged, parity, mult⟩⟩
      · exact ⟨parity, j, present, .inl mult⟩
      · exact ⟨parity, j, present, .inr ⟨v, staged, mult⟩⟩
  have late_iff : late ↔ ∃ j : JIdx, s.plant.jn[j].state ≠ .absent ∧ (c ≤ s.plant.jn[j].plan.offset * s.plant.jn[j].plan.mult ∨
      ∃ v, s.plant.jn[j].stagedPlan = some v ∧ c ≤ v.offset * s.plant.jn[j].plan.mult) := by
    simp only [late, Plant.firstFailing_isSome_iff, Bool.or_eq_true, decide_eq_true_eq, Option.any_eq_true]
  have heavy_iff : heavy ↔ ∃ j : JIdx, s.plant.jn[j].state ≠ .absent ∧
      c < feasibilitySum (s.plant.chainEntries j) s.plant.jn[j].plan.a * s.plant.jn[j].plan.mult := by
    simp only [heavy, Plant.firstFailing_isSome_iff, Bool.not_eq_true', Bool.eq_false_iff, ne_eq, Plant.planFeasible_iff, Nat.not_le]
  have unfit (j : JIdx) : s.UnfitFor c j ↔ (OddFor c s.plant.jn[j].plan ∨ ∃ v, s.plant.jn[j].stagedPlan = some v ∧ OddFor c v) ∨
      (c ≤ s.plant.jn[j].plan.offset * s.plant.jn[j].plan.mult ∨
        ∃ v, s.plant.jn[j].stagedPlan = some v ∧ c ≤ v.offset * s.plant.jn[j].plan.mult) := by
    constructor
    · rintro (odd | late | ⟨v, staged, odd | late⟩)
      · exact .inl (.inl odd)
      · exact .inr (.inl late)
      · exact .inl (.inr ⟨v, staged, odd⟩)
      · exact .inr (.inr ⟨v, staged, late⟩)
    · rintro ((odd | ⟨v, staged, odd⟩) | late | ⟨v, staged, late⟩)
      · exact .inl odd
      · exact .inr (.inr ⟨v, staged, .inl odd⟩)
      · exact .inr (.inl late)
      · exact .inr (.inr ⟨v, staged, .inr late⟩)
  rw [opened]
  refine ⟨fun ⟨j, present, bad⟩ => ?_, fun fit => ?_⟩
  · by_cases first : odd
    · exact if_pos first
    · have second : late := ((unfit j).mp bad).elim (fun is => absurd (odd_iff.mpr ⟨j, present, is⟩) first)
        fun is => late_iff.mpr ⟨j, present, is⟩
      rw [if_neg first, if_pos second]
  · have first : ¬odd := fun is =>
      let ⟨j, present, bad⟩ := odd_iff.mp is
      fit j present ((unfit j).mpr (.inl bad))
    have second : ¬late := fun is =>
      let ⟨j, present, bad⟩ := late_iff.mp is
      fit j present ((unfit j).mpr (.inr bad))
    rw [if_neg first, if_neg second]
    refine ⟨fun above => if_pos (heavy_iff.mpr above), fun fine => if_neg fun is => ?_⟩
    obtain ⟨j, present, above⟩ := heavy_iff.mp is
    exact absurd above (Nat.not_lt.mpr (fine j present))

/-- R6: the order of the checks. -/
theorem configureCorridor_fields (s : State) (c w : Byte) (dir : Direction) : configureCorridor [c, dir.code, w] s =
    match s.corridorCheck c.toNat w.toNat with
    | some r => refuse s r
    | none =>
      if s.tb.corridor = .coordinating then
        ({ s with tb := { s.tb with staged := some { c := c.toNat, dir := dir, wait := w.toNat } } }, .done [])
      else (s.applyCorridorNow { c := c.toNat, dir := dir, wait := w.toNat }, .done []) := by
  simp only [configureCorridor, bodyNats_cons, bodyNats_nil, direction?_code] <;> rfl

/-! ## The application at once (R7, R15) -/

theorem setCorridor_cycle (s : State) (c : Nat) (d : Direction) (j : JIdx) :
    s.plant.jn[j].SameCycle (s.setCorridor c d).plant.jn[j] := by
  have off (J : Junction) : J.SameCycle J.probeOff := by
    unfold Junction.probeOff
    split
    · exact ⟨rfl, rfl, rfl, rfl⟩
    · exact .refl J
  have at_ : s.plant.directionChanged.jn[j] = s.plant.jn[j].probeOff := Vector.getElem_map ..
  unfold setCorridor
  split
  · exact .refl _
  · show s.plant.jn[j].SameCycle s.plant.directionChanged.jn[j]
    rw [at_]
    exact off _

/-- R15, R12: one junction under a new C. -/
def realignOne (e : Env) (p : Plant) (j : JIdx) : Plant :=
  if p.jn[j].state.present then (p.upd j fun J => J.realign e.c e.m).bandCallPoint e j else p

theorem realignOne_others (e : Env) (p : Plant) (j : JIdx) : p.OthersSame (realignOne e p j) j := by
  unfold realignOne
  split
  · exact (Plant.othersSame_upd p j _).trans (Plant.bandCallPoint_worked e _).others
  · exact fun _ _ => rfl

theorem realignOne_present (e : Env) {p : Plant} {j : JIdx} (present : p.jn[j].state ≠ .absent) :
    (p.jn[j].realign e.c e.m).SameCycle (realignOne e p j).jn[j] := by
  unfold realignOne
  rw [if_pos ((Plant.present_iff _).mpr present)]
  have worked := (Plant.bandCallPoint_worked (j := j) e (p.upd j fun J => J.realign e.c e.m)).values.cycle
  rw [Plant.upd_at] at worked
  exact worked

/-- R7, R15: the pass over the junctions under a new C. -/
theorem foldl_realignOne_at (e : Env) (p : Plant) {j : JIdx} (present : p.jn[j].state ≠ .absent) :
    (p.jn[j].realign e.c e.m).SameCycle ((List.finRange 12).foldl (realignOne e) p).jn[j] := by
  obtain ⟨q, before, after⟩ := foldl_visits (S := fun p q : Plant => q.jn[j] = p.jn[j]) (fun _ => rfl) (fun h g => g.trans h)
    (f := realignOne e) (j := j) (fun q i apart => realignOne_others e q i j apart.symm) (List.finRange 12) (List.nodup_finRange 12)
    (List.mem_finRange j) p
  have here := realignOne_present e (p := q) (j := j) (by rw [before]; exact present)
  rw [before] at here
  rw [after]
  exact here

theorem restartCycle_eq (s : State) : s.restartCycle =
    ({ s with tb := { s.tb with m := 0 } } : State).onPlant fun e p => (List.finRange 12).foldl (realignOne e) p := by
  unfold restartCycle realignOne
  rfl

theorem restartCycle_at (s : State) {j : JIdx} (present : s.plant.jn[j].state ≠ .absent) :
    (s.plant.jn[j].realign s.tb.c 0).SameCycle s.restartCycle.plant.jn[j] := by
  rw [restartCycle_eq, onPlant]
  exact foldl_realignOne_at ({ s with tb := { s.tb with m := 0 } } : State).env s.plant present

/-- R6: the values applied at once: a changed C restarts the cycles. -/
theorem applyCorridorNow_eq (s : State) (v : CorridorSet) : s.applyCorridorNow v =
    if v.c = s.tb.c then ({ s with tb := { s.tb with staged := none } } : State).applyCorridor v
    else (({ s with tb := { s.tb with staged := none } } : State).applyCorridor v).restartCycle := by
  unfold applyCorridorNow
  by_cases same : v.c = s.tb.c
  · exact (if_neg (by simp [same])).trans (if_pos same).symm
  · exact (if_pos (decide_eq_true (Ne.symm same))).trans (if_neg same).symm

theorem applyCorridorNow_frame (s : State) (v : CorridorSet) :
    (s.applyCorridorNow v).tb = { s.tb with c := v.c, dir := v.dir, staged := none, m := (if v.c = s.tb.c then s.tb.m else 0) } ∧
      (s.applyCorridorNow v).script = s.script ∧ (s.applyCorridorNow v).now = s.now ∧ (s.applyCorridorNow v).host = s.host := by
  rw [applyCorridorNow_eq]
  split
  · exact ⟨rfl, rfl, rfl, rfl⟩
  · exact ⟨rfl, rfl, rfl, rfl⟩

/-- R10, R15: what they make of a present junction. -/
theorem applyCorridorNow_at (s : State) (v : CorridorSet) {j : JIdx} (present : s.plant.jn[j].state ≠ .absent) :
    (s.applyCorridorNow v).plant.jn[j].plan = { s.plant.jn[j].plan with wait := v.wait } ∧
      (s.applyCorridorNow v).plant.jn[j].p = s.plant.jn[j].p ∧
      (s.applyCorridorNow v).plant.jn[j].span = if v.c = s.tb.c then s.plant.jn[j].span
        else realignedSpan 0 s.plant.jn[j].plan.offset (cycleTenths v.c s.plant.jn[j].plan.mult) s.plant.jn[j].p := by
  let u := ({ s with tb := { s.tb with staged := none } } : State).setCorridor v.c v.dir
  let w : State := { u with plant := writeWait u.plant v.wait }
  have cycle : s.plant.jn[j].SameCycle u.plant.jn[j] := setCorridor_cycle { s with tb := { s.tb with staged := none } } v.c v.dir j
  have stateU : u.plant.jn[j].state = s.plant.jn[j].state := (setCorridor_plan { s with tb := { s.tb with staged := none } } v.c v.dir j).2
  have atW : w.plant.jn[j] = { u.plant.jn[j] with plan := { u.plant.jn[j].plan with wait := v.wait } } := by
    refine (writeWait_at u.plant v.wait j).trans (if_neg ?_)
    rw [stateU]
    exact present
  have applied : s.applyCorridorNow v = if v.c = s.tb.c then w else w.restartCycle := s.applyCorridorNow_eq v
  rw [applied]
  by_cases same : v.c = s.tb.c
  · rw [if_pos same, if_pos same, atW]
    exact ⟨by rw [cycle.plan], cycle.position, cycle.span⟩
  · have restarted := w.restartCycle_at (j := j) (by rw [atW]; exact fun is => present (stateU.symm.trans is))
    rw [atW] at restarted
    rw [if_neg same, if_neg same]
    refine ⟨restarted.plan.trans ?_, restarted.position.trans cycle.position, restarted.span.trans ?_⟩
    · show ({ u.plant.jn[j].plan with wait := v.wait } : Plan) = _
      rw [cycle.plan]
    · show realignedSpan 0 u.plant.jn[j].plan.offset (cycleTenths v.c u.plant.jn[j].plan.mult) u.plant.jn[j].p = _
      rw [cycle.plan, cycle.position]

end State

/-- Settles O21. -/
theorem corridorIsConfigured : Obligations.CorridorIsConfigured := by
  have taken (s : State) : exec .configureCorridor s = .next (s.take 0x01 State.configureCorridor) := rfl
  have top (w : Byte) : w.toNat ≤ 255 := Nat.le_of_lt_succ w.isLt
  have fits {s : State} {c : Nat} {j : JIdx} (unstaged : s.plant.jn[j].stagedPlan = none)
      (even : ¬(c % 2 = 1 ∧ s.plant.jn[j].plan.mult = 2)) (early : s.plant.jn[j].plan.offset * s.plant.jn[j].plan.mult < c) :
      ¬s.UnfitFor c j := by
    rintro (odd | late | ⟨v, staged, -⟩)
    · exact even odd
    · exact absurd early (Nat.not_lt.mpr late)
    · exact nomatch unstaged.symm.trans staged
  refine ⟨fun s tag c d w dir takes code => ⟨fun range plans => ?_, fun out => ?_⟩, fun s tag c d w dir takes code apart range plans => ?_,
    fun s tag c d w takes => ⟨fun first second => ?_, fun defined range => ?_⟩⟩
  · subst code
    have check : s.popIntake.corridorCheck c.toNat w.toNat = none :=
      ((s.popIntake.corridorCheck_eq ⟨range.1, range.2.1, range.2.2, top w⟩).2
        fun j present => fits (s := s.popIntake) (plans j present).1 (plans j present).2.1 (plans j present).2.2.1).2
          fun j present => (plans j present).2.2.2
    have handled := s.popIntake.configureCorridor_fields c w dir
    rw [check] at handled
    refine ⟨fun running => ?_, fun other => ?_⟩
    · exact (taken s).trans (congrArg Host.Outcome.next (takes.take_of (handled.trans (if_pos running)) takes.quiet rfl))
    · obtain ⟨tb, script, now, host⟩ := s.popIntake.applyCorridorNow_frame { c := c.toNat, dir := dir, wait := w.toNat }
      obtain ⟨answered, -, tb', script', now'⟩ := takes.outcome (handled.trans (if_neg other)) host
      exact ⟨_, taken s, answered, tb'.trans tb, script'.trans script, now'.trans now⟩
  · subst code
    have check : s.popIntake.corridorCheck c.toNat w.toNat = some .range :=
      s.popIntake.corridorCheck_range fun is => out ⟨is.1, is.2.1, is.2.2.1⟩
    have handled := s.popIntake.configureCorridor_fields c w dir
    rw [check] at handled
    exact (taken s).trans (congrArg Host.Outcome.next (takes.take_same _ (.refused .range) handled))
  · subst code
    have check : s.popIntake.corridorCheck c.toNat w.toNat = none :=
      ((s.popIntake.corridorCheck_eq ⟨range.1, range.2.1, range.2.2, top w⟩).2
        fun j present => fits (s := s.popIntake) (plans j present).1 (plans j present).2.2.2.1 (plans j present).2.2.2.2.1).2
          fun j present => (plans j present).2.2.2.2.2
    have handled := s.popIntake.configureCorridor_fields c w dir
    rw [check] at handled
    let v : CorridorSet := { c := c.toNat, dir := dir, wait := w.toNat }
    obtain ⟨-, plant, -⟩ := takes.outcome (handled.trans (if_neg apart)) (s.popIntake.applyCorridorNow_frame v).2.2.2
    refine ⟨_, taken s, fun j present => ?_⟩
    intro J K len
    obtain ⟨unstaged, low, high, even, early, -⟩ := plans j present
    have even' : J.plan.mult = 2 → c.toNat % 2 = 0 := fun two => by
      have := not_and.mp (fun both : c.toNat % 2 = 1 ∧ J.plan.mult = 2 => even both)
      omega
    have length : cycleTenths c.toNat J.plan.mult = len := cycleTenths_eq low high even'
    have positive : 0 < len := length_pos low high even' (by omega)
    have at' : K = (s.popIntake.applyCorridorNow v).plant.jn[j] := (congrArg (fun p : Plant => p.jn[j]) plant :)
    obtain ⟨plan, position, span⟩ := s.popIntake.applyCorridorNow_at v (j := j) present
    rw [← at'] at plan position span
    refine ⟨plan, position, fun same => span.trans (if_pos same), fun other => ?_⟩
    have realigned : K.span = realignedSpan 0 J.plan.offset len J.p := by
      rw [← length]
      exact span.trans (if_neg other)
    have cuts := realignedSpan_cutsAt 0 J.plan.offset J.p positive
    simp only [Int.natCast_zero, Int.zero_add] at cuts
    rw [realigned]
    exact cuts
  · have handled : State.configureCorridor [c, d, w] s.popIntake = refuse s.popIntake .form := by
      have none : direction? d.toNat = Option.none := by
        unfold direction?
        split
        · rename_i one; exact absurd (BitVec.eq_of_toNat_eq one) first
        · rename_i two; exact absurd (BitVec.eq_of_toNat_eq two) second
        · rfl
      simp only [State.configureCorridor, bodyNats_cons, bodyNats_nil, none] <;> rfl
    exact (taken s).trans (congrArg Host.Outcome.next (takes.take_same _ (.refused .form) handled))
  · intro odd late unfit
    subst_vars
    obtain ⟨dir, rfl⟩ : ∃ dir : Direction, d = dir.code := defined.elim (fun one => ⟨.inbound, one⟩) fun two => ⟨.outbound, two⟩
    have handled := s.popIntake.configureCorridor_fields c w dir
    have check := s.popIntake.corridorCheck_eq (c := c.toNat) (wait := w.toNat) ⟨range.1, range.2.1, range.2.2, top w⟩
    refine ⟨fun bad => ?_, fun fine above => ?_⟩
    · rw [check.1 bad] at handled
      exact (taken s).trans (congrArg Host.Outcome.next (takes.take_same _ (.refused .range) handled))
    · rw [(check.2 fine).1 above] at handled
      exact (taken s).trans (congrArg Host.Outcome.next (takes.take_same _ (.refused .infeasible) handled))

end Sys2Proof.Machine
end

section
/-! SUPPORT. The data of the reading answers, field by field, as `Layout` writes them (R199, section 11.4). -/

namespace Sys2Proof.Machine

open Sys2Proof

/-! ## Vectors and bit masks -/

theorem toList_eq_map_finRange {α : Type} {n : Nat} (v : Vector α n) : v.toList = (List.finRange n).map fun i => v[i] := by
  refine List.ext_getElem (by simp) fun i _ _ => ?_
  simp

/-- R199: bit b stands for the mark b. -/
theorem bitsNat_map_range (f : Nat → Bool) (n : Nat) :
    bitsNat ((List.range n).map f) = ((List.range n).map fun b => if f b then 2 ^ b else 0).sum := by
  induction n generalizing f with
  | zero => rfl
  | succ n ih =>
    have shift (b : Nat) : (if f (b + 1) then 2 ^ (b + 1) else 0) = 2 * if f (b + 1) then 2 ^ b else 0 := by
      split
      · exact Nat.pow_succ'
      · rfl
    have tail : bitsNat ((List.range n).map fun b => f (b + 1)) = _ := ih fun b => f (b + 1)
    rw [List.range_succ_eq_map, List.map_cons, List.map_cons, List.map_map, List.map_map, List.sum_cons, bitsNat, List.foldr_cons, ← bitsNat]
    simp only [Function.comp_def, Nat.succ_eq_add_one, shift, List.sum_map_mul_left, tail]
    cases f 0 <;> rfl

theorem bitsNat_toList {n : Nat} (v : Vector Bool n) :
    bitsNat v.toList = ((List.finRange n).map fun q => if v[q] then 2 ^ q.val else 0).sum := by
  let f (b : Nat) : Bool := v.toList.getD b false
  have at' (q : Fin n) : f q.val = v[q] := by
    simp [f]
  have list : v.toList = (List.range n).map f := by
    rw [← List.map_coe_finRange_eq_range, List.map_map, toList_eq_map_finRange]
    exact List.map_congr_left fun q _ => (at' q).symm
  rw [list, bitsNat_map_range, ← List.map_coe_finRange_eq_range, List.map_map]
  exact congrArg List.sum (List.map_congr_left fun q _ => by rw [Function.comp_apply, at'])

/-! ## Windows of a list -/

theorem flatMap_range_getElem? {α β : Type} (l : List α) (g : α → List β) (m : Nat) :
    ((List.range m).flatMap fun i => (l[i]?.map g).getD []) = (l.take m).flatMap g := by
  induction m generalizing l with
  | zero => rfl
  | succ m ih =>
    rw [List.range_succ_eq_map, List.flatMap_cons, List.flatMap_map]
    cases l with
    | nil => simp
    | cons x l => simpa using ih l

/-- R40: the entries from a position on, each with its position. -/
theorem flatMap_window {α β : Type} (l : List α) (g : α → Nat → List β) (k m : Nat) :
    (((l.zipIdx.drop k).take m).flatMap fun x => g x.1 x.2) =
      (List.range m).flatMap fun i => (l[k + i]?.map fun x => g x (k + i)).getD [] := by
  rw [← flatMap_range_getElem? (l.zipIdx.drop k) fun x => g x.1 x.2]
  refine List.flatMap_congr fun i _ => ?_
  rw [List.getElem?_drop, List.getElem?_zipIdx, Option.map_map]
  simp [Function.comp_def]

/-! ## Fields -/

theorem tenths_eq (o : Option Nat) : tenths o = Layout.time o := by cases o <;> rfl

theorem todBytes_eq (o : Option Nat) : todBytes o = Layout.clock o := by cases o <;> rfl

theorem stageByte_eq (o : Option Stage) : stageByte o = Layout.stage o := by cases o <;> rfl

theorem optByte_eq (o : Option Nat) : optByte o = Layout.index o := by cases o <;> rfl

theorem carried_eq (f : DetFn) : f.stage? = f.carried := by cases f <;> rfl

theorem maskBytes_eq (v : Vector Bool 13) : maskBytes v = Layout.two (Layout.mask v) := congrArg be2 (bitsNat_toList v)

/-- R40: the presence marks of an amendment. -/
theorem amendMarks_eq (a b c d e f : Bool) : bitsNat [a, b, c, d, e, f] =
    (if a then 1 else 0) + (if b then 2 else 0) + (if c then 4 else 0) + (if d then 8 else 0) + (if e then 16 else 0) + if f then 32 else 0 := by
  have weigh (x : Bool) (v : Nat) : (if x then v else 0) = x.toNat * v := by cases x <;> simp
  simp only [weigh, bitsNat, List.foldr_cons, List.foldr_nil]
  omega

theorem amendForm_eq (o : Option Amendment) : State.amendForm o = Layout.amendment o := by
  cases o with
  | none => rfl
  | some a =>
    have notify : flagByte (a.notify.getD false) = Layout.mark (a.notify = some true) := by
      match a.notify with
      | none | some false | some true => rfl
    have demand : (match a.demand with | some d => d.code | none => 0) = (a.demand.map Demand.code).getD 0 := by
      cases a.demand <;> rfl
    simp only [State.amendForm, Layout.amendment, State.amendMarks, amendMarks_eq, notify]
    rw [← demand] <;> rfl

theorem entryForm_eq (n : EntryNo) (position : Nat) (x : Entry) : State.entryForm n position x = Layout.entry n position x := by
  simp only [State.entryForm, Layout.entry, tenths_eq, optByte_eq, amendForm_eq, List.append_assoc, List.cons_append, List.nil_append]
  rfl

/-! ## READ CHAIN (R40) -/

theorem Plant.count_origin (p : Plant) (j : JIdx) (o : Origin) :
    ((p.chainEntries j).countP fun x => x.origin == o) = (p.jn[j].chain.filter fun n => p.pool[n].origin = o).length := by
  rw [Plant.chainEntries, List.countP_map, List.countP_eq_length_filter]
  exact congrArg List.length (List.filter_congr fun n _ => Bool.eq_iff_iff.mpr (by simp))

theorem entries_eq (p : Plant) (j : JIdx) (first : Nat) : Layout.entries p j first =
    (((p.jn[j].chain.zipIdx).drop first).take 8).flatMap fun x => State.entryForm x.1 x.2 p.pool[x.1] := by
  rw [flatMap_window p.jn[j].chain fun n i => State.entryForm n i p.pool[n]]
  refine List.flatMap_congr fun i _ => ?_
  cases p.jn[j].chain[first + i]? with
  | none => rfl
  | some n => exact (entryForm_eq n (first + i) p.pool[n]).symm

theorem chainData_eq (p : Plant) (j : JIdx) (first : Nat) : State.chainData p j first = Layout.chain p j first := by
  have shown : (((p.jn[j].chain.zipIdx).drop first).take 8).length = min 8 (p.jn[j].chain.length - first) := by
    rw [List.length_take, List.length_drop, List.length_zipIdx]
  unfold State.chainData Layout.chain Plant.hostCount Plant.serviceCount
  rw [p.count_origin, p.count_origin, entries_eq]
  simp only [shown]
  rfl

/-! ## READ JUNCTION (section 11.4) -/

theorem probeBytes_eq (now : Nat) (q : Probe) : q.code :: (match q with
      | .armed w => byte w.val :: tenths none
      | .measuring w start _ => byte w.val :: tenths (some (now - start))
      | .off => 0xFF :: tenths none
      | .done => 0xFF :: tenths none
      | .spilled => 0xFF :: tenths none) = Layout.probe now q := by
  cases q <;> rfl

theorem resultByte_spilled (g : GateOutcome) (f : FlushDisposition) :
    (ProbeResult.spilled g f).byte = byte (128 + 16 * g.code.toNat + 4 * f.code.toNat) := by
  have code : (ProbeResult.spilled g f).byte = 0x80#8 ||| (g.code <<< 4) ||| (f.code <<< 2) := rfl
  rw [code]
  cases f with
  | posted d k =>
    show 0x80#8 ||| (g.code <<< 4) ||| (1#8 <<< 2) = byte (128 + 16 * g.code.toNat + 4 * (1#8).toNat)
    cases g <;> rfl
  | dropped =>
    show 0x80#8 ||| (g.code <<< 4) ||| (2#8 <<< 2) = byte (128 + 16 * g.code.toNat + 4 * (2#8).toNat)
    cases g <;> rfl
  | flushNone =>
    show 0x80#8 ||| (g.code <<< 4) ||| (3#8 <<< 2) = byte (128 + 16 * g.code.toNat + 4 * (3#8).toNat)
    cases g <;> rfl

theorem resultBytes_eq (r : ProbeResult) : r.byte :: (be2 r.occupancy ++ match r with
      | .spilled _ f => f.place
      | .absent => [0xFF, 0xFF]
      | .done _ => [0xFF, 0xFF]) = Layout.result r := by
  cases r with
  | absent => rfl
  | done n => rfl
  | spilled g f =>
    simp only [resultByte_spilled, Layout.result, ProbeResult.occupancy]
    cases f <;> rfl

theorem contextForms_eq (l : List Context) :
    State.contextForm 1 l.tail.head? ++ State.contextForm 2 l.head? = Layout.contexts l := by
  match l with
  | [] => rfl
  | [_] => rfl
  | _ :: _ :: _ => rfl

end Sys2Proof.Machine
end

section
/-! PROOFS. O32: the reading directives (R40, R89, R117, R153, R197, R198). -/

namespace Sys2Proof.Machine

open Sys2Proof

/-! ## READ JUNCTION (section 11.4) -/

theorem guardBytes_eq (now : Nat) (G : Guard) : State.guardBytes now G =
    [Layout.mark G.settings.enable, byte G.settings.threshold, byte G.settings.flushLevel, byte G.settings.flushTime,
      Layout.mark G.staged.isSome] ++ (Layout.probe now G.probe ++ Layout.result G.result) := by
  rw [← probeBytes_eq, ← resultBytes_eq]
  simp only [State.guardBytes, List.append_assoc, List.cons_append, List.nil_append] <;> rfl

theorem report_padded (body : List Byte) :
    (body ++ List.replicate 29 0).take 29 = (List.range 29).map fun i => body.getD i 0 := by
  refine List.ext_getElem (by simp) fun i h _ => ?_
  have low : i < 29 := lt_of_lt_of_le h (List.length_take_le 29 _)
  rw [List.getElem_take, List.getElem_map, List.getElem_range, List.getD_eq_getElem?_getD, List.getElem_append]
  split
  · rename_i inside; rw [List.getElem?_eq_getElem inside]; rfl
  · rename_i beyond; rw [List.getElem_replicate, List.getElem?_eq_none (Nat.le_of_not_lt beyond)]; rfl

theorem lineBytes_eq (now : Nat) (l : Line) : State.lineBytes now l =
    [Layout.mark l.up, byte l.lastTag.val, modeCode l.mode] ++ Layout.report now l.last := by
  cases last : l.last with
  | none =>
    simp only [State.lineBytes, last, Layout.report]
    rfl
  | some r =>
    simp only [State.lineBytes, last, Layout.report, report_padded]
    rfl

theorem allowanceLeft_eq (p : Plant) (j : JIdx) : State.allowanceLeft p j = p.jn[j].allowance.map fun a => a -
    match p.jn[j].chain with
    | n :: _ => p.pool[n].elapsed.getD 0
    | [] => 0 := by
  unfold State.allowanceLeft
  cases chain : p.jn[j].chain with
  | nil => rw [Plant.topEntry?_nil chain]; rfl
  | cons n rest => rw [Plant.topEntry?_cons chain]; rfl

theorem substate_code (J : Junction) : J.substate.code =
    if J.order ≠ none then 1 else if J.state = .inStep then (if J.dwell then 3 else 2) else 0 := by
  unfold Junction.substate
  cases J.order with
  | some o => rfl
  | none =>
    by_cases inStep : J.state = .inStep
    · cases dwell : J.dwell <;> simp [inStep] <;> rfl
    · simp [inStep] <;> rfl

theorem sequencerBytes_eq (j : JIdx) (J : Junction) : State.sequencerBytes j J =
    [byte j.val, J.state.code, J.state.causeCode, J.substate.code] ++
      (match J.order with
        | some o => [Layout.stage (some o.stage), byte o.tag.val]
        | none => [0xFF, 0xFF]) ++
      [Layout.stage J.green, byte J.level, Layout.mark J.force, Layout.mark J.endPassed, Layout.mark J.callReached] ++
      Layout.two J.p ++ Layout.two J.span ++ [byte J.cycleCount] := by
  unfold State.sequencerBytes
  rw [stageByte_eq]
  cases J.order <;> rfl

theorem junctionData_eq (now : Nat) (p : Plant) (j : JIdx) : State.junctionData now p j = Layout.junction now p j := by
  have mode : modeCode p.jn[j].line.mode = match p.jn[j].line.mode with
      | none => 0
      | some .coordReady => 1
      | some .localManual => 2
      | some .fault => 3 := by
    match p.jn[j].line.mode with
    | none | some .coordReady | some .localManual | some .fault => rfl
  have staged : State.stagedPlanBytes p.jn[j].stagedPlan = match p.jn[j].stagedPlan with
      | some v => 1 :: Layout.plan v
      | none => List.replicate 9 0 := by
    cases p.jn[j].stagedPlan <;> rfl
  have plan : State.planBytes p.jn[j].plan = Layout.plan p.jn[j].plan := rfl
  unfold State.junctionData State.contextBytes Layout.junction
  simp only [sequencerBytes_eq, substate_code, guardBytes_eq, lineBytes_eq, contextForms_eq, allowanceLeft_eq, tenths_eq, plan, staged, mode,
    List.append_assoc, List.cons_append, List.nil_append] <;> rfl

/-! ## READ DETECTORS (R89) -/

theorem rowByte_eq (rows : Vector Bool 24) (k : Nat) : State.rowByte rows k =
    byte ((List.range 8).map fun b => if rows.toList.getD (8 * k + b) false then 2 ^ b else 0).sum :=
  congrArg byte (bitsNat_map_range _ 8)

theorem holdCount_eq (D : Detectors) (st : Stage) :
    D.holdCount st = ((List.finRange 24).filter fun d => D.stuck[d] && D.map[d].carried == some st).length := by
  unfold Detectors.holdCount
  rw [List.countP_eq_length_filter]
  exact congrArg List.length (List.filter_congr fun d _ => by rw [carried_eq])

theorem gapBytes_eq (now : Nat) (g : GapTimer) : gapBytes now g = Layout.gap now g := by cases g <;> rfl

theorem fnBytes_eq (f : DetFn) : State.fnBytes f = [f.code, Layout.stage f.carried] := by
  rw [State.fnBytes, stageByte_eq, carried_eq]

theorem detectorData_eq (now : Nat) (D : Detectors) : State.detectorData now D = Layout.detectors now D := by
  have stuck : D.stuck.toList.map flagByte = (List.finRange 24).map fun d => Layout.mark D.stuck[d] := by
    rw [toList_eq_map_finRange, List.map_map]; rfl
  have gaps : D.gap.toList.flatMap (gapBytes now) = (List.finRange 8).flatMap fun st => Layout.gap now D.gap[st] := by
    rw [toList_eq_map_finRange, List.flatMap_map]
    exact List.flatMap_congr fun st _ => gapBytes_eq now _
  have fns : D.map.toList.flatMap State.fnBytes = (List.finRange 24).flatMap fun d => [D.map[d].code, Layout.stage D.map[d].carried] := by
    rw [toList_eq_map_finRange, List.flatMap_map]
    exact List.flatMap_congr fun d _ => fnBytes_eq _
  have flags : ((List.finRange 8).flatMap fun s => [flagByte D.flags[s], byte (D.holdCount s)]) = (List.finRange 8).flatMap fun st =>
      [Layout.mark D.flags[st], byte ((List.finRange 24).filter fun d => D.stuck[d] && D.map[d].carried == some st).length] :=
    List.flatMap_congr fun s _ => by rw [holdCount_eq]; rfl
  have rows : [State.rowByte D.rows 0, State.rowByte D.rows 1, State.rowByte D.rows 2] = (List.range 3).map fun k =>
      byte ((List.range 8).map fun b => if D.rows.toList.getD (8 * k + b) false then 2 ^ b else 0).sum := by
    rw [rowByte_eq, rowByte_eq, rowByte_eq]; rfl
  unfold State.detectorData Layout.detectors
  rw [← rows, ← flags, ← stuck, ← gaps, ← fns]
  simp only [List.append_assoc, List.cons_append, List.nil_append]
  rfl

/-! ## READ REQUESTS (R117) -/

theorem contextPos_eq (p : Plant) {k : SlotNo} {r : Request} (at' : p.req[k] = some r) : byte (p.contextPos k) =
    if p.jn[r.junction].stack.head?.any (fun c => c.slot == k) then 2
    else if p.jn[r.junction].stack.any (fun c => c.slot == k) then 1 else 0 := by
  unfold Plant.contextPos
  simp only [at']
  cases p.jn[r.junction].stack with
  | nil => rfl
  | cons c rest =>
    by_cases top : c.slot = k
    · simp only [top, if_true, List.head?_cons, Option.any_some, beq_self_eq_true]
      rfl
    · have apart : (c.slot == k) = false := beq_false_of_ne top
      simp only [top, if_false, List.head?_cons, Option.any_some, apart, Bool.false_eq_true, List.any_cons, Bool.false_or]
      split <;> rfl

theorem requestForm_eq (now : Nat) (p : Plant) {k : SlotNo} {r : Request} (at' : p.req[k] = some r) :
    State.requestForm now p k r = Layout.request now p k r := by
  unfold State.requestForm Layout.request
  cases state : r.state with
  | pending =>
    have active : r.isActive = false := by rw [Request.isActive, state]
    rw [active]
    rfl
  | active a =>
    have active : r.isActive = true := by rw [Request.isActive, state]
    have position := contextPos_eq p at'
    have cap : tenths (a.cap.map (left now)) = Layout.time (a.cap.map fun t => t - now) := tenths_eq _
    have service : State.serviceLeft now a.svcEnd = match a.svcEnd with
        | .due t => Layout.two (t - now)
        | .notStarted => [0xFF, 0xFE]
        | .untilCancelled => [0xFF, 0xFD] := by
      cases a.svcEnd <;> rfl
    simp only [active, position, cap, service, List.append_assoc, List.cons_append, List.nil_append] <;> rfl

theorem occupiedFrom_fst (p : Plant) (first : Nat) :
    (State.occupiedFrom p first).map Prod.fst = (Layout.occupied p).filter fun k => first ≤ k.val := by
  unfold State.occupiedFrom Layout.occupied
  rw [List.map_filterMap, List.filter_filter]
  rw [← List.filterMap_eq_filter]
  refine List.filterMap_congr fun k _ => ?_
  by_cases low : first ≤ k.val
  · cases held : p.req[k] <;> simp [low, Option.guard, held]
  · simp [low, Option.guard]

theorem occupiedFrom_at {p : Plant} {first : Nat} {x : SlotNo × Request} (mem : x ∈ State.occupiedFrom p first) :
    p.req[x.1] = some x.2 := by
  obtain ⟨k, -, found⟩ := List.mem_filterMap.mp mem
  split at found
  · obtain ⟨r, at', rfl⟩ := Option.map_eq_some_iff.mp found
    exact at'
  · exact nomatch found

theorem requestData_eq (now : Nat) (p : Plant) (first : Nat) : State.requestData now p first = Layout.requests now p first := by
  have count : p.requestCount = (Layout.occupied p).length := List.countP_eq_length_filter
  have shown : ((Layout.occupied p).filter fun k => first ≤ k.val).take 12 = ((State.occupiedFrom p first).take 12).map Prod.fst := by
    rw [List.map_take, occupiedFrom_fst]
  have forms : (((State.occupiedFrom p first).take 12).flatMap fun x => State.requestForm now p x.1 x.2) =
      (((State.occupiedFrom p first).take 12).map Prod.fst).flatMap fun k => (p.req[k].map (Layout.request now p k)).getD [] := by
    rw [List.flatMap_map]
    refine List.flatMap_congr fun x mem => ?_
    have at' := occupiedFrom_at (List.mem_of_mem_take mem)
    rw [at', requestForm_eq now p at']
    rfl
  unfold State.requestData Layout.requests
  dsimp only
  rw [shown, ← forms, count, List.length_map]
  rfl

/-! ## SCRIPT SPACE (R153) -/

theorem scriptData_eq (u : ScriptUnit) : State.scriptData u = Layout.script u := by
  have held : u.held = ((List.finRange 13).map fun q => u.queues[q].length).sum := by
    unfold ScriptUnit.held
    rw [toList_eq_map_finRange, List.map_map]
    rfl
  have clocks : u.notBefore.flatMap todBytes = u.notBefore.flatMap Layout.clock := List.flatMap_congr fun t _ => todBytes_eq t
  have queues : (u.queues.toList.flatMap fun q => be2 q.length ++ be2 (openSteps q)) = (List.finRange 13).flatMap fun q =>
      Layout.two u.queues[q].length ++ Layout.two (u.queues[q].reverse.takeWhile fun i => i != .endMark).length := by
    rw [toList_eq_map_finRange, List.flatMap_map]
    rfl
  unfold State.scriptData Layout.script ScriptUnit.freeSlots
  rw [held, clocks, queues, maskBytes_eq]
  simp only [List.append_assoc, List.cons_append, List.nil_append]
  rfl

/-! ## READ STATUS (R197) -/

theorem stagedMark_eq (p : Plant) (j : JIdx) : flagByte (State.stagedMark p j) = Layout.mark (decide (p.jn[j].stagedPlan ≠ none ∨
    (∃ n ∈ p.jn[j].chain, p.pool[n].staged ≠ none) ∨ p.jn[j].guard.staged ≠ none ∨ p.jn[j].det.stagedMap ≠ none)) := by
  refine congrArg flagByte (Bool.eq_iff_iff.mpr ?_)
  simp only [State.stagedMark, Plant.chainEntries, List.any_map, Bool.or_eq_true, List.any_eq_true, Function.comp_apply, decide_eq_true_eq,
    Option.isSome_iff_ne_none, or_assoc]

theorem hostTotal_eq (p : Plant) : p.hostTotal = ((List.finRange 12).map fun j =>
    (p.jn[j].chain.filter fun n => p.pool[n].origin = .host).length).sum :=
  congrArg List.sum (List.map_congr_left fun j _ => p.count_origin j .host)

theorem frames_eq (h : HostPort) : h.frames = h.queue.length + h.leaving.toList.length := by
  unfold HostPort.frames
  cases h.leaving <;> rfl

theorem directives_eq (h : HostPort) : h.directives = (h.intake.filter fun i => match i with
    | .directive _ _ _ => true
    | .busy _ _ => false).length :=
  List.countP_eq_length_filter.trans (congrArg List.length (List.filter_congr fun i _ => by cases i <;> rfl))

/-- R197: the status is that of the moment of the answer, behind the directive itself. -/
theorem statusData_eq (s : State) : s.popIntake.statusData = Layout.status s := by
  have marks : ((List.finRange 12).map fun j => flagByte (State.stagedMark s.plant j)) = (List.finRange 12).map fun j =>
      Layout.mark (decide (s.plant.jn[j].stagedPlan ≠ none ∨ (∃ n ∈ s.plant.jn[j].chain, s.plant.pool[n].staged ≠ none) ∨
        s.plant.jn[j].guard.staged ≠ none ∨ s.plant.jn[j].det.stagedMap ≠ none)) :=
    List.map_congr_left fun j _ => stagedMark_eq s.plant j
  have requests : s.plant.requestCount = (Layout.occupied s.plant).length := List.countP_eq_length_filter
  have frames : s.popIntake.host.frames = s.host.queue.length + s.host.leaving.toList.length := frames_eq s.popIntake.host
  have directives := directives_eq s.popIntake.host
  have busy : s.popIntake.host.busyMarks = s.host.intake.tail.length - s.popIntake.host.directives := rfl
  unfold State.statusData Layout.status
  dsimp only
  rw [frames, busy, directives, ← marks, ← requests, ← hostTotal_eq, maskBytes_eq, todBytes_eq]
  simp only [List.append_assoc, List.cons_append, List.nil_append] <;> rfl

/-! ## The directives -/

namespace State

variable (s : State) (j : JIdx)

theorem readChain_data {first : Nat} (low : first ≤ 15) :
    readChain [byte j.val, byte first] s = (s, .done (Layout.chain s.plant j first)) := by
  simp only [readChain, bodyNats_cons, bodyNats_nil, toNat_byte_val j (by decide), toNat_byte first (by omega), idx?_val,
    if_neg (Nat.not_lt.mpr low), chainData_eq]

theorem idx?_beyond {n k : Nat} (beyond : n ≤ k) : idx? n k = none := dif_neg (Nat.not_lt.mpr beyond)

theorem readChain_form {jb position : Byte} (out : 11 < jb.toNat ∨ 15 < position.toNat) :
    readChain [jb, position] s = refuse s .form := by
  simp only [readChain, bodyNats_cons, bodyNats_nil]
  rcases out with junction | first
  · rw [idx?_beyond junction]
  · cases idx? 12 jb.toNat with
    | none => rfl
    | some j => exact if_pos first

theorem onJunction_val (f : JIdx → State → State × Answer) : onJunction f [byte j.val] s = f j s := by
  simp only [onJunction, bodyNats_cons, bodyNats_nil, toNat_byte_val j (by decide), idx?_val]

theorem onJunction_form (f : JIdx → State → State × Answer) {jb : Byte} (out : 11 < jb.toNat) :
    onJunction f [jb] s = refuse s .form := by
  simp only [onJunction, bodyNats_cons, bodyNats_nil, idx?_beyond out]

theorem readRequests_data {first : Nat} (low : first ≤ 23) :
    readRequests [byte first] s = (s, .done (Layout.requests s.now s.plant first)) := by
  simp only [readRequests, bodyNats_cons, bodyNats_nil, toNat_byte first (by omega), if_neg (Nat.not_lt.mpr low), requestData_eq]

theorem readRequests_range {first : Nat} (out : 23 < first) (fits : first ≤ 255) : readRequests [byte first] s = refuse s .range := by
  simp only [readRequests, bodyNats_cons, bodyNats_nil, toNat_byte first (by omega), if_pos out]

end State

/-- Settles O32: the data that the model forms are those of the tables, and a reading owner gives back the state it was given. -/
theorem readsChangeNothing : Obligations.ReadsChangeNothing := by
  have answered {s : State} {tag code : Byte} {body : List Byte} (takes : s.Takes tag code body) {f : Handler} {a : Answer}
      (handled : f body s.popIntake = (s.popIntake, a)) : Host.Outcome.next (s.take code f) =
        (.next { s with host := s.host.replied tag code a.body } : Host.Outcome State Fault Refusal) :=
    congrArg Host.Outcome.next (takes.take_same f a handled)
  refine ⟨fun s tag j first => ⟨fun takes low => answered takes (s.popIntake.readChain_data j low),
    fun takes => answered takes (f := State.readJunction) (a := .done (Layout.junction s.now s.plant j)) ?junction,
    fun takes => answered takes (f := State.readDetectors) (a := .done (Layout.detectors s.now s.plant.jn[j].det)) ?detectors,
    fun takes low => answered takes (s.popIntake.readRequests_data low),
    fun takes => answered takes (f := State.scriptSpace) (a := .done (Layout.script s.script)) ?script,
    fun takes => answered takes (f := State.readStatus) (a := .done (Layout.status s)) ?status,
    fun jb position takes out => answered takes (s.popIntake.readChain_form out),
    fun jb out => ⟨fun takes => answered takes (s.popIntake.onJunction_form _ out), fun takes => answered takes (s.popIntake.onJunction_form _ out)⟩,
    fun takes out fits => answered takes (s.popIntake.readRequests_range out fits)⟩, ?codes⟩
  case junction => exact (s.popIntake.onJunction_val j _).trans (congrArg (fun d => (s.popIntake, Answer.done d)) (junctionData_eq s.now s.plant j))
  case detectors =>
    exact (s.popIntake.onJunction_val j _).trans (congrArg (fun d => (s.popIntake, Answer.done d)) (detectorData_eq s.now s.plant.jn[j].det))
  case script => exact congrArg (fun d => (s.popIntake, Answer.done d)) (scriptData_eq s.script)
  case status => exact congrArg (fun d => (s.popIntake, Answer.done d)) (statusData_eq s)
  case codes =>
    exact ⟨rfl, rfl, rfl, fun _ _ => rfl, rfl, rfl, rfl, rfl, rfl, rfl, rfl, rfl, fun _ => rfl, rfl, rfl, rfl, fun _ _ => rfl⟩

end Sys2Proof.Machine
end

section
/-! PROOFS. O17: the warm start (R21, R42). -/

namespace Sys2Proof.Machine

open Sys2Proof

namespace Plant

/-! ## The chains of a whole pool (R24) -/

/-- No entry stands twice in the chains. -/
structure ChainsApart (p : Plant) : Prop where
  once : ∀ i : JIdx, p.jn[i].chain.Nodup
  apart : ∀ i j : JIdx, i ≠ j → ∀ n ∈ p.jn[i].chain, n ∉ p.jn[j].chain

theorem PoolWhole.chainsApart {p : Plant} (whole : p.PoolWhole) : p.ChainsApart := by
  have nodup : p.entries.Nodup := whole.nodup_iff.mpr (List.nodup_finRange 128)
  have chains : ((List.finRange 12).flatMap fun i => p.jn[i].chain).Nodup := by
    rw [entries, toList_eq_map_finRange, List.flatMap_map] at nodup
    exact nodup.of_append_right
  obtain ⟨once, pairs⟩ := List.nodup_flatMap.mp chains
  refine ⟨fun i => once i (List.mem_finRange i), fun i j differ n left right => ?_⟩
  have symm : Std.Symm (Function.onFun List.Disjoint fun i : JIdx => p.jn[i].chain) := ⟨fun _ _ h => h.symm⟩
  exact pairs.forall (List.mem_finRange i) (List.mem_finRange j) differ left right

/-! ## Retiring the service entries of a chain (R28, R42) -/

variable {p : Plant} {j : JIdx}

theorem retire_member {n : EntryNo} (mem : n ∈ p.jn[j].chain) : (p.retire j n none).jn[j].chain = p.jn[j].chain.erase n ∧
    (p.retire j n none).free = p.free ++ [n] ∧ (p.retire j n none).pool = p.pool.set n Entry.clear := by
  have at' : (p.stopGapOf j n).jn[j].chain = p.jn[j].chain := by
    rw [stopGapOf_eq, upd_at]
    rfl
  have opened : p.retire j n none = (p.stopGapOf j n).release j n := rfl
  have member : n ∈ (p.stopGapOf j n).jn[j].chain := at'.symm ▸ mem
  rw [opened, release, if_pos member]
  refine ⟨?_, ?_, ?_⟩
  · refine (congrArg Junction.chain (upd_at (p.stopGapOf j n) j fun J => { J with
      chain := J.chain.erase n
      order := J.order.map fun o => if o.entry = n then { o with live := false } else o }) :).trans ?_
    exact congrArg (fun l => l.erase n) at'
  · rw [stopGapOf_eq]
    rfl
  · rw [stopGapOf_eq]
    rfl

theorem foldl_retire : ∀ (l : List EntryNo) (p : Plant), p.jn[j].chain.Nodup → l.Nodup → (∀ n ∈ l, n ∈ p.jn[j].chain) →
    (l.foldl (fun p n => p.retire j n none) p).jn[j].chain = p.jn[j].chain.filter (fun n => n ∉ l) ∧
      (l.foldl (fun p n => p.retire j n none) p).free = p.free ++ l ∧
      ∀ i : EntryNo, (l.foldl (fun p n => p.retire j n none) p).pool[i] = if i ∈ l then Entry.clear else p.pool[i]
  | [], p, _, _, _ => ⟨(List.filter_eq_self.mpr fun _ _ => by simp).symm, (List.append_nil _).symm, fun _ => rfl⟩
  | n :: l, p, once, distinct, within => by
    obtain ⟨new, distinct⟩ := List.nodup_cons.mp distinct
    obtain ⟨chain, free, pool⟩ := retire_member (within n List.mem_cons_self)
    have kept : (p.retire j n none).jn[j].chain = p.jn[j].chain.filter fun i => i ≠ n :=
      chain.trans ((once.erase_eq_filter n).trans (List.filter_congr fun i _ => Bool.eq_iff_iff.mpr (by simp)))
    obtain ⟨chain', free', pool'⟩ := foldl_retire l (p.retire j n none) (chain.symm ▸ once.erase n) distinct fun i mem => by
      rw [kept]
      exact List.mem_filter.mpr ⟨within i (List.mem_cons_of_mem n mem), decide_eq_true fun same => new (same ▸ mem)⟩
    refine ⟨?_, ?_, fun i => ?_⟩
    · refine chain'.trans ?_
      rw [kept, List.filter_filter]
      exact List.filter_congr fun i _ => by simp [Bool.and_comm]
    · refine free'.trans ?_
      rw [free, List.append_assoc]
      rfl
    · refine (pool' i).trans ?_
      rw [pool]
      by_cases here : i = n
      · subst here
        simp [new]
      · have off : (p.pool.set n Entry.clear)[i] = p.pool[i] := Vector.getElem_set_ne _ _ fun same => here (Fin.ext same.symm)
        rw [off]
        simp [here]

/-- R42: the service entries of a chain, in chain order. -/
def services (p : Plant) (j : JIdx) : List EntryNo := p.jn[j].chain.filter fun n => p.pool[n].origin = .service

/-- R42: the host entries of a chain, in chain order. -/
def hosts (p : Plant) (j : JIdx) : List EntryNo := p.jn[j].chain.filter fun n => p.pool[n].origin = .host

theorem mem_services {n : EntryNo} : n ∈ p.services j ↔ n ∈ p.jn[j].chain ∧ p.pool[n].origin = .service := by
  simp only [services, List.mem_filter, decide_eq_true_eq]

theorem mem_hosts {n : EntryNo} : n ∈ p.hosts j ↔ n ∈ p.jn[j].chain ∧ p.pool[n].origin = .host := by
  simp only [hosts, List.mem_filter, decide_eq_true_eq]

theorem origin_service_iff (x : Entry) : x.origin = .service ↔ x.origin ≠ .host := by
  cases x.origin <;> decide

/-- The service entries of a junction have been retired. -/
structure ServicesGone (p : Plant) (j : JIdx) (q : Plant) : Prop where
  chain : q.jn[j].chain = p.hosts j
  others : p.OthersSame q j
  free : q.free = p.free ++ p.services j
  pool : ∀ i : EntryNo, q.pool[i] = if i ∈ p.services j then Entry.clear else p.pool[i]

theorem retireServices_gone (p : Plant) (j : JIdx) (once : p.jn[j].chain.Nodup) : p.ServicesGone j (p.retireServices j) := by
  have list : (p.jn[j].chain.filter fun n => p.pool[n].origin == .service) = p.services j :=
    List.filter_congr fun n _ => by rw [beq_eq_decide]
  have made : p.retireServices j = (p.services j).foldl (fun p n => p.retire j n none) p := by rw [retireServices, list]
  obtain ⟨chain, free, pool⟩ := foldl_retire (p.services j) p once (once.filter _) fun n mem => (mem_services.mp mem).1
  have others := (p.retireServices_moves j).othersSame
  rw [made] at others ⊢
  refine ⟨chain.trans (List.filter_congr fun n mem => ?_), others, free, pool⟩
  rw [decide_eq_decide, mem_services, origin_service_iff]
  exact ⟨fun out => not_not.mp fun other => out ⟨mem, other⟩, fun host is => is.2 host⟩

/-! ## All junctions (R42) -/

/-- The service entries of some junctions have been retired. -/
structure AllServicesGone (p : Plant) (l : List JIdx) (q : Plant) : Prop where
  chain : ∀ j : JIdx, q.jn[j].chain = if j ∈ l then p.hosts j else p.jn[j].chain
  free : q.free = p.free ++ l.flatMap p.services
  cleared : ∀ j ∈ l, ∀ n ∈ p.services j, q.pool[n] = Entry.clear
  kept : ∀ n : EntryNo, (∀ j ∈ l, n ∉ p.services j) → q.pool[n] = p.pool[n]

theorem ServicesGone.chainsApart {p q : Plant} {j : JIdx} (gone : p.ServicesGone j q) (apart : p.ChainsApart) : q.ChainsApart := by
  have sub (i : JIdx) : q.jn[i].chain.Sublist p.jn[i].chain := by
    by_cases here : i = j
    · subst here
      rw [gone.chain]
      exact List.filter_sublist
    · rw [gone.others i here]
  exact ⟨fun i => (apart.once i).sublist (sub i), fun i k differ n left right => apart.apart i k differ n ((sub i).subset left) ((sub k).subset right)⟩

/-- What is retired of one chain does not change what the chains of the others hold. -/
theorem ServicesGone.others_lists {p q : Plant} {i j : JIdx} (gone : p.ServicesGone i q) (apart : p.ChainsApart) (differ : j ≠ i) :
    q.services j = p.services j ∧ q.hosts j = p.hosts j := by
  have entry (n : EntryNo) (mem : n ∈ p.jn[j].chain) : q.pool[n] = p.pool[n] :=
    (gone.pool n).trans (if_neg fun is => apart.apart j i differ n mem (mem_services.mp is).1)
  unfold services hosts
  rw [gone.others j differ]
  exact ⟨List.filter_congr fun n mem => by rw [entry n mem], List.filter_congr fun n mem => by rw [entry n mem]⟩

theorem foldl_retireServices : ∀ (l : List JIdx) (p : Plant), l.Nodup → p.ChainsApart →
    p.AllServicesGone l (l.foldl retireServices p)
  | [], p, _, _ => ⟨fun j => (if_neg List.not_mem_nil).symm, (List.append_nil _).symm, fun _ mem => (nomatch mem), fun _ _ => rfl⟩
  | i :: l, p, distinct, apart => by
    obtain ⟨new, distinct⟩ := List.nodup_cons.mp distinct
    have gone := p.retireServices_gone i (apart.once i)
    have rest := foldl_retireServices l (p.retireServices i) distinct (gone.chainsApart apart)
    have differs {j : JIdx} (mem : j ∈ l) : j ≠ i := fun same => new (same ▸ mem)
    have services {j : JIdx} (mem : j ∈ l) : (p.retireServices i).services j = p.services j := (gone.others_lists apart (differs mem)).1
    rw [List.foldl_cons]
    refine ⟨fun j => ?_, ?_, fun j mem n is => ?_, fun n out => ?_⟩
    · rw [rest.chain j]
      by_cases later : j ∈ l
      · rw [if_pos later, if_pos (List.mem_cons_of_mem i later), (gone.others_lists apart (differs later)).2]
      · rw [if_neg later]
        by_cases here : j = i
        · subst here
          rw [if_pos List.mem_cons_self, gone.chain]
        · rw [if_neg (by simp [here, later]), gone.others j here]
    · rw [rest.free, gone.free, List.flatMap_cons, List.append_assoc]
      exact congrArg (fun t => p.free ++ (p.services i ++ t)) (List.flatMap_congr fun j mem => services mem)
    · rcases List.mem_cons.mp mem with rfl | later
      · rw [rest.kept n fun k hk there => ?_, gone.pool n, if_pos is]
        rw [services hk] at there
        exact apart.apart k j (differs hk) n (mem_services.mp there).1 (mem_services.mp is).1
      · exact rest.cleared j later n (by rw [services later]; exact is)
    · rw [rest.kept n fun k hk there => out k (List.mem_cons_of_mem i hk) (by rw [← services hk]; exact there), gone.pool n,
        if_neg (out i List.mem_cons_self)]

/-! ## The host entries (R42) -/

theorem warmEntry_once (x : Entry) : warmEntry (warmEntry x) = warmEntry x := rfl

/-- R42: the entries of a list of chains over a warm start. -/
theorem foldl_warmEntries : ∀ (l : List JIdx) (p : Plant),
    l.foldl (fun p j => p.updEnts p.jn[j].chain warmEntry) p =
      { p with pool := (l.foldl (fun p j => p.updEnts p.jn[j].chain warmEntry) p).pool } ∧
    ∀ n : EntryNo, (l.foldl (fun p j => p.updEnts p.jn[j].chain warmEntry) p).pool[n] =
      if ∃ j ∈ l, n ∈ p.jn[j].chain then warmEntry p.pool[n] else p.pool[n]
  | [], p => ⟨rfl, fun n => (if_neg fun ⟨_, mem, _⟩ => nomatch mem).symm⟩
  | i :: l, p => by
    obtain ⟨frame, pool⟩ := foldl_warmEntries l (p.updEnts p.jn[i].chain warmEntry)
    have first := updEnts_frame p.jn[i].chain warmEntry p
    have chain (j : JIdx) : (p.updEnts p.jn[i].chain warmEntry).jn[j].chain = p.jn[j].chain := by rw [first]
    rw [List.foldl_cons]
    refine ⟨frame.trans ?_, fun n => ?_⟩
    · rw [first]
    · rw [pool n, updEnts_pool warmEntry_once]
      simp only [chain]
      by_cases here : n ∈ p.jn[i].chain
      · rw [if_pos here, warmEntry_once, ite_self, if_pos ⟨i, List.mem_cons_self, here⟩]
      · rw [if_neg here]
        exact if_congr ⟨fun ⟨j, mem, is⟩ => ⟨j, List.mem_cons_of_mem i mem, is⟩, fun ⟨j, mem, is⟩ =>
          (List.mem_cons.mp mem).elim (fun same => absurd (same ▸ is) here) fun mem => ⟨j, mem, is⟩⟩ rfl rfl

end Plant

end Sys2Proof.Machine
end

section
/-! PROOFS. O17: the values after a warm start. -/

namespace Sys2Proof.Machine

open Sys2Proof

theorem Plant.anyPresent_iff (p : Plant) : p.anyPresent = true ↔ ∃ j : JIdx, p.jn[j].state ≠ .absent := by
  unfold Plant.anyPresent
  simp only [List.any_eq_true, List.mem_finRange, true_and, Plant.present_iff]

/-- R42: a warm start as a pass over the service entries, one over the host entries, and one over the junctions. -/
theorem warmPlant_eq (c : Nat) (p : Plant) : ∃ q r : Plant, (List.finRange 12).foldl Plant.retireServices p = q ∧
    (List.finRange 12).foldl (fun p j => p.updEnts p.jn[j].chain warmEntry) q = r ∧
    warmPlant c p = { r with jn := r.jn.map (warmJunction c), req := Vector.replicate 24 none, arrivals := [] } :=
  ⟨_, _, rfl, rfl, rfl⟩

/-- R42: what the passes over the entries leave of a junction. -/
theorem warmPlant_retireFrame (p : Plant) (j : JIdx) :
    Plant.RetireFrame p.jn[j] ((List.finRange 12).foldl Plant.retireServices p).jn[j] := by
  refine foldl_keeps (S := fun p q : Plant => Plant.RetireFrame p.jn[j] q.jn[j]) (fun _ => rfl) Plant.RetireFrame.trans _ (fun q i _ => ?_) p
  by_cases here : j = i
  · subst here
    exact q.retireServices_retireFrame j
  · rw [(q.retireServices_moves i).othersSame j here]
    exact rfl

/-- R21: a junction over a warm start. -/
structure Junction.WarmOf (c : Nat) (J K : Junction) : Prop where
  plan : K.plan = J.plan
  stagedPlan : K.stagedPlan = none
  order : K.order = none
  green : K.green = none
  level : K.level = 0
  stack : K.stack = []
  force : K.force = false
  endPassed : K.endPassed = false
  callReached : K.callReached = false
  completions : K.completions = []
  cycleCount : K.cycleCount = 0
  tally : K.tally = .clear
  carried : K.carried = none
  allowance : K.allowance = none
  det : K.det = Detectors.coldWith J.det.map
  guard : K.guard = { settings := J.guard.settings, staged := none, probe := .off, result := .absent }
  up : K.line.up = false
  lastTag : K.line.lastTag = J.line.lastTag
  mode : K.line.mode = none
  absent : J.state = .absent → K.state = .absent
  present : J.state ≠ .absent → K.state = .loc .notRunning ∧ K.span = cycleTenths c J.plan.mult ∧
    K.p = regularPos 0 J.plan.offset (cycleTenths c J.plan.mult)

theorem warmJunction_warmOf (c : Nat) (J : Junction) : J.WarmOf c (warmJunction c J) := by
  let C : Junction := { (Plant.leaveValues J) with
    completions := [], overflow := false, endDone := false, callDone := false, stagedPlan := none, det := Detectors.coldWith J.det.map
    guard := { Guard.cold with settings := J.guard.settings }, line := warmLine J.line, cycleCount := 0 }
  have made : warmJunction c J = if J.state.present then { C with state := .loc .notRunning }.beginCycle c 0 else C := rfl
  by_cases present : J.state.present = true
  · rw [made, if_pos present]
    exact ⟨rfl, rfl, rfl, rfl, rfl, rfl, rfl, rfl, rfl, rfl, rfl, rfl, rfl, rfl, rfl, rfl, rfl, rfl, rfl,
      fun absent => absurd absent ((Plant.present_iff _).mp present), fun _ => ⟨rfl, rfl, rfl⟩⟩
  · rw [made, if_neg present]
    exact ⟨rfl, rfl, rfl, rfl, rfl, rfl, rfl, rfl, rfl, rfl, rfl, rfl, rfl, rfl, rfl, rfl, rfl, rfl, rfl,
      fun absent => absent, fun is => absurd ((Plant.present_iff _).mpr is) present⟩

theorem Junction.WarmOf.of_frame {c : Nat} {I J K : Junction} (frame : Plant.RetireFrame I J) (warm : J.WarmOf c K) : I.WarmOf c K := by
  obtain ⟨chain, order, gap, rfl⟩ : ∃ chain order gap, J = { I with chain := chain, order := order, det := { I.det with gap := gap } } :=
    ⟨_, _, _, frame⟩
  obtain ⟨h1, h2, h3, h4, h5, h6, h7, h8, h9, h10, h11, h12, h13, h14, h15, h16, h17, h18, h19, h20, h21⟩ := warm
  exact ⟨h1, h2, h3, h4, h5, h6, h7, h8, h9, h10, h11, h12, h13, h14, h15, h16, h17, h18, h19, h20, h21⟩

theorem warmPlant_at (c : Nat) (p : Plant) (j : JIdx) : p.jn[j].WarmOf c (warmPlant c p).jn[j] := by
  have frame := warmPlant_retireFrame p j
  obtain ⟨q, r, retired, warmed, made⟩ := warmPlant_eq c p
  have kept := (Plant.foldl_warmEntries (List.finRange 12) q).1
  rw [warmed] at kept
  have same : r.jn[j] = q.jn[j] := by rw [kept]
  have at' : (warmPlant c p).jn[j] = warmJunction c q.jn[j] := by
    rw [made, ← same]
    exact Vector.getElem_map ..
  rw [retired] at frame
  rw [at']
  exact (warmJunction_warmOf c q.jn[j]).of_frame frame

/-- R42: the pool of a warm start. -/
theorem warmPlant_entries (c : Nat) {p : Plant} (whole : p.PoolWhole) : (∀ j : JIdx, (warmPlant c p).jn[j].chain = p.hosts j) ∧
    (∀ j : JIdx, ∀ n ∈ p.hosts j, (warmPlant c p).pool[n] = warmEntry p.pool[n]) ∧
    (∀ j : JIdx, ∀ n ∈ p.services j, (warmPlant c p).pool[n] = Entry.clear) ∧
    (warmPlant c p).free = p.free ++ (List.finRange 12).flatMap p.services := by
  have gone := Plant.foldl_retireServices (List.finRange 12) p (List.nodup_finRange 12) whole.chainsApart
  obtain ⟨q, r, retired, warmed, made⟩ := warmPlant_eq c p
  obtain ⟨kept, pool⟩ := Plant.foldl_warmEntries (List.finRange 12) q
  rw [warmed] at kept pool
  rw [retired] at gone
  have chainQ (j : JIdx) : q.jn[j].chain = p.hosts j := (gone.chain j).trans (if_pos (List.mem_finRange j))
  have apart {i j : JIdx} {n : EntryNo} (host : n ∈ p.hosts i) : n ∉ p.services j := fun service =>
    (Plant.origin_service_iff _).mp (Plant.mem_services.mp service).2 (Plant.mem_hosts.mp host).2
  have chain (j : JIdx) : (warmPlant c p).jn[j].chain = p.hosts j := by
    have at' : (warmPlant c p).jn[j] = warmJunction c r.jn[j] := by rw [made]; exact Vector.getElem_map ..
    rw [at', State.Kept.warmJunction_chain, ← chainQ j, kept]
  have poolR : (warmPlant c p).pool = r.pool := by rw [made]
  have freeR : (warmPlant c p).free = q.free := by rw [made, kept]
  refine ⟨chain, fun j n host => ?_, fun j n service => ?_, freeR.trans gone.free⟩
  · rw [poolR, pool n, if_pos ⟨j, List.mem_finRange j, by rw [chainQ j]; exact host⟩, gone.kept n fun i _ => apart host]
  · rw [poolR, pool n, if_neg, gone.cleared j (List.mem_finRange j) n service]
    rintro ⟨i, -, host⟩
    exact apart (by rw [← chainQ i]; exact host) service

/-- Settles O17: the passes of a warm start over the entries leave of a junction all that R21 keeps. -/
theorem warmStartValues : Obligations.WarmStartValues := by
  have starts {s : State} (left : s.host.restart = .answerLeft) : exec .warmStart s = .next s.warm :=
    congrArg Host.Outcome.next (if_pos left)
  refine ⟨fun s left => ⟨s.warm, starts left, ?_, fun j => ?_, fun k => ?_, rfl, rfl, rfl, rfl, rfl, rfl, (by decide : ReportBlock.cold.held = 0)⟩,
    fun s left whole => ⟨s.warm, starts left, ?_⟩⟩
  · have corridor : (if s.plant.anyPresent then CorridorState.ready else .dark) =
        if ∃ j : JIdx, s.plant.jn[j].state ≠ .absent then .ready else .dark := if_congr s.plant.anyPresent_iff rfl rfl
    exact congrArg (fun c => ({ s.tb with corridor := c, m := 0, staged := none, cause := .warm } : Timebase)) corridor
  · have warm := warmPlant_at s.tb.c s.plant j
    exact ⟨warm.plan, warm.stagedPlan, warm.order, warm.green, warm.level, warm.stack, warm.force, warm.endPassed, warm.callReached,
      warm.completions, warm.cycleCount, warm.tally, warm.carried, warm.allowance, warm.det, warm.guard, warm.up, warm.lastTag, warm.mode,
      warm.absent, warm.present⟩
  · exact Vector.getElem_replicate ..
  · obtain ⟨chain, hosts, services, free⟩ := warmPlant_entries s.tb.c whole
    exact ⟨chain, fun j n mem => ⟨fun host => hosts j n (Plant.mem_hosts.mpr ⟨mem, host⟩),
      fun service => services j n (Plant.mem_services.mpr ⟨mem, service⟩)⟩, free⟩

end Sys2Proof.Machine
end

section
/-! SUPPORT. The steps of a local cycle start (R66): the record, what is staged, and the points that a change brings at or behind p. -/

namespace Sys2Proof.Machine

open Sys2Proof

namespace State

/-! ## The record (R66, step 1) -/

/-- R32, R63, R68: the counts and the tally of a junction at its local cycle start. -/
def recounted (J : Junction) (green : Bool) : Junction :=
  newTally { J with completions := [], overflow := false, cycleCount := (J.cycleCount + 1) % 256 } green

/-- R66, R194: an IN_STEP junction offers the record of the cycle ended. -/
theorem recordStep_inStep (s : State) {j : JIdx} (inStep : s.plant.jn[j].state = .inStep) : ∃ ns, s.recordStep j = { s with
    report := s.report.store (s.formRecord j)
    plant := { s.plant.upd j fun J => recounted J (J.state == .inStep && (s.plant.bandEntry? j).any fun x => x.status == .serving) with
      raised := s.plant.raised ++ ns } } := by
  have stored : ∃ ms, s.storeRecord (s.formRecord j) = { s with
      report := s.report.store (s.formRecord j), plant := { s.plant with raised := s.plant.raised ++ ms } } := by
    unfold storeRecord
    by_cases full : s.report.held = 23 ∧ (s.report.store (s.formRecord j)).held = 24
    · exact ⟨[.recordCount 24], if_pos full⟩
    · exact ⟨[], by rw [List.append_nil]; exact if_neg full⟩
  obtain ⟨ms, stored⟩ := stored
  unfold recordStep
  simp only [inStep, if_true, stored]
  split
  · exact ⟨ms ++ [.completions j s.plant.jn[j].overflow s.plant.jn[j].completions], by rw [← List.append_assoc]; rfl⟩
  · exact ⟨ms, rfl⟩

/-! ## The staged junction set (R18) -/

theorem stagedPlanGood_iff (c : Nat) (v : Plan) : stagedPlanGood c v = true ↔ v.offset * v.mult < c ∧ ¬(v.mult = 2 ∧ c % 2 = 1) := by
  simp only [stagedPlanGood, Bool.and_eq_true, Bool.not_eq_true', Bool.eq_false_iff, ne_eq, beq_iff_eq, decide_eq_true_eq]
  exact and_comm

theorem realignedSpan_half (m offset len p : Nat) : len ≤ 2 * realignedSpan m offset len p := by
  unfold realignedSpan
  dsimp only
  split
  · assumption
  · omega

/-- A plan is in force, and what was staged is not any more. -/
structure PlanTaken (p q : Plant) (j : JIdx) (c : Nat) (w : Plan) : Prop where
  junction : ∃ sp D, q.jn[j] = { p.jn[j] with plan := w, stagedPlan := none, span := sp, det := D } ∧
    D.map = p.jn[j].det.map ∧ D.stagedMap = p.jn[j].det.stagedMap ∧
    (p.jn[j].span = cycleTenths c p.jn[j].plan.mult → cycleTenths c w.mult ≤ 2 * sp)
  others : p.OthersSame q j
  pool : q.pool = p.pool
  free : q.free = p.free
  req : q.req = p.req

/-- The maps of a junction, in force and staged, are as they were. -/
structure MapsKept (j : JIdx) (p q : Plant) : Prop where
  map : q.jn[j].det.map = p.jn[j].det.map
  staged : q.jn[j].det.stagedMap = p.jn[j].det.stagedMap

theorem MapsKept.refl {j : JIdx} (p : Plant) : MapsKept j p p := ⟨rfl, rfl⟩

theorem MapsKept.trans {j : JIdx} {p q r : Plant} (h : MapsKept j p q) (g : MapsKept j q r) : MapsKept j p r :=
  ⟨g.map.trans h.map, g.staged.trans h.staged⟩

theorem ceaseStuck_mapsKept (p : Plant) (j : JIdx) (r : ClearReason) (d : DetIdx) : MapsKept j p (p.ceaseStuck j r d) := by
  have det := (Plant.ceaseStuck_det p j r d).1
  exact ⟨(congrArg Detectors.map det :), (congrArg Detectors.stagedMap det :)⟩

theorem becomeStuck_mapsKept (p : Plant) (j : JIdx) (d : DetIdx) : MapsKept j p (p.becomeStuck j d) := by
  unfold Plant.becomeStuck
  have first := Plant.updDet_at p j fun D => { D with stuck := D.stuck.set d true }
  dsimp only
  split
  · have second := Plant.updDet_at (p.updDet j fun D => { D with stuck := D.stuck.set d true }) j fun D =>
      D.setFlags (p.jn[j].det.map[d]).stage?.toList
    rw [first] at second
    exact ⟨(congrArg Detectors.map second :), (congrArg Detectors.stagedMap second :)⟩
  · exact ⟨(congrArg Detectors.map first :), (congrArg Detectors.stagedMap first :)⟩

theorem applyStuckLimit_mapsKept (e : Env) (p : Plant) (j : JIdx) : MapsKept j p (p.applyStuckLimit e j) := by
  unfold Plant.applyStuckLimit
  split
  · exact foldl_keeps MapsKept.refl MapsKept.trans _ (fun q d _ => ceaseStuck_mapsKept q j .limit d) p
  · refine foldl_keeps MapsKept.refl MapsKept.trans _ (fun q d _ => ?_) p
    split
    · exact becomeStuck_mapsKept q j d
    · exact .refl q

/-- R18, R15: a staged set that fits is in force, another is discarded. -/
theorem applyStagedPlan_taken (e : Env) (p : Plant) (j : JIdx) {w : Plan}
    (taken : ∀ v, p.jn[j].stagedPlan = some v → (stagedPlanGood e.c v = true → w = v) ∧ (stagedPlanGood e.c v ≠ true → w = p.jn[j].plan))
    (kept : p.jn[j].stagedPlan = none → w = p.jn[j].plan) : PlanTaken p (applyStagedPlan e p j) j e.c w := by
  unfold applyStagedPlan
  cases staged : p.jn[j].stagedPlan with
  | none =>
    rw [kept staged]
    exact ⟨⟨p.jn[j].span, p.jn[j].det, (congrArg (fun v => { p.jn[j] with stagedPlan := v }) staged :), rfl, rfl,
      fun whole => by rw [whole]; omega⟩, fun _ _ => rfl, rfl, rfl, rfl⟩
  | some v =>
    dsimp only
    by_cases good : stagedPlanGood e.c v = true
    · rw [if_pos good, (taken v staged).1 good]
      let f : Junction → Junction := fun J => if v.offset = J.plan.offset ∧ v.mult = J.plan.mult then
        { J with plan := v, stagedPlan := none } else ({ J with plan := v, stagedPlan := none } : Junction).realign e.c e.m
      have spans : ∃ sp, f p.jn[j] = { p.jn[j] with plan := v, stagedPlan := none, span := sp } ∧
          (p.jn[j].span = cycleTenths e.c p.jn[j].plan.mult → cycleTenths e.c v.mult ≤ 2 * sp) := by
        by_cases same : v.offset = p.jn[j].plan.offset ∧ v.mult = p.jn[j].plan.mult
        · exact ⟨p.jn[j].span, if_pos same, fun whole => by rw [whole, same.2]; omega⟩
        · exact ⟨_, if_neg same, fun _ => realignedSpan_half _ _ _ _⟩
      obtain ⟨sp, junction, half⟩ := spans
      have only := Plant.applyStuckLimit_detOnly e (p.upd j f) j
      have maps := applyStuckLimit_mapsKept e (p.upd j f) j
      have at' : (p.upd j f).jn[j] = _ := (Plant.upd_at p j f).trans junction
      refine ⟨⟨sp, ((p.upd j f).applyStuckLimit e j).jn[j].det, ?_, ?_, ?_, half⟩, (Plant.othersSame_upd p j f).trans only.others,
        only.pool, only.free, only.req⟩
      · exact only.junction.trans (by rw [at'])
      · exact maps.map.trans (by rw [at'])
      · exact maps.staged.trans (by rw [at'])
    · rw [if_neg good, (taken v staged).2 good]
      refine ⟨⟨p.jn[j].span, p.jn[j].det, ?_, rfl, rfl, fun whole => by rw [whole]; omega⟩,
        Plant.othersSame_upd p j fun J => { J with stagedPlan := none }, rfl, rfl, rfl⟩
      exact Plant.upd_at p j fun J => { J with stagedPlan := none }

/-! ## Staged amendments (R39) -/

theorem amendStaged_once (x : Entry) : amendStaged (amendStaged x) = amendStaged x := by
  unfold amendStaged
  cases staged : x.staged with
  | none => simp only [staged]
  | some a => rfl

theorem amendStaged_none {x : Entry} (none : x.staged = .none) : amendStaged x = x := by simp only [amendStaged, none]

theorem amendStaged_kept (x : Entry) : (amendStaged x).role = x.role ∧ (amendStaged x).status = x.status ∧
    (amendStaged x).origin = x.origin ∧ (amendStaged x).elapsed = x.elapsed := by
  unfold amendStaged
  split <;> exact ⟨rfl, rfl, rfl, rfl⟩

/-- R39: what an amendment makes of an entry. -/
theorem amendStaged_eq {x y : Entry} (amended : ∀ a, x.staged = some a → y = { x with
      split := a.split.getD x.split, minimum := a.minimum.getD x.minimum, passage := a.passage.getD x.passage
      demand := a.demand.getD x.demand, notify := a.notify.getD x.notify, allowance := a.allowance.getD x.allowance
      retries := a.allowance.getD x.retries, staged := none }) (same : x.staged = none → y = x) : amendStaged x = y := by
  cases staged : x.staged with
  | none => rw [amendStaged_none staged, same staged]
  | some a => simp only [amended a staged, amendStaged, staged]

theorem updEnts_same {g : Entry → Entry} (l : List EntryNo) (p : Plant) (once : ∀ x, g (g x) = g x) (same : ∀ i ∈ l, g p.pool[i] = p.pool[i]) :
    p.updEnts l g = p := by
  have pool : (p.updEnts l g).pool = p.pool := by
    refine Vector.ext fun i low => ?_
    have at' := Plant.updEnts_pool once ⟨i, low⟩ l p
    refine at'.trans ?_
    split
    · rename_i mem; exact same _ mem
    · rfl
  rw [Plant.updEnts_frame, pool]

end State

end Sys2Proof.Machine
end

section
/-! SUPPORT. What is staged takes effect at the local cycle start (R66, steps 2 to 4). -/

namespace Sys2Proof.Machine

open Sys2Proof

namespace Plant

/-- R78: a map applied in coordination changes the detector unit and the probe of its junction. -/
theorem applyMap_coordinated (e : Env) (p : Plant) (j : JIdx) (m : Vector DetFn 24) (coordinated : p.jn[j].state.coordinated = true) :
    ∃ q, p.applyMap e j m = q ∧ (∃ D x, q.jn[j] = { p.jn[j] with det := D, guard := { p.jn[j].guard with probe := x } } ∧ D.map = m ∧
      D.stagedMap = none) ∧ p.OthersSame q j ∧ q.pool = p.pool ∧ q.free = p.free ∧ q.req = p.req := by
  have remapped := remap_remapped e j p.jn[j].det.map (List.finRange 24) (List.nodup_finRange 24)
    (p.updDet j fun D => { D with map := m, stagedMap := none })
  have opened : p.applyMap e j m = ((if ((List.finRange 24).foldl (remapOne e j p.jn[j].det.map)
      (p.updDet j fun D => { D with map := m, stagedMap := none })).jn[j].state.coordinated then
        ((List.finRange 24).foldl (remapOne e j p.jn[j].det.map) (p.updDet j fun D => { D with map := m, stagedMap := none })).updDet j
          fun D => D.setFlags (D.heldStages.filter fun s => !p.jn[j].det.heldStages.contains s)
      else (List.finRange 24).foldl (remapOne e j p.jn[j].det.map) (p.updDet j fun D => { D with map := m, stagedMap := none }))).upd j
        (remappedProbe p.jn[j].det.map m) := rfl
  have set := updDet_at p j fun D => { D with map := m, stagedMap := none }
  have only := (updDet_detOnly p j fun D => { D with map := m, stagedMap := none }).trans remapped.only
  have frame := remapped.frame
  generalize (List.finRange 24).foldl (remapOne e j p.jn[j].det.map) (p.updDet j fun D => { D with map := m, stagedMap := none }) = r
    at opened only frame
  rw [set] at frame
  rw [only.state, if_pos coordinated] at opened
  let f (D : Detectors) : Detectors := D.setFlags (D.heldStages.filter fun s => !p.jn[j].det.heldStages.contains s)
  let u := r.updDet j f
  have later : DetOnly j p u := only.trans (updDet_detOnly r j f)
  have det : u.jn[j].det = f r.jn[j].det := updDet_at r j f
  have at' : (u.upd j (remappedProbe p.jn[j].det.map m)).jn[j] = { u.jn[j] with
      guard := { u.jn[j].guard with probe := (remappedProbe p.jn[j].det.map m u.jn[j]).guard.probe } } :=
    (upd_at u j _).trans (remappedProbe_eq ..)
  refine ⟨_, opened, ⟨u.jn[j].det, (remappedProbe p.jn[j].det.map m u.jn[j]).guard.probe, ?_, ?_, ?_⟩,
    later.others.trans (othersSame_upd u j (remappedProbe p.jn[j].det.map m)), later.pool, later.free, later.req⟩
  · refine at'.trans ?_
    have guard : u.jn[j].guard = p.jn[j].guard := (congrArg Junction.guard later.junction :)
    rw [guard]
    exact congrArg (fun J : Junction => ({ J with
      guard := { p.jn[j].guard with probe := (remappedProbe p.jn[j].det.map m u.jn[j]).guard.probe } } : Junction)) later.junction
  · rw [det]
    exact (congrArg Detectors.map frame :)
  · rw [det]
    exact (congrArg Detectors.stagedMap frame :)

end Plant

namespace State

/-- R139: applied guard settings. -/
theorem applySettings_eq (J : Junction) (g : GuardSettings) : ∃ x, J.applySettings g = { J with
    guard := { settings := g, staged := none, probe := x, result := J.guard.result } } := by
  unfold Junction.applySettings Junction.probeOff
  dsimp only
  split
  · split
    · exact ⟨.off, rfl⟩
    · exact ⟨J.guard.probe, rfl⟩
  · exact ⟨J.guard.probe, rfl⟩

/-- What was staged at a junction is in force. -/
structure StagedTaken (p q : Plant) (j : JIdx) (c : Nat) (w : Plan) : Prop where
  junction : ∃ sp D x, q.jn[j] = { p.jn[j] with
      plan := w, stagedPlan := none, span := sp, det := D
      guard := { settings := p.jn[j].guard.staged.getD p.jn[j].guard.settings, staged := none, probe := x
                 result := p.jn[j].guard.result } } ∧
    D.map = p.jn[j].det.stagedMap.getD p.jn[j].det.map ∧ D.stagedMap = none ∧
    (p.jn[j].span = cycleTenths c p.jn[j].plan.mult → cycleTenths c w.mult ≤ 2 * sp)
  others : p.OthersSame q j
  pool : ∀ i : EntryNo, q.pool[i] = if i ∈ p.jn[j].chain then amendStaged p.pool[i] else p.pool[i]
  req : q.req = p.req

/-- R139: the staged guard settings of a junction, applied. -/
def settingsTaken (j : JIdx) (p : Plant) : Plant :=
  match p.jn[j].guard.staged with
  | some g => p.upd j fun J => J.applySettings g
  | none => p

/-- R78: the staged map of a junction, applied. -/
def mapTaken (e : Env) (j : JIdx) (p : Plant) : Plant :=
  match p.jn[j].det.stagedMap with
  | some map => p.applyMap e j map
  | none => p

theorem stagedStep_eq (e : Env) (p : Plant) (j : JIdx) : stagedStep e p j =
    mapTaken e j (settingsTaken j ((applyStagedPlan e p j).updEnts (applyStagedPlan e p j).jn[j].chain amendStaged)) := by
  unfold stagedStep mapTaken settingsTaken Plant.updEnts
  rfl

/-- R39, R139: the amendments and the guard settings, a plan being in force. -/
theorem settingsTaken_taken {p q : Plant} {j : JIdx} {c : Nat} {w : Plan} (taken : PlanTaken p q j c w) :
    ∃ r, settingsTaken j (q.updEnts q.jn[j].chain amendStaged) = r ∧
    (∃ sp D x, r.jn[j] = { p.jn[j] with
      plan := w, stagedPlan := none, span := sp, det := D
      guard := { settings := p.jn[j].guard.staged.getD p.jn[j].guard.settings, staged := none, probe := x
                 result := p.jn[j].guard.result } } ∧
    D.map = p.jn[j].det.map ∧ D.stagedMap = p.jn[j].det.stagedMap ∧
    (p.jn[j].span = cycleTenths c p.jn[j].plan.mult → cycleTenths c w.mult ≤ 2 * sp)) ∧
    p.OthersSame r j ∧ (∀ i : EntryNo, r.pool[i] = if i ∈ p.jn[j].chain then amendStaged p.pool[i] else p.pool[i]) ∧ r.req = p.req := by
  obtain ⟨sp, D, at', map, staged, half⟩ := taken.junction
  have frame := Plant.updEnts_frame q.jn[j].chain amendStaged q
  have pool (i : EntryNo) : (q.updEnts q.jn[j].chain amendStaged).pool[i] =
      if i ∈ p.jn[j].chain then amendStaged p.pool[i] else p.pool[i] := by
    rw [Plant.updEnts_pool amendStaged_once, taken.pool, at']
  generalize q.updEnts q.jn[j].chain amendStaged = u at frame pool ⊢
  have junction : u.jn[j] = { p.jn[j] with plan := w, stagedPlan := none, span := sp, det := D } := by rw [frame]; exact at'
  have others : p.OthersSame u j := by rw [frame]; exact taken.others
  have req : u.req = p.req := by rw [frame]; exact taken.req
  have guard : u.jn[j].guard = p.jn[j].guard := (congrArg Junction.guard junction :)
  unfold settingsTaken
  rw [guard]
  cases settings : p.jn[j].guard.staged with
  | none =>
    refine ⟨u, rfl, ⟨sp, D, p.jn[j].guard.probe, ?_, map, staged, half⟩, others, pool, req⟩
    rw [junction]
    exact (congrArg (fun v => ({ p.jn[j] with plan := w, stagedPlan := none, span := sp, det := D
                                              guard := { p.jn[j].guard with staged := v } } : Junction)) settings :)
  | some g =>
    obtain ⟨x, applied⟩ := applySettings_eq u.jn[j] g
    refine ⟨_, rfl, ⟨sp, D, x, ?_, map, staged, half⟩, others.trans (Plant.othersSame_upd u j fun J => J.applySettings g), pool, req⟩
    refine (Plant.upd_at u j fun J => J.applySettings g).trans (applied.trans ?_)
    rw [junction]
    rfl

/-- R66, step 2. -/
theorem stagedStep_taken (e : Env) (p : Plant) (j : JIdx) {w : Plan} (coordinated : p.jn[j].state.coordinated = true)
    (taken : ∀ v, p.jn[j].stagedPlan = some v → (stagedPlanGood e.c v = true → w = v) ∧ (stagedPlanGood e.c v ≠ true → w = p.jn[j].plan))
    (kept : p.jn[j].stagedPlan = none → w = p.jn[j].plan) : ∃ q, stagedStep e p j = q ∧ StagedTaken p q j e.c w := by
  obtain ⟨r, made, ⟨sp, D, x, at', map, staged, half⟩, others, pool, req⟩ := settingsTaken_taken (applyStagedPlan_taken e p j taken kept)
  have det : r.jn[j].det = D := (congrArg Junction.det at' :)
  rw [stagedStep_eq, made, mapTaken, det, staged]
  cases stagedMap : p.jn[j].det.stagedMap with
  | none =>
    exact ⟨r, rfl, ⟨sp, D, x, at', by rw [map, stagedMap]; rfl, by rw [staged, stagedMap], half⟩, others, pool, req⟩
  | some m =>
    obtain ⟨t, applied, ⟨D', x', atT, mapT, stagedT⟩, othersT, poolT, -, reqT⟩ := Plant.applyMap_coordinated e r j m (by rw [at']; exact coordinated)
    refine ⟨t, applied, ⟨sp, D', x', atT.trans (by rw [at']), by rw [mapT, stagedMap]; rfl, stagedT, half⟩, others.trans othersT,
      fun i => by rw [poolT]; exact pool i, reqT.trans req⟩

/-! ## Between steps 3 and 4 -/

theorem plainTop?_some {p : Plant} {j : JIdx} {n : EntryNo} {rest : List EntryNo} (chain : p.jn[j].chain = n :: rest) {x : Entry}
    (top : p.plainTop? j = some x) : x = p.pool[n] := by
  unfold Plant.plainTop? at top
  dsimp only at top
  split at top
  · rw [Plant.topEntry?_cons chain] at top
    exact (Option.some.inj (Option.filter_eq_some_iff.mp top).1).symm
  · exact nomatch top

/-- R66: with the BAND entry at the top and the band call point ahead nothing waits for the change. -/
theorem reconcile_still (e : Env) {p : Plant} {j : JIdx} {n : EntryNo} {rest : List EntryNo} (chain : p.jn[j].chain = n :: rest)
    (band : p.pool[n].role = .band) (moved : p.jn[j].moved = none) (passed : p.jn[j].endPassed = false)
    (ahead : p.jn[j].p + 10 * p.jn[j].plan.a < p.jn[j].span) : reconcile e p j = p := by
  have role {x : Entry} (top : p.plainTop? j = some x) : x.role = .band := by rw [plainTop?_some chain top, band]
  have split : p.splitExpiry e j = p := by
    unfold Plant.splitExpiry
    cases top : p.plainTop? j with
    | none => rfl
    | some x =>
      have off : Plant.splitDone p.jn[j] x = false := by
        unfold Plant.splitDone
        rw [role top]
        rfl
      simp only [off, Bool.and_false, Bool.false_eq_true, if_false]
  have bandEnd : p.takeBandEnd e j = p := by
    unfold Plant.takeBandEnd
    cases top : p.plainTop? j with
    | none => rfl
    | some x => exact if_neg fun is => Bool.false_ne_true (passed.symm.trans is.2.2)
  have minimum : p.minimumExpiry e j = p := by
    unfold Plant.minimumExpiry
    cases top : p.plainTop? j with
    | none => rfl
    | some x =>
      simp only [role top, moved, Option.isSome_none, Bool.false_and, Bool.false_eq_true, if_false, bandEnd, ite_self]
  have call : p.bandCallPoint e j = p := by
    have off : p.jn[j].callDue = false := decide_eq_false (Nat.not_le.mpr ahead)
    unfold Plant.bandCallPoint
    rw [off, Bool.and_false]
    rfl
  rw [reconcile, split, minimum, call]

end State

end Sys2Proof.Machine
end

section
/-! PROOFS. O27: the local cycle start (R66). -/

namespace Sys2Proof.Machine

open Sys2Proof

namespace State

/-- R66: an IN_STEP junction at its local cycle start, its record offered, before what is staged takes effect. -/
def begunAt (J : Junction) (c : Nat) (green : Bool) : Junction := recounted (startCycle J c) green

/-- The state in which what is staged takes effect. -/
def cycleBegun (s : State) (j : JIdx) (ns : List Notice) : State :=
  { s with
    report := s.report.store { junction := j, count := s.plant.jn[j].cycleCount, tod := s.tb.tod, tally := s.plant.jn[j].tally, gap := false }
    plant := { s.plant.upd j fun J => begunAt J s.tb.c true with raised := s.plant.raised ++ ns } }

theorem cycleBegun_at (s : State) (j : JIdx) (ns : List Notice) : (s.cycleBegun j ns).plant.jn[j] = begunAt s.plant.jn[j] s.tb.c true :=
  Plant.upd_at s.plant j fun J => begunAt J s.tb.c true

theorem cycleBegun_others (s : State) (j : JIdx) (ns : List Notice) : s.plant.OthersSame (s.cycleBegun j ns).plant j :=
  Plant.othersSame_upd s.plant j fun J => begunAt J s.tb.c true

section Starts

variable {s : State} {j : JIdx} {n : EntryNo} {rest : List EntryNo} (inStep : s.plant.jn[j].state = .inStep)
  (chain : s.plant.jn[j].chain = n :: rest) (band : s.plant.pool[n].role = .band) (serving : s.plant.pool[n].status = .serving)

include inStep chain band serving

/-- R66, step 1. -/
theorem recordStep_begun : ∃ ns, ({ s with plant := s.plant.upd j fun J => startCycle J s.tb.c } : State).recordStep j = s.cycleBegun j ns := by
  let u : State := { s with plant := s.plant.upd j fun J => startCycle J s.tb.c }
  have at' : u.plant.jn[j] = startCycle s.plant.jn[j] s.tb.c := Plant.upd_at s.plant j fun J => startCycle J s.tb.c
  have stateU : u.plant.jn[j].state = .inStep := by rw [at']; exact inStep
  obtain ⟨ns, made⟩ := u.recordStep_inStep stateU
  have record : u.formRecord j = { junction := j, count := s.plant.jn[j].cycleCount, tod := s.tb.tod, tally := s.plant.jn[j].tally
                                   gap := false } := by
    unfold formRecord
    rw [at']
    rfl
  have green : ((u.plant.bandEntry? j).any fun x => x.status == .serving) = true := by
    rw [Plant.bandEntry?_eq (p := u.plant) (ahead := []) (by rw [at']; exact chain) (fun _ mem => (nomatch mem)) band]
    exact beq_iff_eq.mpr serving
  have plant : (u.plant.upd j fun J => recounted J (J.state == .inStep && (u.plant.bandEntry? j).any fun x => x.status == .serving)) =
      s.plant.upd j fun J => begunAt J s.tb.c true := by
    rw [green]
    refine (Plant.upd_upd s.plant j (fun J => startCycle J s.tb.c) fun J => recounted J (J.state == .inStep && true)).trans (Plant.upd_congr s.plant j ?_)
    have same : ((startCycle s.plant.jn[j] s.tb.c).state == .inStep) = true := beq_iff_eq.mpr inStep
    simp only [same, Bool.and_true]
    rfl
  refine ⟨ns, made.trans ?_⟩
  rw [record, plant]
  rfl

/-- R66: the command, in its steps. -/
theorem exec_localCycleStart (atEnd : s.plant.jn[j].p = s.plant.jn[j].span) (idle : s.script.running[junctionQueue j] = false) :
    ∃ ns, exec (.localCycleStart j) s = .next ({ s.cycleBegun j ns with plant :=
      (planCheck s.env (reconcile s.env (stagedStep s.env (s.cycleBegun j ns).plant j) j) j).attempts s.env j } : State).finish := by
  obtain ⟨ns, made⟩ := recordStep_begun inStep chain band serving
  refine ⟨ns, congrArg (fun t : State => Host.Outcome.next t.finish) ?_⟩
  unfold localCycleStart
  dsimp only
  rw [if_pos ⟨by rw [inStep]; rfl, Nat.le_of_eq atEnd.symm⟩, made,
    countDown_idle ((s.cycleBegun j ns).onPlant fun e p => stagedStep e p j) (junctionQueue j) idle]
  rfl

end Starts

/-- R66, step 2, with nothing staged. -/
theorem stagedStep_none (e : Env) {p : Plant} {j : JIdx} (plan : p.jn[j].stagedPlan = none) (entries : ∀ i ∈ p.jn[j].chain, p.pool[i].staged = none)
    (guard : p.jn[j].guard.staged = none) (map : p.jn[j].det.stagedMap = none) : stagedStep e p j = p := by
  have first : applyStagedPlan e p j = p := by simp only [applyStagedPlan, plan]
  have amended : p.updEnts p.jn[j].chain amendStaged = p :=
    updEnts_same _ p amendStaged_once fun i mem => amendStaged_none (entries i mem)
  rw [stagedStep_eq, first, amended]
  simp only [settingsTaken, guard, mapTaken, map]

/-- R67: the plan check of a coordinated junction. -/
theorem planCheck_fits {e : Env} {p : Plant} {j : JIdx} (coordinated : p.jn[j].state.coordinated = true) (fits : p.planFeasible j e.c = true) :
    planCheck e p j = p := by
  unfold planCheck
  rw [if_pos coordinated, if_pos fits]

theorem planCheck_unfit {e : Env} {p : Plant} {j : JIdx} (coordinated : p.jn[j].state.coordinated = true) (unfit : ¬p.planFeasible j e.c = true) :
    planCheck e p j = (p.leave j).enterSolo j .plan := by
  unfold planCheck
  rw [if_pos coordinated, if_neg unfit]

end State

theorem unserved_sumSame (x : Entry) : SumSame x (Plant.unserved x) := by
  unfold Plant.unserved
  split <;> exact ⟨rfl, rfl, rfl, rfl⟩

theorem unserved_eq (x : Entry) : ∃ st el, Plant.unserved x = { x with status := st, elapsed := el } := by
  unfold Plant.unserved
  split
  · exact ⟨.waiting, none, rfl⟩
  · exact ⟨x.status, x.elapsed, rfl⟩

/-- R67, R71: a junction of host entries that the plan check has taken to SOLO PLAN keeps its chain. -/
theorem Plant.leave_enterSolo_hosts (p : Plant) (j : JIdx) (c : SoloCause) (hosts : ∀ i ∈ p.jn[j].chain, p.pool[i].origin = .host) :
    ((p.leave j).enterSolo j c).jn[j].chain = p.jn[j].chain ∧
    (∀ i ∈ p.jn[j].chain, ((p.leave j).enterSolo j c).pool[i] = Plant.unserved p.pool[i]) ∧
    ((p.leave j).enterSolo j c).chainEntries j = (p.chainEntries j).map Plant.unserved := by
  have chain := p.leave_chain_hosts j hosts
  have pool := p.leave_pool_hosts j hosts
  generalize p.leave j = l at chain pool ⊢
  have kept := l.enterSolo_restated j c
  have entry (i : EntryNo) (mem : i ∈ p.jn[j].chain) : (l.enterSolo j c).pool[i] = Plant.unserved p.pool[i] := by
    rw [kept.pool, pool i, if_pos mem]
  refine ⟨kept.chain.trans chain, entry, ?_⟩
  unfold Plant.chainEntries
  rw [kept.chain, chain, List.map_map]
  exact List.map_congr_left entry

namespace State

/-- R66: what the start of a cycle leaves to the steps behind it. -/
theorem cycleBegun_next {s : State} {j : JIdx} (atEnd : s.plant.jn[j].p = s.plant.jn[j].span) (ns : List Notice) :
    (s.cycleBegun j ns).plant.jn[j].p = 0 ∧
    (s.cycleBegun j ns).plant.jn[j].span = cycleTenths s.tb.c s.plant.jn[j].plan.mult ∧
    (s.cycleBegun j ns).plant.jn[j].moved = none ∧ (s.cycleBegun j ns).plant.jn[j].endPassed = false := by
  rw [cycleBegun_at]
  exact ⟨by show s.plant.jn[j].p - s.plant.jn[j].span = 0; omega, rfl, rfl, rfl⟩

/-- R63, R66, R68: the junction in its new cycle. -/
theorem begunAt_eq {J : Junction} (atEnd : J.p = J.span) (c : Nat) : begunAt J c true = { J with
    p := 0, span := cycleTenths c J.plan.mult, cycleCount := (J.cycleCount + 1) % 256
    endPassed := false, callReached := false, endDone := false, callDone := false, moved := none, force := false
    dwell := false, completions := [], overflow := false, carried := none
    tally := { bandError := some (J.carried.getD 0), bandGreen := 0, served := [], accepts := 0
               scriptStep := false, probe := .absent } } := by
  have zero : J.p - J.span = 0 := by omega
  have error : J.carried.or (some 0) = some (J.carried.getD 0) := by cases J.carried <;> rfl
  unfold begunAt recounted newTally startCycle
  rw [zero]
  simp only [if_true, error]
  rfl

theorem store_below (r : ReportBlock) (c : CycleRecord) (room : r.held < 47) :
    r.store c = { r with slots := r.slots.set r.wr (some { c with gap := r.gap }), wr := r.wr + 1, gap := false } := if_pos room

/-- R66: nothing is staged, and the plan is feasible. -/
theorem localCycleStart_plain {s : State} {j : JIdx} {n : EntryNo} {rest : List EntryNo}
    (atEnd : s.plant.jn[j].p = s.plant.jn[j].span) (inStep : s.plant.jn[j].state = .inStep)
    (chain : s.plant.jn[j].chain = n :: rest) (band : s.plant.pool[n].role = .band)
    (plan : s.plant.jn[j].stagedPlan = none) (entries : ∀ i ∈ s.plant.jn[j].chain, s.plant.pool[i].staged = none)
    (guard : s.plant.jn[j].guard.staged = none) (map : s.plant.jn[j].det.stagedMap = none) (none : s.plant.NoCandidate j)
    (feasible : s.plant.planFeasible j s.tb.c = true)
    (ahead : 10 * s.plant.jn[j].plan.a < cycleTenths s.tb.c s.plant.jn[j].plan.mult) (ns : List Notice) :
    (planCheck s.env (reconcile s.env (stagedStep s.env (s.cycleBegun j ns).plant j) j) j).attempts s.env j = (s.cycleBegun j ns).plant := by
  have at' := s.cycleBegun_at j ns
  obtain ⟨p, span, moved, passed⟩ := cycleBegun_next atEnd ns
  have pool : (s.cycleBegun j ns).plant.pool = s.plant.pool := rfl
  have req : (s.cycleBegun j ns).plant.req = s.plant.req := rfl
  generalize (s.cycleBegun j ns).plant = q at at' p span moved passed pool req ⊢
  have chainQ : q.jn[j].chain = s.plant.jn[j].chain := (congrArg Junction.chain at' :)
  have planQ : q.jn[j].plan = s.plant.jn[j].plan := (congrArg Junction.plan at' :)
  have stateQ : q.jn[j].state.coordinated = true := by rw [at']; exact (congrArg JState.coordinated inStep :)
  have fits : q.planFeasible j s.env.c = true := by
    rw [Plant.planFeasible, Plant.chainEntries, chainQ, planQ, pool]
    exact feasible
  rw [stagedStep_none s.env (by rw [at']; exact plan) (fun i mem => by rw [pool]; exact entries i (chainQ ▸ mem))
      (by rw [at']; exact guard) (by rw [at']; exact map),
    reconcile_still s.env (chainQ.trans chain) (by rw [pool]; exact band) moved passed (by rw [p, span, planQ]; omega),
    planCheck_fits stateQ fits]
  exact Plant.NoCandidate.attempts (none.of_req req) s.env

/-- A junction whose staged values are in force, and whose plan has been checked (R67). -/
structure Checked (p q t : Plant) (j : JIdx) (c : Nat) : Prop where
  others : p.OthersSame t j
  values : t.jn[j].plan = q.jn[j].plan ∧ t.jn[j].stagedPlan = q.jn[j].stagedPlan ∧ t.jn[j].chain = q.jn[j].chain ∧
    t.jn[j].guard.settings = q.jn[j].guard.settings ∧ t.jn[j].guard.staged = q.jn[j].guard.staged ∧
    t.jn[j].det.map = q.jn[j].det.map ∧ t.jn[j].det.stagedMap = q.jn[j].det.stagedMap
  entries : ∀ i ∈ q.jn[j].chain, ∃ st el, t.pool[i] = { q.pool[i] with status := st, elapsed := el }
  sum : ∀ a, feasibilitySum (t.chainEntries j) a = feasibilitySum (q.chainEntries j) a
  fits : q.planFeasible j c = true → t = q
  unfit : ¬q.planFeasible j c = true → t.jn[j].state = .solo .plan ∧ ∀ k : SlotNo, ∀ r, t.req[k] = some r → r.junction ≠ j

theorem planCheck_checked {e : Env} {p q : Plant} {j : JIdx} (coordinated : q.jn[j].state.coordinated = true) (none : q.NoCandidate j)
    (hosts : ∀ i ∈ q.jn[j].chain, q.pool[i].origin = .host) (others : p.OthersSame q j) :
    Checked p q ((planCheck e q j).attempts e j) j e.c := by
  by_cases fits : q.planFeasible j e.c = true
  · rw [planCheck_fits coordinated fits, none.attempts e]
    exact ⟨others, ⟨rfl, rfl, rfl, rfl, rfl, rfl, rfl⟩, fun i _ => ⟨q.pool[i].status, q.pool[i].elapsed, rfl⟩, fun _ => rfl, fun _ => rfl,
      fun unfit => absurd fits unfit⟩
  · rw [planCheck_unfit coordinated fits]
    have left := q.leave_enterSolo j .plan
    obtain ⟨chain, entry, entries⟩ := q.leave_enterSolo_hosts j .plan hosts
    generalize (q.leave j).enterSolo j .plan = t at left chain entry entries ⊢
    obtain ⟨l, at'⟩ := left.junction
    have still : t.attempts e j = t := Plant.attempts_of_not_inStep e t j (by rw [left.cleared.1]; exact fun is => nomatch is)
    rw [still]
    refine ⟨others.trans left.others, ⟨(congrArg Junction.plan at' :), (congrArg Junction.stagedPlan at' :), chain,
      (congrArg (fun J => J.guard.settings) at' :), (congrArg (fun J => J.guard.staged) at' :), (congrArg (fun J => J.det.map) at' :),
      (congrArg (fun J => J.det.stagedMap) at' :)⟩, fun i mem => ?_, fun a => ?_, fun is => absurd is fits,
      fun _ => ⟨left.cleared.1, left.requests⟩⟩
    · rw [entry i mem]
      exact unserved_eq _
    · rw [entries]
      exact feasibilitySum_map unserved_sumSame _ a

end State

end Sys2Proof.Machine
end

section
/-! PROOFS. O27: the values after a local cycle start. -/

namespace Sys2Proof.Machine

open Sys2Proof

namespace State

section Plain

variable {s : State} {j : JIdx} {n : EntryNo} {rest : List EntryNo}

/-- R66: the command with nothing staged. -/
theorem exec_localCycleStart_plain (inStep : s.plant.jn[j].state = .inStep) (atEnd : s.plant.jn[j].p = s.plant.jn[j].span)
    (chain : s.plant.jn[j].chain = n :: rest) (band : s.plant.pool[n].role = .band) (serving : s.plant.pool[n].status = .serving)
    (plan : s.plant.jn[j].stagedPlan = none) (entries : ∀ i ∈ s.plant.jn[j].chain, s.plant.pool[i].staged = none)
    (guard : s.plant.jn[j].guard.staged = none) (map : s.plant.jn[j].det.stagedMap = none)
    (idle : s.script.running[junctionQueue j] = false) (none : s.plant.NoCandidate j)
    (feasible : s.plant.planFeasible j s.tb.c = true)
    (ahead : 10 * s.plant.jn[j].plan.a < cycleTenths s.tb.c s.plant.jn[j].plan.mult) :
    ∃ ns, exec (.localCycleStart j) s = .next (s.cycleBegun j ns).finish := by
  obtain ⟨ns, made⟩ := exec_localCycleStart inStep chain band serving atEnd idle
  rw [localCycleStart_plain atEnd inStep chain band plan entries guard map none feasible ahead ns] at made
  exact ⟨ns, made⟩

end Plain

/-- R66, R67: the command with values staged. -/
theorem exec_localCycleStart_staged {s : State} {j : JIdx} {n : EntryNo} {rest : List EntryNo} {w : Plan}
    (inStep : s.plant.jn[j].state = .inStep) (atEnd : s.plant.jn[j].p = s.plant.jn[j].span)
    (chain : s.plant.jn[j].chain = n :: rest) (band : s.plant.pool[n].role = .band) (serving : s.plant.pool[n].status = .serving)
    (hosts : ∀ i ∈ s.plant.jn[j].chain, s.plant.pool[i].origin = .host)
    (idle : s.script.running[junctionQueue j] = false) (none : s.plant.NoCandidate j)
    (taken : ∀ v, s.plant.jn[j].stagedPlan = some v →
      (stagedPlanGood s.tb.c v = true → w = v) ∧ (stagedPlanGood s.tb.c v ≠ true → w = s.plant.jn[j].plan))
    (kept : s.plant.jn[j].stagedPlan = .none → w = s.plant.jn[j].plan) (ahead : 20 * w.a < cycleTenths s.tb.c w.mult) :
    ∃ ns q t, exec (.localCycleStart j) s = .next ({ s.cycleBegun j ns with plant := t } : State).finish ∧
      StagedTaken (s.cycleBegun j ns).plant q j s.tb.c w ∧ q.jn[j].state = .inStep ∧ Checked s.plant q t j s.tb.c := by
  obtain ⟨ns, made⟩ := exec_localCycleStart inStep chain band serving atEnd idle
  have at' := s.cycleBegun_at j ns
  have others := s.cycleBegun_others j ns
  obtain ⟨p, span, moved, passed⟩ := cycleBegun_next atEnd ns
  have pool : (s.cycleBegun j ns).plant.pool = s.plant.pool := rfl
  have req : (s.cycleBegun j ns).plant.req = s.plant.req := rfl
  refine ⟨ns, ?_⟩
  generalize (s.cycleBegun j ns).plant = u at made at' others p span moved passed pool req ⊢
  obtain ⟨q, steps, staged⟩ := stagedStep_taken s.env u j (w := w) (by rw [at']; exact (congrArg JState.coordinated inStep :))
    (by rw [at']; exact taken) (by rw [at']; exact kept)
  obtain ⟨sp, D, x, atQ, -, -, half⟩ := staged.junction
  have longer : cycleTenths s.tb.c w.mult ≤ 2 * sp := half (by rw [span, at']; rfl)
  have stateQ : q.jn[j].state = .inStep := by rw [atQ, at']; exact inStep
  have chainQ : q.jn[j].chain = n :: rest := by rw [atQ, at']; exact chain
  have roleQ : q.pool[n].role = .band := by
    rw [staged.pool, pool]
    split
    · rw [(amendStaged_kept _).1, band]
    · exact band
  have hostsQ (i : EntryNo) (mem : i ∈ q.jn[j].chain) : q.pool[i].origin = .host := by
    have origin : s.plant.pool[i].origin = .host := hosts i (by rw [chain, ← chainQ]; exact mem)
    rw [staged.pool, pool]
    split
    · rw [(amendStaged_kept _).2.2.1, origin]
    · exact origin
  have still : reconcile s.env q j = q := by
    refine reconcile_still s.env chainQ roleQ (by rw [atQ]; exact moved) (by rw [atQ]; exact passed) ?_
    rw [atQ]
    show u.jn[j].p + 10 * w.a < sp
    omega
  rw [steps, still] at made
  exact ⟨q, _, made, staged, stateQ, planCheck_checked (by rw [stateQ]; rfl) (none.of_req (staged.req.trans req)) hostsQ
    (others.trans staged.others)⟩

end State

/-- Settles O27: with the BAND entry at the top nothing stands between what takes effect and the plan check. -/
theorem cycleStartRecordsAndRestarts : Obligations.CycleStartRecordsAndRestarts := by
  refine ⟨fun s j n rest inStep atEnd _ chain band serving plan entries guard map idle none _ feasible ahead room => ?_,
    fun s j n rest inStep atEnd _ chain band serving hosts idle none => ?_⟩
  · obtain ⟨ns, made⟩ := State.exec_localCycleStart_plain inStep atEnd chain band serving plan entries guard map idle none feasible ahead
    have frame := (s.cycleBegun j ns).finish_eventFrame
    have plant := (s.cycleBegun j ns).finish_plant
    have at' := s.cycleBegun_at j ns
    rw [State.begunAt_eq atEnd] at at'
    have store : (s.cycleBegun j ns).report = _ := State.store_below s.report
      { junction := j, count := s.plant.jn[j].cycleCount, tod := s.tb.tod, tally := s.plant.jn[j].tally, gap := false } room
    refine ⟨_, made, frame.tb, frame.now, frame.script, frame.wr.trans (congrArg ReportBlock.wr store :),
      frame.rd.trans (congrArg ReportBlock.rd store :), frame.gap.trans (congrArg ReportBlock.gap store :),
      frame.slots.trans (congrArg ReportBlock.slots store :), (congrArg (fun p : Plant => p.jn[j]) plant).trans at', fun i hi => ?_,
      (congrArg Plant.pool plant :), (congrArg Plant.free plant :), (congrArg Plant.req plant :)⟩
    exact (congrArg (fun p : Plant => p.jn[i]) plant).trans (s.cycleBegun_others j ns i hi)
  · intro fits w taken kept ahead
    have good (v : Plan) : State.stagedPlanGood s.tb.c v = true ↔ fits v := State.stagedPlanGood_iff s.tb.c v
    obtain ⟨ns, q, t, made, staged, stateQ, checked⟩ := State.exec_localCycleStart_staged inStep atEnd chain band serving hosts idle none
      (fun v is => ⟨fun g => (taken v is).1 ((good v).mp g), fun g => (taken v is).2 fun f => g ((good v).mpr f)⟩) kept ahead
    let u : State := { s.cycleBegun j ns with plant := t }
    have frame := u.finish_eventFrame
    have plant : u.finish.plant = { t with raised := [] } := u.finish_plant
    have at' := s.cycleBegun_at j ns
    obtain ⟨sp, D, x, atQ, map, stagedMap, -⟩ := staged.junction
    obtain ⟨planT, stagedT, chainT, settingsT, guardT, mapT, stagedMapT⟩ := checked.values
    have chainQ : q.jn[j].chain = s.plant.jn[j].chain := by rw [atQ, at']; rfl
    have planQ : q.jn[j].plan = w := by rw [atQ]
    have atT : u.finish.plant.jn[j] = t.jn[j] := (congrArg (fun p : Plant => p.jn[j]) plant :)
    have poolT (i : EntryNo) : u.finish.plant.pool[i] = t.pool[i] := (congrArg (fun p : Plant => p.pool[i]) plant :)
    have fits_iff : q.planFeasible j s.tb.c = true ↔ feasibilitySum (u.finish.plant.chainEntries j) w.a * w.mult ≤ s.tb.c := by
      have sum : feasibilitySum (u.finish.plant.chainEntries j) w.a = feasibilitySum (q.chainEntries j) w.a := by
        rw [plant]
        exact checked.sum w.a
      rw [Plant.planFeasible_iff, planQ, sum]
    refine ⟨u.finish, made, frame.tb, frame.script, ?_⟩
    rw [atT]
    refine ⟨planT.trans planQ, stagedT.trans (by rw [atQ]), chainT.trans chainQ, fun i mem y amended same => ?_,
      settingsT.trans (by rw [atQ, at']; rfl), guardT.trans (by rw [atQ]), mapT.trans ?_, stagedMapT.trans (by rw [atQ]; exact stagedMap),
      fun sum => ?_, fun sum => ?_, fun i hi => (congrArg (fun p : Plant => p.jn[i]) plant).trans (checked.others i hi)⟩
    · obtain ⟨st, el, entry⟩ := checked.entries i (chainQ ▸ mem)
      have chainU : i ∈ (s.cycleBegun j ns).plant.jn[j].chain := by rw [at']; exact mem
      rw [poolT, entry, staged.pool, if_pos chainU]
      exact ⟨st, el, by rw [show State.amendStaged (s.cycleBegun j ns).plant.pool[i] = y from State.amendStaged_eq amended same]⟩
    · rw [atQ]
      exact map.trans (by rw [at']; rfl)
    · obtain rfl := checked.fits (fits_iff.mpr sum)
      refine ⟨stateQ, ?_⟩
      rw [poolT, staged.pool]
      split
      · exact (State.amendStaged_kept _).2.1.trans serving
      · exact serving
    · obtain ⟨solo, requests⟩ := checked.unfit fun is => absurd (fits_iff.mp is) (Nat.not_le.mpr sum)
      exact ⟨solo, fun k r found => requests k r (by rw [plant] at found; exact found)⟩

end Sys2Proof.Machine
end

section
/-! SUPPORT. Counting down and the reading of an item (R156, R163, R164). -/

namespace Sys2Proof.Machine

open Sys2Proof

theorem ScriptUnit.isRunning_iff (u : ScriptUnit) : u.isRunning = true ↔ ∃ q : QueueNo, u.running[q] = true := by
  unfold ScriptUnit.isRunning
  rw [toList_eq_map_finRange]
  simp only [List.any_map, List.any_eq_true, List.mem_finRange, true_and, Function.comp_apply, id_eq]

namespace State

/-- R164: the notice that the end of a queue's part of the group raises. -/
def finishes (s : State) (q : QueueNo) : List Notice :=
  if ∃ r : QueueNo, r ≠ q ∧ s.script.running[r] = true then [] else [.finished s.tb.tod]

/-- R164: a queue's part of the group has ended. -/
theorem finishCheck_ended (s : State) {u : ScriptUnit} {q : QueueNo} (ended : u.running = s.script.running.set q false) :
    ({ s with script := u } : State).finishCheck = { s with
      script := u, plant := { s.plant with raised := s.plant.raised ++ s.finishes q } } := by
  have running : u.isRunning = true ↔ ∃ r : QueueNo, r ≠ q ∧ s.script.running[r] = true := by
    rw [u.isRunning_iff, ended]
    constructor
    · rintro ⟨r, is⟩
      by_cases here : r = q
      · subst here
        exact nomatch (Vector.getElem_set_self (xs := s.script.running) (hi := r.isLt)).symm.trans is
      · exact ⟨r, here, (Vector.getElem_set_ne q.isLt r.isLt fun same => here (Fin.ext same.symm)).symm.trans is⟩
    · rintro ⟨r, apart, is⟩
      exact ⟨r, (Vector.getElem_set_ne q.isLt r.isLt fun same => apart (Fin.ext same.symm)).trans is⟩
  unfold finishCheck finishes
  by_cases more : ∃ r : QueueNo, r ≠ q ∧ s.script.running[r] = true
  · rw [if_pos more, List.append_nil]
    exact if_pos (running.mpr more)
  · rw [if_neg more]
    exact if_neg fun is => more (running.mp is)

/-! ## A step is tried (R158, R159) -/

theorem tryStep_junction (s : State) (j : JIdx) (bs : List Block) : s.tryStep (junctionQueue j) bs = s.tryJunction j bs := by
  have place : idx? 12 (junctionQueue j).val = some j := idx?_val j
  unfold tryStep
  simp only [place]

theorem tryStep_master (s : State) (bs : List Block) : s.tryStep masterQueue bs = s.tryMaster bs := rfl

/-- A trial reads nothing of the script unit and leaves it as it is. -/
theorem tryStep_script (s : State) (u : ScriptUnit) (q : QueueNo) (bs : List Block) :
    ({ s with script := u } : State).tryStep q bs = ({ (s.tryStep q bs).1 with script := u }, (s.tryStep q bs).2) := by
  unfold tryStep
  cases idx? 12 q.val with
  | some j =>
    dsimp only [tryJunction]
    cases junctionFault s.plant s.tb.c j bs <;> rfl
  | none =>
    dsimp only [tryMaster, masterFails?]
    cases (if (masterTrial bs (s.tb.c, s.tb.dir)).1 = s.tb.c then none
      else s.plant.firstFailing fun j => (masterFault s.plant (masterTrial bs (s.tb.c, s.tb.dir)).1 j).isSome) <;> rfl

theorem tryStep_keeps_script (s : State) (q : QueueNo) (bs : List Block) : (s.tryStep q bs).1.script = s.script :=
  congrArg (fun r => r.1.script) (s.tryStep_script s.script q bs)

/-- R158, R159: a step that fails changes nothing. -/
theorem tryStep_fault {s : State} {q : QueueNo} {bs : List Block} {f : Reason × Option JIdx} (fault : (s.tryStep q bs).2 = some f) :
    (s.tryStep q bs).1 = s := by
  unfold tryStep at *
  cases place : idx? 12 q.val with
  | some j =>
    simp only [place, tryJunction] at fault ⊢
    cases found : junctionFault s.plant s.tb.c j bs with
    | some r => rfl
    | none => simp only [found] at fault; exact nomatch fault
  | none =>
    simp only [place, tryMaster] at fault ⊢
    cases found : s.masterFails? (masterTrial bs (s.tb.c, s.tb.dir)).1 with
    | some j => rfl
    | none => simp only [found] at fault; exact nomatch fault

/-! ## The next item (R156) -/

section Reads

variable {s : State} {q : QueueNo} {rest : List Item}

theorem readItem_empty (none : s.script.queues[q] = []) : s.readItem q = s := by simp only [readItem, none]

theorem readItem_endMark (mark : s.script.queues[q] = .endMark :: rest) : s.readItem q = { s with
    script := { s.script with
      queues := s.script.queues.set q rest, running := s.script.running.set q false, hold := s.script.hold.set q 0 }
    plant := { s.plant with raised := s.plant.raised ++ s.finishes q } } := by
  simp only [readItem, mark]
  exact s.finishCheck_ended rfl

/-- The script unit once a step has been taken from its queue. -/
def stepTaken (s : State) (q : QueueNo) (rest : List Item) : ScriptUnit :=
  { s.script with queues := s.script.queues.set q rest, place := s.script.place.set q (s.script.place[q] + 1) }

/-- R156, R163: what the outcome of a trial makes of its queue. -/
def stepOutcome (q : QueueNo) (place hold : Nat) (r : State × Option (Reason × Option JIdx)) : State :=
  match r.2 with
  | none => { r.1 with script := { r.1.script with hold := r.1.script.hold.set q hold } }
  | some f => r.1.scriptFaulted q place f.1 f.2

theorem readItem_step {hold : Nat} {bs : List Block} (step : s.script.queues[q] = .step hold bs :: rest) : s.readItem q =
    stepOutcome q s.script.place[q] hold ({ (s.tryStep q bs).1 with script := s.stepTaken q rest }, (s.tryStep q bs).2) := by
  rw [← s.tryStep_script (s.stepTaken q rest) q bs]
  simp only [readItem, step]
  rfl

theorem readItem_applies {hold : Nat} {bs : List Block} (step : s.script.queues[q] = .step hold bs :: rest)
    (good : (s.tryStep q bs).2 = none) : s.readItem q = { (s.tryStep q bs).1 with
      script := { s.stepTaken q rest with hold := s.script.hold.set q hold } } := by
  rw [readItem_step step, good]
  rfl

theorem readItem_faults {hold : Nat} {bs : List Block} {r : Reason} {j : Option JIdx} (step : s.script.queues[q] = .step hold bs :: rest)
    (fault : (s.tryStep q bs).2 = some (r, j)) : s.readItem q = { s with
      script := { s.stepTaken q (dropGroup rest) with running := s.script.running.set q false, hold := s.script.hold.set q 0 }
      plant := { s.plant with raised := s.plant.raised ++ .scriptFault q s.script.place[q] r j :: s.finishes q } } := by
  have opened : s.readItem q = (({ s with script := s.stepTaken q rest } : State)).scriptFaulted q s.script.place[q] r j := by
    rw [readItem_step step, tryStep_fault fault, fault]
    rfl
  have queue : (s.stepTaken q rest).queues[q] = rest := Vector.getElem_set_self (hi := q.isLt)
  have script : (((s.stepTaken q rest).updQueue q dropGroup).endQueue q) =
      { s.stepTaken q (dropGroup rest) with running := s.script.running.set q false, hold := s.script.hold.set q 0 } := by
    unfold ScriptUnit.endQueue ScriptUnit.updQueue
    rw [queue]
    simp only [stepTaken, Vector.set_set]
  let u : State := { s with plant := { s.plant with raised := s.plant.raised ++ [.scriptFault q s.script.place[q] r j] } }
  have faulted : (({ s with script := s.stepTaken q rest } : State)).scriptFaulted q s.script.place[q] r j =
      ({ u with script := ((s.stepTaken q rest).updQueue q dropGroup).endQueue q } : State).finishCheck := rfl
  rw [opened, faulted, script, u.finishCheck_ended rfl]
  refine congrArg (fun l => ({ s with
    script := { s.stepTaken q (dropGroup rest) with running := s.script.running.set q false, hold := s.script.hold.set q 0 }
    plant := { s.plant with raised := l } } : State)) ?_
  exact List.append_assoc ..

/-! ## A cycle start of the owner (R156) -/

/-- The script unit with a hold counter at 0. -/
def held0 (s : State) (q : QueueNo) : State := { s with script := { s.script with hold := s.script.hold.set q 0 } }

variable (running : s.script.running[q] = true)

include running

theorem countDown_holds (held : 2 ≤ s.script.hold[q]) :
    s.countDown q = { s with script := { s.script with hold := s.script.hold.set q (s.script.hold[q] - 1) } } := by
  have more : s.script.hold[q] - 1 ≠ 0 := by omega
  simp only [countDown, running, if_true, more, if_false]

theorem countDown_reads (last : s.script.hold[q] ≤ 1) : s.countDown q = (s.held0 q).readItem q := by
  have zero : s.script.hold[q] - 1 = 0 := by omega
  simp only [countDown, running, if_true, zero]
  rfl

theorem countDown_endMark (last : s.script.hold[q] ≤ 1) (mark : s.script.queues[q] = .endMark :: rest) : s.countDown q = { s with
    script := { s.script with
      queues := s.script.queues.set q rest, running := s.script.running.set q false, hold := s.script.hold.set q 0 }
    plant := { s.plant with raised := s.plant.raised ++ s.finishes q } } := by
  rw [countDown_reads running last, readItem_endMark (s := s.held0 q) mark]
  simp only [held0, Vector.set_set]
  rfl

theorem countDown_applies (last : s.script.hold[q] ≤ 1) {hold : Nat} {bs : List Block} (step : s.script.queues[q] = .step hold bs :: rest)
    (good : (s.tryStep q bs).2 = none) : s.countDown q = { (s.tryStep q bs).1 with
      script := { s.stepTaken q rest with hold := s.script.hold.set q hold } } := by
  have tried := s.tryStep_script { s.script with hold := s.script.hold.set q 0 } q bs
  rw [countDown_reads running last, readItem_applies (s := s.held0 q) step ((congrArg Prod.snd tried).trans good)]
  rw [held0, tried]
  simp only [stepTaken, Vector.set_set]

theorem countDown_faults (last : s.script.hold[q] ≤ 1) {hold : Nat} {bs : List Block} {r : Reason} {j : Option JIdx}
    (step : s.script.queues[q] = .step hold bs :: rest) (fault : (s.tryStep q bs).2 = some (r, j)) : s.countDown q = { s with
      script := { s.stepTaken q (dropGroup rest) with running := s.script.running.set q false, hold := s.script.hold.set q 0 }
      plant := { s.plant with raised := s.plant.raised ++ .scriptFault q s.script.place[q] r j :: s.finishes q } } := by
  have tried := s.tryStep_script { s.script with hold := s.script.hold.set q 0 } q bs
  rw [countDown_reads running last, readItem_faults (s := s.held0 q) step ((congrArg Prod.snd tried).trans fault)]
  simp only [held0, stepTaken, Vector.set_set]
  rfl

end Reads

end State

end Sys2Proof.Machine
end

section
/-! SUPPORT. The trials of a script step (R158 to R162). -/

namespace Sys2Proof.Machine

open Sys2Proof

namespace State

/-! ## Master steps (R158) -/

/-- R158: what a trial C fails at a junction. -/
theorem masterFault_eq (p : Plant) (c : Nat) (j : JIdx) : masterFault p c j =
    if (c % 2 = 1 ∧ p.jn[j].plan.mult = 2) ∨ c ≤ p.jn[j].plan.offset * p.jn[j].plan.mult then some .range
    else if feasibilitySum (p.chainEntries j) p.jn[j].plan.a * p.jn[j].plan.mult ≤ c then none else some .infeasible := by
  unfold masterFault
  by_cases odd : c % 2 = 1 ∧ p.jn[j].plan.mult = 2
  · exact (if_pos odd).trans (if_pos (.inl odd)).symm
  · refine (if_neg odd).trans ?_
    by_cases late : c ≤ p.jn[j].plan.offset * p.jn[j].plan.mult
    · exact (if_pos late).trans (if_pos (.inr late)).symm
    · rw [if_neg late, if_neg (not_or.mpr ⟨odd, late⟩)]
      exact if_congr (Plant.planFeasible_iff p j c) rfl rfl

theorem masterFault_isSome_iff (p : Plant) (c : Nat) (j : JIdx) : (masterFault p c j).isSome = true ↔
    ((c % 2 = 1 ∧ p.jn[j].plan.mult = 2) ∨ c ≤ p.jn[j].plan.offset * p.jn[j].plan.mult ∨
      c < feasibilitySum (p.chainEntries j) p.jn[j].plan.a * p.jn[j].plan.mult) := by
  rw [masterFault_eq, ← or_assoc]
  by_cases unfit : (c % 2 = 1 ∧ p.jn[j].plan.mult = 2) ∨ c ≤ p.jn[j].plan.offset * p.jn[j].plan.mult
  · rw [if_pos unfit]
    exact ⟨fun _ => .inl unfit, fun _ => rfl⟩
  · rw [if_neg unfit]
    by_cases fits : feasibilitySum (p.chainEntries j) p.jn[j].plan.a * p.jn[j].plan.mult ≤ c
    · rw [if_pos fits]
      exact ⟨fun is => (nomatch is), fun is => is.elim (fun h => absurd h unfit) fun h => absurd fits (Nat.not_le.mpr h)⟩
    · rw [if_neg fits]
      exact ⟨fun _ => .inr (Nat.lt_of_not_le fits), fun _ => rfl⟩

theorem masterFault_fails {p : Plant} {c : Nat} {j : JIdx} (fails : (masterFault p c j).isSome = true) : masterFault p c j = some
    (if (c % 2 = 1 ∧ p.jn[j].plan.mult = 2) ∨ c ≤ p.jn[j].plan.offset * p.jn[j].plan.mult then .range else .infeasible) := by
  rw [masterFault_eq] at fails ⊢
  by_cases unfit : (c % 2 = 1 ∧ p.jn[j].plan.mult = 2) ∨ c ≤ p.jn[j].plan.offset * p.jn[j].plan.mult
  · rw [if_pos unfit, if_pos unfit]
  · rw [if_neg unfit] at fails ⊢
    by_cases fits : feasibilitySum (p.chainEntries j) p.jn[j].plan.a * p.jn[j].plan.mult ≤ c
    · rw [if_pos fits] at fails
      exact nomatch fails
    · rw [if_neg fits, if_neg unfit]

/-- The lowest of the junctions that fail. -/
theorem firstFailing_eq_some {p : Plant} {fails : JIdx → Bool} {j : JIdx} (present : p.jn[j].state ≠ .absent) (here : fails j = true)
    (lower : ∀ i : JIdx, i < j → p.jn[i].state ≠ .absent → fails i = false) : p.firstFailing fails = some j := by
  unfold Plant.firstFailing
  refine List.find?_eq_some_iff_append.mpr ⟨?_, (List.finRange 12).take j.val, (List.finRange 12).drop (j.val + 1), ?_, fun i mem => ?_⟩
  · rw [(Plant.present_iff _).mpr present, here]
    rfl
  · have len : j.val < (List.finRange 12).length := by rw [List.length_finRange]; exact j.isLt
    have cut := List.drop_eq_getElem_cons len
    rw [List.getElem_finRange] at cut
    refine (List.take_append_drop j.val (List.finRange 12)).symm.trans (congrArg (fun l => (List.finRange 12).take j.val ++ l) ?_)
    exact cut
  · obtain ⟨k, low, rfl⟩ := List.mem_iff_getElem.mp mem
    rw [List.length_take, List.length_finRange] at low
    have value : ((List.finRange 12).take j.val)[k] = (⟨k, by omega⟩ : JIdx) := by
      rw [List.getElem_take, List.getElem_finRange]
      rfl
    have before : (⟨k, by omega⟩ : JIdx) < j := Fin.lt_def.mpr (by show k < j.val; omega)
    rw [value]
    by_cases absent : p.jn[(⟨k, by omega⟩ : JIdx)].state = .absent
    · rw [absent]
      rfl
    · rw [lower _ before absent, Bool.and_false]
      rfl

theorem tryMaster_applies {s : State} {bs : List Block} (passes : s.masterFails? (masterTrial bs (s.tb.c, s.tb.dir)).1 = none) :
    s.tryStep masterQueue bs = (s.setCorridor (masterTrial bs (s.tb.c, s.tb.dir)).1 (masterTrial bs (s.tb.c, s.tb.dir)).2, none) := by
  rw [tryStep_master, tryMaster]
  simp only [passes]

theorem tryMaster_faults {s : State} {bs : List Block} {j : JIdx} (fails : s.masterFails? (masterTrial bs (s.tb.c, s.tb.dir)).1 = some j) :
    s.tryStep masterQueue bs = (s, (masterFault s.plant (masterTrial bs (s.tb.c, s.tb.dir)).1 j).map fun r => (r, some j)) := by
  rw [tryStep_master, tryMaster]
  simp only [fails]

theorem masterFails?_eq_none {s : State} {c : Nat} (passes : c = s.tb.c ∨ ∀ j, ¬s.plant.TrialFails c j) : s.masterFails? c = none := by
  unfold masterFails?
  rcases passes with same | fine
  · exact if_pos same
  · split
    · rfl
    · refine (Plant.firstFailing_eq_none_iff _ _).mpr fun j present => Bool.eq_false_iff.mpr fun fails => ?_
      exact fine j ⟨present, (masterFault_isSome_iff _ c j).mp fails⟩

/-- R158: a C that every junction passes, or that is in force. -/
theorem tryMaster_passes {s : State} {c : Nat} (passes : c = s.tb.c ∨ ∀ j, ¬s.plant.TrialFails c j) :
    s.tryStep masterQueue [.cycle c] = ({ s with tb := { s.tb with c := c } }, none) := by
  have kept : s.setCorridor c s.tb.dir = { s with tb := { s.tb with c := c } } := by
    unfold setCorridor
    rw [if_pos rfl]
  rw [← kept]
  exact tryMaster_applies (bs := [.cycle c]) (masterFails?_eq_none passes)

/-- R158, R163: the first junction that a C fails at. -/
theorem tryMaster_fails {s : State} {c : Nat} {j : JIdx} (other : c ≠ s.tb.c) (fails : s.plant.TrialFails c j)
    (lower : ∀ i : JIdx, i < j → ¬s.plant.TrialFails c i) :
    s.tryStep masterQueue [.cycle c] = (s, some (if (c % 2 = 1 ∧ s.plant.jn[j].plan.mult = 2) ∨
      c ≤ s.plant.jn[j].plan.offset * s.plant.jn[j].plan.mult then .range else .infeasible, some j)) := by
  have fault := (masterFault_isSome_iff s.plant c j).mpr fails.2
  have found : s.masterFails? c = some j := (if_neg other).trans (firstFailing_eq_some fails.1 fault fun i low present =>
    Bool.eq_false_iff.mpr fun is => lower i low ⟨present, (masterFault_isSome_iff _ c i).mp is⟩)
  refine (tryMaster_faults (bs := [.cycle c]) found).trans ?_
  exact congrArg (fun r : Option Reason => (s, r.map fun r => (r, some j))) (masterFault_fails fault)

/-- R158, R9: a direction. -/
theorem tryMaster_direction (s : State) (d : Direction) : s.tryStep masterQueue [.direction d] = (s.setCorridor s.tb.c d, none) :=
  tryMaster_applies (bs := [.direction d]) (masterFails?_eq_none (.inl rfl))

theorem setCorridor_at (s : State) (c : Nat) (d : Direction) (j : JIdx) : (s.setCorridor c d).plant.jn[j] =
    if d ≠ s.tb.dir ∧ s.plant.jn[j].guard.probe.active = true
    then { s.plant.jn[j] with guard := { s.plant.jn[j].guard with probe := .off } } else s.plant.jn[j] := by
  have off : s.plant.directionChanged.jn[j] = s.plant.jn[j].probeOff := Vector.getElem_map ..
  unfold setCorridor
  by_cases same : d = s.tb.dir
  · rw [if_pos same, if_neg fun is => is.1 same]
  · rw [if_neg same]
    refine off.trans ?_
    unfold Junction.probeOff
    exact if_congr ⟨fun active => ⟨same, active⟩, fun is => is.2⟩ rfl rfl

/-! ## Junction steps (R159 to R162) -/

/-- R156: the tally mark of a step. -/
def stepped (K : Junction) : Junction := { K with tally := { K.tally with scriptStep := true } }

/-- R159: the checks of a step. -/
theorem junctionFault_eq (p : Plant) (c : Nat) (j : JIdx) (bs : List Block) : junctionFault p c j bs =
    if c / p.jn[j].plan.mult / 5 < (offsetTotal bs).natAbs ∨
      ∃ x ∈ p.chainEntries j, splitTarget bs x = true ∧ (stepSplit bs x).split < x.minimum then some .range
    else if feasibilitySum ((p.chainEntries j).map (stepSplit bs)) p.jn[j].plan.a * p.jn[j].plan.mult ≤ c then none
    else some .infeasible := by
  have short : ((p.chainEntries j).any fun x => splitTarget bs x && decide ((stepSplit bs x).split < x.minimum)) = true ↔
      ∃ x ∈ p.chainEntries j, splitTarget bs x = true ∧ (stepSplit bs x).split < x.minimum := by
    simp only [List.any_eq_true, Bool.and_eq_true, decide_eq_true_eq]
  unfold junctionFault
  by_cases far : c / p.jn[j].plan.mult / 5 < (offsetTotal bs).natAbs
  · exact (if_pos far).trans (if_pos (.inl far)).symm
  · refine (if_neg far).trans ?_
    by_cases low : ∃ x ∈ p.chainEntries j, splitTarget bs x = true ∧ (stepSplit bs x).split < x.minimum
    · exact (if_pos (short.mpr low)).trans (if_pos (.inr low)).symm
    · rw [if_neg (not_or.mpr ⟨far, low⟩)]
      exact (if_neg fun is => low (short.mp is)).trans (if_congr decide_eq_true_iff rfl rfl)

/-- R159 to R162: a step applied. -/
structure StepApplied (p q : Plant) (c m : Nat) (j : JIdx) (bs : List Block) : Prop where
  junction : q.jn[j] = (if offsetTotal bs = 0 then
      stepped { p.jn[j] with guard := { p.jn[j].guard with settings := stepGuard bs p.jn[j].guard.settings } }
    else (stepped { p.jn[j] with
      plan := { p.jn[j].plan with offset := shiftOffset p.jn[j].plan.offset (offsetTotal bs) (c / p.jn[j].plan.mult) }
      guard := { p.jn[j].guard with settings := stepGuard bs p.jn[j].guard.settings } }).realign c m)
  others : p.OthersSame q j
  pool : (∀ x, stepSplit bs (stepSplit bs x) = stepSplit bs x) → ∀ i : EntryNo,
    q.pool[i] = if i ∈ p.jn[j].chain then stepSplit bs p.pool[i] else p.pool[i]

theorem applyJunctionStep_applied (p : Plant) (c m : Nat) (j : JIdx) (bs : List Block) :
    StepApplied p (applyJunctionStep p c m j bs) c m j bs := by
  let u := p.updEnts p.jn[j].chain (stepSplit bs)
  let f : Junction → Junction := fun J => if offsetTotal bs = 0 then
      stepped { J with guard := { J.guard with settings := stepGuard bs J.guard.settings } }
    else (stepped { J with
      plan := { J.plan with offset := shiftOffset J.plan.offset (offsetTotal bs) (c / J.plan.mult) }
      guard := { J.guard with settings := stepGuard bs J.guard.settings } }).realign c m
  have made : applyJunctionStep p c m j bs = u.upd j f := rfl
  have frame : u = { p with pool := u.pool } := Plant.updEnts_frame p.jn[j].chain (stepSplit bs) p
  have junction : u.jn[j] = p.jn[j] := by rw [frame]
  rw [made]
  refine ⟨(Plant.upd_at u j f).trans (congrArg f junction), fun i hi => ?_, fun once i => Plant.updEnts_pool once i _ p⟩
  refine (Plant.othersSame_upd u j f i hi).trans ?_
  rw [frame]

theorem tryJunction_refuses {s : State} {j : JIdx} {bs : List Block} {r : Reason} (fault : junctionFault s.plant s.tb.c j bs = some r) :
    s.tryStep (junctionQueue j) bs = (s, some (r, none)) := by
  rw [tryStep_junction, tryJunction]
  simp only [fault]

theorem tryJunction_applies {s : State} {j : JIdx} {bs : List Block} (good : junctionFault s.plant s.tb.c j bs = none) :
    ∃ q, s.tryStep (junctionQueue j) bs = ({ s with plant := q }, none) ∧ StepApplied s.plant q s.tb.c s.tb.m j bs := by
  refine ⟨_, ?_, applyJunctionStep_applied s.plant s.tb.c s.tb.m j bs⟩
  rw [tryStep_junction, tryJunction]
  simp only [good]

/-- R160: the realigned span of a shift at the start of a cycle. -/
theorem realignedSpan_shift {m offset len : Nat} {o : Int} (zero : (m : Int) % (10 * len : Nat) = 10 * offset)
    (long : 10 ≤ len) (small : o.natAbs ≤ len / 5) :
    (realignedSpan m (shiftOffset offset o len) (10 * len) 0 : Int) = 10 * len + 10 * o := by
  obtain ⟨-, half, zeroSpan, first⟩ := realignedSpan_cutsAt m (shiftOffset offset o len) 0 (len := 10 * len) (by omega)
  generalize realignedSpan m (shiftOffset offset o len) (10 * len) 0 = z at half zeroSpan first ⊢
  obtain ⟨b, shifted⟩ : ∃ b : Int, (shiftOffset offset o len : Int) = offset + o - len * b :=
    ⟨((offset : Int) + o) / len, by rw [shiftOffset, Int.toNat_of_nonneg (Int.emod_nonneg _ (by omega)), Int.emod_def]⟩
  obtain ⟨a, position⟩ : ∃ a : Int, (m : Int) = 10 * offset + 10 * (len * a) :=
    ⟨(m : Int) / (10 * len : Nat), by
      have cut := Int.emod_add_mul_ediv (m : Int) (10 * len : Nat)
      rw [zero, Nat.cast_mul, mul_assoc] at cut
      push_cast at cut ⊢
      exact cut.symm⟩
  obtain ⟨k, reached⟩ := Int.dvd_of_emod_eq_zero zeroSpan
  have turns : (z : Int) = 10 * (len * (k - a - b)) + 10 * o := by
    push_cast at reached
    linarith [mul_sub (len : Int) (k - a) b, mul_sub (len : Int) k a, mul_assoc (10 : Int) len k]
  generalize k - a - b = t at turns
  obtain ⟨target, aimed⟩ : ∃ target : Nat, (target : Int) = 10 * len + 10 * o := ⟨(10 * (len : Int) + 10 * o).toNat, Int.toNat_of_nonneg (by omega)⟩
  have positive : 1 ≤ t := by
    by_contra low
    have : (len : Int) * t ≤ 0 := mul_nonpos_of_nonneg_of_nonpos (by omega) (by omega)
    omega
  have least : z ≤ target := by
    by_contra beyond
    refine first target (Nat.zero_le _) (Nat.lt_of_not_le beyond) (by omega) ?_
    have whole : (m : Int) + target - (0 : Nat) - 10 * (shiftOffset offset o len : Nat) = (10 * len : Nat) * (a + 1 + b) := by
      rw [position, aimed, shifted]
      push_cast
      ring
    exact (congrArg (fun x : Int => x % (10 * len : Nat)) whole).trans (Int.mul_emod_right ..)
  have single : t ≤ 1 := by
    by_contra high
    have : (len : Int) * 2 ≤ len * t := mul_le_mul_of_nonneg_left (by omega) (by omega)
    omega
  obtain rfl : t = 1 := le_antisymm single positive
  rw [turns, mul_one]

end State

end Sys2Proof.Machine
end

section
/-! SUPPORT. CLOSE GROUP and DROP SCRIPTS (R151, R152); the start of a group (R154, R155). -/

namespace Sys2Proof.Machine

open Sys2Proof

namespace ScriptUnit

/-! ## The store (R148, R151, R152) -/

theorem held_closed (u : ScriptUnit) (nb : Option Nat) : (State.closeQueues u nb).held = u.held + 13 := by
  have more : (u.queues.map fun q => q ++ [Item.endMark]).toList.map List.length = u.queues.toList.map fun q => q.length + 1 := by
    rw [Vector.toList_map, List.map_map]
    exact List.map_congr_left fun q _ => List.length_append
  have sum (l : List (List Item)) : (l.map fun q => q.length + 1).sum = (l.map List.length).sum + l.length := by
    induction l with
    | nil => rfl
    | cons q l ih =>
      simp only [List.map_cons, List.sum_cons, List.length_cons, ih]
      omega
  unfold held
  refine (congrArg List.sum more).trans ((sum _).trans ?_)
  rw [Vector.length_toList]

theorem held_empty (u : ScriptUnit) (empty : u.queues = Vector.replicate 13 []) : u.held = 0 := by
  unfold held
  rw [empty]
  rfl

theorem drop_idle {u : ScriptUnit} (idle : ∀ q : QueueNo, u.running[q] = false) :
    u.drop = { u with queues := Vector.replicate 13 [], notBefore := [] } := by
  have queues : (Vector.ofFn fun q : Fin 13 => if u.running[q] then takeGroup u.queues[q] else []) = Vector.replicate 13 [] := by
    refine Vector.ext fun i low => ?_
    rw [Vector.getElem_ofFn, Vector.getElem_replicate, if_neg]
    exact Bool.eq_false_iff.mp (idle ⟨i, low⟩)
  unfold drop
  rw [queues]

/-! ## The start of a group (R155) -/

theorem skipEmpty_mark {u : ScriptUnit} {q : QueueNo} {rest : List Item} (mark : u.queues[q] = .endMark :: rest) :
    u.skipEmpty q = { u with queues := u.queues.set q rest, running := u.running.set q false } := by
  unfold skipEmpty
  simp only [mark]

theorem skipEmpty_other {u : ScriptUnit} {q : QueueNo} (other : u.queues[q].head? ≠ some .endMark) : u.skipEmpty q = u := by
  unfold skipEmpty
  split
  · rename_i mark
    exact absurd (by rw [mark]; rfl) other
  · rfl

/-- What the reading of the end marks leaves of a queue. -/
structure SkipSame (q : QueueNo) (u v : ScriptUnit) : Prop where
  queue : v.queues[q] = u.queues[q]
  running : v.running[q] = u.running[q]
  hold : v.hold = u.hold
  notBefore : v.notBefore = u.notBefore

theorem SkipSame.refl {q : QueueNo} (u : ScriptUnit) : SkipSame q u u := ⟨rfl, rfl, rfl, rfl⟩

theorem SkipSame.trans {q : QueueNo} {u v w : ScriptUnit} (h : SkipSame q u v) (g : SkipSame q v w) : SkipSame q u w :=
  ⟨g.queue.trans h.queue, g.running.trans h.running, g.hold.trans h.hold, g.notBefore.trans h.notBefore⟩

theorem skipEmpty_elsewhere (u : ScriptUnit) {q r : QueueNo} (apart : r ≠ q) : SkipSame q u (u.skipEmpty r) := by
  have off : r.val ≠ q.val := fun same => apart (Fin.ext same)
  unfold skipEmpty
  split
  · exact ⟨Vector.getElem_set_ne r.isLt q.isLt off, Vector.getElem_set_ne r.isLt q.isLt off, rfl, rfl⟩
  · exact .refl u

theorem skipEmpty_frame (u : ScriptUnit) (q : QueueNo) : (u.skipEmpty q).hold = u.hold ∧ (u.skipEmpty q).notBefore = u.notBefore := by
  unfold skipEmpty
  split <;> exact ⟨rfl, rfl⟩

/-- R155: a queue of the group that starts. -/
theorem startGroup_at (u : ScriptUnit) (q : QueueNo) : u.startGroup.notBefore = u.notBefore.tail ∧ u.startGroup.hold[q] = 1 ∧
    (∀ behind, u.queues[q] = .endMark :: behind → u.startGroup.queues[q] = behind ∧ u.startGroup.running[q] = false) ∧
    (u.queues[q].head? ≠ some .endMark → u.startGroup.queues[q] = u.queues[q] ∧ u.startGroup.running[q] = true) := by
  let b : ScriptUnit := { u with
    notBefore := u.notBefore.tail, hold := Vector.replicate 13 1, running := Vector.replicate 13 true, place := Vector.replicate 13 0 }
  have made : u.startGroup = (List.finRange 13).foldl skipEmpty b := rfl
  obtain ⟨v, before, after⟩ := foldl_visits (S := SkipSame q) SkipSame.refl SkipSame.trans (f := skipEmpty) (j := q)
    (fun w r apart => w.skipEmpty_elsewhere apart) (List.finRange 13) (List.nodup_finRange 13) (List.mem_finRange q) b
  rw [made]
  generalize (List.finRange 13).foldl skipEmpty b = t at after ⊢
  obtain ⟨hold, notBefore⟩ := v.skipEmpty_frame q
  refine ⟨after.notBefore.trans (notBefore.trans before.notBefore), ?_, fun behind mark => ?_, fun other => ?_⟩
  · have replicate : b.hold[q] = 1 := Vector.getElem_replicate ..
    rw [after.hold, hold, before.hold]
    exact replicate
  · have skipped := skipEmpty_mark (u := v) (before.queue.trans mark)
    rw [after.queue, after.running, skipped]
    exact ⟨Vector.getElem_set_self (hi := q.isLt), Vector.getElem_set_self (hi := q.isLt)⟩
  · have skipped := skipEmpty_other (u := v) (q := q) (by rw [before.queue]; exact other)
    have set : b.running[q] = true := Vector.getElem_replicate ..
    rw [after.queue, after.running, skipped]
    exact ⟨before.queue, before.running.trans set⟩

end ScriptUnit

namespace State

/-! ## The directives -/

theorem closeGroup_fields (s : State) {a b c : Byte} (time : 65536 * a.toNat + 256 * b.toNat + c.toNat < 86400) :
    closeGroup [1, a, b, c] s = if Config.waitingGroups ≤ s.script.notBefore.length ∨ s.script.freeSlots < 13 then refuse s .noRoom
      else ({ s with script := closeQueues s.script (some (65536 * a.toNat + 256 * b.toNat + c.toNat)) },
        .done (byte (s.script.notBefore.length + 1) :: be2 (243 - s.script.held))) := by
  have free (nb : Option Nat) : (closeQueues s.script nb).freeSlots = 243 - s.script.held := by
    rw [ScriptUnit.freeSlots, ScriptUnit.held_closed]
    simp only [Config.scriptSlots]
    omega
  have groups (nb : Option Nat) : (closeQueues s.script nb).notBefore.length = s.script.notBefore.length + 1 := List.length_append
  have number : nat3 a.toNat b.toNat c.toNat = 65536 * a.toNat + 256 * b.toNat + c.toNat := by
    unfold nat3
    omega
  have mark : flag? (1 : Byte).toNat = some true := rfl
  simp only [closeGroup, bodyNats_cons, bodyNats_nil, mark, if_true, free, groups, number]
  exact if_neg fun late => absurd late.2 (Nat.not_le.mpr time)

theorem dropScripts_idle (s : State) (idle : ∀ q : QueueNo, s.script.running[q] = false) : dropScripts [] s =
    ({ s with script := { s.script with queues := Vector.replicate 13 [], notBefore := [] } },
      .done (byte s.script.notBefore.length :: be2 s.script.held)) := by
  have dropped := ScriptUnit.drop_idle idle
  have none : s.script.drop.held = 0 := ScriptUnit.held_empty _ (by rw [dropped])
  simp only [dropScripts, none, Nat.sub_zero]
  rw [dropped]

/-! ## The conditions of a start (R154) -/

theorem inWindow_iff (nb tod : Option Nat) : inWindow nb tod = true ↔
    ∀ n, nb = some n → ∃ t, tod = some t ∧ (t + 86400 - n) % 86400 < 43200 := by
  unfold inWindow
  cases nb with
  | none => exact ⟨fun _ _ is => (nomatch is), fun _ => rfl⟩
  | some n =>
    cases tod with
    | none => exact ⟨fun is => (nomatch is), fun all => by obtain ⟨t, is, -⟩ := all n rfl; exact nomatch is⟩
    | some t =>
      refine decide_eq_true_iff.trans ⟨fun inside m is => ?_, fun all => ?_⟩
      · obtain rfl := Option.some.inj is
        exact ⟨t, rfl, inside⟩
      · obtain ⟨u, is, inside⟩ := all n rfl
        obtain rfl := Option.some.inj is
        exact inside

/-- R154: a group that may not start waits. -/
theorem tryStart_waits {s : State} {nb : Option Nat} {rest : List (Option Nat)} (group : s.script.notBefore = nb :: rest)
    (closed : ¬inWindow nb s.tb.tod = true) : s.tryStart = s := by
  simp only [tryStart, group]
  exact if_neg fun is => closed is.2.2

theorem tryStart_running {s : State} (running : s.script.isRunning = true) : s.tryStart = s := by
  unfold tryStart
  split
  · rfl
  · exact if_neg fun is => Bool.false_ne_true (is.2.1.symm.trans running)

/-- R164: the check raises notices only. -/
theorem finishCheck_raises (s : State) : ∃ ns, s.finishCheck = { s with plant := { s.plant with raised := s.plant.raised ++ ns } } := by
  unfold finishCheck
  split
  · exact ⟨[], by rw [List.append_nil]⟩
  · exact ⟨[.finished s.tb.tod], rfl⟩

/-- R154, R155: a group starts, which raises STARTED. -/
theorem tryStart_starts {s : State} {nb : Option Nat} {rest : List (Option Nat)} (group : s.script.notBefore = nb :: rest)
    (coordinating : s.tb.corridor = .coordinating) (idle : s.script.isRunning = false) (inside : inWindow nb s.tb.tod = true) :
    ∃ ns, s.tryStart = { s with
      script := s.script.startGroup
      plant := { s.plant with raised := s.plant.raised ++ .started nb s.tb.tod rest.length :: ns } } := by
  have opened : s.tryStart = (({ s with script := s.script.startGroup } : State).raise (.started nb s.tb.tod rest.length)).finishCheck := by
    simp only [tryStart, group]
    exact if_pos ⟨coordinating, idle, inside⟩
  rw [opened]
  generalize s.script.startGroup = u
  obtain ⟨ns, made⟩ := finishCheck_raises (({ s with script := u } : State).raise (.started nb s.tb.tod rest.length))
  refine ⟨ns, made.trans ?_⟩
  exact congrArg (fun l => ({ s with script := u, plant := { s.plant with raised := l } } : State)) (List.append_assoc ..)

end State

end Sys2Proof.Machine
end

section
/-! SUPPORT. What counting down leaves unchanged, and what it depends on (R156). -/

namespace Sys2Proof.Machine

open Sys2Proof

namespace State

/-! ## What counting down leaves unchanged -/

/-- What the count-down of a queue leaves as it is. -/
structure CountFrame (s t : State) (q : QueueNo) : Prop where
  notBefore : t.script.notBefore = s.script.notBefore
  elsewhere : ∀ r : QueueNo, r ≠ q → t.script.queues[r] = s.script.queues[r] ∧ t.script.running[r] = s.script.running[r] ∧
    t.script.hold[r] = s.script.hold[r]
  raised : ∀ n ∈ s.plant.raised, n ∈ t.plant.raised
  report : t.report = s.report

theorem tryStep_quiet (s : State) (q : QueueNo) (bs : List Block) :
    (s.tryStep q bs).1.plant.raised = s.plant.raised ∧ (s.tryStep q bs).1.report = s.report := by
  have direction (c : Nat) (d : Direction) : (s.setCorridor c d).plant.raised = s.plant.raised ∧ (s.setCorridor c d).report = s.report := by
    unfold setCorridor
    split <;> exact ⟨rfl, rfl⟩
  have applied (c m : Nat) (j : JIdx) : (applyJunctionStep s.plant c m j bs).raised = s.plant.raised := by
    have frame := Plant.updEnts_frame s.plant.jn[j].chain (stepSplit bs) s.plant
    exact (congrArg Plant.raised frame :)
  unfold tryStep
  cases idx? 12 q.val with
  | some j =>
    dsimp only [tryJunction]
    cases junctionFault s.plant s.tb.c j bs with
    | some r => exact ⟨rfl, rfl⟩
    | none => exact ⟨applied _ _ j, rfl⟩
  | none =>
    dsimp only [tryMaster]
    cases s.masterFails? (masterTrial bs (s.tb.c, s.tb.dir)).1 with
    | some j => exact ⟨rfl, rfl⟩
    | none => exact direction _ _

/-- A script unit that has changed at one queue only. -/
def QueueOnly (u v : ScriptUnit) (q : QueueNo) : Prop := v.notBefore = u.notBefore ∧
  ∀ r : QueueNo, r ≠ q → v.queues[r] = u.queues[r] ∧ v.running[r] = u.running[r] ∧ v.hold[r] = u.hold[r]

theorem queueOnly_set (u : ScriptUnit) (q : QueueNo) (queue : List Item) (run : Bool) (h : Nat) (place : Vector Nat 13) :
    QueueOnly u { u with queues := u.queues.set q queue, running := u.running.set q run, hold := u.hold.set q h, place := place } q :=
  ⟨rfl, fun r apart =>
    have off : q.val ≠ r.val := fun same => apart (Fin.ext same.symm)
    ⟨Vector.getElem_set_ne q.isLt r.isLt off, Vector.getElem_set_ne q.isLt r.isLt off, Vector.getElem_set_ne q.isLt r.isLt off⟩⟩

theorem queueOnly_hold (u : ScriptUnit) (q : QueueNo) (h : Nat) : QueueOnly u { u with hold := u.hold.set q h } q :=
  ⟨rfl, fun r apart => ⟨rfl, rfl, Vector.getElem_set_ne q.isLt r.isLt fun same => apart (Fin.ext same.symm)⟩⟩

theorem queueOnly_step (u : ScriptUnit) (q : QueueNo) (queue : List Item) (h : Nat) (place : Vector Nat 13) :
    QueueOnly u { u with queues := u.queues.set q queue, hold := u.hold.set q h, place := place } q :=
  ⟨rfl, fun r apart =>
    have off : q.val ≠ r.val := fun same => apart (Fin.ext same.symm)
    ⟨Vector.getElem_set_ne q.isLt r.isLt off, rfl, Vector.getElem_set_ne q.isLt r.isLt off⟩⟩

theorem QueueOnly.frame {s t : State} {q : QueueNo} (only : QueueOnly s.script t.script q) (raised : ∀ n ∈ s.plant.raised, n ∈ t.plant.raised)
    (report : t.report = s.report) : CountFrame s t q := ⟨only.1, only.2, raised, report⟩

theorem countDown_frame (s : State) (q : QueueNo) : CountFrame s (s.countDown q) q := by
  by_cases running : s.script.running[q] = true
  · by_cases held : 2 ≤ s.script.hold[q]
    · rw [countDown_holds running held]
      exact (queueOnly_hold s.script q _).frame (fun _ mem => mem) rfl
    · have last : s.script.hold[q] ≤ 1 := by omega
      match queue : s.script.queues[q] with
      | [] =>
        rw [countDown_reads running last, readItem_empty (s := s.held0 q) queue]
        exact (queueOnly_hold s.script q 0).frame (fun _ mem => mem) rfl
      | .endMark :: rest =>
        rw [countDown_endMark running last queue]
        exact (queueOnly_set s.script q rest false 0 s.script.place).frame (fun _ mem => List.mem_append_left _ mem) rfl
      | .step hold bs :: rest =>
        cases tried : (s.tryStep q bs).2 with
        | none =>
          obtain ⟨raised, report⟩ := s.tryStep_quiet q bs
          rw [countDown_applies running last queue tried]
          exact (queueOnly_step s.script q rest hold (s.script.place.set q (s.script.place[q] + 1))).frame
            (fun n mem => raised.symm ▸ mem) report
        | some f =>
          rw [countDown_faults running last queue tried]
          exact (queueOnly_set s.script q (dropGroup rest) false 0 (s.script.place.set q (s.script.place[q] + 1))).frame
            (fun _ mem => List.mem_append_left _ mem) rfl
  · rw [countDown_idle s q (Bool.eq_false_iff.mpr running)]
    exact ⟨rfl, fun _ _ => ⟨rfl, rfl, rfl⟩, fun _ mem => mem, rfl⟩

/-! ## What it depends on -/

/-- Counting down depends on the script unit and on the outcome of the trial of a step. -/
theorem countDown_congr {s u : State} {q : QueueNo} {T : Timebase → Timebase → Prop} (script : u.script = s.script) (tb : T s.tb u.tb)
    (trial : ∀ bs, (u.tryStep q bs).2 = none ↔ (s.tryStep q bs).2 = none)
    (applied : ∀ bs, (s.tryStep q bs).2 = none → T (s.tryStep q bs).1.tb (u.tryStep q bs).1.tb) :
    (u.countDown q).script = (s.countDown q).script ∧ T (s.countDown q).tb (u.countDown q).tb := by
  by_cases running : s.script.running[q] = true
  · have runningU : u.script.running[q] = true := by rw [script]; exact running
    by_cases held : 2 ≤ s.script.hold[q]
    · rw [countDown_holds running held, countDown_holds runningU (by rw [script]; exact held), script]
      exact ⟨rfl, tb⟩
    · have last : s.script.hold[q] ≤ 1 := by omega
      have lastU : u.script.hold[q] ≤ 1 := by rw [script]; exact last
      match queue : s.script.queues[q] with
      | [] =>
        have queueU : u.script.queues[q] = [] := by rw [script]; exact queue
        rw [countDown_reads running last, readItem_empty (s := s.held0 q) queue, countDown_reads runningU lastU,
          readItem_empty (s := u.held0 q) queueU, held0, held0, script]
        exact ⟨rfl, tb⟩
      | .endMark :: rest =>
        have queueU : u.script.queues[q] = .endMark :: rest := by rw [script]; exact queue
        rw [countDown_endMark running last queue, countDown_endMark runningU lastU queueU, script]
        exact ⟨rfl, tb⟩
      | .step hold bs :: rest =>
        have queueU : u.script.queues[q] = .step hold bs :: rest := by rw [script]; exact queue
        cases tried : (s.tryStep q bs).2 with
        | none =>
          rw [countDown_applies running last queue tried, countDown_applies runningU lastU queueU ((trial bs).mpr tried), stepTaken,
            stepTaken, script]
          exact ⟨rfl, applied bs tried⟩
        | some f =>
          obtain ⟨g, triedU⟩ : ∃ g, (u.tryStep q bs).2 = some g := Option.ne_none_iff_exists'.mp fun none =>
            nomatch ((trial bs).mp none).symm.trans tried
          rw [countDown_faults running last queue tried, countDown_faults runningU lastU queueU triedU, stepTaken, stepTaken, script]
          exact ⟨rfl, tb⟩
  · rw [countDown_idle s q (Bool.eq_false_iff.mpr running), countDown_idle u q (by rw [script]; exact Bool.eq_false_iff.mpr running)]
    exact ⟨script, tb⟩

/-! ## The local cycle start (R66) -/

/-- R66, step 1, in every state. -/
theorem recordStep_eq (s : State) (j : JIdx) : ∃ r ns g, s.recordStep j = { s with
    report := r, plant := { s.plant.upd j fun J => recounted J g with raised := ns } } := by
  have stored : ∃ r ns, (if s.plant.jn[j].state = .inStep then s.storeRecord (s.formRecord j) else s) =
      { s with report := r, plant := { s.plant with raised := ns } } := by
    split
    · unfold storeRecord
      by_cases full : s.report.held = 23 ∧ (s.report.store (s.formRecord j)).held = 24
      · exact ⟨_, _, if_pos full⟩
      · exact ⟨_, _, if_neg full⟩
    · exact ⟨s.report, s.plant.raised, rfl⟩
  obtain ⟨r, ns, stored⟩ := stored
  have noted : ∃ ms, (if s.plant.jn[j].completions ≠ [] ∨ s.plant.jn[j].overflow = true then
      ({ s with report := r, plant := { s.plant with raised := ns } } : State).raise
        (.completions j s.plant.jn[j].overflow s.plant.jn[j].completions)
      else ({ s with report := r, plant := { s.plant with raised := ns } } : State)) =
      { s with report := r, plant := { s.plant with raised := ms } } := by
    split
    · exact ⟨_, rfl⟩
    · exact ⟨_, rfl⟩
  obtain ⟨ms, noted⟩ := noted
  let green : Bool := (s.plant.bandEntry? j).any fun x => x.status == .serving
  have counted := s.plant.upd_congr j (f := fun J => recounted J (J.state == .inStep && green))
    (g := fun J => recounted J (s.plant.jn[j].state == .inStep && green)) rfl
  refine ⟨r, ms, s.plant.jn[j].state == .inStep && green, ?_⟩
  unfold recordStep
  dsimp only
  rw [stored, noted]
  exact congrArg (fun p : Plant => ({ s with report := r, plant := { p with raised := ms } } : State)) counted

theorem junctionFault_congr {p q : Plant} {j : JIdx} (plan : q.jn[j].plan = p.jn[j].plan) (entries : q.chainEntries j = p.chainEntries j)
    (c : Nat) (bs : List Block) : junctionFault q c j bs = junctionFault p c j bs := by
  rw [junctionFault, junctionFault, plan, entries]

theorem tryJunction_isNone (s : State) (j : JIdx) (bs : List Block) :
    (s.tryStep (junctionQueue j) bs).2 = none ↔ junctionFault s.plant s.tb.c j bs = none := by
  cases fault : junctionFault s.plant s.tb.c j bs with
  | some r =>
    rw [tryJunction_refuses fault]
    exact ⟨fun is => (nomatch is), fun is => (nomatch is)⟩
  | none =>
    obtain ⟨q, made, -⟩ := tryJunction_applies fault
    rw [made]
    exact ⟨fun _ => rfl, fun _ => rfl⟩

/-- R66: with nothing staged the step is tried on the values in force. -/
theorem exec_localCycleStart_script {s : State} {j : JIdx} (present : s.plant.jn[j].state ≠ .absent) (atEnd : s.plant.jn[j].span ≤ s.plant.jn[j].p)
    (plan : s.plant.jn[j].stagedPlan = none) (entries : ∀ i ∈ s.plant.jn[j].chain, s.plant.pool[i].staged = none)
    (guard : s.plant.jn[j].guard.staged = none) (map : s.plant.jn[j].det.stagedMap = none) :
    ∃ t, exec (.localCycleStart j) s = .next t ∧ t.script = (s.countDown (junctionQueue j)).script := by
  let w : State := { s with plant := s.plant.upd j fun J => startCycle J s.tb.c }
  obtain ⟨r, ns, g, recorded⟩ := w.recordStep_eq j
  let u : State := { w with report := r, plant := { w.plant.upd j fun J => recounted J g with raised := ns } }
  have at' : u.plant.jn[j] = recounted (startCycle s.plant.jn[j] s.tb.c) g :=
    (Plant.upd_at w.plant j fun J => recounted J g).trans (congrArg (fun J => recounted J g) (Plant.upd_at s.plant j fun J => startCycle J s.tb.c))
  have pool : u.plant.pool = s.plant.pool := rfl
  have staged : stagedStep u.env u.plant j = u.plant := stagedStep_none u.env (by rw [at']; exact plan)
    (fun i mem => by rw [at'] at mem; exact entries i mem) (by rw [at']; exact guard) (by rw [at']; exact map)
  have same : u.plant.chainEntries j = s.plant.chainEntries j := by
    unfold Plant.chainEntries
    rw [at', pool]
    rfl
  have counted := (countDown_congr (s := s) (u := u) (q := junctionQueue j) (T := fun _ _ => True) rfl trivial (fun bs => by
    rw [tryJunction_isNone, tryJunction_isNone]
    exact Eq.congr (junctionFault_congr (by rw [at']; rfl) same s.tb.c bs) rfl) fun _ _ => trivial).1
  have made : s.localCycleStart j = ((({ u with plant := stagedStep u.env u.plant j } : State).countDown (junctionQueue j)).onPlant fun e p =>
      (planCheck e (reconcile e p j) j).attempts e j) := by
    unfold localCycleStart
    dsimp only
    rw [if_pos ⟨(Plant.present_iff _).mpr present, atEnd⟩, recorded]
    rfl
  rw [staged] at made
  refine ⟨_, congrArg (fun t : State => Host.Outcome.next t.finish) made, ?_⟩
  exact (State.finish_eventFrame _).script.trans counted

end State

end Sys2Proof.Machine
end

section
/-! PROOFS. O44: the script unit (R151 to R164). -/

namespace Sys2Proof.Machine

open Sys2Proof

namespace State

/-! ## Master zero (R2, R154, R156) -/

/-- R154: at a master zero a group that may not start waits. -/
theorem masterZero_waits {s : State} {nb : Option Nat} {rest : List (Option Nat)} (wraps : 10 * s.tb.c ≤ s.tb.m + 1)
    (unstaged : s.tb.staged = none) (idle : ∀ q : QueueNo, s.script.running[q] = false) (group : s.script.notBefore = nb :: rest)
    (closed : ¬inWindow nb s.tb.tod = true) : ∃ t, exec .masterZero s = .next t ∧ t.script = s.script := by
  have work : s.zeroed.masterZeroWork = s.zeroed := by
    rw [masterZeroWork, stagedCorridorStep_none s.zeroed unstaged, tryStart_waits (s := s.zeroed) group closed]
    exact countDown_idle s.zeroed masterQueue (idle masterQueue)
  exact ⟨_, (s.exec_masterZero wraps).trans (by rw [work]), (State.finish_eventFrame s.zeroed).script⟩

/-- R155: at a master zero a group starts, and the master queue counts down. -/
theorem masterZero_starts {s : State} {nb : Option Nat} {rest : List (Option Nat)} (wraps : 10 * s.tb.c ≤ s.tb.m + 1)
    (unstaged : s.tb.staged = none) (coordinating : s.tb.corridor = .coordinating) (idle : ∀ q : QueueNo, s.script.running[q] = false)
    (group : s.script.notBefore = nb :: rest) (inside : inWindow nb s.tb.tod = true) : ∃ v : State,
      exec .masterZero s = .next (v.countDown masterQueue).finish ∧ v.script = s.script.startGroup ∧ v.report = s.report ∧
        .started nb s.tb.tod rest.length ∈ v.plant.raised := by
  have quiet : s.zeroed.script.isRunning = false := Bool.eq_false_iff.mpr fun is =>
    let ⟨q, running⟩ := (ScriptUnit.isRunning_iff _).mp is
    Bool.false_ne_true ((idle q).symm.trans running)
  obtain ⟨ns, started⟩ := tryStart_starts (s := s.zeroed) group coordinating quiet inside
  have work : s.zeroed.masterZeroWork = s.zeroed.tryStart.countDown masterQueue := by
    rw [masterZeroWork, stagedCorridorStep_none s.zeroed unstaged]
  have made := s.exec_masterZero wraps
  have script : s.zeroed.script = s.script := rfl
  rw [script] at started
  rw [work, started] at made
  generalize s.script.startGroup = u at made ⊢
  let v : State := { s.zeroed with
    script := u, plant := { s.zeroed.plant with raised := s.zeroed.plant.raised ++ .started nb s.zeroed.tb.tod rest.length :: ns } }
  exact ⟨v, made, rfl, rfl, List.mem_append_right s.zeroed.plant.raised List.mem_cons_self⟩

/-- R155: what a start at a master zero makes of the queues. -/
theorem countDown_started {s : State} {u : ScriptUnit} (script : s.script = u.startGroup) :
    (s.countDown masterQueue).script.notBefore = u.notBefore.tail ∧
    (∀ q : QueueNo, ∀ behind, u.queues[q] = .endMark :: behind →
      (s.countDown masterQueue).script.queues[q] = behind ∧ (s.countDown masterQueue).script.running[q] = false) ∧
    (∀ q : QueueNo, q ≠ masterQueue → u.queues[q].head? ≠ some .endMark →
      (s.countDown masterQueue).script.queues[q] = u.queues[q] ∧ (s.countDown masterQueue).script.running[q] = true ∧
      (s.countDown masterQueue).script.hold[q] = 1) := by
  have frame := s.countDown_frame masterQueue
  have first := fun q => u.startGroup_at q
  generalize u.startGroup = v at script first
  have other (q : QueueNo) (apart : q ≠ masterQueue) := frame.elsewhere q apart
  rw [script] at other
  refine ⟨frame.notBefore.trans (by rw [script]; exact (first masterQueue).1), fun q behind mark => ?_, fun q apart more => ?_⟩
  · obtain ⟨queue, running⟩ := (first q).2.2.1 behind mark
    by_cases master : q = masterQueue
    · subst master
      rw [countDown_idle s masterQueue (by rw [script]; exact running), script]
      exact ⟨queue, running⟩
    · exact ⟨(other q master).1.trans queue, (other q master).2.1.trans running⟩
  · obtain ⟨queue, running⟩ := (first q).2.2.2 more
    exact ⟨(other q apart).1.trans queue, (other q apart).2.1.trans running, (other q apart).2.2.trans (first q).2.1⟩

theorem masterFails?_isNone (s : State) (c : Nat) : s.masterFails? c = none ↔ c = s.tb.c ∨ ∀ j, ¬s.plant.TrialFails c j := by
  refine ⟨fun none => ?_, masterFails?_eq_none⟩
  by_cases same : c = s.tb.c
  · exact .inl same
  · have found : (s.plant.firstFailing fun j => (masterFault s.plant c j).isSome) = .none := (if_neg same).symm.trans none
    exact .inr fun j fails => Bool.false_ne_true (((Plant.firstFailing_eq_none_iff _ _).mp found j fails.1).symm.trans
      ((masterFault_isSome_iff _ c j).mpr fails.2))

theorem tryMaster_isNone (s : State) (bs : List Block) : (s.tryStep masterQueue bs).2 = none ↔
    s.masterFails? (masterTrial bs (s.tb.c, s.tb.dir)).1 = none := by
  cases found : s.masterFails? (masterTrial bs (s.tb.c, s.tb.dir)).1 with
  | none =>
    rw [tryMaster_applies found]
    exact ⟨fun _ => rfl, fun _ => rfl⟩
  | some j =>
    have fault : (masterFault s.plant (masterTrial bs (s.tb.c, s.tb.dir)).1 j).isSome = true := by
      unfold masterFails? at found
      split at found
      · exact nomatch found
      · have test := List.find?_some found
        exact (Bool.and_eq_true_iff.mp test).2
    rw [tryMaster_faults found, masterFault_fails fault]
    exact ⟨fun is => (nomatch is), fun is => (nomatch is)⟩

/-- R2, R156: a master zero of a running master queue. -/
theorem masterZero_counts {s : State} (wraps : 10 * s.tb.c ≤ s.tb.m + 1) (unstaged : s.tb.staged = none)
    (running : s.script.running[masterQueue] = true) : ∃ t, exec .masterZero s = .next t ∧ t.script = (s.countDown masterQueue).script ∧
      t.tb = { (s.countDown masterQueue).tb with m := 0 } := by
  have work : s.zeroed.masterZeroWork = s.zeroed.countDown masterQueue := by
    rw [masterZeroWork, stagedCorridorStep_none s.zeroed unstaged,
      tryStart_running (s := s.zeroed) ((ScriptUnit.isRunning_iff _).mpr ⟨masterQueue, running⟩)]
  have trial (bs : List Block) : (s.zeroed.tryStep masterQueue bs).2 = none ↔ (s.tryStep masterQueue bs).2 = none := by
    rw [tryMaster_isNone, tryMaster_isNone, masterFails?_isNone, masterFails?_isNone]
    exact or_congr Iff.rfl (forall_congr' fun j => not_congr (s.plant.trialFails_tick _ j))
  have applied (bs : List Block) (good : (s.tryStep masterQueue bs).2 = none) :
      (s.zeroed.tryStep masterQueue bs).1.tb = { (s.tryStep masterQueue bs).1.tb with m := 0 } := by
    rw [tryMaster_applies ((tryMaster_isNone s bs).mp good), tryMaster_applies ((tryMaster_isNone s.zeroed bs).mp ((trial bs).mpr good))]
    rfl
  obtain ⟨script, tb⟩ := countDown_congr (s := s) (u := s.zeroed) (q := masterQueue) (T := fun a b => b = { a with m := 0 }) rfl rfl trial applied
  have frame := State.finish_eventFrame (s.zeroed.countDown masterQueue)
  exact ⟨_, (s.exec_masterZero wraps).trans (by rw [work]), frame.script.trans script, frame.tb.trans tb⟩

/-! ## CLOSE GROUP and DROP SCRIPTS (R151, R152) -/

theorem Takes.closeGroup {s : State} {tag a b c : Byte} (takes : s.Takes tag 0x61 [1, a, b, c])
    (time : 65536 * a.toNat + 256 * b.toNat + c.toNat < 86400) :
    (s.script.notBefore.length < 4 → s.script.held + 13 ≤ 256 → exec .closeGroup s = .next { s with
      script := closeQueues s.script (some (65536 * a.toNat + 256 * b.toNat + c.toNat))
      host := s.host.replied tag 0x61 (1 :: byte (s.script.notBefore.length + 1) :: be2 (243 - s.script.held)) }) ∧
    (4 ≤ s.script.notBefore.length ∨ 243 < s.script.held →
      exec .closeGroup s = .next { s with host := s.host.replied tag 0x61 [2, 5] }) := by
  have taken : exec .closeGroup s = .next (s.take 0x61 State.closeGroup) := rfl
  have handled := s.popIntake.closeGroup_fields time
  have full : (Config.waitingGroups ≤ s.popIntake.script.notBefore.length ∨ s.popIntake.script.freeSlots < 13) ↔
      4 ≤ s.script.notBefore.length ∨ 243 < s.script.held := by
    show (4 ≤ s.script.notBefore.length ∨ 256 - s.script.held < 13) ↔ _
    omega
  refine ⟨fun groups room => ?_, fun out => ?_⟩
  · exact taken.trans (congrArg Host.Outcome.next (takes.take_of (handled.trans (if_neg fun is => by have := full.mp is; omega)) takes.quiet rfl))
  · exact taken.trans (congrArg Host.Outcome.next (takes.take_same _ _ (handled.trans (if_pos (full.mpr out)))))

theorem Takes.dropScripts {s : State} {tag : Byte} (takes : s.Takes tag 0x62 []) (idle : ∀ q : QueueNo, s.script.running[q] = false) :
    exec .dropScripts s = .next { s with
      script := { s.script with queues := Vector.replicate 13 [], notBefore := [] }
      host := s.host.replied tag 0x62 (1 :: byte s.script.notBefore.length :: be2 s.script.held) } := by
  have taken : exec .dropScripts s = .next (s.take 0x62 State.dropScripts) := rfl
  exact taken.trans (congrArg Host.Outcome.next (takes.take_of (s.popIntake.dropScripts_idle idle) takes.quiet rfl))

end State

end Sys2Proof.Machine
end

section
/-! PROOFS. O44: the steps of the script unit put together. -/

namespace Sys2Proof.Machine

open Sys2Proof

namespace State

/-! ## The blocks of a junction step (R160 to R162) -/

/-- R161: what a SPLIT block aims at. -/
def aimed (st : Stage) (x : Entry) : Prop := x.origin = .host ∧ x.kind = .recurring ∧ x.stage = st

theorem splitTarget_iff (st : Stage) (v : Nat) (x : Entry) : splitTarget [.split st v] x = true ↔ aimed st x := by
  simp only [splitTarget, List.any_cons, List.any_nil, Bool.or_false, Bool.and_eq_true, beq_iff_eq, and_assoc]
  exact and_congr_right fun _ => and_congr_right fun _ => eq_comm

theorem stepSplit_aimed {st : Stage} {v : Nat} {x : Entry} (is : aimed st x) : stepSplit [.split st v] x = { x with split := v } := if_pos is

theorem stepSplit_once (st : Stage) (v : Nat) (x : Entry) : stepSplit [.split st v] (stepSplit [.split st v] x) = stepSplit [.split st v] x := by
  by_cases is : aimed st x
  · rw [stepSplit_aimed is, stepSplit_aimed (x := { x with split := v }) is]
  · have same : stepSplit [.split st v] x = x := if_neg is
    rw [same, same]

section Junction

variable (s : State) (j : JIdx)

/-- R159: the fault of a step without SPLIT blocks. -/
theorem junctionFault_plain {bs : List Block} (same : ∀ x, stepSplit bs x = x) (free : ∀ x, splitTarget bs x = false) :
    junctionFault s.plant s.tb.c j bs = if s.tb.c / s.plant.jn[j].plan.mult / 5 < (offsetTotal bs).natAbs then some .range
      else if feasibilitySum (s.plant.chainEntries j) s.plant.jn[j].plan.a * s.plant.jn[j].plan.mult ≤ s.tb.c then none
      else some .infeasible := by
  have entries : (s.plant.chainEntries j).map (stepSplit bs) = s.plant.chainEntries j :=
    (List.map_congr_left fun x _ => same x).trans (List.map_id _)
  rw [junctionFault_eq, entries]
  refine if_congr ⟨fun is => is.elim id fun ⟨x, _, target, _⟩ => ?_, .inl⟩ rfl rfl
  exact absurd target (by rw [free x]; exact Bool.false_ne_true)

/-- R160: an OFFSET block. -/
theorem tryStep_offset (o : Int) :
    (s.tb.c / s.plant.jn[j].plan.mult / 5 < o.natAbs → s.tryStep (junctionQueue j) [.offset o] = (s, some (.range, none))) ∧
    (o.natAbs ≤ s.tb.c / s.plant.jn[j].plan.mult / 5 →
      s.tb.c < feasibilitySum (s.plant.chainEntries j) s.plant.jn[j].plan.a * s.plant.jn[j].plan.mult →
      s.tryStep (junctionQueue j) [.offset o] = (s, some (.infeasible, none))) ∧
    (o.natAbs ≤ s.tb.c / s.plant.jn[j].plan.mult / 5 →
      feasibilitySum (s.plant.chainEntries j) s.plant.jn[j].plan.a * s.plant.jn[j].plan.mult ≤ s.tb.c → ∃ q,
      s.tryStep (junctionQueue j) [.offset o] = ({ s with plant := q }, none) ∧ q.pool = s.plant.pool ∧ s.plant.OthersSame q j ∧
      (o = 0 → q.jn[j] = stepped s.plant.jn[j]) ∧
      (o ≠ 0 → q.jn[j] = (stepped { s.plant.jn[j] with
        plan := { s.plant.jn[j].plan with offset := shiftOffset s.plant.jn[j].plan.offset o (s.tb.c / s.plant.jn[j].plan.mult) } }).realign
          s.tb.c s.tb.m)) := by
  have total : offsetTotal [.offset o] = o := Int.zero_add o
  have fault := s.junctionFault_plain j (bs := [.offset o]) (fun _ => rfl) fun x => by simp [splitTarget]
  rw [total] at fault
  refine ⟨fun far => tryJunction_refuses (fault.trans (if_pos far)), fun near heavy =>
    tryJunction_refuses (fault.trans ((if_neg (Nat.not_lt.mpr near)).trans (if_neg (Nat.not_le.mpr heavy)))), fun near fits => ?_⟩
  obtain ⟨q, made, junction, others, pool⟩ := tryJunction_applies (fault.trans ((if_neg (Nat.not_lt.mpr near)).trans (if_pos fits)))
  rw [total] at junction
  refine ⟨q, made, Vector.ext fun i low => ?_, others, fun zero => junction.trans (if_pos zero), fun some => junction.trans (if_neg some)⟩
  exact (pool (fun _ => rfl) ⟨i, low⟩).trans (ite_self _)

/-- R161: a SPLIT block. -/
theorem tryStep_split (st : Stage) (v : Nat) :
    ((∃ x ∈ s.plant.chainEntries j, aimed st x ∧ v < x.minimum) →
      s.tryStep (junctionQueue j) [.split st v] = (s, some (.range, none))) ∧
    ((∀ x ∈ s.plant.chainEntries j, aimed st x → x.minimum ≤ v) →
      (s.tb.c < feasibilitySum ((s.plant.chainEntries j).map (stepSplit [.split st v])) s.plant.jn[j].plan.a * s.plant.jn[j].plan.mult →
        s.tryStep (junctionQueue j) [.split st v] = (s, some (.infeasible, none))) ∧
      (feasibilitySum ((s.plant.chainEntries j).map (stepSplit [.split st v])) s.plant.jn[j].plan.a * s.plant.jn[j].plan.mult ≤ s.tb.c →
        ∃ q, s.tryStep (junctionQueue j) [.split st v] = ({ s with plant := q }, none) ∧ q.jn[j] = stepped s.plant.jn[j] ∧
          s.plant.OthersSame q j ∧
          ∀ n : EntryNo, q.pool[n] = if n ∈ s.plant.jn[j].chain then stepSplit [.split st v] s.plant.pool[n] else s.plant.pool[n])) := by
  have short : (s.tb.c / s.plant.jn[j].plan.mult / 5 < (offsetTotal [.split st v]).natAbs ∨ ∃ x ∈ s.plant.chainEntries j,
      splitTarget [.split st v] x = true ∧ (stepSplit [.split st v] x).split < x.minimum) ↔
      ∃ x ∈ s.plant.chainEntries j, aimed st x ∧ v < x.minimum := by
    constructor
    · rintro (far | ⟨x, mem, target, low⟩)
      · exact absurd far (Nat.not_lt_zero _)
      · have is := (splitTarget_iff st v x).mp target
        rw [stepSplit_aimed is] at low
        exact ⟨x, mem, is, low⟩
    · rintro ⟨x, mem, is, low⟩
      exact .inr ⟨x, mem, (splitTarget_iff st v x).mpr is, by rw [stepSplit_aimed is]; exact low⟩
  have fault := junctionFault_eq s.plant s.tb.c j [.split st v]
  refine ⟨fun low => tryJunction_refuses (fault.trans (if_pos (short.mpr low))), fun fine => ?_⟩
  have high := mt short.mp fun ⟨x, mem, aims, low⟩ => absurd (fine x mem aims) (Nat.not_le.mpr low)
  refine ⟨fun heavy => tryJunction_refuses (fault.trans ((if_neg high).trans (if_neg (Nat.not_le.mpr heavy)))), fun fits => ?_⟩
  obtain ⟨q, made, junction, others, pool⟩ := tryJunction_applies (fault.trans ((if_neg high).trans (if_pos fits)))
  exact ⟨q, made, junction, others, pool (stepSplit_once st v)⟩

/-- R162: a GUARD block. -/
theorem tryStep_guard (th fl : Nat) :
    (s.tb.c < feasibilitySum (s.plant.chainEntries j) s.plant.jn[j].plan.a * s.plant.jn[j].plan.mult →
      s.tryStep (junctionQueue j) [.guard th fl] = (s, some (.infeasible, none))) ∧
    (feasibilitySum (s.plant.chainEntries j) s.plant.jn[j].plan.a * s.plant.jn[j].plan.mult ≤ s.tb.c → ∃ q,
      s.tryStep (junctionQueue j) [.guard th fl] = ({ s with plant := q }, none) ∧ q.pool = s.plant.pool ∧ s.plant.OthersSame q j ∧
      q.jn[j] = stepped { s.plant.jn[j] with
        guard := { s.plant.jn[j].guard with settings := { s.plant.jn[j].guard.settings with threshold := th, flushTime := fl } } }) := by
  have fault := s.junctionFault_plain j (bs := [.guard th fl]) (fun _ => rfl) fun x => by simp [splitTarget]
  have near : ¬s.tb.c / s.plant.jn[j].plan.mult / 5 < (offsetTotal [.guard th fl]).natAbs := Nat.not_lt_zero _
  refine ⟨fun heavy => tryJunction_refuses (fault.trans ((if_neg near).trans (if_neg (Nat.not_le.mpr heavy)))), fun fits => ?_⟩
  obtain ⟨q, made, junction, others, pool⟩ := tryJunction_applies (fault.trans ((if_neg near).trans (if_pos fits)))
  refine ⟨q, made, Vector.ext fun i low => ?_, others, junction⟩
  exact (pool (fun _ => rfl) ⟨i, low⟩).trans (ite_self _)

end Junction

/-- R14: the length of a cycle in tenths, when C is a multiple of it. -/
theorem cycleTenths_whole {c mult len : Nat} (whole : c = len * mult) (some : 0 < len) (cut : c / mult = len) : cycleTenths c mult = 10 * len := by
  have positive : 0 < mult := Nat.pos_of_ne_zero fun zero => by
    rw [zero, Nat.div_zero] at cut
    omega
  rw [cycleTenths, whole, ← mul_assoc, Nat.mul_div_cancel _ positive]

end State

/-- Settles O44: what a count-down does to the script unit depends on the trial of a step only by its outcome. -/
theorem groupsAreClosedAndDropped : Obligations.GroupsAreClosedAndDropped := by
  refine ⟨fun s tag => ⟨fun a b c takes time => ?close, fun takes idle => ?drop⟩,
    fun s nb rest _ wraps unstaged coordinating idle group => ?starts,
    ⟨fun s j present atEnd plan entries guard map => State.exec_localCycleStart_script present atEnd plan entries guard map,
      fun s wraps unstaged running => State.masterZero_counts wraps unstaged running⟩,
    fun s q => ?counts, ⟨fun s c => ?cycle, fun s d => ?direction⟩, fun s j => ?steps⟩
  case close =>
    obtain ⟨closes, full⟩ := takes.closeGroup time
    exact ⟨fun groups room => ⟨_, closes groups room, rfl, rfl, rfl, rfl, takes.replied _ _ rfl⟩, full⟩
  case drop => exact ⟨_, takes.dropScripts idle, rfl, rfl, rfl, rfl, takes.replied _ _ rfl⟩
  case starts =>
    intro opens
    have window : inWindow nb s.tb.tod = true ↔ opens := State.inWindow_iff nb s.tb.tod
    refine ⟨fun closed => State.masterZero_waits wraps unstaged idle group (mt window.mp closed), fun inside => ?_⟩
    obtain ⟨v, made, script, report, raised⟩ := State.masterZero_starts wraps unstaged coordinating idle group (window.mpr inside)
    obtain ⟨notBefore, empty, more⟩ := State.countDown_started script
    have counted := v.countDown_frame masterQueue
    have frame := State.finish_eventFrame (v.countDown masterQueue)
    refine ⟨_, made, ?_⟩
    rw [frame.script]
    refine ⟨notBefore.trans (by rw [group]; rfl), empty, more, fun armed paused => ?_⟩
    exact State.finish_pend (counted.raised _ raised) rfl (by rw [counted.report, report]; exact armed)
      (by rw [counted.report, report]; exact paused)
  case counts =>
    refine ⟨s.countDown_idle q, fun running held => State.countDown_holds running held,
      fun rest running last mark => State.countDown_endMark running last.le mark, fun hold blocks rest running last step =>
      ⟨fun good => State.countDown_applies running last.le step good, fun r j fault => State.countDown_faults running last.le step fault⟩⟩
  case cycle =>
    exact ⟨State.tryMaster_passes, fun j other fails lower => State.tryMaster_fails other fails lower⟩
  case direction =>
    exact ⟨_, State.tryMaster_direction s d, rfl, rfl, by rw [State.setCorridor]; split <;> rfl, s.setCorridor_at s.tb.c d⟩
  case steps =>
    intro J len stepped sum
    refine ⟨fun o => ?_, fun st v => ?_, fun th fl => ?_⟩
    · obtain ⟨far, heavy, fits⟩ := s.tryStep_offset j o
      refine ⟨far, heavy, fun near fine => ?_⟩
      obtain ⟨q, made, pool, others, zero, moved⟩ := fits near fine
      refine ⟨_, made, rfl, pool, others, zero, fun some => ?_, fun some start whole position _ long => ?_⟩
      · show q.jn[j] = _
        rw [moved some]
        rfl
      · have length : cycleTenths s.tb.c J.plan.mult = 10 * len := State.cycleTenths_whole whole (by omega) rfl
        have span : q.jn[j].span = realignedSpan s.tb.m (State.shiftOffset J.plan.offset o len) (10 * len) 0 := by
          rw [moved some, ← length, ← start]
          rfl
        show (q.jn[j].span : Int) = _
        rw [span]
        exact State.realignedSpan_shift position long near
    · intro aimed set
      obtain ⟨low, fine⟩ := s.tryStep_split j st v
      refine ⟨low, fun high => ⟨(fine high).1, fun fits => ?_⟩⟩
      obtain ⟨q, made, junction, others, pool⟩ := (fine high).2 fits
      exact ⟨_, made, rfl, junction, others, pool⟩
    · obtain ⟨heavy, fits⟩ := s.tryStep_guard j th fl
      refine ⟨heavy, fun fine => ?_⟩
      obtain ⟨q, made, pool, others, junction⟩ := fits fine
      exact ⟨_, made, rfl, pool, others, junction⟩

end Sys2Proof.Machine
end
